-- ==== Sys2Proof/Word.lean ====
section
/-! DEFINITION. Words, vectors and the sparse tables that every layer of the model uses. -/
namespace Sys2Proof

/-- One byte of memory (00 R2). -/
abbrev Byte := BitVec 8
/-- One instruction or extension word (05 R64). -/
abbrev Word := BitVec 32
/-- A sequencer register, an address or a 64-bit record field. -/
abbrev DWord := BitVec 64
/-- The 256 bytes of a vector token, a temporary or a table row (04 R51). -/
abbrev Vec := BitVec 2048
/-- The 128 bits of a predicate register (04 R51). -/
abbrev Pred := BitVec 128

/-- A sparse table: at most one entry for a key, keys ascending when built by `put`. -/
abbrev Tab (α : Type) := List (Nat × α)

/-- The entry of a key, if the table lists one. -/
def Tab.find {α : Type} : Tab α → Nat → Option α
  | [], _ => none
  | (k, v) :: t, n => if k = n then some v else Tab.find t n

/-- The entry of a key, or `d` where the table lists none. -/
def Tab.getD {α : Type} (t : Tab α) (n : Nat) (d : α) : α := (t.find n).getD d

/-- Set the entry of a key, keeping the keys ascending. -/
def Tab.put {α : Type} : Tab α → Nat → α → Tab α
  | [], n, v => [(n, v)]
  | (k, w) :: t, n, v =>
    if n = k then (n, v) :: t
    else if n < k then (n, v) :: (k, w) :: t
    else (k, w) :: Tab.put t n v

/-- Remove the entry of a key. -/
def Tab.drop {α : Type} : Tab α → Nat → Tab α
  | [], _ => []
  | (k, w) :: t, n => if k = n then Tab.drop t n else (k, w) :: Tab.drop t n

end Sys2Proof
end

