-- ==== Sys2Proof/Syntax.lean ====
section
/-! DEFINITION. The syntax of the Jiell instruction set: the operand fields of each format (05 R68 to R84) and one
constructor for each row of the opcode table, the events of the machine among them. -/
namespace Sys2Proof

/-- The operand fields of the EA format (05 R68, R70) with the extension words of A and B (R64); the extension fields
are zero where the selector is not 15. -/
structure EA where
  d : BitVec 3
  a : BitVec 4
  b : BitVec 4
  t : BitVec 3
  p : BitVec 2
  n : BitVec 1
  sat : BitVec 1
  rm : BitVec 2
  x : BitVec 3
  extA : Word
  extB : Word
  deriving DecidableEq, Repr, Inhabited

/-- The operand fields of the ES format (05 R75) and the extension word of colour mode 1. -/
structure ES where
  port : BitVec 2
  chan : BitVec 5
  ctx : BitVec 3
  src : BitVec 4
  last : BitVec 1
  keep : BitVec 1
  mode : BitVec 2
  flags : BitVec 8
  ext : Word
  deriving DecidableEq, Repr, Inhabited

/-- The operand fields of the EM format (05 R76) and the extension word of data source 15. -/
structure EM where
  addr : BitVec 3
  src : BitVec 4
  size : BitVec 3
  mport : BitVec 2
  chan : BitVec 5
  scope : BitVec 3
  variant : BitVec 6
  ext : Word
  deriving DecidableEq, Repr, Inhabited

/-- The operand fields of the EG format (05 R77). -/
structure EG where
  port : BitVec 2
  mode : BitVec 3
  accMode : BitVec 3
  oport : BitVec 2
  g : BitVec 3
  mport : BitVec 2
  width : BitVec 1
  rsv : BitVec 7
  deriving DecidableEq, Repr, Inhabited

/-- The register and flag fields of the QA format (05 R81). -/
structure QA where
  d : BitVec 4
  a : BitVec 4
  b : BitVec 4
  flags : BitVec 8
  deriving DecidableEq, Repr, Inhabited

/-- The register and immediate fields of the QI format (05 R81). -/
structure QI where
  d : BitVec 4
  a : BitVec 4
  imm : BitVec 14
  deriving DecidableEq, Repr, Inhabited

/-- The register and offset fields of the QB format (05 R81). -/
structure QB where
  a : BitVec 4
  b : BitVec 4
  off : BitVec 14
  deriving DecidableEq, Repr, Inhabited

/-- The pointer and flag fields of the QE format (05 R81). -/
structure QE where
  sA : BitVec 4
  sB : BitVec 4
  sC : BitVec 4
  flags : BitVec 10
  deriving DecidableEq, Repr, Inhabited

/-- A sequencer: the region program of the activation of a colour (13 R198) or the stream program of a memory tile
(13 R225). -/
inductive SeqId where
  | region (colour : Nat)
  | stream (tile : Nat)
  deriving DecidableEq, Repr, Inhabited

/-- An engine chain (16 R256): its engine kind 0 to 5, its memory tile (for kind 5 the die), and its activation's
colour (for kind 5 the context). -/
structure ChainId where
  engine : Nat
  tile : Nat
  owner : Nat
  deriving DecidableEq, Repr, Inhabited

/-- A welt message as it comes off a link: a SENDR message with its destination word, flits and age (23 R357). -/
structure WeltMessage where
  dest : DWord
  last : Bool
  iter : BitVec 16
  flits : Nat
  data : Vec
  age : Nat
  deriving DecidableEq, Repr, Inhabited

/-- What a link region's command takes in one collective step: its own next action; what a peer announces of its parameters, its
block and then its rank table; a chunk from a rank with its checksum pair; or a rank's request for a chunk that failed its
verification. Job and collective id name the command, and `link` the welt link that the frame came over (22 R346, R349, R351; 23
R356, R366, R368). -/
inductive ChunkInput where
  | proceed
  | peer (link job collective : Nat) (announced : List Byte)
  | chunk (job collective step slice chunk source link : Nat) (bytes : List Byte) (sumA sumB : DWord)
  | again (link job collective step slice chunk target : Nat)
  deriving DecidableEq, Repr, Inhabited

/-- An abort as it comes off a link: the command it names by link region, job and collective id, and whether a disagreement of
the ranks' parameters has sent it (22 R346, R351; 23 R365). -/
structure CollectiveName where
  lreg : Nat
  job : Nat
  collective : Nat
  link : Nat
  mismatch : Bool := false
  deriving DecidableEq, Repr, Inhabited

/-- A frame of a welt link (23 R356): a SENDR message, an input or an abort for a link region of a die, or a frame of the
package's own of which the other end reports how it came. -/
inductive WeltFrame where
  | message (m : WeltMessage)
  | region (die lreg : Nat) (input : ChunkInput)
  | abort (die : Nat) (command : CollectiveName)
  | own
  deriving DecidableEq, Repr, Inhabited

/-- A function of the readiness map (26 R419). -/
inductive ReadyFunction where
  | tile (die y x : Nat)
  | welt (link : Nat)
  | hbm (stack : Nat)
  | llc (die : Nat)
  | spillEngine (die : Nat)
  | port (index : Nat)
  deriving DecidableEq, Repr, Inhabited

/-- The instructions and events of the Caskel C9, one constructor for each row of the opcode table. An instruction
carries its operand fields; an event carries the unit it happens in or what the outside world brings. -/
inductive Instr where
  /-- Does nothing and occupies one instruction of the block. (R120) -/
  | nop
  /-- Raises a breakpoint exception that carries a 16-bit code and abandons the block. (R120) -/
  | brk (code : BitVec 16)
  /-- Raises a software-trap exception that carries a 16-bit code and abandons the block. (R120) -/
  | trap (code : BitVec 16)
  /-- Copies the bits of the source, or a special value, into each active lane. (R121) -/
  | mov (o : EA)
  /-- Writes every lane with a 16-bit immediate expanded according to the type. (R122) -/
  | li (d : BitVec 3) (t : BitVec 3) (imm : BitVec 16)
  /-- Adds two integer lanes with wrap, or with clamp under .sat. (R123) -/
  | add (o : EA)
  /-- Subtracts two integer lanes with wrap, or with clamp under .sat. (R123) -/
  | sub (o : EA)
  /-- Writes the low half of the integer product of the lanes. (R123) -/
  | mul (o : EA)
  /-- Writes the high half of the integer product of the lanes. (R123) -/
  | mulh (o : EA)
  /-- Computes A times B plus D with a single wrap or clamp. (R123) -/
  | mad (o : EA)
  /-- Writes the signed or unsigned smaller of the two lanes. (R124) -/
  | min (o : EA)
  /-- Writes the signed or unsigned larger of the two lanes. (R124) -/
  | max (o : EA)
  /-- Writes the absolute value of the lane, wrapped or clamped. (R124) -/
  | abs (o : EA)
  /-- Writes the negated lane, wrapped or clamped. (R124) -/
  | neg (o : EA)
  /-- Bitwise AND of the two lanes. (R125) -/
  | and (o : EA)
  /-- Bitwise OR of the two lanes. (R125) -/
  | or (o : EA)
  /-- Bitwise exclusive OR of the two lanes. (R125) -/
  | xor (o : EA)
  /-- Bitwise A AND NOT B. (R125) -/
  | andn (o : EA)
  /-- Bitwise A OR NOT B. (R125) -/
  | orn (o : EA)
  /-- Bitwise NOT of A XOR B. (R125) -/
  | xnor (o : EA)
  /-- Shifts the lane left by an unsigned count, giving zero for counts of the width or more. (R126) -/
  | shl (o : EA)
  /-- Shifts the lane right, filling with zeros. (R126) -/
  | shr (o : EA)
  /-- Shifts the lane right, replicating the top bit. (R126) -/
  | sar (o : EA)
  /-- Rotates the lane left by the count modulo the width. (R126) -/
  | rol (o : EA)
  /-- Counts the leading zero bits of the lane. (R127) -/
  | clz (o : EA)
  /-- Counts the set bits of the lane. (R127) -/
  | popc (o : EA)
  /-- Compares integer lanes under a condition and writes predicate bits. (R128) -/
  | cmp (c : BitVec 3) (o : EA)
  /-- Writes every lane from A or B according to a predicate. (R129) -/
  | sel (o : EA)
  /-- Converts lanes between integer types, or between integer and floating types. (R130) -/
  | cvt (c : BitVec 3) (o : EA)
  /-- Writes each lane from the lane of A that B indexes. (R131) -/
  | shuf (o : EA)
  /-- Broadcasts lane B[0] of A to the active lanes. (R132) -/
  | bcast (o : EA)
  /-- Rotates the lanes of A toward lane 0 by B[0]. (R132) -/
  | lrot (o : EA)
  /-- Narrows two vectors into one, wrapping or clamping. (R133) -/
  | pack (o : EA)
  /-- Widens the low half of a vector with sign or zero extension. (R134) -/
  | unpackLo (o : EA)
  /-- Widens the high half of a vector with sign or zero extension. (R134) -/
  | unpackHi (o : EA)
  /-- Reduces the active integer lanes by sum, min, max, and, or or xor, and broadcasts the result. (R135) -/
  | red (c : BitVec 3) (o : EA)
  /-- Computes an inclusive or exclusive prefix sum, min or max over the active lanes. (R136) -/
  | scan (c : BitVec 3) (o : EA)
  /-- Writes the AND of two predicates. (R137) -/
  | pand (o : EA)
  /-- Writes the OR of two predicates. (R137) -/
  | por (o : EA)
  /-- Writes the complement of a predicate. (R137) -/
  | pnot (o : EA)
  /-- Sets predicate bits where the source lanes are non-zero. (R137) -/
  | pset (o : EA)
  /-- Adds floating lanes with one rounding in the chosen mode. (R142) -/
  | fadd (o : EA)
  /-- Subtracts floating lanes with one rounding. (R142) -/
  | fsub (o : EA)
  /-- Multiplies floating lanes with one rounding. (R142) -/
  | fmul (o : EA)
  /-- Computes A times B plus D with one rounding. (R143) -/
  | fma (o : EA)
  /-- Computes A times B minus D with one rounding. (R143) -/
  | fms (o : EA)
  /-- Computes minus A times B plus D with one rounding. (R143) -/
  | fnma (o : EA)
  /-- Writes the floating minimum, with -0 ordered below +0. (R144) -/
  | fmin (o : EA)
  /-- Writes the floating maximum, with -0 ordered below +0. (R144) -/
  | fmax (o : EA)
  /-- Clears the sign bit of each lane. (R144) -/
  | fabs (o : EA)
  /-- Inverts the sign bit of each lane. (R144) -/
  | fneg (o : EA)
  /-- Compares floating lanes under a condition and writes predicate bits. (R145) -/
  | fcmp (c : BitVec 3) (o : EA)
  /-- Writes the correctly rounded reciprocal of each lane. (R146) -/
  | frcp (o : EA)
  /-- Writes the reciprocal square root of each lane. (R146) -/
  | frsq (o : EA)
  /-- Writes 2 to the power of each lane. (R146) -/
  | fexp2 (o : EA)
  /-- Writes the base-2 logarithm of each lane. (R146) -/
  | flog2 (o : EA)
  /-- Writes the hyperbolic tangent of each lane. (R146) -/
  | ftanh (o : EA)
  /-- Converts lanes between FP32, BF16, E4M3 and E5M2. (R148) -/
  | fcvt (o : EA)
  /-- Reduces the active floating lanes by a fixed sum tree, min or max. (R149) -/
  | fred (c : BitVec 3) (o : EA)
  /-- Multiplies complex f32 pairs, rounding each part once. (R150) -/
  | cmul (o : EA)
  /-- Multiplies complex f32 pairs and adds D, rounding each part once. (R150) -/
  | cmad (o : EA)
  /-- Stages one scalar or vector token of a chosen kind on an output port, sent at commit. (R192) -/
  | send (o : ES)
  /-- Stages a message of 1 to 8 flits to a destination word held in a temporary. (R194) -/
  | sendr (o : ES)
  /-- Stages a zero scalar token of kind LAST on an output port. (R196) -/
  | last (o : ES)
  /-- Releases the operand on an input port at commit, even under KP. (R197) -/
  | drop (o : ES)
  /-- Retains the operand on an input port at commit. (R197) -/
  | keep (o : ES)
  /-- Stages a load whose value returns as a reply token. (R249) -/
  | mld (o : EM)
  /-- Stages a store, with an optional completion token. (R249) -/
  | mst (o : EM)
  /-- Stages a take of a full-empty word, which waits until the word is full and then empties it. (R249) -/
  | mtake (o : EM)
  /-- Stages a fill of a full-empty word, which waits until the word is empty. (R249) -/
  | mfill (o : EM)
  /-- Stages an atomic read-modify-write at the location's home, which replies with the old value. (R251) -/
  | matom (o : EM)
  /-- Holds later requests of the element until earlier ones are complete at the scope. (R253) -/
  | mfence (o : EM)
  /-- Adds a count to an eyelet once the element's earlier writes are visible at the scope. (R254) -/
  | eyaddElement (o : EM)
  /-- Steps the segment words of a chunk-train token against the sum table into the accumulators. (R156) -/
  | segmac (o : EG)
  /-- Steps each non-zero INT8 position of a dense row as a one-position segment. (R160) -/
  | segden (o : EG)
  /-- Accumulates one activation token against a dense table. (R162) -/
  | drow (o : EG)
  /-- Fills one window of boundary dot products of dY with the sum table. (R163) -/
  | bwdot (o : EG)
  /-- Forms the differences of one window of P into the accumulators. (R164) -/
  | diff (o : EG)
  /-- Stages atomic boundary row adds of v times g for each segment of a train. (R165) -/
  | seggrad (o : EG)
  /-- Sends the converted accumulators as vector tokens on output ports. (R167) -/
  | accout (o : EM)
  /-- Sets every accumulator of the context to zero. (R167) -/
  | accclr (o : EM)
  /-- Stores the converted accumulators at an address. (R167) -/
  | accst (o : EM)
  /-- Stages a write of 256 bytes to one table-store row. (R168) -/
  | twr (o : EA)
  /-- Reads one table-store row as it stood at block entry. (R168) -/
  | trd (o : EA)
  /-- Stages a write of a scale register. (R169) -/
  | scl (o : EA)
  /-- Reads a scale register as it stood at block entry. (R169) -/
  | sclrd (o : EA)
  /-- Folds a vector into a running chunk checksum pair. (R370) -/
  | csum (o : EA)
  /-- Folds a vector into a checksum pair and compares the result with an expected pair. (R370) -/
  | csver (o : EA)
  /-- Adds two sequencer registers modulo 2^64. (R202) -/
  | sadd (o : QA)
  /-- Subtracts two sequencer registers. (R202) -/
  | ssub (o : QA)
  /-- Writes the low 64 bits of the product of two sequencer registers. (R202) -/
  | smul (o : QA)
  /-- Bitwise AND of two sequencer registers. (R202) -/
  | sand (o : QA)
  /-- Bitwise OR of two sequencer registers. (R202) -/
  | sor (o : QA)
  /-- Bitwise exclusive OR of two sequencer registers. (R202) -/
  | sxor (o : QA)
  /-- Shifts a sequencer register left. (R202) -/
  | sshl (o : QA)
  /-- Shifts a sequencer register right, filling with zeros. (R202) -/
  | sshr (o : QA)
  /-- Shifts a sequencer register right arithmetically. (R202) -/
  | ssar (o : QA)
  /-- Writes the signed minimum of two sequencer registers. (R202) -/
  | smin (o : QA)
  /-- Writes the signed maximum of two sequencer registers. (R202) -/
  | smax (o : QA)
  /-- Copies one sequencer register to another. (R202) -/
  | smov (o : QA)
  /-- Loads a sign-extended 14-bit immediate into a register. (R203) -/
  | sli (o : QI)
  /-- Adds a sign-extended immediate to a register. (R82) -/
  | saddi (o : QI)
  /-- ANDs a register with a sign-extended immediate. (R82) -/
  | sandi (o : QI)
  /-- Shifts a register left by 14 and adds a zero-extended immediate. (R203) -/
  | slih (o : QI)
  /-- Branches when a signed or unsigned comparison of two registers holds. (R84) -/
  | br (cond : BitVec 4) (o : QB)
  /-- Branches unconditionally within the step or to the start of another step. (R84) -/
  | jmp (o : QB)
  /-- Decrements a register and branches if the result is non-zero. (R84) -/
  | loop (o : QB)
  /-- Loads and extends a value from device memory when it executes. (R205) -/
  | sld (fn : BitVec 4) (o : QI)
  /-- Stages a store of the low bytes of a register. (R205) -/
  | sst (fn : BitVec 4) (o : QI)
  /-- Stages a system-scope i64 atomic whose old value is written to d at commit. (R205) -/
  | satom (fn : BitVec 4) (o : QI)
  /-- Starts the loader on a configuration image at commit. (R211) -/
  | cfg (o : QA)
  /-- Holds later effects until the pending load is complete and the region is quiet, then sweeps the new configuration into force. (R213) -/
  | commit (o : QA)
  /-- Terminator that places start tokens for the next iterations on a port and advances ISC. (R218) -/
  | run (o : QA)
  /-- Terminator that waits until the region is quiet. (R216) -/
  | waitq (o : QA)
  /-- Requests a new depth for an element input port. (R219) -/
  | depth (o : QA)
  /-- Starts a switch of a bank's mode at commit. (R220) -/
  | bank (o : QA)
  /-- Appends a strided, converting copy command to the copy engine's chain. (R226) -/
  | copy (o : QE)
  /-- Appends a row gather through an index list. (R261) -/
  | gather (o : QE)
  /-- Appends a row scatter through an index list. (R261) -/
  | scatter (o : QE)
  /-- Reads a 64-byte chain record and appends it to its engine's chain. (R260) -/
  | chain (o : QE)
  /-- Terminator that waits until an engine chain's sequence reaches a value. (R260) -/
  | waitseq (o : QE)
  /-- Appends a command that clicks an INT8 row into chunk trains at tolerance tau. (R263) -/
  | click (o : QE)
  /-- Appends a command that builds a whole sum table in an element. (R265) -/
  | tbuild (o : QE)
  /-- Appends a command that patches a sum table in row form or delta form. (R266) -/
  | tpatch (o : QE)
  /-- Appends a one- or two-pass column prefix scan in scratch. (R267) -/
  | scant (o : QE)
  /-- Appends a command that expands compressed tensor blocks. (R268) -/
  | expand (o : QE)
  /-- Appends an epilogue over the accumulator bank. (R272) -/
  | epi (o : QE)
  /-- Appends a copy of bytes onto the context's activation stack. (R274) -/
  | pusht (o : QE)
  /-- Appends a removal of the top stack entry to an HBM address. (R274) -/
  | popt (o : QE)
  /-- Reads an activation record, releases covered stores, appends the record to the launch chain and raises its counters. (R279) -/
  | spawn (o : QA)
  /-- Narrows one region record after the region is quiet, releasing bytes that the record no longer covers. (R330) -/
  | decl (o : QA)
  /-- Terminator that stops the region program and starts completion. (R329) -/
  | done (o : QA)
  /-- Marks a launch, graph, phase or job id as cancelled. (R332) -/
  | cancel (o : QA)
  /-- Splits the unstarted tail of the iteration space off as a split part. (R333) -/
  | split (o : QA)
  /-- Gives up the region to an eligible record of at least equal priority. (R335) -/
  | yield (o : QA)
  /-- Stages a system-scope eyelet addition from step code, after releasing earlier accesses. (R337) -/
  | eyadd (o : QI)
  /-- Terminator after which the next step waits until an eyelet's generation reaches a value. (R338) -/
  | eywait (o : QI)
  /-- Stages an atomic reset of an eyelet's target and count. (R339) -/
  | eyset (o : QI)
  /-- Holds later staged effects until the sequencer's earlier stores are performed at the scope. (R340) -/
  | sfence (o : QI)
  /-- Appends an all-reduce command to a link region's chain. (R344) -/
  | car (o : QE)
  /-- Appends a reduce-scatter command. (R361) -/
  | crs (o : QE)
  /-- Appends an all-gather command. (R361) -/
  | cag (o : QE)
  /-- Appends an all-to-all command. (R361) -/
  | ca2a (o : QE)
  /-- Appends a broadcast from rank 0. (R361) -/
  | cbcast (o : QE)
  /-- Streams a generator's nest through its memory port as tokens. (R222) -/
  | push (o : QA)
  /-- Writes arriving tokens to a generator's nest addresses. (R223) -/
  | accept (o : QA)
  /-- Sets a generator's base at commit. (R221) -/
  | agset (o : QA)
  /-- Requests a power permit class, holding later effects until it is granted. (R342) -/
  | permit (o : QA)
  /-- Returns the permit to class 1 and restores base state. (R342) -/
  | unpermit (o : QA)
  /-- Invalidates translation entries package-wide by page, ASID, IPA or VF. (R399) -/
  | tlbinv (o : QA)
  /-- Sets or clears an element's quarantine bit and returns the old bit. (R400) -/
  | quar (o : QA)
  /-- Disables a context and pre-empts and saves all its running activations. (R401) -/
  | ctxsave (o : QA)
  /-- Enables a context and requeues its saved activations. (R401) -/
  | ctxload (o : QA)
  /-- Reads a temperature, droop or process monitor. (R402) -/
  | mon (o : QA)
  /-- Appends a software event to the black-box record. (R403) -/
  | bbnote (o : QA)
  /-- Commits the step and then holds the activation with a sequencer-breakpoint record. (R404) -/
  | sbrk (o : QA)
  /-- Places, grants one step to, or frees an activation in step mode. (R405) -/
  | step (o : QA)
  /-- A DATA or LAST token at the head of an input port moves into a free tag-store slot and may complete a match. (R102) -/
  | tokenArrival (el port : Nat)
  /-- A CONF token is consumed between blocks once it waits on nothing earlier, and writes the masked scale registers at once. (R105) -/
  | confToken (el port : Nat)
  /-- A CTRL token sets or clears a handler's mask or discards the slots of a colour. (R106) -/
  | ctrlToken (el port : Nat)
  /-- After a commit or an abandon, the element picks the next runnable candidate by level, age and entry. (R107) -/
  | blockSelect (el : Nat)
  /-- A candidate gains one level for each full 1,024 cycles that it stays runnable. (R107) -/
  | promotion (el cand : Nat)
  /-- A block's staged tokens, requests, scale writes, table writes and accumulator changes take effect, and its operands are released. (R111) -/
  | blockCommit (el : Nat)
  /-- With all slots full and nothing runnable for 65,536 cycles, the element raises a deadlock fault. (R104) -/
  | tagStoreDeadlock (el : Nat)
  /-- A pending engine table write is applied at once between two blocks, once no train is open. (R47) -/
  | tableWriteApply (el : Nat)
  /-- A link moves one flit of a circuit that is ready and not stopped to the next hop or FIFO. (R182) -/
  | flitHop (circuit node : Nat) (lands : Bool)
  /-- A new port depth takes effect once the port's circuit is drained. (R187) -/
  | depthChange (el port : Nat)
  /-- A bank completes its switch between SCRATCH, CACHE and FIFO after draining, and writes back dirty sectors. (R238) -/
  | bankSwitch (tile bank : Nat)
  /-- A committed element request is performed at its bank, tile cache or LLC. (R249) -/
  | memoryRequestPerform (el mport : Nat)
  /-- A reply token lands in the reply FIFO and enters the tag store as an inK token. (R250) -/
  | replyArrival (el mport : Nat)
  /-- A deferred full-empty access proceeds once its word reaches the state it awaits. (R246) -/
  | fullEmptyWake (request : Nat)
  /-- An addition is performed atomically at the eyelet's home, advancing the generation at the target. (R252) -/
  | eyeletAddition (addition : Nat)
  /-- The sequencer starts executing the step named by CC once its wait is satisfied or the previous step has committed. (R201) -/
  | stepStart (q : SeqId)
  /-- A step's staged effects are released in program order, and CC moves on. (R199) -/
  | stepCommit (q : SeqId)
  /-- An eyelet, sequence or quiet wait is satisfied in the cycle after its condition holds. (R338) -/
  | waitSatisfied (q : SeqId)
  /-- The loader validates an image and writes it into its inactive slots, or fails with a configuration fault. (R211) -/
  | cfgLoad (colour : Nat)
  /-- Once the load is complete and the region is quiet, a sweep from the anchor swaps the contexts and bindings into force. (R213) -/
  | commitSweep (colour : Nat)
  /-- Once the permit is granted, start tokens are placed for the iterations within the window. (R218) -/
  | runStartTokens (colour : Nat)
  /-- A committed PUSH forms and sends its nest's words as tokens, in turn behind earlier PUSHes on its port. (R222) -/
  | pushStream (tile mport : Nat)
  /-- A token reaching an ACCEPT's port is written to the nest addresses, or discarded with a stream fault. (R223) -/
  | acceptStream (tile mport : Nat)
  /-- The next command of a chain starts and reads its parameter block. (R258) -/
  | engineCommandStart (c : ChainId)
  /-- A command's last byte is visible, so its eyelet addition and then its push are issued and the sequence advances. (R258) -/
  | engineCommandComplete (c : ChainId) (place : Nat)
  /-- The copy engine checks, reads, converts and writes one source row, and counts it. (R228) -/
  | copyRow (c : ChainId) (place : Nat)
  /-- The copy engine moves one indexed row, skipping indices beyond the bound. (R261) -/
  | gatherScatterRow (c : ChainId) (place : Nat)
  /-- The clicker cuts one chunk into runs and writes its train or dense chunk. (R33) -/
  | clickChunk (c : ChainId) (place : Nat)
  /-- The scan engine builds a sum table from weights in scratch, or refuses it. (R265) -/
  | tableBuild (c : ChainId) (place : Nat)
  /-- The scan engine range-checks and applies a row or delta patch, all or nothing. (R266) -/
  | tablePatch (c : ChainId) (place : Nat)
  /-- The scan engine performs the column prefix passes of SCANT. (R267) -/
  | scanPass (c : ChainId) (place : Nat)
  /-- The expander fetches, checks and delivers one compressed block. (R269) -/
  | expandBlock (c : ChainId) (place : Nat)
  /-- The epilogue engine scales, activates and outputs one row of the accumulator bank. (R273) -/
  | epilogueRow (c : ChainId) (place : Nat)
  /-- The spill engine serves a PUSHT or POPT in arrival order and counts bytes into its eyelet. (R274) -/
  | stackCommand (c : ChainId) (place : Nat)
  /-- Above HIGH, the spill engine spills bottom RESIDENT entries to LPDDR. (R244) -/
  | spill (asid : Nat)
  /-- A SPILLED entry within NEAR of the top starts returning to HBM. (R244) -/
  | stackReturn (asid : Nat)
  /-- The eighth store to an append window appends a record to the launch chain, or is refused. (R288) -/
  | hostAppend (asid : Nat) (record : BitVec 512)
  /-- The HOME scheduler fetches and validates the next slot into a ready queue or the pending list. (R289) -/
  | recordFetch (asid : Nat)
  /-- The scheduler chooses a region and a colour, acquires, loads, obtains a permit and starts the sequencer. (R292) -/
  | placement (die : Nat)
  /-- A complete gang is placed with its edge routes all at once on one die. (R296) -/
  | gangPlacement (die entry : Nat)
  /-- An idle die takes the next placeable record from another die. (R294) -/
  | steal (die : Nat)
  /-- A queued record's level rises by one for each 2^20 cycles that it waits. (R290) -/
  | queueAging (entry : Nat)
  /-- A level-7 record that has failed placement for 65,536 cycles blocks lower placements. (R291) -/
  | placementStarvation (entry : Nat)
  /-- A record that has failed placement for 4,096 cycles selects a victim to pre-empt. (R299) -/
  | preemptionTimeout (entry : Nat)
  /-- The victim drains, its caches are written back and its frame and state are saved. (R300) -/
  | preemptionSave (colour : Nat)
  /-- A pre-empted activation is placed again, acquires, restores its state and continues. (R301) -/
  | resumption (colour : Nat)
  /-- A pending record is given a reserved region, and released sectors are forwarded to it. (R309) -/
  | forwardReservation (entry : Nat)
  /-- After DONE, quiet and engine completion, the release walk runs, the counters fall, the record is written and the colour is purged. (R297) -/
  | activationCompletion (colour : Nat)
  /-- A purged colour returns to the pool 1,048,576 cycles after every die confirms the purge. (R285) -/
  | colourReturn (colour : Nat)
  /-- The digests of the two copies are compared, leading to release or to a kill of both. (R414) -/
  | redundantComparison (colour : Nat)
  /-- The power controller grants a waiting permit request in priority and arrival order. (R343) -/
  | permitGrant (colour : Nat)
  /-- Every 1,200 cycles power and temperature are sampled, and throttling starts or ends. (R418) -/
  | powerSample (milliwatts : Nat)
  /-- A supply below 500 mV for 1,200 consecutive cycles is a fatal error. (R417) -/
  | supplyDroopFatal (die index millivolts : Nat)
  /-- A welt frame is CRC-checked, and replayed from the replay buffer on failure. (R356) -/
  | weltFrameReceive (link : Nat) (frame : WeltFrame) (crcGood : Bool)
  /-- A message older than 524,288 cycles is discarded and counted in DROPCNT. (R357) -/
  | weltMessageAgeDiscard (message : Nat)
  /-- A message at its destination package is forwarded, discarded, held or delivered into the remote FIFO. (R359) -/
  | sendrDelivery (message : Nat)
  /-- A link region receives a chunk, verifies it, combines or moves it and sends it on. (R348) -/
  | collectiveStep (die lreg : Nat) (input : ChunkInput)
  /-- An abort from a rank stops the peer's collective command with a fault. (R365) -/
  | collectiveAbort (die : Nat) (command : CollectiveName)
  /-- A committed request held by an invalidation is translated again, proceeding or failing. (R393) -/
  | retranslation (el mport : Nat)
  /-- An FRESP write with action RETRY makes held units try again. (R385) -/
  | frespRetry (q asid colour : Nat)
  /-- An FRESP write with action SKIP skips the faulting block or step. (R385) -/
  | frespSkip (q asid colour : Nat)
  /-- An FRESP write with action KILL stops the activation. (R385) -/
  | frespKill (q asid colour : Nat)
  /-- An FRESP write with action CONTINUE passes a breakpoint or retries. (R385) -/
  | frespContinue (q asid colour : Nat)
  /-- A host write invalidates the translations of one VA page. (R399) -/
  | tlbinvhPage (q asid address : Nat)
  /-- A host write invalidates every translation of an ASID. (R399) -/
  | tlbinvhAsid (q asid : Nat)
  /-- A host write from queue 0 invalidates the stage-2 translations of one IPA page. (R399) -/
  | tlbinvhIpa (q vf address : Nat)
  /-- A host write from queue 0 invalidates every translation of a VF. (R399) -/
  | tlbinvhVf (q vf : Nat)
  /-- A write arms one injected ECC outcome on a 32-byte piece. (R373) -/
  | llcinjArm (v : Nat) (value : DWord)
  /-- Writes back the dirty sectors of one LLC line and keeps the line. (R374) -/
  | llcopClean (v : Nat) (value : DWord)
  /-- Writes back the dirty sectors of one LLC line and invalidates it. (R374) -/
  | llcopCleanInvalidate (v : Nat) (value : DWord)
  /-- Reset runs the five boot stages, repairs and self-test. (R420) -/
  | reset
  /-- A function that passes self-test sets its readiness bit and becomes usable. (R419) -/
  | selfTestPass (f : ReadyFunction)
  /-- An FLR of a VF terminates its contexts and empties its fault queue. (R423) -/
  | functionLevelReset (v : Nat)
  /-- Writing GO starts an attestation report request. (R427) -/
  | mailboxGo (v : Nat) (value : DWord)
  /-- The host die writes the report, or an error, and clears GO with DONE set. (R427) -/
  | attestationReportDone (v : Nat) (dmaGood : Bool)
  /-- A BAR0 monitor read returns the value and resets the lowest-voltage reading. (R402) -/
  | monitorRead (v offset size : Nat)
  /-- Writing 0 to FQOVF clears the overflow count. (R384) -/
  | fqovfClear (v q : Nat)
  /-- Writing 0 to OVLCNT clears the serialisation count. (R314) -/
  | ovlcntClear (v asid : Nat)
  /-- A write to a host-die register with no behaviour of its own stores the value, or is discarded when the access is improper. (R425) -/
  | registerWrite (v offset size : Nat) (value : DWord)
  /-- The sequencer executes a word that is not a legal instruction, or runs past its step's length, and raises an illegal-instruction fault with nothing committed. (R67) -/
  | illegalInstruction (q : SeqId)
  /-- A running copy of a stack entry to LPDDR finishes, and the entry passes from SPILLING to SPILLED. (R244) -/
  | spillCompletion (asid : Nat)
  /-- A returning stack entry's bytes are all back in HBM, and the entry passes from RETURNING to RESIDENT. (R244) -/
  | stackReturnCompletion (asid : Nat)
  /-- The host cancels an id of a level for a context and job, marking it as CANCEL does. (R298) -/
  | hostCancel (asid level job id : Nat)
  /-- A host-core load or store reaches the LLC: a store dirties the line under ASID 0, and an access to a retired frame or to an armed piece faults or fires the injection. (R242) -/
  | hostMemoryAccess (writes : Bool) (address size : Nat) (value : DWord)
  deriving DecidableEq, Repr, Inhabited

end Sys2Proof
end

