-- ==== Sys2Proof/WellFormed.lean ====
section
/-! DEFINITION. Which instructions are legal words: every reserved value, disallowed type, disallowed selector
combination and non-zero reserved bit of 05 R68 to R84 has a named check. What depends on the context or on the handler
entry (05 R66, R77; 10 R154) is checked by the loader. -/
namespace Sys2Proof

/-- Why a word is no legal instruction (05 R66, R67, R86). -/
inductive IllFormed where
  | selector | specialCode | xField | typeSet | saturation | rounding | predicate | extension | operandField
  | conversion | sourceField | colourMode | sendKind | flagsField | variantField | sizeField | scopeField
  | replyChannel | tableMode | accumulateMode | operandPort | scaleField | reservedBits | registerField
  deriving DecidableEq, Repr

/-- The lane width of a type code (05 R68, 04 R51). -/
def typeWidth (t : BitVec 3) : Nat :=
  if t = 0 ∨ t = 3 ∨ t = 6 then 32 else if t = 1 ∨ t = 4 ∨ t = 7 then 16 else 8

/-- The width of a floating-point format code (05 R80). -/
def formatWidth (f : Nat) : Nat := if f = 0 then 32 else if f = 1 then 16 else 8

/-- How an EA instruction uses a selector field. -/
inductive SelUse where
  | src | unread | pred | zero | conv
  deriving DecidableEq, Repr

/-- The first of a list of conditions that fails. -/
def firstFailing : List (Bool × IllFormed) → Option IllFormed
  | [] => none
  | (c, e) :: r => if c then firstFailing r else some e

/-- A selector field holds what its use allows (05 R69, R80; 08 R137). -/
def selectorGood (u : SelUse) (v : BitVec 4) : Bool :=
  match u with
  | .src => true
  | .unread => v = 13
  | .pred => v.toNat ≤ 3
  | .zero => v = 0
  | .conv => v ≠ 0 ∧ v ≠ 5 ∧ v ≠ 10 ∧ v ≠ 15

/-- Whether a selector names the scale register or a special value, which read X (05 R69). -/
def readsX (u : SelUse) (v : BitVec 4) : Bool := u = .src ∧ (v = 12 ∨ v = 14)

/-- An extension word is zero where there is none, and its bits above the value are reserved (05 R64, R73). -/
def extGood (u : SelUse) (v : BitVec 4) (width : Nat) (ext : Word) : Bool :=
  if u = .src ∧ v = 15 then ext.toNat < 2 ^ width else ext = 0

/-- The checks that every EA instruction shares (05 R68 to R73). -/
def checkEA (uA uB : SelUse) (types sat rm pred xFree : Bool) (wA wB : Nat) (extra : Bool) (o : EA) :
    Option IllFormed :=
  firstFailing [
    (selectorGood uA o.a && selectorGood uB o.b, .selector),
    (!(readsX uA o.a && readsX uB o.b), .selector),
    (!((uA = .src && o.a = 14 || uB = .src && o.b = 14) && decide (6 ≤ o.x.toNat)), .specialCode),
    (xFree || readsX uA o.a || readsX uB o.b || decide (o.x = 0), .xField),
    (types, .typeSet),
    (sat || decide (o.sat = 0), .saturation),
    (rm || decide (o.rm = 0), .rounding),
    (if pred then !(o.p = 0 && o.n = 1) else o.p = 0 && o.n = 0, .predicate),
    (extGood uA o.a wA o.extA && extGood uB o.b wB o.extB, .extension),
    (extra, .operandField)]

/-- A data source of the ES format (13 R192, R193). -/
def esSourceGood (o : ES) : Bool :=
  (o.src.toNat ≤ 11 || o.src = 13) && (o.keep = 0 || (8 ≤ o.src.toNat && o.src.toNat ≤ 11))

/-- The extension word of colour mode 1 (05 R75). -/
def esExtGood (o : ES) : Bool := if o.mode = 1 then o.ext.toNat < 2 ^ 16 else o.ext = 0

def checkSend (o : ES) : Option IllFormed :=
  firstFailing [
    (esSourceGood o, .sourceField),
    (o.mode.toNat ≤ 1, .colourMode),
    (esExtGood o, .extension),
    (o.last.toNat + (o.flags.extractLsb' 1 1).toNat + (o.flags.extractLsb' 2 1).toNat ≤ 1, .sendKind),
    (!(o.flags.extractLsb' 0 2 = 3), .sendKind),
    (o.flags.extractLsb' 3 5 = 0, .flagsField)]

def checkSendr (o : ES) : Option IllFormed :=
  firstFailing [
    (esSourceGood o, .sourceField),
    (o.port = 0 && o.chan = 0, .operandField),
    (o.mode = 0, .colourMode),
    (o.ext = 0, .extension),
    (o.flags.extractLsb' 3 5 = 0, .flagsField)]

def checkLast (o : ES) : Option IllFormed :=
  firstFailing [
    (o.src = 13, .sourceField),
    (o.last = 0 && o.keep = 0, .operandField),
    (o.mode.toNat ≤ 1, .colourMode),
    (esExtGood o, .extension),
    (o.flags = 0, .flagsField)]

/-- DROP and KEEP: a port as source, every other field zero but the function (13 R197). -/
def checkRelease (fn : BitVec 8) (o : ES) : Option IllFormed :=
  firstFailing [
    (8 ≤ o.src.toNat && o.src.toNat ≤ 11, .sourceField),
    (o.port = 0 && o.chan = 0 && o.ctx = 0 && o.last = 0 && o.keep = 0, .operandField),
    (o.mode = 0, .colourMode),
    (o.ext = 0, .extension),
    (o.flags = fn, .flagsField)]

/-- The data source of a store, a fill, an atomic or an addition (16 R248). -/
def emSourceGood (o : EM) : Bool :=
  (o.src.toNat ≤ 11 || o.src = 13 || o.src = 15) &&
  (if o.src = 15 then decide (o.ext.toNat < 2 ^ (if o.size = 0 then 8 else if o.size = 1 then 16 else 32))
   else o.ext = 0)

/-- No reply channel where no completion token is asked for (16 R248). -/
def emReplyGood (o : EM) : Bool := o.variant.extractLsb' 0 1 = 1 || o.chan = 0

/-- The checks that every EM instruction shares: what its variant, data source, size and scope may hold. -/
def checkEM (variant source size scope reply fields : Bool) : Option IllFormed :=
  firstFailing [(variant, .variantField), (source, .sourceField), (size, .sizeField), (scope, .scopeField),
    (reply, .replyChannel), (fields, .operandField)]

def noSource (o : EM) : Bool := o.src = 13 && o.ext = 0
def scopeGood (o : EM) : Bool := o.scope.toNat ≤ 5

/-- The checks of the segment unit (05 R77, 10 R155). -/
def checkEG (modes acc oport g mem : Bool) (o : EG) : Option IllFormed :=
  firstFailing [(modes, .tableMode), (acc, .accumulateMode), (oport, .operandPort), (g, .scaleField),
    (mem && o.rsv = 0, .reservedBits)]

/-- ST16, ST32 or the mode of the context. -/
def segMode (o : EG) : Bool := o.mode = 0 || o.mode = 4 || o.mode = 5
/-- ADD or CHAIN, with no operand port in ADD. -/
def chainGood (o : EG) : Bool := o.accMode.toNat ≤ 1
def oportGood (o : EG) : Bool := o.accMode = 1 || o.oport = 0
/-- A G register only where the table mode is, or may be, ST32. -/
def gGood (o : EG) : Bool := o.mode = 0 || o.mode = 5 || o.g = 0
def noMem (o : EG) : Bool := o.mport = 0 && o.width = 0

/-- A single named condition. -/
def require (c : Bool) (e : IllFormed) : Option IllFormed := if c then none else some e

/-- The first check that an instruction fails; an event has no word and fails none. -/
def Instr.check : Instr → Option IllFormed
  | .nop => none
  | .brk _ => none
  | .trap _ => none
  | .li _ t imm => require (typeWidth t ≠ 8 || decide (imm.toNat < 2 ^ 8)) .reservedBits
  | .mov o => checkEA .src .unread true false false true false (typeWidth o.t) (typeWidth o.t) true o
  | .add o => checkEA .src .src (o.t.toNat < 6) true false true false (typeWidth o.t) (typeWidth o.t) true o
  | .sub o => checkEA .src .src (o.t.toNat < 6) true false true false (typeWidth o.t) (typeWidth o.t) true o
  | .mul o => checkEA .src .src (o.t.toNat < 6) true false true false (typeWidth o.t) (typeWidth o.t) true o
  | .mulh o => checkEA .src .src (o.t.toNat < 6) false false true false (typeWidth o.t) (typeWidth o.t) true o
  | .mad o => checkEA .src .src (o.t.toNat < 6) true false true false (typeWidth o.t) (typeWidth o.t) true o
  | .min o => checkEA .src .src (o.t.toNat < 6) false false true false (typeWidth o.t) (typeWidth o.t) true o
  | .max o => checkEA .src .src (o.t.toNat < 6) false false true false (typeWidth o.t) (typeWidth o.t) true o
  | .abs o => checkEA .src .unread (o.t.toNat < 6) true false true false (typeWidth o.t) (typeWidth o.t) true o
  | .neg o => checkEA .src .unread (o.t.toNat < 6) true false true false (typeWidth o.t) (typeWidth o.t) true o
  | .and o => checkEA .src .src (o.t.toNat < 6) false false true false (typeWidth o.t) (typeWidth o.t) true o
  | .or o => checkEA .src .src (o.t.toNat < 6) false false true false (typeWidth o.t) (typeWidth o.t) true o
  | .xor o => checkEA .src .src (o.t.toNat < 6) false false true false (typeWidth o.t) (typeWidth o.t) true o
  | .andn o => checkEA .src .src (o.t.toNat < 6) false false true false (typeWidth o.t) (typeWidth o.t) true o
  | .orn o => checkEA .src .src (o.t.toNat < 6) false false true false (typeWidth o.t) (typeWidth o.t) true o
  | .xnor o => checkEA .src .src (o.t.toNat < 6) false false true false (typeWidth o.t) (typeWidth o.t) true o
  | .shl o => checkEA .src .src (o.t.toNat < 6) false false true false (typeWidth o.t) (typeWidth o.t) true o
  | .shr o => checkEA .src .src (o.t.toNat < 6) false false true false (typeWidth o.t) (typeWidth o.t) true o
  | .sar o => checkEA .src .src (o.t.toNat < 6) false false true false (typeWidth o.t) (typeWidth o.t) true o
  | .rol o => checkEA .src .src (o.t.toNat < 6) false false true false (typeWidth o.t) (typeWidth o.t) true o
  | .clz o => checkEA .src .unread (o.t.toNat < 6) false false true false (typeWidth o.t) (typeWidth o.t) true o
  | .popc o => checkEA .src .unread (o.t.toNat < 6) false false true false (typeWidth o.t) (typeWidth o.t) true o
  | .cmp c o => checkEA .src .src (o.t.toNat < 6) false false true false (typeWidth o.t) (typeWidth o.t) (c.toNat ≤ 5 ∧ 1 ≤ o.d.toNat ∧ o.d.toNat ≤ 3) o
  | .sel o => checkEA .src .src true false false true false (typeWidth o.t) (typeWidth o.t) true o
  | .cvt c o => checkEA .src .unread true (o.t.toNat < 6) (6 ≤ c.toNat) true false (typeWidth c) (typeWidth o.t) (c ≠ o.t ∧ ¬ (6 ≤ c.toNat ∧ 6 ≤ o.t.toNat)) o
  | .shuf o => checkEA .src .src true false false true false (typeWidth o.t) (typeWidth o.t) true o
  | .bcast o => checkEA .src .src true false false true false (typeWidth o.t) (typeWidth o.t) true o
  | .lrot o => checkEA .src .src true false false true false (typeWidth o.t) (typeWidth o.t) true o
  | .pack o => checkEA .src .src (o.t = 1 ∨ o.t = 2 ∨ o.t = 4 ∨ o.t = 5) true false true false (2 * typeWidth o.t) (2 * typeWidth o.t) true o
  | .unpackLo o => checkEA .src .unread (o.t = 0 ∨ o.t = 1 ∨ o.t = 3 ∨ o.t = 4) false false true false (typeWidth o.t / 2) (typeWidth o.t) true o
  | .unpackHi o => checkEA .src .unread (o.t = 0 ∨ o.t = 1 ∨ o.t = 3 ∨ o.t = 4) false false true false (typeWidth o.t / 2) (typeWidth o.t) true o
  | .red c o => checkEA .src .unread (o.t.toNat < 6) (c = 0) false true false (typeWidth o.t) (typeWidth o.t) (c.toNat ≤ 5) o
  | .scan c o => checkEA .src .unread (o.t.toNat < 6) (c.toNat ≤ 1) false true false (typeWidth o.t) (typeWidth o.t) (c.toNat ≤ 3) o
  | .pand o => checkEA .pred .pred (o.t = 0) false false false false (typeWidth o.t) (typeWidth o.t) (1 ≤ o.d.toNat ∧ o.d.toNat ≤ 3) o
  | .por o => checkEA .pred .pred (o.t = 0) false false false false (typeWidth o.t) (typeWidth o.t) (1 ≤ o.d.toNat ∧ o.d.toNat ≤ 3) o
  | .pnot o => checkEA .pred .zero (o.t = 0) false false false false (typeWidth o.t) (typeWidth o.t) (1 ≤ o.d.toNat ∧ o.d.toNat ≤ 3) o
  | .pset o => checkEA .src .unread true false false false false (typeWidth o.t) (typeWidth o.t) (1 ≤ o.d.toNat ∧ o.d.toNat ≤ 3) o
  | .fadd o => checkEA .src .src (6 ≤ o.t.toNat) false true true false (typeWidth o.t) (typeWidth o.t) true o
  | .fsub o => checkEA .src .src (6 ≤ o.t.toNat) false true true false (typeWidth o.t) (typeWidth o.t) true o
  | .fmul o => checkEA .src .src (6 ≤ o.t.toNat) false true true false (typeWidth o.t) (typeWidth o.t) true o
  | .fma o => checkEA .src .src (6 ≤ o.t.toNat) false true true false (typeWidth o.t) (typeWidth o.t) true o
  | .fms o => checkEA .src .src (6 ≤ o.t.toNat) false true true false (typeWidth o.t) (typeWidth o.t) true o
  | .fnma o => checkEA .src .src (6 ≤ o.t.toNat) false true true false (typeWidth o.t) (typeWidth o.t) true o
  | .fmin o => checkEA .src .src (6 ≤ o.t.toNat) false false true false (typeWidth o.t) (typeWidth o.t) true o
  | .fmax o => checkEA .src .src (6 ≤ o.t.toNat) false false true false (typeWidth o.t) (typeWidth o.t) true o
  | .fabs o => checkEA .src .unread (6 ≤ o.t.toNat) false false true false (typeWidth o.t) (typeWidth o.t) true o
  | .fneg o => checkEA .src .unread (6 ≤ o.t.toNat) false false true false (typeWidth o.t) (typeWidth o.t) true o
  | .fcmp c o => checkEA .src .src (6 ≤ o.t.toNat) false false true false (typeWidth o.t) (typeWidth o.t) (c.toNat ≤ 6 ∧ 1 ≤ o.d.toNat ∧ o.d.toNat ≤ 3) o
  | .frcp o => checkEA .src .unread (6 ≤ o.t.toNat) false false true false (typeWidth o.t) (typeWidth o.t) true o
  | .frsq o => checkEA .src .unread (6 ≤ o.t.toNat) false false true false (typeWidth o.t) (typeWidth o.t) true o
  | .fexp2 o => checkEA .src .unread (6 ≤ o.t.toNat) false false true false (typeWidth o.t) (typeWidth o.t) true o
  | .flog2 o => checkEA .src .unread (6 ≤ o.t.toNat) false false true false (typeWidth o.t) (typeWidth o.t) true o
  | .ftanh o => checkEA .src .unread (6 ≤ o.t.toNat) false false true false (typeWidth o.t) (typeWidth o.t) true o
  | .fcvt o => checkEA .src .conv (o.t = 0) false true true false (formatWidth (o.b.toNat / 4)) (typeWidth o.t) true o
  | .fred c o => checkEA .src .unread (6 ≤ o.t.toNat) false false true false (typeWidth o.t) (typeWidth o.t) (c.toNat ≤ 2) o
  | .cmul o => checkEA .src .src (o.t = 6) false false true false (typeWidth o.t) (typeWidth o.t) true o
  | .cmad o => checkEA .src .src (o.t = 6) false false true false (typeWidth o.t) (typeWidth o.t) true o
  | .send o => checkSend o
  | .sendr o => checkSendr o
  | .last o => checkLast o
  | .drop o => checkRelease 0x40 o
  | .keep o => checkRelease 0x80 o
  | .mld o => checkEM (o.variant = 0 || o.variant = 4) (noSource o)
      (o.size.toNat ≤ 5 && (o.variant = 0 || decide (o.size.toNat ≤ 2))) (scopeGood o) true true
  | .mst o => checkEM (o.variant = 8 || o.variant = 9) (emSourceGood o) (o.size.toNat ≤ 5) (scopeGood o) (emReplyGood o) true
  | .mtake o => checkEM (o.variant = 16 || o.variant = 20) (noSource o) (o.size = 2) (scopeGood o) true true
  | .mfill o => checkEM (o.variant = 24 || o.variant = 25) (emSourceGood o) (o.size = 2) (scopeGood o) (emReplyGood o) true
  | .matom o => checkEM (o.variant.extractLsb' 5 1 = 1 && o.variant.extractLsb' 0 1 = 0 &&
        decide ((o.variant.extractLsb' 1 4).toNat ≤ 11)) (emSourceGood o)
      (o.size = 2 || (o.size = 3 && o.variant.extractLsb' 1 4 ≠ 1)) (scopeGood o) true true
  | .mfence o => checkEM (o.variant = 0 || o.variant = 1) (noSource o) (o.size = 0) (scopeGood o) true (o.addr = 0)
  | .eyaddElement o => checkEM (o.variant = 8 || o.variant = 9) (emSourceGood o) (o.size = 2) (scopeGood o) true true
  | .accout o => checkEM (o.variant = 0 || o.variant = 4) (noSource o) (o.size.toNat ≤ 5) (o.scope = 0) true (o.addr = 0)
  | .accclr o => checkEM (o.variant = 8) (noSource o) (o.size = 0) (o.scope = 0) (o.chan = 0) (o.addr = 0 && o.mport = 0)
  | .accst o => checkEM (o.variant.extractLsb' 3 3 = 2 && o.variant.extractLsb' 1 1 = 0) (noSource o) (o.size.toNat ≤ 5)
      (scopeGood o) (emReplyGood o) true
  | .segmac o => checkEG (segMode o) (chainGood o) (oportGood o) (gGood o) (noMem o) o
  | .segden o => checkEG (segMode o) (chainGood o) (oportGood o) (gGood o) (noMem o) o
  | .drow o => checkEG (o.mode.toNat ≤ 3) (chainGood o) (oportGood o) (o.g = 0) (noMem o) o
  | .bwdot o => checkEG (segMode o) (chainGood o) (oportGood o) (o.g = 0) (noMem o) o
  | .diff o => checkEG (segMode o) (o.accMode = 0) (o.oport = 0) (gGood o) (noMem o) o
  | .seggrad o => checkEG (segMode o) (o.accMode = 0) true (o.g = 0) true o
  | .twr o => checkEA .src .src (o.t = 0) false false false false (typeWidth o.t) (typeWidth o.t) (o.d = 0) o
  | .trd o => checkEA .src .unread (o.t = 0) false false false false (typeWidth o.t) (typeWidth o.t) true o
  | .scl o => checkEA .src .unread (o.t = 0) false false false true (typeWidth o.t) (typeWidth o.t) (o.d = 0 ∧ o.a ≠ 12 ∧ o.a ≠ 14) o
  | .sclrd o => checkEA .unread .unread (o.t = 0) false false false true (typeWidth o.t) (typeWidth o.t) true o
  | .csum o => checkEA .src .src (o.t = 0 ∨ o.t = 1 ∨ o.t = 2) false false false false (typeWidth o.t) (typeWidth o.t) true o
  | .csver o => checkEA .src .src (o.t = 0 ∨ o.t = 1 ∨ o.t = 2) false false false false (typeWidth o.t) (typeWidth o.t) true o
  | .sadd o => require (o.flags = 0) .registerField
  | .ssub o => require (o.flags = 0) .registerField
  | .smul o => require (o.flags = 0) .registerField
  | .sand o => require (o.flags = 0) .registerField
  | .sor o => require (o.flags = 0) .registerField
  | .sxor o => require (o.flags = 0) .registerField
  | .sshl o => require (o.flags = 0) .registerField
  | .sshr o => require (o.flags = 0) .registerField
  | .ssar o => require (o.flags = 0) .registerField
  | .smin o => require (o.flags = 0) .registerField
  | .smax o => require (o.flags = 0) .registerField
  | .smov o => require (o.b = 0 ∧ o.flags = 0) .registerField
  | .sli o => require (o.a = 0) .registerField
  | .saddi _ => none
  | .sandi _ => none
  | .slih _ => none
  | .br cond _ => require (cond.toNat ≤ 5) .registerField
  | .jmp o => require (o.a = 0 ∧ o.b = 0) .registerField
  | .loop o => require (o.b = 0) .registerField
  | .sld fn _ => require (fn.toNat ≤ 6) .registerField
  | .sst fn _ => require (8 ≤ fn.toNat ∧ fn.toNat ≤ 11) .registerField
  | .satom fn _ => require (12 ≤ fn.toNat) .registerField
  | .cfg o => require (o.d = 0 ∧ o.b = 0 ∧ o.flags.toNat ≤ 1) .registerField
  | .commit o => require (o.d = 0 ∧ o.a = 0 ∧ o.b = 0 ∧ o.flags = 0) .registerField
  | .run o => require (o.d.toNat ≤ 3 ∧ o.b = 0) .registerField
  | .waitq o => require (o.d = 0 ∧ o.a = 0 ∧ o.b = 0 ∧ o.flags = 0) .registerField
  | .depth o => require (o.d = 0 ∧ o.flags = 0) .registerField
  | .bank o => require (o.d = 0 ∧ o.b = 0 ∧ o.flags.toNat ≤ 2) .registerField
  | .copy o => require (o.flags.toNat ≤ 1 ∧ (o.flags = 0 → o.sC = 0)) .registerField
  | .gather o => require (o.flags.toNat ≤ 1 ∧ (o.flags = 0 → o.sC = 0)) .registerField
  | .scatter o => require (o.flags.toNat ≤ 1 ∧ (o.flags = 0 → o.sC = 0)) .registerField
  | .chain o => require (o.sB = 0 ∧ o.sC = 0 ∧ o.flags = 0) .registerField
  | .waitseq o => require (o.sA = 0 ∧ o.sB = 0 ∧ o.flags.toNat ≤ 5) .registerField
  | .click o => require (o.flags = 0) .registerField
  | .tbuild o => require (o.flags.toNat ≤ 1 ∧ (o.flags = 0 → o.sC = 0)) .registerField
  | .tpatch o => require (o.flags = 0) .registerField
  | .scant o => require (o.flags.toNat ≤ 1 ∧ (o.flags = 0 → o.sC = 0)) .registerField
  | .expand o => require (o.flags.toNat ≤ 1 ∧ (o.flags = 0 → o.sC = 0)) .registerField
  | .epi o => require (o.flags.toNat ≤ 1 ∧ (o.flags = 0 → o.sC = 0)) .registerField
  | .pusht o => require (o.flags.toNat ≤ 1) .registerField
  | .popt o => require (o.flags = 0) .registerField
  | .spawn o => require (o.d = 0 ∧ o.b = 0 ∧ o.flags = 0) .registerField
  | .decl o => require (o.flags = 0) .registerField
  | .done o => require (o.d = 0 ∧ o.a = 0 ∧ o.b = 0 ∧ o.flags = 0) .registerField
  | .cancel o => require (o.d = 0 ∧ o.b = 0 ∧ 1 ≤ o.flags.toNat ∧ o.flags.toNat ≤ 4) .registerField
  | .split o => require (o.b = 0 ∧ o.flags = 0) .registerField
  | .yield o => require (o.d = 0 ∧ o.a = 0 ∧ o.b = 0 ∧ o.flags = 0) .registerField
  | .eyadd _ => none
  | .eywait _ => none
  | .eyset _ => none
  | .sfence o => require (o.d = 0 ∧ o.a = 0 ∧ o.imm.toNat ≤ 5) .registerField
  | .car o => require (o.flags.toNat ≤ 1 ∧ (o.flags = 0 → o.sC = 0)) .registerField
  | .crs o => require (o.flags.toNat ≤ 1 ∧ (o.flags = 0 → o.sC = 0)) .registerField
  | .cag o => require (o.flags.toNat ≤ 1 ∧ (o.flags = 0 → o.sC = 0)) .registerField
  | .ca2a o => require (o.flags.toNat ≤ 1 ∧ (o.flags = 0 → o.sC = 0)) .registerField
  | .cbcast o => require (o.flags.toNat ≤ 1 ∧ (o.flags = 0 → o.sC = 0)) .registerField
  | .push o => require (o.d.toNat ≤ 3 ∧ o.a = 0 ∧ o.b = 0) .registerField
  | .accept o => require (o.d.toNat ≤ 3 ∧ o.a = 0 ∧ o.b = 0 ∧ o.flags.toNat < 32) .registerField
  | .agset o => require (o.d.toNat ≤ 3 ∧ o.b = 0 ∧ o.flags = 0) .registerField
  | .permit o => require (o.d = 0 ∧ o.b = 0 ∧ o.flags = 0) .registerField
  | .unpermit o => require (o.d = 0 ∧ o.a = 0 ∧ o.b = 0 ∧ o.flags = 0) .registerField
  | .tlbinv o => require (o.d = 0 ∧ o.flags.toNat ≤ 3) .registerField
  | .quar o => require (o.b = 0 ∧ o.flags.toNat ≤ 1) .registerField
  | .ctxsave o => require (o.b = 0 ∧ o.flags = 0) .registerField
  | .ctxload o => require (o.b = 0 ∧ o.flags = 0) .registerField
  | .mon o => require (o.b = 0 ∧ o.flags = 0) .registerField
  | .bbnote o => require (o.d = 0 ∧ o.flags = 0) .registerField
  | .sbrk o => require (o.d = 0 ∧ o.a = 0 ∧ o.b = 0) .registerField
  | .step o => require (o.d = 0 ∧ o.b = 0 ∧ o.flags.toNat ≤ 2) .registerField
  | .tokenArrival _ _ => none
  | .confToken _ _ => none
  | .ctrlToken _ _ => none
  | .blockSelect _ => none
  | .promotion _ _ => none
  | .blockCommit _ => none
  | .tagStoreDeadlock _ => none
  | .tableWriteApply _ => none
  | .flitHop _ _ _ => none
  | .depthChange _ _ => none
  | .bankSwitch _ _ => none
  | .memoryRequestPerform _ _ => none
  | .replyArrival _ _ => none
  | .fullEmptyWake _ => none
  | .eyeletAddition _ => none
  | .stepStart _ => none
  | .stepCommit _ => none
  | .waitSatisfied _ => none
  | .cfgLoad _ => none
  | .commitSweep _ => none
  | .runStartTokens _ => none
  | .pushStream _ _ => none
  | .acceptStream _ _ => none
  | .engineCommandStart _ => none
  | .engineCommandComplete _ _ => none
  | .copyRow _ _ => none
  | .gatherScatterRow _ _ => none
  | .clickChunk _ _ => none
  | .tableBuild _ _ => none
  | .tablePatch _ _ => none
  | .scanPass _ _ => none
  | .expandBlock _ _ => none
  | .epilogueRow _ _ => none
  | .stackCommand _ _ => none
  | .spill _ => none
  | .stackReturn _ => none
  | .hostAppend _ _ => none
  | .recordFetch _ => none
  | .placement _ => none
  | .gangPlacement _ _ => none
  | .steal _ => none
  | .queueAging _ => none
  | .placementStarvation _ => none
  | .preemptionTimeout _ => none
  | .preemptionSave _ => none
  | .resumption _ => none
  | .forwardReservation _ => none
  | .activationCompletion _ => none
  | .colourReturn _ => none
  | .redundantComparison _ => none
  | .permitGrant _ => none
  | .powerSample _ => none
  | .supplyDroopFatal _ _ _ => none
  | .weltFrameReceive _ _ _ => none
  | .weltMessageAgeDiscard _ => none
  | .sendrDelivery _ => none
  | .collectiveStep _ _ _ => none
  | .collectiveAbort _ _ => none
  | .retranslation _ _ => none
  | .frespRetry _ _ _ => none
  | .frespSkip _ _ _ => none
  | .frespKill _ _ _ => none
  | .frespContinue _ _ _ => none
  | .tlbinvhPage _ _ _ => none
  | .tlbinvhAsid _ _ => none
  | .tlbinvhIpa _ _ _ => none
  | .tlbinvhVf _ _ => none
  | .llcinjArm _ _ => none
  | .llcopClean _ _ => none
  | .llcopCleanInvalidate _ _ => none
  | .reset => none
  | .selfTestPass _ => none
  | .functionLevelReset _ => none
  | .mailboxGo _ _ => none
  | .attestationReportDone _ _ => none
  | .monitorRead _ _ _ => none
  | .fqovfClear _ _ => none
  | .ovlcntClear _ _ => none
  | .registerWrite _ _ _ _ => none
  | .illegalInstruction _ => none
  | .spillCompletion _ => none
  | .stackReturnCompletion _ => none
  | .hostCancel _ _ _ _ => none
  | .hostMemoryAccess _ _ _ _ => none

/-- A well-formed instruction: a legal word of 05 R68 to R84, or an event. -/
def Instr.wellFormed (i : Instr) : Bool := i.check = none

/-- Whether the constructor is an instruction word and no event. -/
def Instr.isWord : Instr → Bool
  | .nop => true
  | .brk _ => true
  | .trap _ => true
  | .mov _ => true
  | .li _ _ _ => true
  | .add _ => true
  | .sub _ => true
  | .mul _ => true
  | .mulh _ => true
  | .mad _ => true
  | .min _ => true
  | .max _ => true
  | .abs _ => true
  | .neg _ => true
  | .and _ => true
  | .or _ => true
  | .xor _ => true
  | .andn _ => true
  | .orn _ => true
  | .xnor _ => true
  | .shl _ => true
  | .shr _ => true
  | .sar _ => true
  | .rol _ => true
  | .clz _ => true
  | .popc _ => true
  | .cmp _ _ => true
  | .sel _ => true
  | .cvt _ _ => true
  | .shuf _ => true
  | .bcast _ => true
  | .lrot _ => true
  | .pack _ => true
  | .unpackLo _ => true
  | .unpackHi _ => true
  | .red _ _ => true
  | .scan _ _ => true
  | .pand _ => true
  | .por _ => true
  | .pnot _ => true
  | .pset _ => true
  | .fadd _ => true
  | .fsub _ => true
  | .fmul _ => true
  | .fma _ => true
  | .fms _ => true
  | .fnma _ => true
  | .fmin _ => true
  | .fmax _ => true
  | .fabs _ => true
  | .fneg _ => true
  | .fcmp _ _ => true
  | .frcp _ => true
  | .frsq _ => true
  | .fexp2 _ => true
  | .flog2 _ => true
  | .ftanh _ => true
  | .fcvt _ => true
  | .fred _ _ => true
  | .cmul _ => true
  | .cmad _ => true
  | .send _ => true
  | .sendr _ => true
  | .last _ => true
  | .drop _ => true
  | .keep _ => true
  | .mld _ => true
  | .mst _ => true
  | .mtake _ => true
  | .mfill _ => true
  | .matom _ => true
  | .mfence _ => true
  | .eyaddElement _ => true
  | .segmac _ => true
  | .segden _ => true
  | .drow _ => true
  | .bwdot _ => true
  | .diff _ => true
  | .seggrad _ => true
  | .accout _ => true
  | .accclr _ => true
  | .accst _ => true
  | .twr _ => true
  | .trd _ => true
  | .scl _ => true
  | .sclrd _ => true
  | .csum _ => true
  | .csver _ => true
  | .sadd _ => true
  | .ssub _ => true
  | .smul _ => true
  | .sand _ => true
  | .sor _ => true
  | .sxor _ => true
  | .sshl _ => true
  | .sshr _ => true
  | .ssar _ => true
  | .smin _ => true
  | .smax _ => true
  | .smov _ => true
  | .sli _ => true
  | .saddi _ => true
  | .sandi _ => true
  | .slih _ => true
  | .br _ _ => true
  | .jmp _ => true
  | .loop _ => true
  | .sld _ _ => true
  | .sst _ _ => true
  | .satom _ _ => true
  | .cfg _ => true
  | .commit _ => true
  | .run _ => true
  | .waitq _ => true
  | .depth _ => true
  | .bank _ => true
  | .copy _ => true
  | .gather _ => true
  | .scatter _ => true
  | .chain _ => true
  | .waitseq _ => true
  | .click _ => true
  | .tbuild _ => true
  | .tpatch _ => true
  | .scant _ => true
  | .expand _ => true
  | .epi _ => true
  | .pusht _ => true
  | .popt _ => true
  | .spawn _ => true
  | .decl _ => true
  | .done _ => true
  | .cancel _ => true
  | .split _ => true
  | .yield _ => true
  | .eyadd _ => true
  | .eywait _ => true
  | .eyset _ => true
  | .sfence _ => true
  | .car _ => true
  | .crs _ => true
  | .cag _ => true
  | .ca2a _ => true
  | .cbcast _ => true
  | .push _ => true
  | .accept _ => true
  | .agset _ => true
  | .permit _ => true
  | .unpermit _ => true
  | .tlbinv _ => true
  | .quar _ => true
  | .ctxsave _ => true
  | .ctxload _ => true
  | .mon _ => true
  | .bbnote _ => true
  | .sbrk _ => true
  | .step _ => true
  | .tokenArrival _ _ => false
  | .confToken _ _ => false
  | .ctrlToken _ _ => false
  | .blockSelect _ => false
  | .promotion _ _ => false
  | .blockCommit _ => false
  | .tagStoreDeadlock _ => false
  | .tableWriteApply _ => false
  | .flitHop _ _ _ => false
  | .depthChange _ _ => false
  | .bankSwitch _ _ => false
  | .memoryRequestPerform _ _ => false
  | .replyArrival _ _ => false
  | .fullEmptyWake _ => false
  | .eyeletAddition _ => false
  | .stepStart _ => false
  | .stepCommit _ => false
  | .waitSatisfied _ => false
  | .cfgLoad _ => false
  | .commitSweep _ => false
  | .runStartTokens _ => false
  | .pushStream _ _ => false
  | .acceptStream _ _ => false
  | .engineCommandStart _ => false
  | .engineCommandComplete _ _ => false
  | .copyRow _ _ => false
  | .gatherScatterRow _ _ => false
  | .clickChunk _ _ => false
  | .tableBuild _ _ => false
  | .tablePatch _ _ => false
  | .scanPass _ _ => false
  | .expandBlock _ _ => false
  | .epilogueRow _ _ => false
  | .stackCommand _ _ => false
  | .spill _ => false
  | .stackReturn _ => false
  | .hostAppend _ _ => false
  | .recordFetch _ => false
  | .placement _ => false
  | .gangPlacement _ _ => false
  | .steal _ => false
  | .queueAging _ => false
  | .placementStarvation _ => false
  | .preemptionTimeout _ => false
  | .preemptionSave _ => false
  | .resumption _ => false
  | .forwardReservation _ => false
  | .activationCompletion _ => false
  | .colourReturn _ => false
  | .redundantComparison _ => false
  | .permitGrant _ => false
  | .powerSample _ => false
  | .supplyDroopFatal _ _ _ => false
  | .weltFrameReceive _ _ _ => false
  | .weltMessageAgeDiscard _ => false
  | .sendrDelivery _ => false
  | .collectiveStep _ _ _ => false
  | .collectiveAbort _ _ => false
  | .retranslation _ _ => false
  | .frespRetry _ _ _ => false
  | .frespSkip _ _ _ => false
  | .frespKill _ _ _ => false
  | .frespContinue _ _ _ => false
  | .tlbinvhPage _ _ _ => false
  | .tlbinvhAsid _ _ => false
  | .tlbinvhIpa _ _ _ => false
  | .tlbinvhVf _ _ => false
  | .llcinjArm _ _ => false
  | .llcopClean _ _ => false
  | .llcopCleanInvalidate _ _ => false
  | .reset => false
  | .selfTestPass _ => false
  | .functionLevelReset _ => false
  | .mailboxGo _ _ => false
  | .attestationReportDone _ _ => false
  | .monitorRead _ _ _ => false
  | .fqovfClear _ _ => false
  | .ovlcntClear _ _ => false
  | .registerWrite _ _ _ _ => false
  | .illegalInstruction _ => false
  | .spillCompletion _ => false
  | .stackReturnCompletion _ => false
  | .hostCancel _ _ _ _ => false
  | .hostMemoryAccess _ _ _ _ => false

end Sys2Proof
end

