-- ==== Sys2Proof/Decode.lean ====
section
/-! DEFINITION. The decoder of handler code and step code, total on any words and rejecting by name (05 R64 to R86),
and the encoder, written from the same encoding tables. -/
namespace Sys2Proof

/-- Why the decoder refuses (05 R65 to R67, R86). -/
inductive DecodeError where
  | truncated
  | reservedOpcode
  | unusedFunction
  | illFormed (why : IllFormed)
  deriving DecidableEq, Repr

/-- Bits of a word as a field of width `n` from bit `lo`. -/
def bits (w : Word) (lo n : Nat) : BitVec n := w.extractLsb' lo n

/-- Four little-endian bytes as a word (00 R2). -/
def wordOfBytes (a b c d : Byte) : Word := d ++ c ++ b ++ a

/-- The words of a run of bytes; bytes that fill no word are left out. -/
def wordsOfBytes : List Byte → List Word
  | a :: b :: c :: d :: r => wordOfBytes a b c d :: wordsOfBytes r
  | _ => []

/-- The extension words that a selector field takes from the words that follow (05 R64). -/
def takeExt (sel : BitVec 4) (ws : List Word) : Option (Word × List Word) :=
  if sel = 15 then match ws with
    | [] => none
    | w :: r => some (w, r)
  else some (0, ws)

/-- The EA operand fields of a word (05 R68, R70). -/
def eaFields (w extA extB : Word) : EA :=
  { d := bits w 23 3, a := bits w 19 4, b := bits w 15 4, t := bits w 12 3, p := bits w 10 2, n := bits w 9 1,
    sat := bits w 5 1, rm := bits w 3 2, x := bits w 0 3, extA := extA, extB := extB }

/-- The ES operand fields of a word (05 R75). -/
def esFields (w ext : Word) : ES :=
  { port := bits w 24 2, chan := bits w 19 5, ctx := bits w 16 3, src := bits w 12 4, last := bits w 11 1,
    keep := bits w 10 1, mode := bits w 8 2, flags := bits w 0 8, ext := ext }

/-- The EM operand fields of a word (05 R76). -/
def emFields (w ext : Word) : EM :=
  { addr := bits w 23 3, src := bits w 19 4, size := bits w 16 3, mport := bits w 14 2, chan := bits w 9 5,
    scope := bits w 6 3, variant := bits w 0 6, ext := ext }

/-- The EG operand fields of a word (05 R77). -/
def egFields (w : Word) : EG :=
  { port := bits w 24 2, mode := bits w 21 3, accMode := bits w 18 3, oport := bits w 16 2, g := bits w 10 3,
    mport := bits w 8 2, width := bits w 7 1, rsv := bits w 0 7 }

def qaFields (w : Word) : QA := { d := bits w 22 4, a := bits w 18 4, b := bits w 14 4, flags := bits w 0 8 }
def qiFields (w : Word) : QI := { d := bits w 22 4, a := bits w 18 4, imm := bits w 4 14 }
def qbFields (w : Word) : QB := { a := bits w 18 4, b := bits w 14 4, off := bits w 0 14 }
def qeFields (w : Word) : QE := { sA := bits w 22 4, sB := bits w 18 4, sC := bits w 14 4, flags := bits w 0 10 }

/-- The instruction of an EA opcode and function code (05 R78). -/
def eaInstr (op : Nat) (fn : BitVec 3) (o : EA) : Option Instr :=
  match op, fn.toNat with
  | 1, 0 => some (.mov o)
  | 3, 0 => some (.add o)
  | 4, 0 => some (.sub o)
  | 5, 0 => some (.mul o)
  | 6, 0 => some (.mulh o)
  | 7, 0 => some (.mad o)
  | 8, 0 => some (.min o)
  | 8, 1 => some (.max o)
  | 8, 2 => some (.abs o)
  | 8, 3 => some (.neg o)
  | 9, 0 => some (.and o)
  | 9, 1 => some (.or o)
  | 9, 2 => some (.xor o)
  | 9, 3 => some (.andn o)
  | 9, 4 => some (.orn o)
  | 9, 5 => some (.xnor o)
  | 10, 0 => some (.shl o)
  | 10, 1 => some (.shr o)
  | 10, 2 => some (.sar o)
  | 10, 3 => some (.rol o)
  | 11, 0 => some (.clz o)
  | 11, 1 => some (.popc o)
  | 13, 0 => some (.sel o)
  | 15, 0 => some (.shuf o)
  | 15, 1 => some (.bcast o)
  | 15, 2 => some (.lrot o)
  | 15, 3 => some (.pack o)
  | 15, 4 => some (.unpackLo o)
  | 15, 5 => some (.unpackHi o)
  | 18, 0 => some (.pand o)
  | 18, 1 => some (.por o)
  | 18, 2 => some (.pnot o)
  | 18, 3 => some (.pset o)
  | 19, 0 => some (.fadd o)
  | 19, 1 => some (.fsub o)
  | 20, 0 => some (.fmul o)
  | 21, 0 => some (.fma o)
  | 21, 1 => some (.fms o)
  | 21, 2 => some (.fnma o)
  | 22, 0 => some (.fmin o)
  | 22, 1 => some (.fmax o)
  | 22, 2 => some (.fabs o)
  | 22, 3 => some (.fneg o)
  | 24, 0 => some (.frcp o)
  | 24, 1 => some (.frsq o)
  | 24, 2 => some (.fexp2 o)
  | 24, 3 => some (.flog2 o)
  | 24, 4 => some (.ftanh o)
  | 24, 5 => some (.fcvt o)
  | 26, 0 => some (.cmul o)
  | 26, 1 => some (.cmad o)
  | 37, 0 => some (.twr o)
  | 37, 1 => some (.trd o)
  | 38, 0 => some (.scl o)
  | 38, 1 => some (.sclrd o)
  | 39, 0 => some (.csum o)
  | 39, 1 => some (.csver o)
  | 12, _ => some (.cmp fn o)
  | 14, _ => some (.cvt fn o)
  | 16, _ => some (.red fn o)
  | 17, _ => some (.scan fn o)
  | 23, _ => some (.fcmp fn o)
  | 25, _ => some (.fred fn o)
  | _, _ => none

/-- The instruction of a segment opcode and function code (05 R78). -/
def egInstr (op : Nat) (fn : BitVec 3) (o : EG) : Option Instr :=
  match op, fn.toNat with
  | 32, 0 => some (.segmac o)
  | 32, 1 => some (.segden o)
  | 33, 0 => some (.drow o)
  | 34, 0 => some (.bwdot o)
  | 34, 1 => some (.diff o)
  | 35, 0 => some (.seggrad o)
  | _, _ => none

/-- The instruction of an EM opcode and variant (05 R79). -/
def emInstr (op : Nat) (o : EM) : Option Instr :=
  match op with
  | 0x1E =>
    if o.variant.extractLsb' 5 1 = 1 then some (.matom o)
    else match (o.variant.extractLsb' 3 2).toNat with
      | 0 => some (.mld o)
      | 1 => some (.mst o)
      | 2 => some (.mtake o)
      | _ => some (.mfill o)
  | 0x1F => match (o.variant.extractLsb' 3 3).toNat with
      | 0 => some (.mfence o)
      | 1 => some (.eyaddElement o)
      | _ => none
  | 0x24 => match (o.variant.extractLsb' 3 3).toNat with
      | 0 => some (.accout o)
      | 1 => some (.accclr o)
      | 2 => some (.accst o)
      | _ => none
  | _ => none

/-- The instruction of an ES opcode (05 R75, R78). -/
def esInstr (op : Nat) (o : ES) : Option Instr :=
  match op with
  | 0x1B => some (.send o)
  | 0x1C => some (.sendr o)
  | 0x1D => match (o.flags.extractLsb' 6 2).toNat with
      | 0 => some (.last o)
      | 1 => some (.drop o)
      | 2 => some (.keep o)
      | _ => none
  | _ => none

/-- The instruction of a QA opcode and function code (05 R82). -/
def qaInstr (op fn : Nat) (o : QA) : Option Instr :=
  match op, fn with
  | 48, 0 => some (.sadd o)
  | 48, 1 => some (.ssub o)
  | 48, 2 => some (.smul o)
  | 48, 3 => some (.sand o)
  | 48, 4 => some (.sor o)
  | 48, 5 => some (.sxor o)
  | 48, 6 => some (.sshl o)
  | 48, 7 => some (.sshr o)
  | 48, 8 => some (.ssar o)
  | 48, 9 => some (.smin o)
  | 48, 10 => some (.smax o)
  | 48, 11 => some (.smov o)
  | 52, 0 => some (.cfg o)
  | 52, 1 => some (.commit o)
  | 52, 2 => some (.run o)
  | 52, 3 => some (.waitq o)
  | 52, 4 => some (.depth o)
  | 52, 5 => some (.bank o)
  | 56, 0 => some (.spawn o)
  | 56, 1 => some (.decl o)
  | 56, 2 => some (.done o)
  | 56, 3 => some (.cancel o)
  | 56, 4 => some (.split o)
  | 56, 5 => some (.yield o)
  | 59, 0 => some (.push o)
  | 59, 1 => some (.accept o)
  | 59, 2 => some (.agset o)
  | 60, 0 => some (.permit o)
  | 60, 1 => some (.unpermit o)
  | 61, 0 => some (.tlbinv o)
  | 61, 1 => some (.quar o)
  | 61, 2 => some (.ctxsave o)
  | 61, 3 => some (.ctxload o)
  | 61, 4 => some (.mon o)
  | 61, 5 => some (.bbnote o)
  | 62, 0 => some (.sbrk o)
  | 62, 1 => some (.step o)
  | _, _ => none

/-- The instruction of a QI opcode and function code (05 R82, R83). -/
def qiInstr (op : Nat) (fn : BitVec 4) (o : QI) : Option Instr :=
  match op with
  | 0x33 =>
    if fn.toNat ≤ 6 then some (.sld fn o)
    else if fn = 7 then none
    else if fn.toNat ≤ 11 then some (.sst fn o)
    else some (.satom fn o)
  | _ => match op, fn.toNat with
    | 49, 0 => some (.sli o)
    | 49, 1 => some (.saddi o)
    | 49, 2 => some (.sandi o)
    | 49, 3 => some (.slih o)
    | 57, 0 => some (.eyadd o)
    | 57, 1 => some (.eywait o)
    | 57, 2 => some (.eyset o)
    | 57, 3 => some (.sfence o)
    | _, _ => none

/-- The branch of a condition code (05 R84). -/
def qbInstr (cond : BitVec 4) (o : QB) : Option Instr :=
  if cond.toNat ≤ 5 then some (.br cond o)
  else if cond = 6 then some (.jmp o)
  else if cond = 7 then some (.loop o)
  else none

/-- The instruction of a QE opcode and function code (05 R82). -/
def qeInstr (op fn : Nat) (o : QE) : Option Instr :=
  match op, fn with
  | 53, 0 => some (.copy o)
  | 53, 1 => some (.gather o)
  | 53, 2 => some (.scatter o)
  | 53, 3 => some (.chain o)
  | 53, 4 => some (.waitseq o)
  | 54, 0 => some (.click o)
  | 54, 1 => some (.tbuild o)
  | 54, 2 => some (.tpatch o)
  | 54, 3 => some (.scant o)
  | 54, 4 => some (.expand o)
  | 54, 5 => some (.epi o)
  | 55, 0 => some (.pusht o)
  | 55, 1 => some (.popt o)
  | 58, 0 => some (.car o)
  | 58, 1 => some (.crs o)
  | 58, 2 => some (.cag o)
  | 58, 3 => some (.ca2a o)
  | 58, 4 => some (.cbcast o)
  | _, _ => none

/-- Accept a decoded instruction if it is a legal word. -/
def accept (i : Option Instr) (words : Nat) : Except DecodeError (Instr × Nat) :=
  match i with
  | none => .error .unusedFunction
  | some j => match j.check with
    | none => .ok (j, words)
    | some e => .error (.illFormed e)

/-- SYS (05 R74, 08 R120). -/
def sysInstr (w : Word) : Except DecodeError (Instr × Nat) :=
  if bits w 16 7 ≠ 0 then .error (.illFormed .reservedBits)
  else match (bits w 23 3).toNat with
    | 0 => if bits w 0 16 = 0 then .ok (.nop, 1) else .error (.illFormed .reservedBits)
    | 1 => .ok (.brk (bits w 0 16), 1)
    | 2 => .ok (.trap (bits w 0 16), 1)
    | _ => .error .unusedFunction

/-- LI (05 R74, 08 R122). -/
def liInstr (w : Word) : Except DecodeError (Instr × Nat) :=
  if bits w 19 4 ≠ 0 then .error (.illFormed .reservedBits)
  else accept (some (.li (bits w 23 3) (bits w 16 3) (bits w 0 16))) 1

/-- The EA, ES and EM formats with their extension words (05 R64). -/
def eaDecode (op : Nat) (w : Word) (rest : List Word) : Except DecodeError (Instr × Nat) :=
  match takeExt (bits w 19 4) rest with
  | none => .error .truncated
  | some (extA, rest') =>
    match takeExt (bits w 15 4) rest' with
    | none => .error .truncated
    | some (extB, _) =>
      accept (eaInstr op (bits w 6 3) (eaFields w extA extB))
        (1 + (if bits w 19 4 = 15 then 1 else 0) + (if bits w 15 4 = 15 then 1 else 0))

def esDecode (op : Nat) (w : Word) (rest : List Word) : Except DecodeError (Instr × Nat) :=
  if bits w 8 2 = 1 then match rest with
    | [] => .error .truncated
    | e :: _ => accept (esInstr op (esFields w e)) 2
  else accept (esInstr op (esFields w 0)) 1

def emDecode (op : Nat) (w : Word) (rest : List Word) : Except DecodeError (Instr × Nat) :=
  if bits w 19 4 = 15 then match rest with
    | [] => .error .truncated
    | e :: _ => accept (emInstr op (emFields w e)) 2
  else accept (emInstr op (emFields w 0)) 1

/-- Which format an opcode follows (05 R65, R78, R82). -/
inductive Format where
  | sys | li | ea | es | em | eg | qa | qi | qb | qe | reserved
  deriving DecidableEq, Repr

def formatOf (op : Nat) : Format :=
  if op = 0 then .sys
  else if op = 2 then .li
  else if op ≤ 0x1A then .ea
  else if op ≤ 0x1D then .es
  else if op ≤ 0x1F then .em
  else if op ≤ 0x23 then .eg
  else if op = 0x24 then .em
  else if op ≤ 0x27 then .ea
  else if op < 0x30 then .reserved
  else if op = 0x30 then .qa
  else if op = 0x31 then .qi
  else if op = 0x32 then .qb
  else if op = 0x33 then .qi
  else if op = 0x34 then .qa
  else if op ≤ 0x37 then .qe
  else if op = 0x38 then .qa
  else if op = 0x39 then .qi
  else if op = 0x3A then .qe
  else if op ≤ 0x3E then .qa
  else .reserved

/-- Whether a word is of the element space, and whether of the sequencer space (05 R65). -/
def isElementWord (w : Word) : Bool := (bits w 26 6).toNat < 0x28
def isSequencerWord (w : Word) : Bool := 0x30 ≤ (bits w 26 6).toNat && (bits w 26 6).toNat < 0x3F

/-- The instruction that a word and the words after it hold, and how many words it takes. -/
def decodeAt (w : Word) (rest : List Word) : Except DecodeError (Instr × Nat) :=
  let op := (bits w 26 6).toNat
  match formatOf op with
  | .sys => sysInstr w
  | .li => liInstr w
  | .ea => eaDecode op w rest
  | .es => esDecode op w rest
  | .em => emDecode op w rest
  | .eg => accept (egInstr op (bits w 13 3) (egFields w)) 1
  | .qa => accept (qaInstr op (bits w 8 6).toNat (qaFields w)) 1
  | .qi => accept (qiInstr op (bits w 0 4) (qiFields w)) 1
  | .qb => accept (qbInstr (bits w 22 4) (qbFields w)) 1
  | .qe => accept (qeInstr op (bits w 10 4).toNat (qeFields w)) 1
  | .reserved => .error .reservedOpcode

/-- The decoder: the instruction at the head of a run of words, and how many words it takes. -/
def decode : List Word → Except DecodeError (Instr × Nat)
  | [] => .error .truncated
  | w :: rest => decodeAt w rest

/-- The low `n` bytes of a number, the lowest first. -/
def leBytes : Nat → Nat → List Byte
  | 0, _ => []
  | n + 1, w => BitVec.ofNat 8 w :: leBytes n (w / 256)

/-- The instruction read from an instruction whose bits are `w` as the opcode table numbers them: its bytes in the
order the hardware stores them, the bits above `nbits` zero up to the longest instruction of three words. -/
def decodeTableWord (nbits w : Nat) : Option Instr :=
  match decode (wordsOfBytes (leBytes 12 (w % 2 ^ nbits))) with
  | .ok (i, _) => some i
  | .error _ => none

/-! ## The encoder -/

/-- The EA word of an opcode, a function code and its operand fields (05 R68, R70). -/
def encEA (op : BitVec 6) (fn : BitVec 3) (o : EA) : Word :=
  op ++ o.d ++ o.a ++ o.b ++ o.t ++ o.p ++ o.n ++ fn ++ o.sat ++ o.rm ++ o.x

/-- The EA word with the extension words its selectors ask for (05 R64). -/
def encEAs (op : BitVec 6) (fn : BitVec 3) (o : EA) : List Word :=
  encEA op fn o :: ((if o.a = 15 then [o.extA] else []) ++ (if o.b = 15 then [o.extB] else []))

/-- The ES word and its extension word (05 R75). -/
def encES (op : BitVec 6) (o : ES) : List Word :=
  (op ++ o.port ++ o.chan ++ o.ctx ++ o.src ++ o.last ++ o.keep ++ o.mode ++ o.flags : Word) ::
    (if o.mode = 1 then [o.ext] else [])

/-- The EM word and its extension word (05 R76). -/
def encEM (op : BitVec 6) (o : EM) : List Word :=
  (op ++ o.addr ++ o.src ++ o.size ++ o.mport ++ o.chan ++ o.scope ++ o.variant : Word) ::
    (if o.src = 15 then [o.ext] else [])

/-- The EG word (05 R77). -/
def encEG (op : BitVec 6) (fn : BitVec 3) (o : EG) : List Word :=
  [(op ++ o.port ++ o.mode ++ o.accMode ++ o.oport ++ fn ++ o.g ++ o.mport ++ o.width ++ o.rsv : Word)]

def encQA (op : BitVec 6) (fn : BitVec 6) (o : QA) : List Word := [(op ++ o.d ++ o.a ++ o.b ++ fn ++ o.flags : Word)]
def encQI (op : BitVec 6) (fn : BitVec 4) (o : QI) : List Word := [(op ++ o.d ++ o.a ++ o.imm ++ fn : Word)]
def encQB (op : BitVec 6) (cond : BitVec 4) (o : QB) : List Word := [(op ++ cond ++ o.a ++ o.b ++ o.off : Word)]
def encQE (op : BitVec 6) (fn : BitVec 4) (o : QE) : List Word :=
  [(op ++ o.sA ++ o.sB ++ o.sC ++ fn ++ o.flags : Word)]

/-- An EI word (05 R74): opcode, D, the reserved A, T and the immediate. -/
def encEI (op : BitVec 6) (d : BitVec 3) (t : BitVec 3) (imm : BitVec 16) : List Word :=
  [(op ++ d ++ (0 : BitVec 4) ++ t ++ imm : Word)]

/-- The words of an instruction, its extension words after it (05 R64); an event has none. -/
def encode : Instr → List Word
  | .nop => encEI 0 0 0 0
  | .brk code => encEI 0 1 0 code
  | .trap code => encEI 0 2 0 code
  | .li d t imm => encEI 2 d t imm
  | .mov o => encEAs 1 0 o
  | .add o => encEAs 3 0 o
  | .sub o => encEAs 4 0 o
  | .mul o => encEAs 5 0 o
  | .mulh o => encEAs 6 0 o
  | .mad o => encEAs 7 0 o
  | .min o => encEAs 8 0 o
  | .max o => encEAs 8 1 o
  | .abs o => encEAs 8 2 o
  | .neg o => encEAs 8 3 o
  | .and o => encEAs 9 0 o
  | .or o => encEAs 9 1 o
  | .xor o => encEAs 9 2 o
  | .andn o => encEAs 9 3 o
  | .orn o => encEAs 9 4 o
  | .xnor o => encEAs 9 5 o
  | .shl o => encEAs 10 0 o
  | .shr o => encEAs 10 1 o
  | .sar o => encEAs 10 2 o
  | .rol o => encEAs 10 3 o
  | .clz o => encEAs 11 0 o
  | .popc o => encEAs 11 1 o
  | .cmp c o => encEAs 12 c o
  | .sel o => encEAs 13 0 o
  | .cvt c o => encEAs 14 c o
  | .shuf o => encEAs 15 0 o
  | .bcast o => encEAs 15 1 o
  | .lrot o => encEAs 15 2 o
  | .pack o => encEAs 15 3 o
  | .unpackLo o => encEAs 15 4 o
  | .unpackHi o => encEAs 15 5 o
  | .red c o => encEAs 16 c o
  | .scan c o => encEAs 17 c o
  | .pand o => encEAs 18 0 o
  | .por o => encEAs 18 1 o
  | .pnot o => encEAs 18 2 o
  | .pset o => encEAs 18 3 o
  | .fadd o => encEAs 19 0 o
  | .fsub o => encEAs 19 1 o
  | .fmul o => encEAs 20 0 o
  | .fma o => encEAs 21 0 o
  | .fms o => encEAs 21 1 o
  | .fnma o => encEAs 21 2 o
  | .fmin o => encEAs 22 0 o
  | .fmax o => encEAs 22 1 o
  | .fabs o => encEAs 22 2 o
  | .fneg o => encEAs 22 3 o
  | .fcmp c o => encEAs 23 c o
  | .frcp o => encEAs 24 0 o
  | .frsq o => encEAs 24 1 o
  | .fexp2 o => encEAs 24 2 o
  | .flog2 o => encEAs 24 3 o
  | .ftanh o => encEAs 24 4 o
  | .fcvt o => encEAs 24 5 o
  | .fred c o => encEAs 25 c o
  | .cmul o => encEAs 26 0 o
  | .cmad o => encEAs 26 1 o
  | .send o => encES 27 o
  | .sendr o => encES 28 o
  | .last o => encES 29 o
  | .drop o => encES 29 o
  | .keep o => encES 29 o
  | .mld o => encEM 30 o
  | .mst o => encEM 30 o
  | .mtake o => encEM 30 o
  | .mfill o => encEM 30 o
  | .matom o => encEM 30 o
  | .mfence o => encEM 31 o
  | .eyaddElement o => encEM 31 o
  | .segmac o => encEG 32 0 o
  | .segden o => encEG 32 1 o
  | .drow o => encEG 33 0 o
  | .bwdot o => encEG 34 0 o
  | .diff o => encEG 34 1 o
  | .seggrad o => encEG 35 0 o
  | .accout o => encEM 36 o
  | .accclr o => encEM 36 o
  | .accst o => encEM 36 o
  | .twr o => encEAs 37 0 o
  | .trd o => encEAs 37 1 o
  | .scl o => encEAs 38 0 o
  | .sclrd o => encEAs 38 1 o
  | .csum o => encEAs 39 0 o
  | .csver o => encEAs 39 1 o
  | .sadd o => encQA 48 0 o
  | .ssub o => encQA 48 1 o
  | .smul o => encQA 48 2 o
  | .sand o => encQA 48 3 o
  | .sor o => encQA 48 4 o
  | .sxor o => encQA 48 5 o
  | .sshl o => encQA 48 6 o
  | .sshr o => encQA 48 7 o
  | .ssar o => encQA 48 8 o
  | .smin o => encQA 48 9 o
  | .smax o => encQA 48 10 o
  | .smov o => encQA 48 11 o
  | .sli o => encQI 49 0 o
  | .saddi o => encQI 49 1 o
  | .sandi o => encQI 49 2 o
  | .slih o => encQI 49 3 o
  | .br cond o => encQB 50 cond o
  | .jmp o => encQB 50 6 o
  | .loop o => encQB 50 7 o
  | .sld fn o => encQI 51 fn o
  | .sst fn o => encQI 51 fn o
  | .satom fn o => encQI 51 fn o
  | .cfg o => encQA 52 0 o
  | .commit o => encQA 52 1 o
  | .run o => encQA 52 2 o
  | .waitq o => encQA 52 3 o
  | .depth o => encQA 52 4 o
  | .bank o => encQA 52 5 o
  | .copy o => encQE 53 0 o
  | .gather o => encQE 53 1 o
  | .scatter o => encQE 53 2 o
  | .chain o => encQE 53 3 o
  | .waitseq o => encQE 53 4 o
  | .click o => encQE 54 0 o
  | .tbuild o => encQE 54 1 o
  | .tpatch o => encQE 54 2 o
  | .scant o => encQE 54 3 o
  | .expand o => encQE 54 4 o
  | .epi o => encQE 54 5 o
  | .pusht o => encQE 55 0 o
  | .popt o => encQE 55 1 o
  | .spawn o => encQA 56 0 o
  | .decl o => encQA 56 1 o
  | .done o => encQA 56 2 o
  | .cancel o => encQA 56 3 o
  | .split o => encQA 56 4 o
  | .yield o => encQA 56 5 o
  | .eyadd o => encQI 57 0 o
  | .eywait o => encQI 57 1 o
  | .eyset o => encQI 57 2 o
  | .sfence o => encQI 57 3 o
  | .car o => encQE 58 0 o
  | .crs o => encQE 58 1 o
  | .cag o => encQE 58 2 o
  | .ca2a o => encQE 58 3 o
  | .cbcast o => encQE 58 4 o
  | .push o => encQA 59 0 o
  | .accept o => encQA 59 1 o
  | .agset o => encQA 59 2 o
  | .permit o => encQA 60 0 o
  | .unpermit o => encQA 60 1 o
  | .tlbinv o => encQA 61 0 o
  | .quar o => encQA 61 1 o
  | .ctxsave o => encQA 61 2 o
  | .ctxload o => encQA 61 3 o
  | .mon o => encQA 61 4 o
  | .bbnote o => encQA 61 5 o
  | .sbrk o => encQA 62 0 o
  | .step o => encQA 62 1 o
  | .tokenArrival _ _ => []
  | .confToken _ _ => []
  | .ctrlToken _ _ => []
  | .blockSelect _ => []
  | .promotion _ _ => []
  | .blockCommit _ => []
  | .tagStoreDeadlock _ => []
  | .tableWriteApply _ => []
  | .flitHop _ _ _ => []
  | .depthChange _ _ => []
  | .bankSwitch _ _ => []
  | .memoryRequestPerform _ _ => []
  | .replyArrival _ _ => []
  | .fullEmptyWake _ => []
  | .eyeletAddition _ => []
  | .stepStart _ => []
  | .stepCommit _ => []
  | .waitSatisfied _ => []
  | .cfgLoad _ => []
  | .commitSweep _ => []
  | .runStartTokens _ => []
  | .pushStream _ _ => []
  | .acceptStream _ _ => []
  | .engineCommandStart _ => []
  | .engineCommandComplete _ _ => []
  | .copyRow _ _ => []
  | .gatherScatterRow _ _ => []
  | .clickChunk _ _ => []
  | .tableBuild _ _ => []
  | .tablePatch _ _ => []
  | .scanPass _ _ => []
  | .expandBlock _ _ => []
  | .epilogueRow _ _ => []
  | .stackCommand _ _ => []
  | .spill _ => []
  | .stackReturn _ => []
  | .hostAppend _ _ => []
  | .recordFetch _ => []
  | .placement _ => []
  | .gangPlacement _ _ => []
  | .steal _ => []
  | .queueAging _ => []
  | .placementStarvation _ => []
  | .preemptionTimeout _ => []
  | .preemptionSave _ => []
  | .resumption _ => []
  | .forwardReservation _ => []
  | .activationCompletion _ => []
  | .colourReturn _ => []
  | .redundantComparison _ => []
  | .permitGrant _ => []
  | .powerSample _ => []
  | .supplyDroopFatal _ _ _ => []
  | .weltFrameReceive _ _ _ => []
  | .weltMessageAgeDiscard _ => []
  | .sendrDelivery _ => []
  | .collectiveStep _ _ _ => []
  | .collectiveAbort _ _ => []
  | .retranslation _ _ => []
  | .frespRetry _ _ _ => []
  | .frespSkip _ _ _ => []
  | .frespKill _ _ _ => []
  | .frespContinue _ _ _ => []
  | .tlbinvhPage _ _ _ => []
  | .tlbinvhAsid _ _ => []
  | .tlbinvhIpa _ _ _ => []
  | .tlbinvhVf _ _ => []
  | .llcinjArm _ _ => []
  | .llcopClean _ _ => []
  | .llcopCleanInvalidate _ _ => []
  | .reset => []
  | .selfTestPass _ => []
  | .functionLevelReset _ => []
  | .mailboxGo _ _ => []
  | .attestationReportDone _ _ => []
  | .monitorRead _ _ _ => []
  | .fqovfClear _ _ => []
  | .ovlcntClear _ _ => []
  | .registerWrite _ _ _ _ => []
  | .illegalInstruction _ => []
  | .spillCompletion _ => []
  | .stackReturnCompletion _ => []
  | .hostCancel _ _ _ _ => []
  | .hostMemoryAccess _ _ _ _ => []

end Sys2Proof
end

