-- ==== Sys2Proof/Config.lean ====
section
/-! DEFINITION. What the spec leaves open: constants without a body. Nothing in Lean can evaluate one of them, so a
claim that mentions one holds whatever it is. Each carries the log entry that names it. -/
namespace Sys2Proof

/-- What the machine does next when no input waits and no unit has the turn (log 1). -/
inductive Pick where
  | event (i : Instr)
  | element (el : Nat)
  | sequencer (q : SeqId)
  deriving DecidableEq, Repr, Inhabited

/-- A physical error that has struck and has not been met yet (log 4). That of a 32-byte piece of HBM or of the LLC is what its 36
symbols differ by from what was stored (26 R406). -/
inductive Upset where
  | hbm (piece : Nat) (errors : BitVec 288)
  | llc (piece : Nat) (errors : BitVec 288)
  | elementFiring (el : Nat)
  | stepFiring (q : SeqId)
  | engineFiring (c : ChainId)
  | combine (lreg : Nat)
  | missed (lreg : Nat) (output : List Byte)
  | flit (circuit node branch : Nat)
  deriving DecidableEq, Repr, Inhabited

namespace Config

/-- The next event or unit, at each tick (log 1). -/
opaque schedule : Nat → Pick
/-- The cycles that pass in a step, at each tick (log 3). -/
opaque elapsed : Nat → Nat
/-- The physical error that strikes at a tick, if one does (log 4). -/
opaque upset : Nat → Option Upset
/-- By what the codeword in whose bound the symbols of a piece lie differs from the stored one, where errors pass the bound of the
code; by the stored data, the errors and the erased positions. The spec gives no field or generator polynomial (26 R406; log 4). -/
opaque neighbour : BitVec 256 → BitVec 288 → List Nat → BitVec 288
/-- Whether a translation uses a cached entry that a walk would no longer give, at each tick (log 12). -/
opaque usesCached : Nat → Bool
/-- The inputs from which FEXP2, FLOG2 and FTANH give at least a value, where their bounds leave a choice, by the bits of the
value (log 16). -/
opaque fexp2 : Word → Word
opaque flog2 : Word → Word
opaque ftanh : Word → Word
/-- A monitor's reading by die, kind, index, the tick of its last read and the tick (log 7). -/
opaque monitor : Nat → Nat → Nat → Nat → Nat → DWord
/-- Which of the requests that a memory port holds is performed, at each tick (log 20). -/
opaque requestPick : Nat → Nat
/-- The set of a line within its group, the way it is put in, and the line that makes room for it, by line and tick (log 11). -/
opaque llcSet : Nat → Nat
opaque llcWay : Nat → Nat → Nat
opaque llcVictim : Nat → Nat → Nat
/-- The bytes of a bank that returns to SCRATCH, by tile, bank offset and tick (log 14). -/
opaque bankByte : Nat → Nat → Nat → Byte
/-- The public key in the boot ROM, and the first-stage firmware in flash with its signature, at each tick (26 R420; log 18). -/
opaque romKey : BitVec 256
opaque firstStage : Nat → List Byte
opaque firstStageSignature : Nat → List Byte
/-- The secret key that the device derives from its physical unclonable function (26 R420; log 18). -/
opaque deviceKey : BitVec 256
/-- The version of the firmware in flash, the anti-rollback counter, and the later images that boot measures, at each tick (26 R420;
log 18). -/
opaque firmwareVersion : Nat → Nat
opaque rollbackCounter : Nat → Nat
opaque laterImages : Nat → List (List Byte)
/-- How many of the frames sent last over a link its replay buffer holds as it goes down (23 R356; log 54). -/
opaque unacknowledged : Nat → Nat → Nat
/-- Whether traffic between quadrants 1 and 2 passes through 0 rather than 3 (12 R191; log 1). -/
opaque crossesZero : Nat → Bool
/-- The bytes that a pre-emption writes in its part of a save area, by offset (18 R300; log 64). -/
opaque saveWrites : Nat → List (Nat × Byte)
/-- Whether boot repairs an entry of an erasure map, by register number, entry and tick (log 6). -/
opaque bootRepairs : Nat → Nat → Nat → Bool
/-- The package number in the signed configuration record: none leaves DOMID at 0 (log 6). -/
opaque bootPackage : Option (BitVec 10)
/-- The public keys in the signed configuration record that sign configurations (26 R420; log 18). -/
opaque signingKeys : List (BitVec 256)
/-- The power budget that the configuration record carries, in milliwatts (log 8). -/
opaque bootBudget : Nat
/-- Whether the module has the LPDDR tier: an MHC9-PKG has none (15 R237, log 19). -/
opaque hasLpddr : Bool
/-- How many boot stages meet no failure that the spec does not name, at a tick, and the result byte of each stage (log 18). -/
opaque bootStages : Nat → Nat
opaque bootResult : Nat → Nat → Byte
/-- The cause byte of a throttle event, by whether power and whether temperature is above its bound (log 8). -/
opaque throttleCause : Bool → Bool → Byte

end Config
end Sys2Proof
end

