-- ==== Sys2Proof/Machine/State.lean ====
section
/-! DEFINITION. The state of the Caskel C9: every piece of state that the spec gives the package, as plain data, the
reasons a step can stop, and the state right after reset. INVENTORY.md lists each piece with its rule. -/
namespace Sys2Proof.Machine

/-- Bytes by address: addresses strictly rising, and no byte equal to what an unlisted address reads as. -/
abbrev Mem := List Host.Cell

/-! ## Tokens and the fabric -/

/-- The kind of a token (12 R177). -/
inductive TokenKind where
  | data | last | conf | ctrl
  deriving DecidableEq, Repr, Inhabited

/-- A token with its sideband (12 R177); a scalar token's payload fills the low 32 bytes (07 R102). -/
structure Token where
  kind : TokenKind := .data
  vector : Bool := false
  chan : BitVec 5 := 0
  ctx : BitVec 3 := 0
  colour : BitVec 16 := 0
  iter : BitVec 16 := 0
  data : Vec := 0
  deriving DecidableEq, Repr, Inhabited

/-- One flit: 256 data bits and the sideband of 12 R177. -/
structure Flit where
  par : Bool
  idx : BitVec 3
  vector : Bool
  kind : TokenKind
  iter : BitVec 16
  chan : BitVec 5
  ctx : BitVec 3
  colour : BitVec 16
  data : BitVec 256
  deriving DecidableEq, Repr, Inhabited

/-- Where a flit of a circuit goes next: another hop of the circuit, or one of its ends (12 R179). -/
inductive HopTarget where
  | node (n : Nat)
  | elementPort (el port : Nat)
  | streamPort (tile mport : Nat)
  | sink (tile : Nat)
  | edge (n : Nat)
  deriving DecidableEq, Repr, Inhabited

/-- One place of a circuit that holds flits: its source port, a hop buffer of four flits, a PASS stage or a FIFO
bank (12 R183, R188, R189), with the flits still on the wire towards it (R185) and where its flits go next. `served` is the
moment of the last flit it put on its links, for the service order of R182. -/
structure HopNode where
  tile : Nat := 0
  capacity : Option Nat := some 4
  flits : List Flit := []
  wire : List Flit := []
  targets : List HopTarget := []
  passPort : Option (Nat × Nat) := none
  viaBank : Option (Nat × Nat) := none
  served : Nat := 0
  deriving DecidableEq, Repr, Inhabited

/-- A source port (12 R179): an element's out or memory port, or a memory tile's memory port. -/
inductive SourcePort where
  | out (el port : Nat)
  | elementMem (el mport : Nat)
  | tileMem (tile mport : Nat)
  | edgeIn (graph n : Nat)
  deriving DecidableEq, Repr, Inhabited

/-- A circuit: its source port, its label, the activation whose configuration bound it, its ends and its places; place 0
is the source port (12 R179, R180). A circuit that comes in over an edge starts at the first tile that the edge reaches,
and `edgeFrom` is the tile that it leaves (11 R171, 12 R190). -/
structure Circuit where
  source : SourcePort
  label : Nat := 0
  owner : Nat := 0
  asid : Nat := 0
  ends : List HopTarget := []
  nodes : Tab HopNode := []
  edgeFrom : Option Nat := none
  deriving DecidableEq, Repr, Inhabited

/-! ## Elements -/

/-- The owner of a cursor (10 R152, R165). -/
inductive CursorOwner where
  | segmac | segden | drow | bwdot | diff | seggrad
  deriving DecidableEq, Repr, Inhabited

/-- A context's cursor (10 R152). -/
structure Cursor where
  isOpen : Bool := false
  owner : CursorOwner := .segmac
  colour : BitVec 16 := 0
  iter : BitVec 16 := 0
  left : Nat := 0
  endB : Nat := 0
  dense : Bool := false
  pprev : DWord := 0
  deriving DecidableEq, Repr, Inhabited

/-- A fault as its finder states it: the fields of the record of 25 R383 that depend on the fault; `walk` is no field of the record,
but the physical addresses of the entries that the walks of its translation have read. -/
structure FaultInfo where
  code : BitVec 8
  flags : BitVec 8 := 0
  detail : BitVec 8 := 0
  address : DWord := 0
  address2 : DWord := 0
  position : Word := 0xFFFFFFFF
  operand : Word := 0
  walk : List Nat := []
  deriving DecidableEq, Repr, Inhabited

/-- A fault that holds a unit until a response (25 R382, R385); `operands` names the slots of a held match by arrival. -/
structure HeldFault where
  info : FaultInfo
  late : Bool := false
  place : Nat := 0
  word : Nat := 0
  operands : List Nat := []
  deriving DecidableEq, Repr, Inhabited

/-- Accumulator lanes: 128 cells of 64 bits. A cell holds a sign-extended acc48, an i64 lane pair or, in its low 32
bits, an FP32 accumulator (07 R115, 10 R153). -/
abbrev Acc := BitVec 8192

/-- One context of an element (07 R98, R109, R115, R116; 10 R152, R153). -/
structure ElementCtx where
  word : DWord := 0
  acc : Acc := 0
  accFp : Bool := false
  status : Word := 0
  cursor : Cursor := {}
  temps : Tab Vec := []
  preds : Tab Pred := []
  held : Option HeldFault := none
  deriving DecidableEq, Repr, Inhabited

/-- A slot of the tag store (07 R102, R103): `order` counts arrivals, `since` is the cycle from which it waits. -/
structure Slot where
  port : Nat
  token : Token
  order : Nat
  since : Nat
  deriving DecidableEq, Repr, Inhabited

/-- The FIFO a token comes from (16 R250, 23 R358). -/
inductive FifoSel where
  | circuit | reply | remote
  deriving DecidableEq, Repr, Inhabited

/-- An input port: its FIFOs, the order in which their tokens became whole, its depth and a depth that waits
(07 R102; 12 R186, R187; 16 R250; 23 R358). -/
structure Port where
  circuit : List Flit := []
  wire : List Flit := []
  reply : List Flit := []
  remote : List Flit := []
  order : List FifoSel := []
  depth : Nat := 0
  newDepth : Option Nat := none
  deriving DecidableEq, Repr, Inhabited

/-- An element memory operation (16 R248, R251, R253, R254; 10 R165). -/
inductive MemOp where
  | load (signed : Bool)
  | store
  | take (signed : Bool)
  | fill
  | atom (op : Nat)
  | fence
  | eyadd
  | rowAdd (wide : Bool) (v : Int)
  deriving DecidableEq, Repr, Inhabited

/-- The memory type of a page (25 R389). -/
inductive MemType where
  | cached | streaming | device
  deriving DecidableEq, Repr, Inhabited

/-- A memory request of an element (16 R249): staged, and after commit in its memory port. `scratch` names the space,
`address` the scratch offset or the physical address that a committed request carries (25 R392), `order` its place among the
element's requests, `at_` the moment of its commit, `pieces` the pieces of its instruction that stand before it, `left` that it
has left its port, with the places of its reply reserved (R250), `held` that an invalidation covers it (R393) and `failed` the fault it met (R428). -/
structure MemRequest where
  op : MemOp
  mport : Nat
  scratch : Bool := false
  va : Nat := 0
  address : Nat := 0
  size : Nat := 0
  data : Vec := 0
  scope : Nat := 0
  reply : Option (BitVec 5) := none
  ctx : BitVec 3 := 0
  colour : BitVec 16 := 0
  iter : BitVec 16 := 0
  entry : Nat := 0
  word : Nat := 0
  mtype : MemType := .cached
  fullEmpty : Bool := false
  order : Nat := 0
  at_ : Nat := 0
  pieces : Nat := 0
  left : Bool := false
  held : Bool := false
  failed : Option FaultInfo := none
  deriving DecidableEq, Repr, Inhabited

/-- A staged effect of a block (07 R111). -/
inductive BlockEffect where
  | send (out : Nat) (token : Token)
  | message (dest : DWord) (flits : Nat) (token : Token)
  | request (r : MemRequest)
  | scale (k : Nat) (v : Word)
  | tableRow (row : Nat) (v : Vec)
  deriving DecidableEq, Repr, Inhabited

/-- A block in execution (07 R108 to R113): its match, the next instruction, the working copies it commits, its staged
effects in program order, its events and what each operand's port decides about it. -/
structure Block where
  ctx : BitVec 3 := 0
  entry : Nat := 0
  colour : BitVec 16 := 0
  iter : BitVec 16 := 0
  operands : Tab Slot := []
  done : Nat := 0
  word : Nat := 0
  temps : Tab Vec := []
  preds : Tab Pred := []
  acc : Acc := 0
  accFp : Bool := false
  cursor : Cursor := {}
  effects : List BlockEffect := []
  events : Word := 0
  keeps : Tab Bool := []
  partials : List Nat := []
  attempt : Nat := 0
  asNop : Option Nat := none
  deriving DecidableEq, Repr, Inhabited

/-- A table write of an engine that waits at its element (03 R47): a whole table, or a patch by 03 R44 or R45. -/
inductive TableWriteKind where
  | build (rows : Tab Vec) (block : BitVec 512) (word : Option (Nat × Word))
  | patch (wide deltaForm : Bool) (k columns : Nat) (deltas : List Int)
  deriving DecidableEq, Repr, Inhabited

structure TableWrite where
  chain : ChainId
  place : Nat
  kind : TableWriteKind
  deriving DecidableEq, Repr, Inhabited

/-- An element of a compute tile (02 R15; 07). `anew` is the moment from which a candidate whose block was abandoned gains its
promotion again (07 R107; log 61); `quarantineDue` says that two close mismatches have come and the second attempt has not ended yet
(26 R412). -/
structure Element where
  ctxs : Tab ElementCtx := []
  handlers : Tab Word := []
  code : Tab Word := []
  table : Tab Vec := []
  reloadable : Option (BitVec 512) := none
  scales : Tab Word := []
  ports : Tab Port := []
  slots : List Slot := []
  arrivals : Nat := 0
  lastRelease : Nat := 0
  promotions : Tab Nat := []
  anew : Tab Nat := []
  lastFired : Option (Nat × Nat) := none
  block : Option Block := none
  again : Option (List Nat × Nat) := none
  contNop : List (List Nat × Nat) := []
  issued : Nat := 0
  requests : Tab (List MemRequest) := []
  replies : List (Nat × Token) := []
  tableWrites : List TableWrite := []
  mismatchAt : Option Nat := none
  quarantineDue : Bool := false
  grants : Nat := 0
  tenant : Option Nat := none
  deriving DecidableEq, Repr, Inhabited

/-! ## Memory tiles, streams and sequencers -/

/-- The mode of a bank (15 R238). -/
inductive BankMode where
  | scratch | cache | fifo
  deriving DecidableEq, Repr, Inhabited

/-- A sector of a tile cache, whose list holds the most recently used first (15 R239), with the mask of the bytes stored since
it was filled (19 R306) and the elements and sequencers (65536 and above) that stored them (20 R320, R325). -/
structure Sector where
  number : Nat
  bank : Nat
  data : BitVec 1024
  mask : BitVec 128 := 0
  asid : Nat := 0
  colour : Nat := 0
  writers : List Nat := []
  deriving DecidableEq, Repr, Inhabited

/-- The space a nest addresses (13 R209). -/
inductive NestSpace where
  | scratch | memory | accI32 | accF32 | accI64
  deriving DecidableEq, Repr, Inhabited

/-- An address-generator nest (13 R209). -/
structure Nest where
  base : DWord := 0
  mport : Nat := 0
  space : NestSpace := .scratch
  counts : List Nat := []
  strides : List Int := []
  deriving DecidableEq, Repr, Inhabited

/-- Where a checked access of a step, or a page of a stream's nest, leads: the physical address that it carries from then on, with the
memory type and the full-empty attribute of its page, and whether an invalidation has covered it since (25 R392, R393). -/
structure Home where
  pa : Nat
  mtype : MemType := .cached
  fullEmpty : Bool := false
  held : Bool := false
  deriving DecidableEq, Repr, Inhabited

/-- A PUSH or ACCEPT in progress or waiting (13 R221 to R223): a copy of its nest, its sideband, its progress, and whether the
region sequencer committed it, which is then the unit that its faults name. `extents` are the physical places of the pages of a
memory-space nest, by page number, and `stale` says that an invalidation has covered one of them (25 R392, R393). -/
structure Stream where
  isPush : Bool
  ag : Nat
  nest : Nest
  chan : BitVec 5
  ctx : BitVec 3
  colour : BitVec 16
  iter : BitVec 16
  next : Nat := 0
  half : Option Word := none
  region : Bool := false
  held : Option HeldFault := none
  extents : Tab Home := []
  stale : Bool := false
  deriving DecidableEq, Repr, Inhabited

/-- An entry of a step table (13 R210). -/
structure StepEntry where
  first : Nat
  length : Nat
  deriving DecidableEq, Repr, Inhabited

/-- A region program or stream program (13 R210). -/
structure Program where
  steps : List StepEntry := []
  code : Tab Word := []
  deriving DecidableEq, Repr, Inhabited

/-- What ends a step and what holds the next one (13 R198, R200). -/
inductive Wait where
  | none
  | eyelet (va : DWord) (generation : Word)
  | sequence (engine : Nat) (value : Word)
  | quiet
  deriving DecidableEq, Repr, Inhabited

/-- How a step ended (13 R200, 21 R329). -/
inductive StepEnd where
  | wait (w : Wait)
  | branch (step : Nat)
  | run
  | finished
  deriving DecidableEq, Repr, Inhabited

/-- An engine command record (16 R257). -/
structure CommandRecord where
  engine : Nat
  fn : Nat
  flags : BitVec 16
  parameter : DWord
  eyelet : DWord
  auxiliary : DWord
  activation : DWord
  deriving DecidableEq, Repr, Inhabited

/-- A staged effect of a step (13 R199). -/
inductive StepEffect where
  | store (va : Nat) (home : Home) (size : Nat) (value : DWord) (word : Nat)
  | atom (va : Nat) (home : Home) (op : Nat) (d : Nat) (value : DWord) (word : Nat)
  | eyelet (va : Nat) (home : Home) (sets : Bool) (g : Word) (word : Nat)
  | append (r : CommandRecord) (word : Nat)
  | collective (fn : Nat) (r : CommandRecord)
  | agset (ag : Nat) (base : DWord) (word : Nat)
  | push (ag : Nat) (chan : BitVec 5) (ctx : BitVec 3) (word : Nat)
  | accept (ag : Nat) (chan : BitVec 5) (word : Nat)
  | run (mport : Nat) (count : DWord) (chan : BitVec 5) (ctx : BitVec 3) (word : Nat)
  | cfg (image : DWord) (discard : Bool) (word : Nat)
  | commit (word : Nat)
  | depth (el port depth : Nat) (word : Nat)
  | bank (tile bank : Nat) (mode : BankMode) (word : Nat)
  | spawn (record : BitVec 512) (va : Nat) (word : Nat)
  | decl (index : Nat) (base ext : DWord)
  | cancel (level id : Nat)
  | split (d : Nat) (k : DWord)
  | yield
  | sfence (scope : Nat)
  | permit (cls : Nat)
  | unpermit
  | tlbinv (kind : Nat) (address : DWord) (target : Nat)
  | untilAdded (additions : List Nat)
  | mon (d : Nat) (value : DWord)
  | quar (d : Nat) (el : Nat) (sets : Bool)
  | ctxsave (d : Nat) (asid : Nat) (saving : Option (List Nat))
  | ctxload (d : Nat) (asid : Nat)
  | bbnote (x y : DWord)
  | sbrk (code : BitVec 8)
  | stepMode (mode : Nat) (record : DWord)
  deriving DecidableEq, Repr, Inhabited

/-- A step in execution (13 R199, R200): the word it is at, the registers as they stood at its start, its staged
effects, and how it ended once it has. `released` says that its commit has passed its checks and `begun` that an effect is
released, `waitsAt` the word that last waited for full words (15 R246). -/
structure StepRun where
  word : Nat := 0
  saved : Tab DWord := []
  effects : List StepEffect := []
  ended : Option StepEnd := none
  released : Bool := false
  begun : Bool := false
  waitsAt : Option Nat := none
  attempt : Nat := 0
  deriving DecidableEq, Repr, Inhabited

/-- A sequencer's state (13 R198, R225). Register 0 reads as zero through the accessor. `lateAccess` holds the accesses
that failed after their step had committed, with their step (25 R428). -/
structure Sequencer where
  regs : Tab DWord := []
  cc : Nat := 0
  wait : Wait := .none
  program : Program := {}
  step : Option StepRun := none
  running : Bool := false
  held : Option HeldFault := none
  lateAccess : List (Nat × StepEffect) := []
  deriving DecidableEq, Repr, Inhabited

/-- A switch of a bank under way (15 R238): the mode it takes, and what the bank performs first: requests, by element and number, and
eyelet additions. -/
structure BankSwitch where
  mode : BankMode
  requests : List (Nat × Nat) := []
  additions : List Nat := []
  deriving DecidableEq, Repr, Inhabited

/-- A memory tile (02 R16). `sinks` and `sinkWires` hold the flits in and on their way to its request sink, by the memory
port of the element that sent them (12 R186; log 58). -/
structure MemTile where
  sram : Mem := []
  modes : Tab BankMode := []
  switching : Tab BankSwitch := []
  cache : List Sector := []
  bank : Mem := []
  bankStatus : Word := 0
  clkth : Nat := 64
  nests : Tab Nest := []
  fifos : Tab (List Flit) := []
  wires : Tab (List Flit) := []
  sinks : Tab (List Flit) := []
  sinkWires : Tab (List Flit) := []
  streams : List Stream := []
  stream : Sequencer := {}
  mismatchAt : Option Nat := none
  tenant : Option Nat := none
  deriving DecidableEq, Repr, Inhabited

/-! ## Engines -/

/-- Where a command stands (16 R258, R262). -/
inductive CommandPhase where
  | waiting | running | queued | moved | adding | completed | faulted
  deriving DecidableEq, Repr, Inhabited

/-- A command of a chain: its record, the parameter block it read, its progress in rows, blocks or chunks, and the
bytes its eyelet is owed (16 R256 to R258; 14 R230). A faulted command resumes in the phase `resumeAs`. -/
structure Command where
  place : Nat
  record : CommandRecord
  colour : Nat
  phase : CommandPhase := .waiting
  resumeAs : CommandPhase := .waiting
  block : BitVec 512 := 0
  row : Nat := 0
  owed : Nat := 0
  stats : List Nat := []
  attempt : Nat := 0
  at_ : Nat := 0
  deriving DecidableEq, Repr, Inhabited

/-- A command chain (16 R256, R258). `colour` is that of its activation, on a spill chain of the command it runs;
`eyelets` lists the sequence values whose commands named an eyelet (20 R325). -/
structure Chain where
  id : ChainId
  commands : List Command := []
  seq : Word := 0
  appended : Nat := 0
  colour : Nat := 0
  held : Option HeldFault := none
  stopped : Bool := false
  eyelets : List Nat := []
  deriving DecidableEq, Repr, Inhabited

/-- A chunk that a link region received or sent: its step, its slice, its index, the other rank and its bytes. -/
structure Chunk where
  step : Nat
  slice : Nat
  index : Nat
  rank : Nat
  bytes : List Byte
  deriving DecidableEq, Repr, Inhabited

/-- A collective command at a link region (22 R344 to R349, 23 R361 to R368): its record, the parameter block and rank table
it read, the ranks that agreed, the verified inputs, the chunks sent and kept, the stored results by slice and chunk, the
repetitions of each step of each chunk, the combined outputs, the attempt of a combination that checked firing repeats, whether
every byte has landed, whether its ranks disagree, with the packages that a disagreeing rank names (R346), and the moment of its
append. -/
structure Collective where
  place : Nat
  fn : Nat
  record : CommandRecord
  colour : Nat
  asid : Nat
  job : Nat
  running : Bool := false
  block : BitVec 512 := 0
  ranks : List Nat := []
  agreed : List Nat := []
  received : List Chunk := []
  kept : List Chunk := []
  stored : List (Nat × Nat) := []
  tries : List ((Nat × Nat × Nat) × Nat) := []
  outputs : List Chunk := []
  attempt : Nat := 0
  ended : Bool := false
  owed : Nat := 0
  mismatch : Bool := false
  told : List Nat := []
  at_ : Nat := 0
  deriving DecidableEq, Repr, Inhabited

/-- A link region's chain (23 R365): `held` is a page fault of its first command, `finished` lists the commands that have
completed, whose sent chunks are kept (23 R368). -/
structure LinkChain where
  commands : List Collective := []
  seq : Word := 0
  held : Option HeldFault := none
  finished : List Collective := []
  deriving DecidableEq, Repr, Inhabited

/-- What a link region sends: its parameters, a chunk with its checksum pair, a request for a chunk, or an abort, which says
whether the ranks disagree (22 R346, R349; 23 R365, R368). -/
inductive SendKind where
  | parameters | chunk | again | abort | mismatch
  deriving DecidableEq, Repr, Inhabited

/-- A message of a link region to a package (23 R355, R365). -/
structure WeltSend where
  kind : SendKind
  target : Nat
  job : Nat
  collective : Nat
  step : Nat
  slice : Nat
  chunk : Nat
  bytes : List Byte
  sumA : DWord
  sumB : DWord
  deriving DecidableEq, Repr, Inhabited

/-- The state of a stack entry (15 R244). -/
inductive StackState where
  | resident | spilling | spilled | returning
  deriving DecidableEq, Repr, Inhabited

/-- An entry of an activation stack (15 R243, R244): its length in bytes, and the 256-byte blocks that it has in the ring and in the
spill area (log 23). -/
structure StackEntry where
  length : Nat
  state : StackState := .resident
  ring : List Nat := []
  spill : List Nat := []
  deriving DecidableEq, Repr, Inhabited

/-! ## Activations and the scheduler -/

/-- A region record in force (17 R277): base, extent and mode 0 R, 1 W, 2 RW, 3 RA. -/
structure RegionRecord where
  base : Nat
  extent : Nat
  mode : Nat
  deriving DecidableEq, Repr, Inhabited

/-- A RUN that has placed some of its start tokens (13 R218); `needs` says that it waits for the class it has requested (21
R342). -/
structure RunProgress where
  mport : Nat
  chan : BitVec 5
  ctx : BitVec 3
  remaining : Option Nat
  needs : Bool := false
  deriving DecidableEq, Repr, Inhabited

/-- An iteration that RUN placed and the port, channel and context it was placed on (25 R396). -/
structure PlacedIteration where
  iteration : Nat
  mport : Nat
  chan : BitVec 5
  ctx : BitVec 3
  deriving DecidableEq, Repr, Inhabited

/-- A switch binding of an image (13 R208): entries are (identifier, port code, depth). -/
structure Binding where
  source : Nat
  port : Nat
  label : Nat
  entries : List (Nat × Nat × Nat)
  deriving DecidableEq, Repr, Inhabited

/-- A configuration image as the loader parsed it (13 R206 to R210); identifiers are region-relative. -/
structure LoadedConfig where
  width : Nat := 2
  height : Nat := 2
  link : Bool := false
  cacheMode : Bool := false
  initial : Nat := 0
  slots : Nat := 0
  ctxs : List (Nat × Nat × DWord) := []
  handlers : List (Nat × Nat × List Word) := []
  code : List (Nat × List Word) := []
  bindings : List Binding := []
  nests : List (Nat × Nat × Nest) := []
  streams : List (Nat × Program) := []
  program : Option Program := none
  deriving DecidableEq, Repr, Inhabited

/-- A request for a permit class that waits (21 R342, R343): the class, the moment of its arrival, and whether a RUN made it. -/
structure PermitAsk where
  cls : Nat
  at_ : Nat
  run : Bool := false
  deriving DecidableEq, Repr, Inhabited

/-- The life of an activation (18 R292 to R301). -/
inductive ActPhase where
  | starting | running | finishing | walking | walked | saved | stopped
  deriving DecidableEq, Repr, Inhabited

/-- A configuration load (13 R211 to R214). -/
inductive LoadPhase where
  | loading | loaded | failed
  deriving DecidableEq, Repr, Inhabited

/-- A CFG in progress (13 R211 to R213). -/
structure PendingLoad where
  image : DWord
  discard : Bool
  phase : LoadPhase := .loading
  config : LoadedConfig := {}
  deriving DecidableEq, Repr, Inhabited

/-- The role of a copy of a REDUNDANT pair (19 R317). -/
inductive PairRole where
  | single | primary | shadow
  deriving DecidableEq, Repr, Inhabited

/-- A die's queue entry or pending record (18 R289, R290, R295): also what an activation keeps of the record it runs.
`order` is its spawn order and `parents` what it depends on (17 R280, 19 R312), `family` the entry that its split parts
share, `edges` the edges its configuration names, outbound or not (11 R171), `broken` that its image cannot be loaded, `reserved` the die and the place of the
region reserved for it (19 R309), and `claim` those of the region that a pre-emption frees for it (17 R282). -/
structure Entry where
  id : Nat := 0
  asid : Nat := 0
  die : Nat := 0
  va : Nat := 0
  record : BitVec 512 := 0
  regions : List RegionRecord := []
  width : Nat := 2
  height : Nat := 2
  link : Bool := false
  lo : Nat := 0
  hi : Nat := 0
  isPart : Bool := false
  rerun : Bool := false
  held : Bool := false
  stepMode : Bool := false
  pending : Bool := false
  since : Nat := 0
  gained : Nat := 0
  failedAt : Option Nat := none
  starved : Bool := false
  counted : Bool := false
  order : Nat := 0
  parents : List Nat := []
  family : Nat := 0
  edges : List (Nat × Bool) := []
  broken : Bool := false
  resumes : Option Nat := none
  reserved : Option (Nat × Nat × Nat) := none
  claim : Option (Nat × Nat × Nat) := none
  deriving DecidableEq, Repr, Inhabited

/-- What a pre-emption saves of an activation's region (18 R300): its elements, its memory tiles and its circuits, with the
first byte and the length of the part of the save area that it takes. -/
structure SavedFrame where
  elements : Tab Element := []
  tiles : Tab MemTile := []
  circuits : Tab Circuit := []
  chains : List Chain := []
  deferred : List (Nat × MemRequest) := []
  area : Nat × Nat := (0, 0)
  deriving DecidableEq, Repr, Inhabited

/-- A late fault of an activation (25 R396, R428): its iteration m, its record, and once delivered the ISC it found. -/
structure LateFault where
  m : Nat
  info : FaultInfo
  el : Nat
  ctx : Nat
  entry : Nat
  word : Nat
  delivered : Bool := false
  upTo : Nat := 0
  deriving DecidableEq, Repr, Inhabited

/-- A scratch range that an edge-bound ACCEPT reserves, and its channel (15 R241). -/
structure EdgeBuffer where
  base : Int
  length : Nat
  chan : BitVec 5
  deriving DecidableEq, Repr, Inhabited

/-- An activation on a region (18). `victim` says that it is to be pre-empted, and whether it then goes to the tail of its
level (21 R335); `resumeAs` is its phase once its permit is granted, and `restarts` that a kill re-enters it (19 R316);
`lostWrite` says that a write-back of it met a retired frame (24 R377); `linkAppends` counts the commands it has appended at
each LREG, from its start on (25 R383). -/
structure Activation where
  entry : Entry := {}
  colour : Nat := 0
  die : Nat := 0
  x0 : Nat := 0
  y0 : Nat := 0
  image : DWord := 0
  phase : ActPhase := .starting
  seq : Sequencer := {}
  isc : Nat := 0
  extent : Nat := 0
  runs : List RunProgress := []
  placed : List PlacedIteration := []
  records : List RegionRecord := []
  permit : Nat := 1
  baseState : Bool := true
  asks : List PermitAsk := []
  config : LoadedConfig := {}
  load : Option PendingLoad := none
  sweep : Bool := false
  walkRecord : Nat := 0
  walkSector : Nat := 0
  code : Nat := 0
  lostWrite : Bool := false
  cancelled : Bool := false
  events : Word := 0
  sources : Tab Nat := []
  role : PairRole := .single
  partner : Nat := 0
  digestA : DWord := 0
  digestB : DWord := 0
  compared : Bool := false
  stepMode : Bool := false
  stepGrants : Nat := 0
  gang : Option Nat := none
  narrowed : Bool := false
  late : Option LateFault := none
  edgeBuffers : List EdgeBuffer := []
  placedAt : Nat := 0
  victim : Option Bool := none
  frame : Option SavedFrame := none
  resumeAs : ActPhase := .running
  restarts : Bool := false
  linkAppends : Tab Nat := []
  deriving DecidableEq, Repr, Inhabited

/-- A configuration resident in a region (18 R292): its die, place, shape, image, context and slots. -/
structure Resident where
  die : Nat
  x0 : Nat
  y0 : Nat
  image : DWord
  asid : Nat
  config : LoadedConfig := {}
  deriving DecidableEq, Repr, Inhabited

/-- What the scheduler keeps of an append until it fetches the slot: its place in spawn order and the entries that the
record depends on (17 R280, 19 R312). -/
structure SlotNote where
  asid : Nat
  slot : Nat
  stamp : Nat
  record : BitVec 512 := 0
  parents : List Nat := []
  deriving DecidableEq, Repr, Inhabited

/-- The die schedulers (17 R278; 18; 19). Counters and marks are keyed by context, job, level and id; a mark holds the code with
which what it drops completes (18 R298, 19 R316). `owed` lists completion records of records that completed without a region
while the ring of their context was full, oldest first (25 R386). -/
structure Scheduler where
  counters : List ((Nat × Nat × Nat × Nat) × Nat) := []
  marks : List ((Nat × Nat × Nat × Nat) × Nat) := []
  owed : List (Nat × BitVec 512) := []
  entries : List Entry := []
  nextEntry : Nat := 1
  notes : List SlotNote := []
  nextStamp : Nat := 1
  residents : List Resident := []
  turn : Tab (Nat × Nat) := []
  colours : List Nat := []
  purging : List (Nat × Nat) := []
  saved : List Nat := []
  refused : Nat := 0
  deriving DecidableEq, Repr, Inhabited

/-! ## Memory, the host die and the package -/

/-- A line of an LLC (15 R242, 24 R372). `valid` and `dirty` hold one bit for each 128-byte sector. -/
structure LlcLine where
  line : Nat
  die : Nat
  way : Nat
  data : Vec
  valid : BitVec 2
  dirty : BitVec 2
  owner : Nat
  deriving DecidableEq, Repr, Inhabited

/-- A translation-cache entry (25 R391): context, page number of 64 KiB, and the leaf it stands for; `span` is the binary
logarithm of the bytes of the entry that it is a part of. -/
structure TlbEntry where
  asid : Nat
  page : Nat
  ipaPage : Nat
  frame : Nat
  span : Nat := 16
  perms : BitVec 8
  mtype : MemType
  fullEmpty : Bool
  deriving DecidableEq, Repr, Inhabited

/-- Who adds to an eyelet: an element's request, a step's instruction, an engine command or a collective command. -/
inductive Adder where
  | element (el : Nat) (r : MemRequest)
  | step (q : SeqId) (place word : Nat)
  | engine (c : ChainId) (place : Nat)
  | collective (lreg place : Nat)
  deriving DecidableEq, Repr, Inhabited

/-- An eyelet addition on its way to its home (16 R252): the tile of a scratch eyelet, the byte or physical address, the
scratch offset or device virtual address, the count, who adds, and whether an invalidation covers it (25 R393, R399). -/
structure EyeletAddition where
  scratchTile : Option Nat := none
  address : Nat
  va : Nat := 0
  n : Nat
  held : Bool := false
  asid : Nat
  colour : Nat
  adder : Adder
  deriving DecidableEq, Repr, Inhabited

/-- A SENDR message on its way (23 R357, R358): it counts its age from the cycle `born`, beyond the age `aged` that it came in
with, `order` is the number of requests that its element had issued before it (20 R320), `die` the quadrant it has come to (12
R191), `link` the welt link it came over, and `buffered` that an inbound buffer holds it (R359). Its source is an element, or
65536 for one from another package, and `sender` the colour of the activation that sent it, with which its source moves (R360). -/
structure Message where
  dest : DWord
  source : Nat
  sender : Nat := 0
  order : Nat := 0
  token : Token
  flits : Nat
  born : Nat
  aged : Nat := 0
  die : Nat := 0
  link : Option Nat := none
  buffered : Bool := false
  deriving DecidableEq, Repr, Inhabited

/-- A fault queue or completion ring (25 R384, R386). -/
structure Ring where
  base : DWord := 0
  log : Nat := 4
  head : Word := 0
  tail : Word := 0
  ovf : Word := 0
  irq : Bool := false
  deriving DecidableEq, Repr, Inhabited

/-- An attestation mailbox (26 R427); `sent` is what the function's DMA path carried to the buffer. -/
structure Mailbox where
  ctl : DWord := 0
  addr : DWord := 0
  len : Word := 0
  out : Word := 0
  nonce : BitVec 512 := 0
  sent : List Byte := []
  deriving DecidableEq, Repr, Inhabited

/-- The host-die registers (26 R425, R426). `withdrawn` lists the memory tiles taken out of service until reset (26 R412),
`tlbWaits` the additions that each TLBINVH waits for (25 R399), `monitorRead` the moment of each droop monitor's last read (25
R402), `fresp` the low half of FRESP where it was written alone, `windowStores` the stores an append window has taken (18
R288), `hostRead` and `hostFault` what the last access of the host gave, and the last five what boot has read and made: the version of the
running firmware and the anti-rollback counter, the keys that sign configurations, the device key, and the measurement log (26
R420 to R422). -/
structure HostDie where
  schdbase : DWord := 0
  stkbase : DWord := 0
  domid : Word := 0
  dropcnt : Word := 0
  csirbase : DWord := 0
  csirlog : Word := 4
  csirovf : Word := 0
  csirnext : Nat := 0
  csircount : Nat := 0
  llcinj : DWord := 0
  llcop : DWord := 0
  rft : List (BitVec 32) := []
  llcq : Tab Word := []
  hbmer : Tab Word := []
  corrections : Tab (List Nat) := []
  bbidx : Nat := 0
  frozen : Bool := false
  blackBox : Tab (BitVec 256) := []
  flashCopy : List (BitVec 256) := []
  flashErasures : Tab Word := []
  drt : Tab (BitVec 16) := []
  rdys : DWord := 0
  rdyt : Tab Word := []
  qmap : Tab (BitVec 16) := []
  xs1 : Tab DWord := []
  xs2 : Tab DWord := []
  queues : Tab Ring := []
  rings : Tab Ring := []
  tlbinvh : Tab DWord := []
  tlbWaits : Tab (List Nat) := []
  mailboxes : Tab Mailbox := []
  windows : Tab (BitVec 512) := []
  lastAppend : Tab (BitVec 2) := []
  ovlcnt : Tab Word := []
  budget : Nat := 2300000
  throttled : Bool := false
  withdrawn : List Nat := []
  monitorRead : Tab Nat := []
  fresp : Tab DWord := []
  windowStores : Tab Nat := []
  hostRead : DWord := 0
  hostFault : Bool := false
  firmware : Nat := 0
  rollback : Nat := 0
  signingKeys : List (BitVec 256) := []
  deviceKey : BitVec 256 := 0
  measurements : List Byte := []
  deriving DecidableEq, Repr, Inhabited

/-- What a welt frame carries. -/
inductive WeltCargo where
  | message (m : WeltMessage)
  | region (m : WeltSend)
  deriving DecidableEq, Repr, Inhabited

/-- A frame that was sent: its link and the cycle (23 R356). -/
structure SentFrame where
  link : Nat
  cycle : Nat
  cargo : WeltCargo
  deriving DecidableEq, Repr, Inhabited

/-- The welt side (23): SENDR messages in the package, of which those in inbound buffers come first, in the order in which they
came to them; the frames sent, of which the last ones of each link are in its replay buffer (R356); for each link the frame that
is being replayed towards the package with its failures, and the failures of the frame that it replays itself. -/
structure Welt where
  messages : List Message := []
  sent : List SentFrame := []
  replays : Tab (WeltFrame × Nat) := []
  resent : Tab Nat := []
  deriving DecidableEq, Repr, Inhabited

/-- Memory and translation (15, 25). `full` lists the words whose presence bit is set (15 R246), `advanced` the eyelets
whose generation has advanced (20 R325). -/
structure MemorySystem where
  mem : Mem := []
  llc : List LlcLine := []
  full : List Nat := []
  deferred : Tab (Nat × MemRequest) := []
  nextDeferred : Nat := 0
  tlb : List TlbEntry := []
  advanced : List Nat := []
  additions : Tab EyeletAddition := []
  nextAddition : Nat := 0
  deriving DecidableEq, Repr, Inhabited

/-- The unit whose instruction the machine executes next (log 1). -/
inductive Focus where
  | none
  | element (el : Nat)
  | sequencer (q : SeqId)
  deriving DecidableEq, Repr, Inhabited

/-- The state of the package. -/
structure State where
  agenda : List Instr := []
  focus : Focus := .none
  tick : Nat := 0
  cycle : Nat := 0
  halted : Bool := false
  upsets : List Upset := []
  elements : Tab Element := []
  tiles : Tab MemTile := []
  circuits : Tab Circuit := []
  nextCircuit : Nat := 0
  activations : Tab Activation := []
  sched : Scheduler := {}
  chains : List Chain := []
  stackOf : Tab (List StackEntry) := []
  links : Tab LinkChain := []
  welt : Welt := {}
  memory : MemorySystem := {}
  host : HostDie := {}
  deriving DecidableEq, Repr, Inhabited

/-- The reasons a step stops with a fault. Every exception that the spec describes is taken instead (a next state). -/
inductive Fault where
  /-- The event cannot occur in this state: its condition does not hold. Raised by the events' meanings when the
  agenda names such an event. Safe: the hardware has no such step. -/
  | notEnabled
  /-- An element instruction or a sequencer instruction was executed while no unit executes code. Raised by every
  instruction's meaning. Safe: the hardware executes instructions only in a block or a step. -/
  | noUnit
  /-- A sequencer word stands in handler code, which the loader refuses (05 R65, R86). Raised by the sequencer
  instructions when an element executes. Safe: such a word never executes. -/
  | sequencerWordInHandler
  /-- An element executes a word that the loader refuses (05 R66, R86). Raised by the fetch. Safe: such a word never
  executes. -/
  | undecodableHandlerWord
  deriving DecidableEq, Repr

/-- The reasons a step has no meaning. -/
inductive Refusal where
  /-- The instruction has no meaning in the model yet. Raised by the arms of Dispatch only. Safe. -/
  | notModelled (mnemonic : String)
  deriving DecidableEq, Repr

/-- The package right after reset (26 R420 and the reset columns; INVENTORY.md lists each field). -/
def State.reset : State := {}

end Sys2Proof.Machine
end

