-- ==== Sys2Proof/Machine/Memory.lean ====
section
/-! DEFINITION. Bytes and fields, the canonical memory list, identifiers and regions, physical memory and the LLC with its errors
(00 R2; 02 R18, R19; 15 R237, R242; 24 R372 to R379; 26 R406 to R409). -/
namespace Sys2Proof.Machine

/-! ## Bytes and fields -/

/-- What an unlisted address of a memory reads as (log 10; 18 R293 for scratch and banks). -/
def Mem.unlisted : Byte := 0

/-- The byte at an address. -/
def Mem.read : Mem → Nat → Byte
  | [], _ => Mem.unlisted
  | (k, b) :: m, a => if k = a then b else Mem.read m a

/-- The memory with one byte set, in the canonical form: addresses rising, unlisted values not listed. -/
def Mem.write : Mem → Nat → Byte → Mem
  | [], a, b => if b = Mem.unlisted then [] else [(a, b)]
  | (k, c) :: m, a, b =>
    if a = k then (if b = Mem.unlisted then m else (a, b) :: m)
    else if a < k then (if b = Mem.unlisted then (k, c) :: m else (a, b) :: (k, c) :: m)
    else (k, c) :: Mem.write m a b

/-- The canonical form: addresses strictly rising, no entry equal to what an unlisted address reads as. -/
def Mem.wf : Mem → Bool
  | [] => true
  | [(_, b)] => b != Mem.unlisted
  | (k, b) :: (k', b') :: m => b != Mem.unlisted && decide (k < k') && Mem.wf ((k', b') :: m)

/-- `n` bytes from an address as a number, little-endian (00 R2). -/
def Mem.readNat (m : Mem) (a : Nat) : Nat → Nat
  | 0 => 0
  | n + 1 => (Mem.read m a).toNat + 256 * Mem.readNat m (a + 1) n

/-- The low `n` bytes of a number stored from an address, little-endian. -/
def Mem.writeNat (m : Mem) (a : Nat) : Nat → Nat → Mem
  | 0, _ => m
  | n + 1, v => Mem.writeNat (Mem.write m a (BitVec.ofNat 8 v)) (a + 1) n (v / 256)

/-- A run of bytes stored from an address. -/
def Mem.writeBytes (m : Mem) (a : Nat) : List Byte → Mem
  | [] => m
  | b :: bs => Mem.writeBytes (Mem.write m a b) (a + 1) bs

/-- The memory without the bytes of a range, which read as unlisted. -/
def Mem.clear (m : Mem) (lo n : Nat) : Mem := m.filter fun c => c.1 < lo || lo + n ≤ c.1

/-- Bits `hi` down to `lo` of a number, as a number. -/
def slice (v hi lo : Nat) : Nat := v / 2 ^ lo % 2 ^ (hi + 1 - lo)

/-- The value sign-extended from `w` bits. -/
def signedOf (w v : Nat) : Int := if v % 2 ^ w < 2 ^ (w - 1) then (v % 2 ^ w : Nat) else (v % 2 ^ w : Nat) - (2 ^ w : Nat)

/-- Byte `i` of a vector. -/
def vecByte (v : Vec) (i : Nat) : Byte := v.extractLsb' (8 * i) 8
/-- Word `i` of a vector. -/
def vecWord (v : Vec) (i : Nat) : Word := v.extractLsb' (32 * i) 32
/-- The low `n` bytes of a vector as a number. -/
def vecNat (v : Vec) (at_ n : Nat) : Nat := v.toNat / 2 ^ (8 * at_) % 2 ^ (8 * n)
/-- The first `n` bytes of a vector. -/
def vecBytes (v : Vec) (n : Nat) : List Byte := leBytes n v.toNat
/-- A vector from the bytes that fill its low end. -/
def natOfBytes : List Byte → Nat
  | [] => 0
  | b :: bs => b.toNat + 256 * natOfBytes bs
def vecOfBytes (bs : List Byte) : Vec := BitVec.ofNat 2048 (natOfBytes bs)
/-- Set the field of `w` bits at `lo` in a number. -/
def setField (v lo w x : Nat) : Nat := v - (v / 2 ^ lo % 2 ^ w) * 2 ^ lo + (x % 2 ^ w) * 2 ^ lo
/-- A 64-byte structure from (byte offset, size in bytes, value) fields. -/
def packFields (fs : List (Nat × Nat × Nat)) : Nat :=
  fs.foldl (fun acc f => setField acc (8 * f.1) (8 * f.2.1) f.2.2) 0
/-- Field of `n` bytes at an offset of a 64-byte structure. -/
def field (v : BitVec 512) (off n : Nat) : Nat := v.toNat / 2 ^ (8 * off) % 2 ^ (8 * n)

/-! ## Identifiers and regions (02 R14 to R19) -/

/-- The tile identifier of die tile (x, y) (02 R17). -/
def tileId (die x y : Nat) : Nat := die * 2 ^ 14 + y * 2 ^ 9 + x * 2 ^ 4
def idDie (id : Nat) : Nat := id / 2 ^ 14 % 4
def idY (id : Nat) : Nat := id / 2 ^ 9 % 32
def idX (id : Nat) : Nat := id / 2 ^ 4 % 32
/-- The tile identifier of an element identifier. -/
def tileOf (id : Nat) : Nat := id / 16 * 16
/-- A compute tile has x + y even (02 R14). -/
def isComputeTile (id : Nat) : Bool := (idX id + idY id) % 2 = 0
/-- An identifier that names something (02 R17). -/
def idNames (id : Nat) : Bool := idX id < 28 && idY id < 28

def Activation.width (a : Activation) : Nat := a.entry.width
def Activation.height (a : Activation) : Nat := a.entry.height
/-- The die tile of region tile (i, j). -/
def Activation.tile (a : Activation) (i j : Nat) : Nat := tileId a.die (a.x0 + i) (a.y0 + j)
def Activation.anchor (a : Activation) : Nat := a.tile 0 0
/-- All tiles of the region in ascending j and then ascending i. -/
def Activation.tiles (a : Activation) : List Nat :=
  (List.range a.height).flatMap fun j => (List.range a.width).map fun i => a.tile i j
def Activation.memTiles (a : Activation) : List Nat := a.tiles.filter fun t => !isComputeTile t
def Activation.computeTiles (a : Activation) : List Nat := a.tiles.filter isComputeTile
/-- The elements of the region. -/
def Activation.elements (a : Activation) : List Nat :=
  a.computeTiles.flatMap fun t => (List.range 16).map (t + ·)
/-- The die identifier of a region-relative identifier, if it lies in the region (13 R207). -/
def Activation.absolute (a : Activation) (rel : Nat) : Option Nat :=
  if idDie rel = 0 ∧ idX rel < a.width ∧ idY rel < a.height then
    some (a.tile (idX rel) (idY rel) + rel % 16) else none
def Activation.holds (a : Activation) (id : Nat) : Bool :=
  idDie id = a.die && a.x0 ≤ idX id && idX id < a.x0 + a.width && a.y0 ≤ idY id && idY id < a.y0 + a.height

/-! ## Access to the parts of the state -/

def State.element (s : State) (e : Nat) : Element := s.elements.getD e {}
def State.putElement (s : State) (e : Nat) (x : Element) : State := { s with elements := s.elements.put e x }
def State.tile (s : State) (t : Nat) : MemTile := s.tiles.getD t {}
def State.putTile (s : State) (t : Nat) (x : MemTile) : State := { s with tiles := s.tiles.put t x }
def State.activation (s : State) (c : Nat) : Option Activation := s.activations.find c
def State.putActivation (s : State) (a : Activation) : State :=
  { s with activations := s.activations.put a.colour a }
/-- Change an activation as it now stands. -/
def State.mapActivation (s : State) (c : Nat) (f : Activation → Activation) : State :=
  match s.activation c with
  | none => s
  | some a => s.putActivation (f a)
def State.mapMemory (s : State) (f : MemorySystem → MemorySystem) : State := { s with memory := f s.memory }
def State.mapHost (s : State) (f : HostDie → HostDie) : State := { s with host := f s.host }
def State.mapSched (s : State) (f : Scheduler → Scheduler) : State := { s with sched := f s.sched }
def Element.ctxOf (x : Element) (c : Nat) : ElementCtx := x.ctxs.getD c {}
def Element.putCtx (x : Element) (c : Nat) (k : ElementCtx) : Element := { x with ctxs := x.ctxs.put c k }
/-- The element of a region an activation runs on: the activation whose region holds a tile. -/
def State.activationAt (s : State) (id : Nat) : Option Activation :=
  (s.activations.find? fun p => p.2.holds id && p.2.phase != .saved && p.2.phase != .stopped).map (·.2)

/-! ## Link regions and readiness (02 R19; 26 R413, R419) -/

/-- The corners of the link regions of a die. -/
def linkCorners : List (Nat × Nat) := [(0, 1), (0, 13), (0, 25), (26, 1), (26, 13), (26, 25)]
/-- The anchor tile of link region lreg mod 6 of die lreg / 6. -/
def linkAnchor (lreg : Nat) : Nat :=
  let c := linkCorners.getD (lreg % 6) (0, 1)
  tileId (lreg / 6) c.1 c.2
/-- The readiness word of a row of tiles (26 R419). -/
def rdytIndex (id : Nat) : Nat := 28 * idDie id + idY id
def State.tileReady (s : State) (id : Nat) : Bool := (s.host.rdyt.getD (rdytIndex id) 0).getLsbD (idX id)
def State.setTileReady (s : State) (id : Nat) (on : Bool) : State :=
  let w := s.host.rdyt.getD (rdytIndex id) 0
  let bit : Word := 1#32 <<< (idX id)
  s.mapHost fun h => { h with rdyt := h.rdyt.put (rdytIndex id) (if on then w ||| bit else w &&& ~~~bit) }
/-- A memory tile is out of service until reset (26 R412). -/
def State.withdrawTile (s : State) (id : Nat) : State :=
  (s.setTileReady id false).mapHost fun h => { h with withdrawn := tileOf id :: h.withdrawn.filter (· ≠ tileOf id) }
/-- The tiles of the link region that holds a tile. -/
def linkTilesAt (id : Nat) : List Nat :=
  linkCorners.flatMap fun c =>
    if c.1 ≤ idX id && idX id < c.1 + 2 && c.2 ≤ idY id && idY id < c.2 + 2 then
      [tileId (idDie id) c.1 c.2, tileId (idDie id) (c.1 + 1) c.2, tileId (idDie id) c.1 (c.2 + 1),
       tileId (idDie id) (c.1 + 1) (c.2 + 1)]
    else []

/-! ## The physical map and the LLC (15 R236, R237, R242; 24 R372 to R379) -/

def isHbm (pa : Nat) : Bool := pa < 0x8000000000
def isLpddr (pa : Nat) : Bool := 0x20000000000 ≤ pa && pa < 0x32000000000
def isCxl (pa : Nat) : Bool := 0x40000000000 ≤ pa && pa < 0x80000000000
/-- An address of one of the ranges of 15 R237. -/
def inMap (pa : Nat) : Bool := isHbm pa || isLpddr pa || isCxl pa
/-- The cache die of an HBM or CXL address: PA[13:12] in both interleaves (15 R237). -/
def cacheDie (pa : Nat) : Nat := pa / 4096 % 4
/-- The HBM stack of an address, PA[13:11]. -/
def hbmStack (pa : Nat) : Nat := pa / 2048 % 8
/-- The set group of an address, PA[19:14] (24 R372). -/
def setGroup (pa : Nat) : Nat := pa / 2 ^ 14 % 64
/-- The frame of an address, PA[47:16]. -/
def frameOf (pa : Nat) : Nat := pa / 65536
def State.retired (s : State) (pa : Nat) : Bool := s.host.rft.any fun f => f.toNat = frameOf pa

/-- Whether the parts an access passes through are ready (26 R419). Which of the two CXL ports serves an address the spec does not say:
the readiness of either lets an access through (DESIGN CHOICE, log 19). -/
def State.tierReady (s : State) (pa : Nat) : Bool :=
  let r := s.host.rdys
  if isLpddr pa then Config.hasLpddr
  else r.getLsbD (11 + cacheDie pa) && (if isHbm pa then r.getLsbD (15 + hbmStack pa) else r.getLsbD 5 || r.getLsbD 6)

def findLine (ls : List LlcLine) (line : Nat) : Option LlcLine := ls.find? fun l => l.line = line
def putLine (ls : List LlcLine) (l : LlcLine) : List LlcLine := l :: ls.filter fun m => m.line ≠ l.line

/-- The byte at a physical address as every path to it finds it: in its LLC line or in memory. -/
def State.physByte (s : State) (pa : Nat) : Byte :=
  match findLine s.memory.llc (pa / 256) with
  | some l => if l.valid.getLsbD (pa / 128 % 2) then vecByte l.data (pa % 256) else s.memory.mem.read pa
  | none => s.memory.mem.read pa

def State.physBytes (s : State) (pa : Nat) : Nat → List Byte
  | 0 => []
  | n + 1 => s.physByte pa :: s.physBytes (pa + 1) n
def State.physNat (s : State) (pa n : Nat) : Nat := natOfBytes (s.physBytes pa n)
def State.phys512 (s : State) (pa : Nat) : BitVec 512 := BitVec.ofNat 512 (s.physNat pa 64)

/-- Write the dirty sectors of a line to memory. -/
def writeBackLine (m : Mem) (l : LlcLine) : Mem :=
  let half (m : Mem) (k : Nat) : Mem :=
    if l.dirty.getLsbD k && l.valid.getLsbD k then m.writeBytes (l.line * 256 + 128 * k) (leBytes 128 (l.data.toNat / 2 ^ (1024 * k))) else m
  half (half m 0) 1

/-- Two lines lie in one set of one cache die: the set within the group of a line is a free value (15 R242; 24 R372; log 11). -/
def sameSet (l m : Nat) : Bool :=
  cacheDie (l * 256) = cacheDie (m * 256) && setGroup (l * 256) = setGroup (m * 256) &&
  Config.llcSet l % 4096 = Config.llcSet m % 4096
/-- The ways of a line's group that are not quarantined (24 R378). -/
def State.openWays (s : State) (line : Nat) : List Nat :=
  let q := (s.host.llcq.getD (64 * cacheDie (line * 256) + setGroup (line * 256)) 0).toNat
  (List.range 16).filter fun w => q / 2 ^ w % 2 = 0
/-- The lines that the set of a line holds. -/
def State.setOf (s : State) (line : Nat) : List LlcLine := s.memory.llc.filter fun l => sameSet l.line line
/-- Every open way of a line's set holds a line. -/
def State.setFilled (s : State) (line : Nat) : Bool :=
  (s.openWays line).length ≤ s.memory.llc.length && (s.openWays line).length ≤ (s.setOf line).length

/-- The way a line is put in: a free choice among the open ways of its set that hold no line (log 11). -/
def State.allocWay (s : State) (line : Nat) : Nat :=
  let free := (s.openWays line).filter fun w => (s.setOf line).all fun l => l.way ≠ w
  free.getD (Config.llcWay line s.tick % free.length) 0

/-- A sector is in the LLC. -/
def State.holdsSector (s : State) (pa : Nat) : Bool :=
  match findLine s.memory.llc (pa / 256) with
  | some l => l.valid.getLsbD (pa / 128 % 2)
  | none => false

/-- The line of an address with its sector filled from memory, in a way of its own if the LLC does not hold it. -/
def State.filled (s : State) (pa : Nat) : LlcLine :=
  let k := pa / 128 % 2
  let l := (findLine s.memory.llc (pa / 256)).getD
    { line := pa / 256, die := cacheDie pa, way := s.allocWay (pa / 256), data := 0, valid := 0, dirty := 0, owner := 0 }
  if l.valid.getLsbD k then l
  else { l with
    valid := l.valid ||| (1 <<< k),
    data := BitVec.ofNat 2048 (setField l.data.toNat (1024 * k) 1024 (s.memory.mem.readNat (pa / 128 * 128) 128)) }

/-- A line with bytes of one of its sectors written by an ASID, which owns it from then on if it was clean (15 R242). -/
def LlcLine.written (l : LlcLine) (asid pa : Nat) (bs : List Byte) : LlcLine := { l with
  owner := if l.dirty = 0 then asid else l.owner,
  dirty := l.dirty ||| (1 <<< (pa / 128 % 2)),
  data := BitVec.ofNat 2048 (setField l.data.toNat (8 * (pa % 256)) (8 * bs.length) (natOfBytes bs)) }

/-! ## What the hardware reads and writes for itself (18 R287; 24 R373 to R377; log 41) -/

/-- How the hardware itself reads a range and writes bytes at a physical address, with ASID 0's tag: descriptors, rings, fault queues
and save areas. What handles an error of the LLC or of the HBM accesses memory so too, and can meet the next error there. -/
structure Hardware where
  read : State → Nat → Nat → State
  write : State → Nat → List Byte → State

/-- Why the hardware cannot reach a place: it is in LPDDR, which only copy and spill engines reach, outside the map or in a part that
is not ready, or its frame is retired (15 R236, R237; 24 R377; 26 R419). -/
def State.hwFault (s : State) (pa : Nat) : Option (BitVec 8) :=
  if !inMap pa || isLpddr pa || !s.tierReady pa then some 0x24
  else if s.retired pa then some 0x26 else none

/-! ## Launch-chain descriptors and counters (18 R287, 17 R278) -/

def State.descAt (s : State) (asid : Nat) : Nat := s.host.schdbase.toNat + 64 * asid
def State.descField (s : State) (asid off n : Nat) : Nat := s.physNat (s.descAt asid + off) n
/-- The fault-queue function of a context: 0 for ASID 0 and the physical function (18 R287, 25 R384). -/
def State.vfOf (s : State) (asid : Nat) : Nat := if asid = 0 then 0 else s.descField asid 0x15 1
def State.chainEnabled (s : State) (asid : Nat) : Bool := s.descField asid 0x16 2 % 2 = 1
def State.preemptible (s : State) (asid : Nat) : Bool := s.descField asid 0x16 2 / 2 % 2 = 1
/-- The hardware writes a field of a descriptor. -/
def State.setDescBy (s : State) (h : Hardware) (asid off n v : Nat) : State := h.write s (s.descAt asid + off) (leBytes n v)
def State.setEnabledBy (s : State) (h : Hardware) (asid : Nat) (on : Bool) : State :=
  s.setDescBy h asid 0x16 2 (s.descField asid 0x16 2 / 2 * 2 + (if on then 1 else 0))

/-- The counter keys a record names: launch, graph, phase and job (17 R276, R278). Levels are 1 to 4 (21 R328). -/
def counterKeys (asid : Nat) (record : BitVec 512) : List (Nat × Nat × Nat × Nat) :=
  let job := field record 0x1E 2
  [(asid, job, 1, field record 0x18 2), (asid, job, 2, field record 0x1A 2), (asid, job, 3, field record 0x1C 2),
   (asid, job, 4, job)]

def counterOf (s : State) (k : Nat × Nat × Nat × Nat) : Nat :=
  ((s.sched.counters.find? fun p => p.1 = k).map (·.2)).getD 0
def setCounter (cs : List ((Nat × Nat × Nat × Nat) × Nat)) (k : Nat × Nat × Nat × Nat) (v : Nat) :
    List ((Nat × Nat × Nat × Nat) × Nat) :=
  (k, v) :: cs.filter fun p => p.1 ≠ k

/-- Raise the four counters of a record by one. -/
def State.raiseCounters (s : State) (asid : Nat) (record : BitVec 512) : State :=
  (counterKeys asid record).foldl
    (fun s k => s.mapSched fun c => { c with counters := setCounter c.counters k (counterOf s k + 1) }) s

/-- The counter that a record's after field names (17 R278). -/
def afterKey (e : Entry) : Nat × Nat × Nat × Nat := (e.asid, field e.record 0x1E 2, 3, field e.record 0x24 2)

/-- The pending records that wait for a counter enter their ready queues once it is zero (17 R278). -/
def wakePending (now : Nat) (k : Nat × Nat × Nat × Nat) (es : List Entry) : List Entry :=
  let wakes (e : Entry) : Bool := e.pending && afterKey e = k
  es.filter (fun e => !wakes e) ++ (es.filter wakes).map fun e => { e with pending := false, since := now }

/-- Lower the four counters of a record by one; a cancel mark clears when its counter reaches zero (18 R298), and what
waits for the counter is ready then. -/
def State.lowerCounters (s : State) (asid : Nat) (record : BitVec 512) : State :=
  (counterKeys asid record).foldl
    (fun s k =>
      let v := counterOf s k - 1
      s.mapSched fun c => { c with
        counters := setCounter c.counters k v,
        entries := if v = 0 then wakePending s.cycle k c.entries else c.entries,
        marks := if v = 0 then c.marks.filter (·.1 ≠ k) else c.marks }) s

/-- The code of a standing cancel mark that names a record (18 R298, 19 R316). -/
def State.marked (s : State) (asid : Nat) (record : BitVec 512) : Option Nat :=
  (counterKeys asid record).findSome? fun k => (s.sched.marks.find? fun m => m.1 = k).map (·.2)

/-! ## The black-box record (26 R416, R417) -/

/-- Append one 32-byte event: time, kind and bytes 9 to 31 as (offset, size, value) fields. -/
def State.blackBox (s : State) (kind : Nat) (fs : List (Nat × Nat × Nat)) : State :=
  if s.host.frozen then s
  else s.mapHost fun h => { h with
    blackBox := h.blackBox.put h.bbidx (BitVec.ofNat 256 (packFields ((0, 8, s.cycle) :: (8, 1, kind) :: fs))),
    bbidx := (h.bbidx + 1) % 4096 }

/-- A fatal error: the event, then the record is frozen and copied to flash and the compute dies stop. -/
def State.fatal (s : State) (cause : Nat) (fs : List (Nat × Nat × Nat)) : State :=
  let s := s.blackBox 0x08 ((9, 1, cause) :: fs)
  let s := s.mapHost fun h => { h with
    frozen := true,
    flashCopy := (List.range 4096).map fun i => h.blackBox.getD ((h.bbidx + i) % 4096) 0 }
  { s with halted := true }

/-! ## Fault records and queues (25 R383, R384) -/

/-- Where a fault was found: the fields of a record that name the unit and its activation. -/
structure FaultSite where
  record : Nat := 0
  unit : Nat := 0
  asid : Nat := 0
  slot : Nat := 0
  colour : Nat := 0
  identifier : Nat := 0
  iteration : Nat := 0
  place : Nat := 0
  word : Nat := 0
  deriving DecidableEq, Repr, Inhabited

/-- The 64 bytes of a fault record (25 R383). -/
def faultRecord (time : Nat) (f : FaultSite) (i : FaultInfo) : Nat :=
  packFields [(0x00, 8, time), (0x08, 8, f.record), (0x10, 1, i.code.toNat), (0x11, 1, f.unit), (0x12, 1, f.asid),
    (0x13, 1, f.slot), (0x14, 2, f.colour), (0x16, 2, f.identifier), (0x18, 6, f.iteration), (0x1E, 1, i.flags.toNat),
    (0x1F, 1, i.detail.toNat), (0x20, 8, i.address.toNat), (0x28, 8, i.address2.toNat), (0x30, 2, f.place),
    (0x32, 2, f.word), (0x34, 4, i.position.toNat), (0x38, 4, i.operand.toNat)]

/-- Where the next record of a fault queue goes. -/
def Ring.slotAt (r : Ring) : Nat := r.base.toNat + 64 * (r.tail.toNat % 2 ^ r.log)

/-- Put a 64-byte record in a ring, or count it where the ring is full or has no base (25 R384); the fault of a slot that cannot be
written (24 R377; 26 R419). Once a fatal error has stopped the dies no record is put (26 R417). -/
def State.enqueueBy (s : State) (h : Hardware) (q : Nat) (rec : Nat) : State × Option FaultInfo :=
  let r := s.host.queues.getD q {}
  if s.halted then (s, none)
  else if r.base = 0 ∨ 2 ^ r.log ≤ (r.tail - r.head).toNat then
    let r' := { r with ovf := if r.ovf = 0xFFFFFFFF then r.ovf else r.ovf + 1 }
    (s.mapHost fun h => { h with queues := h.queues.put q r' }, none)
  else
    let s := s.mapHost fun h => { h with queues := h.queues.put q { r with tail := r.tail + 1, irq := true } }
    let s := h.write s r.slotAt (leBytes 64 rec)
    (s, (s.hwFault r.slotAt).map fun c => { code := c, flags := 8, address := BitVec.ofNat 64 r.slotAt })

/-- Put a record in queue 0, which a fault of its own ring does not reach. -/
def State.enqueueZeroBy (s : State) (h : Hardware) (rec : Nat) : State := (s.enqueueBy h 0 rec).1
/-- Put a record in a queue. A slot of a function's ring that cannot be written is a fault of ASID 0 (DESIGN CHOICE, log 41). -/
def State.recordBy (s : State) (h : Hardware) (q : Nat) (rec : Nat) : State :=
  match s.enqueueBy h q rec with
  | (s, some f) => if q = 0 then s else s.enqueueZeroBy h (faultRecord s.cycle { unit := 4 } f)
  | (s, none) => s

/-- Deliver a fault record to its context's queue; stage-2, poisoned-frame and record faults also to queue 0. -/
def State.deliverBy (s : State) (h : Hardware) (f : FaultSite) (i : FaultInfo) : State :=
  let rec_ := faultRecord s.cycle f i
  let v := s.vfOf f.asid
  let s := s.recordBy h v rec_
  let c := i.code.toNat
  if v ≠ 0 ∧ (0x33 ≤ c ∧ c ≤ 0x35 ∨ c = 0x26 ∨ c = 0x61) then s.recordBy h 0 rec_ else s

/-- The scheduler reads a context's descriptor through the LLC; one that it cannot reach is a fault of the scheduler, which goes on with
the bytes that are there (DESIGN CHOICE, log 41). -/
def State.meetDescBy (s : State) (h : Hardware) (asid : Nat) : State :=
  let at_ := s.descAt asid
  let s := if (s.hwFault at_).isSome then s else h.read s at_ 64
  match s.hwFault at_ with
  | some c => s.deliverBy h { unit := 4, asid := asid } { code := c, address := BitVec.ofNat 64 at_ }
  | none => s

/-! ## Uncorrectable pieces (24 R375 to R379, 26 R409) -/

/-- The aborts that a stopped collective command sends to every other rank of its table (23 R365); where the ranks disagree, they
say so, and go to those too that a disagreeing rank names (22 R346). -/
def abortsOf (c : Collective) : List WeltSend :=
  let rank := field c.block 0x2A 2
  let others := c.ranks.eraseIdx rank
  let told := c.told.dedup.filter fun p => c.ranks[rank]? ≠ some p && !others.contains p
  ((others ++ told).filter (· < 1024)).map fun p =>
    { kind := if c.mismatch then .mismatch else .abort, target := p, job := c.job, collective := field c.block 0x18 2,
      step := 0, slice := 0, chunk := 0, bytes := [], sumA := 0, sumB := 0 }

/-- A package number is the package's own: its entry of the DRT is ignored (23 R355). -/
def State.isOwnPackage (s : State) (package : Nat) : Bool := package = s.host.domid.toNat % 1024
/-- The welt link by which another package is reached: the primary one, or the alternate one while that is not ready (23 R355,
R356). -/
def State.weltLink (s : State) (package : Nat) : Option Nat :=
  let e := (s.host.drt.getD package 0x3FF).toNat
  let up (k : Nat) : Bool := k < 24 && s.host.rdys.getLsbD (23 + k)
  if s.isOwnPackage package ∨ slice e 15 15 = 0 ∨ 24 ≤ slice e 4 0 then none
  else if up (slice e 4 0) then some (slice e 4 0)
  else if up (slice e 9 5) then some (slice e 9 5) else none

/-- A message that is lost is counted (23 R357). -/
def State.dropMessage (s : State) : State :=
  s.mapHost fun h => { h with dropcnt := if h.dropcnt = 0xFFFFFFFF then h.dropcnt else h.dropcnt + 1 }

/-- A frame is sent to another package by its link; one that no working link reaches is discarded and counted (23 R356, R357). What a
rank table that names the package twice addresses to the package itself has no way: it is neither sent nor counted (log 73). -/
def State.sendFrame (s : State) (package : Nat) (c : WeltCargo) : State :=
  if s.isOwnPackage package then s
  else match s.weltLink package with
  | some k => { s with welt := { s.welt with sent := s.welt.sent ++ [{ link := k, cycle := s.cycle, cargo := c }] } }
  | none => s.dropMessage

/-- Send what link regions send. -/
def State.sendWelt (s : State) (l : List WeltSend) : State := l.foldl (fun s m => s.sendFrame m.target (.region m)) s

/-- A link chain without the commands that pass a test; a held fault of its first command goes with it. -/
def LinkChain.without (k : LinkChain) (p : Collective → Bool) : LinkChain :=
  let first := (k.commands.head?.map p).getD false
  { k with commands := k.commands.filter fun c => !p c, held := if first then none else k.held }

/-- An activation is running as far as a cancel goes: from its placement until its release walk has ended (18 R298, R299). -/
def Activation.isLive (a : Activation) : Bool := a.phase ≠ .walked && a.phase ≠ .stopped
/-- The activation is on its region: it is neither saved nor past its end. -/
def Activation.isPlaced (a : Activation) : Bool := a.isLive && a.phase ≠ .saved

/-- The records and activations of a context are dropped or marked to stop, and its chain is disabled (24 R376, 18 R298);
the collective commands of what stops abort their peers. What was appended and not fetched yet is dropped with the rest. -/
def State.terminateContextBy (s : State) (h : Hardware) (asid : Nat) : State :=
  let s := (s.meetDescBy h asid).setEnabledBy h asid false
  let mine := s.sched.entries.filter fun e => e.asid = asid && e.resumes = none
  let s := (mine.map (·.record) ++ (s.sched.notes.filter fun n => n.asid = asid).map (·.record)).foldl
    (fun s r => s.lowerCounters asid r) s
  let s := s.setDescBy h asid 0x0C 4 (s.descField asid 0x10 4)
  let s := s.mapSched fun c => { c with
    entries := c.entries.filter fun e => !(e.asid = asid && e.resumes = none),
    notes := c.notes.filter fun n => n.asid ≠ asid }
  { s with
    activations := s.activations.map fun p =>
      if p.2.entry.asid = asid && p.2.isLive then (p.1, { p.2 with cancelled := true, restarts := false, code := 0x65 }) else p }

/-- Enter a frame in the retired-frame table (24 R377); the index, or none when the table is full. A frame has one entry. -/
def State.retire (s : State) (pa : Nat) : State × Option Nat :=
  match s.host.rft.findIdx? fun f => f.toNat = frameOf pa with
  | some i => (s, some i)
  | none =>
    if s.host.rft.length < 1024 then
      (s.mapHost fun h => { h with rft := h.rft ++ [BitVec.ofNat 32 (frameOf pa)] }, some s.host.rft.length)
    else (s, none)

/-- The 32-byte memory-error record in the black box and the fault queues (24 R379, 26 R416). -/
def State.memoryErrorBy (s : State) (h : Hardware) (line kind owner die way pieces : Nat) (retired : Option Nat) : State :=
  let vf := if kind = 2 ∨ kind = 4 then 0 else s.vfOf owner
  let idx := retired.getD 0xFFFFFFFF
  let tail := packFields [(0, 1, kind), (1, 1, owner), (2, 1, die), (3, 1, setGroup (line * 256)), (4, 1, way),
    (5, 1, pieces), (6, 2, vf)]
  let s := s.blackBox 0x04 [(9, 3, idx), (16, 8, line * 256), (24, 8, tail)]
  let r := faultRecord s.cycle { unit := 7, asid := owner, identifier := die * 2 ^ 14 }
    { code := 0x29, detail := BitVec.ofNat 8 kind, address := BitVec.ofNat 64 (line * 256),
      address2 := BitVec.ofNat 64 tail, position := BitVec.ofNat 32 idx }
  let s := s.recordBy h 0 r
  if vf ≠ 0 then s.recordBy h vf r else s

/-- Enter a symbol position in an erasure map, at the entry whose bits begin at `lo`: the event, and the copy that firmware
makes in flash (26 R407, R408). -/
def State.enterErasure (s : State) (reg lo pos : Nat) : State :=
  let enter (w : Word) : Word := BitVec.ofNat 32 (setField w.toNat lo 8 (128 + pos % 64))
  (s.mapHost fun h => { h with
    hbmer := h.hbmer.put reg (enter (h.hbmer.getD reg 0)),
    flashErasures := h.flashErasures.put reg (enter (h.flashErasures.getD reg 0)) }).blackBox
    0x03 [(9, 1, reg / 256), (10, 1, reg / 64 % 4), (11, 1, reg % 64), (12, 1, pos)]

/-- A piece that the HBM cannot give: its frame is retired, or the error is fatal (26 R409). -/
def State.hbmUncorrectableBy (s : State) (h : Hardware) (pa : Nat) : State :=
  let piece := 2 ^ (pa / 32 % 8)
  let r := s.retire pa
  match r.2 with
  | some i => r.1.memoryErrorBy h (pa / 256) 4 0 (cacheDie pa) 0xFF piece (some i)
  | none =>
    let s := s.memoryErrorBy h (pa / 256) 3 0 (cacheDie pa) 0xFF piece none
    s.fatal 2 [(16, 8, pa / 256 * 256), (24, 8, packFields [(0, 1, 3), (2, 1, cacheDie pa),
      (3, 1, setGroup pa), (4, 1, 0xFF), (5, 1, piece)])]

/-- An erasure map decodes a symbol position as an erasure (26 R407). -/
def erased (e pos : Nat) : Bool :=
  (slice e 7 7 = 1 && slice e 5 0 = pos) || (slice e 15 15 = 1 && slice e 13 8 = pos)
/-- A symbol of a piece that the HBM corrects: when one position is corrected in 16 reads with at most 2^30 cycles from the
first to the sixteenth, it enters a free entry of the erasure map, once (26 R407). -/
def State.hbmCorrected (s : State) (pa pos : Nat) : State :=
  let reg := 256 * hbmStack pa + pa / 2 ^ 20 % 256
  let key := 64 * reg + pos
  let times := ((s.host.corrections.getD key []) ++ [s.cycle]).reverse.take 16 |>.reverse
  let e := (s.host.hbmer.getD reg 0).toNat
  let s := s.mapHost fun h => { h with corrections := h.corrections.put key times }
  if times.length < 16 || s.cycle - times.headD 0 > 2 ^ 30 || erased e pos then s
  else if e / 2 ^ 7 % 2 = 0 then s.enterErasure reg 0 pos
  else if e / 2 ^ 15 % 2 = 0 then s.enterErasure reg 8 pos
  else s

/-! ## The code of a 32-byte piece (26 R406) -/

/-- The symbol positions, of 36, at which a difference of symbols is not zero. -/
def wrongSymbols (v : BitVec 288) : List Nat := (List.range 36).filter fun i => v.extractLsb' (8 * i) 8 ≠ 0
/-- Errors at e positions that are not erased beside f erased ones lie in the bound of the code: 2e + f ≤ 4. -/
def inBound (errors : BitVec 288) (erased : List Nat) : Bool :=
  2 * ((wrongSymbols errors).filter fun i => !erased.contains i).length + erased.length ≤ 4

/-- What a decoder makes of a piece. -/
inductive Decoded where
  | corrected (positions : List Nat)
  | uncorrectable
  | miscorrected (piece : BitVec 256) (positions : List Nat)
  deriving DecidableEq, Repr, Inhabited

/-- Decode a piece of some data whose symbols have errors: a bounded-distance decoder corrects what lies in its bound, and takes what
lies in the bound of another codeword, five symbols or more away, for that. -/
def decodeSymbols (data : BitVec 256) (errors : BitVec 288) (erased : List Nat) : Decoded :=
  if inBound errors erased then .corrected (wrongSymbols errors)
  else
    let d := Config.neighbour data errors erased
    if 5 ≤ (wrongSymbols d).length && inBound (d ^^^ errors) erased then
      .miscorrected (data ^^^ d.setWidth 256) (wrongSymbols (d ^^^ errors))
    else .uncorrectable

/-- The erasure-map register of an HBM address, and the positions that it decodes as erasures (15 R237; 26 R407). -/
def erasureReg (pa : Nat) : Nat := 256 * hbmStack pa + pa / 2 ^ 20 % 256
def erasedBy (w : Word) : List Nat :=
  ((if w.getLsbD 7 then [slice w.toNat 5 0] else []) ++ (if w.getLsbD 15 then [slice w.toNat 13 8] else [])).dedup

/-- The errors that the symbols of a piece of HBM have. -/
def State.hbmErrors (s : State) (piece : Nat) : BitVec 288 :=
  s.upsets.foldl (fun e u => match u with
    | .hbm p x => if p = piece then e ^^^ x else e
    | _ => e) 0

/-- A fill reads one 32-byte piece from memory and meets its errors (26 R406, R407, R409). The symbols that a decoder corrects count
alike where it takes the piece for another codeword. -/
def State.meetHbmBy (s : State) (h : Hardware) (pa : Nat) : State :=
  let piece := pa / 32
  let errors := s.hbmErrors piece
  let s := { s with upsets := s.upsets.filter fun u => match u with
    | .hbm p _ => p ≠ piece
    | _ => true }
  if !isHbm pa || errors = 0 then s
  else
    let data := BitVec.ofNat 256 (s.memory.mem.readNat (piece * 32) 32)
    match decodeSymbols data errors (erasedBy (s.host.hbmer.getD (erasureReg pa) 0)) with
    | .uncorrectable => s.hbmUncorrectableBy h pa
    | .miscorrected v ps =>
      ps.foldl (fun s pos => s.hbmCorrected pa pos) (s.mapMemory fun m => { m with mem := m.mem.writeNat (piece * 32) 32 v.toNat })
    | .corrected ps => ps.foldl (fun s pos => s.hbmCorrected pa pos) s

/-- The pieces of the sector of an address. -/
def sectorPieceAddrs (pa : Nat) : List Nat := (List.range 4).map fun i => pa / 128 * 128 + 32 * i
/-- The pieces of a line's sectors that pass a test. -/
def linePieces (line : Nat) (p : Nat → Bool) : List Nat :=
  ((List.range 8).filter fun i => p (i / 4)).map fun i => line * 256 + 32 * i

/-- Read a sector from memory into the line that the LLC holds of it, or into a way that is free: every piece meets its
errors, and a frame that they retire is not filled (26 R409). -/
def State.fetchSectorBy (s : State) (h : Hardware) (pa : Nat) : State :=
  let s := (sectorPieceAddrs pa).foldl (fun s p => s.meetHbmBy h p) s
  if s.retired pa || s.halted then s else s.mapMemory fun m => { m with llc := putLine m.llc (s.filled pa) }

/-- An armed injection stands at a piece (24 R373). -/
def State.armedAt (s : State) (piece : Nat) : Bool :=
  s.host.llcinj.toNat / 2 ^ 63 = 1 && slice s.host.llcinj.toNat 47 5 = piece
/-- What the decoder makes of the errors of a piece of the LLC that holds it (26 R406). -/
def State.decodeLlc (s : State) (piece : Nat) : Decoded :=
  let errors := s.upsets.foldl (fun (e : BitVec 288) u => match u with
    | .llc p x => if p = piece then e ^^^ x else e
    | _ => e) 0
  if errors = 0 then .corrected []
  else match findLine s.memory.llc (piece / 8) with
    | some l => decodeSymbols (l.data.extractLsb' (256 * (piece % 8)) 256) errors []
    | none => .corrected []
/-- The decoder will report a piece of the LLC as uncorrectable (24 R373; 26 R406). -/
def State.badPiece (s : State) (piece : Nat) : Bool :=
  (s.armedAt piece && s.host.llcinj.getLsbD 62) || s.decodeLlc piece = .uncorrectable
/-- The decoder reads a piece of an LLC data array: a pending injection and the errors of the piece are met (24 R373; 26
R406). -/
def State.decodePiece (s : State) (pa : Nat) : State :=
  let piece := pa / 32
  let found := s.decodeLlc piece
  let s := if s.armedAt piece then s.mapHost fun h => { h with llcinj := BitVec.ofNat 64 (h.llcinj.toNat % 2 ^ 63) } else s
  let s := { s with upsets := s.upsets.filter fun u => match u with
    | .llc p _ => p ≠ piece
    | _ => true }
  match found, findLine s.memory.llc (pa / 256) with
  | .miscorrected v _, some l => s.mapMemory fun m => { m with llc := putLine m.llc { l with
      data := BitVec.ofNat 2048 (setField l.data.toNat (256 * (piece % 8)) 256 v.toNat) } }
  | _, _ => s

/-- Write the dirty sectors of a line to memory and drop the line. -/
def State.dropLine (s : State) (line : Nat) : State :=
  match findLine s.memory.llc line with
  | none => s
  | some l => s.mapMemory fun m => { m with mem := writeBackLine m.mem l, llc := m.llc.filter fun x => x.line ≠ line }

/-- Whether a quarantine of a way covers a line. -/
def LlcLine.inWay (l : LlcLine) (die group way : Nat) : Bool := l.die = die && l.way = way && setGroup (l.line * 256) = group

/-- Quarantine a way of a set group: set its bit, and write back and invalidate the lines it holds there, each read through
the decoder (24 R378). A line with an uncorrectable piece stays for the caller, whose first error is not finished yet (R375). -/
def State.quarantineWay (s : State) (die group way : Nat) : State :=
  let s := s.mapHost fun h => { h with
    llcq := h.llcq.put (64 * die + group) (h.llcq.getD (64 * die + group) 0 ||| BitVec.ofNat 32 (2 ^ way)) }
  (s.memory.llc.filter fun l => l.inWay die group way).foldl (fun s l =>
    let ps := if l.dirty = 0 then [] else linePieces l.line l.valid.getLsbD
    if ps.any fun p => s.badPiece (p / 32) then s
    else (ps.foldl (fun s p => s.decodePiece p) s).dropLine l.line) s

/-- What a cache die does with an uncorrectable piece of a line it holds (24 R375). The errors that the quarantine's write-backs
find are handled after this one. -/
def State.uncorrectableBy (h : Hardware) : Nat → State → LlcLine → Nat → State
  | 0, s, _, _ => s
  | fuel + 1, s, l, pa =>
    let k := pa / 128 % 2
    let pieces := 2 ^ (pa / 32 % 8)
    if l.dirty.getLsbD k = false then
      let s := s.mapMemory fun m => { m with llc := putLine m.llc { l with valid := l.valid &&& ~~~((1 : BitVec 2) <<< k) } }
      (s.memoryErrorBy h l.line 2 0 l.die l.way pieces none).fetchSectorBy h pa
    else
      let g := setGroup pa
      let q := (s.host.llcq.getD (64 * l.die + g) 0).toNat ||| 2 ^ l.way
      if l.owner = 0 ∨ 1024 ≤ s.host.rft.length ∨ q = 0xFFFF then
        let s := s.memoryErrorBy h l.line 3 l.owner l.die l.way pieces none
        s.fatal 1 [(16, 8, l.line * 256), (24, 8, packFields [(0, 1, 3), (1, 1, l.owner), (2, 1, l.die), (3, 1, g),
          (4, 1, l.way), (5, 1, pieces), (6, 2, s.vfOf l.owner)])]
      else
        let s := s.mapMemory fun m => { m with llc := m.llc.filter fun x => x.line ≠ l.line }
        let s := s.terminateContextBy h l.owner
        let r := s.retire pa
        let s := (r.1.quarantineWay l.die g l.way).memoryErrorBy h l.line 1 l.owner l.die l.way pieces r.2
        (s.memory.llc.filter fun x => x.inWay l.die g l.way).foldl (fun s x =>
          ((linePieces x.line x.valid.getLsbD).foldl (fun s p => match findLine s.memory.llc x.line with
            | none => s
            | some y =>
              if s.halted || !y.valid.getLsbD (p / 128 % 2) then s
              else if s.badPiece (p / 32) then uncorrectableBy h fuel (s.decodePiece p) y p
              else s.decodePiece p) s).dropLine x.line) s

/-- A read of a piece from the LLC data array that holds it (24 R373, R375). -/
def State.meetPieceBy (s : State) (h : Hardware) (pa : Nat) : State :=
  match findLine s.memory.llc (pa / 256) with
  | none => s
  | some _ =>
    if s.halted || !s.holdsSector pa then s
    else
      let bad := s.badPiece (pa / 32)
      let s := s.decodePiece pa
      match bad, findLine s.memory.llc (pa / 256) with
      | true, some l => uncorrectableBy h (s.upsets.length + 2) s l pa
      | _, _ => s

/-- Write back the dirty sectors of a line, all of whose pieces the decoder reads (24 R373 to R375); the line stays. -/
def State.writeBackBy (s : State) (h : Hardware) (line : Nat) : State :=
  match findLine s.memory.llc line with
  | none => s
  | some l =>
    if l.dirty = 0 then s
    else
      let s := (linePieces line l.valid.getLsbD).foldl (fun s p => s.meetPieceBy h p) s
      match findLine s.memory.llc line with
      | none => s
      | some l =>
        if s.halted then s
        else s.mapMemory fun m => { m with mem := writeBackLine m.mem l, llc := putLine m.llc { l with dirty := 0 } }

/-- Make room in the set of a line: a free choice of the lines it holds is written back and dropped (15 R242; log 11). An error
that the write-back finds can quarantine a way, so that another line goes too. -/
def State.makeRoomBy (h : Hardware) : Nat → State → Nat → State
  | 0, s, _ => s
  | fuel + 1, s, line =>
    if s.halted || (findLine s.memory.llc line).isSome || !s.setFilled line then s
    else
      let ls := s.setOf line
      match ls[Config.llcVictim line s.tick % ls.length]? with
      | none => s
      | some v => makeRoomBy h fuel ((s.writeBackBy h v.line).dropLine v.line) line

/-- The sector of an address is brought into the LLC unless it is there; a retired frame is not filled. -/
def State.ensureBy (s : State) (h : Hardware) (pa : Nat) : State :=
  if isLpddr pa || s.holdsSector pa || s.retired pa || s.halted then s
  else
    let s := makeRoomBy h 17 s (pa / 256)
    if s.retired pa || s.halted then s else s.fetchSectorBy h pa

/-- The pieces of a range that lie in one sector each: offset within the range, address and length. -/
def sectorPieces (pa n : Nat) : List (Nat × Nat × Nat) :=
  (List.range ((pa + n + 127) / 128 - pa / 128)).map fun i =>
    let lo := max pa (pa / 128 * 128 + 128 * i)
    let hi := min (pa + n) (pa / 128 * 128 + 128 * (i + 1))
    (lo - pa, lo, hi - lo)

/-- A read of a range of one sector: a hit reads its pieces from the data array, a miss fills the sector. -/
def State.readSectorBy (s : State) (h : Hardware) (pa n : Nat) : State :=
  if isLpddr pa then s
  else if s.holdsSector pa then
    (List.range ((pa + n + 31) / 32 - pa / 32)).foldl (fun s i => s.meetPieceBy h (pa / 32 * 32 + 32 * i)) s
  else s.ensureBy h pa
/-- A read of a range. -/
def State.meetRangeBy (s : State) (h : Hardware) (pa n : Nat) : State :=
  (sectorPieces pa n).foldl (fun s p => s.readSectorBy h p.2.1 p.2.2) s

/-- The LLC is readied for a write to a sector by a writer's ASID: the sector is filled, and a dirty line of another owner is written
back first (15 R242). -/
def State.settleBy (s : State) (h : Hardware) (asid pa : Nat) : State :=
  let s := s.ensureBy h pa
  match findLine s.memory.llc (pa / 256) with
  | some l => if l.dirty ≠ 0 ∧ l.owner ≠ asid then (s.writeBackBy h (pa / 256)).ensureBy h pa else s
  | none => s

/-- A write of bytes of one sector at the LLC by a writer's ASID. A retired frame takes no byte (24 R377). -/
def State.writeSectorBy (s : State) (h : Hardware) (asid pa : Nat) (bs : List Byte) : State :=
  if s.retired pa || s.halted then s
  else if isLpddr pa then s.mapMemory fun m => { m with mem := m.mem.writeBytes pa bs }
  else
    let s := s.settleBy h asid pa
    match findLine s.memory.llc (pa / 256) with
    | some l =>
      if s.retired pa || s.halted then s else s.mapMemory fun m => { m with llc := putLine m.llc (l.written asid pa bs) }
    | none => s

/-- A write of a party at the LLC. -/
def State.llcPutBy (s : State) (h : Hardware) (asid pa : Nat) (bs : List Byte) : State :=
  (sectorPieces pa bs.length).foldl (fun s p => s.writeSectorBy h asid p.2.1 ((bs.drop p.1).take p.2.2)) s

/-! ## The accesses themselves -/

/-- The hardware's accesses while `n` errors of the data arrays can still be met: what handles one of them accesses memory with one
error less to meet, and with none left nothing is handled. -/
def hardwareAt : Nat → Hardware
  | 0 => { read := fun s _ _ => s, write := fun s _ _ => s }
  | n + 1 =>
    { read := fun s pa k => s.meetRangeBy (hardwareAt n) pa k,
      write := fun s pa bs => if (s.hwFault pa).isSome then s else s.llcPutBy (hardwareAt n) 0 pa bs }
/-- The hardware's accesses where the errors that are left are the symbol errors of the state and one injection. -/
def State.hardware (s : State) : Hardware := hardwareAt (s.upsets.length + 2)

def State.meetPiece (s : State) (pa : Nat) : State := s.meetPieceBy s.hardware pa
def State.writeBack (s : State) (line : Nat) : State := s.writeBackBy s.hardware line
def State.ensure (s : State) (pa : Nat) : State := s.ensureBy s.hardware pa
def State.readSector (s : State) (pa n : Nat) : State := s.readSectorBy s.hardware pa n
def State.meetRange (s : State) (pa n : Nat) : State := s.meetRangeBy s.hardware pa n
/-- The LLC is readied for a write to a range, whose errors are met. -/
def State.settle (s : State) (asid pa n : Nat) : State :=
  (sectorPieces pa n).foldl (fun s p =>
    if isLpddr p.2.1 || s.retired p.2.1 || s.halted then s else s.settleBy s.hardware asid p.2.1) s
def State.writeSector (s : State) (asid pa : Nat) (bs : List Byte) : State := s.writeSectorBy s.hardware asid pa bs
def State.llcPut (s : State) (asid pa : Nat) (bs : List Byte) : State := s.llcPutBy s.hardware asid pa bs
/-- A read of `n` bytes through the LLC: the errors met, the sectors filled, and the bytes; none from a retired frame. -/
def State.llcRead (s : State) (pa n : Nat) : State × Option (List Byte) :=
  if s.retired pa then (s, none)
  else
    let s := s.meetRange pa n
    if s.retired pa || s.halted then (s, none) else (s, some (s.physBytes pa n))

def State.deliver (s : State) (f : FaultSite) (i : FaultInfo) : State := s.deliverBy s.hardware f i
def State.terminateContext (s : State) (asid : Nat) : State := s.terminateContextBy s.hardware asid
def State.meetDesc (s : State) (asid : Nat) : State := s.meetDescBy s.hardware asid
/-- Bytes that the hardware writes for itself. -/
def State.hwWrite (s : State) (pa : Nat) (bs : List Byte) : State := s.hardware.write s pa bs
/-- The scheduler writes a field of a descriptor. -/
def State.putDesc (s : State) (asid off n v : Nat) : State := s.setDescBy s.hardware asid off n v
def State.setEnabled (s : State) (asid : Nat) (on : Bool) : State := s.setEnabledBy s.hardware asid on
/-- Bytes that the hardware writes to a ring for a unit and a context; a place that cannot be written is their fault (24 R377; 26
R419). -/
def State.hwPut (s : State) (f : FaultSite) (pa : Nat) (bs : List Byte) : State :=
  let s := s.hwWrite pa bs
  match s.hwFault pa with
  | some c => s.deliver f { code := c, flags := 8, address := BitVec.ofNat 64 pa }
  | none => s

end Sys2Proof.Machine
end

