-- ==== Sys2Proof/Machine/Translate.lean ====
section
/-! DEFINITION. Two-stage translation (25 R387 to R391), region records (19 R303, R304), scratch addresses (15 R240)
and the tile caches (15 R239; 19 R305 to R307). -/
namespace Sys2Proof.Machine

/-- What an access asks of a page (25 R390). -/
inductive Need where
  | read | write | atomic | config
  deriving DecidableEq, Repr, Inhabited

/-- Where a translation leads: the physical address, the memory type and the full-empty attribute; `span` is the binary
logarithm of the smaller of its two leaves. -/
structure Leaf where
  pa : Nat
  mtype : MemType
  fullEmpty : Bool
  perms : Nat := 7
  ipa : Nat := 0
  span : Nat := 16
  deriving DecidableEq, Repr, Inhabited

/-- What an access that a step stages keeps of its translation (25 R392). -/
def Leaf.home (l : Leaf) : Home := { pa := l.pa, mtype := l.mtype, fullEmpty := l.fullEmpty }

/-- Which stage a fault is of: its not-present, permission and format codes (25 R381). -/
def stageCode (stage2 : Bool) (k : Nat) : BitVec 8 := if stage2 then BitVec.ofNat 8 (0x33 + k) else BitVec.ofNat 8 (0x30 + k)
/-- A translation fault: `k` is 0 not-present, 1 permission, 2 format. -/
def xlFault (stage2 : Bool) (k : Nat) (addr : Nat) : FaultInfo :=
  { code := stageCode stage2 k, address := BitVec.ofNat 64 addr }

/-- The low bit of the address field that level `l` indexes by, and the entries of its table (25 R388). -/
def levelShift (l : Nat) : Nat := if l = 0 then 39 else if l = 1 then 30 else if l = 2 then 21 else 16
def levelEntries (l : Nat) : Nat := if l = 3 then 32 else 512
/-- The alignment of the table that a table entry of level `l` names. -/
def tableAlign (l : Nat) : Nat := if l = 2 then 256 else 4096

/-- What a valid entry of level `l` is: a table, a leaf, or badly formed (25 R389). -/
inductive EntryKind where
  | notPresent | badFormat | table (addr : Nat) | leaf (addr : Nat)
  deriving DecidableEq, Repr, Inhabited

def entryKind (stage2 : Bool) (l e : Nat) : EntryKind :=
  if e % 2 = 0 then .notPresent
  else if e / 2 ^ 48 ≠ 0 then .badFormat
  else
    let addr := slice e 47 8 * 256
    if e / 2 % 2 = 0 then
      if l = 3 ∨ slice e 7 2 ≠ 0 ∨ addr % tableAlign l ≠ 0 then .badFormat else .table addr
    else if l = 0 ∨ slice e 6 5 = 3 ∨ (stage2 ∧ e / 2 ^ 7 % 2 = 1) ∨ addr % 2 ^ levelShift l ≠ 0 then .badFormat
    else .leaf addr

/-- Whether an entry's R, W and C bits allow a need (25 R390). -/
def permits (n : Need) (e : Nat) : Bool :=
  match n with
  | .read => e / 4 % 2 = 1
  | .write => e / 8 % 2 = 1
  | .atomic => e / 4 % 2 = 1 && e / 8 % 2 = 1
  | .config => e / 16 % 2 = 1

def mtypeOf (e : Nat) : Nat := slice e 6 5
/-- The stronger of two memory types: device, streaming, cached (25 R390). -/
def strongerType (x y : Nat) : MemType :=
  match max x y with
  | 0 => .cached
  | 1 => .streaming
  | _ => .device
/-- The R, W and C bits of an entry as bits 0 to 2. -/
def permBits (e : Nat) : Nat := slice e 4 2

/-- What a walk comes to, beside the physical addresses of the entries that it reads on the way. -/
abbrev Walked (α : Type) := List Nat × Except FaultInfo α

/-- A walk of the remaining levels of one stage; `rd` reads an entry, or gives the fault of reading it. The result is
the leaf entry and its level. -/
def walk (stage2 : Bool) (addr : Nat) (rd : Nat → Walked Nat) : Nat → Nat → Nat → Walked (Nat × Nat)
  | 0, _, _ => ([], .error (xlFault stage2 2 addr))
  | fuel + 1, l, table =>
    match rd (table + 8 * (addr / 2 ^ levelShift l % levelEntries l)) with
    | (r, .error f) => (r, .error f)
    | (r, .ok e) => match entryKind stage2 l e with
      | .notPresent => (r, .error (xlFault stage2 0 addr))
      | .badFormat => (r, .error (xlFault stage2 2 addr))
      | .table t =>
        let w := walk stage2 addr rd fuel (l + 1) t
        (r ++ w.1, w.2)
      | .leaf _ => (r, .ok (e, l))

/-- A walk's read of an entry at the LLC, which fills its sector; one in LPDDR or in a part that is not ready gives a tier-access
fault, and one of a retired frame, or that retires its frame, a poisoned-frame fault (15 R236; 24 R375, R377; 25 R390; 26 R409,
R419). -/
def State.readEntry (s : State) (f : FaultInfo) (pa : Nat) : Walked Nat :=
  match s.hwFault pa with
  | some c => ([], .error { f with code := c })
  | none =>
    let t := s.readSector pa 8
    ([pa], if t.retired pa || t.halted then .error f else .ok (t.physNat pa 8))

/-- The permission that a need asks of an entry; a walk without a need asks none. -/
def permitsAny (n : Option Need) (e : Nat) : Bool := n.all (permits · e)

/-- Stage 2 of a function: the physical address, the leaf entry and the logarithm of its size (25 R387 to R390). -/
def stage2 (s : State) (v ipa : Nat) (n : Option Need) : Walked (Nat × Nat × Nat) :=
  let x := (s.host.xs2.getD v 0).toNat
  if x % 2 = 0 then ([], .error (xlFault true 0 ipa))
  else if v = 0 ∧ x / 2 % 2 = 1 then
    ([], if inMap ipa then .ok (ipa, 0x1C, 48) else .error (xlFault true 2 ipa))
  else
    match walk true ipa (s.readEntry { code := 0x26, address := BitVec.ofNat 64 ipa }) 4 0 (slice x 47 12 * 4096) with
    | (r, .error f) => (r, .error f)
    | (r, .ok (e, l)) =>
      let pa := slice e 47 8 * 256 + ipa % 2 ^ levelShift l
      (r, if permitsAny n e = false then .error (xlFault true 1 ipa)
        else if inMap pa then .ok (pa, e, levelShift l) else .error (xlFault true 2 ipa))

/-- A read of a stage-1 entry at its IPA, which stage 2 translates. -/
def State.readStage1 (s : State) (v va ipa : Nat) : Walked Nat :=
  match stage2 s v ipa (some .read) with
  | (r, .error f) => (r, .error { f with flags := f.flags ||| 2, address2 := BitVec.ofNat 64 va })
  | (r, .ok (pa, _)) =>
    let w := s.readEntry { code := 0x26, flags := 2, address := BitVec.ofNat 64 ipa, address2 := BitVec.ofNat 64 va } pa
    (r ++ w.1, w.2)

/-- Both stages of a context (25 R387 to R390). -/
def walkBoth (s : State) (asid va : Nat) (n : Option Need) : Walked Leaf :=
  if 2 ^ 48 ≤ va then ([], .error (xlFault false 2 va))
  else
    let x := (s.host.xs1.getD asid 0).toNat
    if x % 2 = 0 then ([], .error (xlFault false 0 va))
    else
      let v := s.vfOf asid
      match walk false va (s.readStage1 v va) 4 0 (slice x 47 12 * 4096) with
      | (r, .error f) => (r, .error f)
      | (r, .ok (e, l)) =>
        if permitsAny n e = false then (r, .error (xlFault false 1 va))
        else
          let ipa := slice e 47 8 * 256 + va % 2 ^ levelShift l
          match stage2 s v ipa n with
          | (r', .error f) => (r ++ r', .error f)
          | (r', .ok (pa, e2, span)) => (r ++ r', .ok
            { pa := pa, mtype := strongerType (mtypeOf e) (mtypeOf e2), fullEmpty := e / 2 ^ 7 % 2 = 1,
              perms := permBits e &&& permBits e2, ipa := ipa, span := min (levelShift l) span })

/-- Whether cached R, W, C bits allow a need. -/
def permsAllow (n : Need) (p : Nat) : Bool := permits n (p * 4)

/-- What a translation-cache entry gives at an address of its page. -/
def TlbEntry.leaf (t : TlbEntry) (va : Nat) : Leaf :=
  { pa := t.frame * 65536 + va % 65536, mtype := t.mtype, fullEmpty := t.fullEmpty, perms := t.perms.toNat,
    ipa := t.ipaPage * 65536 + va % 65536, span := t.span }

/-- Both stages; where the translation cache holds an entry that a walk would no longer give, a free choice says whether the
entry is used (25 R391, log 12). A fault names the entries that its walk has read. -/
def translate (s : State) (asid va : Nat) (n : Need) : Except FaultInfo Leaf :=
  let w := walkBoth s asid va (some n)
  let walked := match w.2 with
    | .ok l => .ok l
    | .error f => .error { f with walk := w.1 }
  match s.memory.tlb.find? fun t => t.asid = asid && t.page = va / 65536 && permsAllow n t.perms.toNat with
  | some t =>
    if walked = .ok (t.leaf va) then walked
    else if Config.usesCached s.tick then .ok (t.leaf va)
    else walked
  | none => walked

/-- The physical addresses of the entries that the walks of an address read. -/
def State.entriesRead (s : State) (asid va : Nat) : List Nat := (walkBoth s asid va none).1
/-- The entries that were read for a translation: none where the translation cache gave it. -/
def State.entriesFor (s : State) (asid va : Nat) (l : Leaf) : List Nat :=
  if s.memory.tlb.any fun u => u.asid = asid && u.page = va / 65536 && u.leaf va = l then [] else s.entriesRead asid va

/-- A walk reads entries: their sectors are filled and their errors are met (24 R373, R375; 26 R409). -/
def State.meetEntries (s : State) (l : List Nat) : State := l.foldl (fun s pa => if s.retired pa then s else s.readSector pa 8) s
/-- The walks of an address read their entries. -/
def State.meetWalk (s : State) (asid va : Nat) : State := s.meetEntries (s.entriesRead asid va)

/-- Deliver a fault record, once the entries that the walk of its translation read are met. -/
def State.report (s : State) (f : FaultSite) (i : FaultInfo) : State := (s.meetEntries i.walk).deliver f i

/-- Keep a translation in the translation cache; the entries that were read for it have been met. -/
def State.cacheLeaf (s : State) (asid va : Nat) (l : Leaf) : State :=
  let s := s.meetEntries (s.entriesFor asid va l)
  let t : TlbEntry :=
    { asid := asid, page := va / 65536, ipaPage := l.ipa / 65536, frame := l.pa / 65536, span := l.span,
      perms := BitVec.ofNat 8 l.perms, mtype := l.mtype, fullEmpty := l.fullEmpty }
  s.mapMemory fun m => { m with
    tlb := t :: m.tlb.filter fun u => !(u.asid = asid && u.page = va / 65536) }

/-! ## Region records (19 R303, R304) -/

/-- The kinds of access that a record permits or not (19 R303). -/
inductive RecordUse where
  | read | write | fill | take | atomic | wait
  deriving DecidableEq, Repr, Inhabited

/-- What a request's operation does to memory: it changes it; it is a store that a release waits for. -/
def MemOp.isWrite : MemOp → Bool
  | .load _ => false
  | .fence => false
  | _ => true
def MemOp.isStore : MemOp → Bool
  | .store | .fill | .atom _ | .rowAdd .. => true
  | _ => false
/-- The kind of access that a request makes (19 R303). -/
def MemOp.use : MemOp → RecordUse
  | .load _ | .fence => .read
  | .store => .write
  | .fill => .fill
  | .take _ => .take
  | .atom _ | .eyadd | .rowAdd .. => .atomic

/-- Whether a record of a mode (0 R, 1 W, 2 RW, 3 RA) allows a use. -/
def modeAllows (u : RecordUse) (m : Nat) : Bool :=
  match u with
  | .read => m = 0 || m = 2
  | .write => m = 1 || m = 2
  | .fill => m = 1 || m = 2
  | .take => m = 2
  | .atomic => m = 2 || m = 3
  | .wait => m = 0 || m = 2 || m = 3

/-- Whether records that pass a test cover [lo, hi); each round extends from `lo` by the record that reaches furthest. -/
def coversFrom (rs : List RegionRecord) : Nat → Nat → Nat → Bool
  | 0, lo, hi => hi ≤ lo
  | fuel + 1, lo, hi =>
    hi ≤ lo || (
      let reach := (rs.filter fun r => r.base ≤ lo && lo < r.base + r.extent).foldl (fun m r => max m (r.base + r.extent)) lo
      lo < reach && coversFrom rs fuel reach hi)

/-- Every byte of [lo, lo + n) lies in some record whose mode allows the use. -/
def recordsAllow (rs : List RegionRecord) (u : RecordUse) (lo n : Nat) : Bool :=
  let ok := rs.filter fun r => modeAllows u r.mode
  coversFrom ok (ok.length + 1) lo (lo + n)

def needOf : RecordUse → Need
  | .read => .read
  | .write => .write
  | .fill => .write
  | .take => .atomic
  | .atomic => .atomic
  | .wait => .read

/-- The flag bits of a fault record for an access: [3] write, [4] atomic (25 R383). -/
def useFlags : RecordUse → BitVec 8
  | .read => 0
  | .write => 8
  | .fill => 8
  | .take => 16
  | .atomic => 16
  | .wait => 0

/-- A copy of a REDUNDANT pair: it performs no atomic and no eyelet operation on device memory, and neither spawns,
chains, pushes, pops, sends messages nor names eyelets and activations in commands (26 R415). -/
def Activation.isPair (a : Activation) : Bool := a.role != .single
/-- The undeclared-access fault of 26 R415: it names the address, the access kind and the width (19 R304). -/
def pairFault (u : RecordUse) (va : DWord) (n : Nat) : FaultInfo :=
  { code := 0x23, flags := useFlags u, address := va, position := BitVec.ofNat 32 n }

/-- The tier (0x24) and the retired frames (0x26) that a translated access meets (15 R237; 24 R377; 26 R419). -/
def State.mayReach (s : State) (asid : Nat) (flags : BitVec 8) (va : Nat) (l : Leaf) (lpddr : Bool) : Except FaultInfo Leaf :=
  let fault (c : BitVec 8) : Except FaultInfo Leaf :=
    .error { code := c, flags := flags, address := BitVec.ofNat 64 va, walk := s.entriesFor asid va l }
  if (isLpddr l.pa ∧ !lpddr) ∨ s.tierReady l.pa = false then fault 0x24
  else if s.retired l.pa then fault 0x26
  else .ok l

/-- Check and translate an access to device memory: records (0x23), translation, the tier (0x24) and retired frames
(0x26), in this order; a copy of a pair has no atomics and no eyelets (26 R415). `lpddr` is whether the issuer reaches
the LPDDR tier. -/
def checkAccess (s : State) (a : Activation) (u : RecordUse) (va n : Nat) (lpddr : Bool := false) :
    Except FaultInfo Leaf :=
  if recordsAllow a.records u va n = false || (a.isPair && (u = .atomic || u = .wait)) then
    .error { code := 0x23, flags := useFlags u, address := BitVec.ofNat 64 va, position := BitVec.ofNat 32 n }
  else match translate s a.entry.asid va (needOf u) with
    | .error f => .error { f with flags := f.flags ||| useFlags u }
    | .ok l => s.mayReach a.entry.asid (useFlags u) va l lpddr

/-- Translate an access of a context for a use that reaches no LPDDR; its faults name no kind of access. -/
def State.reachPage (s : State) (asid : Nat) (u : RecordUse) (va : Nat) : Except FaultInfo Leaf :=
  match translate s asid va (needOf u) with
  | .error f => .error f
  | .ok l => s.mayReach asid 0 va l false

/-- Translate an access that its instruction has checked: the tier and the frame again (15 R237; 25 R393, R428). -/
def State.reach (s : State) (a : Activation) (u : RecordUse) (va : Nat) : Except FaultInfo Leaf :=
  match s.reachPage a.entry.asid u va with
  | .error f => .error { f with flags := f.flags ||| useFlags u }
  | .ok l => .ok l

/-! ## Scratch (15 R238, R240) -/

/-- The memory tile and the byte within its 1 MiB that a scratch offset of a region names. -/
def Activation.scratchPlace (a : Activation) (off : Nat) : Option (Nat × Nat) :=
  (a.memTiles[off / 2 ^ 20]?).map fun t => (t, off % 2 ^ 20)
def MemTile.mode (t : MemTile) (b : Nat) : BankMode := t.modes.getD b .scratch
/-- Whether the bank of a byte of a tile is in SCRATCH mode. -/
def State.inScratch (s : State) (tile byte : Nat) : Bool := (s.tile tile).mode (byte / 65536) = .scratch
/-- Whether a byte range of scratch offsets lies in the region's SCRATCH banks. -/
def State.scratchGood (s : State) (a : Activation) (off n : Nat) : Bool :=
  (List.range ((off + n + 65535) / 65536 - off / 65536)).all fun i =>
    match a.scratchPlace (off / 65536 * 65536 + 65536 * i) with
    | some (t, b) => s.inScratch t b
    | none => false
def State.scratchByte (s : State) (a : Activation) (off : Nat) : Byte :=
  match a.scratchPlace off with
  | some (t, b) => (s.tile t).sram.read b
  | none => 0
def State.scratchBytes (s : State) (a : Activation) (off : Nat) : Nat → List Byte
  | 0 => []
  | n + 1 => s.scratchByte a off :: s.scratchBytes a (off + 1) n
def State.scratchNat (s : State) (a : Activation) (off n : Nat) : Nat := natOfBytes (s.scratchBytes a off n)
def State.scratchWriteByte (s : State) (a : Activation) (off : Nat) (v : Byte) : State :=
  match a.scratchPlace off with
  | some (t, b) =>
    let x := s.tile t
    s.putTile t { x with sram := x.sram.write b v }
  | none => s
def State.scratchWrite (s : State) (a : Activation) (off : Nat) : List Byte → State
  | [] => s
  | b :: bs => (s.scratchWriteByte a off b).scratchWrite a (off + 1) bs
def State.scratchWriteNat (s : State) (a : Activation) (off n v : Nat) : State := s.scratchWrite a off (leBytes n v)

/-! ## Tile caches (15 R239) -/

def findSector (c : List Sector) (number : Nat) : Option Sector := c.find? fun x => x.number = number
/-- Put a sector at the head of a tile's list, as the most recently used. -/
def putSector (c : List Sector) (x : Sector) : List Sector := x :: c.filter fun y => y.number ≠ x.number
/-- The CACHE banks of a tile; one that switches takes no more lines. -/
def MemTile.cacheBanks (t : MemTile) : List Nat := (List.range 16).filter fun b => t.mode b = .cache && (t.switching.find b).isNone

/-- The digest pair takes in bytes written to device memory (26 R414). -/
def foldDigest (a : Activation) (pa : Nat) : List Byte → Activation
  | [] => a
  | b :: bs => foldDigest { a with
      digestA := a.digestA + b.setWidth 64,
      digestB := a.digestB + (BitVec.ofNat 64 (pa + 1)) * b.setWidth 64 } (pa + 1) bs

/-- The shadow copy of a REDUNDANT pair writes nothing to the LLC (26 R414). -/
def State.isShadow (s : State) (colour : Nat) : Bool :=
  match s.activation colour with
  | some a => decide (a.role = .shadow)
  | none => false

/-- A write of an activation that is performed at the LLC. -/
def State.llcWrite (s : State) (asid colour pa : Nat) (bs : List Byte) : State :=
  if s.isShadow colour then s else s.llcPut asid pa bs

/-- A write-back to a retired frame is discarded, and its activation told (24 R377). -/
def State.lostWriteBack (s : State) (x : Sector) : State :=
  match s.activation x.colour with
  | none => s
  | some a =>
    (s.putActivation { a with lostWrite := true }).report
      { record := a.entry.va, unit := 4, asid := x.asid, colour := x.colour, identifier := a.anchor }
      { code := 0x26, flags := 8, address := BitVec.ofNat 64 (x.number / 2 * 256) }

/-- Write the masked bytes of a sector to the LLC (19 R306); a retired frame discards them (24 R377), also one that the write
itself finds; a shadow copy's sectors are never written (26 R414). -/
def writeMasked (s : State) (x : Sector) : State :=
  let pa := x.number * 128
  if x.mask = 0 || s.isShadow x.colour then s
  else if s.retired pa then s.lostWriteBack x
  else
    let s := s.ensure pa
    let bs := (List.range 128).map fun i => if x.mask.getLsbD i then x.data.extractLsb' (8 * i) 8 else s.physByte (pa + i)
    let s := s.writeSector x.asid pa bs
    if s.retired pa then s.lostWriteBack x else s

/-- Change a sector of a tile where it stands in the order of use. -/
def setSector (c : List Sector) (x : Sector) : List Sector := c.map fun y => if y.number = x.number then x else y

/-- Write back a sector of a tile and mark it clean. -/
def cleanSector (s : State) (tile : Nat) (x : Sector) : State :=
  let s := writeMasked s x
  let t := s.tile tile
  s.putTile tile { t with cache := setSector t.cache { x with mask := 0, writers := [] } }

/-- Write back and drop a sector of a tile. -/
def dropSector (s : State) (tile : Nat) (x : Sector) : State :=
  let s := writeMasked s x
  let t := s.tile tile
  s.putTile tile { t with cache := t.cache.filter fun y => y.number ≠ x.number }

/-- The sectors of a tile that a physical range touches. -/
def State.sectorsIn (s : State) (tile pa n : Nat) : List Sector :=
  (s.tile tile).cache.filter fun x => x.number * 128 < pa + n && pa < x.number * 128 + 128

/-- Write back and drop what a tile holds of a range (16 R251, 17 R281, 20 R320). -/
def State.flushRange (s : State) (tile pa n : Nat) : State :=
  (s.sectorsIn tile pa n).foldl (fun s x => dropSector s tile x) s

/-- A sector of a bank that leaves CACHE is written back and dropped before an access that would meet it (15 R238). -/
def State.leaveBank (s : State) (tile number : Nat) : State :=
  match findSector (s.tile tile).cache number with
  | some x => if ((s.tile tile).switching.find x.bank).isSome then dropSector s tile x else s
  | none => s

/-- A sector brought into a tile's cache from the LLC: the least recently used way of its set makes room. The other half of its line
leaves a bank that leaves CACHE, which takes no sector any more (15 R238). -/
def State.allocate (s : State) (tile number asid colour : Nat) : State × Option Sector :=
  match findSector (s.tile tile).cache number with
  | some x => (s, some x)
  | none =>
    let s := s.leaveBank tile (number / 2 * 2 + (1 - number % 2))
    let r := s.llcRead (number * 128) 128
    match r.2 with
    | none => (r.1, none)
    | some bs =>
      let s := r.1
      let t := s.tile tile
      let set := number / 2 % 256
      let used (b : Nat) : List Sector := t.cache.filter fun x => x.bank = b && x.number / 2 % 256 = set
      let same := (t.cache.find? fun x => x.number / 2 = number / 2).map (·.bank)
      let age (b : Nat) : Nat := (t.cache.findIdx? fun x => x.bank = b && x.number / 2 % 256 = set).getD t.cache.length
      let lru := t.cacheBanks.foldl (fun (m : Option Nat) b => match m with
        | none => some b
        | some c => if age c < age b then some b else some c) none
      let bank := same.getD (lru.getD 0)
      let s := if same.isSome then s else (used bank).foldl (fun s x => dropSector s tile x) s
      let x : Sector :=
        { number := number, bank := bank, data := BitVec.ofNat 1024 (natOfBytes bs), asid := asid,
          colour := colour }
      let t := s.tile tile
      (s.putTile tile { t with cache := putSector t.cache x }, some x)

/-- Bytes of a range that lies in one sector, read through a tile's cache by the page's memory type. -/
def State.tileRead (s : State) (tile asid colour pa n : Nat) (mt : MemType) : State × Option (List Byte) :=
  let number := pa / 128
  let s := s.leaveBank tile number
  let t := s.tile tile
  let cut (x : Sector) : List Byte := leBytes n (x.data.toNat / 2 ^ (8 * (pa % 128)))
  if mt = .device then s.llcRead pa n
  else match findSector t.cache number with
    | some x =>
      let s := s.putTile tile { t with cache := putSector t.cache x }
      (s, some (cut x))
    | none =>
      if mt = .cached ∧ t.cacheBanks ≠ [] then
        let r := s.allocate tile number asid colour
        (r.1, r.2.map cut)
      else s.llcRead pa n

/-- Bytes of a range that lies in one sector, written through a tile's cache by the page's memory type. -/
def State.tileWrite (s : State) (tile asid colour writer pa : Nat) (mt : MemType) (bs : List Byte) : State :=
  let number := pa / 128
  let s := s.leaveBank tile number
  let t := s.tile tile
  let merge (s : State) (x : Sector) : State :=
    let t := s.tile tile
    let lo := pa % 128
    let n := bs.length
    let x' := { x with
      data := BitVec.ofNat 1024 (setField x.data.toNat (8 * lo) (8 * n) (natOfBytes bs)),
      mask := x.mask ||| BitVec.ofNat 128 ((2 ^ n - 1) * 2 ^ lo),
      asid := asid, colour := colour,
      writers := writer :: x.writers.filter (· ≠ writer) }
    s.putTile tile { t with cache := putSector t.cache x' }
  if mt = .device then s.llcWrite asid colour pa bs
  else match findSector t.cache number with
    | some x => merge s x
    | none =>
      if mt = .cached ∧ t.cacheBanks ≠ [] then
        let r := s.allocate tile number asid colour
        match r.2 with
        | some x => merge r.1 x
        | none => r.1
      else s.llcWrite asid colour pa bs

/-- Invalidate without write-back the sectors of a region's tiles that pass a test. -/
def State.dropClean (s : State) (a : Activation) (p : Sector → Bool) : State :=
  a.memTiles.foldl (fun s t =>
    let x := s.tile t
    s.putTile t { x with cache := x.cache.filter fun y => !p y }) s

/-- The physical sectors of a device virtual range that translate, page by page. -/
def State.rangePages (s : State) (asid base extent : Nat) : List (Nat × Nat) :=
  ((List.range ((base + extent + 65535) / 65536 - base / 65536)).filterMap fun i =>
    let lo := max base (base / 65536 * 65536 + 65536 * i)
    let hi := min (base + extent) (base / 65536 * 65536 + 65536 * (i + 1))
    match translate s asid lo .read with
    | .ok l => some (l.pa, hi - lo)
    | .error _ => match translate s asid lo .write with
      | .ok l => some (l.pa, hi - lo)
      | .error _ => none)

/-- Whether a sector touches one of some physical ranges. -/
def touches (ps : List (Nat × Nat)) (x : Sector) : Bool :=
  ps.any fun p => x.number * 128 < p.1 + p.2 && p.1 < x.number * 128 + 128

/-- Acquire: invalidate every sector of the region's tile caches that R, W and RW records touch (19 R305). -/
def State.acquire (s : State) (a : Activation) : State :=
  let ps := (a.records.filter fun r => r.mode ≠ 3).flatMap fun r => s.rangePages a.entry.asid r.base r.extent
  s.dropClean a (touches ps)

/-- An observation: drop the clean sectors within the R and RW records in some tiles (20 R325). -/
def State.observe (s : State) (a : Activation) (tiles : List Nat) : State :=
  let ps := (a.records.filter fun r => r.mode = 0 || r.mode = 2).flatMap fun r => s.rangePages a.entry.asid r.base r.extent
  tiles.foldl (fun s t =>
    let x := s.tile t
    s.putTile t { x with cache := x.cache.filter fun y => y.mask ≠ 0 || !touches ps y }) s

/-- Write back, byte-masked, a region's dirty sectors that pass a test, and mark them clean (19 R306). -/
def State.releaseWhere (s : State) (a : Activation) (p : Sector → Bool) : State :=
  a.memTiles.foldl (fun s t =>
    ((s.tile t).cache.filter fun x => x.mask ≠ 0 && p x).foldl (fun s x => cleanSector s t x) s) s

/-- Write back what an activation stored under the R and RW records of another record (17 R279, 19 R307). -/
def State.releaseFor (s : State) (a : Activation) (rs : List RegionRecord) : State :=
  let ps := (rs.filter fun r => r.mode = 0 || r.mode = 2).flatMap fun r => s.rangePages a.entry.asid r.base r.extent
  s.releaseWhere a (touches ps)

/-- Before an engine access at the LLC: what the region's tile caches hold of a range that it reads is written back, and what
any tile cache holds of a range that it writes is written back and dropped (17 R281, 19 R307). -/
def State.engineFlush (s : State) (a : Activation) (pa n : Nat) (writes : Bool) : State :=
  if writes then s.tiles.foldl (fun s t => s.flushRange t.1 pa n) s
  else a.memTiles.foldl (fun s t =>
    (s.sectorsIn t pa n).foldl (fun s x => if x.mask ≠ 0 then cleanSector s t x else s) s) s

/-! ## Full-empty words (15 R246) -/

/-- The words that a range covers. -/
def wordsIn (pa n : Nat) : List Nat := (List.range ((pa + n + 3) / 4 - pa / 4)).map fun i => pa / 4 + i
/-- Set or clear the presence bits of the words of a range. -/
def State.setFull (s : State) (pa n : Nat) (on : Bool) : State :=
  s.mapMemory fun m =>
    let rest := m.full.filter fun w => !(wordsIn pa n).contains w
    { m with full := if on then wordsIn pa n ++ rest else rest }
def State.noneFull (s : State) (pa n : Nat) : Bool := (wordsIn pa n).all fun w => !s.memory.full.contains w
/-- The presence bits of the words that an access covers are all set. -/
def State.everyFull (s : State) (pa n : Nat) : Bool := (wordsIn pa n).all fun w => s.memory.full.contains w

end Sys2Proof.Machine
end

