-- ==== Sys2Proof/Machine/Ops.lean ====
section
/-! DEFINITION. The named operations that the meanings share: register files, the running block and step, taking an
exception at a block or a step (07 R112, 13 R199), stopping, killing and purging an activation (18 R285, R298; 19 R316),
and the return from a held fault (25 R385). -/
namespace Sys2Proof.Machine

/-- The result of a step of the machine. -/
abbrev Result := Host.Outcome State Fault Refusal

/-! ## Sequencers -/

/-- A sequencer register: s0 reads as zero (13 R198). -/
def Sequencer.reg (q : Sequencer) (r : Nat) : DWord := if r = 0 then 0 else q.regs.getD r 0
/-- Write a sequencer register: a write of s0 is discarded (05 R81, 13 R198). -/
def Sequencer.setReg (q : Sequencer) (r : Nat) (v : DWord) : Sequencer :=
  if r = 0 then q else { q with regs := q.regs.put r v }

/-- The sequencer of a unit: an activation's, or a memory tile's stream program. -/
def State.sequencer (s : State) : SeqId → Option Sequencer
  | .region c => (s.activation c).map (·.seq)
  | .stream t => some (s.tile t).stream

def State.putSequencer (s : State) (q : SeqId) (x : Sequencer) : State :=
  match q with
  | .region c => match s.activation c with
    | some a => s.putActivation { a with seq := x }
    | none => s
  | .stream t => s.putTile t { s.tile t with stream := x }

/-- The activation whose work a sequencer does. -/
def State.seqActivation (s : State) : SeqId → Option Activation
  | .region c => s.activation c
  | .stream t => s.activationAt t

/-- The memory tile whose engines, generators and cache a sequencer uses: the anchor, or its own tile (16 R256). -/
def seqTile (a : Activation) : SeqId → Nat
  | .region _ => a.anchor
  | .stream t => t

/-- A step stands at a boundary (18 R300): none executes; or one waits for full words, at its read or at its atomic (15 R246);
or its commit waits with nothing released, or for a sweep that has not started (13 R214). The second attempt of a step must end
first (26 R411). -/
def Sequencer.atBoundary (x : Sequencer) : Bool :=
  match x.step with
  | none => true
  | some r =>
    if r.attempt ≠ 0 then false
    else if r.ended.isNone then r.waitsAt = some r.word
    else r.released && (!r.begun || (match r.effects.head? with
      | some (.atom _ h ..) => h.fullEmpty
      | some (.commit _) => true
      | _ => false))

/-- A step has released some of its effects, or is in its second attempt, and must finish (26 R411). -/
def Sequencer.midCommit (x : Sequencer) : Bool :=
  match x.step with
  | some r => r.attempt ≠ 0 || (r.begun && !x.atBoundary)
  | none => false

/-- The pre-emption of an activation takes effect: no step of it stands half released (18 R300; log 52). -/
def State.givesWay (s : State) (a : Activation) : Bool :=
  a.victim.isSome && !a.seq.midCommit && a.memTiles.all fun t => !(s.tile t).stream.midCommit

/-- An activation's units may start something: it runs, neither a cancel nor a pre-emption stops it, and no late fault of it
is delivered. -/
def State.mayStart (s : State) (a : Activation) : Bool :=
  (a.phase = .running || a.phase = .finishing) && !a.cancelled && !s.givesWay a &&
  (match a.late with
   | some l => !l.delivered
   | none => true)

def isStreamSeq : SeqId → Bool
  | .region _ => false
  | .stream _ => true

/-! ## Tokens and requests of a colour or an iteration -/

/-- The colour and iteration of what is discarded or counted. -/
abbrev ItemTest := BitVec 16 → BitVec 16 → Bool

def Flit.isOf (p : ItemTest) (f : Flit) : Bool := p f.colour f.iter
def Token.isOf (p : ItemTest) (t : Token) : Bool := p t.colour t.iter
def MemRequest.isOf (p : ItemTest) (r : MemRequest) : Bool := p r.colour r.iter
/-- Everything of one colour. -/
def ofColour (c : Nat) : ItemTest := fun k _ => k.toNat = c

/-- A port without the tokens that pass a test (18 R285, 25 R396). -/
def Port.discard (q : Port) (p : ItemTest) : Port :=
  { q with
    circuit := q.circuit.filter fun f => !f.isOf p,
    wire := q.wire.filter fun f => !f.isOf p,
    reply := q.reply.filter fun f => !f.isOf p,
    remote := q.remote.filter fun f => !f.isOf p }

/-- The order of whole tokens of a port, found again from its FIFOs after a discard. -/
def wholeTokens (fs : List Flit) : Nat :=
  (fs.filter fun f => !f.vector || f.idx = 7).length
def Port.reorder (p : Port) : Port :=
  let keep := fun (acc : List FifoSel) (f : FifoSel) =>
    let have_ := (acc.filter (· = f)).length
    let limit := match f with
      | .circuit => wholeTokens p.circuit
      | .reply => wholeTokens p.reply
      | .remote => wholeTokens p.remote
    if have_ < limit then acc ++ [f] else acc
  { p with order := p.order.foldl keep [] }

/-- An element without the slots that pass a test; a match that had one of them is no longer tried again. -/
def Element.withoutSlots (x : Element) (goes : Slot → Bool) (now : Nat) : Element :=
  let lost (orders : List Nat) : Bool := x.slots.any fun sl => orders.contains sl.order && goes sl
  { x with
    slots := x.slots.filter fun sl => !goes sl,
    lastRelease := if x.slots.any goes then now else x.lastRelease,
    again := x.again.bind fun g => if lost g.1 then none else some g,
    contNop := x.contNop.filter fun g => !lost g.1 }

/-- An element without the tokens, slots, block, requests and replies that pass a test. -/
def Element.discard (x : Element) (p : ItemTest) (now : Nat) : Element :=
  let x := x.withoutSlots (fun sl => sl.token.isOf p) now
  { x with
    ports := x.ports.map fun q => (q.1, (q.2.discard p).reorder),
    block := x.block.bind fun b => if p b.colour b.iter then none else some b,
    requests := x.requests.map fun q => (q.1, q.2.filter fun r => !r.isOf p),
    replies := x.replies.filter fun r => !r.2.isOf p }

/-- A cursor after the purge of a colour: one of that colour closes (10 R152). -/
def Cursor.purge (k : Cursor) (c : Nat) : Cursor := if k.colour.toNat = c then { k with isOpen := false } else k
/-- An element purged of a colour: its cursors of the colour close, in its contexts and in the block that executes. -/
def Element.purge (x : Element) (c : Nat) (now : Nat) : Element :=
  let x := x.discard (ofColour c) now
  { x with
    ctxs := x.ctxs.map fun k => (k.1, { k.2 with cursor := k.2.cursor.purge c }),
    block := x.block.map fun b => { b with cursor := b.cursor.purge c } }

/-- The identifier of a match: the latest arrival among its operands. -/
def latestOf (operands : Tab Slot) : Nat := operands.foldl (fun m o => max m o.2.order) 0
/-- An element whose block is abandoned: its operands stay, and their match gains its promotion from now on (07 R107, R112). -/
def Element.abandon (x : Element) (b : Block) (now : Nat) : Element :=
  { x with block := none, anew := x.anew.put (latestOf b.operands) now }

def HopNode.discard (n : HopNode) (p : ItemTest) : HopNode :=
  { n with flits := n.flits.filter fun f => !f.isOf p, wire := n.wire.filter fun f => !f.isOf p }

/-- A memory tile without the flits that pass a test. -/
def MemTile.discard (t : MemTile) (p : ItemTest) : MemTile :=
  { t with
    fifos := t.fifos.map fun q => (q.1, q.2.filter fun f => !f.isOf p),
    wires := t.wires.map fun q => (q.1, q.2.filter fun f => !f.isOf p),
    sinks := t.sinks.map fun q => (q.1, q.2.filter fun f => !f.isOf p),
    sinkWires := t.sinkWires.map fun q => (q.1, q.2.filter fun f => !f.isOf p) }

/-! ## Fault sites -/

/-- The circuits that an activation's configuration bound (12 R179). -/
def State.circuitsOf (s : State) (a : Activation) : Tab Circuit := s.circuits.filter fun c => c.2.owner = a.colour

/-- The places of the fabric whose flits count for an activation's region: those of its circuits, from where an edge has
come in, and those of the edges of its gang, over which its tokens leave (11 R171, 13 R215). -/
def State.placesOf (s : State) (a : Activation) : List HopNode :=
  s.circuits.flatMap fun c =>
    let nodes := c.2.nodes.map (·.2)
    match c.2.source with
    | .edgeIn g _ =>
      if c.2.owner = a.colour then nodes.filter fun n => a.holds n.tile
      else if a.gang = some g then nodes else []
    | _ => if c.2.owner = a.colour then nodes else []

/-- The region of an activation holds a token, a flit, a slot or an executing block that passes a test (13 R215, 25
R394). -/
def State.holdsTokens (s : State) (a : Activation) (p : ItemTest) : Bool :=
  (a.elements.any fun e =>
    let x := s.element e
    (x.ports.any fun q => (q.2.circuit.any (·.isOf p)) || q.2.wire.any (·.isOf p) || q.2.reply.any (·.isOf p) ||
      q.2.remote.any (·.isOf p)) ||
    (x.slots.any fun sl => sl.token.isOf p) ||
    (match x.block with
     | some b => p b.colour b.iter
     | none => false)) ||
  ((s.placesOf a).any fun n => (n.flits.any (·.isOf p)) || n.wire.any (·.isOf p)) ||
  a.memTiles.any fun t =>
    let x := s.tile t
    [x.fifos, x.wires, x.sinks, x.sinkWires].any fun l => l.any fun q => q.2.any (·.isOf p)

/-- A memory request or reply of an activation's blocks that passes a test is outstanding (13 R215, 15 R246). -/
def State.holdsRequests (s : State) (a : Activation) (p : ItemTest) : Bool :=
  (a.elements.any fun e =>
    let x := s.element e
    (x.requests.any fun q => q.2.any (·.isOf p)) || x.replies.any fun r => r.2.isOf p) ||
  (s.memory.deferred.any fun d => d.2.2.isOf p) ||
  s.memory.additions.any fun d => match d.2.adder with
    | .element _ r => r.isOf p
    | _ => false

/-- Items of an activation whose ITER is that of iteration `m` (25 R394). -/
def ofIteration (a : Activation) (m : Nat) : ItemTest := fun c i => c.toNat = a.colour && i.toNat = m % 65536
/-- A placed iteration is not complete while the region holds an item of it (25 R394). -/
def State.iterationBusy (s : State) (a : Activation) (m : Nat) : Bool :=
  s.holdsTokens a (ofIteration a m) || s.holdsRequests a (ofIteration a m)
/-- The oldest iteration that is not complete (25 R394). -/
def State.oldest (s : State) (a : Activation) : Nat :=
  ((a.placed.map (·.iteration)).find? fun m => s.iterationBusy a m).getD a.isc
/-- The 48-bit iteration that a 16-bit ITER names in the window (25 R394). -/
def State.iterationOf (s : State) (a : Activation) (iter : BitVec 16) : Nat :=
  let old := s.oldest a
  old + (iter.toNat + 65536 - old % 65536) % 65536

/-- The record fields of a block's fault (25 R383). -/
def State.blockSite (s : State) (el : Nat) (b : Block) : FaultSite :=
  match s.activation b.colour.toNat with
  | some a => { record := a.entry.va, unit := 0, asid := a.entry.asid, slot := b.ctx.toNat, colour := b.colour.toNat,
                identifier := el, iteration := s.iterationOf a b.iter, place := b.entry, word := b.word }
  | none => { unit := 0, slot := b.ctx.toNat, colour := b.colour.toNat, identifier := el, iteration := b.iter.toNat,
              place := b.entry, word := b.word }

/-- The record fields of a step's fault (25 R383): unit 1 a region sequencer, 2 a stream program. -/
def State.stepSite (s : State) (q : SeqId) (place word : Nat) : FaultSite :=
  match s.seqActivation q with
  | some a => { record := a.entry.va, unit := if isStreamSeq q then 2 else 1, asid := a.entry.asid, colour := a.colour,
                identifier := seqTile a q, iteration := a.isc, place := place, word := word }
  | none => { unit := if isStreamSeq q then 2 else 1, place := place, word := word }

/-! ## Events that occur or not -/

/-- An event that can occur, or not. -/
def occurs (c : Bool) (s : State) : Result := if c then .next s else .fault .notEnabled

/-- An event whose condition gives the next state, or none. -/
def occursIf (o : Option State) : Result :=
  match o with
  | some s => .next s
  | none => .fault .notEnabled

/-! ## Purging, stopping and killing -/

/-- What is saved of another activation, without the items of a colour (18 R285). -/
def SavedFrame.purge (f : SavedFrame) (c now : Nat) : SavedFrame := { f with
  elements := f.elements.map fun p => (p.1, p.2.purge c now),
  tiles := f.tiles.map fun p => (p.1, { p.2.discard (ofColour c) with
    streams := p.2.streams.filter fun x => x.colour.toNat ≠ c }),
  circuits := f.circuits.map fun p => (p.1, { p.2 with nodes := p.2.nodes.map fun n => (n.1, n.2.discard (ofColour c)) }),
  deferred := f.deferred.filter fun d => d.2.colour.toNat ≠ c }

/-- Purge a colour anywhere in the package: flits, slots, retained operands, FIFO banks, deferred requests, unsent
messages, what is saved included (18 R285). The colour then waits to return to the pool. -/
def State.purge (s : State) (c : Nat) : State :=
  { s with
    elements := s.elements.map fun p => (p.1, p.2.purge c s.cycle),
    tiles := s.tiles.map fun p => (p.1, { p.2.discard (ofColour c) with
      streams := p.2.streams.filter fun x => x.colour.toNat ≠ c }),
    circuits := s.circuits.map fun p =>
      (p.1, { p.2 with nodes := p.2.nodes.map fun n => (n.1, n.2.discard (ofColour c)) }),
    activations := s.activations.map fun p => (p.1, { p.2 with frame := p.2.frame.map fun f => f.purge c s.cycle }),
    memory := { s.memory with
      deferred := s.memory.deferred.filter fun d => d.2.2.colour.toNat ≠ c,
      additions := s.memory.additions.filter fun d => match d.2.adder with
        | .element _ r => r.colour.toNat ≠ c
        | _ => true },
    welt := { s.welt with messages := s.welt.messages.filter fun m =>
      !(m.dest.toNat % 65536 = c && slice m.dest.toNat 43 34 = s.host.domid.toNat % 1024) },
    sched := { s.sched with
      colours := s.sched.colours.filter (· ≠ c),
      purging := (c, s.cycle) :: s.sched.purging } }

/-- What an activation's block or step has staged is discarded: it has been killed, or stopped as by a cancel, which waits for a
second attempt to end (18 R298; 25 R385; 26 R411). -/
def Activation.discards (a : Activation) (second : Bool) : Bool := a.cancelled && !(second && a.code ≠ 0x67)

/-- Mark an activation to stop as a cancelled one (18 R298, 25 R385): its units start nothing, and ACTIVATION_COMPLETION
ends it. The first code stands, but for that of a cancel where a more specific one comes (25 R381). -/
def Activation.cancel (a : Activation) (code : Nat) : Activation :=
  { a with cancelled := true, code := if a.code = 0 || a.code = 0x66 then code else a.code }
def State.cancelActivation (s : State) (c code : Nat) : State :=
  match s.activation c with
  | some a => s.putActivation (a.cancel code)
  | none => s

/-! ## Completion records (25 R386) -/

/-- The 64 bytes of a completion record. `sources` holds the lowest identifier for each event bit. -/
def completionRecord (time : Nat) (e : Entry) (colour code : Nat) (events : Nat) (sources : Tab Nat) : Nat :=
  let flags := (if e.isPart then 1 else 0) + (if e.rerun then 2 else 0)
  let source (i : Nat) : Nat := if events / 2 ^ i % 2 = 1 then sources.getD i 0xFFFF else 0xFFFF
  packFields ([(0x00, 8, e.va), (0x08, 8, time), (0x10, 2, field e.record 0x18 2), (0x12, 2, field e.record 0x1A 2),
    (0x14, 2, field e.record 0x1C 2), (0x16, 2, field e.record 0x1E 2), (0x18, 2, colour), (0x1A, 2, code),
    (0x1C, 1, events % 64), (0x1D, 1, flags), (0x30, 6, e.lo), (0x36, 6, e.hi)] ++
    (List.range 6).map fun i => (0x20 + 2 * i, 2, source i))

/-- A completion ring without room, or with records that wait for room; a context without a ring has no record to write. -/
def State.ringFull (s : State) (asid : Nat) : Bool :=
  let r := s.host.rings.getD asid {}
  r.base ≠ 0 && (decide (2 ^ r.log ≤ (r.tail - r.head).toNat) || s.sched.owed.any fun o => o.1 = asid)

/-- Write a completion record where the ring has room; one that finds the ring full waits for room. A fatal error leaves it unwritten
(26 R417). -/
def State.putCompletion (s : State) (asid rec_ : Nat) : State :=
  let r := s.host.rings.getD asid {}
  if r.base = 0 then s
  else if s.ringFull asid then s.mapSched fun c => { c with owed := c.owed ++ [(asid, BitVec.ofNat 512 rec_)] }
  else
    let s := s.hwPut { unit := 4, asid := asid } r.slotAt (leBytes 64 rec_)
    if s.halted then s
    else s.mapHost fun h => { h with rings := h.rings.put asid { r with tail := r.tail + 1 } }

/-- Write the completion records that waited, as far as the ring of a context has room now. -/
def State.payOwed (s : State) (asid : Nat) : State :=
  let mine := s.sched.owed.filter fun o => o.1 = asid
  let s := s.mapSched fun c => { c with owed := c.owed.filter fun o => o.1 ≠ asid }
  mine.foldl (fun s o => s.putCompletion asid o.2.toNat) s

/-- A record completes without a region: its counters fall, and its completion record carries the code (18 R289; 25 R381). -/
def State.completeEntry (s : State) (e : Entry) (code : Nat) : State :=
  let s := s.lowerCounters e.asid e.record
  s.putCompletion e.asid (completionRecord s.cycle e 0 code 0 [])

/-- A record that a mark or a cancel drops: its counters fall, and one that a kill drops completes with the kill's code (18
R298, 19 R316). -/
def State.dropRecord (s : State) (e : Entry) (code : Nat) : State :=
  if code = 0x67 then s.completeEntry e code else s.lowerCounters e.asid e.record

/-- Cancel an id: drop the records that name it, mark the activations that run it (18 R298). Levels: 1 launch,
2 graph, 3 phase, 4 job. An id whose counter is zero is marked and cleared at once. -/
def State.cancelId (s : State) (asid job level id code : Nat) : State :=
  let key := (asid, if level = 4 then id else job, level, id)
  if counterOf s key = 0 then s
  else
    let names (r : BitVec 512) (c : Nat) : Bool := c = asid && (counterKeys asid r).contains key
    let s := s.mapSched fun c => { c with marks := (key, code) :: c.marks.filter (·.1 ≠ key) }
    let gone := s.sched.entries.filter fun e => names e.record e.asid && e.resumes = none
    let s := gone.foldl (fun s e => s.dropRecord e code) s
    let s := s.mapSched fun c => { c with entries := c.entries.filter fun e => !(names e.record e.asid && e.resumes = none) }
    { s with activations := s.activations.map fun p =>
        if names p.2.entry.record p.2.entry.asid && p.2.isLive then (p.1, p.2.cancel code) else p }

/-- KILL BY COLOUR after a repeated mismatch (19 R316): code 0x67, and unless the activation restarts its launch is
cancelled with it. A DECL that released bytes ends restartability (21 R331). A kill takes precedence over a cancel (26 R411); what
stops for another reason stops for that one. -/
def State.killByColour (s : State) (c : Nat) : State :=
  match s.activation c with
  | none => s
  | some a =>
    if a.cancelled && a.code ≠ 0x66 then s
    else
    let r := a.entry.record
    let restart := field r 0x21 1 % 2 = 1 && !a.narrowed
    let s := s.putActivation { a with cancelled := true, code := 0x67, restarts := restart }
    if restart then s
    else s.cancelId a.entry.asid (field r 0x1E 2) 1 (field r 0x18 2) 0x67

/-! ## Checked firing (26 R410 to R412) -/

/-- The black-box event of a mismatch (26 R416 kind 0x01). -/
def State.mismatchEvent (s : State) (identifier unit colour place attempt : Nat) : State :=
  s.blackBox 0x01 [(9, 2, identifier), (11, 1, unit), (12, 2, colour), (14, 2, place), (16, 1, attempt)]

/-- Two mismatches are close together: no more than 2^30 cycles apart. -/
def closeMismatch (last : Option Nat) (now : Nat) : Bool :=
  match last with
  | some t => now - t ≤ 2 ^ 30
  | none => false

/-- A mismatch in the engines of a memory tile: the event, and after two close ones the tile is no longer ready (26 R412). -/
def State.tileMismatch (s : State) (tile unit colour place attempt : Nat) : State :=
  let x := s.tile tile
  let s := s.mismatchEvent tile unit colour place attempt
  let s := if closeMismatch x.mismatchAt s.cycle then s.withdrawTile tile else s
  s.putTile tile { x with mismatchAt := some s.cycle }

/-- The quarantine bit of an element in QMAP (26 R413). -/
def qmapIndex (el : Nat) : Nat := 784 * idDie el + 28 * idY el + idX el
def State.quarantined (s : State) (el : Nat) : Bool := (s.host.qmap.getD (qmapIndex el) 0).getLsbD (el % 16)
def State.setQuarantine (s : State) (el : Nat) (on : Bool) : State :=
  let q := s.host.qmap.getD (qmapIndex el) 0
  let bit : BitVec 16 := 1#16 <<< (el % 16)
  let s := s.mapHost fun h => { h with qmap := h.qmap.put (qmapIndex el) (if on then q ||| bit else q &&& ~~~bit) }
  if on then (linkTilesAt el).foldl (fun s t => s.setTileReady t false) s else s
/-- The link region that holds a tile has a quarantined element: its tiles are withdrawn while it has (26 R413). -/
def State.linkQuarantined (s : State) (id : Nat) : Bool :=
  (linkTilesAt id).any fun t => (List.range 16).any fun e => s.quarantined (t + e)

/-- A mismatch at an element: the event, and after two close ones the quarantine is due (26 R412). -/
def State.elementMismatch (s : State) (el : Nat) (b : Block) : State :=
  let x := s.element el
  let s := s.mismatchEvent el 0 b.colour.toNat b.entry b.attempt
  s.putElement el { x with
    mismatchAt := some s.cycle, quarantineDue := x.quarantineDue || closeMismatch x.mismatchAt s.cycle }

/-- The quarantine of an element comes when the second attempt has ended, behind the events of its mismatches, as the example of
26 R412 has it, and with one event. -/
def State.settleQuarantine (s : State) (el : Nat) : State :=
  let x := s.element el
  if x.quarantineDue then
    let t := s.putElement el { x with quarantineDue := false }
    if t.quarantined el then t else (t.setQuarantine el true).blackBox 0x02 [(9, 2, el)]
  else s

/-- A block whose firing mismatches is abandoned and its match tried again at once; a second mismatch kills the activation (26
R411). -/
def State.blockMismatch (s : State) (el : Nat) (b : Block) : State :=
  let s := { s with upsets := s.upsets.erase (.elementFiring el) }
  let s := s.elementMismatch el b
  let x := s.element el
  if b.attempt = 0 then
    s.putElement el { x.abandon b s.cycle with again := some (b.operands.map (·.2.order), 1) }
  else ((s.putElement el { x with block := none }).killByColour b.colour.toNat).settleQuarantine el

/-- A step that mismatches is abandoned and re-executes once; a second mismatch kills its activation (26 R411). -/
def State.stepMismatch (s : State) (q : SeqId) (a : Activation) (x : Sequencer) (r : StepRun) : State :=
  let s := { s with upsets := s.upsets.erase (.stepFiring q) }
  let s := s.mismatchEvent (seqTile a q) (if isStreamSeq q then 2 else 1) a.colour x.cc r.attempt
  if r.attempt = 0 then s.putSequencer q { x with regs := r.saved, step := some { saved := r.saved, attempt := 1 } }
  else (s.putSequencer q { x with regs := r.saved, step := none }).killByColour a.colour

/-- The step that a sequencer executes, with its sequencer. -/
def State.stepOf (s : State) (q : SeqId) : Option (Sequencer × StepRun) :=
  (s.sequencer q).bind fun x => x.step.map fun r => (x, r)

/-! ## Taking an exception -/

/-- A block that faults is held (07 R112, 25 R382 to R384): it commits nothing, its operands stay in their slots, its events are
discarded, the record is delivered, and no candidate of the context is selected until an answer. -/
def holdBlock (s : State) (el : Nat) (b : Block) (i : FaultInfo) : State :=
  let s := s.report (s.blockSite el b) i
  let x := s.element el
  let k := x.ctxOf b.ctx.toNat
  let h : HeldFault := { info := i, place := b.entry, word := b.word, operands := b.operands.map (·.2.order) }
  let k := { k with held := some h }
  { (s.putElement el ((x.abandon b s.cycle).putCtx b.ctx.toNat k)).settleQuarantine el with focus := .none }

/-- TAKING AN EXCEPTION AT A BLOCK: it is held, unless a mismatch of its firing is retried first (07 R112, 26 R411). -/
def takeBlockException (s : State) (el : Nat) (b : Block) (i : FaultInfo) : State :=
  if s.upsets.contains (.elementFiring el) then { s.blockMismatch el b with focus := .none } else holdBlock s el b i

/-- A step that faults is held (13 R199, 25 R382 to R384): its register writes are undone, nothing of it commits, CC still names
it, the record is delivered, and its sequencer is held until an answer. -/
def holdStep (s : State) (q : SeqId) (i : FaultInfo) : State :=
  match s.sequencer q with
  | none => s
  | some x =>
    let r := x.step.getD {}
    let s := s.report (s.stepSite q x.cc r.word) i
    { s.putSequencer q { x with
        regs := if x.step.isSome then r.saved else x.regs,
        step := none,
        held := some { info := i, place := x.cc, word := r.word } } with focus := .none }

/-- TAKING AN EXCEPTION AT A STEP: it is held, unless a mismatch of its firing is retried first (13 R199, 26 R411). -/
def takeStepException (s : State) (q : SeqId) (i : FaultInfo) : State :=
  match s.seqActivation q, s.stepOf q with
  | some a, some (x, r) =>
    if !r.released && s.upsets.contains (.stepFiring q) then { s.stepMismatch q a x r with focus := .none } else holdStep s q i
  | _, _ => holdStep s q i

/-- The illegal-instruction exception of a step (05 R67), a privilege violation or not. -/
def illegalInfo (priv : Bool) : FaultInfo := { code := 0x11, flags := if priv then 4 else 0 }

/-! ## Executing inside a block or a step -/

/-- What an instruction makes of its block: the block goes on, or an exception. -/
inductive BlockResult where
  | ok (b : Block)
  | exc (i : FaultInfo)
  deriving DecidableEq, Repr, Inhabited

/-- The element, and its running block, whose turn it is. -/
def State.running (s : State) : Option (Nat × Block) :=
  match s.focus with
  | .element el => (s.element el).block.map fun b => (el, b)
  | _ => none

/-- The block after one of its instructions: one instruction done, and the words it took passed. -/
def Block.advance (b : Block) (words : Nat) : Block := { b with done := b.done + 1, word := b.word + words }

/-- Execute an element instruction of `words` words in the running block. A step that meets an element word takes the
illegal-instruction exception (05 R65). -/
def inBlock (s : State) (words : Nat) (f : State → Nat → Block → BlockResult) : Result :=
  match s.focus with
  | .element el => match (s.element el).block with
    | some b => match f s el b with
      | .ok b' => .next { s.putElement el { s.element el with block := some (b'.advance words) } with focus := .none }
      | .exc i => .next (takeBlockException s el b i)
    | none => .fault .noUnit
  | .sequencer q => match s.sequencer q with
    | some _ => .next (takeStepException s q (illegalInfo false))
    | none => .fault .noUnit
  | .none => .fault .noUnit

/-- Execute an element instruction that also touches the package beside its block: the translations it makes are kept. -/
def inBlockWith (s : State) (words : Nat) (f : State → Nat → Block → Except FaultInfo (State × Block)) : Result :=
  match s.focus with
  | .element el => match (s.element el).block with
    | some b => match f s el b with
      | .ok (s', b') =>
        .next { s'.putElement el { s'.element el with block := some (b'.advance words) } with focus := .none }
      | .error i => .next (takeBlockException s el b i)
    | none => .fault .noUnit
  | .sequencer q => match s.sequencer q with
    | some _ => .next (takeStepException s q (illegalInfo false))
    | none => .fault .noUnit
  | .none => .fault .noUnit

/-- What an instruction makes of its step: the step goes on with the next word, or at a word of its own, or waits at this
one; or an exception, in the state that found it. -/
inductive StepResult where
  | ok (s : State) (x : Sequencer) (r : StepRun)
  | jump (s : State) (x : Sequencer) (r : StepRun)
  | waits
  | exc (s : State) (i : FaultInfo)
  deriving Inhabited

/-- Execute a sequencer instruction in the running step. Handler code never holds one (05 R65). -/
def inStep (s : State) (f : State → SeqId → Activation → Sequencer → StepRun → StepResult) : Result :=
  match s.focus with
  | .sequencer q => match s.seqActivation q, s.sequencer q with
    | some a, some x => match x.step with
      | some r => match f s q a x r with
        | .ok s' x' r' =>
          .next { s'.putSequencer q { x' with step := some { r' with word := r'.word + 1 } } with focus := .none }
        | .jump s' x' r' => .next { s'.putSequencer q { x' with step := some r' } with focus := .none }
        | .waits =>
          .next { s.putSequencer q { x with step := some { r with waitsAt := some r.word } } with focus := .none }
        | .exc s' i => .next (takeStepException s' q i)
      | none => .fault .noUnit
    | _, _ => .fault .noUnit
  | .element _ => .fault .sequencerWordInHandler
  | .none => .fault .noUnit

/-- A step instruction that changes only the sequencer's registers. -/
def inStepRegs (s : State) (f : Sequencer → Sequencer) : Result :=
  inStep s fun s _ _ x r => .ok s (f x) r

/-- A step instruction that stages one effect. -/
def stage (s : State) (x : Sequencer) (r : StepRun) (e : StepEffect) : StepResult :=
  .ok s x { r with effects := r.effects ++ [e] }

/-- A step instruction that ends its step. -/
def endStep (s : State) (x : Sequencer) (r : StepRun) (e : StepEnd) : StepResult :=
  .ok s x { r with ended := some e }

/-! ## The return from a held fault (25 R385, R428) -/

/-- Release a context's hold; SKIP and the operands of the held match are handled by the caller. -/
def ElementCtx.release (k : ElementCtx) : ElementCtx := { k with held := none }

/-- RETURN, an element block: RETRY and CONTINUE make the match selectable again (a BRK or TRAP that continues runs that
word as NOP once), SKIP releases the operands of the match as a commit with no effects does: those of an entry with KP
stay (07 R111). -/
def answerElement (s : State) (el ctx : Nat) (skip cont : Bool) : State :=
  let x := s.element el
  let k := x.ctxOf ctx
  match k.held with
  | none => s
  | some h =>
    let x := x.putCtx ctx k.release
    let isTrap := h.info.code = 0x70 || h.info.code = 0x71
    let x := if cont && isTrap then { x with contNop := (h.operands, h.word) :: x.contNop } else x
    let x := if skip && !(x.handlers.getD h.place 0).getLsbD 25 then
        { x with slots := x.slots.filter fun sl => !h.operands.contains sl.order, lastRelease := s.cycle }
      else x
    s.putElement el x

/-- The step after a step in the step table; CC has 8 bits (13 R198, R200). -/
def nextStep (x : Sequencer) : Nat := (x.cc + 1) % 256

/-- RETURN, a sequencer: RETRY re-executes the step from its first word; SKIP goes to the next step; CONTINUE after
SBRK starts the next step; the accesses of a late fault stay for the caller to perform again, or are skipped; a faulted
wait is tested again or passed (25 R385, R428). -/
def answerSequencer (x : Sequencer) (skip : Bool) : Sequencer :=
  match x.held with
  | none => x
  | some h =>
    let late := x.lateAccess != []
    let x := { x with held := none, lateAccess := if skip then [] else x.lateAccess }
    if h.late then (if !late && skip then { x with wait := .none } else x)
    else if h.info.code = 0x72 then x
    else if skip then { x with cc := nextStep x, wait := .none }
    else x

/-- RETURN, an engine chain: RETRY and CONTINUE resume its command from its progress (25 R385). -/
def Chain.resume (c : Chain) : Chain := { c with
  held := none, stopped := false,
  commands := c.commands.map fun k => if k.phase = .faulted then { k with phase := k.resumeAs } else k }

/-- Whether a unit of an activation is held (25 R385), and whether one of its faults is a stage-2 fault. -/
def isStage2 (h : HeldFault) : Bool := 0x33 ≤ h.info.code.toNat && h.info.code.toNat ≤ 0x35
def State.heldFaults (s : State) (a : Activation) : List HeldFault :=
  (a.elements.flatMap fun e => (s.element e).ctxs.filterMap fun k => k.2.held) ++
  a.seq.held.toList ++
  (a.memTiles.filterMap fun t => (s.tile t).stream.held) ++
  (a.memTiles.flatMap fun t => (s.tile t).streams.filterMap fun x => x.held) ++
  (s.chains.filterMap fun c => if c.colour = a.colour then c.held else none) ++
  (s.links.filterMap fun k => if (k.2.commands.head?.map (·.colour)) = some a.colour then k.2.held else none) ++
  (match a.late with
   | some l => if l.delivered then [{ info := l.info, late := true, place := l.entry, word := l.word }] else []
   | none => [])

end Sys2Proof.Machine
end

