-- ==== Sys2Proof/Machine/Fabric.lean ====
section
/-! DEFINITION. Tokens as flits, circuits and their routes, and the event that moves a flit (12 R177 to R185). -/
namespace Sys2Proof.Machine

def kindCode : TokenKind → Nat
  | .data => 0
  | .last => 1
  | .conf => 2
  | .ctrl => 3

/-- Bits [45:0] of a flit's sideband (12 R177). -/
def sideband (f : Flit) : Nat :=
  f.idx.toNat * 2 ^ 43 + (if f.vector then 2 ^ 42 else 0) + kindCode f.kind * 2 ^ 40 + f.iter.toNat * 2 ^ 24 +
  f.chan.toNat * 2 ^ 19 + f.ctx.toNat * 2 ^ 16 + f.colour.toNat

/-- Whether a number of `n` bits has an odd number of set bits. -/
def oddBits : Nat → Nat → Bool
  | 0, _ => false
  | n + 1, v => (v % 2 = 1) != oddBits n (v / 2)

/-- PAR: even parity over the data bits and bits [45:0] (12 R177). -/
def parityOf (f : Flit) : Bool := oddBits 256 f.data.toNat != oddBits 46 (sideband f)

/-- Flit `i` of a token (12 R177). -/
def flitOf (t : Token) (i : Nat) : Flit :=
  let f : Flit :=
    { par := false, idx := BitVec.ofNat 3 i, vector := t.vector, kind := t.kind, iter := t.iter, chan := t.chan,
      ctx := t.ctx, colour := t.colour, data := t.data.extractLsb' (256 * i) 256 }
  { f with par := parityOf f }

/-- The flits of a token: one for a scalar token, eight for a vector token. -/
def flitsOf (t : Token) : List Flit := if t.vector then (List.range 8).map (flitOf t) else [flitOf t 0]

/-- The token that whole flits make; a scalar token's upper bytes are zero (07 R102). -/
def tokenOf (fs : List Flit) : Token :=
  match fs with
  | [] => {}
  | f :: _ =>
    { kind := f.kind, vector := f.vector, chan := f.chan, ctx := f.ctx, colour := f.colour, iter := f.iter,
      data := BitVec.ofNat 2048 ((fs.map (·.data.toNat)).foldr (fun d acc => d + 2 ^ 256 * acc) 0) }

/-- The whole token at the head of a FIFO and what stands behind it. -/
def headToken (fs : List Flit) : Option (Token × List Flit) :=
  match fs with
  | [] => none
  | f :: r =>
    if f.vector then (if 8 ≤ fs.length then some (tokenOf (fs.take 8), fs.drop 8) else none)
    else some (tokenOf [f], r)

/-- The last flit of its token. -/
def Flit.isEnd (f : Flit) : Bool := !f.vector || f.idx = 7

/-! ## Circuits -/

def Circuit.node (c : Circuit) (n : Nat) : HopNode := c.nodes.getD n {}
/-- A circuit without the flits that pass a test. -/
def Circuit.discard (c : Circuit) (p : ItemTest) : Circuit :=
  { c with nodes := c.nodes.map fun n => (n.1, n.2.discard p) }
def Circuit.setNode (c : Circuit) (n : Nat) (x : HopNode) : Circuit := { c with nodes := c.nodes.put n x }

/-- The circuit that a source port is bound to (12 R179). -/
def State.boundTo (s : State) (p : SourcePort) : Option (Nat × Circuit) := s.circuits.find? fun c => c.2.source = p

/-- Put tokens on a bound source port, in order (12 R179). -/
def State.emit (s : State) (p : SourcePort) (ts : List Token) : State :=
  match s.boundTo p with
  | none => s
  | some (k, c) =>
    let n := c.node 0
    { s with circuits := s.circuits.put k (c.setNode 0 { n with flits := n.flits ++ ts.flatMap flitsOf }) }

/-- The tiles from one place to another, east or west first and then north or south, without the first (12 R180). -/
def routeTiles (die x y x2 y2 : Nat) : List Nat :=
  let xs := if x ≤ x2 then (List.range (x2 - x)).map (x + 1 + ·) else (List.range (x - x2)).map (x - 1 - ·)
  let ys := if y ≤ y2 then (List.range (y2 - y)).map (y + 1 + ·) else (List.range (y - y2)).map (y - 1 - ·)
  xs.map (fun i => tileId die i y) ++ ys.map (fun j => tileId die x2 j)

/-- Add one branch to a circuit's tree: hop buffers in the tiles between, and its end (12 R180, R183). -/
def addBranch (c : Circuit) (cur : Nat) : List Nat → HopTarget → Circuit
  | [], t => c.setNode cur { c.node cur with targets := (c.node cur).targets ++ [t] }
  | [_], t => c.setNode cur { c.node cur with targets := (c.node cur).targets ++ [t] }
  | tile :: rest, t =>
    match (c.node cur).targets.find? (fun h => match h with
      | .node m => (c.node m).tile = tile && (c.node m).viaBank.isNone && (c.node m).passPort.isNone
      | _ => false) with
    | some (.node m) => addBranch c m rest t
    | _ =>
      let m := c.nodes.length
      let c := c.setNode cur { c.node cur with targets := (c.node cur).targets ++ [.node m] }
      addBranch (c.setNode m { tile := tile }) m rest t

/-- Add one place to a circuit as the next one after another: the circuit and the new place's number. -/
def addPlace (c : Circuit) (cur : Nat) (x : HopNode) : Circuit × Nat :=
  let m := c.nodes.length
  ((c.setNode cur { c.node cur with targets := (c.node cur).targets ++ [.node m] }).setNode m x, m)

/-- Add a PASS stage or FIFO bank that the circuit passes before it fans out, and the hops on the way to its tile (12 R188,
R189). -/
def addStage (c : Circuit) (cur : Nat) (x : HopNode) : Circuit × Nat :=
  let from_ := (c.node cur).tile
  let r := (routeTiles (idDie from_) (idX from_) (idY from_) (idX x.tile) (idY x.tile)).dropLast.foldl
    (fun (r : Circuit × Nat) t => addPlace r.1 r.2 { tile := t }) (c, cur)
  addPlace r.1 r.2 x

/-- The tile of a circuit's end. -/
def targetTile (dflt : Nat) : HopTarget → Nat
  | .elementPort el _ => tileOf el
  | .streamPort t _ => t
  | .sink t => t
  | _ => dflt

/-- The directed links that a place's flits cross. The first link of an outbound edge belongs to the circuit of the edge's
consuming side. -/
def Circuit.nodeLinks (c : Circuit) (n : HopNode) : List (Nat × Nat) :=
  n.targets.filterMap fun t =>
    let to_ := match t with
      | .node m => (c.node m).tile
      | h => targetTile n.tile h
    if to_ = n.tile then none else some (n.tile, to_)

/-- The link over which an edge enters a circuit of its consuming side (12 R190). -/
def Circuit.edgeLink (c : Circuit) : List (Nat × Nat) :=
  match c.edgeFrom with
  | some t => if t = (c.node 0).tile then [] else [(t, (c.node 0).tile)]
  | none => []

/-- The directed links that a circuit's route crosses, each once. -/
def Circuit.links (c : Circuit) : List (Nat × Nat) :=
  (c.edgeLink ++ c.nodes.flatMap fun n => c.nodeLinks n.2).dedup

/-! ## Moving a flit (12 R181, R182, R185, R187) -/

/-- The circuit of the consuming side of an edge (11 R171). -/
def State.edgeCircuit (s : State) (c : Circuit) (n : Nat) : Option (Nat × Circuit) :=
  match s.activation c.owner with
  | none => none
  | some a => match a.gang with
    | none => none
    | some g => s.boundTo (.edgeIn g n)

/-- The number of an element's memory port among the senders of a request sink. -/
def portKey (el mport : Nat) : Nat := 4 * el + mport

/-- The memory port whose requests a circuit carries to a request sink. -/
def Circuit.sinkKey (c : Circuit) : Option Nat :=
  match c.source with
  | .elementMem el p => some (portKey el p)
  | _ => none

/-- How many flits lie in some FIFOs. -/
def flitCount (m : Tab (List Flit)) : Nat := (m.map fun q => q.2.length).sum

/-- The free places a receiver reports, and the flits on the wire towards it (12 R185). A request sink has 64 places for
the requests of all its circuits; the flits on the wires of the others count as standing (12 R186; log 58). -/
def State.places (s : State) (c : Circuit) : HopTarget → Option Nat × Nat
  | .node m =>
    let n := c.node m
    let cap := match n.passPort with
      | some (el, p) => some ((s.element el).ports.getD p {}).depth
      | none => n.capacity
    (cap.map (· - n.flits.length), n.wire.length)
  | .elementPort el p =>
    let q := (s.element el).ports.getD p {}
    (some (q.depth - q.circuit.length), q.wire.length)
  | .streamPort t p => (some (64 - ((s.tile t).fifos.getD p []).length), ((s.tile t).wires.getD p []).length)
  | .sink t => match c.sinkKey with
    | none => (none, 0)
    | some k =>
      let x := s.tile t
      let mine := (x.sinkWires.getD k []).length
      (some (64 - (flitCount x.sinks + (flitCount x.sinkWires - mine))), mine)
  | .edge n => match s.edgeCircuit c n with
    | some (_, c2) => (some (4 - (c2.node 0).flits.length), (c2.node 0).wire.length)
    | none => (some 0, 0)

/-- A receiver takes a flit: at least three places reported, which cover the flit and two on their way (12 R185). -/
def State.accepts (s : State) (c : Circuit) (t : HopTarget) : Bool :=
  match s.places c t with
  | (some free, onWire) => 3 ≤ free && onWire ≤ 2
  | (none, _) => true

/-- Put a flit on the wire towards a target. A token of another port than an element's memory port ends at a request sink
(log 58). -/
def State.putWire (s : State) (k : Nat) (t : HopTarget) (f : Flit) : State :=
  match s.circuits.find k with
  | none => s
  | some c => match t with
    | .node m => { s with circuits := s.circuits.put k (c.setNode m { c.node m with wire := (c.node m).wire ++ [f] }) }
    | .elementPort el p =>
      let x := s.element el
      let q := x.ports.getD p {}
      s.putElement el { x with ports := x.ports.put p { q with wire := q.wire ++ [f] } }
    | .streamPort tl p =>
      let x := s.tile tl
      s.putTile tl { x with wires := x.wires.put p (x.wires.getD p [] ++ [f]) }
    | .sink t => match c.sinkKey with
      | none => s
      | some key =>
        let x := s.tile t
        s.putTile t { x with sinkWires := x.sinkWires.put key (x.sinkWires.getD key [] ++ [f]) }
    | .edge n => match s.edgeCircuit c n with
      | some (k2, c2) =>
        { s with circuits := s.circuits.put k2 (c2.setNode 0 { c2.node 0 with wire := (c2.node 0).wire ++ [f] }) }
      | none => s

/-- A flit with another colour: PAR is written anew, and stays wrong where it was (11 R171, 12 R177). -/
def recolour (colour : Nat) (f : Flit) : Flit :=
  let g := { f with colour := BitVec.ofNat 16 colour }
  { g with par := parityOf g != (f.par != parityOf f) }

/-- A flit as it lands in a place of a circuit: one that has come over an edge into the region of the consuming activation
takes that activation's colour (11 R171; 13 R215). -/
def State.arriving (s : State) (c : Circuit) (tile : Nat) (f : Flit) : Flit :=
  match c.source with
  | .edgeIn .. => match s.activation c.owner with
    | some a => if a.holds tile then recolour c.owner f else f
    | none => f
  | _ => f

/-- Land the oldest flit on the wire towards a target in its buffer or FIFO; the landed flit. -/
def State.land (s : State) (k : Nat) (t : HopTarget) : State × Option Flit :=
  match s.circuits.find k with
  | none => (s, none)
  | some c => match t with
    | .node m =>
      let n := c.node m
      match n.wire with
      | [] => (s, none)
      | f :: r =>
        let g := s.arriving c n.tile f
        ({ s with circuits := s.circuits.put k (c.setNode m { n with wire := r, flits := n.flits ++ [g] }) }, some g)
    | .elementPort el p =>
      let x := s.element el
      let q := x.ports.getD p {}
      match q.wire with
      | [] => (s, none)
      | f :: r =>
        let f := s.arriving c (tileOf el) f
        let q := { q with wire := r, circuit := q.circuit ++ [f], order := if f.isEnd then q.order ++ [.circuit] else q.order }
        (s.putElement el { x with ports := x.ports.put p q }, some f)
    | .streamPort tl p =>
      let x := s.tile tl
      match x.wires.getD p [] with
      | [] => (s, none)
      | f :: r =>
        let f := s.arriving c tl f
        (s.putTile tl { x with wires := x.wires.put p r, fifos := x.fifos.put p (x.fifos.getD p [] ++ [f]) }, some f)
    | .sink tl => match c.sinkKey with
      | none => (s, none)
      | some key =>
        let x := s.tile tl
        match x.sinkWires.getD key [] with
        | [] => (s, none)
        | f :: r => (s.putTile tl { x with
            sinkWires := x.sinkWires.put key r, sinks := x.sinks.put key (x.sinks.getD key [] ++ [f]) }, some f)
    | .edge e => match s.edgeCircuit c e with
      | some (k2, c2) =>
        let n := c2.node 0
        match n.wire with
        | [] => (s, none)
        | f :: r =>
          let g := s.arriving c2 n.tile f
          ({ s with circuits := s.circuits.put k2 (c2.setNode 0 { n with wire := r, flits := n.flits ++ [g] }) }, some g)
      | none => (s, none)

/-! ## A flit that fails parity (12 R178) -/

/-- Flits, the oldest first, of which the newest is the one numbered `off + 1` from the end of what some place has sent, without
those whose numbers lie from `lo` to `hi`. -/
def cutRange (lo hi off : Int) (fs : List Flit) : List Flit :=
  (fs.zipIdx.filter fun x =>
    let n : Int := off + fs.length - x.2
    !(lo ≤ n && n ≤ hi)).map (·.1)

/-- The place that feeds a place of a circuit, over an edge where it is the first of its circuit. -/
def State.feeder (s : State) (k node : Nat) : Option (Nat × Nat) :=
  match s.circuits.find k with
  | none => none
  | some c => match c.nodes.find? fun m => m.2.targets.contains (.node node) with
    | some m => some (k, m.1)
    | none => match c.source with
      | .edgeIn g e => s.circuits.findSome? fun p =>
          if ((s.activation p.2.owner).map (·.gang)) = some (some g) then
            (p.2.nodes.find? fun m => m.2.targets.contains (.edge e)).map fun m => (p.1, m.1)
          else none
      | _ => none

/-- The source of a circuit from which a flit came to a place, back over an edge too, and the number of the flit among what that
source has sent, counted from the newest. -/
def State.climb : Nat → State → Nat → Nat → Int → Nat × Nat × Int
  | 0, _, k, node, n => (k, node, n)
  | fuel + 1, s, k, node, n => match s.feeder k node with
    | none => (k, node, n)
    | some p =>
      let x := ((s.circuits.find k).map fun c => c.node node).getD {}
      climb fuel s p.1 p.2 (n + x.flits.length + x.wire.length)

/-- What a target of a place holds without the flits numbered `lo` to `hi` of those that the circuit's source has sent, of which
`off` come after; the place that the target is, and how many flits come after what it has sent on. -/
def State.cutTarget (s : State) (lo hi off : Int) (k : Nat) (c : Circuit) : HopTarget → State × Option (Nat × Nat × Int)
  | .node m =>
    let n := c.node m
    let o := off + n.wire.length
    ({ s with circuits := s.circuits.put k (c.setNode m { n with
        flits := cutRange lo hi o n.flits, wire := cutRange lo hi off n.wire }) }, some (k, m, o + n.flits.length))
  | .elementPort el p =>
    let x := s.element el
    let q := x.ports.getD p {}
    let q : Port := { q with circuit := cutRange lo hi (off + q.wire.length) q.circuit, wire := cutRange lo hi off q.wire }
    (s.putElement el { x with ports := x.ports.put p q.reorder }, none)
  | .streamPort tl p =>
    let x := s.tile tl
    let w := x.wires.getD p []
    (s.putTile tl { x with
      fifos := x.fifos.put p (cutRange lo hi (off + w.length) (x.fifos.getD p [])),
      wires := x.wires.put p (cutRange lo hi off w) }, none)
  | .sink tl => match c.sinkKey with
    | none => (s, none)
    | some key =>
      let x := s.tile tl
      let w := x.sinkWires.getD key []
      (s.putTile tl { x with
        sinks := x.sinks.put key (cutRange lo hi (off + w.length) (x.sinks.getD key [])),
        sinkWires := x.sinkWires.put key (cutRange lo hi off w) }, none)
  | .edge e => match s.edgeCircuit c e with
    | none => (s, none)
    | some (k2, c2) =>
      let n := c2.node 0
      let o := off + n.wire.length
      ({ s with circuits := s.circuits.put k2 (c2.setNode 0 { n with
          flits := cutRange lo hi o n.flits, wire := cutRange lo hi off n.wire }) }, some (k2, 0, o + n.flits.length))

/-- Cut the flits numbered `lo` to `hi` out of everything that a place feeds, on every branch. -/
def State.dropBelow (lo hi : Int) : Nat → State → Nat → Nat → Int → State
  | 0, s, _, _, _ => s
  | fuel + 1, s, k, node, off =>
    match s.circuits.find k with
    | none => s
    | some c => (c.node node).targets.foldl (fun s t =>
        match s.circuits.find k with
        | none => s
        | some c =>
          let r := s.cutTarget lo hi off k c t
          match r.2 with
          | some p => dropBelow lo hi fuel r.1 p.1 p.2.1 p.2.2
          | none => r.1) s

/-- The direction of a link: 1 east, 2 west, 3 south, 4 north, and 0 within a tile (log 58). -/
def linkCode (from_ to_ : Nat) : Nat :=
  if from_ = to_ then 0 else if idX from_ < idX to_ then 1 else if idX to_ < idX from_ then 2
  else if idY from_ < idY to_ then 3 else 4

/-- The identifier and the port code of a circuit's source (13 R208). -/
def SourcePort.codes : SourcePort → Nat × Nat
  | .out el p => (el, 4 + p)
  | .elementMem el p => (el, 8 + p)
  | .tileMem t p => (t, 12 + p)
  | .edgeIn _ n => (0, 32 + n % 16)

/-- The flits still on the wire towards the targets of a place. -/
def State.wireOf (s : State) (c : Circuit) : HopTarget → List Flit
  | .node m => (c.node m).wire
  | .elementPort el p => ((s.element el).ports.getD p {}).wire
  | .streamPort t p => (s.tile t).wires.getD p []
  | .sink t => match c.sinkKey with
    | some key => (s.tile t).sinkWires.getD key []
    | none => []
  | .edge e => match s.edgeCircuit c e with
    | some (_, c2) => (c2.node 0).wire
    | none => []

/-- The tile where a target of a place stands. -/
def State.tileOfTarget (s : State) (c : Circuit) (dflt : Nat) : HopTarget → Nat
  | .node m => (c.node m).tile
  | .edge e => match s.edgeCircuit c e with
    | some (_, c2) => (c2.node 0).tile
    | none => dflt
  | t => targetTile dflt t

/-- A request whose flit is discarded is not performed. -/
def State.dropRequest (s : State) (c : Circuit) (f : Flit) : State :=
  match c.source with
  | .elementMem el p =>
    let x := s.element el
    let kept := (x.requests.getD p []).filter fun r => r.order ≠ f.data.toNat
    s.putElement el { x with requests := x.requests.put p kept }
  | _ => s

/-- Drop the flits of a token that its circuit's source has not sent yet. -/
def State.dropUnsent (s : State) (k node n : Nat) : State :=
  match s.circuits.find k with
  | none => s
  | some c =>
    let x := c.node node
    { s with circuits := s.circuits.put k (c.setNode node { x with
        flits := x.flits.drop n, wire := x.wire.drop (n - x.flits.length) }) }

/-- A flit that fails parity takes every other flit of its token with it, ahead and behind, on every branch of its circuit: the
flits of a branch are those that its source has sent, so they are found by their numbers from the newest. A fault is recorded
against the activation whose configuration bound the circuit: it names the circuit, and the tile and the link at which the check of
a branch failed (12 R178). -/
def State.dropToken (s : State) (k node branch : Nat) (f : Flit) : State :=
  match s.circuits.find k with
  | none => s
  | some c =>
    let n := c.node node
    let failed := n.targets.getD branch (.edge 0)
    let tile := s.tileOfTarget c n.tile failed
    let wire := s.wireOf c (n.targets.headD (.edge 0))
    let fuel := 1024 * (s.circuits.length + 1)
    let root := s.climb fuel k node (wire.length + 1)
    let lo := root.2.2 - (if f.vector then 7 - f.idx.toNat else 0 : Nat)
    let hi := root.2.2 + (if f.vector then f.idx.toNat else 0 : Nat)
    let s := s.dropUnsent root.1 root.2.1 (1 - lo).toNat
    let s := (s.dropBelow lo hi fuel root.1 root.2.1 0).dropRequest c f
    let src := c.source.codes
    s.report { record := match s.activation c.owner with
                 | some a => a.entry.va
                 | none => 0,
               unit := 6, asid := c.asid, colour := c.owner, identifier := tile, place := c.label }
      { code := 0x45, detail := BitVec.ofNat 8 (linkCode n.tile tile),
        address := BitVec.ofNat 64 (src.1 + 2 ^ 16 * src.2 + 2 ^ 24 * c.label) }

/-! ## Requests on the fabric (16 R250; log 58) -/

/-- Reply places that a request reserves (16 R250): an EYADD, a fence and a store only with a completion token. -/
def replyPlaces (r : MemRequest) : Nat :=
  match r.reply with
  | none => 0
  | some _ => match r.op with
    | .load _ => if r.size = 256 then 8 else 1
    | _ => 1

/-- The token as which a request travels to its request sink: it carries the number of the request, and takes eight flits
where the request carries more data than one flit. -/
def requestToken (r : MemRequest) : Token :=
  let carries := match r.op with
    | .store => true
    | .rowAdd .. => true
    | _ => false
  { kind := .data, vector := decide (32 < r.size) && carries, chan := r.reply.getD 0, ctx := r.ctx, colour := r.colour, iter := r.iter,
    data := BitVec.ofNat 2048 (if 32 < r.size then
      ((List.range 8).map fun i => r.order * 2 ^ (256 * i)).sum else r.order) }

/-- The places of a port's reply FIFO that are taken: by replies in it or on their way, and by requests that have left the
port and are not complete. -/
def State.replyTaken (s : State) (el mport : Nat) : Nat :=
  let x := s.element el
  let mine := (x.requests.getD mport []).filter (·.left) ++
    (s.memory.deferred.filterMap fun d => if d.2.1 = el && d.2.2.mport = mport then some d.2.2 else none) ++
    (s.memory.additions.filterMap fun d => match d.2.adder with
      | .element e r => if e = el && r.mport = mport then some r else none
      | _ => none)
  (x.ports.getD mport {}).reply.length + (mine.map replyPlaces).sum +
    ((x.replies.filter fun r => r.1 = mport).map fun r => (flitsOf r.2).length).sum

/-- A flit may leave its source: the first flit of a request only with places reserved for the whole reply (16 R250). -/
def State.mayLeave (s : State) (c : Circuit) (f : Flit) : Bool :=
  match c.source with
  | .elementMem el p => match ((s.element el).requests.getD p []).find? fun r => r.order = f.data.toNat with
    | some r => r.left || decide (s.replyTaken el p + replyPlaces r ≤ 8)
    | none => true
  | _ => true

/-- A request whose flits leave its port has left it. -/
def State.noteLeft (s : State) (c : Circuit) (f : Flit) : State :=
  match c.source with
  | .elementMem el p =>
    let x := s.element el
    let q := (x.requests.getD p []).map fun r => if r.order = f.data.toNat then { r with left := true } else r
    s.putElement el { x with requests := x.requests.put p q }
  | _ => s

/-! ## FLIT_HOP (12 R181, R182) -/

/-- A place of a circuit is ready: it has a flit and every branch may accept it (12 R181, R182). -/
def State.nodeReady (s : State) (c : Circuit) (node : Nat) : Bool :=
  let n := c.node node
  n.targets ≠ [] && n.targets.all (s.accepts c) && (match n.flits with
    | [] => false
    | f :: _ => node ≠ 0 || s.mayLeave c f)

/-- The links that a place's flits cross, over an edge too (12 R182, R190). -/
def State.linksOf (s : State) (c : Circuit) (n : HopNode) : List (Nat × Nat) :=
  c.nodeLinks n ++ n.targets.flatMap fun t => match t with
    | .edge e => match s.edgeCircuit c e with
      | some (_, c2) => c2.edgeLink
      | none => []
    | _ => []

/-- No place that is ready on one of the same links was served longer ago (12 R182). -/
def State.longestUnserved (s : State) (k node : Nat) : Bool :=
  match s.circuits.find k with
  | none => false
  | some c =>
    let n := c.node node
    let mine := s.linksOf c n
    s.circuits.all fun p => p.2.nodes.all fun m =>
      (p.1 = k && m.1 = node) || decide (n.served ≤ m.2.served) || !((s.linksOf p.2 m.2).any mine.contains) ||
      !s.nodeReady p.2 m.1

/-- FLIT_HOP: a flit is put on the wires of every branch, or the oldest flits on those wires land. -/
def execFlitHop (circuit node : Nat) (lands : Bool) (s : State) : Result :=
  match s.circuits.find circuit with
  | none => .fault .notEnabled
  | some c =>
    let n := c.node node
    if lands then
      let r := n.targets.foldl (fun (r : State × Option Flit) t =>
        let q := r.1.land circuit t
        (q.1, q.2.or r.2)) (s, none)
      match r.2 with
      | none => .fault .notEnabled
      | some f =>
        let struck := (List.range n.targets.length).filter fun i => r.1.upsets.contains (.flit circuit node i)
        if struck ≠ [] || f.par != parityOf f then
          let s := { r.1 with upsets := r.1.upsets.filter fun u => !(struck.map (Upset.flit circuit node)).contains u }
          .next (s.dropToken circuit node (struck.headD 0) f)
        else .next r.1
    else match n.flits with
      | [] => .fault .notEnabled
      | f :: rest =>
        if s.nodeReady c node && s.longestUnserved circuit node then
          let c := c.setNode node { n with flits := rest, served := s.tick + 1 }
          let s := { s with circuits := s.circuits.put circuit c }
          let s := if node = 0 then s.noteLeft c f else s
          .next (n.targets.foldl (fun s t => s.putWire circuit t f) s)
        else .fault .notEnabled

/-- Whether a port's FIFO and the places of its circuit hold no flit (12 R187). -/
def State.drained (s : State) (el port : Nat) (c : Circuit) : Bool :=
  let q := (s.element el).ports.getD port {}
  q.circuit = [] && q.wire = [] && c.nodes.all fun n => n.2.flits = [] && n.2.wire = []

/-- The places that the bound input ports of a tile take, with another depth for one of them (12 R186). -/
def State.poolNow (s : State) (tile el port depth : Nat) : Nat :=
  ((List.range 16).map fun e => ((s.element (tile + e)).ports.map fun p =>
    if tile + e = el ∧ p.1 = port then depth else p.2.depth).sum).sum

/-- DEPTH_CHANGE: a waiting depth takes effect once the port's circuit is drained and the tile's pool has the places, which a
decrease that still waits elsewhere has not given back (12 R186, R187). -/
def execDepthChange (el port : Nat) (s : State) : Result :=
  let x := s.element el
  let q := x.ports.getD port {}
  match q.newDepth, s.circuits.find? fun c => c.2.ends.contains (.elementPort el port) with
  | some d, some (_, c) =>
    if s.drained el port c && s.poolNow (tileOf el) el port d ≤ 512 then
      .next (s.putElement el { x with ports := x.ports.put port { q with depth := d, newDepth := none } })
    else .fault .notEnabled
  | _, _ => .fault .notEnabled

end Sys2Proof.Machine
end

