-- ==== Sys2Proof/Machine/Fetch.lean ====
section
/-! DEFINITION. Fetching the instruction of the unit with the turn, placing one there, and the passage of time. -/
namespace Sys2Proof.Machine

/-- What stands where the unit with the turn is. -/
inductive Fetched where
  | instr (i : Instr)
  | undecodable
  | nothing
  deriving DecidableEq, Repr

/-- LEN of a handler entry: its number of instructions less one (07 R100). -/
def entryLen (h : Word) : Nat := slice h.toNat 16 10
/-- OPS, OFF, PRIO, MSK and KP of a handler entry (07 R100). -/
def entryOps (h : Word) : Nat := slice h.toNat 20 17
def entryOff (h : Word) : Nat := slice h.toNat 9 0
def entryPrio (h : Word) : Nat := slice h.toNat 23 21
def entryMasked (h : Word) : Bool := h.getLsbD 24
def entryKeeps (h : Word) : Bool := h.getLsbD 25

/-- The next words of a block: its instruction with room for two extension words (05 R64). -/
def blockWords (x : Element) (b : Block) : List Word :=
  [x.code.getD b.word 0, x.code.getD (b.word + 1) 0, x.code.getD (b.word + 2) 0]

/-- A block has instructions left (07 R108). -/
def blockOpen (x : Element) (b : Block) : Bool := b.done ≤ entryLen (x.handlers.getD b.entry 0)

/-- The instruction an element's block is at; a BRK or TRAP that was answered CONTINUE reads as NOP once (25 R385). -/
def fetchBlock (x : Element) : Fetched :=
  match x.block with
  | none => .nothing
  | some b =>
    if blockOpen x b = false then .nothing
    else if b.asNop = some b.word then .instr .nop
    else match decode (blockWords x b) with
      | .ok (i, _) => .instr i
      | .error _ => .undecodable

/-- The step in the table that CC names (13 R210). -/
def Sequencer.entry (x : Sequencer) : StepEntry := (x.program.steps[x.cc]?).getD { first := 0, length := 0 }

/-- The instruction a sequencer's step is at; a word that is none, or that lies beyond the step's length, is an illegal
instruction (05 R67, 13 R200). -/
def fetchStep (q : SeqId) (x : Sequencer) : Fetched :=
  match x.step with
  | none => .nothing
  | some r =>
    if r.ended.isSome then .nothing
    else if x.entry.length ≤ r.word then .instr (.illegalInstruction q)
    else match decode [x.program.code.getD (x.entry.first + r.word) 0] with
      | .ok (i, _) => .instr i
      | .error _ => .instr (.illegalInstruction q)

/-- The instruction of the unit with the turn. -/
def fetched (s : State) : Fetched :=
  match s.focus with
  | .element el => fetchBlock (s.element el)
  | .sequencer q => match s.sequencer q with
    | some x => fetchStep q x
    | none => .nothing
  | .none => .nothing

/-- Put the words of an instruction where the next step fetches it. A word with an element opcode goes to the block of
element 0; any other word goes to the step of the region program of colour 1 (log 1). -/
def placeWords (s : State) (ws : List Word) : State :=
  if (ws.headD 0).toNat / 2 ^ 26 < 0x28 then
    let x := s.element 0
    let b := x.block.getD {}
    let code := ((x.code.put b.word (ws.getD 0 0)).put (b.word + 1) (ws.getD 1 0)).put (b.word + 2) (ws.getD 2 0)
    { s.putElement 0 { x with code := code, block := some { b with done := 0, asNop := none } } with
      focus := .element 0 }
  else
    let a := (s.activation 1).getD { colour := 1, x0 := 2, y0 := 1, phase := .running }
    let q := { a.seq with
      program := { steps := [{ first := 0, length := 1 }], code := [(0, ws.headD 0)] },
      cc := 0, step := some {}, running := true }
    { s.putActivation { a with seq := q } with focus := .sequencer (.region 1) }

/-! ## Time -/

/-- Time passes: the tick of the free values, the cycle counter, and the physical errors that strike (logs 2 to 4). -/
def State.pass (s : State) : State :=
  { s with tick := s.tick + 1, cycle := s.cycle + Config.elapsed s.tick, upsets := s.upsets ++ (Config.upset s.tick).toList }

def passing : Result → Result
  | .next s => .next s.pass
  | .fault f => .fault f
  | .refused r => .refused r

/-- A free choice of something that cannot happen changes nothing (log 1). -/
def lenient (s : State) : Result → Result
  | .fault .notEnabled => .next s
  | .fault .noUnit => .next s
  | r => r

/-- The work of the host die and of the cache dies, which goes on when a fatal error has stopped the compute dies (26 R417): reset,
registers, attestation, resets of a function, and what the host does with memory and the LLC (log 74). -/
def isHostEvent : Instr → Bool
  | .reset | .monitorRead .. | .registerWrite .. | .fqovfClear .. | .ovlcntClear .. | .mailboxGo .. | .attestationReportDone ..
  | .functionLevelReset .. | .hostMemoryAccess .. | .llcinjArm .. | .llcopClean .. | .llcopCleanInvalidate .. | .selfTestPass ..
  | .powerSample .. => true
  | _ => false

/-- The work of the host die or of a cache die that comes next when the compute dies have stopped, whatever unit had the turn. -/
def hostWork (s : State) : Option Instr :=
  match s.agenda with
  | i :: _ => if isHostEvent i then some i else none
  | [] => match Config.schedule s.tick with
    | .event i => if isHostEvent i then some i else none
    | _ => none

/-- The compute dies stay stopped. -/
def staysHalted : Result → Result
  | .next s => .next { s with halted := true }
  | r => r

end Sys2Proof.Machine
end

