-- ==== Sys2Proof/Machine/ElementEvents.lean ====
section
/-! DEFINITION. The events of an element: arrival of tokens, CONF and CTRL tokens, the choice of a block, its commit with
checked firing, promotion and deadlock (07 R101 to R113; 26 R410 to R412; 25 R396). -/
namespace Sys2Proof.Machine

/-! ## The head of a port -/

/-- The oldest whole token of a port and the port behind it (07 R102, 16 R250). -/
def Port.head (q : Port) : Option (Token × Port) :=
  match q.order with
  | [] => none
  | f :: rest => match f with
    | .circuit => (headToken q.circuit).map fun h => (h.1, { q with circuit := h.2, order := rest })
    | .reply => (headToken q.reply).map fun h => (h.1, { q with reply := h.2, order := rest })
    | .remote => (headToken q.remote).map fun h => (h.1, { q with remote := h.2, order := rest })

/-- The context is enabled (07 R98). -/
def ctxEnabled (x : Element) (c : Nat) : Bool := (x.ctxOf c).word.getLsbD 22
def hbase (x : Element) (c : Nat) : Nat := slice (x.ctxOf c).word.toNat 4 0
def hspan (x : Element) (c : Nat) : Nat := slice (x.ctxOf c).word.toNat 9 5
def pcls (x : Element) (c : Nat) : Nat := slice (x.ctxOf c).word.toNat 21 19

/-- The handler entry that a channel of a context selects, unless it is none (07 R100, R101). -/
def handlerFor (x : Element) (c chan : Nat) : Option Nat :=
  let e := hbase x c + chan
  if ctxEnabled x c && chan ≤ hspan x c && x.handlers.getD e 0 ≠ 0 then some e else none

/-- A fault recorded against the activation of a token's colour (07 R101, R105, R106; 25 R381). -/
def State.recordAtElement (s : State) (el : Nat) (t : Token) (code : BitVec 8) : State :=
  match s.activation t.colour.toNat with
  | some a => s.report
      { record := a.entry.va, unit := 0, asid := a.entry.asid, slot := t.ctx.toNat, colour := a.colour, identifier := el,
        iteration := s.iterationOf a t.iter } { code := code }
  | none => s.report { unit := 0, slot := t.ctx.toNat, colour := t.colour.toNat, identifier := el, iteration := t.iter.toNat }
      { code := code }

/-- Run an event on the head token of a port: the port moves past it. -/
def onHead (s : State) (el port : Nat) (f : State → Element → Token → Option State) : Result :=
  let x := s.element el
  match (x.ports.getD port {}).head with
  | none => .fault .notEnabled
  | some (t, q) => occursIf (f s { x with ports := x.ports.put port q } t)

/-- TOKEN_ARRIVAL (07 R101, R102): a DATA or LAST token enters a free slot, or is discarded with a record. -/
def execTokenArrival (el port : Nat) (s : State) : Result :=
  onHead s el port fun s x t =>
    if t.kind = .conf || t.kind = .ctrl then none
    else match handlerFor x t.ctx.toNat t.chan.toNat with
      | none => some ((s.putElement el x).recordAtElement el t 0x44)
      | some _ =>
        if 64 ≤ x.slots.length then none
        else
          let sl : Slot := { port := port, token := t, order := x.arrivals, since := s.cycle }
          some (s.putElement el { x with slots := x.slots ++ [sl], arrivals := x.arrivals + 1 })

/-- CONF_TOKEN (07 R105): between blocks, once nothing earlier of its context waits from the same port. -/
def execConfToken (el port : Nat) (s : State) : Result :=
  onHead s el port fun s x t =>
    if t.kind ≠ .conf then none
    else if !ctxEnabled x t.ctx.toNat then some ((s.putElement el x).recordAtElement el t 0x44)
    else if x.block.isSome || x.slots.any (fun sl => sl.port = port && sl.token.ctx = t.ctx) then none
    else
      let w0 := (vecWord t.data 0).toNat
      if !t.vector || 256 ≤ w0 then some ((s.putElement el x).recordAtElement el t 0x43)
      else
        let set := slice (x.ctxOf t.ctx.toNat).word.toNat 17 15
        let scales := (List.range 8).foldl (fun (m : Tab Word) i =>
          if w0 / 2 ^ i % 2 = 1 then m.put (8 * set + i) (vecWord t.data (1 + i)) else m) x.scales
        some (s.putElement el { x with scales := scales })

/-- CTRL_TOKEN (07 R106): sets or clears MSK, or discards the colour's slots of the handler. A block that executes on discarded slots
goes on and commits, with nothing left to retain, where the spec is silent (DESIGN CHOICE, log 61). -/
def execCtrlToken (el port : Nat) (s : State) : Result :=
  onHead s el port fun s x t =>
    if t.kind ≠ .ctrl then none
    else match handlerFor x t.ctx.toNat t.chan.toNat with
      | none => some ((s.putElement el x).recordAtElement el t 0x44)
      | some e =>
        let h := x.handlers.getD e 0
        let action := (vecWord t.data 0).toNat % 4
        if action = 0 then some (s.putElement el { x with handlers := x.handlers.put e (h ||| 0x1000000) })
        else if action = 1 then some (s.putElement el { x with handlers := x.handlers.put e (h &&& ~~~0x1000000) })
        else if action = 2 then
          let goes (sl : Slot) : Bool := sl.token.ctx = t.ctx && sl.token.chan = t.chan && sl.token.colour = t.colour
          some (s.putElement el (x.withoutSlots goes s.cycle))
        else some ((s.putElement el x).recordAtElement el t 0x43)

/-! ## Matches and candidates (07 R103, R107) -/

/-- A complete match: its handler, its operands by port, the cycle from which it is complete, the cycle from which it gains
promotion, and an identifier: the latest arrival among its operands. -/
structure Candidate where
  ctx : Nat
  entry : Nat
  colour : BitVec 16
  iter : BitVec 16
  operands : Tab Slot
  complete : Nat
  since : Nat
  id : Nat
  deriving DecidableEq, Repr, Inhabited

def sameKey (a b : Token) : Bool := a.ctx = b.ctx && a.chan = b.chan && a.colour = b.colour && a.iter = b.iter

/-- The slots of a key on a port, in the order of their arrival. -/
def keySlots (x : Element) (t : Token) (port : Nat) : List Slot :=
  x.slots.filter fun sl => sl.port = port && sameKey sl.token t
/-- The ports of an entry's OPS. -/
def opsPorts (h : Word) : List Nat := (List.range 4).filter fun i => entryOps h / 2 ^ i % 2 = 1

/-- The complete match that a slot of its first port opens: the slots of each port in their order of arrival belong to the
matches of the key, the oldest ones to the oldest match. -/
def matchOf (x : Element) (sl : Slot) : Option Candidate :=
  match handlerFor x sl.token.ctx.toNat sl.token.chan.toNat with
  | none => none
  | some e =>
    let ports := opsPorts (x.handlers.getD e 0)
    let nth := (keySlots x sl.token sl.port).findIdx fun q => q.order = sl.order
    let found := ports.filterMap fun p => (keySlots x sl.token p)[nth]?.map fun q => (p, q)
    if found.length ≠ ports.length then none
    else if (found.map fun f => f.2.order).head? ≠ some sl.order then none
    else
      let complete := found.foldl (fun m f => max m f.2.since) 0
      let id := latestOf found
      some
        { ctx := sl.token.ctx.toNat, entry := e, colour := sl.token.colour, iter := sl.token.iter, operands := found,
          complete := complete, since := max complete (x.anew.getD id 0), id := id }

/-- The match whose block executes. -/
def executing (x : Element) (k : Candidate) : Bool :=
  match x.block with
  | some b => k.operands.map (·.2.order) = b.operands.map (·.2.order)
  | none => false
/-- The complete matches of an element (07 R103). -/
def completeMatches (x : Element) : List Candidate := x.slots.filterMap (matchOf x)
/-- The candidates of an element: every complete match that is not executing. -/
def candidates (x : Element) : List Candidate := (completeMatches x).filter fun k => !executing x k

/-- 8 × PCLS + PRIO plus the promotion, up to level 63. -/
def candidateLevel (x : Element) (k : Candidate) : Nat :=
  min 63 (8 * pcls x k.ctx + entryPrio (x.handlers.getD k.entry 0) + x.promotions.getD k.id 0)

/-- A full 1,024 cycles have passed for which the candidate has not gained its level yet. -/
def promotionDue (now : Nat) (x : Element) (k : Candidate) : Bool :=
  candidateLevel x k < 63 && x.promotions.getD k.id 0 < (now - k.since) / 1024

/-- PROMOTION: a candidate gains one level. -/
def execPromotion (el cand : Nat) (s : State) : Result :=
  let x := s.element el
  match (candidates x).find? fun k => k.id = cand with
  | some k => occurs (promotionDue s.cycle x k)
      (s.putElement el { x with promotions := x.promotions.put cand (x.promotions.getD cand 0 + 1) })
  | none => .fault .notEnabled

/-- The iteration of a match lies below a late fault of its activation (25 R396, step 1). -/
def State.belowLate (s : State) (k : Candidate) : Bool :=
  match s.activation k.colour.toNat with
  | none => false
  | some a => match a.late with
    | some l => s.iterationOf a k.iter < l.m
    | none => true

/-- A candidate may be chosen: its handler is not masked, its context is not held, its activation runs, the iteration
lies below a late fault, no pre-emption waits (18 R300), and a grant stands in step mode (18 R302). -/
def State.selectable (s : State) (x : Element) (k : Candidate) : Bool :=
  !entryMasked (x.handlers.getD k.entry 0) && (x.ctxOf k.ctx).held.isNone && s.belowLate k &&
  (match s.activation k.colour.toNat with
   | none => false
   | some a =>
     !a.cancelled && !s.givesWay a && (a.phase = .running || a.phase = .finishing) && (!a.stepMode || 0 < x.grants))

/-- Whether a candidate goes before another (07 R107, rules 1 to 4; then the earlier arrival). -/
def goesBefore (x : Element) (a b : Candidate) : Bool :=
  let la := candidateLevel x a
  let lb := candidateLevel x b
  let fa := x.lastFired = some (a.ctx, a.entry)
  let fb := x.lastFired = some (b.ctx, b.entry)
  if la ≠ lb then lb < la
  else if a.complete ≠ b.complete then a.complete < b.complete
  else if fa ≠ fb then fb
  else if a.entry ≠ b.entry then a.entry < b.entry
  else a.id ≤ b.id

def bestOf (x : Element) : List Candidate → Option Candidate
  | [] => none
  | k :: ks => match bestOf x ks with
    | none => some k
    | some m => some (if goesBefore x k m then k else m)

/-- The match that an element must try again after a mismatch, unless a late fault keeps its iteration back (26 R411; 25 R396).
Neither a pre-emption nor a cancel does. -/
def State.retryOf (s : State) (x : Element) : Option (Candidate × Nat) :=
  match x.again with
  | some (orders, attempt) =>
    ((candidates x).find? fun k => k.operands.map (·.2.order) = orders && s.belowLate k).map fun k => (k, attempt)
  | none => none
/-- The match an element must try again, else its best candidate. -/
def State.choice (s : State) (x : Element) : Option (Candidate × Nat) :=
  (s.retryOf x).or ((bestOf x ((candidates x).filter (s.selectable x))).map fun k => (k, 0))

/-- A block at its entry (07 R108, R109). -/
def startBlock (x : Element) (k : Candidate) (attempt : Nat) : Block :=
  let c := x.ctxOf k.ctx
  let asNop := (x.contNop.find? fun g => k.operands.map (·.2.order) = g.1).map (·.2)
  { ctx := BitVec.ofNat 3 k.ctx, entry := k.entry, colour := k.colour, iter := k.iter, operands := k.operands,
    word := entryOff (x.handlers.getD k.entry 0), temps := c.temps, preds := c.preds, acc := c.acc, accFp := c.accFp,
    cursor := c.cursor, attempt := attempt, asNop := asNop }

/-- BLOCK_SELECT (07 R107): an idle element whose promotions are all given chooses its next block. -/
def execBlockSelect (el : Nat) (s : State) : Result :=
  let x := s.element el
  if x.block.isSome || (candidates x).any (promotionDue s.cycle x) then .fault .notEnabled
  else match s.choice x with
    | none => .fault .notEnabled
    | some (k, attempt) =>
      let b := startBlock x k attempt
      .next (s.putElement el { x with
        block := some b,
        again := none,
        contNop := x.contNop.filter fun g => k.operands.map (·.2.order) ≠ g.1,
        promotions := x.promotions.drop k.id,
        anew := x.anew.drop k.id,
        lastFired := some (k.ctx, k.entry),
        grants := x.grants - 1 })

/-- TAG_STORE_DEADLOCK (07 R104): all slots full, nothing runnable, nothing released for 65,536 cycles. Every colour that
holds a slot is named by a record, and its activation ends. -/
def execTagStoreDeadlock (el : Nat) (s : State) : Result :=
  let x := s.element el
  occurs (x.slots.length = 64 && (completeMatches x).isEmpty && 65536 ≤ s.cycle - x.lastRelease)
    (((x.slots.map fun sl => sl.token).foldl (fun (m : Tab Token) t => m.put t.colour.toNat t) []).foldl
      (fun s c => (s.recordAtElement el c.2 0x46).cancelActivation c.1 0x46)
      (s.putElement el { x with lastRelease := s.cycle }))

/-! ## Commit (07 R111, R113; 10 R157, R168; 13 R197; 15 R241) -/

/-- A LAST token on the channel of an edge-bound buffer of the region ends its reservation (15 R241). -/
def State.endEdgeBuffer (s : State) (el : Nat) (t : Token) : State :=
  if t.kind ≠ .last then s
  else match s.activationAt el with
    | some a => s.putActivation { a with edgeBuffers := a.edgeBuffers.filter fun e => e.chan ≠ t.chan }
    | none => s

/-- Release one staged effect. -/
def commitEffect (el : Nat) (s : State) (e : BlockEffect) : State :=
  match e with
  | .send out t => (s.emit (.out el out) [t]).endEdgeBuffer el t
  | .message dest flits t =>
    let m : Message :=
      { dest := dest, source := el, sender := ((s.activationAt el).map (·.colour)).getD 0,
        order := (s.element el).issued, token := t, flits := flits, born := s.cycle, die := idDie el }
    ({ s with welt := { s.welt with messages := s.welt.messages ++ [m] } }).endEdgeBuffer el t
  | .request r =>
    let x := s.element el
    let r := { r with order := x.issued, at_ := s.tick }
    (s.putElement el { x with
      requests := x.requests.put r.mport (x.requests.getD r.mport [] ++ [r]),
      issued := x.issued + 1 }).emit (.elementMem el r.mport) [requestToken r]
  | .scale k v =>
    let x := s.element el
    s.putElement el { x with scales := x.scales.put k v }
  | .tableRow row v =>
    let x := s.element el
    s.putElement el { x with table := x.table.put row v, reloadable := none }

/-- Whether the operand of a port stays at commit: the partial of an open chunk stays, else the last decision of the
block stands, else KP (07 R111; 10 R157; 13 R197). -/
def operandStays (h : Word) (b : Block) (port : Nat) : Bool :=
  (b.partials.contains port && !b.partials.contains (port + 4)) || (b.keeps.find port).getD (entryKeeps h)

/-- The operands that a commit releases leave their slots. A match that the others come to belong to is complete from now on, and
gains its promotion from now on (07 R107, R111). -/
def releaseOperands (x : Element) (b : Block) (now : Nat) : Element :=
  let h := x.handlers.getD b.entry 0
  let goes (sl : Slot) : Bool := b.operands.any fun o => o.2.order = sl.order && !operandStays h b o.1
  let orders (k : Candidate) : List Nat := k.operands.map (·.2.order)
  let before := ((completeMatches x).map orders).filter (· ≠ b.operands.map (·.2.order))
  let y := { x with
    lastRelease := if x.slots.any goes then now else x.lastRelease,
    slots := x.slots.filter fun sl => !goes sl }
  let formed := (completeMatches y).filter fun k => !before.contains (orders k)
  let inFormed (sl : Slot) : Bool := formed.any fun k => (orders k).contains sl.order
  { y with
    slots := y.slots.map fun sl => if inFormed sl then { sl with since := now } else sl,
    promotions := formed.foldl (fun m k => m.drop k.id) y.promotions,
    anew := formed.foldl (fun m k => m.drop k.id) y.anew }

/-- The context after a commit: its temporaries, predicates, accumulators and cursor, and the events in its status. -/
def commitContext (k : ElementCtx) (b : Block) : ElementCtx := { k with
  temps := b.temps, preds := b.preds, acc := b.acc, accFp := b.accFp, cursor := b.cursor, status := k.status ||| b.events }

/-- A block commits: everything staged takes effect in program order, and its operands are released. -/
def commitBlock (s : State) (el : Nat) (b : Block) : State :=
  let x := s.element el
  let x := (releaseOperands { x with block := none } b s.cycle).putCtx b.ctx.toNat (commitContext (x.ctxOf b.ctx.toNat) b)
  (b.effects.foldl (commitEffect el) (s.putElement el x)).settleQuarantine el

/-! ## Step mode (18 R302, 25 R405) -/

/-- Nothing more may run under a grant: the sequencer has used it or can start nothing, and each element has fired or
has nothing to choose. -/
def State.grantSpent (s : State) (a : Activation) : Bool :=
  (a.stepGrants = 1 || (a.seq.step.isNone && (a.seq.wait != .none || !a.seq.running || a.seq.held.isSome))) &&
  a.seq.step.isNone &&
  a.elements.all fun e =>
    let x := s.element e
    x.block.isNone && (s.choice x).isNone

/-- An activation in step mode has a grant that is spent. -/
def State.grantEnds (s : State) (a : Activation) : Bool := a.stepMode && 0 < a.stepGrants && s.grantSpent a

/-- The step-done record once a grant is spent (25 R405); the grant is over for all of the activation. -/
def State.closeGrant (s : State) (colour : Nat) : State :=
  match s.activation colour with
  | none => s
  | some a =>
    if s.grantEnds a then
      let s := a.elements.foldl (fun s e => s.putElement e { s.element e with grants := 0 }) s
      (s.mapActivation colour fun a => { a with stepGrants := 0 }).report (s.stepSite (.region colour) a.seq.cc 0) { code := 0x73 }
    else s

/-- What a block of a colour has staged is discarded. -/
def State.stopping (s : State) (colour : Nat) (second : Bool) : Bool :=
  match s.activation colour with
  | some a => a.discards second
  | none => true

/-- BLOCK_COMMIT: a block whose instructions are done commits; a firing that mismatches abandons it and is tried once
more, and a second mismatch kills the activation (26 R411, 19 R316). The block of a cancelled activation is abandoned, unless it is
a second attempt, for which a cancel waits. -/
def execBlockCommit (el : Nat) (s : State) : Result :=
  let x := s.element el
  match x.block with
  | none => .fault .notEnabled
  | some b =>
    if blockOpen x b then .fault .notEnabled
    else if s.stopping b.colour.toNat (b.attempt ≠ 0) then .next ((s.putElement el { x with block := none }).settleQuarantine el)
    else if s.upsets.contains (.elementFiring el) then .next (s.blockMismatch el b)
    else .next ((commitBlock s el b).closeGrant b.colour.toNat)

end Sys2Proof.Machine
end

