-- ==== Sys2Proof/Machine/Flags.lean ====
section
/-! DEFINITION. The events of the lane instructions and accumulators (04 R49, R50, R57; 07 R113, R116) and the wraps and
clamps that raise them. -/
namespace Sys2Proof.Machine

/-- The bits of a status word (07 R116). -/
def evVof : Word := 1
def evVsat : Word := 2
def evVnv : Word := 4
def evAof : Word := 8
def evAsat : Word := 16
def evAnv : Word := 32

/-- The least and the greatest value of a type of `w` bits (04 R48). -/
def typeMin (signed : Bool) (w : Nat) : Int := if signed then -(2 ^ (w - 1) : Nat) else 0
def typeMax (signed : Bool) (w : Nat) : Int := if signed then (2 ^ (w - 1) : Nat) - 1 else (2 ^ w : Nat) - 1

/-- The low `w` bits of an exact result: wrap (04 R49). -/
def wrapTo (w : Nat) (x : Int) : Nat := (x % (2 ^ w : Nat)).toNat

/-- The exact result clamped to a type's range (04 R49). -/
def clampTo (signed : Bool) (w : Nat) (x : Int) : Int :=
  if x < typeMin signed w then typeMin signed w else if typeMax signed w < x then typeMax signed w else x

/-- Whether a clamp changes the value. -/
def clampChanges (signed : Bool) (w : Nat) (x : Int) : Bool := x < typeMin signed w || typeMax signed w < x

/-- An exact result narrowed to a type: wrap, or clamp with SAT (04 R49). -/
def narrow (sat signed : Bool) (w : Nat) (x : Int) : Nat × Word :=
  if sat then (wrapTo w (clampTo signed w x), if clampChanges signed w x then evVsat else 0) else (wrapTo w x, 0)

/-- An accumulator of `w` bits after an addition: wrap with OF (04 R50). -/
def accAdd (w : Nat) (acc : Nat) (x : Int) : Nat × Word :=
  let y := signedOf w acc + x
  (wrapTo w y, if clampChanges true w y then evAof else 0)

/-- The events of a block go into its context's status word at commit (07 R113). -/
def ElementCtx.raise (k : ElementCtx) (e : Word) : ElementCtx := { k with status := k.status ||| e }

end Sys2Proof.Machine
end

