-- ==== Sys2Proof/Machine/Scalar.lean ====
section
/-! DEFINITION. The scalar, branch and memory instructions of the sequencers (05 R82 to R84; 13 R202 to R205). -/
namespace Sys2Proof.Machine

/-- A step instruction that writes one register from two (13 R202). -/
def alu (s : State) (o : QA) (f : DWord → DWord → DWord) : Result :=
  inStepRegs s fun x => x.setReg o.d.toNat (f (x.reg o.a.toNat) (x.reg o.b.toNat))

def execSadd (o : QA) (s : State) : Result := alu s o fun a b => a + b
def execSsub (o : QA) (s : State) : Result := alu s o fun a b => a - b
def execSmul (o : QA) (s : State) : Result := alu s o fun a b => a * b
def execSand (o : QA) (s : State) : Result := alu s o fun a b => a &&& b
def execSor (o : QA) (s : State) : Result := alu s o fun a b => a ||| b
def execSxor (o : QA) (s : State) : Result := alu s o fun a b => a ^^^ b
def execSshl (o : QA) (s : State) : Result := alu s o fun a b => if 64 ≤ b.toNat then 0 else a <<< b.toNat
def execSshr (o : QA) (s : State) : Result := alu s o fun a b => if 64 ≤ b.toNat then 0 else a >>> b.toNat
def execSsar (o : QA) (s : State) : Result :=
  alu s o fun a b => a.sshiftRight (if 64 ≤ b.toNat then 63 else b.toNat)
def execSmin (o : QA) (s : State) : Result := alu s o fun a b => if a.toInt ≤ b.toInt then a else b
def execSmax (o : QA) (s : State) : Result := alu s o fun a b => if a.toInt ≤ b.toInt then b else a
def execSmov (o : QA) (s : State) : Result := alu s o fun a _ => a

/-- A step instruction that writes one register from another and its immediate (05 R82, 13 R203). -/
def aluImm (s : State) (o : QI) (f : DWord → DWord) : Result :=
  inStepRegs s fun x => x.setReg o.d.toNat (f (x.reg o.a.toNat))

def execSli (o : QI) (s : State) : Result := aluImm s o fun _ => o.imm.signExtend 64
def execSaddi (o : QI) (s : State) : Result := aluImm s o fun a => a + o.imm.signExtend 64
def execSandi (o : QI) (s : State) : Result := aluImm s o fun a => a &&& o.imm.signExtend 64
def execSlih (o : QI) (s : State) : Result := aluImm s o fun a => a * 0x4000 + o.imm.setWidth 64

/-! ## Branches (05 R84) -/

/-- The conditions eq, ne, lt, ge, ltu, geu. -/
def branchCond (c : BitVec 4) (a b : DWord) : Bool :=
  match c.toNat with
  | 0 => a = b
  | 1 => a ≠ b
  | 2 => a.toInt < b.toInt
  | 3 => b.toInt ≤ a.toInt
  | 4 => a.toNat < b.toNat
  | _ => b.toNat ≤ a.toNat

/-- The lowest step whose first word is at a place of the code. -/
def stepAt (steps : List StepEntry) (place : Int) : Option Nat :=
  steps.findIdx? fun e => (e.first : Int) = place

/-- Take or do not take a branch: within the step it continues there; to another step's first word it ends the step;
any other taken target is an illegal instruction. -/
def branch (s : State) (x : Sequencer) (r : StepRun) (off : BitVec 14) (taken : Bool) : StepResult :=
  let e := x.entry
  let target : Int := (e.first : Int) + r.word + off.toInt
  if !taken then .ok s x r
  else if (e.first : Int) ≤ target ∧ target < (e.first + e.length : Nat) then
    .jump s x { r with word := (target - e.first).toNat }
  else match stepAt x.program.steps target with
    | some k => endStep s x r (.branch k)
    | none => .exc s (illegalInfo false)

def execBr (cond : BitVec 4) (o : QB) (s : State) : Result :=
  inStep s fun s _ _ x r => branch s x r o.off (branchCond cond (x.reg o.a.toNat) (x.reg o.b.toNat))
def execJmp (o : QB) (s : State) : Result := inStep s fun s _ _ x r => branch s x r o.off true
def execLoop (o : QB) (s : State) : Result :=
  inStep s fun s _ _ x r =>
    let v := x.reg o.a.toNat - 1
    branch s (x.setReg o.a.toNat v) r o.off (v ≠ 0)

/-! ## Memory (05 R83; 13 R199, R205) -/

/-- The byte that the staged stores of a step put at an address, if one does (13 R199). -/
def stagedByte (es : List StepEffect) (va : Nat) : Option Byte :=
  es.foldl (fun acc e => match e with
    | .store a _ n v _ => if a ≤ va ∧ va < a + n then some (v.extractLsb' (8 * (va - a)) 8) else acc
    | _ => acc) none

/-- Bytes read from memory, with those of the step's own stores in their place. -/
def overlay (es : List StepEffect) (va : Nat) (bs : List Byte) : List Byte :=
  bs.mapIdx fun i b => (stagedByte es (va + i)).getD b

/-- What a sequencer's read gives: the bytes, a wait for full words, or a fault. -/
inductive ReadOutcome where
  | bytes (s : State) (bs : List Byte)
  | waits
  | fault (s : State) (i : FaultInfo)

/-- The access checks of QMEM: alignment, region records, translation, tier and retired frames (13 R205). -/
def checkQmem (s : State) (a : Activation) (u : RecordUse) (va size align : Nat) : Except FaultInfo Leaf :=
  if va % align ≠ 0 then .error { code := 0x21, flags := useFlags u, address := BitVec.ofNat 64 va }
  else checkAccess s a u va size

/-- Bytes of a range of one page, read through a tile's cache sector by sector. -/
def readSectors (tile asid colour : Nat) (mt : MemType) : Nat → State → Nat → Nat → List Byte → State × Option (List Byte)
  | 0, s, _, _, acc => (s, some acc)
  | fuel + 1, s, pa, n, acc =>
    if n = 0 then (s, some acc)
    else
      let k := min n (128 - pa % 128)
      match s.tileRead tile asid colour pa k mt with
      | (s', none) => (s', none)
      | (s', some bs) => readSectors tile asid colour mt fuel s' (pa + k) (n - k) (acc ++ bs)

/-- The read of SLD, SPAWN and CHAIN, when the instruction executes (13 R205, 16 R260, 17 R279). -/
def readStep (s : State) (q : SeqId) (a : Activation) (r : StepRun) (va size align : Nat) : ReadOutcome :=
  match checkQmem s a .read va size align with
  | .error f => .fault s f
  | .ok l =>
    let s := s.cacheLeaf a.entry.asid va l
    if l.fullEmpty ∧ s.everyFull l.pa size = false then .waits
    else
      let mt := if l.fullEmpty then .device else l.mtype
      match readSectors (seqTile a q) a.entry.asid a.colour mt 4 s l.pa size [] with
      | (s', some bs) => .bytes s' (overlay r.effects va bs)
      | (s', none) => .fault s' { code := 0x26, address := BitVec.ofNat 64 va }

/-- The bytes of an SLD's type, and whether it is signed: i8, i16, i32, i64, n8, n16, n32. -/
def sldSize (fn : Nat) : Nat := if fn = 3 then 8 else 2 ^ (fn % 4)
def sldValue (fn n : Nat) : DWord :=
  if fn < 4 then BitVec.ofInt 64 (signedOf (8 * sldSize fn) n) else BitVec.ofNat 64 n

/-- The address s(a) + sext(imm) (05 R83). -/
def qmemAddress (x : Sequencer) (o : QI) : Nat := (x.reg o.a.toNat + o.imm.signExtend 64).toNat

def execSld (fn : BitVec 4) (o : QI) (s : State) : Result :=
  inStep s fun s q a x r =>
    let n := sldSize fn.toNat
    match readStep s q a r (qmemAddress x o) n n with
    | .bytes s' bs => .ok s' (x.setReg o.d.toNat (sldValue fn.toNat (natOfBytes bs))) r
    | .waits => .waits
    | .fault s' f => .exc s' f

def execSst (fn : BitVec 4) (o : QI) (s : State) : Result :=
  inStep s fun s _ a x r =>
    let n := 2 ^ (fn.toNat % 4)
    match checkQmem s a .write (qmemAddress x o) n n with
    | .error f => .exc s f
    | .ok l => stage (s.cacheLeaf a.entry.asid (qmemAddress x o) l) x r
        (.store (qmemAddress x o) l.home n (x.reg o.d.toNat) r.word)

def execSatom (fn : BitVec 4) (o : QI) (s : State) : Result :=
  inStep s fun s _ a x r =>
    match checkQmem s a .atomic (qmemAddress x o) 8 8 with
    | .error f => .exc s f
    | .ok l => stage (s.cacheLeaf a.entry.asid (qmemAddress x o) l) x r
        (.atom (qmemAddress x o) l.home (fn.toNat % 4) o.d.toNat (x.reg o.d.toNat) r.word)

end Sys2Proof.Machine
end

