-- ==== Sys2Proof/Machine/Region.lean ====
section
/-! DEFINITION. The configuration and stream instructions of the sequencers, and the checks of nests, ports and banks that
they and their commits make (12 R186; 13 R211 to R225; 15 R241; 16 R271; 19 R304). -/
namespace Sys2Proof.Machine

/-- An instruction that stream code may not execute (13 R225). -/
def inRegionStep (s : State) (f : State → Nat → Activation → Sequencer → StepRun → StepResult) : Result :=
  inStep s fun s q a x r => match q with
    | .region c => f s c a x r
    | .stream _ => .exc s (illegalInfo false)

/-! ## Nests (13 R209, R221 to R224) -/

/-- The number of words of a nest. -/
def Nest.words (n : Nest) : Nat := n.counts.foldl (· * ·) 1
/-- The address of word `m`: level 0 varies fastest (13 R209). -/
def nestOffset : Nat → List Nat → List Int → Int
  | _, [], _ => 0
  | m, c :: cs, ss => ((m % c : Nat) : Int) * ss.headD 0 + nestOffset (m / c) cs ss.tail
def Nest.address (n : Nest) (m : Nat) : Int := (n.base.toNat : Int) + nestOffset m n.counts n.strides
/-- The lowest and the highest word address that a nest can form. -/
def nestSpan : List Nat → List Int → Int × Int
  | [], _ => (0, 0)
  | c :: cs, ss =>
    let r := nestSpan cs ss.tail
    let reach : Int := ((c - 1 : Nat) : Int) * ss.headD 0
    (r.1 + min 0 reach, r.2 + max 0 reach)
/-- The first byte of a nest's footprint and its length. -/
def Nest.footprint (n : Nest) : Int × Nat :=
  let r := nestSpan n.counts n.strides
  ((n.base.toNat : Int) + r.1, (r.2 - r.1).toNat + 4)

/-- A range of scratch that an edge-bound ACCEPT of the activation reserves (15 R241). -/
def edgeBoundHits (a : Activation) (lo : Int) (n : Nat) : Bool :=
  a.edgeBuffers.any fun e => decide (e.base < lo + n ∧ lo < e.base + e.length)

/-- The first byte of a range on each page. -/
def pageStarts (va n : Nat) : List Nat :=
  ((List.range ((va + n + 65535) / 65536 - va / 65536)).map fun i => max va (va / 65536 * 65536 + 65536 * i)).filter (· < va + n)

/-- Every page of a device virtual range translates for a use and can be reached; the first fault otherwise (15 R237; 24 R377; 25
R392; 26 R419). `flags` are those of its record. -/
def pagesTranslate (s : State) (asid : Nat) (lo n : Nat) (u : RecordUse) (flags : BitVec 8) : Except FaultInfo Unit :=
  (List.range ((lo + n + 65535) / 65536 - lo / 65536)).foldl (fun acc i =>
    match acc with
    | .error f => .error f
    | .ok () =>
      let va := max lo (lo / 65536 * 65536 + 65536 * i)
      match s.reachPage asid u va with
      | .ok _ => .ok ()
      | .error f => .error { f with flags := f.flags ||| flags }) (.ok ())

/-- The first word of a nest that does not lie in the region's scratch, in banks in SCRATCH mode (13 R224). -/
def State.nestOutside (s : State) (a : Activation) (n : Nest) : Option Int :=
  ((List.range n.words).map n.address).find? fun at_ => at_ < 0 || !s.scratchGood a at_.toNat 4

/-- A nest has a byte of a word in a bank of a tile. -/
def nestInBank (a : Activation) (n : Nest) (tile bank : Nat) : Bool :=
  let inBank (off : Int) : Bool := 0 ≤ off && (match a.scratchPlace off.toNat with
    | some (t, byte) => t = tile && byte / 65536 = bank
    | none => false)
  n.space = .scratch && (List.range n.words).any fun m => inBank (n.address m) || inBank (n.address m + 3)

/-- The check of a nest at the commit of a PUSH or ACCEPT: scratch banks, region records and translation (13 R224; 15
R241; 16 R271; 19 R304). -/
def checkStreamNest (s : State) (a : Activation) (n : Nest) (isPush : Bool) : Except FaultInfo Unit :=
  let lo := n.footprint.1
  let len := n.footprint.2
  let bad : FaultInfo := { code := 0x17, flags := if isPush then 0 else 8, address := BitVec.ofInt 64 lo }
  match n.space with
  | .scratch =>
    match s.nestOutside a n with
    | some at_ => .error { bad with address := BitVec.ofInt 64 at_ }
    | none => if edgeBoundHits a lo len then .error bad else .ok ()
  | .memory =>
    let u : RecordUse := if isPush then .read else .write
    if lo < 0 ∨ recordsAllow a.records u lo.toNat len = false then
      .error { code := 0x23, flags := useFlags u, address := BitVec.ofInt 64 lo, position := BitVec.ofNat 32 len }
    else pagesTranslate s a.entry.asid lo.toNat len u (useFlags u)
  | _ => if isPush ∨ lo < 0 ∨ 65536 < lo + len then .error bad else .ok ()

/-- The check of a memory-space nest at CFG and RUN: every byte in an R, W or RW record, and its pages translatable
(19 R304, 25 R392). -/
def checkNestFootprint (s : State) (a : Activation) (n : Nest) : Except FaultInfo Unit :=
  if n.space = .memory then
    let lo := n.footprint.1
    let len := n.footprint.2
    let rs := a.records.filter fun r => r.mode ≠ 3
    if lo < 0 ∨ coversFrom rs (rs.length + 1) lo.toNat (lo.toNat + len) = false then
      .error { code := 0x23, address := BitVec.ofInt 64 lo, position := BitVec.ofNat 32 len }
    else match pagesTranslate s a.entry.asid lo.toNat len .read 0 with
      | .ok () => .ok ()
      | .error f => match pagesTranslate s a.entry.asid lo.toNat len .write 0 with
        | .ok () => .ok ()
        | .error _ => .error f
  else .ok ()

/-- The nests in force on the tiles of a region. -/
def State.nestsOf (s : State) (a : Activation) : List Nest :=
  a.memTiles.flatMap fun t => (s.tile t).nests.map (·.2)

/-- Whether a memory tile's port is bound as a source, or ends a circuit (12 R180). -/
def State.portSends (s : State) (tile mport : Nat) : Bool := (s.boundTo (.tileMem tile mport)).isSome
def State.portReceives (s : State) (tile mport : Nat) : Bool :=
  s.circuits.any fun c => c.2.ends.contains (.streamPort tile mport)
def unboundPort : FaultInfo := { code := 0x13 }

/-- The nest of a generator with the base that earlier staged AGSETs of the step leave it (13 R221). -/
def stagedNest (es : List StepEffect) (ag : Nat) (n : Nest) : Nest :=
  es.foldl (fun n e => match e with
    | .agset k base _ => if k = ag then { n with base := base } else n
    | _ => n) n

/-- The nests of the PUSHes and ACCEPTs that a step has staged on a tile, with whether each is a PUSH, and its channel
(13 R221). -/
def State.stagedStreams (s : State) (tile : Nat) : List StepEffect → List StepEffect → List (Nest × Bool × BitVec 5)
  | _, [] => []
  | before, e :: es =>
    let of (ag : Nat) (isPush : Bool) (chan : BitVec 5) : List (Nest × Bool × BitVec 5) :=
      match (s.tile tile).nests.find ag with
      | some n => [(stagedNest before ag n, isPush, chan)]
      | none => []
    (match e with
     | .push ag chan _ _ => of ag true chan
     | .accept ag chan _ => of ag false chan
     | _ => []) ++ s.stagedStreams tile (before ++ [e]) es

/-- A circuit that comes in over an edge ends at a memory port (15 R241). -/
def State.edgeFeeds (s : State) (tile mport : Nat) : Bool :=
  s.circuits.any fun c => c.2.ends.contains (.streamPort tile mport) && (match c.2.source with
    | .edgeIn .. => true
    | _ => false)

/-- The range that an edge-bound ACCEPT reserves (15 R241). -/
def Nest.edgeBuffer (n : Nest) (chan : BitVec 5) : EdgeBuffer := { base := n.footprint.1, length := n.footprint.2, chan := chan }

/-- An activation with the reservations that the edge-bound ACCEPTs of a step will have made. -/
def State.withStaged (s : State) (a : Activation) (tile : Nat) (es : List StepEffect) : Activation :=
  { a with edgeBuffers := a.edgeBuffers ++ (s.stagedStreams tile [] es).filterMap fun x =>
    if !x.2.1 && x.1.space = .scratch && s.edgeFeeds tile x.1.mport then some (x.1.edgeBuffer x.2.2) else none }

/-- A step has staged a COMMIT: the checks of what stands behind it are those of the configuration that it puts in force, and are
made when the step commits (13 R213; DEDUCED, log 35). -/
def stagedCommit (es : List StepEffect) : Bool := es.any fun e => match e with
  | .commit _ => true
  | _ => false

/-- Execute an instruction that names a generator of the sequencer's tile, which must be bound and pass a test of its nest (13 R221,
R224). -/
def onGenerator (s : State) (ag : Nat) (bound : State → Nat → Nest → Bool) (e : Sequencer → StepRun → StepEffect) : Result :=
  inStep s fun s q a x r =>
    let good := match (s.tile (seqTile a q)).nests.find ag with
      | none => false
      | some n => bound s (seqTile a q) n
    if good || stagedCommit r.effects then stage s x r (e x r) else .exc s unboundPort

def execAgset (o : QA) (s : State) : Result :=
  onGenerator s o.d.toNat (fun _ _ _ => true) fun x r => .agset o.d.toNat (x.reg o.a.toNat) r.word

def execPush (o : QA) (s : State) : Result :=
  onGenerator s o.d.toNat (fun s t n => s.portSends t n.mport) fun _ r =>
    .push o.d.toNat (o.flags.extractLsb' 0 5) (o.flags.extractLsb' 5 3) r.word

def execAccept (o : QA) (s : State) : Result :=
  onGenerator s o.d.toNat (fun s t n => s.portReceives t n.mport) fun _ r =>
    .accept o.d.toNat (o.flags.extractLsb' 0 5) r.word

/-! ## Configurations (13 R211 to R216) -/

def execCfg (o : QA) (s : State) : Result :=
  inRegionStep s fun s _ _ x r => stage s x r (.cfg (x.reg o.a.toNat) (o.flags.getLsbD 0) r.word)
def execCommit (_ : QA) (s : State) : Result := inRegionStep s fun s _ _ x r => stage s x r (.commit r.word)
def execWaitq (_ : QA) (s : State) : Result := inStep s fun s _ _ x r => endStep s x r (.wait .quiet)

/-! ## Power (21 R341, R342) -/

/-- Milliwatts for each tile of a permit class. -/
def classRate (c : Nat) : Nat := if c = 7 then 800 else 100 * c
/-- The tiles an activation is charged for: its region, or both regions of a pair. -/
def chargedTiles (a : Activation) : Nat := a.width * a.height * (if a.role = .single then 1 else 2)
def permitCharge (a : Activation) (c : Nat) : Nat := classRate c * chargedTiles a
/-- The class alone passes the package budget. -/
def overBudget (s : State) (a : Activation) (c : Nat) : Bool := s.host.budget < permitCharge a c

/-- Whether the activation will be in base state after the staged effects of the step so far. -/
def stagedBase (a : Activation) (es : List StepEffect) : Bool :=
  es.foldl (fun b e => match e with
    | .permit _ => false
    | .unpermit => true
    | _ => b) a.baseState

/-- Behind a COMMIT of its step the port is checked when the step commits (DEDUCED, log 35). -/
def execRun (o : QA) (s : State) : Result :=
  inRegionStep s fun s _ a x r =>
    if s.portSends a.anchor o.d.toNat = false ∧ stagedCommit r.effects = false then .exc s unboundPort
    else if stagedBase a r.effects && overBudget s a 4 then .exc s { code := 0x64 }
    else .ok s x { r with
      effects := r.effects ++
        [.run o.d.toNat (x.reg o.a.toNat) (o.flags.extractLsb' 0 5) (o.flags.extractLsb' 5 3) r.word],
      ended := some .run }

/-! ## DEPTH and BANK (12 R186, R189; 13 R219, R220) -/

/-- The die element and input port that s(a) names for DEPTH, if its reserved bits are zero. -/
def depthPort (a : Activation) (v : Nat) : Option (Nat × Nat) :=
  if v / 2 ^ 18 ≠ 0 ∨ slice v 15 14 ≠ 0 then none
  else match a.absolute (v % 2 ^ 14) with
    | some el => if isComputeTile el then some (el, slice v 17 16) else none
    | none => none

/-- The depth that a DEPTH staged earlier in the step will give a port, the last one first. -/
def stagedDepth (es : List StepEffect) (el port : Nat) : Option Nat :=
  es.reverse.findSome? fun e => match e with
    | .depth k p d _ => if k = el ∧ p = port then some d else none
    | _ => none

/-- The places that a tile's bound input ports take, with one port's depth changed after those of the step so far. -/
def State.poolWith (s : State) (es : List StepEffect) (tile el port depth : Nat) : Nat :=
  ((List.range 16).map fun e => ((s.element (tile + e)).ports.map fun p =>
    if tile + e = el ∧ p.1 = port then depth
    else (stagedDepth es (tile + e) p.1).getD (p.2.newDepth.getD p.2.depth)).sum).sum

/-- A port may take a depth: it ends a circuit, and its tile's pool has room (12 R186, R187). -/
def State.depthFits (s : State) (es : List StepEffect) (el port depth : Nat) : Bool :=
  (s.circuits.any fun c => c.2.ends.contains (.elementPort el port)) && s.poolWith es (tileOf el) el port depth ≤ 512

/-- Behind a COMMIT of its step the circuit is looked for when the step commits (DEDUCED, log 35). -/
def execDepth (o : QA) (s : State) : Result :=
  inRegionStep s fun s _ a x r =>
    let v := (x.reg o.a.toNat).toNat
    let d := (x.reg o.b.toNat).toNat
    let bad : StepResult := .exc s { code := 0x14, address := BitVec.ofNat 64 v }
    match depthPort a v with
    | none => bad
    | some (el, p) =>
      if d % 8 ≠ 0 ∨ d < 8 ∨ 256 < d ∨ (s.depthFits r.effects el p d = false ∧ stagedCommit r.effects = false) then bad
      else stage s x r (.depth el p d r.word)

/-- The memory tile and bank that s(a) names for BANK. -/
def bankNamed (a : Activation) (v : Nat) : Option (Nat × Nat) :=
  if v / 2 ^ 14 ≠ 0 then none
  else match a.absolute (v / 16 * 16) with
    | some t => if isComputeTile t then none else some (t, v % 16)
    | none => none

def bankMode (c : BitVec 8) : BankMode := if c = 0 then .cache else if c = 1 then .scratch else .fifo

/-- Whether a bank holds a byte of a range of scratch offsets. -/
def banksUnder (a : Activation) (lo n tile bank : Nat) : Bool :=
  (List.range ((lo + n + 65535) / 65536 - lo / 65536)).any fun i =>
    a.scratchPlace (lo / 65536 * 65536 + 65536 * i) = some (tile, bank * 65536)

/-- Whether a bank lies under a via= of the configuration in force, a stream or an edge-bound range. A stream counts from
the instruction that stages it in the BANK's own step until it ends, so also while it waits for its turn, and with the
banks that its words lie in (DESIGN CHOICE, log 58: 13 R220 says 'running'). -/
def State.bankBusy (s : State) (a : Activation) (es : List StepEffect) (tile bank : Nat) : Bool :=
  (s.circuits.any fun c => c.2.owner = a.colour && c.2.nodes.any fun n => n.2.viaBank = some (tile, bank)) ||
  (a.memTiles.any fun t => (s.tile t).streams.any fun x => nestInBank a x.nest tile bank) ||
  ((s.stagedStreams a.anchor [] es).any fun x => nestInBank a x.1 tile bank) ||
  (s.withStaged a a.anchor es).edgeBuffers.any fun e => banksUnder a e.base.toNat e.length tile bank

/-- Behind a COMMIT of its step what uses the bank is looked for when the step commits (DEDUCED, log 35). -/
def execBank (o : QA) (s : State) : Result :=
  inRegionStep s fun s _ a x r =>
    let v := (x.reg o.a.toNat).toNat
    match bankNamed a v with
    | none => .exc s { code := 0x15, address := BitVec.ofNat 64 v }
    | some (t, b) =>
      if s.bankBusy a r.effects t b ∧ stagedCommit r.effects = false then .exc s { code := 0x16, address := BitVec.ofNat 64 v }
      else stage s x r (.bank t b (bankMode o.flags) r.word)

end Sys2Proof.Machine
end

