-- ==== Sys2Proof/Machine/Signature.lean ====
section
/-! DEFINITION. SHA-512 and Ed25519, by which the boot ROM, signature records and attestation reports are signed (26 R420 to R422).
The spec names both and lays neither down: they are taken from FIPS 180-4 and RFC 8032 (PRESUMED, log 18). -/
namespace Sys2Proof.Machine

/-! ## SHA-512 -/

/-- The first 64 bits of the fractional parts of the cube roots of the first 80 primes. -/
def shaK : List DWord :=
  [0x428A2F98D728AE22, 0x7137449123EF65CD, 0xB5C0FBCFEC4D3B2F, 0xE9B5DBA58189DBBC, 0x3956C25BF348B538, 0x59F111F1B605D019,
   0x923F82A4AF194F9B, 0xAB1C5ED5DA6D8118, 0xD807AA98A3030242, 0x12835B0145706FBE, 0x243185BE4EE4B28C, 0x550C7DC3D5FFB4E2,
   0x72BE5D74F27B896F, 0x80DEB1FE3B1696B1, 0x9BDC06A725C71235, 0xC19BF174CF692694, 0xE49B69C19EF14AD2, 0xEFBE4786384F25E3,
   0x0FC19DC68B8CD5B5, 0x240CA1CC77AC9C65, 0x2DE92C6F592B0275, 0x4A7484AA6EA6E483, 0x5CB0A9DCBD41FBD4, 0x76F988DA831153B5,
   0x983E5152EE66DFAB, 0xA831C66D2DB43210, 0xB00327C898FB213F, 0xBF597FC7BEEF0EE4, 0xC6E00BF33DA88FC2, 0xD5A79147930AA725,
   0x06CA6351E003826F, 0x142929670A0E6E70, 0x27B70A8546D22FFC, 0x2E1B21385C26C926, 0x4D2C6DFC5AC42AED, 0x53380D139D95B3DF,
   0x650A73548BAF63DE, 0x766A0ABB3C77B2A8, 0x81C2C92E47EDAEE6, 0x92722C851482353B] ++
  [0xA2BFE8A14CF10364, 0xA81A664BBC423001, 0xC24B8B70D0F89791, 0xC76C51A30654BE30, 0xD192E819D6EF5218, 0xD69906245565A910,
   0xF40E35855771202A, 0x106AA07032BBD1B8, 0x19A4C116B8D2D0C8, 0x1E376C085141AB53, 0x2748774CDF8EEB99, 0x34B0BCB5E19B48A8,
   0x391C0CB3C5C95A63, 0x4ED8AA4AE3418ACB, 0x5B9CCA4F7763E373, 0x682E6FF3D6B2B8A3, 0x748F82EE5DEFB2FC, 0x78A5636F43172F60,
   0x84C87814A1F0AB72, 0x8CC702081A6439EC, 0x90BEFFFA23631E28, 0xA4506CEBDE82BDE9, 0xBEF9A3F7B2C67915, 0xC67178F2E372532B,
   0xCA273ECEEA26619C, 0xD186B8C721C0C207, 0xEADA7DD6CDE0EB1E, 0xF57D4F7FEE6ED178, 0x06F067AA72176FBA, 0x0A637DC5A2C898A6,
   0x113F9804BEF90DAE, 0x1B710B35131C471B, 0x28DB77F523047D84, 0x32CAAB7B40C72493, 0x3C9EBE0A15C9BEBC, 0x431D67C49C100D4C,
   0x4CC5D4BECB3E42B6, 0x597F299CFC657E2A, 0x5FCB6FAB3AD6FAEC, 0x6C44198C4A475817]

/-- The initial hash: those of the square roots of the first eight primes. -/
def shaInit : List DWord :=
  [0x6A09E667F3BCC908, 0xBB67AE8584CAA73B, 0x3C6EF372FE94F82B, 0xA54FF53A5F1D36F1, 0x510E527FADE682D1, 0x9B05688C2B3E6C1F,
   0x1F83D9ABFB41BD6B, 0x5BE0CD19137E2179]

/-- One round, on the eight working variables a to h: `kw` is the round's constant and message word. -/
def shaRound (v : List DWord) (kw : DWord) : List DWord :=
  match v with
  | [a, b, c, d, e, f, g, h] =>
    let s1 := e.rotateRight 14 ^^^ e.rotateRight 18 ^^^ e.rotateRight 41
    let t1 := h + s1 + ((e &&& f) ^^^ (~~~e &&& g)) + kw
    let s0 := a.rotateRight 28 ^^^ a.rotateRight 34 ^^^ a.rotateRight 39
    let t2 := s0 + ((a &&& b) ^^^ (a &&& c) ^^^ (b &&& c))
    [t1 + t2, a, b, c, d + t1, e, f, g]
  | v => v

/-- The message schedule: from the last 16 words, `n` more, and all of them in order. -/
def shaSchedule : Nat → List DWord → List DWord
  | 0, w => w
  | n + 1, w =>
    let x (i : Nat) : DWord := w.getD i 0
    let s0 := (x 1).rotateRight 1 ^^^ (x 1).rotateRight 8 ^^^ x 1 >>> 7
    let s1 := (x 14).rotateRight 19 ^^^ (x 14).rotateRight 61 ^^^ x 14 >>> 6
    x 0 :: shaSchedule n (w.drop 1 ++ [x 0 + s0 + x 9 + s1])

/-- A number from bytes, the most significant first. -/
def bigEndian (bs : List Byte) : Nat := natOfBytes bs.reverse

/-- The hash after one block of 128 bytes. -/
def shaBlock (h : List DWord) (block : List Byte) : List DWord :=
  let w := (List.range 16).map fun i => BitVec.ofNat 64 (bigEndian ((block.drop (8 * i)).take 8))
  let v := ((shaSchedule 64 w).zip shaK).foldl (fun v x => shaRound v (x.1 + x.2)) h
  (h.zip v).map fun x => x.1 + x.2

/-- A message with its padding: a 1 bit, zeros, and its length in bits as 16 bytes. -/
def shaPadded (m : List Byte) : List Byte :=
  let zeros := (239 - m.length % 128) % 128
  m ++ [0x80] ++ List.replicate zeros 0 ++ (leBytes 16 (8 * m.length)).reverse

/-- The SHA-512 digest of a message. -/
def sha512 (m : List Byte) : List Byte :=
  let p := shaPadded m
  let h := (List.range (p.length / 128)).foldl (fun h i => shaBlock h ((p.drop (128 * i)).take 128)) shaInit
  h.flatMap fun w => (leBytes 8 w.toNat).reverse

/-! ## Ed25519 -/

/-- The prime of the field, the order of the base point, and the constant d of the curve. -/
def edP : Nat := 2 ^ 255 - 19
def edL : Nat := 2 ^ 252 + 27742317777372353535851937790883648493
def edD : Nat := 37095705934669439343138083508754565189542113879843219016388785533085940283555

/-- b^e in the field, for an exponent below 2^n. -/
def edPow (b : Nat) : Nat → Nat → Nat
  | 0, _ => 1
  | n + 1, e => let r := edPow (b * b % edP) n (e / 2); if e % 2 = 1 then r * b % edP else r

/-- A point in extended coordinates: x = X / Z, y = Y / Z, and T = X Y / Z. -/
structure EdPoint where
  x : Nat
  y : Nat
  z : Nat
  t : Nat
  deriving DecidableEq, Repr

def edZero : EdPoint := { x := 0, y := 1, z := 1, t := 0 }
def edSub (a b : Nat) : Nat := (a + edP - b) % edP

def EdPoint.add (p q : EdPoint) : EdPoint :=
  let a := edSub p.y p.x * edSub q.y q.x % edP
  let b := (p.y + p.x) * (q.y + q.x) % edP
  let c := p.t * 2 % edP * edD % edP * q.t % edP
  let d := p.z * 2 * q.z % edP
  let e := edSub b a
  let f := edSub d c
  let g := (d + c) % edP
  let h := (b + a) % edP
  { x := e * f % edP, y := g * h % edP, z := f * g % edP, t := e * h % edP }

/-- A multiple of a point, by a scalar below 2^n. -/
def EdPoint.mul (p : EdPoint) : Nat → Nat → EdPoint
  | 0, _ => edZero
  | n + 1, k => let r := (p.add p).mul n (k / 2); if k % 2 = 1 then r.add p else r

/-- Two points are the same. -/
def EdPoint.same (p q : EdPoint) : Bool := p.x * q.z % edP = q.x * p.z % edP && p.y * q.z % edP = q.y * p.z % edP

/-- The point that 32 bytes encode, if they do: y, and the sign of x in the highest bit. -/
def edDecode (bs : List Byte) : Option EdPoint :=
  let v := natOfBytes bs
  let y := v % 2 ^ 255
  if edP ≤ y then none
  else
    let x2 := edSub (y * y % edP) 1 * edPow ((edD * (y * y % edP) + 1) % edP) 255 (edP - 2) % edP
    let r := edPow x2 253 ((edP + 3) / 8)
    let x := if r * r % edP = x2 then r else r * edPow 2 254 ((edP - 1) / 4) % edP
    if x * x % edP ≠ x2 || (x = 0 && 2 ^ 255 ≤ v) then none
    else
      let x := if x % 2 = v / 2 ^ 255 then x else edSub 0 x
      some { x := x, y := y, z := 1, t := x * y % edP }

def EdPoint.encode (p : EdPoint) : List Byte :=
  let i := edPow p.z 255 (edP - 2)
  leBytes 32 (p.y * i % edP + p.x * i % edP % 2 * 2 ^ 255)

/-- The base point: y = 4 / 5, with an even x. -/
def edBase : EdPoint :=
  let x := 15112221349535400772501151409588531511454012693041857206046113283949847762202
  let y := 46316835694926478169428394003475163141307993866256225615783033603165251855960
  { x := x, y := y, z := 1, t := x * y % edP }

/-- A hash as a scalar. -/
def edScalar (bs : List Byte) : Nat := natOfBytes (sha512 bs) % edL

/-- The secret scalar of a key: bits 0 to 2 clear, bit 254 set, bit 255 clear. -/
def edSecret (seed : BitVec 256) : Nat :=
  let h := natOfBytes ((sha512 (leBytes 32 seed.toNat)).take 32)
  h % 2 ^ 254 / 8 * 8 + 2 ^ 254
/-- The public key of a key, as its 32 bytes read. -/
def edPublic (seed : BitVec 256) : BitVec 256 := BitVec.ofNat 256 (natOfBytes (edBase.mul 255 (edSecret seed)).encode)

/-- The 64-byte signature of a message. -/
def edSign (seed : BitVec 256) (m : List Byte) : List Byte :=
  let prefix_ := (sha512 (leBytes 32 seed.toNat)).drop 32
  let r := edScalar (prefix_ ++ m)
  let head := (edBase.mul 255 r).encode
  let k := edScalar (head ++ leBytes 32 (edPublic seed).toNat ++ m)
  head ++ leBytes 32 ((r + k * edSecret seed) % edL)

/-- A 64-byte signature of a message verifies under a public key. -/
def edVerifies (key : BitVec 256) (signature m : List Byte) : Bool :=
  let head := signature.take 32
  let s := natOfBytes (signature.drop 32)
  match edDecode (leBytes 32 key.toNat), edDecode head with
  | some a, some r =>
    signature.length = 64 && decide (s < edL) &&
    (edBase.mul 255 s).same (r.add (a.mul 255 (edScalar (head ++ leBytes 32 key.toNat ++ m))))
  | _, _ => false

end Sys2Proof.Machine
end

