-- ==== Sys2Proof/Machine/Loader.lean ====
section
/-! DEFINITION. The configuration loader: reading an image, its checks, and putting a configuration into a region and in
force (05 R66, R77, R86; 07 R99, R100; 10 R154; 12 R180, R186, R188, R189; 13 R206 to R213; 26 R421). -/
namespace Sys2Proof.Machine

/-! ## Reading (25 R390, R392) -/

/-- Bytes of a device virtual range, page by page, under a need; the first fault otherwise. -/
def State.readRange (s : State) (asid : Nat) (need : Need) (lpddr : Bool) : Nat → Nat → Nat → State × Except FaultInfo (List Byte)
  | 0, _, _ => (s, .ok [])
  | fuel + 1, va, n =>
    if n = 0 then (s, .ok [])
    else
      let k := min n (65536 - va % 65536)
      match translate s asid va need with
      | .error f => (s.meetEntries f.walk, .error { f with walk := [] })
      | .ok l =>
        let s := s.cacheLeaf asid va l
        if (isLpddr l.pa && !lpddr) || !s.tierReady l.pa then (s, .error { code := 0x24, address := BitVec.ofNat 64 va })
        else match s.llcRead l.pa k with
          | (s, none) => (s, .error { code := 0x26, address := BitVec.ofNat 64 va })
          | (s, some bs) => match s.readRange asid need lpddr fuel (va + k) (n - k) with
            | (s, .ok rest) => (s, .ok (bs ++ rest))
            | (s, .error f) => (s, .error f)

/-- All bytes of a range: as many pages as it can touch. -/
def State.readBytes (s : State) (asid : Nat) (need : Need) (lpddr : Bool) (va n : Nat) : State × Except FaultInfo (List Byte) :=
  s.readRange asid need lpddr (n / 65536 + 2) va n

/-! ## Fields of an image -/

/-- What the loader refuses: where, and the fault (07 R99; 05 R66; 25 R381): an element, context and word, or the source and
port code of a binding (12 R180). -/
structure LoadError where
  info : FaultInfo := { code := 0x10 }
  element : Option Nat := none
  ctx : Nat := 0
  word : Nat := 0
  binding : Option (Nat × Nat) := none
  deriving DecidableEq, Repr, Inhabited

abbrev Load (α : Type) := Except LoadError α

/-- A condition that an image must meet. -/
def must (c : Bool) (el : Option Nat := none) (ctx : Nat := 0) (word : Nat := 0) : Load Unit :=
  if c then .ok () else .error { element := el, ctx := ctx, word := word }

/-- Every item of a list passes. -/
def mustAll {α : Type} (l : List α) (f : α → Load Unit) : Load Unit :=
  match l with
  | [] => .ok ()
  | x :: xs => match f x with
    | .ok () => mustAll xs f
    | .error e => .error e

/-- A little-endian field of `n` bytes. -/
def bytesAt (bs : List Byte) (off n : Nat) : Nat := natOfBytes ((bs.drop off).take n)
def wordsOf : List Byte → List Word
  | a :: b :: c :: d :: rest => wordOfBytes a b c d :: wordsOf rest
  | _ => []

/-- The header of an image (13 R206). -/
structure ImageHeader where
  width : Nat
  height : Nat
  records : Nat
  link : Bool
  cacheMode : Bool
  initial : Nat
  length : Nat
  slots : Nat
  deriving DecidableEq, Repr, Inhabited

def imageHeader (h : BitVec 512) : ImageHeader :=
  { width := field h 4 1, height := field h 5 1, records := field h 6 2, link := field h 8 4 % 2 = 1,
    cacheMode := field h 8 4 / 2 % 2 = 1, initial := field h 12 4, length := field h 16 8, slots := field h 24 8 }

/-- The checks of R206. -/
def headerGood (h : BitVec 512) : Bool :=
  let x := imageHeader h
  field h 0 4 = 1 && 2 ≤ x.width && x.width ≤ 28 && 2 ≤ x.height && x.height ≤ 28 && field h 8 4 < 4 && x.slots < 256 &&
  field h 32 32 = 0

/-! ## Regions (02 R18, R19) -/

/-- A rectangle overlaps a 2 × 2 link region; it holds one whole. -/
def hitsLink (x0 y0 w h : Nat) (c : Nat × Nat) : Bool :=
  x0 < c.1 + 2 && c.1 < x0 + w && y0 < c.2 + 2 && c.2 < y0 + h
def holdsLink (x0 y0 w h : Nat) (c : Nat × Nat) : Bool :=
  x0 ≤ c.1 && c.1 + 2 ≤ x0 + w && y0 ≤ c.2 && c.2 + 2 ≤ y0 + h

/-- A corner at which a region of a shape may stand: a memory tile, inside the die; over link regions only a LINK image
of ASID 0, which stands over a whole one (log 21). -/
def cornerGood (link : Bool) (w h x0 y0 : Nat) : Bool :=
  (x0 + y0) % 2 = 1 && x0 + w ≤ 28 && y0 + h ≤ 28 &&
  (if link then linkCorners.any (holdsLink x0 y0 w h) else !linkCorners.any (hitsLink x0 y0 w h))
/-- The corners of a die in the order of choice: lowest y0, then lowest x0 (18 R292). -/
def corners (link : Bool) (w h : Nat) : List (Nat × Nat) :=
  (List.range 28).flatMap fun y => (List.range 28).filterMap fun x => if cornerGood link w h x y then some (x, y) else none
/-- A shape that some die can take, for a context (02 R18, R19). -/
def shapeGood (link : Bool) (asid w h : Nat) : Bool := (!link || asid = 0) && !(corners link w h).isEmpty

/-! ## Records (13 R207 to R210) -/

/-- A record of an image: its kind, number, target and payload. -/
structure ImageRecord where
  kind : Nat
  number : Nat
  target : Nat
  payload : List Byte
  deriving DecidableEq, Repr, Inhabited

def imageRecord (bs : List Byte) (i : Nat) : ImageRecord :=
  let at_ := 64 + 16 * i
  { kind := bytesAt bs at_ 1, number := bytesAt bs (at_ + 1) 1, target := bytesAt bs (at_ + 2) 2,
    payload := (bs.drop (bytesAt bs (at_ + 8) 8)).take (bytesAt bs (at_ + 4) 4) }

/-- The payload of record i lies in the image, at a multiple of 8. -/
def payloadGood (bs : List Byte) (i : Nat) : Bool :=
  let at_ := 64 + 16 * i
  bytesAt bs (at_ + 8) 8 % 8 = 0 && bytesAt bs (at_ + 8) 8 + bytesAt bs (at_ + 4) 4 ≤ bs.length

/-- A region-relative tile or element of a shape. -/
def relInside (w h rel : Nat) : Bool := idDie rel = 0 && idX rel < w && idY rel < h
/-- A region tile (i, j) is a memory tile when i + j is even (02 R18). -/
def relIsMemory (rel : Nat) : Bool := (idX rel + idY rel) % 2 = 0
def relElement (w h rel : Nat) : Bool := relInside w h rel && !relIsMemory rel
def relMemTile (w h rel : Nat) : Bool := relInside w h rel && relIsMemory rel && rel % 16 = 0

/-- The target of a record fits its kind. The anchor tile's one sequencer runs the region program (02 R16, R18), so no
stream program may target it (DESIGN CHOICE, log 58). -/
def targetGood (w h : Nat) (r : ImageRecord) : Bool :=
  match r.kind with
  | 1 => relElement w h r.target && r.number < 8
  | 2 => relElement w h r.target && r.number < 8
  | 3 => relElement w h r.target && r.number = 0
  | 4 => relInside w h r.target && r.number = 0
  | 5 => relMemTile w h r.target && r.number < 4
  | 6 => relMemTile w h r.target && r.target ≠ 0 && r.number = 0
  | 7 => r.target = 0 && r.number = 0
  | 8 => r.target = 0 && r.number = 0 && r.payload.length = 64
  | _ => false

/-- A program payload (13 R210), if it is well formed. -/
def parseProgram (bs : List Byte) : Option Program :=
  let ws := wordsOf bs
  let m := (ws.headD 0).toNat
  let entries := (ws.drop 1).take m
  let code := ws.drop (1 + m)
  if bs.length % 4 = 0 ∧ 1 ≤ m ∧ m ≤ 256 ∧ entries.length = m ∧ code.length ≤ 4096 ∧ entries.all (fun e => e.toNat < 2 ^ 19) then
    some { steps := entries.map fun e => { first := slice e.toNat 11 0, length := slice e.toNat 18 12 + 1 },
           code := code.mapIdx fun i w => (i, w) }
  else none

def signed32 (n : Nat) : Int := signedOf 32 n

/-- The words of a space-4 nest pair up as i64 doublewords (16 R271). -/
def pairsGood (n : Nest) : Bool :=
  n.space ≠ .accI64 || (List.range ((n.words + 1) / 2)).all fun k =>
    n.address (2 * k) % 8 = 0 && (n.words ≤ 2 * k + 1 || n.address (2 * k + 1) = n.address (2 * k) + 4)

/-- A nest payload (13 R209), if it is well formed. The counts and strides of levels beyond its own are ignored, where the spec does not
say whether they are checked (DESIGN CHOICE, log 59). -/
def parseNest (bs : List Byte) : Option Nest :=
  let levels := bytesAt bs 10 1
  let counts := (List.range levels).map fun k => bytesAt bs (16 + 4 * k) 4 + 1
  let strides := (List.range levels).map fun k => signed32 (bytesAt bs (32 + 4 * k) 4)
  let space := bytesAt bs 9 1
  let n : Nest :=
    { base := BitVec.ofNat 64 (bytesAt bs 0 8), mport := bytesAt bs 8 1,
      space := match space with
        | 0 => .scratch
        | 1 => .memory
        | 2 => .accI32
        | 3 => .accF32
        | _ => .accI64,
      counts := counts, strides := strides }
  if bs.length = 48 ∧ bytesAt bs 8 1 ≤ 3 ∧ space ≤ 4 ∧ 1 ≤ levels ∧ levels ≤ 4 ∧ bytesAt bs 11 5 = 0 ∧
      strides.all (fun x => x % 4 = 0) ∧ n.words ≤ 2 ^ 32 ∧ pairsGood n then some n else none

/-- A binding payload (13 R208). -/
def parseBinding (bs : List Byte) : Option Binding :=
  let m := bytesAt bs 3 1
  if bs.length = 8 + 4 * m ∧ bytesAt bs 5 3 = 0 ∧ bytesAt bs 4 1 < 32 then
    some { source := bytesAt bs 0 2, port := bytesAt bs 2 1, label := bytesAt bs 4 1,
           entries := (List.range m).map fun k =>
             (bytesAt bs (8 + 4 * k) 2, bytesAt bs (10 + 4 * k) 1, 8 * bytesAt bs (11 + 4 * k) 1) }
  else none

def isVia (code : Nat) : Bool := 48 ≤ code && code < 68
/-- An entry of a binding names something of the region, with a depth where it is an element input port (12 R179, R186). The
identifier of an edge entry names no tile of the region, but must be one that names something (02 R17). -/
def entryGood (w h : Nat) (e : Nat × Nat × Nat) : Bool :=
  let depthGood := 8 ≤ e.2.2 && e.2.2 ≤ 256
  let c := e.2.1
  if c < 4 || (64 ≤ c && c < 68) then relElement w h e.1 && depthGood
  else if (12 ≤ c && c < 17) || (48 ≤ c && c < 64) then relMemTile w h e.1 && e.2.2 = 0
  else if 32 ≤ c && c < 48 then relInside 28 28 e.1 && e.2.2 = 0
  else false
/-- The via entries come first, then one to eight destinations. -/
def bindingGood (w h : Nat) (b : Binding) : Bool :=
  let dests := b.entries.dropWhile fun e => isVia e.2.1
  let source :=
    if 4 ≤ b.port && b.port < 12 then relElement w h b.source
    else if 12 ≤ b.port && b.port < 16 then relMemTile w h b.source
    else 32 ≤ b.port && b.port < 48 && relInside w h b.source && b.source % 16 = 0
  source && b.entries.all (entryGood w h) && !(dests.any fun e => isVia e.2.1) && 1 ≤ dests.length && dests.length ≤ 8

/-! ## Handler code (05 R66, R77; 10 R154; 13 R193) -/

def bindsSource (c : LoadedConfig) (el port : Nat) : Bool := c.bindings.any fun b => b.source = el && b.port = port

/-- The table mode an EG word takes in a context. -/
def wordMode (tmode w : Nat) : Nat := if slice w 23 21 = 0 then tmode else slice w 23 21

/-- The input ports that a word reads, takes a partial from, drops or keeps. -/
def wordPorts (tmode w : Nat) : List Nat :=
  let op := w / 2 ^ 26
  let sel (lo : Nat) : List Nat := let v := w / 2 ^ lo % 16; if 8 ≤ v && v < 12 then [v - 8] else []
  if op = 0x01 || (0x03 ≤ op && op < 0x1A) || op = 0x1A || (0x25 ≤ op && op < 0x28) then
    sel 19 ++ (if op = 0x18 && slice w 8 6 = 5 then [] else sel 15)
  else if 0x1B ≤ op && op < 0x1E then sel 12
  else if op = 0x1E || op = 0x1F then sel 19
  else if 0x20 ≤ op && op < 0x24 then
    let p := slice w 25 24
    let o := slice w 17 16
    let chain := slice w 20 18 = 1
    let mode := wordMode tmode w
    if op = 0x20 then p :: (if chain then (if mode = 5 then [o] else [o, o + 1]) else [])
    else if op = 0x21 then p :: (if chain then (if mode = 2 then [o, o + 1] else [o]) else [])
    else if op = 0x22 then (if slice w 15 13 = 1 then [p, p + 1] else p :: (if chain then [o, o + 1] else []))
    else [p, o]
  else []

/-- The table mode of an EG word suits its context (05 R77). -/
def wordModeGood (tmode w : Nat) : Bool :=
  let op := w / 2 ^ 26
  let mode := wordMode tmode w
  if 0x20 ≤ op && op < 0x24 then
    mode = tmode && (if op = 0x21 then 1 ≤ mode && mode ≤ 3 else mode = 4 || mode = 5) &&
    (mode = 5 || slice w 12 10 = 0)
  else true

/-- The tokens of an ACCOUT's output (10 R166, R167). -/
def accoutTokens (lanes w : Nat) : Nat :=
  let width := match slice w 18 16 with
    | 0 => 4
    | 1 => 2
    | 2 => 1
    | 3 => 8
    | 4 => 4
    | _ => 2
  ((if lanes = 0 then 128 else 64) * width + 255) / 256

/-- The output and memory ports that a word names: every one needs a binding (12 R180). -/
def wordSources (lanes w : Nat) : List Nat :=
  let op := w / 2 ^ 26
  if op = 0x1B || (op = 0x1D && slice w 7 6 = 0) then [4 + slice w 25 24]
  else if op = 0x1E || op = 0x1F then [8 + slice w 15 14]
  else if op = 0x23 then [8 + slice w 9 8]
  else if op = 0x24 then
    (if slice w 5 3 = 0 then (List.range (accoutTokens lanes w)).map fun j => 4 + slice w 15 14 + j
     else if slice w 5 3 = 2 then [8 + slice w 15 14] else [])
  else []

/-- The checks of one instruction of a block. -/
def wordGood (c : LoadedConfig) (el : Nat) (ctxWord : DWord) (ops w : Nat) : Bool :=
  let lanes := slice ctxWord.toNat 14 13
  let tmode := slice ctxWord.toNat 12 10
  wordModeGood tmode w &&
  (wordPorts tmode w).all (fun p => p < 4 && ops / 2 ^ p % 2 = 1) &&
  (wordSources lanes w).all fun p => (p < 8 || w / 2 ^ 26 ≠ 0x24 || slice w 5 3 = 2) && bindsSource c el p

/-- Decode the instructions of an entry; the first bad word is named. `n` is how many are left. Where the extension words of
an instruction lie beyond the payload, the first of them is named (05 R66); where they would run past word 1,023, no word of
the store can be named, and the instruction's own is (DESIGN CHOICE, log 59). -/
def checkCode (c : LoadedConfig) (el ctx : Nat) (ctxWord : DWord) (code : List Word) (ops : Nat) : Nat → Nat → Load Unit
  | 0, _ => .ok ()
  | n + 1, at_ =>
    let badAt (w : Nat) : Load Unit := .error { element := some el, ctx := ctx, word := w }
    let bad := badAt at_
    match decode (code.drop at_ ++ List.replicate 2 0) with
    | .error _ => bad
    | .ok (_, k) =>
      if code.length ≤ at_ || 1024 < at_ + k || !isElementWord ((code.drop at_).headD 0) then bad
      else if wordGood c el ctxWord ops ((code.drop at_).headD 0).toNat = false then bad
      else if code.length < at_ + k then badAt code.length
      else checkCode c el ctx ctxWord code ops n (at_ + k)

/-- The code-store payload of an element: a later record of the image writes over an earlier one (log 59). -/
def codeOf (c : LoadedConfig) (el : Nat) : List Word :=
  (c.code.filter fun p => p.1 = el).foldl (fun old p => p.2 ++ old.drop p.2.length) []

/-- The checks of a handler entry (07 R100, 05 R66). -/
def checkEntry (c : LoadedConfig) (el ctx : Nat) (ctxWord : DWord) (h : Word) : Load Unit :=
  if h = 0 then .ok ()
  else if h.toNat / 2 ^ 26 ≠ 0 ∨ slice h.toNat 20 17 = 0 then .error { element := some el, ctx := ctx }
  else checkCode c el ctx ctxWord (codeOf c el) (slice h.toNat 20 17) (slice h.toNat 16 10 + 1) (slice h.toNat 9 0)

/-! ## Contexts (07 R99) -/

def ctxHbase (w : DWord) : Nat := slice w.toNat 4 0
def ctxHspan (w : DWord) : Nat := slice w.toNat 9 5
def ctxSset (w : DWord) : Nat := slice w.toNat 17 15

/-- The checks of one context word. -/
def ctxWordGood (w : DWord) : Bool :=
  let lanes := slice w.toNat 14 13
  let tmode := slice w.toNat 12 10
  w.toNat / 2 ^ 23 = 0 && lanes ≠ 3 && tmode ≤ 5 && ctxHbase w + ctxHspan w ≤ 31 &&
  (tmode ≠ 5 || lanes = 1) && (!(tmode = 1 || tmode = 3) || lanes = 2) && (!(tmode = 2 || tmode = 4) || lanes ≠ 2)

/-- Two enabled contexts whose windows overlap, or that name one scale set. -/
def ctxsClash (v w : DWord) : Bool :=
  v.getLsbD 22 && w.getLsbD 22 &&
  ((ctxHbase v ≤ ctxHbase w + ctxHspan w && ctxHbase w ≤ ctxHbase v + ctxHspan v) || ctxSset v = ctxSset w)

def handlersOf (c : LoadedConfig) (el ctx : Nat) : List Word :=
  ((c.handlers.find? fun p => p.1 = el && p.2.1 = ctx).map (·.2.2)).getD []

/-- The checks of a context of an element: its word, its window, its code. Of two enabled contexts that clash the spec does not say
which the fault names: it is the one that comes first in decode order (DESIGN CHOICE, log 59). -/
def checkCtx (c : LoadedConfig) (k : Nat × Nat × DWord) : Load Unit :=
  match must (ctxWordGood k.2.2 && c.slots / 2 ^ k.2.1 % 2 = 1 &&
      c.ctxs.all fun m => m.1 ≠ k.1 || m.2.1 = k.2.1 || !ctxsClash m.2.2 k.2.2) (some k.1) k.2.1 with
  | .error e => .error e
  | .ok () => mustAll (handlersOf c k.1 k.2.1) (checkEntry c k.1 k.2.1 k.2.2)

/-! ## Circuits (12 R179, R180, R186, R188) -/

/-- Where circuits stand: elements and tiles named by region-relative identifiers. -/
def destTarget (e : Nat × Nat × Nat) : HopTarget :=
  if e.2.1 < 4 then .elementPort e.1 e.2.1
  else if e.2.1 < 16 then .streamPort e.1 (e.2.1 - 12)
  else if e.2.1 = 16 then .sink e.1
  else .edge (e.2.1 - 32)

def sourceOf (owner : Nat) (b : Binding) : SourcePort :=
  if b.port < 8 then .out b.source (b.port - 4)
  else if b.port < 12 then .elementMem b.source (b.port - 8)
  else if b.port < 16 then .tileMem b.source (b.port - 12)
  else .edgeIn owner (b.port - 32)

/-- The tiles over which edges cross: `ways n false` from the last one in the region of the producer of edge n to the first one in
that of its consumer, and `ways n true` those of the producer's region, from the one where the edge leaves its binding (12
R190). Edge 16 + n leads what edge n carries to the shadow copy of its consumer (19 R317; log 71). -/
abbrev EdgeWays := Nat → Bool → List Nat
/-- No edge leads anywhere yet. -/
def noWays : EdgeWays := fun _ _ => []

/-- The tiles from a place to the one where a binding's edge leaves it, and on to the region's last. -/
def outTiles (from_ : Nat) (way : List Nat) : List Nat :=
  let at_ := way.headD from_
  routeTiles (idDie from_) (idX from_) (idY from_) (idX at_) (idY at_) ++ way.tail

/-- The circuit of a binding: from its source through its via stages to its destinations. A branch that goes out over an edge shares
the route of the others as far as the region's last tile (12 R180, R188 to R190), and a second one goes to the consumer's shadow
copy. -/
def buildCircuit (owner asid gang : Nat) (ways : EdgeWays) (b : Binding) : Circuit :=
  let src := tileOf b.source
  let lead := if 32 ≤ b.port then ways (b.port - 32) false else []
  let start : HopNode := { tile := lead.tail.headD src, capacity := if b.port < 32 then none else some 4 }
  let c : Circuit :=
    { source := sourceOf gang b, label := b.label, owner := owner, asid := asid, nodes := [(0, start)], edgeFrom := lead.head? }
  let c1 : Circuit × Nat := lead.tail.tail.foldl (fun r t => addPlace r.1 r.2 { tile := t }) (c, 0)
  let vias := b.entries.takeWhile fun e => isVia e.2.1
  let dests := b.entries.dropWhile fun e => isVia e.2.1
  let c2 := vias.foldl (fun (r : Circuit × Nat) e =>
    addStage r.1 r.2 (if e.2.1 < 64 then
        { tile := e.1, capacity := some 2048, viaBank := some (e.1, e.2.1 - 48) }
      else { tile := tileOf e.1, capacity := some e.2.2, passPort := some (e.1, e.2.1 - 64) })) c1
  let targets := dests.flatMap fun e => match destTarget e with
    | .edge n => .edge n :: (if ways (16 + n) true = [] then [] else [.edge (16 + n)])
    | t => [t]
  let c3 := targets.foldl (fun (c : Circuit) t =>
    let from_ := (c.node c2.2).tile
    let dest := targetTile from_ t
    addBranch c c2.2 (match t with
      | .edge n => outTiles from_ (ways n true) ++ [src]
      | _ => routeTiles (idDie from_) (idX from_) (idY from_) (idX dest) (idY dest)) t) c2.1
  { c3 with ends := targets }

/-- A binding with its identifiers moved into a region. A shadow copy takes the tokens of an edge from the branch that leads to it, and
those that it would send over an edge end at a sink (19 R317; 26 R414; log 71). -/
def moveBinding (a : Activation) (b : Binding) : Binding :=
  let abs (r : Nat) : Nat := (a.absolute r).getD r
  let shadow := a.role = .shadow
  { b with
    source := abs b.source,
    port := if shadow && 32 ≤ b.port then 16 + b.port else b.port,
    entries := b.entries.map fun e =>
      if 32 ≤ e.2.1 && e.2.1 < 48 then (if shadow then (tileOf (abs b.source), 16, e.2.2) else e) else (abs e.1, e.2) }

/-- The directed links of some circuits, each counted once for a circuit; no link carries more than four (12 R180). -/
def linkLoads (cs : List Circuit) : List (Nat × Nat) := cs.flatMap Circuit.links
def linksGood (cs : List Circuit) : Bool := (linkLoads cs).all fun l => (linkLoads cs).count l ≤ 4

/-- The bound element input ports of a configuration with their depths, PASS stages included. -/
def boundPorts (c : LoadedConfig) : List (Nat × Nat × Nat) :=
  c.bindings.flatMap fun b => b.entries.filterMap fun e =>
    if e.2.1 < 4 then some (e.1, e.2.1, e.2.2) else if 64 ≤ e.2.1 then some (e.1, e.2.1 - 64, e.2.2) else none
/-- The ends of a binding that only one circuit may have: input ports, stream ports, edges. -/
def soleEnds (b : Binding) : List (Nat × Nat) :=
  b.entries.filterMap fun e =>
    if e.2.1 < 4 || (12 ≤ e.2.1 && e.2.1 < 16) then some (e.1, e.2.1)
    else if 32 ≤ e.2.1 && e.2.1 < 48 then some (0, e.2.1)
    else if 64 ≤ e.2.1 then some (e.1, e.2.1 - 64) else none
/-- What identifies the source port of a binding. -/
def sourceKey (b : Binding) : Nat × Nat := (if b.port < 32 then b.source else 0, b.port)

/-- A binding would put a fifth circuit on a link that some circuits use (12 R180). -/
def crowds (loads : List (Nat × Nat)) (c : Circuit) : Bool := c.links.any fun l => 4 ≤ loads.count l

/-- The first binding that crowds a link, after some loads. -/
def checkLinks (build : Binding → Circuit) : List (Nat × Nat) → List Binding → Load Unit
  | _, [] => .ok ()
  | loads, b :: bs =>
    if crowds loads (build b) then .error { binding := some (b.source, b.port) }
    else checkLinks build (loads ++ (build b).links) bs

/-- The checks of the bindings one after another; the first that breaks one is named (12 R180, R188). Two bindings may name one via=
bank, where 12 R189 is silent: each circuit has its own places there (DESIGN CHOICE, log 59). -/
def checkBindings (c : LoadedConfig) : List Binding → List Binding → Load Unit
  | _, [] => .ok ()
  | before, b :: bs =>
    if (before.map sourceKey).contains (sourceKey b) || !decide (soleEnds b).Nodup ||
        (soleEnds b).any (fun e => (before.flatMap soleEnds).contains e) ||
        b.entries.any (fun e => 64 ≤ e.2.1 && c.ctxs.any fun k => k.1 = e.1 && k.2.2.getLsbD 22) then
      .error { binding := some (b.source, b.port) }
    else checkBindings c (before ++ [b]) bs

/-- The input ports of each tile take no more places than its pool has (12 R186). -/
def poolsGood (c : LoadedConfig) : Bool :=
  (boundPorts c).all fun p => (((boundPorts c).filter fun q => tileOf q.1 = tileOf p.1).map (·.2.2)).sum ≤ 512

/-! ## The whole image -/

/-- What the records of an image say, in order. Of two records that give one thing the later stands (log 59). -/
def gather (h : ImageHeader) (rs : List ImageRecord) : Load LoadedConfig :=
  let c0 : LoadedConfig :=
    { width := h.width, height := h.height, link := h.link, cacheMode := h.cacheMode, initial := h.initial, slots := h.slots }
  rs.foldl (fun (acc : Load LoadedConfig) r =>
    match acc with
    | .error e => .error e
    | .ok c =>
      let el : Option Nat := if r.kind ≤ 3 then some r.target else none
      let bad : Load LoadedConfig := .error { element := el, ctx := r.number }
      if targetGood h.width h.height r = false then bad
      else match r.kind with
        | 1 => if r.payload.length = 8 then
            .ok { c with ctxs := (c.ctxs.filter fun k => !(k.1 = r.target && k.2.1 = r.number)) ++
              [(r.target, r.number, BitVec.ofNat 64 (natOfBytes r.payload))] } else bad
        | 2 => if r.payload.length % 4 = 0 then
            .ok { c with handlers := (c.handlers.filter fun k => !(k.1 = r.target && k.2.1 = r.number)) ++
              [(r.target, r.number, wordsOf r.payload)] } else bad
        | 3 => if r.payload.length % 4 = 0 && r.payload.length ≤ 4096 then
            .ok { c with code := c.code ++ [(r.target, wordsOf r.payload)] } else bad
        | 4 => match parseBinding r.payload with
          | some b => if bindingGood h.width h.height b && b.source = r.target then
              .ok { c with bindings := c.bindings ++ [b] } else bad
          | none => bad
        | 5 => match parseNest r.payload with
          | some n => .ok { c with nests := (c.nests.filter fun k => !(k.1 = r.target && k.2.1 = r.number)) ++
              [(r.target, r.number, n)] }
          | none => bad
        | 6 => match parseProgram r.payload with
          | some p => .ok { c with streams := (c.streams.filter fun k => k.1 ≠ r.target) ++ [(r.target, p)] }
          | none => bad
        | 7 => match parseProgram r.payload with
          | some p => if c.program.isNone then .ok { c with program := some p } else bad
          | none => bad
        | _ => .ok c) (.ok c0)

/-- The handler records match their contexts: HSPAN + 1 entries of a context that the image gives. -/
def windowsGood (c : LoadedConfig) : Bool :=
  c.handlers.all fun h => c.ctxs.any fun k => k.1 = h.1 && k.2.1 = h.2.1 && h.2.2.length = ctxHspan k.2.2 + 1

/-- The contexts of a configuration in the order in which the loader decodes them: ascending slot number, and within a slot
ascending element, an order that 05 R86 leaves open (DESIGN CHOICE, log 59). -/
def LoadedConfig.inDecodeOrder (c : LoadedConfig) : List (Nat × Nat × DWord) :=
  (List.range 8).flatMap fun slot => (c.ctxs.filter fun k => k.2.1 = slot).insertionSort fun x y => x.1 ≤ y.1

/-- The signature of record i of an image verifies under one of the keys: it is over the digest of the image with its own 64 bytes
taken as zero (26 R421). -/
def signatureGood (keys : List (BitVec 256)) (bs : List Byte) (i : Nat) : Bool :=
  let off := bytesAt bs (64 + 16 * i + 8) 8
  let r := imageRecord bs i
  let digest := sha512 (bs.take off ++ List.replicate 64 0 ++ bs.drop (off + 64))
  r.payload.length = 64 && keys.any fun k => edVerifies k r.payload digest

/-- The edges that the bindings of an image name, each outbound or not, whatever else the image holds (11 R171). -/
def edgesOf (bs : List Binding) : List (Nat × Bool) :=
  bs.flatMap fun b =>
    (if 32 ≤ b.port then [(b.port - 32, false)] else []) ++
    b.entries.filterMap fun e => if 32 ≤ e.2.1 && e.2.1 < 48 then some (e.2.1 - 32, true) else none
def imageEdges (bs : List Byte) : List (Nat × Bool) :=
  let h := imageHeader (BitVec.ofNat 512 (bytesAt bs 0 64))
  edgesOf ((List.range h.records).filterMap fun i =>
    if payloadGood bs i && (imageRecord bs i).kind = 4 then parseBinding (imageRecord bs i).payload else none)

/-- Parse and check an image that has been read whole. `placed` asks for its region program (13 R210). -/
def parseImage (keys : List (BitVec 256)) (asid : Nat) (placed : Bool) (bs : List Byte) : Load LoadedConfig :=
  let hd := BitVec.ofNat 512 (bytesAt bs 0 64)
  let h := imageHeader hd
  match must (headerGood hd && bs.length = h.length && 64 + 16 * h.records ≤ h.length &&
      (List.range h.records).all (payloadGood bs)) with
  | .error e => .error e
  | .ok () =>
    let rs := (List.range h.records).map (imageRecord bs)
    match gather h rs with
    | .error e => .error e
    | .ok c =>
      let signs := (List.range h.records).filter fun i => (imageRecord bs i).kind = 8
      let start := match c.program with
        | some p => h.initial < p.steps.length
        | none => false
      match must (windowsGood c && poolsGood c && shapeGood h.link asid h.width h.height && (!placed || start) &&
          (!h.link || !signs.isEmpty) && signs.all (signatureGood keys bs)) with
      | .error e => .error e
      | .ok () => match checkBindings c [] c.bindings with
        | .error e => .error e
        | .ok () => match checkLinks (buildCircuit 0 0 0 noWays) [] c.bindings with
          | .error e => .error e
          | .ok () => match mustAll c.inDecodeOrder (checkCtx c) with
            | .error e => .error e
            | .ok () => .ok c

/-- Read the image at an address whole (13 R206, R211). -/
def State.readImage (s : State) (asid va : Nat) : State × Load (List Byte) :=
  if va % 64 ≠ 0 then (s, .error {})
  else match s.readBytes asid .config false va 64 with
    | (s, .error f) => (s, .error { info := f })
    | (s, .ok hb) =>
      let h := imageHeader (BitVec.ofNat 512 (natOfBytes hb))
      if headerGood (BitVec.ofNat 512 (natOfBytes hb)) = false || h.length < 64 || 2 ^ 48 < h.length then (s, .error {})
      else match s.readBytes asid .config false va h.length with
        | (s, .error f) => (s, .error { info := f })
        | (s, .ok bs) => (s, .ok bs)
/-- Read, parse and check the image at an address (13 R211, R212). -/
def State.loadImage (s : State) (asid va : Nat) (placed : Bool) : State × Load LoadedConfig :=
  match s.readImage asid va with
  | (s, .error e) => (s, .error e)
  | (s, .ok bs) => (s, parseImage s.host.signingKeys asid placed bs)

/-! ## Edges (11 R171, 12 R190) -/

/-- The tile from which a binding that names an edge sends its tokens out: its last via stage, or its source. -/
def Binding.outTile (b : Binding) (a : Activation) : Nat :=
  let rel := (((b.entries.takeWhile fun e => isVia e.2.1).getLast?).map (·.1)).getD b.source
  tileOf ((a.absolute rel).getD rel)

/-- The activation of a gang that produces an edge, with the tile where the edge leaves its binding; the one that consumes it, with
the tile that its binding names. Of a pair the primary produces, and each copy consumes what its own branch brings (log 71). -/
def edgeProducer (g : List Activation) (n : Nat) : Option (Activation × Nat) :=
  ((g.filter fun p => p.role ≠ .shadow).flatMap fun p =>
    (p.config.bindings.filter fun b => b.entries.any fun e => e.2.1 = 32 + n % 16).map fun b => (p, b.outTile p)).head?
def edgeConsumer (g : List Activation) (n : Nat) : Option (Activation × Nat) :=
  ((g.filter fun p => decide (p.role = .shadow) = decide (16 ≤ n)).flatMap fun p =>
    (p.config.bindings.filter fun b => b.port = 32 + n % 16).map fun b =>
      (p, tileOf ((p.absolute b.source).getD b.source))).head?

/-- The tiles that a circuit crosses from one tile to another, both of them among these (12 R180). -/
def wayTo (p q : Nat) : List Nat := p :: routeTiles (idDie p) (idX p) (idY p) (idX q) (idY q)

/-- The tiles that each edge of a gang crosses, in its producer's region and from there on: one route from the tile where the edge
leaves its producer's binding to the one that its consumer's binding names, east or west first (12 R180, R190). 12 R190 does not say
to which tile an edge is routed (DESIGN CHOICE, log 25). -/
def edgeWays (g : List Activation) : EdgeWays := fun n out =>
  match edgeProducer g n, edgeConsumer g n with
  | some (p, t), some (c, u) =>
    let way := wayTo t u
    let inside := way.takeWhile p.holds
    let rest := way.drop inside.length
    if out then inside else inside.getLast?.toList ++ rest.takeWhile (fun t => !c.holds t) ++ (rest.find? c.holds).toList
  | _, _ => []

/-- The gang of an activation, as it stands but for a configuration of the activation's own. -/
def State.gangWith (s : State) (a : Activation) (c : LoadedConfig) : List Activation :=
  match a.gang with
  | none => []
  | some g => { a with config := c } :: ((s.activations.map (·.2)).filter fun b =>
      b.colour ≠ a.colour && b.gang = some g && b.entry.asid = a.entry.asid)
/-- The ways of the edges of an activation's gang, should the activation's configuration be this one. -/
def State.edgeWaysOf (s : State) (a : Activation) (c : LoadedConfig) : EdgeWays := edgeWays (s.gangWith a c)

/-- Flits that have come in over an edge as they wait at a place: in the consumer's region they bear its colour (11 R171). -/
def Circuit.waitAt (c : Circuit) (inRegion : Nat → Bool) (tile : Nat) (fs : List Flit) : List Flit :=
  if inRegion tile then fs.map (recolour c.owner) else fs
/-- What stands or travels in the places of an edge's circuit before its region, the oldest first. -/
def Circuit.leadFlits (c : Circuit) (inRegion : Nat → Bool) : List Flit :=
  ((c.nodes.takeWhile fun n => !inRegion n.2.tile).map fun n => n.2.flits ++ n.2.wire).reverse.flatten

/-- The tiles over which an edge's circuit comes in: from its producer's last one to the first one of the region. -/
def Circuit.wayIn (c : Circuit) (inRegion : Nat → Bool) : List Nat :=
  let tiles := c.nodes.map fun n => n.2.tile
  c.edgeFrom.toList ++ tiles.takeWhile (fun t => !inRegion t) ++ (tiles.find? inRegion).toList

/-- An inbound edge's circuit whose tiles before its region are replaced by those of another way in: what its flits there were
waits at the last of them (log 25). -/
def Circuit.relead (c : Circuit) (inRegion : Nat → Bool) (way : List Nat) : Circuit :=
  if c.wayIn inRegion = way then c
  else
  let old := (c.nodes.takeWhile fun n => !inRegion n.2.tile).length
  let new := way.tail.length - 1
  let waiting := c.leadFlits inRegion
  let ren (k : Nat) : Nat := k - old + new
  let renamed := (c.nodes.drop old).map fun n => (ren n.1, { n.2 with
    targets := n.2.targets.map fun t => match t with
      | .node m => .node (ren m)
      | t => t,
    flits := if n.1 = old && new = 0 then n.2.flits ++ c.waitAt inRegion n.2.tile waiting else n.2.flits })
  let lead := (List.range new).map fun i =>
    ((i, { tile := way.tail.getD i 0, targets := [.node (i + 1)], flits := if i + 1 = new then waiting else [] }) : Nat × HopNode)
  { c with nodes := lead ++ renamed, edgeFrom := way.head? }

/-- An edge's circuit that takes over what is on its way into the region in the one before: place by place, or at the last place
before the region where the way is another (log 25). -/
def Circuit.takesOver (c : Circuit) (inRegion : Nat → Bool) (o : Circuit) : Circuit :=
  let lead := (o.nodes.takeWhile fun n => !inRegion n.2.tile).length
  if c.wayIn inRegion = o.wayIn inRegion then
    (List.range lead).foldl (fun c i => c.setNode i { c.node i with flits := (o.node i).flits, wire := (o.node i).wire })
      (c.setNode lead { c.node lead with wire := (o.node lead).wire })
  else
    let at_ := (c.nodes.takeWhile fun n => !inRegion n.2.tile).length - 1
    let n := c.node at_
    c.setNode at_ { n with flits := n.flits ++ c.waitAt inRegion n.tile ((o.node lead).wire ++ o.leadFlits inRegion) }

/-- The places of a circuit on the way from one to an end. -/
def Circuit.pathTo (c : Circuit) (t : HopTarget) : Nat → Nat → List Nat
  | 0, _ => []
  | fuel + 1, k =>
    if (c.node k).targets.contains t then [k]
    else match (c.node k).targets.findSome? fun h => match h with
        | .node m => (fun p => if p.isEmpty then none else some p) (c.pathTo t fuel m)
        | _ => none with
      | some p => k :: p
      | none => []
/-- A circuit without an end, and without the places that led to nothing else; the places are those on the way to it, the last one
first. -/
def Circuit.cutEnd (c : Circuit) (t : HopTarget) : List Nat → Circuit
  | [] => c
  | k :: ks =>
    let n := c.node k
    let n := { n with targets := n.targets.erase t }
    if n.targets.isEmpty && !ks.isEmpty then ({ c with nodes := c.nodes.drop k } : Circuit).cutEnd (.node k) ks else c.setNode k n
/-- New places after one that lead to an end, the last of which holds some flits. -/
def Circuit.addTail (c : Circuit) (k : Nat) (t : HopTarget) (waiting : List Flit) : List Nat → Circuit
  | [] => c.setNode k { c.node k with targets := (c.node k).targets ++ [t] }
  | tile :: rest =>
    let m := (c.nodes.map (·.1)).foldl max 0 + 1
    let c := c.setNode k { c.node k with targets := (c.node k).targets ++ [.node m] }
    (c.setNode m { tile := tile, flits := if rest.isEmpty then waiting else [] }).addTail m t waiting rest

/-- An edge's branch of its producer's circuit led anew over the tiles of another way out, from where the two ways part: what its flits
were beyond that waits at the last of them (log 25). -/
def Circuit.releadOut (c : Circuit) (inRegion : Nat → Bool) (n : Nat) (way : List Nat) : Circuit :=
  let t := HopTarget.edge n
  let path := c.pathTo t (c.nodes.length + 1) 0
  let staged := path.filter fun k => (c.node k).viaBank.isSome || (c.node k).passPort.isSome
  let root := staged.getLast?.getD ((path.find? fun k => inRegion (c.node k).tile).getD 0)
  let after := (path.dropWhile (· ≠ root)).tail
  let tiles := outTiles (c.node root).tile way
  let same := ((after.zip tiles).takeWhile fun p => (c.node p.1).tile = p.2).length
  if path.isEmpty || (same = after.length && same = tiles.length) then c
  else
    let gone := after.drop same
    let from_ := (after.take same).getLast?.getD root
    let waiting := (gone.reverse.map fun k => (c.node k).flits ++ (c.node k).wire).flatten
    let new := if tiles.length = same && waiting ≠ [] then [(c.node from_).tile] else tiles.drop same
    (c.cutEnd t (gone.reverse ++ [from_])).addTail from_ t waiting new

/-- The edges of a circuit led anew as far as some ways name them, where it comes in and where it goes out (12 R190). -/
def Circuit.releadEdges (c : Circuit) (inRegion : Nat → Bool) (ways : EdgeWays) : Circuit :=
  let c := match c.source with
    | .edgeIn _ n => if ways n false = [] then c else c.relead inRegion (ways n false)
    | _ => c
  c.ends.foldl (fun c t => match t with
    | .edge n => if ways n true = [] then c else c.releadOut inRegion n (ways n true)
    | _ => c) c

/-- The circuits of other activations, those of a gang with their edges led anew, as an activation's configuration lets them out and
takes them in. -/
def State.circuitsBeside (s : State) (a : Activation) (ways : EdgeWays) : Tab Circuit :=
  (s.circuits.filter fun k => k.2.owner ≠ a.colour).map fun k => (k.1, match s.activation k.2.owner with
    | some b => if a.gang.isSome && b.gang = a.gang && b.entry.asid = a.entry.asid then k.2.releadEdges b.holds ways else k.2
    | none => k.2)

/-- The circuit of a binding of an activation. -/
def circuitOf (a : Activation) (ways : EdgeWays) (b : Binding) : Circuit :=
  buildCircuit a.colour a.entry.asid (a.gang.getD 0) ways (moveBinding a b)

/-- The loads that are ready to be swept into force, but for those of a colour. -/
def State.readyLoads (s : State) (but : Option Nat) : List (Activation × PendingLoad) :=
  (s.activations.map (·.2)).filterMap fun a => a.load.bind fun l =>
    if l.phase = .loaded && a.phase ≠ .saved && some a.colour ≠ but then some (a, l) else none
/-- Some circuits as they will be once loads that are ready have been swept into force. -/
def State.sweptCircuits (s : State) (ready : List (Activation × PendingLoad)) (cs : List Circuit) : List Circuit :=
  (cs.filter fun c => !ready.any fun p => p.1.colour = c.owner) ++
  ready.flatMap fun p => p.2.config.bindings.map (circuitOf p.1 (s.edgeWaysOf p.1 p.2.config))

/-- The circuits of other activations, as they stand and as they will once their loads that are ready are in force, leave room on every
link for those of a configuration (12 R180, R190). -/
def State.linksFree (s : State) (a : Activation) (c : LoadedConfig) (ways : EdgeWays) : Load Unit :=
  let beside := (s.circuitsBeside a ways).map (·.2)
  mustAll [beside, s.sweptCircuits (s.readyLoads (some a.colour)) beside] fun cs =>
    checkLinks (circuitOf a ways) (linkLoads cs) c.bindings

/-- The fault of a load of an activation (25 R381, R383, R390): a configuration fault, or the fault that the loader's reads
met. It names the element and context, or the source port of the binding, where there is one, else the unit that loads: the
scheduler at placement, the sequencer at CFG (log 29). -/
def State.reportLoad (s : State) (a : Activation) (unit : Nat) (e : LoadError) : State :=
  let rel := e.element.or (e.binding.map (·.1))
  s.report
    { record := a.entry.va, unit := if e.element.isSome then 0 else unit, asid := a.entry.asid, slot := e.ctx, colour := a.colour,
      identifier := match rel with
        | some r => (a.absolute r).getD a.anchor
        | none => a.anchor,
      place := a.seq.cc, word := e.word }
    { e.info with detail := match e.binding with
        | some b => BitVec.ofNat 8 b.2
        | none => e.info.detail }

/-! ## Writing an image into a region (13 R211, 07 R115) -/

/-- Write the context words of a configuration into its slots. The contexts stay disabled until the configuration is in
force; their accumulators and status words are cleared and their cursors closed (07 R115, 10 R152). -/
def State.writeContexts (s : State) (a : Activation) (c : LoadedConfig) : State :=
  c.ctxs.foldl (fun s k =>
    let el := (a.absolute k.1).getD k.1
    let x := s.element el
    let old := x.ctxOf k.2.1
    s.putElement el (x.putCtx k.2.1 { old with
      word := k.2.2 &&& ~~~0x400000, acc := 0, accFp := slice k.2.2.toNat 14 13 = 2, status := 0, cursor := {}, held := none })) s

/-- The bits of a handler entry but MSK, which CTRL tokens change (07 R100, R106). -/
def withoutMask (h : Word) : Word := h &&& ~~~0x1000000

/-- Write the handler entries and code of a configuration that comes into force. Of a configuration that was resident the
entries keep the masks that CTRL tokens left. -/
def State.writeStores (s : State) (a : Activation) (c : LoadedConfig) (resident : Bool) : State :=
  let at_ (rel : Nat) : Nat := (a.absolute rel).getD rel
  let s := c.ctxs.foldl (fun s k =>
    let x := s.element (at_ k.1)
    let hs := handlersOf c k.1 k.2.1
    let table := (List.range (ctxHspan k.2.2 + 1)).foldl
      (fun (m : Tab Word) i =>
        let h := hs.getD i 0
        let old := m.getD (ctxHbase k.2.2 + i) 0
        m.put (ctxHbase k.2.2 + i) (if resident && withoutMask old = withoutMask h then old else h)) x.handlers
    s.putElement (at_ k.1) { x with handlers := table }) s
  c.code.foldl (fun s k =>
    let x := s.element (at_ k.1)
    let code := (k.2.mapIdx fun i w => (i, w)).foldl (fun (m : Tab Word) p => m.put p.1 p.2) x.code
    s.putElement (at_ k.1) { x with code := code }) s

/-- Enable or disable the contexts of a configuration. -/
def State.enableConfig (s : State) (a : Activation) (c : LoadedConfig) (on : Bool) : State :=
  c.ctxs.foldl (fun s k =>
    let el := (a.absolute k.1).getD k.1
    let x := s.element el
    let x' := x.ctxOf k.2.1
    s.putElement el (x.putCtx k.2.1 { x' with word := if on then k.2.2 else x'.word &&& ~~~0x400000 })) s

/-- The banks that a configuration names in a via= stage. -/
def viaBanks (a : Activation) (c : LoadedConfig) : List (Nat × Nat) :=
  c.bindings.flatMap fun b => b.entries.filterMap fun e =>
    if 48 ≤ e.2.1 && e.2.1 < 64 then (a.absolute e.1).map fun t => (t, e.2.1 - 48) else none

/-- The mode a configuration gives a bank (12 R189, 15 R238). -/
def configMode (a : Activation) (c : LoadedConfig) (tile bank : Nat) : BankMode :=
  if (viaBanks a c).contains (tile, bank) then .fifo else if c.cacheMode then .cache else .scratch

/-- Put the bindings of a configuration in force: circuits, port depths, ports. What is on its way in over an edge goes on in the
edge's new circuit (log 25). -/
def State.bindConfig (s : State) (a : Activation) (c : LoadedConfig) (ways : EdgeWays) : State :=
  let was := s.circuits.filter fun k => k.2.owner = a.colour
  let s := { s with circuits := s.circuitsBeside a ways }
  let s := a.elements.foldl (fun s e =>
    let x := s.element e
    s.putElement e { x with ports := x.ports.map fun p => (p.1, { p.2 with depth := 0, newDepth := none }) }) s
  let s := (boundPorts c).foldl (fun s p =>
    let el := (a.absolute p.1).getD p.1
    let x := s.element el
    s.putElement el { x with ports := x.ports.put p.2.1 { x.ports.getD p.2.1 {} with depth := p.2.2 } }) s
  c.bindings.foldl (fun s b =>
    let k := circuitOf a ways b
    let k := if 32 ≤ b.port then match was.find? fun o => o.2.source = k.source with
        | some o => k.takesOver a.holds o.2
        | none => k
      else k
    { s with circuits := s.circuits.put s.nextCircuit k, nextCircuit := s.nextCircuit + 1 }) s

/-- Put the nests and stream programs of a configuration in force; a stream program starts at its first step. A stream program
that is in a step, or held, gives way, and what its step has staged is gone (DESIGN CHOICE, log 60). -/
def State.startStreams (s : State) (a : Activation) (c : LoadedConfig) : State :=
  a.memTiles.foldl (fun s t =>
    let x := s.tile t
    let nests := (c.nests.filter fun n => a.absolute n.1 = some t).foldl (fun (m : Tab Nest) n => m.put n.2.1 n.2.2) []
    let stream : Sequencer := match c.streams.find? fun p => a.absolute p.1 = some t with
      | some p => { program := p.2, running := true }
      | none => {}
    s.putTile t { x with nests := nests, stream := stream }) s

/-- Put the banks of a region in the modes of a configuration. -/
def State.setBanks (s : State) (a : Activation) (c : LoadedConfig) (f : State → Nat → Nat → BankMode → State) : State :=
  a.memTiles.foldl (fun s t => (List.range 16).foldl (fun s b => f s t b (configMode a c t b)) s) s

end Sys2Proof.Machine
end

