-- ==== Sys2Proof/Machine/Launch.lean ====
section
/-! DEFINITION. Launch chains, the inspection of activation records, pushes, split parts and YIELD (17 R276 to R280; 18 R287
to R290, R295; 21 R333, R335; 26 R415). -/
namespace Sys2Proof.Machine

/-! ## Launch chains (18 R287, R288) -/

def State.chainSize (s : State) (asid : Nat) : Nat := s.descField asid 8 4
def State.chainHead (s : State) (asid : Nat) : Nat := s.descField asid 0x0C 4
def State.chainTail (s : State) (asid : Nat) : Nat := s.descField asid 0x10 4
/-- The slots between HEAD and TAIL, modulo 2^32. -/
def State.chainUsed (s : State) (asid : Nat) : Nat := (s.chainTail asid + 2 ^ 32 - s.chainHead asid) % 2 ^ 32
def State.chainFull (s : State) (asid : Nat) : Bool := s.chainSize asid ≤ s.chainUsed asid
/-- The device virtual address of a slot. -/
def State.slotVa (s : State) (asid i : Nat) : Nat := s.descField asid 0 8 + 64 * (i % max 1 (s.chainSize asid))

/-- A record with HELD set (18 R302). -/
def withHeld (record : BitVec 512) : BitVec 512 := record ||| ((4 : BitVec 512) <<< (8 * 0x21))

/-- The scheduler writes a record into a slot of a context's chain. A slot that it cannot write is a fault of the scheduler, and the
record is lost (24 R377; DESIGN CHOICE, log 72). -/
def State.putSlot (s : State) (asid va : Nat) (record : BitVec 512) : State :=
  let fault (s : State) (f : FaultInfo) : State := s.report { unit := 4, asid := asid } { f with flags := f.flags ||| 8 }
  match s.reachPage asid .write va with
  | .error f => fault s f
  | .ok l =>
    let s := (s.cacheLeaf asid va l).llcPut 0 l.pa (leBytes 64 record.toNat)
    if s.retired l.pa then fault s { code := 0x26, address := BitVec.ofNat 64 va } else s

/-- Append a record to a context's launch chain: slot, TAIL, counters, and its place in spawn order (18 R288, 19 R312); none where an
access of the append itself ends the context (24 R376). -/
def State.appendRecord (s : State) (asid : Nat) (record : BitVec 512) (parents : List Nat) : State :=
  let on := s.chainEnabled asid
  let s := s.meetDesc asid
  let t := s.chainTail asid
  let s := if on && !s.chainEnabled asid then s else s.putSlot asid (s.slotVa asid t) record
  if on && !s.chainEnabled asid then s
  else
  let s := s.putDesc asid 0x10 4 ((t + 1) % 2 ^ 32)
  let s := s.mapSched fun c => { c with
    notes := c.notes ++ [{ asid := asid, slot := t, stamp := c.nextStamp, record := record, parents := parents }],
    nextStamp := c.nextStamp + 1 }
  s.raiseCounters asid record

/-! ## Records (17 R276, R277; 18 R289) -/

/-- The region records of a table. -/
def regionRecords (bs : List Byte) (n : Nat) : List RegionRecord :=
  (List.range n).map fun i =>
    { base := bytesAt bs (16 * i) 8, extent := bytesAt bs (16 * i + 8) 6, mode := bytesAt bs (16 * i + 14) 1 % 16 }

/-- Reserved bits, extent, mode and range of the region record at place i of a table. -/
def regionGood (bs : List Byte) (i : Nat) : Bool :=
  let base := bytesAt bs (16 * i) 8
  let extent := bytesAt bs (16 * i + 8) 6
  let top := bytesAt bs (16 * i + 14) 2
  1 ≤ extent && top < 4 && base + extent ≤ 2 ^ 48

/-- The region records that a record names, as far as the context translates them. -/
def State.tableOf (s : State) (asid : Nat) (record : BitVec 512) : State × List Byte :=
  let n := field record 0x22 1
  match s.readBytes asid .read false (field record 0x28 8) (16 * n) with
  | (s, .ok bs) => (s, bs)
  | (s, .error _) => (s, [])

/-- The extents of a record and their product E (13 R217). -/
def recordExtent (record : BitVec 512) : Nat :=
  field record 0x30 4 * field record 0x34 4 * field record 0x38 4 * field record 0x3C 4

def recordPriority (record : BitVec 512) : Nat := field record 0x20 1 % 8
def recordFlag (record : BitVec 512) (i : Nat) : Bool := field record 0x21 1 / 2 ^ i % 2 = 1
/-- The REDUNDANT and DISJOINT flags of a record. -/
def isRedundant (record : BitVec 512) : Bool := recordFlag record 1
def isDisjoint (record : BitVec 512) : Bool := recordFlag record 3

/-- The fields of a record that R289 checks by themselves. -/
def recordGood (record : BitVec 512) : Bool :=
  field record 0x20 1 < 8 && field record 0x21 1 < 16 && field record 0x23 1 = 0 && field record 0x26 2 = 0 &&
  field record 0x22 1 ≤ 16 && field record 0x28 8 % 16 = 0 && recordExtent record ≠ 0 && recordExtent record < 2 ^ 48 &&
  (field record 0x24 2 = 0xFFFF || field record 0x24 2 ≠ field record 0x1C 2)

/-- The after phase of a record has a counter that is not zero (17 R278). -/
def State.mustWait (s : State) (asid : Nat) (record : BitVec 512) : Bool :=
  let after := field record 0x24 2
  after ≠ 0xFFFF && counterOf s (asid, field record 0x1E 2, 3, after) ≠ 0

/-- The code of a record that cannot be read: what a retired frame gives is a poisoned-frame fault (24 R377), the rest a record fault
(18 R289). -/
def recordCode (f : FaultInfo) : BitVec 8 := if f.code = 0x26 then 0x26 else 0x61

/-- Read and check a record as the scheduler does at its fetch: the queue entry it makes, or the code with which it is refused
(18 R289; 24 R377; 26 R415). Its edges are read from the whole image now, whatever keeps that from being loaded (DESIGN CHOICE, log
69). -/
def State.inspect (s : State) (asid die va : Nat) (record : BitVec 512) (order : Nat) (parents : List Nat) :
    State × Except (BitVec 8) Entry :=
  if recordGood record = false then (s, .error 0x61)
  else
    let n := field record 0x22 1
    match s.readBytes asid .read false (field record 0x28 8) (16 * n) with
    | (s, .error f) => (s, .error (recordCode f))
    | (s, .ok table) =>
    let rs := regionRecords table n
    let image := field record 0 8
    if (List.range n).all (regionGood table) = false ∨ image % 64 ≠ 0 ∨
        (isRedundant record && rs.any fun r => r.mode = 3) then (s, .error 0x61)
    else match s.readBytes asid .config false image 64 with
      | (s, .error f) => (s, .error (recordCode f))
      | (s, .ok hb) =>
        let hd := BitVec.ofNat 512 (natOfBytes hb)
        let h := imageHeader hd
        if headerGood hd = false ∨ shapeGood h.link asid h.width h.height = false then (s, .error 0x61)
        else
          let (s, bytes) := s.readImage asid image
          let edges := match bytes with
            | .ok bs => imageEdges bs
            | .error _ => []
          let broken := match bytes with
            | .ok bs => (parseImage s.host.signingKeys asid true bs).toOption.isNone
            | .error _ => true
          let id := s.sched.nextEntry
          let e : Entry :=
            { id := id, asid := asid, die := die, va := va, record := record, regions := rs, width := h.width,
              height := h.height, link := h.link, hi := recordExtent record, held := recordFlag record 2,
              stepMode := false, pending := s.mustWait asid record, since := s.cycle, order := order, parents := parents,
              family := id, edges := edges, broken := broken }
          (s.mapSched fun c => { c with nextEntry := id + 1 }, .ok e)

/-- What completes of a record that never becomes a queue entry. -/
def unqueued (asid die va : Nat) (record : BitVec 512) : Entry :=
  { asid := asid, die := die, va := va, record := record, hi := recordExtent record }

/-- The fault of a record at an address, most often the record fault (18 R289). -/
def State.reportRecord (s : State) (asid die va : Nat) (code : BitVec 8) : State :=
  s.report { record := va, unit := 4, asid := asid, identifier := tileId die 0 0 } { code := code, address := BitVec.ofNat 64 va }

/-- A counted record is refused: its fault, and it completes with the code (18 R289; 25 R381). -/
def State.refuseRecord (s : State) (asid die va : Nat) (code : BitVec 8) (record : BitVec 512) : State :=
  (s.reportRecord asid die va code).completeEntry (unqueued asid die va record) code.toNat

/-- An access between two states has terminated a context (24 R376). -/
def State.terminatedSince (s before : State) (asid : Nat) : Bool :=
  let ended (a : Activation) : Bool := a.cancelled && a.code = 0x65
  (before.chainEnabled asid && !s.chainEnabled asid) ||
  s.activations.any fun p => p.2.entry.asid = asid && ended p.2 && (before.activation p.1).all fun a => !ended a

/-- A record that has been counted enters the queues of a die; one that a standing mark names is dropped, as one is whose own inspection
terminates its context, and one that is refused completes (18 R289, R298; 19 R316; 24 R376). -/
def State.acceptRecord (s : State) (asid die va : Nat) (record : BitVec 512) (order : Nat) (parents : List Nat) : State :=
  match s.marked asid record with
  | some code => s.dropRecord (unqueued asid die va record) code
  | none => match s.inspect asid die va record order parents with
    | (t, r) =>
      if t.terminatedSince s asid then t.dropRecord (unqueued asid die va record) 0x65
      else match r with
        | .ok e => t.mapSched fun c => { c with entries := c.entries ++ [e] }
        | .error code => t.refuseRecord asid die va code record

/-- What an activation passes on as dependences: itself and what it depends on (17 R280). -/
def Activation.lineage (a : Activation) : List Nat := a.entry.id :: a.entry.parents

/-- What the region's tile caches hold dirty of a device virtual range is written back (17 R278; 19 R307). -/
def State.releaseRange (s : State) (a : Activation) (va n : Nat) : State :=
  (s.rangePages a.entry.asid va n).foldl (fun s p => s.engineFlush a p.1 p.2 false) s
/-- The region records of a record as the activation that spawns or pushes it has stored them. -/
def State.tableFrom (s : State) (a : Activation) (record : BitVec 512) : State × List RegionRecord :=
  let s := s.releaseRange a (field record 0x28 8) (16 * field record 0x22 1)
  let t := s.tableOf a.entry.asid record
  (t.1, regionRecords t.2 (t.2.length / 16))

/-- A store of an activation's elements that some records cover was committed by some moment and is not performed (17 R279; 19
R307). -/
def State.storesQueued (s : State) (a : Activation) (rs : List RegionRecord) (upTo : Nat) : Bool :=
  a.elements.any fun e => (s.element e).requests.any fun q => q.2.any fun r =>
    r.colour.toNat = a.colour && r.op.isStore && !r.scratch && r.failed.isNone && decide (r.at_ ≤ upTo) &&
    rs.any fun k => (k.mode = 0 || k.mode = 2) && k.base < r.va + r.size && r.va < k.base + k.extent

/-- The record that a command pushes, as it can be read (16 R258). -/
def State.pushedRecord (s : State) (a : Activation) (va : Nat) : State × Except FaultInfo (List Byte) :=
  (s.releaseRange a va 64).readBytes a.entry.asid .read false va 64

/-- The push of a command appended at some moment waits for stores committed before it: to the record, its region table, or what
its R and RW records cover (19 R307). -/
def State.pushWaits (s : State) (a : Activation) (va upTo : Nat) : Bool :=
  let own : RegionRecord := { base := va, extent := 64, mode := 0 }
  va ≠ 0 && va % 64 = 0 && (s.storesQueued a [own] upTo || match s.pushedRecord a va with
    | (_, .error _) => false
    | (s, .ok bs) =>
      let record := BitVec.ofNat 512 (natOfBytes bs)
      let table : RegionRecord := { base := field record 0x28 8, extent := 16 * field record 0x22 1, mode := 0 }
      s.storesQueued a (table :: (s.tableFrom a record).2) upTo)

/-- A command pushes an activation record: its stores are released, its counters rise, and it enters the die's queues
(16 R258; 17 R276, R278; 19 R307). Where no record can be read, there is none to count or to complete. -/
def State.pushRecord (s : State) (a : Activation) (va : Nat) : State :=
  let asid := a.entry.asid
  if va % 64 ≠ 0 then s.reportRecord asid a.die va 0x61
  else match s.pushedRecord a va with
  | (s, .error f) => s.reportRecord asid a.die va (recordCode f)
  | (s, .ok bs) =>
    let record := BitVec.ofNat 512 (natOfBytes bs)
    let t := s.tableFrom a record
    let s := t.1.releaseFor a t.2
    let s := s.raiseCounters asid record
    let stamp := s.sched.nextStamp
    let s := s.mapSched fun c => { c with nextStamp := stamp + 1 }
    s.acceptRecord asid a.die va record stamp a.lineage

/-- SPAWN commits: the child's stores are released and the record is appended (17 R279, 19 R307); in step mode it is HELD
(18 R302). -/
def State.spawnRecord (s : State) (a : Activation) (record : BitVec 512) : State :=
  let t := s.tableFrom a record
  let s := t.1.releaseFor a t.2
  s.appendRecord a.entry.asid (if a.stepMode then withHeld record else record) a.lineage

/-! ## Eligibility (18 R290, R296; 11 R171) -/

/-- The entries of the graph of an entry whose configurations name edges: its gang. A record that comes once a gang has been placed
belongs to another gang, which waits while it is incomplete (DESIGN CHOICE, log 69: 11 R171 is silent on late members). -/
def State.gangOf (s : State) (e : Entry) : List Entry :=
  s.sched.entries.filter fun f => !f.edges.isEmpty && f.asid = e.asid && f.resumes = none &&
    field f.record 0x1E 2 = field e.record 0x1E 2 && field f.record 0x1A 2 = field e.record 0x1A 2

/-- How many producers or consumers of an edge a gang has. -/
def edgeEnds (g : List Entry) (n : Nat) (out : Bool) : Nat := ((g.flatMap (·.edges)).filter fun k => k = (n, out)).length
def gangEdges (g : List Entry) : List Nat := ((g.flatMap (·.edges)).map (·.1)).dedup
/-- Every edge has a fetched producer and consumer. -/
def gangComplete (g : List Entry) : Bool :=
  (gangEdges g).all fun n => 1 ≤ edgeEnds g n true && 1 ≤ edgeEnds g n false
/-- Every edge has exactly one producer and one consumer, and every member's image can be loaded. -/
def gangWellFormed (g : List Entry) : Bool :=
  ((gangEdges g).all fun n => edgeEnds g n true = 1 && edgeEnds g n false = 1) && g.all fun e => !e.broken

/-- An edge already has more than one producer or consumer, or the image of a member cannot be loaded: no record that comes can mend
the graph. -/
def gangDoomed (g : List Entry) : Bool :=
  ((gangEdges g).any fun n => 1 < edgeEnds g n true || 1 < edgeEnds g n false) || g.any (·.broken)

/-- An entry by itself may be placed: it is queued, not HELD, and its context is not saved away (25 R401). -/
def State.ready (s : State) (e : Entry) : Bool :=
  !e.pending && !e.held && !s.sched.saved.contains e.asid
/-- An eligible record: a ready one that resumes, that is no member of a gang, or whose gang is complete with every member ready
(18 R296). A record without edges in a graph that cannot be placed any more waits for its gang, to end with it (11 R171; log 69). -/
def State.eligible (s : State) (e : Entry) : Bool :=
  s.ready e && (e.resumes.isSome || (e.edges.isEmpty && !gangDoomed (s.gangOf e)) ||
    (gangComplete (s.gangOf e) && (s.gangOf e).all s.ready))

/-! ## YIELD and SPLIT (21 R333, R335; 18 R295, R299) -/

/-- The save area that a pre-emption of an activation needs (18 R299). -/
def State.saveFits (s : State) (a : Activation) : Bool := 2 ^ 21 * (a.width * a.height) ≤ s.descField a.entry.asid 0x20 8

/-- YIELD gives the region up where a record waits for it and the activation may be pre-empted. -/
def State.yields (s : State) (a : Activation) : Bool :=
  (s.sched.entries.any fun e => e.die = a.die && s.eligible e && recordPriority a.entry.record ≤ recordPriority e.record &&
    e.width = a.width && e.height = a.height && e.link = a.entry.link) &&
  s.preemptible a.entry.asid && s.saveFits a && a.gang.isNone && a.role = .single && !a.stepMode && !a.entry.link

/-- SPLIT: the part over [ISC + k, E), and what d receives (21 R333). -/
def State.splitAt (s : State) (a : Activation) (k : Nat) : State × Nat :=
  if a.extent - a.isc ≤ k ∨ a.role ≠ .single ∨ a.gang.isSome then (s, 0)
  else
    let e : Entry := { a.entry with
      id := s.sched.nextEntry, die := a.die, lo := a.isc + k, hi := a.extent, isPart := true, held := a.stepMode,
      stepMode := false, pending := false, since := s.cycle, gained := 0, failedAt := none, starved := false,
      counted := false, resumes := none, reserved := none, claim := none }
    let s := s.mapSched fun c => { c with entries := c.entries ++ [e], nextEntry := c.nextEntry + 1 }
    let s := s.raiseCounters a.entry.asid a.entry.record
    let entry := { a.entry with hi := a.isc + k }
    (s.putActivation { a with extent := a.isc + k, entry := entry }, a.extent - a.isc - k)

end Sys2Proof.Machine
end

