-- ==== Sys2Proof/Machine/Float.lean ====
section
/-! DEFINITION. Floating point (04 R52 to R58; 09 R139 to R147): formats, exact values, one rounding, and the special
functions with their bounds. -/
namespace Sys2Proof.Machine

/-- A format: exponent and fraction widths, bias, and whether it is E4M3 with its one NaN and no infinity (04 R52). -/
structure Fmt where
  eb : Nat
  mb : Nat
  bias : Nat
  e4m3 : Bool := false
  deriving DecidableEq, Repr, Inhabited

def fmtF32 : Fmt := { eb := 8, mb := 23, bias := 127 }
def fmtBf16 : Fmt := { eb := 8, mb := 7, bias := 127 }
def fmtE4m3 : Fmt := { eb := 4, mb := 3, bias := 7, e4m3 := true }
def fmtE5m2 : Fmt := { eb := 5, mb := 2, bias := 15 }

def Fmt.width (f : Fmt) : Nat := 1 + f.eb + f.mb
def Fmt.signBit (f : Fmt) : Nat := 2 ^ (f.eb + f.mb)
/-- The canonical NaN and the infinity without its sign (04 R53). -/
def Fmt.nan (f : Fmt) : Nat := if f.e4m3 then 0x7F else (2 ^ f.eb - 1) * 2 ^ f.mb + 2 ^ (f.mb - 1)
def Fmt.infinity (f : Fmt) : Nat := (2 ^ f.eb - 1) * 2 ^ f.mb
/-- The largest finite magnitude. -/
def Fmt.largest (f : Fmt) : Nat := if f.e4m3 then 0x7E else f.infinity - 1

/-- What an encoding stands for; a finite value is its sign, `m` and `e` for m × 2^e. -/
inductive FVal where
  | nan (signalling : Bool)
  | inf (neg : Bool)
  | fin (neg : Bool) (m : Nat) (e : Int)
  deriving DecidableEq, Repr, Inhabited

/-- The value of an encoding (04 R52, R55). -/
def Fmt.value (f : Fmt) (bits : Nat) : FVal :=
  let neg := bits / f.signBit % 2 = 1
  let ex := bits / 2 ^ f.mb % 2 ^ f.eb
  let fr := bits % 2 ^ f.mb
  if f.e4m3 then
    if ex = 15 ∧ fr = 7 then .nan false
    else if ex = 0 then .fin neg fr (1 - f.bias - f.mb) else .fin neg (2 ^ f.mb + fr) ((ex : Int) - f.bias - f.mb)
  else if ex = 2 ^ f.eb - 1 then
    if fr = 0 then .inf neg else .nan (fr < 2 ^ (f.mb - 1))
  else if ex = 0 then .fin neg fr (1 - f.bias - f.mb) else .fin neg (2 ^ f.mb + fr) ((ex : Int) - f.bias - f.mb)

/-- A rounding mode by its RM code (05 R70). -/
inductive Rounding where
  | rne | rz | rdn | rup
  deriving DecidableEq, Repr, Inhabited

def roundingOf (rm : BitVec 2) : Rounding :=
  match rm.toNat with
  | 0 => .rne
  | 1 => .rz
  | 2 => .rdn
  | _ => .rup

/-- Whether a magnitude with quotient `q` and remainder `r` of `2 ^ sh` goes up to `q + 1` (04 R56). -/
def roundsUp (rm : Rounding) (neg : Bool) (q r sh : Nat) : Bool :=
  match rm with
  | .rne => 2 ^ sh < 2 * r || (2 * r = 2 ^ sh && q % 2 = 1)
  | .rz => false
  | .rdn => neg && r ≠ 0
  | .rup => !neg && r ≠ 0

/-- m × 2^e rounded to a multiple of 2^u: the multiple. -/
def roundAt (rm : Rounding) (neg : Bool) (m : Nat) (e u : Int) : Nat :=
  if u ≤ e then m * 2 ^ (e - u).toNat
  else
    let sh := (u - e).toNat
    let q := m / 2 ^ sh
    if roundsUp rm neg q (m % 2 ^ sh) sh then q + 1 else q

/-- The magnitude bits of a result beyond the largest finite value (04 R57). -/
def overflowBits (f : Fmt) (rm : Rounding) (neg : Bool) : Nat :=
  match rm with
  | .rne => f.infinity
  | .rz => f.largest
  | .rdn => if neg then f.infinity else f.largest
  | .rup => if neg then f.largest else f.infinity

def signOf (f : Fmt) (neg : Bool) : Nat := if neg then f.signBit else 0

/-- A finite exact value rounded once to a format, with OF or SAT (04 R56, R57). -/
def Fmt.round (f : Fmt) (rm : Rounding) (neg : Bool) (m : Nat) (e : Int) : Nat × Word :=
  if m = 0 then (signOf f neg, 0)
  else
    let emin : Int := 1 - f.bias - f.mb
    let u := max (e + (Nat.log2 m + 1 : Nat) - (f.mb + 1 : Nat)) emin
    let q := roundAt rm neg m e u
    let field := (u - emin).toNat + 1
    let bits := if q < 2 ^ f.mb then q else (field - 1) * 2 ^ f.mb + q
    if f.largest < bits then
      if f.e4m3 then (signOf f neg + f.largest, evVsat) else (signOf f neg + overflowBits f rm neg, evVof)
    else (signOf f neg + bits, 0)

/-- The encoding of a value rounded once; an infinity becomes ±448 with SAT in E4M3 (04 R57, R58). -/
def Fmt.encode (f : Fmt) (rm : Rounding) : FVal → Nat × Word
  | .nan _ => (f.nan, 0)
  | .inf neg => if f.e4m3 then (signOf f neg + f.largest, evVsat) else (signOf f neg + f.infinity, 0)
  | .fin neg m e => f.round rm neg m e

def FVal.isNan : FVal → Bool
  | .nan _ => true
  | _ => false
def FVal.isSignalling : FVal → Bool
  | .nan s => s
  | _ => false
def FVal.isZero : FVal → Bool
  | .fin _ m _ => m = 0
  | _ => false
def FVal.neg : FVal → FVal
  | .nan s => .nan s
  | .inf n => .inf !n
  | .fin n m e => .fin (!n) m e

/-- The exact product of two values, and whether it is 0 × ∞ (04 R55). -/
def FVal.mul : FVal → FVal → FVal × Bool
  | .nan _, _ => (.nan false, false)
  | _, .nan _ => (.nan false, false)
  | .inf a, .inf b => (.inf (a != b), false)
  | .inf a, .fin b m _ => if m = 0 then (.nan false, true) else (.inf (a != b), false)
  | .fin a m _, .inf b => if m = 0 then (.nan false, true) else (.inf (a != b), false)
  | .fin a m e, .fin b n d => (.fin (a != b) (m * n) (e + d), false)

/-- A finite term as an integer multiple of 2^u. -/
def termAt (u : Int) : FVal → Int
  | .fin neg m e => let x : Int := (m * 2 ^ (e - u).toNat : Nat); if neg then -x else x
  | _ => 0
def expOf : FVal → Int
  | .fin _ _ e => e
  | _ => 0
def FVal.isNeg : FVal → Bool
  | .nan _ => false
  | .inf n => n
  | .fin n _ _ => n

/-- The exact sum of values, and whether it adds infinities of opposite sign. A zero sum keeps a sign that all its terms
share; otherwise it is +0, or −0 toward −∞ (04 R54, R55). -/
def sumVals (rm : Rounding) (ts : List FVal) : FVal × Bool :=
  let pos := ts.contains (.inf false)
  let negi := ts.contains (.inf true)
  if pos && negi then (.nan false, true)
  else if ts.any (·.isNan) then (.nan false, false)
  else if pos then (.inf false, false)
  else if negi then (.inf true, false)
  else
    let u := (ts.map expOf).foldl min ((ts.map expOf).headD 0)
    let x := (ts.map (termAt u)).foldl (· + ·) 0
    if x = 0 then
      let neg := if ts.all (·.isZero) && ts.all (·.isNeg) then true
        else if ts.all (·.isZero) && !ts.any (·.isNeg) then false
        else rm = .rdn
      (.fin neg 0 0, false)
    else (.fin (x < 0) x.natAbs u, false)

/-- NV where an invalid operation or a signalling operand occurs (04 R55, 09 R139). -/
def nvIf (c : Bool) : Word := if c then evVnv else 0

/-- A sum of products and addends of encodings, rounded once: `prods` are multiplied, `terms` added (09 R142, R143,
R150). The first component of a product says whether it is negated. -/
def sumProducts (f : Fmt) (rm : Rounding) (prods : List (Bool × Nat × Nat)) (terms : List (Bool × Nat)) : Nat × Word :=
  let ps := prods.map fun p =>
    let r := (f.value p.2.1).mul (f.value p.2.2)
    (if p.1 then r.1.neg else r.1, r.2)
  let vs := terms.map fun t => if t.1 then (f.value t.2).neg else f.value t.2
  let sig := (prods.any fun p => (f.value p.2.1).isSignalling || (f.value p.2.2).isSignalling) || vs.any (·.isSignalling)
  let r := sumVals rm (ps.map (·.1) ++ vs)
  let e := f.encode rm r.1
  (e.1, e.2 ||| nvIf (sig || r.2 || ps.any (·.2)))

/-- round_rne of the sum of two FP32 encodings: the accumulator step of 04 R63. -/
def addF32 (a b : Nat) : Nat × Word := sumProducts fmtF32 .rne [] [(false, a), (false, b)]

/-- How two numbers compare, −0 and +0 equal: less, equal, greater; none for a NaN (09 R145). -/
def compareVals (a b : FVal) : Option Ordering :=
  match a, b with
  | .nan _, _ => none
  | _, .nan _ => none
  | .inf x, .inf y => some (compare (if x then 0 else 1 : Nat) (if y then 0 else 1))
  | .inf x, .fin .. => some (if x then .lt else .gt)
  | .fin .., .inf y => some (if y then .gt else .lt)
  | .fin x m e, .fin y n d =>
    let u := min e d
    some (compare (termAt u (.fin x m e)) (termAt u (.fin y n d)))

/-- FMIN or FMAX of two encodings, −0 below +0 (09 R144). -/
def minMax (f : Fmt) (isMax : Bool) (a b : Nat) : Nat × Word :=
  let x := f.value a
  let y := f.value b
  let nv := nvIf (x.isSignalling || y.isSignalling)
  if x.isNan && y.isNan then (f.nan, nv)
  else if x.isNan then (b, nv)
  else if y.isNan then (a, nv)
  else
    let aLess := match compareVals x y with
      | some .lt => true
      | some .eq => x.isNeg
      | _ => false
    (if aLess != isMax then a else b, nv)

/-- A value rounded to an integer (04 R59). -/
def roundInt (rm : Rounding) (neg : Bool) (m : Nat) (e : Int) : Int :=
  let q : Int := roundAt rm neg m e 0
  if neg then -q else q

/-- CVT from a floating type to an integer type (04 R59). -/
def floatToInt (f : Fmt) (rm : Rounding) (signed : Bool) (w : Nat) (bits : Nat) : Nat × Word :=
  match f.value bits with
  | .nan _ => (0, evVnv)
  | .inf neg => (wrapTo w (if neg then typeMin signed w else typeMax signed w), evVsat)
  | .fin neg m e => narrow true signed w (roundInt rm neg m e)

/-- An integer rounded to a floating type (04 R59). -/
def intToFloat (f : Fmt) (rm : Rounding) (x : Int) : Nat × Word := f.round rm (x < 0) x.natAbs 0

/-- FCVT between two formats (04 R58, 09 R148). -/
def convertFloat (src dst : Fmt) (rm : Rounding) (bits : Nat) : Nat × Word :=
  let v := src.value bits
  let r := dst.encode rm v
  (r.1, r.2 ||| nvIf v.isSignalling)

/-! ## Special functions (09 R146, R147) -/

/-- A quotient n × 2^-k / d as a dyadic with a sticky last bit, for one correct rounding. -/
def stickyDiv (n d k : Nat) : Nat × Int :=
  let q := n * 2 ^ k / d
  (2 * q + (if n * 2 ^ k % d = 0 then 0 else 1), -(k : Int) - 1)

/-- round_rne(1/x) of a finite non-zero value. -/
def recip (neg : Bool) (m : Nat) (e : Int) : Nat × Word :=
  let q := stickyDiv 1 m 80
  fmtF32.round .rne neg q.1 (q.2 - e)

/-- round_rne(1/√x) of a positive value: the root of 2^160 / m, with a sticky bit. -/
def recipRoot (m : Nat) (e : Int) : Nat × Word :=
  let m2 := if e % 2 = 0 then m else 2 * m
  let e2 := if e % 2 = 0 then e else e - 1
  let n := 2 ^ 160 / m2
  let r := Nat.sqrt n
  let exact := m2 * r * r = 2 ^ 160
  fmtF32.round .rne false (2 * r + (if exact then 0 else 1)) (-81 - e2 / 2)

/-- ln 2 and log₂ e as multiples of 2^-256, rounded down. -/
def ln2Fix : Nat := 0xB17217F7D1CF79ABC9E3B39803F2F6AF40F343267298B62D8A0D175B8BAAFA2B
def log2eFix : Nat := 2 ^ 512 / ln2Fix

/-- The sum of the first `n` terms of e^t - 1 + 1 for t = `t` × 2^-256, as a multiple of 2^-256. -/
def expSeries (t : Nat) : Nat → Nat → Nat → Nat → Nat
  | 0, _, _, acc => acc
  | n + 1, k, term, acc => expSeries t n (k + 1) (term * t / 2 ^ 256 / k) (acc + term)

/-- 2^f for f = `f` × 2^-256 below 1, as a multiple of 2^-256. -/
def exp2Fix (f : Nat) : Nat := expSeries (f * ln2Fix / 2 ^ 256) 64 1 (2 ^ 256) 0

/-- Bits of log₂ of a number in [1, 2) given as a multiple of 2^-256, by repeated squaring. -/
def log2Bits : Nat → Nat → Nat → Nat
  | 0, _, acc => acc
  | n + 1, x, acc =>
    let y := x * x / 2 ^ 256
    if 2 ^ 257 ≤ y then log2Bits n (y / 2) (2 * acc + 1) else log2Bits n y (2 * acc)

/-- 2^x of a finite value, as m × 2^e; `x` beyond the range of f32 is not asked. -/
def exp2Approx (neg : Bool) (m : Nat) (e : Int) : Nat × Int :=
  let x : Int := if neg then -(roundAt .rz false m e (-256) : Int) else (roundAt .rz false m e (-256) : Int)
  let n := x / (2 ^ 256 : Nat)
  (exp2Fix (x % (2 ^ 256 : Nat)).toNat, n - 256)

/-- log₂ of a positive value, as a sign, m and e. -/
def log2Approx (m : Nat) (e : Int) : Bool × Nat × Int :=
  let k := Nat.log2 m
  let frac := log2Bits 128 (m * 2 ^ 256 / 2 ^ k) 0
  let y : Int := (e + k) * (2 ^ 128 : Nat) + frac
  (y < 0, y.natAbs, -128)

/-- tanh of a positive value below 16, as m × 2^e: (1 - u) / (1 + u) with u = e^(-2x). -/
def tanhApprox (m : Nat) (e : Int) : Nat × Int :=
  let t := 2 * roundAt .rz false m e (-256) * log2eFix / 2 ^ 256
  let u := exp2Fix (2 ^ 256 - t % 2 ^ 256) / 2 ^ (t / 2 ^ 256 + 1)
  ((2 ^ 256 - u) * 2 ^ 256 / (2 ^ 256 + u), -256)

/-- ulp(y) of an exact value near m × 2^e, as an exponent (09 R146). -/
def ulpExp (m : Nat) (e : Int) : Int := max (e + (Nat.log2 m : Nat)) (-126) - 23

/-- FP32 encodings but NaNs as integers in the order of their values, and back; both zeros are 0, which
comes back as +0: so the zero that FLOG2 may give for an x just below 1 is +0, of which 09 R146 gives no sign (DESIGN CHOICE, log
16). -/
def orderOf (bits : Nat) : Int := if bits < 2 ^ 31 then bits else -((bits - 2 ^ 31 : Nat) : Int)
def ofOrder (k : Int) : Nat := if 0 ≤ k then k.toNat else 2 ^ 31 + k.natAbs

/-- The least FP32 value at or above ±m × 2^e − b × 2^u, and the greatest finite one at or below ±m × 2^e + b × 2^u. -/
def leastWithin (neg : Bool) (m : Nat) (e : Int) (b : Nat) (u : Int) : Int :=
  let y := termAt (min e u) (.fin neg m e) - (b * 2 ^ (u - min e u).toNat : Nat)
  orderOf (fmtF32.round .rup (y < 0) y.natAbs (min e u)).1
def greatestWithin (neg : Bool) (m : Nat) (e : Int) (b : Nat) (u : Int) : Int :=
  let y := termAt (min e u) (.fin neg m e) + (b * 2 ^ (u - min e u).toNat : Nat)
  min 0x7F7FFFFF (orderOf (fmtF32.round .rdn (y < 0) y.natAbs (min e u)).1)
/-- The place of a finite exact value in that order. -/
def orderOfVal (v : FVal) : Int := min 0x7F7FFFFF (orderOf (fmtF32.encode .rz v).1)

/-- A free result between two values, for an input x, as places in the order: a search that halves the order goes up at a
middle that the lower value reaches, and at one that the upper value allows where the input has reached the free threshold of
that middle. A greater input goes up wherever a lesser one does, so the result never falls (09 R146; log 16). -/
def chosen (threshold : Word → Word) (x lo hi : Int) : Nat → Int → Int → Int
  | 0, a, _ => a
  | n + 1, a, b =>
    let m := (a + b) / 2
    if m ≤ lo ∨ (m ≤ hi ∧ orderOf (threshold (BitVec.ofNat 32 (ofOrder m))).toNat ≤ x) then chosen threshold x lo hi n m b
    else chosen threshold x lo hi n a m

/-- A result that the spec bounds, between the exact cases beside it: never below the least that an input below it may
have (log 16). -/
def bounded (threshold : Word → Word) (x : Int) (neg : Bool) (m : Nat) (e : Int) (b : Nat) (u : Int) (lo hi : FVal)
    (floor : Int := orderOfVal lo) : Nat × Word :=
  let least := max floor (max (leastWithin neg m e b u) (orderOfVal lo))
  (ofOrder (chosen threshold x least (min (greatestWithin neg m e b u) (orderOfVal hi)) 33 (-(2 ^ 32)) (2 ^ 32)), 0)

/-- An integer as an exact value. -/
def intVal (x : Int) : FVal := .fin (x < 0) x.natAbs 0

/-- Whether m × 2^e is a power of two, and which. -/
def isPow2 (m : Nat) : Bool := m = 2 ^ Nat.log2 m

/-- The greatest FP32 inputs whose tanh lies below 2^-1 to 2^-11: (1/2) ln((1 + y) / (1 - y)) at each, rounded down. -/
def tanhBelow : List Nat :=
  [0x3F0C9F53, 0x3E82C577, 0x3E00AC48, 0x3D802AC4, 0x3D000AAC, 0x3C8002AA, 0x3C0000AA, 0x3B80002A, 0x3B00000A, 0x3A800002,
   0x3A000000]
/-- The least result that inputs whose tanh lies below 2^k may force: a ulp doubles at 2^k, and a result may not fall. -/
def tanhFloor (k : Int) : Int :=
  match tanhBelow[(-k - 1).toNat]? with
  | none => 0
  | some x => match fmtF32.value x with
    | .fin _ m e =>
      let a := tanhApprox m e
      leastWithin false a.1 a.2 2 (ulpExp a.1 a.2)
    | _ => 0

/-- The five special functions on an FP32 encoding, by function code (09 R146, R147). -/
def specialFn (fn : Nat) (bits : Nat) : Nat × Word :=
  let v := fmtF32.value bits
  match v with
  | .nan s => (fmtF32.nan, nvIf s)
  | .inf neg => match fn with
    | 0 => (signOf fmtF32 neg, 0)
    | 1 => if neg then (fmtF32.nan, evVnv) else (0, 0)
    | 2 => if neg then (0, 0) else (fmtF32.infinity, 0)
    | 3 => if neg then (fmtF32.nan, evVnv) else (fmtF32.infinity, 0)
    | _ => (signOf fmtF32 neg + 0x3F800000, 0)
  | .fin neg m e =>
    if m = 0 then match fn with
      | 0 => (signOf fmtF32 neg + fmtF32.infinity, 0)
      | 1 => (signOf fmtF32 neg + fmtF32.infinity, 0)
      | 2 => (0x3F800000, 0)
      | 3 => (fmtF32.signBit + fmtF32.infinity, 0)
      | _ => (signOf fmtF32 neg, 0)
    else match fn with
      | 0 => recip neg m e
      | 1 => if neg then (fmtF32.nan, evVnv) else recipRoot m e
      | 2 =>
        let x := compareVals v (.fin false 128 0)
        let y := compareVals v (.fin true 150 0)
        if x = some .gt ∨ x = some .eq then (fmtF32.infinity, evVof)
        else if y = some .lt ∨ y = some .eq then (0, 0)
        else
          let n := roundInt .rz neg m e
          if termAt (min e 0) v = n * (2 ^ (0 - min e 0).toNat : Nat) then fmtF32.round .rne false 1 n
          else
            let a := exp2Approx neg m e
            let f := n - (if neg then 1 else 0)
            bounded Config.fexp2 (orderOf bits) false a.1 a.2 2 (ulpExp a.1 a.2)
              (if f < -149 then .fin false 0 0 else .fin false 1 f) (.fin false 1 (f + 1))
      | 3 =>
        if neg then (fmtF32.nan, evVnv)
        else if isPow2 m then intToFloat fmtF32 .rne (e + (Nat.log2 m : Nat))
        else
          let a := log2Approx m e
          let near := compareVals v (.fin false 1 (-1)) = some .gt ∧ compareVals v (.fin false 1 1) = some .lt
          let u := ulpExp a.2.1 a.2.2
          let k := e + (Nat.log2 m : Nat)
          if near ∧ u + 1 < -22 then bounded Config.flog2 (orderOf bits) a.1 a.2.1 a.2.2 1 (-22) (intVal k) (intVal (k + 1))
          else bounded Config.flog2 (orderOf bits) a.1 a.2.1 a.2.2 2 u (intVal k) (intVal (k + 1))
      | _ =>
        let mag := FVal.fin false m e
        let lo := compareVals mag (.fin false 1 (-12))
        let hi := compareVals mag (.fin false 19 (-1))
        if lo ≠ some .gt then (bits, 0)
        else if hi ≠ some .lt then (signOf fmtF32 neg + 0x3F800000, 0)
        else
          let a := tanhApprox m e
          let r := bounded Config.ftanh (orderOf (bits % 2 ^ 31)) false a.1 a.2 2 (ulpExp a.1 a.2) (.fin false 1 (-12))
            (.fin false 1 0) (tanhFloor (a.2 + (Nat.log2 a.1 : Nat)))
          (signOf fmtF32 neg + r.1, r.2)

end Sys2Proof.Machine
end

