-- ==== Sys2Proof/Machine/MemoryEvents.lean ====
section
/-! DEFINITION. The requests of the elements at their banks, tile caches and the LLC, replies, full-empty words, eyelets,
retranslation and late faults, and bank switches (15 R238, R246; 16 R249 to R254; 20 R320, R325; 25 R393 to R396, R428). -/
namespace Sys2Proof.Machine

/-! ## Access to device memory (15 R239, R246; 20 R320; 26 R414) -/

/-- A page whose accesses are performed at the LLC whatever their scope: full-empty or device (20 R320). -/
def atTarget (mt : MemType) (fe : Bool) : Bool := fe || mt = .device

/-- A store of an activation to device memory at a scope (15 R239, R246; 20 R320); the flag is whether it is done: it is not where the
frame is retired, be it by an error that the store itself meets (24 R375). A shadow copy fills no word (26 R414). -/
def State.deviceWrite (s : State) (a : Activation) (tile writer pa : Nat) (scope : Nat) (mt : MemType) (fe : Bool)
    (bs : List Byte) : State × Bool :=
  let n := bs.length
  let s := match s.activation a.colour with
    | some b => if b.isPair then s.putActivation (foldDigest b pa bs) else s
    | none => s
  let s := (sectorPieces pa n).foldl (fun s (off, at_, k) =>
    let part := (bs.drop off).take k
    if atTarget mt fe then s.llcWrite a.entry.asid a.colour at_ part
    else if 1 ≤ scope then (s.flushRange tile at_ k).llcWrite a.entry.asid a.colour at_ part
    else s.tileWrite tile a.entry.asid a.colour writer at_ mt part) s
  if s.retired pa then (s, false) else (if fe && !s.isShadow a.colour then s.setFull pa n true else s, true)

/-- A load of an activation from device memory at a scope (15 R239, 20 R320). -/
def State.deviceRead (s : State) (a : Activation) (tile pa n : Nat) (scope : Nat) (mt : MemType) (fe : Bool) :
    State × Option (List Byte) :=
  (sectorPieces pa n).foldl (fun (r : State × Option (List Byte)) (_, at_, k) =>
    match r.2 with
    | none => r
    | some got =>
      let s := r.1
      let q :=
        let s := if 1 ≤ scope then s.flushRange tile at_ k else s
        if atTarget mt fe then s.llcRead at_ k
        else if 1 ≤ scope then
          if mt = .cached then s.tileRead tile a.entry.asid a.colour at_ k mt else s.llcRead at_ k
        else s.tileRead tile a.entry.asid a.colour at_ k mt
      (q.1, q.2.map (got ++ ·))) (s, some [])

/-- Write back what a party's stores dirtied in some tiles (20 R320, R325). -/
def State.releaseWriter (s : State) (tiles : List Nat) (writer : Nat) : State :=
  tiles.foldl (fun s t =>
    ((s.tile t).cache.filter fun x => x.mask ≠ 0 && x.writers.contains writer).foldl (fun s x => cleanSector s t x) s) s

/-! ## What a wide scope drains (20 R320) -/

/-- A message goes to a die of this package. -/
def State.isLocal (s : State) (m : Message) : Bool := slice m.dest.toNat 43 34 = s.host.domid.toNat % 1024

/-- A copy command of an activation moves bytes (log 62). -/
def State.copiesInFlight (s : State) (a : Activation) : Bool :=
  s.chains.any fun c => c.id.engine = 0 && c.commands.any fun k => k.colour = a.colour && k.phase = .running

/-- What an access at package scope or wider waits for: the messages of its party that a test names and that are still on the
bridges, at domain scope and wider also those to other packages and the copies of its activation (log 62). -/
def State.scopeDrained (s : State) (a : Activation) (scope : Nat) (mine : Message → Bool) : Bool :=
  scope < 3 ||
  ((s.welt.messages.all fun m => !mine m || (scope = 3 && !s.isLocal m)) && (scope = 3 || !s.copiesInFlight a))

/-! ## Atomic operations (16 R251, 10 R165) -/

/-- What a location of `w` bytes becomes under an operation with operand `b` and new value `n`. -/
def atomValue (op w m b n : Nat) : Nat :=
  let bits := 8 * w
  match op with
  | 0 => (m + b) % 2 ^ bits
  | 1 => (addF32 m b).1
  | 2 => if signedOf bits m ≤ signedOf bits b then m else b
  | 3 => min m b
  | 4 => if signedOf bits m ≤ signedOf bits b then b else m
  | 5 => max m b
  | 6 => m &&& b
  | 7 => m ||| b
  | 8 => m ^^^ b
  | 9 => b
  | 10 => if m = b then n else m
  | _ => if b ≤ m then 0 else (m + 1) % 2 ^ bits

/-- The lanes of a row add added into a row (10 R165). -/
def rowSum (wide : Bool) (v : Int) (g : Vec) (old : List Byte) : List Byte :=
  let w := if wide then 8 else 4
  (List.range (old.length / w)).flatMap fun i =>
    let x : Int := (natOfBytes ((old.drop (w * i)).take w) : Int) + v * signedOf 16 (g.toNat / 2 ^ (16 * i))
    leBytes w (x % (2 ^ (8 * w) : Nat)).toNat

/-! ## Requests -/

/-- The memory tile whose request sink ends the circuit of an element's memory port (12 R179). -/
def State.portTile (s : State) (el mport : Nat) : Nat :=
  match s.boundTo (.elementMem el mport) with
  | some (_, c) => (c.ends.findSome? fun t => match t with
      | .sink k => some k
      | _ => none).getD 0
  | none => 0

/-- The whole token of a request stands in the request sink of its port (12 R179; log 58). -/
def State.atSink (s : State) (el : Nat) (r : MemRequest) : Bool :=
  let fs := (s.tile (s.portTile el r.mport)).sinks.getD (portKey el r.mport) []
  (flitsOf (requestToken r)).length ≤ (fs.filter fun f => f.data.toNat = r.order).length

/-- The flits of a request leave its sink. -/
def State.takeFromSink (s : State) (el : Nat) (r : MemRequest) : State :=
  let t := s.portTile el r.mport
  let x := s.tile t
  let key := portKey el r.mport
  s.putTile t { x with sinks := x.sinks.put key ((x.sinks.getD key []).filter fun f => f.data.toNat ≠ r.order) }

/-- The reply token of a request (16 R250). -/
def replyToken (r : MemRequest) (bs : List Byte) : Token :=
  let v := natOfBytes bs
  let value : Nat := match r.op with
    | .load sgn => if sgn then (BitVec.ofInt 64 (signedOf (8 * r.size) v)).toNat else v
    | .take sgn => if sgn then (BitVec.ofInt 64 (signedOf (8 * r.size) v)).toNat else v
    | .atom _ => v
    | _ => 0
  { kind := .data, vector := r.size = 256 && (match r.op with
      | .load _ => true
      | _ => false), chan := r.reply.getD 0, ctx := r.ctx, colour := r.colour, iter := r.iter,
    data := BitVec.ofNat 2048 value }

/-- What comes of a request at its home: it is done; some of it waits for full or empty words; it stays where it is. -/
inductive Performed where
  | done (s : State) (bs : List Byte)
  | waits (s : State) (rest : List MemRequest)
  | later
  | fails (s : State) (i : FaultInfo)

/-- A load of the generation word of an eyelet that has advanced is an observation (20 R325). -/
def State.observedBy (s : State) (a : Activation) (tile : Nat) (key n scope : Nat) : State :=
  if 1 ≤ scope && s.memory.advanced.any (fun e => key < e + 12 && e + 8 < key + n) then s.observe a [tile] else s

/-- The number that stands for a byte of a memory tile beside the physical addresses. -/
def scratchKey (tile byte : Nat) : Nat := 2 ^ 52 + tile * 2 ^ 20 + byte

/-- A bank that switches performs only what came before the switch (15 R238). -/
def MemTile.admits (t : MemTile) (bank : Nat) (before : BankSwitch → Bool) : Bool :=
  match t.switching.find bank with
  | some w => before w
  | none => true

/-- Perform a request at a scratch offset, at its bank (15 R238, 16 R249). -/
def performScratch (s : State) (a : Activation) (el : Nat) (r : MemRequest) : Performed :=
  match a.scratchPlace r.address with
  | none => .fails s { code := 0x22, flags := useFlags r.op.use, address := BitVec.ofNat 64 r.address }
  | some (t, byte) =>
    if !(s.tile t).admits (byte / 65536) (fun w => w.requests.contains (el, r.order)) then .later
    else if s.scratchGood a r.address r.size = false then
      .fails s { code := 0x22, flags := useFlags r.op.use, address := BitVec.ofNat 64 r.address }
    else
      let old := s.scratchBytes a r.address r.size
      match r.op with
      | .load _ => .done (s.observedBy a (s.portTile el r.mport) (scratchKey t byte) r.size r.scope) old
      | .store => .done (s.scratchWrite a r.address (vecBytes r.data r.size)) []
      | .atom op =>
        let d := r.data.toNat
        let w := r.size
        .done (s.scratchWriteNat a r.address w
          (atomValue op w (natOfBytes old) (d % 2 ^ (8 * w)) (d / 2 ^ (8 * w) % 2 ^ (8 * w)))) old
      | .rowAdd wide v => .done (s.scratchWrite a r.address (rowSum wide v r.data old)) []
      | _ => .done s []

/-- The lanes of a row add as requests of their own: each is one atomic add (10 R165). -/
def rowCells (wide : Bool) (r : MemRequest) : List MemRequest :=
  let w := if wide then 8 else 4
  (List.range (r.size / w)).map fun i => { r with
    va := r.va + w * i, address := r.address + w * i, size := w, data := (r.data >>> (16 * i)) &&& 0xFFFF }

/-- Perform a request to device memory through its port's tile (15 R239, R246; 16 R249, R251; 20 R320). -/
def performDevice (s : State) (a : Activation) (el : Nat) (r : MemRequest) : Performed :=
  let tile := s.portTile el r.mport
  let asid := a.entry.asid
  let pa := r.address
  let n := r.size
  let poisoned : FaultInfo := { code := 0x26, flags := useFlags r.op.use, address := BitVec.ofNat 64 r.va }
  let stored (r : State × Bool) : Performed := if r.2 then .done r.1 [] else .fails r.1 poisoned
  if isLpddr pa ∨ s.tierReady pa = false then
    .fails s { code := 0x24, flags := useFlags r.op.use, address := BitVec.ofNat 64 r.va }
  else if s.retired pa then .fails s poisoned
  else if r.op.isStore && !s.scopeDrained a r.scope (fun m => m.source = el && m.order ≤ r.order) then .later
  else match r.op with
    | .load _ =>
      if r.fullEmpty && !s.everyFull pa n then .waits s [r]
      else match s.deviceRead a tile pa n r.scope r.mtype r.fullEmpty with
        | (s', some bs) => .done (s'.observedBy a tile pa n r.scope) bs
        | (s', none) => .fails s' poisoned
    | .take _ =>
      if !s.everyFull pa n then .waits s [r]
      else match s.deviceRead a tile pa n r.scope r.mtype true with
        | (s', some bs) => .done (s'.setFull pa n false) bs
        | (s', none) => .fails s' poisoned
    | .store => stored (s.deviceWrite a tile el pa r.scope r.mtype r.fullEmpty (vecBytes r.data n))
    | .fill =>
      if !s.noneFull pa n then .waits s [r]
      else stored (s.deviceWrite a tile el pa r.scope r.mtype true (vecBytes r.data n))
    | .atom op =>
      if r.fullEmpty && !s.everyFull pa n then .waits s [r]
      else
        let s := s.flushRange tile pa n
        match s.llcRead pa n with
        | (s', some old) =>
          let d := r.data.toNat
          let v := atomValue op n (natOfBytes old) (d % 2 ^ (8 * n)) (d / 2 ^ (8 * n) % 2 ^ (8 * n))
          let s' := s'.llcWrite asid a.colour pa (leBytes n v)
          if s'.retired pa then .fails s' poisoned else .done s' old
        | (s', none) => .fails s' poisoned
    | .rowAdd wide v =>
      let ready := rowCells wide r |>.filter fun c => !r.fullEmpty || s.everyFull c.address c.size
      let rest := rowCells wide r |>.filter fun c => !ready.contains c
      let s := s.flushRange tile pa n
      match s.llcRead pa n with
      | (s', some old) =>
        let s' := if rest.isEmpty then s'.llcWrite asid a.colour pa (rowSum wide v r.data old)
          else ready.foldl (fun s c => s.llcWrite asid a.colour c.address
            (rowSum wide v c.data ((old.drop (c.address - pa)).take c.size))) s'
        if s'.retired pa then .fails s' poisoned else if rest.isEmpty then .done s' [] else .waits s' rest
      | (s', none) => .fails s' poisoned
    | _ => .done s []

/-! ## Late faults (25 R393 to R396, R428) -/

/-- A request that waits for retranslation, or that has failed. -/
def MemRequest.isHeld (r : MemRequest) : Bool := r.held || r.failed.isSome

/-- The held requests of a region's elements, additions on their way included. -/
def State.heldRequests (s : State) (a : Activation) : List MemRequest :=
  (((a.elements.flatMap fun e => (s.element e).requests.flatMap (·.2)) ++ s.memory.deferred.map (·.2.2)).filter fun r =>
    r.isHeld && r.colour.toNat = a.colour) ++
  (s.memory.additions.filterMap fun d => match d.2.adder with
    | .element _ r => if d.2.held && r.colour.toNat = a.colour then some r else none
    | _ => none)

/-- No write or atomic of iteration m or later is performed while a request of iteration m is held (25 R395). -/
def State.mayPerform (s : State) (a : Activation) (r : MemRequest) : Bool :=
  !r.op.isWrite || (s.heldRequests a).all fun h => s.iterationOf a r.iter < s.iterationOf a h.iter

/-- The activation meets a late fault of a request: the oldest iteration with one stands (25 R396). -/
def State.meetLate (s : State) (a : Activation) (el : Nat) (r : MemRequest) (i : FaultInfo) : State :=
  let m := s.iterationOf a r.iter
  let l : LateFault := { m := m, info := i, el := el, ctx := r.ctx.toNat, entry := r.entry, word := r.word }
  match s.activation a.colour with
  | none => s
  | some b => s.putActivation { b with late := match b.late with
      | some k => if m < k.m then some l else some k
      | none => some l }

/-- Everything of the window from iteration m onward (25 R396). -/
def fromIteration (a : Activation) (m : Nat) : ItemTest :=
  fun c i => c.toNat = a.colour && (i.toNat + 65536 - m % 65536) % 65536 < 64

/-- Squash the iterations from m onward, deliver the record and hold the activation, once every iteration below m is
complete (25 R396, steps 2 to 4). -/
def State.deliverLate (s : State) (colour : Nat) : Option State :=
  match s.activation colour with
  | none => none
  | some a => match a.late with
    | none => none
    | some l =>
      if l.delivered || (a.placed.any fun p => p.iteration < l.m && s.iterationBusy a p.iteration) then none
      else
        let p := fromIteration a l.m
        let s := a.elements.foldl (fun s e => s.putElement e ((s.element e).discard p s.cycle)) s
        let s := a.memTiles.foldl (fun s t => s.putTile t ((s.tile t).discard p)) s
        let s := { s with
          circuits := s.circuits.map fun (c : Nat × Circuit) =>
            if c.2.owner = a.colour then (c.1, c.2.discard p) else c,
          memory := { s.memory with
            deferred := s.memory.deferred.filter fun d => !d.2.2.isOf p,
            additions := s.memory.additions.filter fun d => match d.2.adder with
              | .element _ r => !r.isOf p
              | _ => true } }
        let s := s.report
          { record := a.entry.va, unit := 0, asid := a.entry.asid, slot := l.ctx, colour := a.colour, identifier := l.el,
            iteration := l.m, place := l.entry, word := l.word } { l.info with flags := l.info.flags ||| 1 }
        some (s.mapActivation colour fun a => { a with late := some { l with delivered := true, upTo := a.isc } })

/-! ## Order within an element (16 R253, R254; 20 R319) -/

def overlaps (x y : MemRequest) : Bool :=
  x.scratch = y.scratch && x.address < y.address + y.size && y.address < x.address + x.size

/-- The requests of an element and activation that are not complete: queued, deferred, and additions on their way. -/
def State.pendingOf (s : State) (el : Nat) (c : BitVec 16) : List MemRequest :=
  ((s.element el).requests.flatMap fun q => q.2.filter fun r => r.colour = c) ++
  (s.memory.deferred.filterMap fun d => if d.2.1 = el && d.2.2.colour = c then some d.2.2 else none) ++
  (s.memory.additions.filterMap fun d => match d.2.adder with
    | .element e r => if e = el && r.colour = c then some r else none
    | _ => none)

/-- An earlier request of an element that a request waits for: a fence, and for a fence anything; for an EYADD a write; what overlaps
it on its port; on its port an access of a device page for such an access (15 R239); and for the last piece of an instruction, which
replies, its other pieces (10 R167). -/
def MemRequest.blocks (e r : MemRequest) : Bool :=
  e.order < r.order &&
  (e.op = .fence || r.op = .fence || (r.op = .eyadd && e.op.isStore) || r.order ≤ e.order + r.pieces ||
    (e.mport = r.mport && (overlaps e r || (e.mtype = .device && r.mtype = .device))))

/-- Of some requests those that pass a test, and those that wait for one of them, directly or not. -/
def stuckBehind (p : MemRequest → Bool) (rs : List MemRequest) : List MemRequest :=
  (rs.insertionSort fun x y => x.order ≤ y.order).foldl (fun acc e => if p e || acc.any (·.blocks e) then e :: acc else acc) []

/-- Of some requests those that pass a test, and those that one of them waits for, directly or not. -/
def neededBy (p : MemRequest → Bool) (rs : List MemRequest) : List MemRequest :=
  (rs.insertionSort fun x y => y.order ≤ x.order).foldl (fun acc e => if p e || acc.any e.blocks then e :: acc else acc) []

/-- A request may be performed as far as the order of its element goes. One of an iteration below that of a late fault does not wait
for what has failed or may not be performed, or is stuck behind that, in the iterations that will be discarded (25 R395, R396). -/
def State.inOrder (s : State) (a : Activation) (el : Nat) (r : MemRequest) : Bool :=
  let rs := s.pendingOf el r.colour
  let below (e : MemRequest) : Bool := match a.late with
    | some l => s.iterationOf a e.iter < l.m
    | none => true
  let dead := if a.late.isSome && below r then (stuckBehind (fun e => !below e && (e.failed.isSome || !s.mayPerform a e)) rs).filter fun e => !below e else []
  rs.all fun e => !e.blocks r || dead.contains e

/-- A request that a pre-emption saves: one that is deferred or held, or waits for such a one (18 R300; 15 R246). -/
def State.staysQueued (s : State) (el : Nat) (r : MemRequest) : Bool :=
  let deferred := (s.memory.deferred.map (·.2)).filter fun d => d.1 = el
  (stuckBehind (fun e => e.isHeld || deferred.any fun d => d.2 = e) (s.pendingOf el r.colour)).contains r

/-- The request of a port that is performed next: of those that stand in its sink one that a free choice names where the order
lets it go ahead, else the first (log 20). -/
def State.pickRequest (s : State) (el mport : Nat) : Option (MemRequest × List MemRequest) :=
  let l := (s.element el).requests.getD mport []
  let i := if l.length ≤ 1 then 0 else Config.requestPick s.tick % l.length
  let ok (i : Nat) : Option (MemRequest × List MemRequest) :=
    match l[i]? with
    | some r => match s.activation r.colour.toNat with
      | some a => if !r.isHeld && s.inOrder a el r && s.atSink el r then some (r, l.eraseIdx i) else none
      | none => none
    | none => none
  (ok i).or ((List.range l.length).findSome? ok)

/-! ## The events -/

/-- A reply on its way (16 R250). -/
def State.addReply (s : State) (el : Nat) (r : MemRequest) (bs : List Byte) : State :=
  match r.reply with
  | none => s
  | some _ =>
    let x := s.element el
    s.putElement el { x with replies := x.replies ++ [(r.mport, replyToken r bs)] }

/-- Requests that wait for their words at the LLC (15 R246). -/
def State.defer (s : State) (el : Nat) (rs : List MemRequest) : State :=
  rs.foldl (fun s r => s.mapMemory fun m => { m with
    deferred := m.deferred.put m.nextDeferred (el, r), nextDeferred := m.nextDeferred + 1 }) s

/-- Queue an eyelet addition on its way to its home. -/
def State.addAddition (s : State) (e : EyeletAddition) : State :=
  s.mapMemory fun m => { m with additions := m.additions.put m.nextAddition e, nextAddition := m.nextAddition + 1 }

/-- A request back in its port with the fault it met. -/
def State.failRequest (s : State) (a : Activation) (el : Nat) (r : MemRequest) (i : FaultInfo) : State :=
  let x := s.element el
  (s.putElement el { x with
    requests := x.requests.put r.mport ({ r with held := false, failed := some i } :: x.requests.getD r.mport []) }).meetLate a el r i

/-- Perform a request, once it is out of its port: done with a reply, deferred, or failed and back in its port. -/
def State.perform (s : State) (a : Activation) (el : Nat) (r : MemRequest) : Option State :=
  let drained := s.scopeDrained a r.scope fun m => m.source = el && m.order ≤ r.order
  match r.op with
  | .fence =>
    let s := if 1 ≤ r.scope then s.releaseWriter a.memTiles el else s
    if drained then some (s.addReply el r []) else none
  | .eyadd =>
    let s := if 1 ≤ r.scope then s.releaseWriter a.memTiles el else s
    let place := if r.scratch then a.scratchPlace r.address else none
    let e : EyeletAddition :=
      { scratchTile := place.map (·.1), address := (place.map (·.2)).getD r.address, va := r.va, n := r.data.toNat % 2 ^ 32,
        asid := a.entry.asid, colour := a.colour, adder := .element el r }
    if drained then some (s.addAddition e) else none
  | _ => match (if r.scratch then performScratch s a el r else performDevice s a el r) with
    | .done s' bs => some (s'.addReply el r bs)
    | .waits s' rest => some (s'.defer el rest)
    | .later => none
    | .fails s' i => some (s'.failRequest a el r i)

/-- MEMORY_REQUEST_PERFORM: a request of a port is performed (16 R249); where a request of the port has failed, its late
fault is delivered once the iterations below are complete (25 R428). -/
def execMemoryRequestPerform (el mport : Nat) (s : State) : Result :=
  match s.pickRequest el mport with
  | some (r, rest) => match s.activation r.colour.toNat with
    | none => .fault .notEnabled
    | some a =>
      if s.mayPerform a r then
        let x := s.element el
        occursIf (((s.putElement el { x with requests := x.requests.put mport rest }).takeFromSink el r).perform a el r)
      else .fault .notEnabled
  | none => match ((s.element el).requests.getD mport []).find? fun r => r.failed.isSome with
    | some r => occursIf (s.deliverLate r.colour.toNat)
    | none => .fault .notEnabled

/-- REPLY_ARRIVAL (16 R250): the next reply of a port is whole in the reply FIFO of the input port of its number. -/
def execReplyArrival (el mport : Nat) (s : State) : Result :=
  let x := s.element el
  match x.replies.findIdx? fun r => r.1 = mport with
  | none => .fault .notEnabled
  | some i => match x.replies[i]? with
    | none => .fault .notEnabled
    | some (_, t) =>
      let q := x.ports.getD mport {}
      let fs := flitsOf t
      .next (s.putElement el { x with
        replies := x.replies.eraseIdx i,
        ports := x.ports.put mport { q with reply := q.reply ++ fs, order := q.order ++ [.reply] } })

/-- FULL_EMPTY_WAKE (15 R246): a deferred access whose words allow it proceeds. -/
def execFullEmptyWake (request : Nat) (s : State) : Result :=
  match s.memory.deferred.find request with
  | none => .fault .notEnabled
  | some (el, r) => match s.activation r.colour.toNat with
    | none => .fault .notEnabled
    | some a =>
      if r.isHeld || !s.mayPerform a r then .fault .notEnabled
      else match performDevice s a el r with
        | .waits .. => .fault .notEnabled
        | _ =>
          let s := s.mapMemory fun m => { m with deferred := m.deferred.drop request }
          occursIf (s.perform a el r)

/-- A held request translated again (25 R393): its new place, or the fault it meets. A take or a fill whose page is no longer
full-empty meets the fault of 16 R249. -/
def State.retranslate (s : State) (a : Activation) (r : MemRequest) : Except FaultInfo MemRequest :=
  let needsFull := match r.op with
    | .take _ | .fill => true
    | _ => false
  match s.reach a r.op.use r.va with
  | .error f => .error f
  | .ok l =>
    if needsFull && !l.fullEmpty then .error { code := 0x25, flags := useFlags r.op.use, address := BitVec.ofNat 64 r.va }
    else .ok { r with held := false, address := l.pa, mtype := l.mtype, fullEmpty := l.fullEmpty }

/-- RETRANSLATION (25 R393): a held request of a port, in it, deferred or on its way to an eyelet, is translated again, and
proceeds or fails; a failed one is delivered as a late fault once the iterations below are complete (25 R396). -/
def execRetranslation (el mport : Nat) (s : State) : Result :=
  let q := (s.element el).requests.getD mport []
  let mine (d : Nat × Nat × MemRequest) : Bool := d.2.1 = el && d.2.2.mport = mport
  let added := s.memory.additions.findSome? fun d => match d.2.adder with
    | .element e r => if d.2.held && e = el && r.mport = mport then some (d.1, d.2, r) else none
    | _ => none
  let queued := (q.findIdx? (·.held)).bind fun i => (q[i]?).map fun r => (i, r)
  let on (r : MemRequest) (put : MemRequest → State) (out : State) : Result :=
    match s.activation r.colour.toNat with
    | none => .fault .notEnabled
    | some a => match s.retranslate a r with
      | .ok r' => .next (put r')
      | .error f => .next (out.failRequest a el r f)
  match queued, s.memory.deferred.find? (fun d => mine d && d.2.2.held), added with
  | some (i, r), _, _ =>
    let x := s.element el
    on r (fun r' => s.putElement el { x with requests := x.requests.put mport (q.set i r') })
      (s.putElement el { x with requests := x.requests.put mport (q.eraseIdx i) })
  | none, some (k, _, r), _ =>
    on r (fun r' => s.mapMemory fun m => { m with deferred := m.deferred.put k (el, r') })
      (s.mapMemory fun m => { m with deferred := m.deferred.drop k })
  | none, none, some (k, e, r) =>
    on r (fun r' => s.mapMemory fun m => { m with
        additions := m.additions.put k { e with held := false, address := r'.address, adder := .element el r' } })
      (s.mapMemory fun m => { m with additions := m.additions.drop k })
  | none, none, none => match q.find? fun r => r.failed.isSome with
    | some r => occursIf (s.deliverLate r.colour.toNat)
    | none => .fault .notEnabled

/-! ## Eyelets (16 R252, 20 R325, 21 R336) -/

/-- The four words of an eyelet. -/
structure EyeletWords where
  target : Nat
  count : Nat
  generation : Nat
  flags : Nat
  deriving DecidableEq, Repr, Inhabited

def eyeletOf (bs : List Byte) : EyeletWords :=
  let w (i : Nat) : Nat := natOfBytes ((bs.drop (4 * i)).take 4)
  { target := w 0, count := w 1, generation := w 2, flags := w 3 }
def eyeletBytes (e : EyeletWords) : List Byte :=
  leBytes 4 e.target ++ leBytes 4 e.count ++ leBytes 4 e.generation ++ leBytes 4 e.flags

/-- The addition of n to an eyelet (16 R252); WT clears when the generation advances (21 R336). -/
def addTo (e : EyeletWords) (n : Nat) : EyeletWords :=
  let c := e.count + n
  if e.target = 0 then { e with count := c % 2 ^ 32 }
  else
    let up := c / e.target
    { e with
      generation := (e.generation + up) % 2 ^ 32,
      count := c % e.target,
      flags := if up = 0 then e.flags else e.flags / 2 * 2 }

/-- Word 0x0C has a reserved bit that is not zero. -/
def eyeletBad (e : EyeletWords) : Bool := e.flags / 2 ≠ 0

/-- Read an eyelet at its home; none where the LLC cannot give it. -/
def State.readEyelet (s : State) (scratchTile : Option Nat) (address : Nat) : State × Option EyeletWords :=
  match scratchTile with
  | some t => (s, some (eyeletOf ((List.range 16).map fun i => (s.tile t).sram.read (address + i))))
  | none =>
    let r := s.llcRead address 16
    (r.1, r.2.map eyeletOf)

/-- Write an eyelet at its home. -/
def State.writeEyelet (s : State) (scratchTile : Option Nat) (asid address : Nat) (e : EyeletWords) : State :=
  match scratchTile with
  | some t =>
    let x := s.tile t
    s.putTile t { x with sram := x.sram.writeBytes address (eyeletBytes e) }
  | none => s.llcPut asid address (eyeletBytes e)

/-- A write of an eyelet has met an error that retired its frame (24 R375). -/
def State.eyeletLost (s : State) (scratchTile : Option Nat) (address : Nat) : Bool := scratchTile.isNone && s.retired address

/-- Every tile cache of the activation writes back and drops what it holds of an eyelet in device memory. -/
def State.flushEyelet (s : State) (colour : Nat) (scratchTile : Option Nat) (address : Nat) : State :=
  match scratchTile, s.activation colour with
  | none, some a => a.memTiles.foldl (fun s t => s.flushRange t address 16) s
  | _, _ => s

/-- The key of an eyelet among those that have advanced. -/
def eyeletKey (scratchTile : Option Nat) (address : Nat) : Nat :=
  match scratchTile with
  | some t => scratchKey t address
  | none => address

/-- The word that made an access which a step performs at its commit. -/
def StepEffect.wordOf : StepEffect → Nat
  | .store _ _ _ _ w => w
  | .atom _ _ _ _ _ w => w
  | .eyelet _ _ _ _ w => w
  | _ => 0
/-- A sequencer with an access that has failed late beside the others of its step, in program order. -/
def Sequencer.addLate (x : Sequencer) (place : Nat) (e : StepEffect) : Sequencer :=
  let (before, after) := x.lateAccess.partition fun k => k.2.wordOf ≤ e.wordOf
  { x with lateAccess := before ++ (place, e) :: after }
/-- A sequencer is held on a late fault of its step. -/
def Sequencer.isHeldLate (x : Sequencer) (place : Nat) : Bool := x.held.any fun h => h.late && h.place = place && x.lateAccess ≠ []

/-- Hold a sequencer on a late fault of one of its accesses (25 R428): it finishes the step it runs and starts none. A step reports the
first only; another is found again on retry (25 R382). -/
def State.holdLate (s : State) (q : SeqId) (e : StepEffect) (place word : Nat) (i : FaultInfo) : State :=
  match s.sequencer q with
  | none => s
  | some x =>
    if x.isHeldLate place then (s.meetEntries i.walk).putSequencer q (x.addLate place e)
    else
      let i := { i with flags := i.flags ||| 1 }
      let s := s.report (s.stepSite q place word) i
      match s.sequencer q with
      | none => s
      | some x => s.putSequencer q { x.addLate place e with
          held := some { info := { i with walk := [] }, late := true, place := place, word := word } }

/-- Stop a chain on a fault of its command (16 R258): engine faults other than page faults end with the activation. -/
def State.stopChain (s : State) (c : ChainId) (place : Nat) (i : FaultInfo) : State :=
  match s.chains.find? fun k => k.id = c with
  | none => s
  | some k =>
    let colour := ((k.commands.find? fun m => m.place = place).map (·.colour)).getD k.colour
    let a := (s.activation colour).getD {}
    let s := s.report
      { record := a.entry.va, unit := 3, asid := a.entry.asid, slot := c.engine, colour := colour,
        identifier := if c.engine = 5 then tileId c.tile 1 0 else c.tile, place := place % 65536 } i
    let page := 0x30 ≤ i.code.toNat && i.code.toNat ≤ 0x35
    let s := { s with chains := s.chains.map fun x => if x.id = c then { x with
      stopped := true,
      colour := colour,
      held := if page then some { info := i, place := place } else x.held,
      commands := x.commands.map fun m =>
        if m.place = place then { m with phase := .faulted, resumeAs := m.phase } else m } else x }
    if page then s else s.cancelActivation colour i.code.toNat

/-- The fault of an addition at its home, delivered to its adder (25 R428). -/
def State.failAddition (s : State) (e : EyeletAddition) (i : FaultInfo) : State :=
  match e.adder with
  | .element el r => match s.activation e.colour with
    | none => s
    | some a => s.failRequest a el r i
  | .step q place word => s.holdLate q (.eyelet e.va { pa := e.address } false (BitVec.ofNat 32 e.n) word) place word i
  | .engine c place => s.stopChain c place i
  | .collective lreg place =>
    let a := (s.activation e.colour).getD {}
    (s.report { record := a.entry.va, unit := 5, asid := e.asid, slot := lreg % 6, colour := e.colour,
                identifier := linkAnchor lreg, place := place % 65536 } i).cancelActivation e.colour i.code.toNat

/-- An addition is what a request became that came before a switch. -/
def EyeletAddition.madeOf (e : EyeletAddition) (w : BankSwitch) : Bool :=
  match e.adder with
  | .element el r => w.requests.contains (el, r.order)
  | _ => false

/-- A step's addition that fails waits for those that stand before it in its step, whose fault the record would name (25 R382). -/
def State.failsBehind (s : State) (e : EyeletAddition) : Bool :=
  match e.adder with
  | .step q place word => s.memory.additions.any fun d => match d.2.adder with
    | .step q' place' word' => q' = q && place' = place && decide (word' < word)
    | _ => false
  | _ => false

/-- An addition may be performed: no invalidation covers it, its scratch bank does not switch unless it came before that, and no older
iteration holds it back (15 R238; 25 R393, R395). -/
def State.additionReady (s : State) (id : Nat) (e : EyeletAddition) : Bool :=
  !e.held &&
  (match e.scratchTile with
   | some t => (s.tile t).admits (e.address / 65536) fun w => w.additions.contains id || e.madeOf w
   | none => true) &&
  (match e.adder, s.activation e.colour with
   | .element _ r, some a => s.mayPerform a r
   | _, _ => true)

/-- The fault of an eyelet's home: a bank no longer in SCRATCH mode, or a retired frame. -/
def State.homeFault (s : State) (e : EyeletAddition) : Option FaultInfo :=
  let bad (code : BitVec 8) : Option FaultInfo := some { code := code, flags := 16, address := BitVec.ofNat 64 e.va }
  match e.scratchTile with
  | some t => if s.inScratch t e.address then none else bad 0x22
  | none => if isLpddr e.address && (match e.adder with
        | .element .. | .step .. => true
        | _ => false) || s.tierReady e.address = false then bad 0x24 else none

/-- EYELET_ADDITION: an addition is performed atomically at the eyelet's home, or faults its adder. -/
def execEyeletAddition (addition : Nat) (s : State) : Result :=
  match s.memory.additions.find addition with
  | none => .fault .notEnabled
  | some e =>
    if s.additionReady addition e = false then .fault .notEnabled
    else
      let s := s.mapMemory fun m => { m with additions := m.additions.drop addition }
      let fails (s : State) (i : FaultInfo) : Result := occurs (!s.failsBehind e) (s.failAddition e i)
      let poisoned : FaultInfo := { code := 0x26, flags := 16, address := BitVec.ofNat 64 e.va }
      match s.homeFault e with
      | some i => fails s i
      | none =>
        let s := s.flushEyelet e.colour e.scratchTile e.address
        match s.readEyelet e.scratchTile e.address with
        | (s, none) => fails s poisoned
        | (s, some w) =>
          if eyeletBad w then fails s { poisoned with code := 0x28 }
          else
            let w' := addTo w e.n
            let s := s.writeEyelet e.scratchTile e.asid e.address w'
            if s.eyeletLost e.scratchTile e.address then fails s poisoned
            else
            let key := eyeletKey e.scratchTile e.address
            let s := if w'.generation = w.generation then s
              else s.mapMemory fun m => { m with advanced := key :: m.advanced.filter (· ≠ key) }
            .next (match e.adder with
              | .element el r => s.addReply el r []
              | _ => s)

/-! ## BANK_SWITCH (15 R238) -/

/-- The bytes of a bank that returns to SCRATCH are free values (log 14). -/
def freshBank (s : State) (tile bank : Nat) (m : Mem) : Mem :=
  (List.range 65536).foldl (fun m i => m.write (65536 * bank + i) (Config.bankByte tile (65536 * bank + i) s.tick))
    (m.clear (65536 * bank) 65536)

/-- Put a bank of a tile in a mode: the dirty sectors of a CACHE bank are written back and dropped first. -/
def State.switchBank (s : State) (tile bank : Nat) (m : BankMode) : State :=
  if (s.tile tile).mode bank = m then s
  else
    let s := if (s.tile tile).mode bank = .cache then
        ((s.tile tile).cache.filter fun x => x.bank = bank).foldl (fun s x => dropSector s tile x) s
      else s
    let t := s.tile tile
    s.putTile tile { t with
      modes := t.modes.put bank m,
      sram := if m = .scratch then freshBank s tile bank t.sram else t.sram.clear (65536 * bank) 65536 }

/-- A request, or what it became, is still under way. -/
def State.requestOpen (s : State) (el order : Nat) : Bool :=
  ((s.element el).requests.any fun q => q.2.any fun r => r.order = order) ||
  s.memory.additions.any fun d => match d.2.adder with
    | .element e r => e = el && r.order = order
    | _ => false

/-- BANK_SWITCH: a switch that a BANK started is done, once what came before it is (15 R238). -/
def execBankSwitch (tile bank : Nat) (s : State) : Result :=
  match (s.tile tile).switching.find bank with
  | none => .fault .notEnabled
  | some w =>
    if (w.requests.any fun r => s.requestOpen r.1 r.2) || w.additions.any (fun i => (s.memory.additions.find i).isSome) then
      .fault .notEnabled
    else
      let s := s.switchBank tile bank w.mode
      let t := s.tile tile
      .next (s.putTile tile { t with switching := t.switching.drop bank })

end Sys2Proof.Machine
end

