-- ==== Sys2Proof/Machine/Configure.lean ====
section
/-! DEFINITION. Quiet regions, and how a configuration is loaded beside the one in force and swept into force (13 R211 to R216; 18
R292). -/
namespace Sys2Proof.Machine

/-! ## Quiet regions (13 R215, R225) -/

/-- A bank switch or a change of depth is pending in a region. -/
def State.changing (s : State) (a : Activation) : Bool :=
  (a.memTiles.any fun t => !(s.tile t).switching.isEmpty) ||
  a.elements.any fun e => (s.element e).ports.any fun p => p.2.newDepth.isSome

/-- The activation holds its region with its program under way: it is neither saved nor at its end (18 R300). -/
def Activation.inForce (a : Activation) : Bool := a.phase = .running || a.phase = .finishing

/-- A region is quiet but for its load and sweep. -/
def State.isStill (s : State) (a : Activation) : Bool :=
  a.runs.isEmpty && (a.memTiles.all fun t => (s.tile t).streams.isEmpty) && !s.holdsTokens a (ofColour a.colour) &&
  !s.holdsRequests a (ofColour a.colour) && !s.changing a

/-- An addition of an activation's sequencers is on its way to its eyelet: an access of the activation (19 R303; 20 R319). -/
def State.stepAdds (s : State) (a : Activation) : Bool :=
  s.memory.additions.any fun d => d.2.colour = a.colour && match d.2.adder with
    | .step .. => true
    | _ => false

/-- A load is in progress. -/
def Activation.isLoading (a : Activation) : Bool :=
  match a.load with
  | some l => decide (l.phase = .loading)
  | none => false

def State.isQuiet (s : State) (a : Activation) : Bool := s.isStill a && !a.isLoading && !a.sweep

/-- What WAITQ waits for: a quiet region, or in stream code the end of the tile's generators. -/
def State.quietFor (s : State) (q : SeqId) (a : Activation) : Bool :=
  match q with
  | .region _ => s.isQuiet a
  | .stream t => (s.tile t).streams.isEmpty

/-! ## Loading a configuration (13 R211, R212; 12 R190; 18 R292) -/

/-- The first failing nest of a list. -/
def checkNests (s : State) (a : Activation) : List Nest → Except FaultInfo Unit
  | [] => .ok ()
  | n :: ns => match checkNestFootprint s a n with
    | .ok () => checkNests s a ns
    | .error f => .error f

/-- The loader's translation of nests that passed their check: it walks their memory-space pages, and the translations are kept (24 R373;
25 R389, R392). -/
def State.meetNests (s : State) (a : Activation) (ns : List Nest) : State :=
  (ns.filter fun n => n.space = .memory).foldl (fun s n =>
    (pageStarts n.footprint.1.toNat n.footprint.2).foldl (fun s va =>
      match s.reachPage a.entry.asid .read va, s.reachPage a.entry.asid .write va with
      | .ok l, _ => s.cacheLeaf a.entry.asid va l
      | .error _, .ok l => s.cacheLeaf a.entry.asid va l
      | .error _, .error _ => s) s) s

/-- A tag-store slot of one of the contexts that an image names holds a token (13 R212). -/
def State.stranded (s : State) (a : Activation) (slots : Nat) : Bool :=
  a.elements.any fun e => (s.element e).slots.any fun sl => slots / 2 ^ sl.token.ctx.toNat % 2 = 1

/-- The slots of an image that a load may write: none of the configuration in force. -/
def Activation.loadFits (a : Activation) (c : LoadedConfig) : Bool :=
  c.width = a.width && c.height = a.height && (List.range 8).all fun i => !(c.slots / 2 ^ i % 2 = 1 && a.config.slots / 2 ^ i % 2 = 1)

/-- The residents of a region's tiles whose context slots an image overwrites stop being resident (13 R212, 18 R292). -/
def State.evictResidents (s : State) (a : Activation) (slots : Nat) : State :=
  let meets (r : Resident) : Bool :=
    r.die = a.die && r.x0 < a.x0 + a.width && a.x0 < r.x0 + r.config.width && r.y0 < a.y0 + a.height &&
    a.y0 < r.y0 + r.config.height && (List.range 8).any fun i => slots / 2 ^ i % 2 = 1 && r.config.slots / 2 ^ i % 2 = 1
  s.mapSched fun c => { c with residents := c.residents.filter fun r => !meets r }

/-- The configuration of an image is resident in a region. -/
def State.addResident (s : State) (a : Activation) (image : DWord) (c : LoadedConfig) : State :=
  s.mapSched fun k => { k with
    residents := { die := a.die, x0 := a.x0, y0 := a.y0, image := image, asid := a.entry.asid, config := c } :: k.residents }

/-- Put a configuration into a region's slots and make it resident. -/
def State.install (s : State) (a : Activation) (image : DWord) (c : LoadedConfig) : State :=
  ((s.evictResidents a c.slots).writeContexts a c).addResident a image c

/-- Discard the slots of the contexts that an image names (13 R212). -/
def State.discardSlots (s : State) (a : Activation) (slots : Nat) : State :=
  a.elements.foldl (fun s e =>
    s.putElement e ((s.element e).withoutSlots (fun sl => slots / 2 ^ sl.token.ctx.toNat % 2 = 1) s.cycle)) s

/-- The configuration that a CFG would load of an image, read and checked against the region, its records and the links (13 R211,
R212). -/
def State.loadFor (s : State) (a : Activation) (image : DWord) : State × Load LoadedConfig :=
  match s.loadImage a.entry.asid image.toNat false with
  | (s, .error e) => (s, .error e)
  | (s, .ok c) =>
    if a.loadFits c = false then (s, .error {})
    else match checkNests s a (c.nests.map (·.2.2)), s.linksFree a c (s.edgeWaysOf a c) with
      | .error f, _ => (s, .error { info := f })
      | .ok (), .error e => (s, .error e)
      | .ok (), .ok () => (s, .ok c)

/-- CFG_LOAD: the loader reads and checks the image of a CFG, and writes it into its inactive slots, or fails. -/
def execCfgLoad (colour : Nat) (s : State) : Result :=
  match s.activation colour with
  | none => .fault .notEnabled
  | some a => match a.load with
    | none => .fault .notEnabled
    | some l =>
      if l.phase ≠ .loading || !a.inForce then .fault .notEnabled
      else match s.loadFor a l.image with
        | (s, .error e) =>
          .next ((s.mapActivation colour fun a => { a with load := some { l with phase := .failed } }).reportLoad a 1 e)
        | (s, .ok c) =>
          let s := s.meetNests a (c.nests.map (·.2.2))
          let s := if l.discard then s.discardSlots a c.slots else s
          .next ((s.install a l.image c).mapActivation colour fun a =>
            { a with load := some { l with phase := .loaded, config := c } })

/-- The sweep of a COMMIT: contexts, bindings, nests, stream programs and bank modes of a loaded configuration are put in force,
and the old one stays resident (13 R213). The activation keeps the region program of its record (13 R211). -/
def State.sweepTo (s : State) (a : Activation) (l : PendingLoad) : State :=
  let c := l.config
  let ways := s.edgeWaysOf a c
  let s := ((s.enableConfig a a.config false).writeStores a c false).enableConfig a c true
  let s := ((s.bindConfig a c ways).startStreams a c).setBanks a c State.switchBank
  s.mapActivation a.colour fun a => { a with
    config := { c with program := a.config.program }, image := l.image, load := none, sweep := false }

/-- COMMIT_SWEEP: the load is complete, the region quiet and every access of the activation performed, and no pre-emption has come
before (13 R213, R214; 20 R319). -/
def execCommitSweep (colour : Nat) (s : State) : Result :=
  match s.activation colour with
  | none => .fault .notEnabled
  | some a => match a.load with
    | none => .fault .notEnabled
    | some l =>
      if a.sweep && l.phase = .loaded && a.inForce && !s.givesWay a && s.isStill a && !s.stepAdds a &&
          a.elements.all (fun e => (s.element e).block.isNone) then
        .next ((s.meetNests a (l.config.nests.map (·.2.2))).sweepTo a l)
      else .fault .notEnabled

end Sys2Proof.Machine
end

