-- ==== Sys2Proof/Machine/EngineAppend.lean ====
section
/-! DEFINITION. The instructions that append commands to the chains of engines and link regions (15 R243, R244; 16 R256 to
R260, R274, R275; 22 R344; 23 R361). -/
namespace Sys2Proof.Machine

/-- The record of an engine instruction (16 R257, R259). -/
def recordOf (x : Sequencer) (o : QE) (engine fn : Nat) (aux activation : DWord) : CommandRecord :=
  { engine := engine, fn := fn, flags := o.flags.setWidth 16, parameter := x.reg o.sA.toNat, eyelet := x.reg o.sB.toNat,
    auxiliary := aux, activation := activation }

/-- The activation a command pushes: s(C) under ACT, else none (16 R259). -/
def actField (x : Sequencer) (o : QE) : DWord := if o.flags.getLsbD 0 then x.reg o.sC.toNat else 0

/-- Append a command with ACT allowed. -/
def appendAct (s : State) (o : QE) (engine fn : Nat) : Result :=
  inStep s fun s _ _ x r => stage s x r (.append (recordOf x o engine fn 0 (actField x o)) r.word)
/-- Append a command whose sC is an auxiliary operand. -/
def appendAux (s : State) (o : QE) (engine fn : Nat) : Result :=
  inStep s fun s _ _ x r => stage s x r (.append (recordOf x o engine fn (x.reg o.sC.toNat) 0) r.word)

def execCopy (o : QE) (s : State) : Result := appendAct s o 0 0
def execGather (o : QE) (s : State) : Result := appendAct s o 0 1
def execScatter (o : QE) (s : State) : Result := appendAct s o 0 2
def execClick (o : QE) (s : State) : Result := appendAux s o 1 0
def execTbuild (o : QE) (s : State) : Result := appendAct s o 2 0

/-- The format of a TPATCH's parameter block as its step finds it, read as SLD reads, its own staged stores in their place; none where
the step cannot read it (DESIGN CHOICE, log 68). -/
def State.patchFormat (s : State) (q : SeqId) (a : Activation) (es : List StepEffect) (va : Nat) : State × Option Nat :=
  match checkAccess s a .read va 4 with
  | .error f => (s.meetEntries f.walk, none)
  | .ok l =>
    let r := readSectors (seqTile a q) a.entry.asid a.colour (if l.fullEmpty then .device else l.mtype) 4
      (s.cacheLeaf a.entry.asid va l) l.pa 4 []
    (r.1, r.2.map fun bs => natOfBytes (overlay es va bs))

/-- TPATCH: its delta form names no register in sC (16 R259, 05 R67). -/
def execTpatch (o : QE) (s : State) : Result :=
  inStep s fun s q a x r =>
    let (s', format) := if o.sC = 0 then (s, none) else s.patchFormat q a r.effects (x.reg o.sA.toNat).toNat
    if format = some 2 ∨ format = some 3 then .exc s' (illegalInfo false)
    else stage s' x r (.append (recordOf x o 2 1 (x.reg o.sC.toNat) 0) r.word)
def execScant (o : QE) (s : State) : Result := appendAct s o 2 2
def execExpand (o : QE) (s : State) : Result := appendAct s o 3 0
def execEpi (o : QE) (s : State) : Result := appendAct s o 4 0

/-- WAITSEQ ends the step; the next waits for the sequence of a chain of its tile (16 R260). -/
def execWaitseq (o : QE) (s : State) : Result :=
  inStep s fun s _ _ x r =>
    endStep s x r (.wait (.sequence (o.flags.toNat % 8) ((x.reg o.sC.toNat).setWidth 32)))

/-! ## Stacks (15 R243, R244; 16 R274, R275) -/

/-- The fields of a context's stack descriptor (15 R243). -/
structure StackDesc where
  hbase : Nat
  hsize : Nat
  lbase : Nat
  lsize : Nat
  high : Nat
  low : Nat
  near : Nat
  deriving DecidableEq, Repr

def State.stackDesc (s : State) (asid : Nat) : StackDesc :=
  let d := s.phys512 (s.host.stkbase.toNat + 64 * asid)
  { hbase := field d 0 8, hsize := field d 8 8, lbase := field d 16 8, lsize := field d 24 8, high := field d 32 8,
    low := field d 40 8, near := field d 48 8 }

def State.stack (s : State) (asid : Nat) : List StackEntry := s.stackOf.getD asid []
def State.putStack (s : State) (asid : Nat) (l : List StackEntry) : State := { s with stackOf := s.stackOf.put asid l }
/-- The bytes an entry occupies. -/
def occupied (len : Nat) : Nat := (len + 255) / 256 * 256
def inRing (e : StackEntry) : Bool := e.state != .spilled
/-- The bytes of the entries of a stack that pass a test. -/
def bytesWhere (p : StackEntry → Bool) (l : List StackEntry) : Nat := ((l.filter p).map fun e => occupied e.length).sum
/-- The HBM footprint of a stack: an entry that spills is still in HBM, and one that returns has its place there (R244). -/
def ringBytes (l : List StackEntry) : Nat := bytesWhere inRing l
/-- The bytes of the entries that spill. -/
def leavingBytes (l : List StackEntry) : Nat := bytesWhere (fun e => e.state = .spilling) l
/-- The spilled footprint: an entry that spills has its place in the spill area, and one that returns leaves it. -/
def spilledBytes (l : List StackEntry) : Nat := bytesWhere (fun e => e.state = .spilled || e.state = .spilling) l

/-- Spill what must leave the ring, from the bottom, until it is within a bound: the sum of what leaves. -/
def mustSpill (l : List StackEntry) (excess : Nat) : Nat :=
  (l.filter fun e => e.state = .resident).foldl (fun acc e => if acc < excess then acc + occupied e.length else acc) 0

/-- A PUSHT that passes HSIZE, or LSIZE when the ring spills: above HIGH, or in a run of spills that is under way, what is RESIDENT
spills from the bottom until the footprint reaches LOW (15 R244; 16 R275). -/
def stackOverflows (d : StackDesc) (l : List StackEntry) (len : Nat) : Bool :=
  let foot := ringBytes l + occupied len
  d.hsize < foot ||
  (d.lsize ≠ 0 && (decide (d.high < foot) || decide (0 < leavingBytes l)) &&
    decide (d.lsize < spilledBytes l + mustSpill l (foot - leavingBytes l - d.low)))
/-- The ring has room for an entry. -/
def ringHasRoom (d : StackDesc) (l : List StackEntry) (len : Nat) : Bool := ringBytes l + occupied len ≤ d.hsize

/-- The stack commands among the effects of a step. -/
def stackCommands (es : List StepEffect) : List CommandRecord :=
  es.filterMap fun e => match e with
    | .append r _ => if r.engine = 5 then some r else none
    | _ => none
/-- A stack as PUSHT and POPT commands will have left it. -/
def servedStack (cs : List CommandRecord) (l : List StackEntry) : List StackEntry :=
  cs.foldl (fun l r => if r.fn = 0 then l ++ [{ length := r.auxiliary.toNat }] else l.dropLast) l

/-- The stack commands of steps of a context that have committed and are not appended yet. -/
def State.committedStack (s : State) (asid : Nat) : List CommandRecord :=
  (s.activations.filter fun p => p.2.entry.asid = asid).flatMap fun p =>
    (p.2.seq :: p.2.memTiles.map fun t => (s.tile t).stream).flatMap fun x => match x.step with
      | some r => if r.released then stackCommands r.effects else []
      | none => []
/-- The commands of a context's stack that have not been served yet: those of its spill chains in order, then those that have
committed (log 37). -/
def State.waitingStack (s : State) (asid : Nat) : List CommandRecord :=
  ((s.chains.filter fun c => c.id.engine = 5 && c.id.owner = asid).flatMap fun c =>
    (c.commands.filter fun k => k.phase = .waiting || k.phase = .running || k.phase = .faulted).map (·.record)) ++
  s.committedStack asid
def State.stackAhead (s : State) (asid : Nat) (es : List StepEffect) : List StackEntry :=
  servedStack (s.waitingStack asid ++ stackCommands es) (s.stack asid)
/-- The most that the ring of a context's stack holds while the waiting commands are served, which returns leave free (15 R244). -/
def State.ringPeak (s : State) (asid : Nat) : Nat :=
  let cs := s.waitingStack asid
  (List.range (cs.length + 1)).foldl (fun m i => max m (ringBytes (servedStack (cs.take i) (s.stack asid)))) 0

/-- The eyelet that a command names lies in the records, checked as the addition that it will be (16 R252; 19 R303). -/
def checkEyelet (a : Activation) (r : CommandRecord) : Except FaultInfo Unit :=
  if r.eyelet = 0 || recordsAllow a.records .atomic r.eyelet.toNat 16 then .ok ()
  else .error { code := 0x23, flags := useFlags .atomic, address := r.eyelet, position := 16 }

/-- The fault at the step of a device range that a spill engine will access: a page of it translates to a part that is not ready, or to a
retired frame. A page that does not translate faults at the engine (24 R377; 25 R392, R428; 26 R419). -/
def State.pagesReachable (s : State) (asid : Nat) (u : RecordUse) (va n : Nat) : Except FaultInfo Unit :=
  ((pageStarts va n).findSome? fun p => match translate s asid p (needOf u) with
    | .error _ => none
    | .ok l => match s.mayReach asid (useFlags u) p l true with
      | .error f => some (.error f)
      | .ok _ => none).getD (.ok ())

/-- The checks of PUSHT and POPT at the step, that of the eyelet after the others (16 R274, R275; 19 R304; 24 R377). -/
def checkStack (s : State) (a : Activation) (es : List StepEffect) (r : CommandRecord) : Except FaultInfo Unit :=
  let asid := a.entry.asid
  let l := s.stackAhead asid es
  let va := r.parameter.toNat
  let bad (code : Nat) : Except FaultInfo Unit := .error { code := BitVec.ofNat 8 code, address := r.parameter }
  let undeclared (u : RecordUse) (n : Nat) : Except FaultInfo Unit :=
    .error { code := 0x23, flags := useFlags u, address := r.parameter, position := BitVec.ofNat 32 n }
  if r.fn = 0 then
    let len := r.auxiliary.toNat
    if len = 0 ∨ 2 ^ 32 ≤ len then bad 0x5B
    else if stackOverflows (s.stackDesc asid) l len then bad 0x59
    else if r.flags.getLsbD 0 then (if s.scratchGood a va len then checkEyelet a r else bad 0x22)
    else if recordsAllow a.records .read va len = false then undeclared .read len
    else match s.pagesReachable asid .read va len with
      | .error f => .error f
      | .ok () => checkEyelet a r
  else match l.getLast? with
    | none => bad 0x5A
    | some e =>
      if r.auxiliary ≠ 0 ∧ r.auxiliary.toNat ≠ e.length then bad 0x5B
      else if recordsAllow a.records .write va e.length = false then undeclared .write e.length
      else
        if (pageStarts va e.length).all (fun p => match translate s asid p .write with
          | .ok t => isHbm t.pa
          | .error _ => true) then
          match s.pagesReachable asid .write va e.length with
          | .error f => .error f
          | .ok () => checkEyelet a r
        else .error { code := 0x24, flags := useFlags .write, address := r.parameter }

/-- Append to the spill engine after its checks. -/
def appendStack (s : State) (o : QE) (fn : Nat) : Result :=
  inStep s fun s _ a x r =>
    let c := recordOf x o 5 fn (x.reg o.sC.toNat) 0
    if a.isPair then .exc s (pairFault (if fn = 0 then .read else .write) c.parameter c.auxiliary.toNat)
    else match checkStack s a r.effects c with
    | .error f => .exc s f
    | .ok () => stage s x r (.append c r.word)

def execPusht (o : QE) (s : State) : Result := appendStack s o 0
def execPopt (o : QE) (s : State) : Result := appendStack s o 1

/-! ## Chains (16 R256, R258) -/

def State.chain (s : State) (id : ChainId) : Chain := (s.chains.find? fun c => c.id = id).getD { id := id }
def State.putChain (s : State) (c : Chain) : State :=
  { s with chains := c :: s.chains.filter fun k => k.id ≠ c.id }

/-- The chain that an activation's unit uses of an engine kind: its tile's, or the one its die's spill engine keeps for
its context. -/
def chainIdOf (a : Activation) (tile engine : Nat) : ChainId :=
  if engine = 5 then { engine := 5, tile := a.die, owner := a.entry.asid }
  else { engine := engine, tile := tile, owner := a.colour }

/-- Append a command; none while the chain holds 32 that have not completed. -/
def State.appendCommand (s : State) (a : Activation) (tile : Nat) (r : CommandRecord) : Option State :=
  let c := s.chain (chainIdOf a tile r.engine)
  if 32 ≤ (c.commands.filter fun k => k.phase ≠ .completed).length then none
  else some (s.putChain { c with
    colour := if r.engine = 5 && c.commands ≠ [] then c.colour else a.colour,
    commands := c.commands ++ [{ place := c.appended, record := r, colour := a.colour, at_ := s.tick }],
    appended := c.appended + 1 })

/-- Engine and collective commands of an activation that have not completed. -/
def State.commandsOpen (s : State) (a : Activation) : Bool :=
  (s.chains.any fun c => c.commands.any fun k => k.colour = a.colour && k.phase ≠ .completed) ||
  s.links.any fun l => l.2.commands.any fun k => k.colour = a.colour

/-! ## CHAIN (16 R260) -/

/-- The functions and flags that a record may carry (16 R257, R259). -/
def recordLegal (engine fn flags : Nat) : Bool :=
  match engine with
  | 0 => fn ≤ 2 && flags ≤ 1
  | 1 => fn = 0 && flags = 0
  | 2 => (fn = 0 && flags ≤ 1) || (fn = 1 && flags = 0) || (fn = 2 && flags ≤ 1)
  | 3 => fn = 0 && flags ≤ 1
  | 4 => fn = 0 && flags ≤ 1
  | 5 => (fn = 0 && flags ≤ 1) || (fn = 1 && flags = 0)
  | _ => false

def commandOfBytes (v : BitVec 512) : CommandRecord :=
  { engine := field v 0 1, fn := field v 1 1, flags := BitVec.ofNat 16 (field v 2 2), parameter := BitVec.ofNat 64 (field v 8 8),
    eyelet := BitVec.ofNat 64 (field v 16 8), auxiliary := BitVec.ofNat 64 (field v 24 8),
    activation := BitVec.ofNat 64 (field v 32 8) }

def execChain (o : QE) (s : State) : Result :=
  inStep s fun s q a x r =>
    let va := (x.reg o.sA.toNat).toNat
    if a.isPair then .exc s (pairFault .read (x.reg o.sA.toNat) 64)
    else match readStep s q a r va 64 64 with
    | .waits => .waits
    | .fault s' f => .exc s' f
    | .bytes s' bs =>
      let v := BitVec.ofNat 512 (natOfBytes bs)
      let c := commandOfBytes v
      if recordLegal c.engine c.fn c.flags.toNat = false ∨ field v 4 4 ≠ 0 ∨ field v 40 24 ≠ 0 then
        .exc s' { code := 0x58, address := BitVec.ofNat 64 va }
      else if c.engine = 5 then
        match checkStack s' a r.effects c with
        | .error f => .exc s' f
        | .ok () => stage s' x r (.append c r.word)
      else stage s' x r (.append c r.word)

/-! ## Collectives (22 R344, 23 R361) -/

/-- Append a command to a link region's chain. -/
def appendCollective (s : State) (o : QE) (fn : Nat) : Result :=
  inRegionStep s fun s _ a x r =>
    if a.isPair then .exc s (pairFault .read (x.reg o.sA.toNat) 64)
    else stage s x r (.collective fn (recordOf x o 6 fn 0 (actField x o)))

def execCar (o : QE) (s : State) : Result := appendCollective s o 0
def execCrs (o : QE) (s : State) : Result := appendCollective s o 1
def execCag (o : QE) (s : State) : Result := appendCollective s o 2
def execCa2a (o : QE) (s : State) : Result := appendCollective s o 3
def execCbcast (o : QE) (s : State) : Result := appendCollective s o 4

end Sys2Proof.Machine
end

