-- ==== Sys2Proof/Machine/Task.lean ====
section
/-! DEFINITION. The task, synchronisation, power, system and debug instructions of the sequencers (17 R279; 21 R328 to
R342; 25 R398 to R405). -/
namespace Sys2Proof.Machine

/-! ## QTASK (17 R279; 21 R329 to R335) -/

def execSpawn (o : QA) (s : State) : Result :=
  inStep s fun s q a x r => match q with
    | .stream _ => .exc s (illegalInfo false)
    | .region _ =>
      let va := (x.reg o.a.toNat).toNat
      if a.isPair then .exc s (pairFault .read (x.reg o.a.toNat) 64)
      else match readStep s q a r va 64 64 with
      | .waits => .waits
      | .fault s' f => .exc s' f
      | .bytes s' bs => stage s' x r (.spawn (BitVec.ofNat 512 (natOfBytes bs)) va r.word)

/-- The region records as the staged DECLs of the step will leave them. -/
def stagedRecords (es : List StepEffect) (rs : List RegionRecord) : List RegionRecord :=
  es.foldl (fun rs e => match e with
    | .decl i base ext => rs.set i { base := base.toNat, extent := ext.toNat % 2 ^ 48, mode := slice ext.toNat 51 48 }
    | _ => rs) rs

/-- Whether a record may be narrowed to a mode (21 R330). -/
def modeNarrows (old new : Nat) : Bool := if old = 2 then new ≤ 3 else new = old

/-- Whether DECL may replace a record by a new one (21 R330). -/
def declAllowed (old : RegionRecord) (base ext : Nat) : Bool :=
  let n := ext % 2 ^ 48
  let mode := slice ext 51 48
  ext / 2 ^ 52 = 0 && decide (mode ≤ 3) &&
    (n = 0 || (decide (old.base ≤ base) && decide (base + n ≤ old.base + old.extent) && modeNarrows old.mode mode))

def execDecl (o : QA) (s : State) : Result :=
  inRegionStep s fun s _ a x r =>
    let i := (x.reg o.d.toNat).toNat
    match (stagedRecords r.effects a.records)[i]? with
    | none => .exc s { code := 0x27 }
    | some old =>
      if declAllowed old (x.reg o.a.toNat).toNat (x.reg o.b.toNat).toNat then
        stage s x r (.decl i (x.reg o.a.toNat) (x.reg o.b.toNat))
      else .exc s { code := 0x27, address := x.reg o.a.toNat }

/-- DONE ends the program; it is the one instruction of its group that stream code may execute (21 R328, R329). -/
def execDone (_ : QA) (s : State) : Result := inStep s fun s _ _ x r => endStep s x r .finished

def execCancel (o : QA) (s : State) : Result :=
  inRegionStep s fun s _ _ x r =>
    let v := (x.reg o.a.toNat).toNat
    if 2 ^ 16 ≤ v then .exc s { code := 0x63, address := BitVec.ofNat 64 v }
    else stage s x r (.cancel (o.flags.toNat % 8) v)

def execSplit (o : QA) (s : State) : Result :=
  inRegionStep s fun s _ _ x r => stage s x r (.split o.d.toNat (x.reg o.a.toNat))
def execYield (_ : QA) (s : State) : Result := inRegionStep s fun s _ _ x r => stage s x r .yield

/-! ## QSYNC (21 R328, R337 to R340) -/

/-- g = (s(d) + sext(imm)) mod 2^32. -/
def syncValue (x : Sequencer) (o : QI) : Word := (x.reg o.d.toNat + o.imm.signExtend 64).setWidth 32

/-- Execute an instruction on the eyelet at s(a): aligned to 16 and checked for its use. -/
def onEyelet (s : State) (o : QI) (u : RecordUse) (f : State → Nat → Home → Sequencer → StepRun → StepResult) : Result :=
  inStep s fun s _ a x r =>
    let va := (x.reg o.a.toNat).toNat
    match checkQmem s a u va 16 16 with
    | .error i => .exc s i
    | .ok l => f (s.cacheLeaf a.entry.asid va l) va l.home x r

def execEyadd (o : QI) (s : State) : Result :=
  onEyelet s o .atomic fun s va h x r => stage s x r (.eyelet va h false (syncValue x o) r.word)
def execEywait (o : QI) (s : State) : Result :=
  onEyelet s o .wait fun s va _ x r => endStep s x r (.wait (.eyelet (BitVec.ofNat 64 va) (syncValue x o)))
def execEyset (o : QI) (s : State) : Result :=
  onEyelet s o .atomic fun s va h x r => stage s x r (.eyelet va h true (syncValue x o) r.word)
def execSfence (o : QI) (s : State) : Result := inStep s fun s _ _ x r => stage s x r (.sfence o.imm.toNat)

/-! ## QPWR (21 R342) -/

def execPermit (o : QA) (s : State) : Result :=
  inRegionStep s fun s _ a x r =>
    let c := (x.reg o.a.toNat).toNat
    if 7 < c ∨ overBudget s a c then .exc s { code := 0x64 } else stage s x r (.permit c)
def execUnpermit (_ : QA) (s : State) : Result := inRegionStep s fun s _ _ x r => stage s x r .unpermit

/-! ## QSYS (25 R398 to R403) -/

/-- Execute a QSYS instruction: in ASID 0 only, in region code only; a privilege violation is flagged (05 R67). -/
def inSupervisor (s : State) (f : State → Activation → Sequencer → StepRun → StepResult) : Result :=
  inStep s fun s q a x r =>
    if a.entry.asid ≠ 0 then .exc s (illegalInfo true)
    else match q with
      | .stream _ => .exc s (illegalInfo false)
      | .region _ => f s a x r

def qsysOperand (v : DWord) : FaultInfo := { code := 0x74, address := v }

def execTlbinv (o : QA) (s : State) : Result :=
  inSupervisor s fun s _ x r =>
    let k := o.flags.toNat % 4
    let t := (x.reg o.b.toNat).toNat
    if 2 ^ 8 ≤ t ∨ (2 ≤ k ∧ 128 < t) then .exc s (qsysOperand (x.reg o.b.toNat))
    else stage s x r (.tlbinv k (x.reg o.a.toNat) t)

def execQuar (o : QA) (s : State) : Result :=
  inSupervisor s fun s _ x r =>
    let v := (x.reg o.a.toNat).toNat
    if 2 ^ 16 ≤ v ∨ idNames v = false ∨ isComputeTile v = false then .exc s (qsysOperand (x.reg o.a.toNat))
    else stage s x r (.quar o.d.toNat v (o.flags.getLsbD 0))

def execCtxsave (o : QA) (s : State) : Result :=
  inSupervisor s fun s _ x r =>
    let v := (x.reg o.a.toNat).toNat % 256
    if v = 0 then .exc s (qsysOperand (x.reg o.a.toNat)) else stage s x r (.ctxsave o.d.toNat v none)
def execCtxload (o : QA) (s : State) : Result :=
  inSupervisor s fun s _ x r =>
    let v := (x.reg o.a.toNat).toNat % 256
    if v = 0 then .exc s (qsysOperand (x.reg o.a.toNat)) else stage s x r (.ctxload o.d.toNat v)

/-- The number of monitors of a kind on a die: temperature, droop, process (25 R402). -/
def monitorsOf (kind : Nat) : Nat := if kind = 0 then 64 else if kind = 1 then 32 else if kind = 2 then 16 else 0

/-- Read a monitor: the reading is a free value (log 7); the lowest voltage of a droop monitor starts anew. -/
def State.readMonitor (s : State) (die kind index : Nat) : State × DWord :=
  let key := 1024 * die + 256 * kind + index
  let v := Config.monitor die kind index (s.host.monitorRead.getD key 0) s.tick
  (if kind = 1 then s.mapHost fun h => { h with monitorRead := h.monitorRead.put key s.tick } else s, v)

/-- MON reads when it executes and writes d at commit: the step's later instructions see the old d. -/
def execMon (o : QA) (s : State) : Result :=
  inSupervisor s fun s _ x r =>
    let v := (x.reg o.a.toNat).toNat
    let kind := slice v 13 12
    if monitorsOf kind ≤ v % 64 then .exc s (qsysOperand (x.reg o.a.toNat))
    else
      let q := s.readMonitor (slice v 17 16) kind (v % 64)
      stage q.1 x r (.mon o.d.toNat q.2)

def execBbnote (o : QA) (s : State) : Result :=
  inSupervisor s fun s _ x r => stage s x r (.bbnote (x.reg o.a.toNat) (x.reg o.b.toNat))

/-! ## QDBG (25 R404, R405) -/

/-- SBRK does not end its step; it holds the sequencer once the step has committed. Stream code may execute it (R404). -/
def execSbrk (o : QA) (s : State) : Result := inStep s fun s _ _ x r => stage s x r (.sbrk o.flags)

/-- Whether STEP's target is fetched (.place) or running (.grant, .free) and the issuer may name it. The mode the target is in
asks for nothing: .place on a record that is not HELD, and .grant or .free on an activation that is not in step mode, change
nothing (DEDUCED, log 33). -/
def stepTarget (s : State) (a : Activation) (mode : Nat) (record : Nat) : Bool :=
  let names (e : Entry) : Bool := e.va = record && (a.entry.asid = 0 || e.asid = a.entry.asid)
  (mode = 0 && s.sched.entries.any names) ||
  s.activations.any fun p => names p.2.entry && (if mode = 0 then p.2.isLive else p.2.isPlaced)

def execStep (o : QA) (s : State) : Result :=
  inRegionStep s fun s _ a x r =>
    let m := o.flags.toNat % 4
    let v := x.reg o.a.toNat
    if stepTarget s a m v.toNat then stage s x r (.stepMode m v) else .exc s { code := 0x75, address := v }

/-! ## A word that is no instruction (05 R65, R67, R86) -/

/-- The word a sequencer is at when it executes: it is there, and it decodes to no sequencer instruction. -/
def illegalHere (x : Sequencer) : Bool :=
  match x.step with
  | none => false
  | some r =>
    if r.ended.isSome then false
    else if x.entry.length ≤ r.word then true
    else
      let w := x.program.code.getD (x.entry.first + r.word) 0
      !isSequencerWord w || (decode [w]).toOption.isNone

/-- Whether the word is one of QSYS in a context other than ASID 0 (05 R67). -/
def privilegedHere (s : State) (q : SeqId) (x : Sequencer) : Bool :=
  let w := (x.program.code.getD (x.entry.first + (x.step.getD {}).word) 0).toNat
  (match s.seqActivation q with
   | some a => a.entry.asid ≠ 0
   | none => false) && decide (w / 2 ^ 26 = 0x3D) && decide ((x.step.getD {}).word < x.entry.length)

/-- ILLEGAL_INSTRUCTION: the step takes the illegal-instruction exception; so does a step that runs off its words. -/
def execIllegalInstruction (q : SeqId) (s : State) : Result :=
  match s.sequencer q with
  | some x =>
    if illegalHere x then .next (takeStepException s q (illegalInfo (privilegedHere s q x))) else .fault .notEnabled
  | none => .fault .notEnabled

end Sys2Proof.Machine
end

