-- ==== Sys2Proof/Machine/StepEffects.lean ====
section
/-! DEFINITION. The staged effects of a step: the accesses that a step performs at its commit, the checks before it, and what each
effect does (13 R199 to R224; 20 R320, R325; 21 R330 to R342; 25 R392 to R405, R428). -/
namespace Sys2Proof.Machine

/-! ## Accesses that a step performs at its commit (13 R205; 21 R337, R339; 25 R428) -/

/-- The number that stands for a sequencer among those that store to a tile cache. -/
def seqWriter : SeqId → Nat
  | .region c => 65536 + c
  | .stream t => 131072 + t

def poisonedAt (u : RecordUse) (va : Nat) : FaultInfo := { code := 0x26, flags := useFlags u, address := BitVec.ofNat 64 va }

/-- Write a register of a sequencer. -/
def State.setSeqReg (s : State) (q : SeqId) (d : Nat) (v : DWord) : State :=
  match s.sequencer q with
  | some x => s.putSequencer q (x.setReg d v)
  | none => s

/-- SATOM.add, .swap, .max and .min as operations of `atomValue` (05 R83). -/
def satomOp (k : Nat) : Nat := [0, 9, 4, 2].getD k 0

/-- The fault of an access at its home: its tier, or a retired frame (25 R428). -/
def State.homeGood (s : State) (u : RecordUse) (va : Nat) (h : Home) : Except FaultInfo Unit :=
  if isLpddr h.pa ∨ s.tierReady h.pa = false then .error { code := 0x24, flags := useFlags u, address := BitVec.ofNat 64 va }
  else if s.retired h.pa then .error (poisonedAt u va)
  else .ok ()

/-- An access of a sequencer at system scope waits until the messages of its region's elements and the copies of its
activation are drained (20 R320; log 62). -/
def State.systemDrained (s : State) (a : Activation) : Bool := s.scopeDrained a 5 fun m => a.holds m.source

/-- The kind of access that a staged access makes. -/
def StepEffect.use : StepEffect → RecordUse
  | .store .. => .write
  | _ => .atomic

/-- Perform a staged access of step `place` at the place that its translation gave (25 R392); none while a full-empty word, or
the drain of its scope, makes it wait. One that fails at its home holds the sequencer late. -/
def State.performAt (s : State) (q : SeqId) (a : Activation) (place : Nat) (e : StepEffect) : Option State :=
  let tile := seqTile a q
  match e with
  | .store va h n v word => match s.homeGood .write va h with
    | .error f => some (s.holdLate q e place word f)
    | .ok () => match s.deviceWrite a tile (seqWriter q) h.pa 0 h.mtype h.fullEmpty (leBytes n v.toNat) with
      | (s, true) => some s
      | (s, false) => some (s.holdLate q e place word (poisonedAt .write va))
  | .atom va h op d v word => match s.homeGood .atomic va h with
    | .error f => some (s.holdLate q e place word f)
    | .ok () =>
      if (h.fullEmpty && !s.everyFull h.pa 8) || !s.systemDrained a then none
      else match (s.flushRange tile h.pa 8).llcRead h.pa 8 with
        | (s, some old) =>
          let new := atomValue (satomOp op) 8 (natOfBytes old) v.toNat 0
          let s := s.llcWrite a.entry.asid a.colour h.pa (leBytes 8 new)
          some (if s.retired h.pa then s.holdLate q e place word (poisonedAt .atomic va)
            else s.setSeqReg q d (BitVec.ofNat 64 (natOfBytes old)))
        | (s, none) => some (s.holdLate q e place word (poisonedAt .atomic va))
  | .eyelet va h sets g word => match s.homeGood .atomic va h with
    | .error f => some (s.holdLate q e place word f)
    | .ok () =>
      if sets then
        match (s.flushEyelet a.colour none h.pa).readEyelet none h.pa with
        | (s, none) => some (s.holdLate q e place word (poisonedAt .atomic va))
        | (s, some w) =>
          let s := s.writeEyelet none a.entry.asid h.pa { w with target := g.toNat, count := 0, flags := 0 }
          some (if s.eyeletLost none h.pa then s.holdLate q e place word (poisonedAt .atomic va) else s)
      else if s.systemDrained a then
        let s := s.releaseWriter a.memTiles (seqWriter q)
        some (s.addAddition
          { address := h.pa, va := va, n := g.toNat, asid := a.entry.asid, colour := a.colour, adder := .step q place word })
      else none
  | _ => some s

/-- RETRY of an access that failed late: it is translated again, and performed (25 R428; log 62). -/
def State.retryAccess (s : State) (q : SeqId) (a : Activation) (place : Nat) (e : StepEffect) : Option State :=
  let again (va word : Nat) (put : Home → StepEffect) : Option State :=
    match s.reach a e.use va with
    | .error f => some (s.holdLate q e place word f)
    | .ok l => (s.cacheLeaf a.entry.asid va l).performAt q a place (put l.home)
  match e with
  | .store va _ n v word => again va word fun h => .store va h n v word
  | .atom va _ op d v word => again va word fun h => .atom va h op d v word
  | .eyelet va _ sets g word => again va word fun h => .eyelet va h sets g word
  | _ => some s

/-- An invalidation has covered what an access was translated with (25 R393, R399). -/
def StepEffect.isHeld : StepEffect → Bool
  | .store _ h .. => h.held
  | .atom _ h .. => h.held
  | .eyelet _ h .. => h.held
  | _ => false
/-- Mark an access of an ASID as held, where what an invalidation covers passes a test. -/
def StepEffect.hold (covers : Nat → Bool) : StepEffect → StepEffect
  | .store va h n v w => .store va { h with held := h.held || covers va } n v w
  | .atom va h op d v w => .atom va { h with held := h.held || covers va } op d v w
  | .eyelet va h t g w => .eyelet va { h with held := h.held || covers va } t g w
  | e => e

/-- Perform a staged access; one that an invalidation has covered is translated again first (25 R393, R399; log 62). -/
def State.performAccess (s : State) (q : SeqId) (a : Activation) (place : Nat) (e : StepEffect) : Option State :=
  if e.isHeld then s.retryAccess q a place e else s.performAt q a place e

/-! ## The effects of a step (13 R199 and the rules of each) -/

/-- What comes of a staged effect at commit: it is done, or it stays, changed or not, until a later moment. -/
inductive Released where
  | done (s : State)
  | stays (s : State) (e : StepEffect)
  | waits

/-- The bytes of device memory that records of some modes cover, page by page. -/
def State.coverPages (s : State) (a : Activation) (rs : List RegionRecord) (modes : List Nat) : List (Nat × Nat) :=
  (rs.filter fun r => modes.contains r.mode).flatMap fun r => s.rangePages a.entry.asid r.base r.extent

/-- A physical byte of a sector lies in some ranges. -/
def byteIn (ps : List (Nat × Nat)) (pa : Nat) : Bool := ps.any fun p => p.1 ≤ pa && pa < p.1 + p.2

/-- The byte at a device virtual address is covered by a record of some modes. -/
def coversByte (r : RegionRecord) (modes : List Nat) (va : Nat) : Bool :=
  modes.contains r.mode && r.base ≤ va && va < r.base + r.extent

/-- DECL releases a byte (21 R331): it was written or shared and is no longer covered, or it was writable and no longer
is. `new` is none for an extent of 0. The test holds of a range when it holds of one of its ends or of the cut points. -/
def releasesByte (old : RegionRecord) (new : Option RegionRecord) (va : Nat) : Bool :=
  match new with
  | none => coversByte old [1, 2, 3] va
  | some n =>
    (coversByte old [1, 2, 3] va && !coversByte n [0, 1, 2, 3] va) ||
    (coversByte old [1, 2] va && coversByte n [0, 3] va)
def declReleases (old : RegionRecord) (new : Option RegionRecord) : Bool :=
  old.extent ≠ 0 &&
  ([old.base, old.base + old.extent - 1] ++ (match new with
    | some n => [n.base - 1, n.base, n.base + n.extent]
    | none => [])).any fun va => releasesByte old new va

/-- The dirty bytes that an old record lets the activation write and a new one does not, written back (21 R331). -/
def State.releaseDropped (s : State) (a : Activation) (old : RegionRecord) (new : Option RegionRecord) : State :=
  let pages := s.coverPages a [old] [1, 2]
  let keeps := match new with
    | some n => s.coverPages a [n] [1, 2]
    | none => []
  a.memTiles.foldl (fun s t =>
    ((s.tile t).cache.filter fun x => x.mask ≠ 0 && touches pages x).foldl (fun s x =>
      let gone : BitVec 128 := BitVec.ofNat 128 (((List.range 128).filter fun i =>
        let pa := x.number * 128 + i
        x.mask.getLsbD i && byteIn pages pa && !byteIn keeps pa).foldl (fun m i => m + 2 ^ i) 0)
      if gone = 0 then s
      else
        let s := writeMasked s { x with mask := gone }
        let y := s.tile t
        s.putTile t { y with cache := setSector y.cache { x with mask := x.mask &&& ~~~gone } }) s) s

/-- The requests of an element that pass a test are held for retranslation: in its ports, and staged in its block. -/
def Element.holdRequests (x : Element) (mark : MemRequest → MemRequest) : Element := { x with
  requests := x.requests.map fun (q : Nat × List MemRequest) => (q.1, q.2.map mark),
  block := x.block.map fun b => { b with effects := b.effects.map fun e => match e with
    | .request r => .request (mark r)
    | e => e } }
/-- The accesses that a sequencer's step has staged are held where an invalidation covers them. -/
def Sequencer.holdAccesses (x : Sequencer) (covers : Nat → Bool) : Sequencer := { x with
  step := x.step.map fun r => { r with effects := r.effects.map (·.hold covers) } }
/-- A stream whose extents an invalidation covers pauses at its next word (25 R393). -/
def Stream.pausedBy (x : Stream) (covers : Nat → Bool) : Stream :=
  { x with stale := x.stale || x.extents.any fun p => covers (p.1 * 65536) }
/-- The streams and the stream program of a tile of a context. -/
def MemTile.holdTranslated (t : MemTile) (covers : Nat → Bool) : MemTile := { t with
  streams := t.streams.map (·.pausedBy covers), stream := t.stream.holdAccesses covers }

/-- Mark what an invalidation covers as held for retranslation: the requests and accesses that are committed or staged, additions on
their way and streams included, also of what is saved (25 R393, R399). -/
def State.holdRequests (s : State) (covers : Nat → Nat → Bool) : State :=
  let asidOf (colour : Nat) : Nat := match s.activation colour with
    | some a => a.entry.asid
    | none => 0
  let isCovered (r : MemRequest) : Bool :=
    !r.scratch && r.failed.isNone && r.op ≠ .fence && covers (asidOf r.colour.toNat) r.va
  let mark (r : MemRequest) : MemRequest := if isCovered r then { r with held := true } else r
  let tile (t : Nat × MemTile) : Nat × MemTile :=
    (t.1, t.2.holdTranslated (covers (match s.activationAt t.1 with
      | some a => a.entry.asid
      | none => 0)))
  { s with
    elements := s.elements.map fun p => (p.1, p.2.holdRequests mark),
    tiles := s.tiles.map tile,
    activations := s.activations.map fun p => (p.1, { p.2 with
      seq := p.2.seq.holdAccesses (covers p.2.entry.asid),
      frame := p.2.frame.map fun f => { f with
        elements := f.elements.map fun e => (e.1, e.2.holdRequests mark),
        tiles := f.tiles.map fun t => (t.1, t.2.holdTranslated (covers p.2.entry.asid)),
        deferred := f.deferred.map fun d => (d.1, mark d.2) } }),
    memory := { s.memory with
      deferred := s.memory.deferred.map fun (d : Nat × Nat × MemRequest) => (d.1, d.2.1, mark d.2.2),
      additions := s.memory.additions.map fun (d : Nat × EyeletAddition) => match d.2.adder with
        | .element _ r => if isCovered r then (d.1, { d.2 with held := true }) else d
        | _ => d } }

/-- Two addresses lie in one entry of a size. -/
def sameEntry (span x y : Nat) : Bool := x / 2 ^ span = y / 2 ^ span

/-- The translations that an invalidation names: 0 a page and 1 an ASID of stage 1; 2 an IPA page and 3 a VF of stage 2. An
entry that covers the page goes whole (25 R399). -/
def State.invalidates (s : State) (kind address target : Nat) (t : TlbEntry) : Bool :=
  match kind with
  | 0 => t.asid = target && sameEntry t.span (t.page * 65536) (address % 2 ^ 48)
  | 1 => t.asid = target
  | 2 => s.vfOf t.asid = target && sameEntry t.span (t.ipaPage * 65536) (address % 2 ^ 48)
  | _ => s.vfOf t.asid = target

/-- An address was translated with what an invalidation names. One whose entry is no longer cached counts when its page
matches. -/
def State.invalidatesAt (s : State) (kind address target asid va : Nat) : Bool :=
  (s.memory.tlb.any fun t => t.asid = asid && t.page = va / 65536 && s.invalidates kind address target t) ||
  (match kind with
   | 0 => asid = target && va / 65536 = address % 2 ^ 48 / 65536
   | 1 => asid = target
   | 2 => false
   | _ => s.vfOf asid = target)

/-- Drop the matching entries of every translation cache, and hold the requests translated with them. -/
def State.invalidate (s : State) (kind address target : Nat) : State :=
  let s' := s.holdRequests (s.invalidatesAt kind address target)
  s'.mapMemory fun m => { m with tlb := m.tlb.filter fun t => !s.invalidates kind address target t }

/-- The additions on their way that were translated with what an invalidation names and that are not held: those of steps, engines
and link regions (25 R399). -/
def State.additionsUnder (s : State) (kind address target : Nat) : List Nat :=
  s.memory.additions.filterMap fun d => match d.2.adder with
    | .element .. => none
    | _ => if d.2.scratchTile.isNone && s.invalidatesAt kind address target d.2.asid d.2.va then some d.1 else none

/-- Activations of a context that run: from their placement to the end of their walk, and no cancel stops them (18 R299). -/
def Activation.toSave (a : Activation) (asid : Nat) : Bool :=
  a.entry.asid = asid && a.isPlaced && !a.cancelled
def State.runningOf (s : State) (asid : Nat) : List Activation := (s.activations.map (·.2)).filter fun a => a.toSave asid
/-- Activations of a context that are saved away. -/
def State.savedOf (s : State) (asid : Nat) : List Activation :=
  (s.activations.map (·.2)).filter fun a => a.entry.asid = asid && a.phase = .saved

/-- CTXSAVE begins: the chain is disabled, the running activations are to be pre-empted, collective commands abort
(25 R401). -/
def State.beginSave (s : State) (asid : Nat) : State :=
  let s := s.setEnabled asid false
  let aborts : List WeltSend := s.links.flatMap fun p => (p.2.commands.filter fun c => c.asid = asid).flatMap abortsOf
  let s := s.sendWelt aborts
  { s with
    activations := s.activations.map fun p =>
      if p.2.toSave asid then (p.1, { p.2 with victim := some false }) else p,
    links := s.links.map fun p => (p.1, p.2.without fun c => c.asid = asid),
    sched := { s.sched with saved := asid :: s.sched.saved.filter (· ≠ asid) } }

/-- The bytes that the save area must hold for the running and the saved activations of a context (18 R299, 25 R401). -/
def State.saveNeed (s : State) (asid : Nat) : Nat :=
  (((s.runningOf asid ++ s.savedOf asid).map fun a => 2 ^ 21 * (a.width * a.height))).sum

/-- CTXLOAD: the chain is enabled and the saved activations may be placed again, at the head of their levels. -/
def State.loadContext (s : State) (asid : Nat) : State :=
  let s := (s.meetDesc asid).setEnabled asid true
  let mine (e : Entry) : Bool := e.asid = asid && e.resumes.isSome
  s.mapSched fun c => { c with
    saved := c.saved.filter (· ≠ asid),
    entries := c.entries.filter mine ++ c.entries.filter fun e => !mine e }

/-- STEP's modes, on targets of the issuer's ASID, or of any where the issuer is ASID 0 (18 R302; 25 R405). They act on HELD
records and on activations in step mode, a grant on one that ends as it comes too. -/
def State.stepModeSet (s : State) (issuer mode record : Nat) : State :=
  let names (e : Entry) : Bool := e.va = record && (issuer = 0 || e.asid = issuer)
  if mode = 0 then s.mapSched fun c => { c with
    entries := c.entries.map fun e => if names e && e.held then { e with held := false, stepMode := true } else e }
  else
    let mine := (s.activations.filter fun p => names p.2.entry && p.2.stepMode && p.2.isPlaced).map (·.2)
    mine.foldl (fun s a =>
      if mode = 1 then
        let s := a.elements.foldl (fun s e => s.putElement e { s.element e with grants := 1 }) s
        (s.mapActivation a.colour fun a => { a with stepGrants := 2 }).closeGrant a.colour
      else s.mapActivation a.colour fun a => { a with stepMode := false, stepGrants := 0 }) s

/-- Bytes that an engine reads at the append of a command: none where they cannot be read (17 R281; 19 R307). -/
def State.appendRead (s : State) (a : Activation) (va n : Nat) : State × Option (List Byte) :=
  match (s.releaseRange a va n).readBytes a.entry.asid .read false va n with
  | (s, .ok bs) => (s, some bs)
  | (s, .error _) => (s, none)

/-- Append a command to a link region's chain (22 R344; 23 R365): LREG comes from the parameter block as it stands, and the ranks
to which the command sends an abort should it stop before it starts. -/
def State.appendCollective (s : State) (a : Activation) (fn : Nat) (r : CommandRecord) : Option State :=
  let b := s.appendRead a r.parameter.toNat 64
  let block := BitVec.ofNat 512 (natOfBytes (b.2.getD []))
  let n := field block 0x28 2
  let t := if n ≤ 1024 then b.1.appendRead a (field block 0x20 8) (2 * n) else (b.1, none)
  let s := t.1
  let ranks := match t.2 with
    | some ts => (List.range n).map fun i => natOfBytes ((ts.drop (2 * i)).take 2)
    | none => []
  let lreg := if slice (field block 0 4) 16 14 < 6 then slice (field block 0 4) 16 14 else 0
  let key := 6 * a.die + lreg
  let c := s.links.getD key {}
  let place := a.linkAppends.getD lreg 0
  if 32 ≤ c.commands.length then none
  else
    let k : Collective :=
      { place := place, fn := fn, record := r, colour := a.colour, asid := a.entry.asid, job := field a.entry.record 0x1E 2,
        block := block, ranks := ranks, at_ := s.tick }
    match s.activation a.colour with
    | none => none
    | some a => some (({ s with links := s.links.put key { c with commands := c.commands ++ [k] } }).putActivation
        { a with linkAppends := a.linkAppends.put lreg (place + 1) })

/-- The activations of a CTXSAVE that are not saved yet, and the number of those that are (25 R401). -/
def State.saving (s : State) (colours : List Nat) : List Activation × Nat :=
  let found := colours.filterMap s.activation
  (found.filter fun a => a.toSave a.entry.asid, (found.filter fun a => a.phase = .saved).length)

/-- The physical places of the pages of a stream's memory-space nest, the translations kept (25 R392), or the fault of the first page
that has none. -/
def State.extentsOf (s : State) (asid : Nat) (n : Nest) (isPush : Bool) : State × Except FaultInfo (Tab Home) :=
  let u : RecordUse := if isPush then .read else .write
  let lo := n.footprint.1.toNat
  ((List.range ((lo + n.footprint.2 + 65535) / 65536 - lo / 65536)).map (lo / 65536 + ·)).foldl
    (fun (r : State × Except FaultInfo (Tab Home)) p => match r.2 with
      | .error _ => r
      | .ok m =>
        let va := max lo (p * 65536)
        match r.1.reachPage asid u va with
        | .error f => (r.1, .error { f with flags := f.flags ||| useFlags u })
        | .ok l => (r.1.cacheLeaf asid va l, .ok (m.put p { l.home with pa := l.pa / 65536 * 65536 }))) (s, .ok [])

/-- Start a stream over a copy of its nest, with the physical places of its pages (13 R221 to R223; 25 R392); an edge-bound ACCEPT
reserves its range. ITER of a PUSH's tokens is the counter as it stands here, at its commit (DESIGN CHOICE, log 70). -/
def State.startStream (s : State) (q : SeqId) (a : Activation) (isPush : Bool) (ag : Nat) (chan : BitVec 5) (ctx : BitVec 3) : State :=
  let t := seqTile a q
  let x := s.tile t
  match x.nests.find ag with
  | none => s
  | some n =>
    let e := if n.space = .memory then s.extentsOf a.entry.asid n isPush else (s, .ok [])
    let extents : Tab Home := match e.2 with
      | .ok m => m
      | .error _ => []
    let st : Stream :=
      { isPush := isPush, ag := ag, nest := n, chan := chan, ctx := ctx, colour := BitVec.ofNat 16 a.colour,
        iter := BitVec.ofNat 16 a.isc, region := !isStreamSeq q, extents := extents, stale := e.2.toOption.isNone }
    let s := e.1
    let x := s.tile t
    let s := s.putTile t { x with streams := x.streams ++ [st] }
    if isPush || n.space ≠ .scratch || !s.edgeFeeds t n.mport then s
    else s.mapActivation a.colour fun a => { a with edgeBuffers := a.edgeBuffers ++ [n.edgeBuffer chan] }

/-- Where a fault of a stream stands: unit 2, with the CC of the sequencer that committed it (25 R383, R393). -/
def State.streamSite (s : State) (a : Activation) (tile : Nat) (st : Stream) : FaultSite :=
  { record := a.entry.va, unit := 2, asid := a.entry.asid, colour := a.colour, identifier := tile, iteration := a.isc,
    place := if st.region then a.seq.cc else (s.tile tile).stream.cc }

/-- Hold a stream on a fault at its last whole token (25 R393). -/
def State.holdStream (s : State) (a : Activation) (tile i : Nat) (st : Stream) (f : FaultInfo) : State :=
  let s := s.report (s.streamSite a tile st) f
  let x := s.tile tile
  s.putTile tile { x with streams := x.streams.set i { st with held := some { info := f } } }

/-- The loader patches anew the extents of a stream that an invalidation has covered; where it cannot, the stream is held (25
R393). -/
def State.repatch (s : State) (a : Activation) (tile i : Nat) (st : Stream) : State × Option Stream :=
  if !st.stale then (s, some st)
  else match s.extentsOf a.entry.asid st.nest st.isPush with
    | (s, .error f) => (s.holdStream a tile i st f, none)
    | (s, .ok m) =>
      let st := { st with extents := m, stale := false }
      let x := s.tile tile
      (s.putTile tile { x with streams := x.streams.set i st }, some st)

/-- A stream waits for its extents to be patched anew. -/
def Stream.waitsPatch (st : Stream) : Bool := st.stale && st.held.isNone
/-- Streams of the package wait for their extents, and all of them are repatched or held (25 R393, R399). -/
def State.streamsStale (s : State) : Bool :=
  s.tiles.any fun t => t.2.streams.any fun st => st.waitsPatch && (s.activation st.colour.toNat).isSome
def State.repatchAll (s : State) : State :=
  s.tiles.foldl (fun s t => (List.range t.2.streams.length).foldl (fun s i =>
    match (s.tile t.1).streams[i]? with
    | none => s
    | some st => match s.activation st.colour.toNat with
      | some a => if st.waitsPatch then (s.repatch a t.1 i st).1 else s
      | none => s) s) s

/-- AGSET writes the base of a generator of a tile (13 R221). -/
def State.setBase (s : State) (tile ag : Nat) (base : DWord) : State :=
  let x := s.tile tile
  match x.nests.find ag with
  | some n => s.putTile tile { x with nests := x.nests.put ag { n with base := base } }
  | none => s

/-- DEPTH gives a port a depth that waits for its circuit to drain (12 R187). -/
def State.setDepth (s : State) (el port d : Nat) : State :=
  let x := s.element el
  s.putElement el { x with ports := x.ports.put port { x.ports.getD port {} with newDepth := some d } }

/-- A scratch request of a region lies in a bank, with one of its bytes. -/
def MemRequest.inBank (r : MemRequest) (a : Activation) (tile bank : Nat) : Bool :=
  let holds (off : Nat) : Bool := match a.scratchPlace off with
    | some p => p.1 = tile && p.2 / 65536 = bank
    | none => false
  r.scratch && (holds r.address || holds (r.address + (r.size - 1)))

/-- What a bank performs before a switch that starts now (15 R238): the requests that stand in a request sink, the stores that are
queued, what these wait for in the bank, and the additions on their way. -/
def State.beforeSwitch (s : State) (tile bank : Nat) (m : BankMode) : BankSwitch :=
  match s.activationAt tile with
  | none => { mode := m }
  | some a =>
    { mode := m
      requests := a.elements.flatMap fun e => (s.element e).requests.flatMap fun q =>
        let listed (r : MemRequest) : Bool := r.inBank a tile bank && r.failed.isNone && (r.op.isWrite || s.atSink e r)
        ((neededBy listed (s.pendingOf e (BitVec.ofNat 16 a.colour))).filter fun r =>
          r.inBank a tile bank && r.failed.isNone && q.2.contains r).map fun r => (e, r.order)
      additions := s.memory.additions.filterMap fun d =>
        if d.2.scratchTile = some tile && d.2.address / 65536 = bank then some d.1 else none }

/-- BANK starts a switch, unless the bank is in the mode already (13 R220). -/
def State.startSwitch (s : State) (tile bank : Nat) (m : BankMode) : State :=
  let x := s.tile tile
  if x.mode bank = m && (x.switching.find bank).isNone then s
  else s.putTile tile { x with switching := x.switching.put bank (s.beforeSwitch tile bank m) }

/-- The region record that DECL puts in force (21 R330). -/
def declRecord (base ext : DWord) : RegionRecord :=
  { base := base.toNat, extent := ext.toNat % 2 ^ 48, mode := slice ext.toNat 51 48 }

/-! ## The checks before a step commits (13 R199, R212, R224; 18 R288; 19 R304) -/

/-- A bank under a nest that BANK takes out of SCRATCH. -/
def State.bankLeaves (s : State) (a : Activation) (n : Nest) : Bool :=
  a.memTiles.any fun t => (s.tile t).switching.any fun w => w.2.mode ≠ .scratch && nestInBank a n t w.1

/-- The check of a staged PUSH or ACCEPT, in the state that the step's earlier effects leave. -/
def State.checkStaged (s : State) (q : SeqId) (a : Activation) (ag : Nat) (isPush : Bool) : Except FaultInfo Unit :=
  let t := seqTile a q
  match (s.tile t).nests.find ag with
  | none => .error unboundPort
  | some n =>
    if (if isPush then s.portSends t n.mport else s.portReceives t n.mport) = false then .error unboundPort
    else if s.bankLeaves a n then
      .error { code := 0x17, flags := if isPush then 0 else 8, address := BitVec.ofInt 64 n.footprint.1 }
    else checkStreamNest s a n isPush

/-- The check of a staged CFG: memory-space nests and stranded operands of an image that can be loaded. -/
def State.checkCfg (s : State) (a : Activation) (image : DWord) (discard : Bool) : Except FaultInfo Unit :=
  match (s.loadImage a.entry.asid image.toNat false).2 with
  | .error _ => .ok ()
  | .ok c =>
    if a.loadFits c = false then .ok ()
    else if !discard && s.stranded a c.slots then .error { code := 0x12, address := image }
    else checkNests s a (c.nests.map (·.2.2))

/-- The load of an activation as it will have ended. -/
def State.loadEnded (s : State) (a : Activation) : Option PendingLoad :=
  a.load.map fun l => if l.phase ≠ .loading then l
    else match (s.loadFor a l.image).2 with
      | .ok c => { l with phase := .loaded, config := c }
      | .error _ => { l with phase := .failed }

/-- The operand of DEPTH or BANK that names an element's input port, or a memory tile's bank (13 R219, R220). -/
def Activation.relative (a : Activation) (id : Nat) : Nat := tileId 0 (idX id - a.x0) (idY id - a.y0) + id % 16
def Activation.portOperand (a : Activation) (el port : Nat) : DWord := BitVec.ofNat 64 (a.relative el + 2 ^ 16 * port)
def Activation.bankOperand (a : Activation) (tile bank : Nat) : DWord := BitVec.ofNat 64 (a.relative tile + bank)

/-- The check of one staged effect in the state that the step's earlier effects leave, with the word it names. A COMMIT whose load
is ready or in progress checks its memory-space nests (25 R392). A PUSHT or POPT is checked again on the stack as it stands here, where
no other step's command can come before it, with the records of its instruction (15 R244; 19 R304). -/
def State.checkEffect (s : State) (q : SeqId) (a : Activation) (records : List RegionRecord) (before : List StepEffect) :
    StepEffect → Except (FaultInfo × Nat) Unit
  | .append r word =>
    if r.engine = 5 then (checkStack s { a with records := records } before r).mapError fun f => (f, word) else .ok ()
  | .agset ag _ word => if ((s.tile (seqTile a q)).nests.find ag).isSome then .ok () else .error (unboundPort, word)
  | .depth el port d word =>
    if s.depthFits [] el port d then .ok () else .error ({ code := 0x14, address := a.portOperand el port }, word)
  | .bank tile bank _ word =>
    if s.bankBusy a [] tile bank then .error ({ code := 0x16, address := a.bankOperand tile bank }, word) else .ok ()
  | .spawn _ va word =>
    if s.chainEnabled a.entry.asid then .ok () else .error ({ code := 0x60, address := BitVec.ofNat 64 va }, word)
  | .push ag _ _ word => (s.checkStaged q a ag true).mapError fun f => (f, word)
  | .accept ag _ word => (s.checkStaged q a ag false).mapError fun f => (f, word)
  | .run mport _ _ _ word =>
    if s.portSends a.anchor mport then (checkNests s a (s.nestsOf a)).mapError fun f => (f, word) else .error (unboundPort, word)
  | .cfg image discard word => (s.checkCfg a image discard).mapError fun f => (f, word)
  | .commit word => match s.loadEnded a with
    | some l => if l.phase = .loaded then (checkNests s a (l.config.nests.map (·.2.2))).mapError fun f => (f, word) else .ok ()
    | none => .ok ()
  | _ => .ok ()

/-- A region whose tag stores hold nothing of its activation, as a COMMIT finds them (13 R213, R215). -/
def State.drainedSlots (s : State) (a : Activation) : State :=
  a.elements.foldl (fun s e =>
    s.putElement e ((s.element e).withoutSlots (fun sl => sl.token.colour.toNat = a.colour) s.cycle)) s

/-- What the later checks of a step see of an earlier effect of it: generators, streams, banks, records, loads and sweeps as they
will stand (13 R199). -/
def State.foresee (s : State) (q : SeqId) (a : Activation) : StepEffect → State
  | .agset ag base _ => s.setBase (seqTile a q) ag base
  | .push ag chan ctx _ => s.startStream q a true ag chan ctx
  | .accept ag chan _ => s.startStream q a false ag chan 0
  | .depth el port d _ => s.setDepth el port d
  | .bank t b m _ => s.startSwitch t b m
  | .decl i base ext => s.putActivation { a with records := a.records.set i (declRecord base ext) }
  | .cfg image discard _ =>
    let b := { a with load := some { image := image, discard := discard } }
    s.putActivation { b with load := s.loadEnded b }
  | .commit _ => match s.loadEnded a with
    | some l => if l.phase = .loaded then (s.drainedSlots a).sweepTo a l else s.putActivation { a with load := some l }
    | none => s
  | _ => s

/-- The first failing check of staged effects, in program order, behind some earlier ones of the step. -/
def State.checkFrom (s : State) (q : SeqId) (records : List RegionRecord) (before : List StepEffect) :
    List StepEffect → Except (FaultInfo × Nat) Unit
  | [] => .ok ()
  | e :: es => match s.seqActivation q with
    | none => .ok ()
    | some a => match s.checkEffect q a records before e with
      | .ok () => (s.foresee q a e).checkFrom q records (before ++ [e]) es
      | .error f => .error f
/-- The first failing check of the staged effects of a step, in program order. -/
def State.checkStep (s : State) (q : SeqId) (es : List StepEffect) : Except (FaultInfo × Nat) Unit :=
  match s.seqActivation q with
  | none => .ok ()
  | some a => s.checkFrom q a.records [] es

/-! ## Release -/

/-- The step that comes after the one a sequencer commits: the target of its branch, or the next of the table (25 R404). -/
def State.nextAfter (s : State) (q : SeqId) (place : Nat) : Nat :=
  match (s.stepOf q).bind fun p => p.2.ended with
  | some (.branch k) => k
  | _ => (place + 1) % 256

/-- Release one staged effect of step `place`. -/
def State.releaseEffect (s : State) (q : SeqId) (a : Activation) (place : Nat) (e : StepEffect) : Released :=
  let tile := seqTile a q
  let orWaits (o : Option State) : Released := match o with
    | some s => .done s
    | none => .waits
  match e with
  | .store .. => orWaits (s.performAccess q a place e)
  | .atom .. => orWaits (s.performAccess q a place e)
  | .eyelet .. => orWaits (s.performAccess q a place e)
  | .append r _ => orWaits (s.appendCommand a tile r)
  | .collective fn r => orWaits (s.appendCollective a fn r)
  | .agset ag base _ => .done (s.setBase tile ag base)
  | .push ag chan ctx _ => .done (s.startStream q a true ag chan ctx)
  | .accept ag chan _ => .done (s.startStream q a false ag chan 0)
  | .run mport count chan ctx _ =>
    let asks := a.baseState && a.permit < 4
    let r : RunProgress :=
      { mport := mport, chan := chan, ctx := ctx, remaining := if count = 0 then none else some count.toNat, needs := asks }
    .done ((s.meetNests a (s.nestsOf a)).mapActivation a.colour fun a => { a with
      runs := a.runs ++ [r],
      permit := if a.baseState then min 4 a.permit else a.permit,
      asks := if asks then a.asks ++ [{ cls := 4, at_ := s.tick, run := true }] else a.asks })
  | .cfg image discard _ =>
    if a.isLoading then .waits
    else .done (s.putActivation { a with load := some { image := image, discard := discard } })
  | .commit _ => match a.load with
    | none => .done (s.putActivation { a with sweep := false })
    | some l =>
      if l.phase = .failed then .done (s.putActivation { a with sweep := false })
      else if a.sweep then .waits
      else .stays (s.putActivation { a with sweep := true }) e
  | .depth el port d _ => .done (s.setDepth el port d)
  | .bank t b m _ => .done (s.startSwitch t b m)
  | .spawn record _ _ =>
    if s.chainFull a.entry.asid || s.storesQueued a (s.tableFrom a record).2 s.tick then .waits else .done (s.spawnRecord a record)
  | .decl i base ext =>
    if s.isQuiet a = false || s.commandsOpen a then .waits
    else match a.records[i]? with
      | none => .done s
      | some old =>
        let n := declRecord base ext
        let new := if n.extent = 0 then none else some n
        let s := s.releaseDropped a old new
        .done (s.mapActivation a.colour fun a =>
          { a with records := a.records.set i n, narrowed := a.narrowed || declReleases old new })
  | .cancel level id => .done (s.cancelId a.entry.asid (field a.entry.record 0x1E 2) level id 0x66)
  | .split d k =>
    if a.runs.isEmpty then
      let r := s.splitAt a k.toNat
      .done (r.1.setSeqReg q d (BitVec.ofNat 64 r.2))
    else .waits
  | .yield => .done (if s.yields a then s.putActivation { a with victim := some true } else s)
  | .sfence scope =>
    if s.scopeDrained a scope fun m => a.holds m.source then
      .done (if 1 ≤ scope then s.releaseWriter a.memTiles (seqWriter q) else s)
    else .waits
  | .permit c =>
    if c ≤ a.permit then
      .done (s.putActivation { a with permit := c, baseState := false, asks := a.asks.filter (·.run) })
    else if a.asks.any fun k => !k.run then .waits
    else .stays (s.putActivation { a with asks := a.asks ++ [{ cls := c, at_ := s.tick }] }) e
  | .unpermit => .done (s.putActivation { a with permit := 1, baseState := true })
  | .tlbinv kind address target =>
    let ids := s.additionsUnder kind address.toNat target
    let s := s.invalidate kind address.toNat target
    if ids.isEmpty && !s.streamsStale then .done s else .stays s (.untilAdded ids)
  | .untilAdded ids =>
    if s.streamsStale then .stays s.repatchAll e
    else if ids.any fun i => (s.memory.additions.find i).isSome then .waits else .done s
  | .mon d v => .done (s.setSeqReg q d v)
  | .quar d el sets => .done ((s.setQuarantine el sets).setSeqReg q d (if s.quarantined el then 1 else 0))
  | .ctxsave d asid saving => match saving with
    | none =>
      let s := s.meetDesc asid
      if s.descField asid 0x20 8 < s.saveNeed asid then .done (s.setSeqReg q d (BitVec.ofInt 64 (-1)))
      else .stays (s.beginSave asid) (.ctxsave d asid (some ((s.runningOf asid).map (·.colour))))
    | some colours =>
      let r := s.saving colours
      if r.1.isEmpty then .done (s.setSeqReg q d (BitVec.ofNat 64 r.2)) else .waits
  | .ctxload d asid => .done ((s.loadContext asid).setSeqReg q d (BitVec.ofNat 64 (s.savedOf asid).length))
  | .bbnote x y => .done (s.blackBox 0x10
      [(9, 1, a.entry.asid), (10, 2, a.anchor), (16, 8, x.toNat), (24, 8, y.toNat)])
  | .sbrk code =>
    let i : FaultInfo := { code := 0x72, operand := code.setWidth 32 }
    let next := s.nextAfter q place
    let s := s.report (s.stepSite q next 0) i
    .done (match s.sequencer q with
      | some x => s.putSequencer q { x with held := some { info := i, place := next } }
      | none => s)
  | .stepMode mode record => .done (s.stepModeSet a.entry.asid mode record.toNat)

/-- What a TLBINV among the effects of a step adds to what covers the accesses behind it (25 R399). -/
def State.coversAfter (s : State) (asid : Nat) (e : StepEffect) (covers : Nat → Bool) : Nat → Bool :=
  match e with
  | .tlbinv kind address target => fun va => covers va || s.invalidatesAt kind address.toNat target asid va
  | _ => covers

/-- Release effects in program order as far as they go: the state, what stays, and whether anything happened. An access that earlier
effects have covered is held. -/
def State.releaseFrom (s : State) (q : SeqId) (place : Nat) (covers : Nat → Bool) : List StepEffect → State × List StepEffect × Bool
  | [] => (s, [], false)
  | e :: es => match s.seqActivation q with
    | none => (s, [], true)
    | some a =>
      if a.cancelled then (s, [], true)
      else
        let after := s.coversAfter a.entry.asid e covers
        match s.releaseEffect q a place (e.hold covers) with
        | .done s =>
          let r := s.releaseFrom q place after es
          (r.1, r.2.1, true)
        | .stays s e => (s, e :: es.map (·.hold after), true)
        | .waits => (s, (e :: es).map (·.hold covers), false)
def State.releaseAll (s : State) (q : SeqId) (place : Nat) (es : List StepEffect) : State × List StepEffect × Bool :=
  s.releaseFrom q place (fun _ => false) es

end Sys2Proof.Machine
end

