-- ==== Sys2Proof/Machine/SequencerEvents.lean ====
section
/-! DEFINITION. The events of a sequencer: waits, and a step's start and commit (13 R199 to R201; 20 R325; 21 R329, R338; 26
R411). -/
namespace Sys2Proof.Machine

/-! ## Waits (13 R201; 16 R260; 20 R325; 21 R338) -/

/-- A serial number has reached a value: (x − v) mod 2^32 < 2^31. -/
def hasReached (x v : Word) : Bool := decide ((x - v).toNat < 2 ^ 31)

/-- An observation by a sequencer: every tile cache of the region drops its clean sectors of the R and RW records. -/
def State.observeAll (s : State) (a : Activation) : State := s.observe a a.memTiles

/-- Clear the wait of a sequencer. -/
def State.endWait (s : State) (q : SeqId) (x : Sequencer) : State := s.putSequencer q { x with wait := .none }

/-- Hold a sequencer on a wait that faults: CC names the waiting step (25 R428). -/
def State.holdWait (s : State) (q : SeqId) (x : Sequencer) (i : FaultInfo) : State :=
  let i := { i with flags := i.flags ||| 1 }
  let s := s.report (s.stepSite q x.cc 0) i
  s.putSequencer q { x with held := some { info := i, late := true, place := x.cc } }

/-- WAIT_SATISFIED: a wait whose condition holds ends; an eyelet that cannot be read holds the sequencer; an eyelet that
is not there yet notes its waiter (21 R336). -/
def execWaitSatisfied (q : SeqId) (s : State) : Result :=
  match s.seqActivation q, s.sequencer q with
  | some a, some x =>
    if x.held.isSome || x.step.isSome || !x.running || !a.inForce then .fault .notEnabled
    else match x.wait with
      | .none => .fault .notEnabled
      | .quiet => occurs (s.quietFor q a) (s.endWait q x)
      | .sequence engine v =>
        let c := s.chain (chainIdOf a (seqTile a q) engine)
        if hasReached c.seq v then
          let s := if c.eyelets.contains v.toNat then s.observeAll a else s
          match s.sequencer q with
          | some x => .next (s.endWait q x)
          | none => .fault .notEnabled
        else .fault .notEnabled
      | .eyelet va g => match s.reach a .wait va.toNat with
        | .error f => .next (s.holdWait q x f)
        | .ok l =>
          let s := s.cacheLeaf a.entry.asid va.toNat l
          match s.readEyelet none l.pa with
          | (s, none) => .next (s.holdWait q x (poisonedAt .wait va.toNat))
          | (s, some w) =>
            if eyeletBad w then .next (s.holdWait q x { code := 0x28, address := va })
            else if hasReached (BitVec.ofNat 32 w.generation) g then
              let s := s.observeAll a
              match s.sequencer q with
              | some x => .next (s.endWait q x)
              | none => .fault .notEnabled
            else
              let s := s.writeEyelet none a.entry.asid l.pa { w with flags := w.flags + 1 }
              occurs (w.flags % 2 = 0) (if s.eyeletLost none l.pa then s.holdWait q x (poisonedAt .wait va.toNat) else s)
  | _, _ => .fault .notEnabled

/-! ## The start of a step (13 R198, R200, R201, R225) -/

/-- STEP_START: the step that CC names starts. In step mode the region sequencer uses its grant (18 R302). -/
def execStepStart (q : SeqId) (s : State) : Result :=
  match s.seqActivation q, s.sequencer q with
  | some a, some x =>
    if x.running && x.step.isNone && x.held.isNone && x.lateAccess.isEmpty && x.wait = .none && s.mayStart a &&
        (isStreamSeq q || (a.phase = .running && (!a.stepMode || a.stepGrants = 2))) then
      let s := s.putSequencer q { x with step := some { saved := x.regs } }
      if isStreamSeq q || !a.stepMode then .next s
      else match s.activation a.colour with
        | some b => .next (s.putActivation { b with stepGrants := 1 })
        | none => .fault .notEnabled
    else .fault .notEnabled
  | _, _ => .fault .notEnabled

/-! ## STEP_COMMIT (13 R199, R200; 26 R411) -/

/-- A step whose effects are all released: CC and the wait of its end. DONE ends the program. -/
def Sequencer.finishStep (x : Sequencer) (e : StepEnd) : Sequencer :=
  match e with
  | .wait w => { x with step := none, cc := nextStep x, wait := w }
  | .branch k => { x with step := none, cc := k }
  | .run => { x with step := none, cc := nextStep x }
  | .finished => { x with step := none, running := false }

/-- After a step: DONE of a region program starts its completion, and what its RUNs have not placed is never placed (21 R329); a
spent grant closes (18 R302). -/
def State.afterStep (s : State) (q : SeqId) (e : StepEnd) : State :=
  match q with
  | .stream _ => s
  | .region c =>
    let s := if e = .finished then match s.activation c with
        | some a => s.putActivation { a with
            phase := if a.phase = .running then .finishing else a.phase, runs := [], asks := a.asks.filter fun k => !k.run }
        | none => s
      else s
    s.closeGrant c

/-- The effects of a step in the order of their release: program order, but for YIELD and SBRK, which act at the boundary after
the whole step (21 R335; 25 R404). -/
def releaseOrder (es : List StepEffect) : List StepEffect :=
  let isYield (e : StepEffect) : Bool := match e with
    | .yield => true
    | _ => false
  let isSbrk (e : StepEffect) : Bool := match e with
    | .sbrk _ => true
    | _ => false
  (es.filter fun e => !isYield e && !isSbrk e) ++ es.filter isYield ++ es.filter isSbrk

/-- STEP_COMMIT: a step that has ended is checked as a whole, and its staged effects are then released in program order.
One that an effect makes wait goes on in a later event. The step of a cancelled activation is discarded, unless it is a second
attempt that can end (26 R411). Between steps, an access that failed late and is tried again is performed (25 R428), and a grant
under which nothing more can run closes (25 R405). -/
def execStepCommit (q : SeqId) (s : State) : Result :=
  match s.seqActivation q, s.sequencer q with
  | some a, some x => match x.step with
    | none => match x.lateAccess with
      | [] => occurs (!isStreamSeq q && s.grantEnds a) (s.closeGrant a.colour)
      | (place, e) :: rest =>
        if x.held.isSome || a.cancelled || !a.inForce then .fault .notEnabled
        else occursIf ((s.putSequencer q { x with lateAccess := rest }).retryAccess q a place e)
    | some r => match r.ended with
      | none => occurs (a.discards (r.attempt ≠ 0 && r.waitsAt ≠ some r.word)) (s.putSequencer q { x with step := none, running := false })
      | some e =>
        if a.discards (r.attempt ≠ 0 && !r.released) then .next (s.putSequencer q { x with step := none, running := false })
        else if !a.inForce || (match x.held with
            | some h => !h.late
            | none => false) then .fault .notEnabled
        else if !r.released && s.upsets.contains (.stepFiring q) then .next (s.stepMismatch q a x r)
        else if !r.released && isStreamSeq q && a.sweep then .fault .notEnabled
        else
          let r := { r with effects := releaseOrder r.effects }
          let checked := if r.released then .ok () else s.checkStep q r.effects
          match checked with
          | .error (f, w) =>
            .next (takeStepException (s.putSequencer q { x with step := some { r with word := w } }) q f)
          | .ok () =>
            let s := s.putSequencer q { x with step := some { r with released := true } }
            let o := s.releaseAll q x.cc r.effects
            match o.1.sequencer q with
            | none => .next o.1
            | some x' =>
              if o.2.1.isEmpty then .next ((o.1.putSequencer q (x'.finishStep e)).afterStep q e)
              else if o.2.2 || !r.released then
                .next (o.1.putSequencer q { x' with step := some { r with
                  released := true, begun := r.begun || decide (o.2.1.length < r.effects.length), effects := o.2.1 } })
              else .fault .notEnabled
  | _, _ => .fault .notEnabled

end Sys2Proof.Machine
end

