-- ==== Sys2Proof/Machine/StreamEvents.lean ====
section
/-! DEFINITION. The events of the address generators: start tokens, PUSH and ACCEPT streams and the accumulator banks (13 R217 to
R224; 07 R116; 15 R239; 16 R271; 25 R393). -/
namespace Sys2Proof.Machine

/-! ## RUN_START_TOKENS (13 R217, R218; 25 R394) -/

/-- The indices of iteration m as 64-bit values: i0 varies fastest (13 R217). -/
def indexBytes (record : BitVec 512) (m : Nat) : Vec :=
  let e0 := max 1 (field record 0x30 4)
  let e1 := max 1 (field record 0x34 4)
  let e2 := max 1 (field record 0x38 4)
  BitVec.ofNat 2048 (m % e0 + (m / e0 % e1) * 2 ^ 64 + (m / (e0 * e1) % e2) * 2 ^ 128 + (m / (e0 * e1 * e2)) * 2 ^ 192)

/-- The start token of an iteration. -/
def startToken (a : Activation) (chan : BitVec 5) (ctx : BitVec 3) (m : Nat) : Token :=
  { kind := .data, vector := false, chan := chan, ctx := ctx, colour := BitVec.ofNat 16 a.colour, iter := BitVec.ofNat 16 m,
    data := indexBytes a.entry.record m }

/-- RUN_START_TOKENS: the oldest RUN, once its class is granted (21 R342), places the start tokens that its count, the extent and
the window allow. -/
def execRunStartTokens (colour : Nat) (s : State) : Result :=
  match s.activation colour with
  | none => .fault .notEnabled
  | some a => match a.runs with
    | [] => .fault .notEnabled
    | r :: rest =>
      if r.needs || !s.mayStart a then .fault .notEnabled
      else
        let old := s.oldest a
        let want := min (r.remaining.getD (a.extent - a.isc)) (a.extent - a.isc)
        let k := min want (old + 64 - a.isc)
        let ms := (List.range k).map (a.isc + ·)
        let left := want - k
        if k = 0 && left ≠ 0 then .fault .notEnabled
        else
          let s := s.emit (.tileMem a.anchor r.mport) (ms.map (startToken a r.chan r.ctx))
          .next (s.putActivation { a with
            isc := a.isc + k,
            placed := (a.placed.filter fun p => old ≤ p.iteration) ++
              ms.map fun m => { iteration := m, mport := r.mport, chan := r.chan, ctx := r.ctx },
            runs := if left = 0 then rest else { r with remaining := r.remaining.map (· - k) } :: rest })

/-! ## Streams (13 R222 to R224; 15 R239; 16 R271; 25 R393) -/

/-- The number that stands for a tile's streams among those that store to a tile cache. -/
def streamWriter (tile : Nat) : Nat := 196608 + tile

/-- Where a word of a stream's memory-space nest lies, by the extents that the loader has patched in (25 R392). -/
def Stream.wordHome (st : Stream) (va : Nat) : Except FaultInfo Home :=
  match st.extents.find (va / 65536) with
  | some h => .ok { h with pa := h.pa + va % 65536 }
  | none => .error (xlFault false 0 va)

/-- Word `m` of a stream's nest read at tile scope: the state and the word, or a fault. A full-empty word gives its bits at once
(15 R246). -/
def State.readNestWord (s : State) (a : Activation) (tile : Nat) (st : Stream) (m : Nat) : State × Except FaultInfo Word :=
  let at_ := st.nest.address m
  match st.nest.space with
  | .memory => match st.wordHome at_.toNat with
    | .error f => (s, .error f)
    | .ok h => match s.homeGood .read at_.toNat h with
      | .error f => (s, .error f)
      | .ok () => match s.deviceRead a tile h.pa 4 0 h.mtype h.fullEmpty with
        | (s, some bs) => (s, .ok (BitVec.ofNat 32 (natOfBytes bs)))
        | (s, none) => (s, .error (poisonedAt .read at_.toNat))
  | _ =>
    if at_ < 0 || !s.scratchGood a at_.toNat 4 then (s, .error { code := 0x17, address := BitVec.ofInt 64 at_ })
    else (s, .ok (BitVec.ofNat 32 (s.scratchNat a at_.toNat 4)))

/-- Words of a stream's nest from one on. -/
def State.readNest (s : State) (a : Activation) (tile : Nat) (st : Stream) : Nat → Nat → State × Except FaultInfo (List Word)
  | _, 0 => (s, .ok [])
  | m, k + 1 => match s.readNestWord a tile st m with
    | (s, .error f) => (s, .error f)
    | (s, .ok w) => match s.readNest a tile st (m + 1) k with
      | (s, .error f) => (s, .error f)
      | (s, .ok ws) => (s, .ok (w :: ws))

/-- A vector whose words are given, the rest zero. -/
def vecOfWords (ws : List Word) : Vec := BitVec.ofNat 2048 (ws.foldr (fun w acc => w.toNat + 2 ^ 32 * acc) 0)

/-- The stream that a port serves: the first PUSH, or the first ACCEPT, that committed on it. -/
def portStream (x : MemTile) (isPush : Bool) (mport : Nat) : Option Nat :=
  x.streams.findIdx? fun st => st.isPush = isPush && st.nest.mport = mport

/-- PUSH_STREAM: the next token of the PUSH that a port serves; PUSHes of one generator run one after another. -/
def execPushStream (tile mport : Nat) (s : State) : Result :=
  let x := s.tile tile
  match portStream x true mport with
  | none => .fault .notEnabled
  | some i => match x.streams[i]? with
    | none => .fault .notEnabled
    | some st => match s.activation st.colour.toNat with
      | none => .fault .notEnabled
      | some a =>
        if st.held.isSome || !s.mayStart a || (x.streams.take i).any (fun k => k.isPush && k.ag = st.ag) then .fault .notEnabled
        else
          let k := min 64 (st.nest.words - st.next)
          match s.repatch a tile i st with
          | (s, none) => .next s
          | (s, some st) => match s.readNest a tile st st.next k with
          | (s, .error f) => .next (s.holdStream a tile i st f)
          | (s, .ok ws) =>
            let t : Token :=
              { kind := .data, vector := decide (8 < k), chan := st.chan, ctx := st.ctx, colour := st.colour, iter := st.iter,
                data := vecOfWords ws }
            let s := s.emit (.tileMem tile mport) [t]
            let y := s.tile tile
            .next (s.putTile tile { y with
              streams := if st.nest.words ≤ st.next + k then y.streams.eraseIdx i
                else y.streams.set i { st with next := st.next + k } })

/-- The identifier of a bank's tile in the activation's event sources (25 R386). -/
def State.raiseEvents (s : State) (colour source events : Nat) : State :=
  match s.activation colour with
  | none => s
  | some a =>
    let sources := (List.range 6).foldl (fun (m : Tab Nat) i =>
      if events / 2 ^ i % 2 = 1 then m.put i (min source (m.getD i 0xFFFF)) else m) a.sources
    s.putActivation { a with events := a.events ||| BitVec.ofNat 32 (events % 64), sources := sources }

/-- Events in the status word of a tile's accumulator bank (07 R116; 16 R271). -/
def State.bankEvents (s : State) (tile : Nat) (events : Word) : State :=
  let x := s.tile tile
  s.putTile tile { x with bankStatus := x.bankStatus ||| events }

/-- The elements whose partials reach a memory port: the source of its circuit, followed back over an edge (11 R171). -/
def State.handsTo (s : State) (tile mport : Nat) : Option Nat :=
  let element (p : SourcePort) : Option Nat := match p with
    | .out el _ => some el
    | _ => none
  match (s.circuits.map (·.2)).find? fun c => c.ends.contains (.streamPort tile mport) with
  | none => none
  | some c => match c.source with
    | .edgeIn g n =>
      ((s.circuits.map (·.2)).find? fun k => k.ends.contains (.edge n) && (match s.activation k.owner with
        | some a => a.gang = some g
        | none => false)).bind fun k => element k.source
    | p => element p

/-- The accumulator bits of an element: those of all its contexts (07 R116; log 38). -/
def Element.accBits (x : Element) : Word := x.ctxs.foldl (fun w k => w ||| (k.2.status &&& 0x38)) 0

/-- An element that hands a bank a partial hands it its accumulator bits (07 R116). -/
def State.handBits (s : State) (tile mport : Nat) : State :=
  match s.handsTo tile mport with
  | some el => s.bankEvents tile (s.element el).accBits
  | none => s

/-- A nest adds into the accumulator bank (13 R209). -/
def Nest.adds (n : Nest) : Bool := n.space ≠ .scratch && n.space ≠ .memory

/-- Lane events as accumulator events: NV and OF (07 R116). -/
def asAccEvents (e : Word) : Word :=
  (if e &&& evVnv = 0 then 0 else evAnv) ||| (if e &&& evVof = 0 then 0 else evAof)

/-- Add a 64-bit pair into the bank doubleword at an address. -/
def State.bankAdd64 (s : State) (tile at_ v : Nat) : State :=
  let x := s.tile tile
  let r := signedOf 64 (x.bank.readNat at_ 8) + signedOf 64 v
  let s := s.putTile tile { x with bank := x.bank.writeNat at_ 8 (r % (2 ^ 64 : Nat)).toNat }
  if r = signedOf 64 (r % (2 ^ 64 : Nat)).toNat then s else s.bankEvents tile evAof

/-- Add a word of an ACCEPT into the accumulator bank (16 R271). -/
def State.bankAdd32 (s : State) (tile at_ : Nat) (float : Bool) (w : Word) : State :=
  let x := s.tile tile
  let old := x.bank.readNat at_ 4
  if float then
    let r := addF32 old w.toNat
    let s := s.putTile tile { x with bank := x.bank.writeNat at_ 4 r.1 }
    s.bankEvents tile (asAccEvents r.2)
  else
    let r := signedOf 32 old + signedOf 32 w.toNat
    let s := s.putTile tile { x with bank := x.bank.writeNat at_ 4 (r % (2 ^ 32 : Nat)).toNat }
    if r = signedOf 32 (r % (2 ^ 32 : Nat)).toNat then s else s.bankEvents tile evAof

/-- Write word `m` of an ACCEPT's nest: the state and the half pair that waits, or a fault. -/
def State.acceptWord (s : State) (a : Activation) (tile : Nat) (st : Stream) (m : Nat) (half : Option Word) (w : Word) :
    State × Except FaultInfo (Option Word) :=
  let at_ := st.nest.address m
  match st.nest.space with
  | .scratch =>
    if at_ < 0 || !s.scratchGood a at_.toNat 4 then (s, .error { code := 0x17, flags := 8, address := BitVec.ofInt 64 at_ })
    else (s.scratchWriteNat a at_.toNat 4 w.toNat, .ok none)
  | .memory => match st.wordHome at_.toNat with
    | .error f => (s, .error f)
    | .ok h => match s.homeGood .write at_.toNat h with
      | .error f => (s, .error f)
      | .ok () => match s.deviceWrite a tile (streamWriter tile) h.pa 0 h.mtype h.fullEmpty (leBytes 4 w.toNat) with
        | (s, true) => (s, .ok none)
        | (s, false) => (s, .error (poisonedAt .write at_.toNat))
  | .accI32 => (s.bankAdd32 tile at_.toNat false w, .ok none)
  | .accF32 => (s.bankAdd32 tile at_.toNat true w, .ok none)
  | .accI64 => match half with
    | none => (s, .ok (some w))
    | some lo => (s.bankAdd64 tile (at_.toNat - 4) (lo.toNat + 2 ^ 32 * w.toNat), .ok none)

/-- Write words to a nest from word `m` on: how far it came. -/
def State.acceptWords (s : State) (a : Activation) (tile : Nat) (st : Stream) : Nat → Option Word → List Word →
    State × Nat × Option Word × Option FaultInfo
  | m, half, [] => (s, m, half, none)
  | m, half, w :: ws =>
    if st.nest.words ≤ m then (s, m, half, none)
    else match s.acceptWord a tile st m half w with
      | (s, .error f) => (s, m, half, some f)
      | (s, .ok h) => s.acceptWords a tile st (m + 1) h ws

/-- ACCEPT_STREAM: the head token of a port goes to the ACCEPT that it serves, or is discarded with a stream fault. An
ACCEPT that a fault holds keeps its token. -/
def execAcceptStream (tile mport : Nat) (s : State) : Result :=
  let x := s.tile tile
  match portStream x false mport, headToken (x.fifos.getD mport []) with
  | some i, some (t, rest) => match x.streams[i]? with
    | none => .fault .notEnabled
    | some st => match s.activation st.colour.toNat with
      | none => .fault .notEnabled
      | some a =>
        if st.held.isSome || !s.mayStart a then .fault .notEnabled
        else
          let taken := s.putTile tile { x with fifos := x.fifos.put mport rest }
          if t.chan ≠ st.chan || t.colour ≠ st.colour || t.kind = .conf || t.kind = .ctrl then
            .next (taken.report (s.streamSite a tile st) { code := 0x18 })
          else
            let ws := (List.range (if t.vector then 64 else 8)).map (vecWord t.data)
            match s.repatch a tile i st with
            | (s, none) => .next s
            | (s, some st) =>
            let r := s.acceptWords a tile st st.next st.half ws
            match r.2.2.2 with
            | some f => .next (r.1.holdStream a tile i st f)
            | none =>
              let ends := decide (st.nest.words ≤ r.2.1) || decide (t.kind = .last)
              let s := match ends, r.2.2.1 with
                | true, some lo => r.1.bankAdd64 tile (st.nest.address (r.2.1 - 1)).toNat lo.toNat
                | _, _ => r.1
              let s := if st.nest.adds then s.handBits tile mport else s
              let y := s.tile tile
              .next (s.putTile tile { y with
                fifos := y.fifos.put mport rest,
                streams := if ends then y.streams.eraseIdx i
                  else y.streams.set i { st with next := r.2.1, half := r.2.2.1 } })
  | _, _ => .fault .notEnabled

end Sys2Proof.Machine
end

