-- ==== Sys2Proof/Machine/Engine.lean ====
section
/-! DEFINITION. What the engines share: commands at their places, reads and writes of device memory and scratch, eyelet
additions, and the one unit of work of a command (16 R256 to R262; 17 R281; 14 R230 to R233; 26 R410 to R415). -/
namespace Sys2Proof.Machine

/-! ## Results that keep the state of a failed attempt -/

/-- A state with a value, or with the fault that was found. -/
abbrev Tried (α : Type) := State × Except FaultInfo α

/-- Go on where nothing failed. -/
def andThen {α β : Type} (r : Tried α) (f : State → α → Tried β) : Tried β :=
  match r with
  | (s, .error e) => (s, .error e)
  | (s, .ok a) => f s a

/-! ## Commands -/

def Chain.command (c : Chain) (place : Nat) : Option Command := c.commands.find? fun k => k.place = place
/-- Put a command back in its chain. -/
def State.setCommand (s : State) (id : ChainId) (k : Command) : State :=
  let c := s.chain id
  s.putChain { c with commands := c.commands.map fun m => if m.place = k.place then k else m }

/-- Fields of a parameter block: unsigned, and signed words. -/
def Command.field (k : Command) (off n : Nat) : Nat := Sys2Proof.Machine.field k.block off n
def Command.signedWord (k : Command) (off : Nat) : Int := signedOf 32 (k.field off 4)
/-- The eyelet bytes of a parameter block; 0 counts each unit as it lands (14 R230). -/
def Command.eyeletBytes (k : Command) : Nat := k.field 0x1C 4

/-- The engines that reach the LPDDR tier: the copy and the spill engines (15 R236). -/
def reachesLpddr (engine : Nat) : Bool := engine = 0 || engine = 5

/-! ## Device memory (17 R281; 19 R304; 25 R387) -/

/-- The pieces of a virtual range that lie in one 64 KiB page each: offset within the range, address and length. -/
def pagePieces (va n : Nat) : List (Nat × Nat × Nat) :=
  (List.range ((va + n + 65535) / 65536 - va / 65536)).map fun i =>
    let lo := max va (va / 65536 * 65536 + 65536 * i)
    let hi := min (va + n) (va / 65536 * 65536 + 65536 * (i + 1))
    (lo - va, lo, hi - lo)

/-- A translated piece of a range: its offset within the range, its leaf and its length. -/
abbrev Piece := Nat × Leaf × Nat

/-- Translate pieces one after another; the first fault stops. -/
def State.translatePieces (s : State) (a : Activation) (engine : Nat) (u : RecordUse) : List (Nat × Nat × Nat) → Tried (List Piece)
  | [] => (s, .ok [])
  | (off, va, n) :: rest => match checkAccess s a u va n (reachesLpddr engine) with
    | .error f => (s, .error f)
    | .ok l => andThen ((s.cacheLeaf a.entry.asid va l).translatePieces a engine u rest) fun s ps => (s, .ok ((off, l, n) :: ps))

/-- The undeclared access of a range: its address, kind and width (19 R304). -/
def undeclared (u : RecordUse) (va n : Nat) : FaultInfo :=
  { code := 0x23, flags := useFlags u, address := BitVec.ofNat 64 va, position := BitVec.ofNat 32 n }

/-- Check a device range of a command and translate it. -/
def State.engineReach (s : State) (a : Activation) (engine : Nat) (u : RecordUse) (va n : Nat) : Tried (List Piece) :=
  if recordsAllow a.records u va n then s.translatePieces a engine u (pagePieces va n)
  else (s, .error (undeclared u va n))

/-- The bytes of translated pieces, read at the LLC: a full-empty word gives its bits at once (15 R246). -/
def State.loadPieces (s : State) (a : Activation) (va : Nat) : List Piece → Tried (List Byte)
  | [] => (s, .ok [])
  | (off, l, n) :: rest => match (s.engineFlush a l.pa n false).llcRead l.pa n with
    | (s, none) => (s, .error { code := 0x26, address := BitVec.ofNat 64 (va + off) })
    | (s, some bs) => andThen (s.loadPieces a va rest) fun s more => (s, .ok (bs ++ more))

/-- Write bytes of an engine at the LLC; every tile cache drops what it holds of them. -/
def State.enginePut (s : State) (a : Activation) (l : Leaf) (bs : List Byte) : State :=
  let s := match s.activation a.colour with
    | some b => if b.isPair then s.putActivation (foldDigest b l.pa bs) else s
    | none => s
  let s := s.engineFlush a l.pa bs.length true
  let s := if l.fullEmpty && !s.isShadow a.colour then s.setFull l.pa bs.length true else s
  s.llcWrite a.entry.asid a.colour l.pa bs

/-- Before bytes are written over translated pieces the LLC is readied for all of them, so that an error that a write would meet leaves
every byte as it was (16 R262; 24 R375). -/
def State.settlePieces (s : State) (a : Activation) (va : Nat) (ps : List Piece) : Tried Unit :=
  let s := if s.isShadow a.colour then s
    else ps.foldl (fun s p => (s.engineFlush a p.2.1.pa p.2.2 true).settle a.entry.asid p.2.1.pa p.2.2) s
  match ps.find? fun p => s.retired p.2.1.pa with
  | some p => (s, .error (poisonedAt .write (va + p.1)))
  | none => (s, .ok ())

/-- Write bytes over translated pieces; a write whose frame is retired as it is made has a poisoned-frame fault (24 R375). -/
def State.putPieces (s : State) (a : Activation) (va : Nat) (bs : List Byte) : List Piece → Tried Unit
  | [] => (s, .ok ())
  | (off, l, n) :: ps =>
    let s := s.enginePut a l ((bs.drop off).take n)
    if s.retired l.pa then (s, .error (poisonedAt .write (va + off))) else s.putPieces a va bs ps
def State.storePieces (s : State) (a : Activation) (va : Nat) (bs : List Byte) (ps : List Piece) : Tried Unit :=
  andThen (s.settlePieces a va ps) fun s _ => s.putPieces a va bs ps

/-- Read a device range of a command. -/
def State.engineRead (s : State) (a : Activation) (engine va n : Nat) : Tried (List Byte) :=
  andThen (s.engineReach a engine .read va n) fun s ps => s.loadPieces a va ps

/-- Write a device range of a command. -/
def State.engineWrite (s : State) (a : Activation) (engine va : Nat) (bs : List Byte) : Tried Unit :=
  andThen (s.engineReach a engine .write va bs.length) fun s ps => s.storePieces a va bs ps

/-! ## Either side: device memory or scratch -/

def scratchFault (u : RecordUse) (off : Int) : FaultInfo :=
  { code := 0x22, flags := useFlags u, address := BitVec.ofInt 64 off }

/-- An address of a side as a number: device addresses have 64 bits, scratch offsets count from 0. -/
def deviceAddress (x : Int) : Nat := (x % (2 ^ 64 : Nat)).toNat

/-- Check and translate a range of a side; a scratch range has no pieces. -/
def State.sideReach (s : State) (a : Activation) (engine : Nat) (scratch : Bool) (u : RecordUse) (at_ : Int) (n : Nat) :
    Tried (List Piece) :=
  if scratch then
    if 0 ≤ at_ && s.scratchGood a at_.toNat n then (s, .ok []) else (s, .error (scratchFault u at_))
  else s.engineReach a engine u (deviceAddress at_) n

/-- Read a range of a side that has been checked. -/
def State.sideLoad (s : State) (a : Activation) (scratch : Bool) (at_ : Int) (n : Nat) (ps : List Piece) : Tried (List Byte) :=
  if scratch then (s, .ok (s.scratchBytes a at_.toNat n)) else s.loadPieces a (deviceAddress at_) ps

/-- Write a range of a side that has been checked. -/
def State.sideStore (s : State) (a : Activation) (scratch : Bool) (at_ : Int) (bs : List Byte) (ps : List Piece) :
    Tried Unit :=
  if scratch then (s.scratchWrite a at_.toNat bs, .ok ()) else s.storePieces a (deviceAddress at_) bs ps

/-- Read a range of a side. -/
def State.sideRead (s : State) (a : Activation) (engine : Nat) (scratch : Bool) (at_ : Int) (n : Nat) : Tried (List Byte) :=
  andThen (s.sideReach a engine scratch .read at_ n) fun s ps => s.sideLoad a scratch at_ n ps

/-! ## Eyelet additions of a command (16 R252, R258; 19 R303) -/

/-- Issue the addition that a command owes its eyelet, or stop its chain on the fault of the eyelet's address. -/
def State.issueOwed (s : State) (c : ChainId) (place : Nat) : State :=
  match (s.chain c).command place with
  | none => s
  | some k =>
    let va := k.record.eyelet.toNat
    if k.owed = 0 then s
    else if va = 0 then s.setCommand c { k with owed := 0 }
    else match s.activation k.colour with
      | none => s
      | some a =>
        if va % 16 ≠ 0 then s.stopChain c place { code := 0x21, flags := 16, address := BitVec.ofNat 64 va }
        else match checkAccess s a .atomic va 16 (reachesLpddr c.engine) with
          | .error f => s.stopChain c place f
          | .ok l => ((s.cacheLeaf a.entry.asid va l).setCommand c { k with owed := 0 }).addAddition
              { address := l.pa, va := va, n := k.owed, asid := a.entry.asid, colour := a.colour, adder := .engine c place }

/-- An addition of a command is on its way. -/
def State.adding (s : State) (c : ChainId) (place : Nat) : Bool :=
  s.memory.additions.any fun d => d.2.adder = .engine c place

/-! ## One unit of work (14 R228; 16 R262; 26 R411, R412) -/

/-- A mismatch in a tile's engine. -/
def State.engineMismatch (s : State) (c : ChainId) (k : Command) : State :=
  s.tileMismatch c.tile 3 k.colour c.engine k.attempt

/-- A bank of a region switches: what reaches its scratch waits (15 R238). -/
def State.switching (s : State) (a : Activation) : Bool := a.memTiles.any fun t => !(s.tile t).switching.isEmpty

/-- An activation whose commands at a die's spill engine go on: pre-emption does not pause them (18 R300). -/
def Activation.mayServe (a : Activation) : Bool :=
  (a.phase = .running || a.phase = .finishing) && !a.cancelled &&
  (match a.late with
   | some l => !l.delivered
   | none => true)

/-- The engines without rows: a command that one of them runs goes on to its end (18 R298, R300). -/
def hasRows (engine : Nat) : Bool := engine = 0 || engine = 4
/-- An activation whose running commands on engines without rows go on: a hold starts nothing, and what runs ends (25 R382). -/
def Activation.mayEnd (a : Activation) : Bool := a.phase = .running || a.phase = .finishing
/-- An activation whose second attempts go on: a pre-emption and a cancel wait for them, a kill does not (26 R411). -/
def Activation.mayRetry (a : Activation) : Bool := a.mayEnd && !a.discards true
/-- A second attempt of a colour's row is under way. -/
def State.rowRetried (s : State) (colour : Nat) : Bool :=
  s.chains.any fun c => !c.stopped && c.commands.any fun k => k.colour = colour && k.phase = .running && k.attempt ≠ 0
/-- A second attempt of a combination of a colour's collective command is under way. -/
def State.combineRetried (s : State) (colour : Nat) : Bool :=
  s.links.any fun l => l.2.held.isNone && (l.2.commands.head?.map fun k => k.colour = colour && k.attempt ≠ 0).getD false
/-- A second attempt of a colour's engine or link region is under way. -/
def State.workRetried (s : State) (colour : Nat) : Bool := s.rowRetried colour || s.combineRetried colour
/-- A command of a colour runs on an engine without rows. -/
def State.rowlessRuns (s : State) (colour : Nat) : Bool :=
  s.chains.any fun c => !hasRows c.id.engine && !c.stopped && c.commands.any fun k => k.colour = colour && k.phase = .running

/-- The command at a place of a chain that works, with its activation. -/
def State.working (s : State) (c : ChainId) (place : Nat) : Option (Activation × Command) :=
  match s.chains.find? fun x => x.id = c with
  | none => none
  | some x => match x.command place with
    | none => none
    | some k => match s.activation k.colour with
      | none => none
      | some a =>
        let may := (if hasRows c.engine then s.mayStart a else a.mayEnd) || (k.attempt ≠ 0 && a.mayRetry)
        if x.stopped || k.phase ≠ .running || !may then none else some (a, k)

/-- Do one unit of a command's work: the command goes on with what it owes, or stops its chain. A first mismatch forms the
unit again, a second one kills the activation. A cancelled activation's command adds no eyelet bytes (18 R298). -/
def onCommand (c : ChainId) (place : Nat) (s : State) (is_ : CommandRecord → Bool)
    (work : State → Activation → Command → Tried Command) : Result :=
  match s.working c place with
  | none => .fault .notEnabled
  | some (a, k) =>
    if is_ k.record = false || s.switching a then .fault .notEnabled
    else if c.engine ≠ 5 && s.upsets.contains (.engineFiring c) then
      let s := { s with upsets := s.upsets.erase (.engineFiring c) }
      let s := s.engineMismatch c k
      .next (if k.attempt = 0 then s.setCommand c { k with attempt := 1 } else s.killByColour k.colour)
    else match work s a k with
      | (s, .error i) => .next (s.stopChain c place i)
      | (s, .ok k) =>
        if a.cancelled then .next (s.setCommand c { k with attempt := 0, owed := 0 })
        else .next ((s.setCommand c { k with attempt := 0 }).issueOwed c place)

/-- The command after a row of `bytes` destination bytes, the last of `rows` or not (14 R230). -/
def Command.rowDone (k : Command) (rows bytes : Nat) : Command := { k with
  row := k.row + 1,
  owed := if k.eyeletBytes = 0 then k.owed + bytes else k.owed,
  phase := if rows ≤ k.row + 1 then .moved else k.phase }

/-- A fault of a command's row, block or chunk. -/
def atRow (row : Nat) (i : FaultInfo) : FaultInfo := { i with position := BitVec.ofNat 32 row }
def onRow {α : Type} (row : Nat) (r : Tried α) : Tried α :=
  match r with
  | (s, .error i) => (s, .error (atRow row i))
  | r => r

end Sys2Proof.Machine
end

