-- ==== Sys2Proof/Machine/Operands.lean ====
section
/-! DEFINITION. The operands of the element instructions: lane layouts, source selectors, special values, extension
words, active lanes and the writes of lanes and predicates (04 R51; 05 R68 to R73; 08 R117; 09 R139). -/
namespace Sys2Proof.Machine

/-! ## Types and lanes -/

/-- The width of a lane type (04 R51): codes 0 i32, 1 i16, 2 i8, 3 n32, 4 n16, 5 n8, 6 f32, 7 bf16. -/
def laneWidth (t : BitVec 3) : Nat :=
  match t.toNat with
  | 0 => 32
  | 1 => 16
  | 2 => 8
  | 3 => 32
  | 4 => 16
  | 5 => 8
  | 6 => 32
  | _ => 16
/-- Whether the lanes of a type are read as signed. -/
def laneSigned (t : BitVec 3) : Bool := t.toNat < 3
/-- The floating format of a type, if it has one. -/
def laneFmt (t : BitVec 3) : Option Fmt := if t = 6 then some fmtF32 else if t = 7 then some fmtBf16 else none
def fmtOfType (t : BitVec 3) : Fmt := if t = 6 then fmtF32 else fmtBf16
/-- The number of lanes of a width. -/
def lanesOf (w : Nat) : Nat := 2048 / w
/-- The predicate bit that governs lane `i` of a width (04 R51). -/
def govern (w i : Nat) : Nat := if w = 8 then i / 2 else i

/-- Lane `i` of a vector as a number. -/
def laneNat (v : Vec) (w i : Nat) : Nat := v.toNat / 2 ^ (w * i) % 2 ^ w
/-- A lane read by its type: exact, signed or unsigned (08 R117). -/
def laneInt (signed : Bool) (w n : Nat) : Int := if signed then signedOf w n else (n : Int)

/-- The number whose lanes of `w` bits are listed, lane 0 lowest. -/
def packLanes (w : Nat) : List Nat → Nat
  | [] => 0
  | x :: xs => x % 2 ^ w + 2 ^ w * packLanes w xs

/-- A vector with each lane set from a function, where it gives a value, and kept where it gives none. -/
def setLanes (old : Vec) (w : Nat) (f : Nat → Option Nat) : Vec :=
  BitVec.ofNat 2048 (packLanes w ((List.range (lanesOf w)).map fun i => (f i).getD (laneNat old w i)))

/-- One value in every lane. -/
def broadcast (w x : Nat) : Vec := BitVec.ofNat 2048 (packLanes w ((List.range (lanesOf w)).map fun _ => x))

/-! ## Predicates, temporaries and operands of a block -/

/-- p0 has every bit set and is not writable (07 R109). -/
def Block.pred (b : Block) (p : Nat) : Pred := if p = 0 then BitVec.allOnes 128 else b.preds.getD p 0
def Block.setPred (b : Block) (p : Nat) (v : Pred) : Block := if p = 0 then b else { b with preds := b.preds.put p v }
def Block.temp (b : Block) (t : Nat) : Vec := b.temps.getD t 0
def Block.setTemp (b : Block) (t : Nat) (v : Vec) : Block := { b with temps := b.temps.put t v }
/-- A matched operand (07 R109). -/
def Block.operand (b : Block) (i : Nat) : Vec := ((b.operands.find i).map (·.token.data)).getD 0
def Block.raise (b : Block) (e : Word) : Block := { b with events := b.events ||| e }

/-- Whether lane `i` of a width is active under P and N (05 R72, 08 R117). -/
def Block.active (b : Block) (o : EA) (w i : Nat) : Bool :=
  ((b.pred o.p.toNat).getLsbD (govern w i)) != (o.n = 1)

/-! ## Sources (05 R69, R71, R73; 07 R110; 08 R121) -/

/-- The scale set of a context (07 R98). -/
def sset (x : Element) (c : Nat) : Nat := slice (x.ctxOf c).word.toNat 17 15
/-- A scale register of a context as it stands: SCL writes are staged, so a block reads it as at its entry. -/
def scaleReg (x : Element) (c k : Nat) : Word := x.scales.getD (8 * sset x c + k) 0

/-- A special value as a number; its own index for LANEID (05 R71). -/
def specialNat (el : Nat) (b : Block) (code i : Nat) : Nat :=
  match code with
  | 0 => i
  | 1 => b.colour.toNat
  | 2 => b.iter.toNat
  | 3 => b.ctx.toNat
  | 4 => el
  | _ => tileOf el

/-- How the lanes of a source are read: their width and, for a special value, the format it is rounded to. -/
structure Layout where
  w : Nat
  fmt : Option Fmt := none
  deriving DecidableEq, Repr

def layoutOf (t : BitVec 3) : Layout := { w := laneWidth t, fmt := laneFmt t }

/-- A special value in a lane: its low bits, or rounded to nearest in a floating type (08 R121). -/
def specialLane (l : Layout) (n : Nat) : Nat :=
  match l.fmt with
  | some f => (f.round .rne false n 0).1
  | none => n % 2 ^ l.w

/-- Lane `i` of a source selector (08 R117). -/
def sourceLane (x : Element) (el : Nat) (b : Block) (sel : BitVec 4) (k : BitVec 3) (ext : Word) (l : Layout) (i : Nat) : Nat :=
  let n := sel.toNat
  if n < 8 then laneNat (b.temp n) l.w i
  else if n < 12 then laneNat (b.operand (n - 8)) l.w i
  else if n = 12 then (scaleReg x b.ctx.toNat k.toNat).toNat % 2 ^ l.w
  else if n = 13 then 0
  else if n = 14 then specialLane l (specialNat el b k.toNat i)
  else ext.toNat % 2 ^ l.w

def srcA (x : Element) (el : Nat) (b : Block) (o : EA) (l : Layout) (i : Nat) : Nat := sourceLane x el b o.a o.x o.extA l i
def srcB (x : Element) (el : Nat) (b : Block) (o : EA) (l : Layout) (i : Nat) : Nat := sourceLane x el b o.b o.x o.extB l i

/-- The words of an EA instruction (05 R64). -/
def eaWords (o : EA) : Nat := 1 + (if o.a = 15 then 1 else 0) + (if o.b = 15 then 1 else 0)

/-! ## Writing lanes and predicate bits -/

/-- Write the active lanes below `n` of the destination; the events are those of the lanes written (08 R117). -/
def Block.writeLanes (b : Block) (o : EA) (w n : Nat) (f : Nat → Nat × Word) : Block :=
  let d := setLanes (b.temp o.d.toNat) w fun i => if i < n && b.active o w i then some (f i).1 else none
  let e := (List.range (min n (lanesOf w))).foldl (fun e i => if b.active o w i then e ||| (f i).2 else e) 0
  (b.setTemp o.d.toNat d).raise e

/-- A predicate with the active bits below `n` set from a function (08 R128). -/
def setBits (old : Pred) (n : Nat) (f : Nat → Option Bool) : Pred :=
  BitVec.ofNat 128 (packLanes 1 ((List.range 128).map fun j =>
    let v := if j < n then (f j).getD (old.getLsbD j) else old.getLsbD j
    if v then 1 else 0))

/-- Bits of a predicate that a type uses: one for each lane, or one for each pair of 8-bit lanes (04 R51). -/
def predBits (w : Nat) : Nat := if w = 8 then 128 else lanesOf w

/-- Write a predicate from a test of lanes; for 8-bit types both lanes of a pair must pass (08 R128, R137). -/
def lanesTest (w : Nat) (f : Nat → Bool) (j : Nat) : Bool := if w = 8 then f (2 * j) && f (2 * j + 1) else f j

/-- Execute an EA instruction whose lanes come from its element and block. -/
def inLanes (s : State) (o : EA) (f : Element → Nat → Block → Block) : Result :=
  inBlock s (eaWords o) fun s el b => .ok (f (s.element el) el b)

/-! ## Sources of the send, memory and segment instructions -/

/-- The bytes of a source selector of ES or EM as a whole vector; an extension word fills words of `w` bits. -/
def sourceVec (b : Block) (sel : BitVec 4) (ext : Word) (w : Nat) : Vec :=
  let n := sel.toNat
  if n < 8 then b.temp n
  else if n < 12 then b.operand (n - 8)
  else if n = 15 then broadcast w (ext.toNat % 2 ^ w)
  else 0

end Sys2Proof.Machine
end

