-- ==== Sys2Proof/Machine/TableEngine.lean ====
section
/-! DEFINITION. The clicker and the scan engine: CLICK, TBUILD, TPATCH and SCANT, and the table writes that wait at their
elements (01 R8; 03 R27, R28, R33 to R36, R43 to R47; 04 R60 to R63; 16 R263 to R267). -/
namespace Sys2Proof.Machine

/-- Bytes from an offset to the end of a parameter block are zero. -/
def Command.zeroFrom (k : Command) (off : Nat) : Bool := k.field off (64 - off) = 0

/-! ## The clicker (03 R33 to R36; 16 R263, R264) -/

/-- A run of the greedy rule: its value, its start, its length and its error. -/
structure ClickRun where
  v : Int
  start : Nat
  length : Nat
  err : Nat
  deriving DecidableEq, Repr

/-- A run that is open: its start, its least and greatest value and its values, latest first. -/
structure OpenRun where
  start : Nat
  lo : Int
  hi : Int
  xs : List Int

/-- Close a run: v = lo + floor((hi − lo) / 2). -/
def OpenRun.close (r : OpenRun) : ClickRun :=
  let v := r.lo + (r.hi - r.lo) / 2
  { v := v, start := r.start, length := r.xs.length, err := (r.xs.map fun x => (x - v).natAbs).sum }

/-- The greedy rule over the values from position i on. -/
def clickFrom (tau : Nat) (r : OpenRun) : Nat → List Int → List ClickRun
  | _, [] => [r.close]
  | i, x :: xs =>
    let lo := min r.lo x
    let hi := max r.hi x
    if hi - lo ≤ tau then clickFrom tau { r with lo := lo, hi := hi, xs := x :: r.xs } (i + 1) xs
    else r.close :: clickFrom tau { start := i, lo := x, hi := x, xs := [x] } (i + 1) xs
/-- The runs of a chunk. -/
def clickRuns (tau : Nat) : List Int → List ClickRun
  | [] => []
  | x :: xs => clickFrom tau { start := 0, lo := x, hi := x, xs := [x] } 1 xs

/-- A segment word, and the words of a chunk's segments with E on the last (03 R30). -/
def segmentWord (r : ClickRun) (last : Bool) : Nat :=
  2 ^ 31 + (if last then 2 ^ 30 else 0) + (r.length - 1) * 2 ^ 16 + r.start * 2 ^ 8 + wrapTo 8 r.v
def segmentWords : List ClickRun → List Nat
  | [] => []
  | [r] => [segmentWord r true]
  | r :: rs => segmentWord r false :: segmentWords rs

/-- A chunk header (03 R31). -/
def headerWord (dense : Bool) (chunk count : Nat) : Nat := (if dense then 2 ^ 30 else 0) + chunk * 2 ^ 16 + count

/-- What one chunk becomes: the words of its train, and its shares in the statistics record (01 R8; 03 R35, R36). -/
structure ClickedChunk where
  words : List Nat
  segments : Nat
  elided : Nat
  err : Nat
  dense : Nat
  deriving DecidableEq, Repr

/-- The words of a dense chunk: four values each. -/
def denseWords (xs : List Byte) : List Nat := (List.range 64).map fun w => natOfBytes ((xs.drop (4 * w)).take 4)

def clickChunk (elides adaptive : Bool) (threshold tau chunk : Nat) (xs : List Byte) : ClickedChunk :=
  let runs := clickRuns tau (xs.map fun b => signedOf 8 b.toNat)
  let emitted := runs.filter fun r => !(elides && r.v = 0)
  if adaptive && decide (threshold < emitted.length) then
    { words := headerWord true chunk 64 :: denseWords xs, segments := 0, elided := 0, err := 0, dense := 1 }
  else
    { words := headerWord false chunk emitted.length :: segmentWords emitted, segments := emitted.length,
      elided := runs.length - emitted.length, err := (runs.map (·.err)).sum, dense := 0 }

/-- Words in whole tokens of 64, zero-filled (03 R32). -/
def tokenWords (ws : List Nat) : List Nat := ws ++ List.replicate ((64 - ws.length % 64) % 64) 0

/-- The chunks of a row. -/
def Command.clickChunks (k : Command) : Nat := (k.field 8 4 + 255) / 256

/-- The refusals of CLICK (16 R263, R264). -/
def clickGood (s : State) (a : Activation) (k : Command) : Bool :=
  let len := k.field 8 4
  let c := k.clickChunks
  let setth := k.field 0 4 / 4 % 2 = 1
  k.record.auxiliary.toNat ≤ 31 && k.field 0 4 < 8 && k.zeroFrom 0x20 && 1 ≤ len && len ≤ 4194304 &&
  k.field 0x14 4 ≤ 256 && !(setth && k.field 0x14 4 = 0) && k.field 0x18 4 + c ≤ 16384 &&
  k.field 0x0C 4 % 256 = 0 && k.field 0x10 4 % 16 = 0 && s.scratchGood a (k.field 4 4) len &&
  s.scratchGood a (k.field 0x0C 4) (1280 * c)

/-- CLICK starts: SETTH writes CLKTH, and the command keeps the threshold that it uses. The statistics it keeps are the
four words of its record, the bytes of the trains so far and the threshold. -/
def startClick (s : State) (tile : Nat) (k : Command) : State × Command :=
  let t := k.field 0x14 4
  let s := if k.field 0 4 / 4 % 2 = 1 then s.putTile tile { s.tile tile with clkth := t } else s
  (s, { k with stats := [0, 0, 0, 0, 0, if t = 0 then (s.tile tile).clkth else t] })

/-- The next chunk of a CLICK; the record follows the last train. A record outside the SCRATCH banks is found at the last chunk,
before its train is written (DESIGN CHOICE, log 48). -/
def clickStep (s : State) (a : Activation) (k : Command) : Tried Command :=
  let m := k.row
  let n := min 256 (k.field 8 4 - 256 * m)
  let src := k.field 4 4 + 256 * m
  let st (i : Nat) : Nat := k.stats.getD i 0
  let train := k.field 0x0C 4 + st 4
  let record := k.field 0x10 4
  let last := decide (k.clickChunks ≤ m + 1)
  let xs := s.scratchBytes a src n ++ List.replicate (256 - n) 0
  let c := clickChunk (k.field 0 4 % 2 = 1) (k.field 0 4 / 2 % 2 = 1) (st 5) k.record.auxiliary.toNat (k.field 0x18 4 + m) xs
  let ws := tokenWords c.words
  let sums := [st 0 + c.segments, st 1 + c.elided, st 2 + c.err, st 3 + c.dense]
  if s.scratchGood a src n = false then (s, .error (atRow m (scratchFault .read src)))
  else if s.scratchGood a train (4 * ws.length) = false then (s, .error (atRow m (scratchFault .write train)))
  else if last && s.scratchGood a record 16 = false then (s, .error (atRow m (scratchFault .write record)))
  else
    let s := s.scratchWrite a train (ws.flatMap (leBytes 4))
    let s := if last then s.scratchWrite a record (sums.flatMap (leBytes 4)) else s
    let k := { k with stats := sums ++ [st 4 + 4 * ws.length, st 5] }
    (s, .ok (k.rowDone k.clickChunks (4 * ws.length + (if last then 16 else 0))))

/-- CLICK_CHUNK (03 R33). -/
def execClickChunk (c : ChainId) (place : Nat) (s : State) : Result :=
  onCommand c place s (fun r => r.engine = 1) clickStep

/-! ## Table commands (16 R265, R266) -/

/-- The element that a table command names, if its word names one of the region's. -/
def Command.elementOf (k : Command) (a : Activation) (off : Nat) : Option Nat :=
  let w := k.field off 4
  let i := slice w 31 24
  let j := slice w 23 16
  let ex := slice w 15 8
  let ey := slice w 7 0
  if i < a.width ∧ j < a.height ∧ ex < 4 ∧ ey < 4 ∧ isComputeTile (a.tile i j) then some (a.tile i j + 4 * ey + ex) else none

/-- A fault of a table command: the chunk and the element it names (25 R383). -/
def tableFault (code chunk : Nat) (el : Option Nat) : FaultInfo :=
  { code := BitVec.ofNat 8 code, address := BitVec.ofNat 64 chunk, address2 := BitVec.ofNat 64 (el.getD 0) }

def Command.isSt32 (k : Command) : Bool := k.field 0 4 % 2 = 1
/-- The columns of a table: 128 of 16 bits, or 64 of 32 bits (03 R27, R28). -/
def tableColumns (wide : Bool) : Nat := if wide then 64 else 128
def tableWidth (wide : Bool) : Nat := if wide then 32 else 16

/-- The element word, chunk and columns of TBUILD and TPATCH. -/
def Command.tableElement (k : Command) (a : Activation) : Option Nat := k.elementOf a (if k.record.fn = 0 then 0x14 else 0x0C)
def Command.tableChunk (k : Command) : Nat := k.field (if k.record.fn = 0 then 0x18 else 0x10) 4
def Command.tableFault (k : Command) (a : Activation) (code : Nat) : FaultInfo :=
  Sys2Proof.Machine.tableFault code k.tableChunk (k.tableElement a)

/-- The refusals of TBUILD (16 R265). -/
def buildGood (a : Activation) (k : Command) : Bool :=
  let wide := k.field 0 4 = 1
  let cols := k.field 0x0C 4
  let stride := k.field 0x10 4
  let g := k.field 0x20 4
  k.field 0 4 ≤ 1 && 1 ≤ k.field 8 4 && k.field 8 4 ≤ 256 && 1 ≤ cols && cols ≤ tableColumns wide &&
  (if wide then 136 ≤ stride && stride % 4 = 0 else cols ≤ stride) && (k.tableElement a).isSome &&
  k.tableChunk ≤ 16383 && k.zeroFrom 0x24 && (!wide || g = 0xFFFFFFFF || g % 4 = 0)

/-- The refusals of TPATCH (16 R266). -/
def patchGood (a : Activation) (k : Command) : Bool :=
  let cols := k.field 8 4
  k.field 0 4 ≤ 3 && 1 ≤ cols && cols ≤ tableColumns k.isSt32 && (k.tableElement a).isSome &&
  k.field 0x14 8 = 0 && k.zeroFrom 0x20 && (2 ≤ k.field 0 4 || k.record.auxiliary.toNat ≤ 255)

/-- The refusals of SCANT (16 R267). -/
def scanSize (k : Command) : Nat := if k.field 0 4 % 4 = 1 then 8 else 4
def scanBytes (k : Command) : Nat := k.field 0x0C 4 * k.field 0x10 4 * scanSize k
def scanGood (s : State) (a : Activation) (k : Command) : Bool :=
  let src := k.field 4 4
  let dst := k.field 8 4
  let n := scanBytes k
  k.field 0 4 % 4 ≠ 3 && k.field 0 4 < 32 && k.field 0x14 8 = 0 && k.zeroFrom 0x20 &&
  1 ≤ k.field 0x0C 4 && k.field 0x0C 4 ≤ 4096 && 1 ≤ k.field 0x10 4 && k.field 0x10 4 ≤ 4096 &&
  s.scratchGood a src n && s.scratchGood a dst n && (src = dst || src + n ≤ dst || dst + n ≤ src)

/-- The levels of CB4 (04 R60). -/
def cb4Levels : List Int := [-127, -90, -69, -53, -39, -27, -16, -5, 5, 16, 27, 39, 53, 69, 90, 127]

/-- q of element e of a 136-byte group (03 R28; 04 R61). -/
def cb4Weight (g : List Byte) (e : Nat) : Int :=
  let b := (g.getD (e / 2) 0).toNat
  let idx := if e % 2 = 0 then b % 16 else b / 16
  cb4Levels.getD idx 0 * ((g.getD (128 + e / 64) 0).toNat : Int)
def cb4Superscale (g : List Byte) : Nat := natOfBytes ((g.drop 132).take 4)

/-- The running sums S[1], S[2], … of a column's weights. -/
def prefixSums : Int → List Int → List Int
  | _, [] => []
  | acc, w :: ws => (acc + w) :: prefixSums (acc + w) ws

/-- The 256 rows of a table whose columns of 256 weights are given. -/
def tableRows (w : Nat) (cols : List (List Int)) : Tab Vec :=
  let sums := cols.map (prefixSums 0)
  (List.range 256).map fun j => (j, BitVec.ofNat 2048 (packLanes w (sums.map fun c => wrapTo w (c.getD j 0))))

/-- G = round_rne(F / 32,385, f32) of a finite F (03 R28). -/
def superscaleG (f : Nat) : Nat :=
  match fmtF32.value f with
  | .fin neg m e =>
    let q := stickyDiv m 32385 80
    (fmtF32.round .rne neg q.1 (q.2 + e)).1
  | _ => fmtF32.nan
def isFinite32 (f : Nat) : Bool :=
  match fmtF32.value f with
  | .fin .. => true
  | _ => false

/-- Queue a table write at its element; the command waits for it (03 R47). -/
def State.queueTable (s : State) (c : ChainId) (el : Nat) (k : Command) (w : TableWriteKind) : State × Command :=
  let x := s.element el
  (s.putElement el { x with tableWrites := x.tableWrites ++ [{ chain := c, place := k.place, kind := w }] },
   { k with phase := .queued })

/-- The columns of the weights that a TBUILD reads: zero beyond its rows and columns. -/
def buildColumns (s : State) (a : Activation) (k : Command) : List (List Int) :=
  let rows := k.field 8 4
  let cols := k.field 0x0C 4
  let src := k.field 4 4
  let stride := k.field 0x10 4
  (List.range cols).map fun n =>
    if k.isSt32 then
      let g := s.scratchBytes a (src + stride * n) 136
      (List.range 256).map fun e => if e < rows then cb4Weight g e else 0
    else
      (List.range 256).map fun i => if i < rows then signedOf 8 (s.scratchByte a (src + stride * i + n)).toNat else 0

/-- TABLE_BUILD (16 R265): the whole table is formed and waits at its element, or the build is refused. -/
def execTableBuild (c : ChainId) (place : Nat) (s : State) : Result :=
  onCommand c place s (fun r => r.engine = 2 && r.fn = 0) fun s a k =>
    let cols := k.field 0x0C 4
    let src := k.field 4 4
    let stride := k.field 0x10 4
    let reads := if k.isSt32 then (List.range cols).all fun n => s.scratchGood a (src + stride * n) 136
      else (List.range (k.field 8 4)).all fun i => s.scratchGood a (src + stride * i) cols
    match k.tableElement a with
    | none => (s, .error (k.tableFault a 0x52))
    | some el =>
      let g := k.field 0x20 4
      if reads = false ∨ (k.isSt32 ∧ g ≠ 0xFFFFFFFF ∧ s.scratchGood a g 4 = false) then (s, .error (k.tableFault a 0x22))
      else
        let fs := (List.range cols).map fun n => cb4Superscale (s.scratchBytes a (src + stride * n) 136)
        let f := fs.getD 0 0
        if k.isSt32 && !(fs.all (· = f) && isFinite32 f) then (s, .error (k.tableFault a 0x53))
        else
          let rows := tableRows (tableWidth k.isSt32) (buildColumns s a k)
          let word := if k.isSt32 && g ≠ 0xFFFFFFFF then some (g, BitVec.ofNat 32 (superscaleG f)) else none
          let r := s.queueTable c el k (.build rows k.block word)
          (r.1, .ok r.2)

/-- TABLE_PATCH (16 R266): the deltas are read and the patch waits at its element, where it is checked. -/
def execTablePatch (c : ChainId) (place : Nat) (s : State) : Result :=
  onCommand c place s (fun r => r.engine = 2 && r.fn = 1) fun s a k =>
    let wide := k.isSt32
    let deltaForm := decide (2 ≤ k.field 0 4)
    let cols := k.field 8 4
    let size := if deltaForm || wide then 4 else 1
    let n := if deltaForm then 256 * cols else cols
    let src := k.field 4 4
    match k.tableElement a with
    | none => (s, .error (k.tableFault a 0x52))
    | some el =>
      if s.scratchGood a src (n * size) = false then (s, .error (k.tableFault a 0x22))
      else
        let ds := (List.range n).map fun i => signedOf (8 * size) (s.scratchNat a (src + size * i) size)
        let r := s.queueTable c el k (.patch wide deltaForm (k.record.auxiliary.toNat % 256) cols ds)
        (r.1, .ok r.2)

/-! ## TABLE_WRITE_APPLY (03 R43 to R47) -/

/-- S[j][n] of an element's table; S[0][n] is zero (03 R27). -/
def tableSum (x : Element) (wide : Bool) (j n : Nat) : Int :=
  if j = 0 then 0 else signedOf (tableWidth wide) (laneNat (x.table.getD (j - 1) 0) (tableWidth wide) n)

/-- The change of entry S[j][n] that a patch makes. -/
def patchDelta (deltaForm : Bool) (k columns : Nat) (ds : List Int) (j n : Nat) : Int :=
  if j = 0 ∨ columns ≤ n then 0
  else if deltaForm then ds.getD ((j - 1) * columns + n) 0
  else if k < j then ds.getD n 0 else 0

/-- Whether a patch keeps weight row i of column n, and entry i + 1, in range (03 R44, R45). -/
def patchRowGood (x : Element) (wide deltaForm : Bool) (k columns : Nat) (ds : List Int) (i n : Nat) : Bool :=
  let new (j : Nat) : Int := tableSum x wide j n + patchDelta deltaForm k columns ds j n
  let w := new (i + 1) - new i
  let bound : Int := 32385
  (if wide then -bound ≤ w && w ≤ bound else -128 ≤ w && w ≤ 127) &&
  !clampChanges true (tableWidth wide) (new (i + 1))
/-- The row form checks the new weight of row k and every changed entry. -/
def patchColumnGood (x : Element) (wide : Bool) (k columns : Nat) (ds : List Int) (n : Nat) : Bool :=
  patchRowGood x wide false k columns ds k n &&
  (List.range (256 - k)).all fun i =>
    !clampChanges true (tableWidth wide) (tableSum x wide (k + 1 + i) n + patchDelta false k columns ds (k + 1 + i) n)

/-- The row and column that a patch names as failing, if one does. -/
def patchFails (x : Element) (wide deltaForm : Bool) (k columns : Nat) (ds : List Int) : Option (Nat × Nat) :=
  let cols := List.range (tableColumns wide)
  if deltaForm then
    (List.range 256).findSome? fun i =>
      (cols.find? fun n => !patchRowGood x wide true k columns ds i n).map fun n => (i, n)
  else (cols.find? fun n => !patchColumnGood x wide k columns ds n).map fun n => (k, n)

/-- The table after a patch. -/
def patchedTable (x : Element) (wide deltaForm : Bool) (k columns : Nat) (ds : List Int) : Tab Vec :=
  (List.range 256).map fun j => (j, BitVec.ofNat 2048 (packLanes (tableWidth wide) ((List.range (tableColumns wide)).map fun n =>
    wrapTo (tableWidth wide) (tableSum x wide (j + 1) n + patchDelta deltaForm k columns ds (j + 1) n))))

/-- A chunk train is open at a context (03 R47). -/
def trainOpen (x : Element) : Bool :=
  x.ctxs.any fun k => k.2.cursor.isOpen && (k.2.cursor.owner = .segmac || k.2.cursor.owner = .seggrad)

/-- The command whose table write was applied: 65,536 bytes in eyelet mode 0 (16 R265). -/
def State.tableApplied (s : State) (w : TableWrite) : State :=
  match (s.chain w.chain).command w.place with
  | none => s
  | some k => (s.setCommand w.chain { k with
      phase := .moved, owed := if k.eyeletBytes = 0 then k.owed + 65536 else k.owed }).issueOwed w.chain w.place

/-- The G word of a build, with the activation whose scratch takes it. -/
def State.superscalePlace (s : State) (el : Nat) (word : Option (Nat × Word)) : Option (Activation × Nat × Word) :=
  match word, s.activationAt el with
  | some (g, v), some a => some (a, g, v)
  | _, _ => none

/-- TABLE_WRITE_APPLY: the oldest table write of an element is applied all at once between two blocks, once no train is
open; a patch that fails its check changes nothing, and neither does a build whose G word has lost its SCRATCH bank (15 R238). -/
def execTableWriteApply (el : Nat) (s : State) : Result :=
  let x := s.element el
  match x.tableWrites with
  | [] => .fault .notEnabled
  | w :: rest =>
    if x.block.isSome || trainOpen x || (s.chain w.chain).stopped then .fault .notEnabled
    else match w.kind with
      | .build rows block word =>
        let built := s.putElement el { x with tableWrites := rest, table := rows, reloadable := some block }
        match s.superscalePlace el word with
        | none => .next (built.tableApplied w)
        | some (a, g, v) =>
          if s.switching a then .fault .notEnabled
          else if s.scratchGood a g 4 then .next ((built.scratchWriteNat a g 4 v.toNat).tableApplied w)
          else
            let chunk := (((s.chain w.chain).command w.place).getD default).tableChunk
            .next ((s.putElement el { x with tableWrites := rest }).stopChain w.chain w.place (tableFault 0x22 chunk (some el)))
      | .patch wide deltaForm k columns ds =>
        match patchFails x wide deltaForm k columns ds with
        | some (row, n) =>
          let chunk := (((s.chain w.chain).command w.place).getD default).tableChunk
          .next ((s.putElement el { x with tableWrites := rest }).stopChain w.chain w.place
            { tableFault 0x54 chunk (some el) with position := BitVec.ofNat 32 row, detail := BitVec.ofNat 8 n })
        | none =>
          let s := s.putElement el { x with
            tableWrites := rest, table := patchedTable x wide deltaForm k columns ds, reloadable := none }
          .next (s.tableApplied w)

/-! ## SCANT (16 R267) -/

/-- Running sums where each addition is formed by `add`: the first value is copied. -/
def runningSums (add : Nat → Nat → Nat × Word) : Nat → List Nat → List Nat × Word
  | acc, [] => ([acc], 0)
  | acc, x :: xs =>
    let r := add acc x
    let q := runningSums add r.1 xs
    (acc :: q.1, r.2 ||| q.2)

/-- One pass over a column: inclusive, or exclusive with a zero first and no addition for its last value. -/
def scanColumn (add : Nat → Nat → Nat × Word) (exclusive : Bool) (xs : List Nat) : List Nat × Word :=
  let inclusive (xs : List Nat) : List Nat × Word :=
    match xs with
    | [] => ([], 0)
    | x :: rest => runningSums add x rest
  if exclusive then
    let r := inclusive xs.dropLast
    (0 :: r.1, r.2)
  else inclusive xs

/-- SCAN_PASS: the passes of a SCANT over every column, and its rows as they land. -/
def execScanPass (c : ChainId) (place : Nat) (s : State) : Result :=
  onCommand c place s (fun r => r.engine = 2 && r.fn = 2) fun s a k =>
    let ctl := k.field 0 4
    let size := scanSize k
    let rows := k.field 0x0C 4
    let cols := k.field 0x10 4
    let src := k.field 4 4
    let dst := k.field 8 4
    let add (x y : Nat) : Nat × Word := if ctl % 4 = 2 then addF32 x y else ((x + y) % 2 ^ (8 * size), 0)
    let one (n : Nat) : List Nat × Word :=
      let xs := (List.range rows).map fun j => s.scratchNat a (src + (j * cols + n) * size) size
      let p := scanColumn add (ctl / 4 % 2 = 1) xs
      if ctl / 8 % 2 = 1 then
        let q := scanColumn add (ctl / 16 % 2 = 1) p.1
        (q.1, p.2 ||| q.2)
      else p
    if s.scratchGood a src (scanBytes k) = false then (s, .error (scratchFault .read src))
    else if s.scratchGood a dst (scanBytes k) = false then (s, .error (scratchFault .write dst))
    else
      let out := (List.range cols).map one
      let events := out.foldl (fun e r => e ||| r.2) 0
      let bytes := (List.range rows).flatMap fun j => out.flatMap fun r => leBytes size (r.1.getD j 0)
      let s := (s.scratchWrite a dst bytes).raiseEvents k.colour c.tile events.toNat
      (s, .ok { k with row := rows, phase := .moved, owed := if k.eyeletBytes = 0 then k.owed + bytes.length else k.owed })

end Sys2Proof.Machine
end

