-- ==== Sys2Proof/Machine/Scheduler.lean ====
section
/-! DEFINITION. What the die schedulers decide: serving order, free regions, arbitration, and putting an activation on a region
(18 R285, R290 to R296; 19 R305, R309, R311 to R313, R317; 11 R171; 26 R413, R419). -/
namespace Sys2Proof.Machine

/-! ## Serving order (18 R290, R291, R296) -/

/-- A record's level: its priority plus one for each 2^20 cycles it has waited, up to 7. -/
def entryLevel (e : Entry) : Nat := min 7 (recordPriority e.record + e.gained)
/-- A record's next gain of a level is due (18 R290): no scheduler decides before it is noted. -/
def Entry.agingDue (e : Entry) (now : Nat) : Bool :=
  !e.pending && decide (entryLevel e < 7) && decide (e.gained < (now - e.since) / 2 ^ 20)
/-- A record has failed placement for a number of cycles. -/
def Entry.failedFor (e : Entry) (now n : Nat) : Bool :=
  match e.failedAt with
  | some t => decide (n ≤ now - t)
  | none => false
/-- A gang's level is the highest of its members'. -/
def State.levelOf (s : State) (e : Entry) : Nat :=
  if e.edges.isEmpty || e.resumes.isSome then entryLevel e
  else (s.gangOf e).foldl (fun m f => max m (entryLevel f)) (entryLevel e)

/-- A record starves from now on (18 R291). -/
def State.starvationDue (s : State) (e : Entry) : Bool := !e.starved && s.levelOf e = 7 && e.failedFor s.cycle 65536
/-- No gain of a level and no starvation is due, so that the levels and blocks stand as the moment has them (18 R290, R291). -/
def State.queuesCurrent (s : State) : Bool := s.sched.entries.all fun e => !e.agingDue s.cycle && !s.starvationDue e

/-- A context's share: the byte of its VF in the share table (18 R287). -/
def State.shareOf (s : State) (asid : Nat) : Nat := s.physNat (s.host.schdbase.toNat + 16384 + s.vfOf asid) 1

/-- Contexts in ascending order, from one on, cyclically. -/
def cyclicFrom (start : Nat) (l : List Nat) : List Nat :=
  ((List.range 256).map fun i => (start + i) % 256).filter l.contains

/-- The contexts of a level in the order in which a die visits them: the one that has the turn while its share lasts, then
the others in ascending ASID, cyclically; those of share 0 only where there is no other. -/
def State.visitOrder (s : State) (die level : Nat) (l : List Nat) : List Nat :=
  let shared := l.filter fun a => s.shareOf a ≠ 0
  let l := if shared.isEmpty then l else shared
  match s.sched.turn.find (8 * die + level) with
  | none => cyclicFrom 0 l
  | some (asid, n) => if n < s.shareOf asid then cyclicFrom asid l else cyclicFrom (asid + 1) l

/-- The eligible entries of a die in the order in which it serves them. -/
def State.serving (s : State) (die : Nat) : List Entry :=
  let mine := s.sched.entries.filter fun e => e.die = die && s.eligible e
  [7, 6, 5, 4, 3, 2, 1, 0].flatMap fun level =>
    let here := mine.filter fun e => s.levelOf e = level
    (s.visitOrder die level (here.map (·.asid))).flatMap fun a => here.filter fun e => e.asid = a

/-! ## Free regions (18 R292; 02 R18, R19; 26 R413, R419) -/

/-- A rectangle of tiles of a die. -/
structure Rect where
  die : Nat
  x : Nat
  y : Nat
  w : Nat
  h : Nat
  deriving DecidableEq, Repr, Inhabited

def Rect.meets (r q : Rect) : Bool :=
  r.die = q.die && r.x < q.x + q.w && q.x < r.x + r.w && r.y < q.y + q.h && q.y < r.y + r.h
def Rect.tiles (r : Rect) : List Nat :=
  (List.range r.h).flatMap fun j => (List.range r.w).map fun i => tileId r.die (r.x + i) (r.y + j)
def Activation.rect (a : Activation) : Rect := { die := a.die, x := a.x0, y := a.y0, w := a.width, h := a.height }
def Entry.rectAt (e : Entry) (die : Nat) (p : Nat × Nat) : Rect := { die := die, x := p.1, y := p.2, w := e.width, h := e.height }

/-- A rectangle meets the region of an activation, or one reserved or freed for another record than `id` (17 R282; 19 R309). -/
def State.regionTaken (s : State) (id : Nat) (r : Rect) : Bool :=
  (s.activations.any fun p => p.2.phase ≠ .saved && p.2.phase ≠ .stopped && p.2.rect.meets r) ||
  s.sched.entries.any fun e => e.id ≠ id &&
    (e.reserved.toList ++ e.claim.toList).any fun p => (e.rectAt p.1 p.2).meets r

/-- The quarantined elements of a rectangle. -/
def State.quarantinedIn (s : State) (r : Rect) : List Nat :=
  (r.tiles.filter isComputeTile).flatMap fun t => ((List.range 16).map (t + ·)).filter s.quarantined

/-- The link regions that a rectangle holds are used only while their welt links are ready. -/
def State.linksReady (s : State) (r : Rect) : Bool :=
  (linkCorners.zipIdx).all fun c => !holdsLink r.x r.y r.w r.h c.1 || s.host.rdys.getLsbD (23 + 6 * r.die + c.2)

/-- A record may stand on a rectangle: every tile is ready, and quarantined elements allow it only as a REDUNDANT one whose
enabled contexts there all have CHK. -/
def State.regionUsable (s : State) (e : Entry) (r : Rect) : Bool :=
  r.tiles.all s.tileReady && (!e.link || s.linksReady r) &&
  (match s.quarantinedIn r with
   | [] => true
   | qs => isRedundant e.record && !e.link && (match (s.loadImage e.asid (field e.record 0 8) true).2 with
      | .error _ => true
      | .ok c => c.ctxs.all fun k => !k.2.2.getLsbD 22 || k.2.2.getLsbD 18 ||
          !qs.contains (tileId r.die (r.x + idX k.1) (r.y + idY k.1) + k.1 % 16)))

/-- The image of a record is resident at a place. -/
def State.residentAt (s : State) (asid image : Nat) (r : Rect) : Option Resident :=
  s.sched.residents.find? fun q => q.die = r.die && q.x0 = r.x && q.y0 = r.y && q.config.width = r.w &&
    q.config.height = r.h && q.image.toNat = image && q.asid = asid

/-- The first place of a list where the image is resident, else its first place. -/
def State.preferred (s : State) (e : Entry) (die : Nat) (l : List (Nat × Nat)) : Option (Nat × Nat) :=
  (l.find? fun p => (s.residentAt e.asid (field e.record 0 8) (e.rectAt die p)).isSome).or l.head?

/-- Where a record may be put on a die, beside some rectangles that are spoken for; the region that a pre-emption has freed for
it comes first. -/
def State.freePlace (s : State) (die : Nat) (e : Entry) (beside : List Rect) : Option (Nat × Nat) :=
  let free (p : Nat × Nat) : Bool :=
    let r := e.rectAt die p
    !s.regionTaken e.id r && !beside.any r.meets && s.regionUsable e r
  match e.reserved with
  | some (d, x, y) => if d = die && free (x, y) then some (x, y) else none
  | none =>
    let freed := (e.claim.filter fun p => p.1 = die && free p.2).map (·.2)
    freed.or (s.preferred e die ((corners e.link e.width e.height).filter free))

/-! ## Colours (18 R285; log 24) -/

/-- The lowest colour from one on that is not in use. -/
def freshColour (used : List Nat) : Nat → Nat → Option Nat
  | 0, _ => none
  | n + 1, c => if 65535 < c then none else if used.contains c then freshColour used n (c + 1) else some c
def State.usedColours (s : State) : List Nat := s.sched.colours ++ s.sched.purging.map (·.1)
/-- Colours for some activations at once. -/
def freshColours (used : List Nat) : Nat → Option (List Nat)
  | 0 => some []
  | n + 1 => match freshColour used (used.length + 1) 1 with
    | none => none
    | some c => (freshColours (c :: used) n).map (c :: ·)

/-! ## Arbitration (19 R311 to R313; 21 R334) -/

def rangesMeet (r q : RegionRecord) : Bool :=
  r.extent ≠ 0 && q.extent ≠ 0 && r.base < q.base + q.extent && q.base < r.base + r.extent
/-- A conflicting pair of region records: not R with R, nor RA with RA. -/
def recordsConflict (r q : RegionRecord) : Bool :=
  rangesMeet r q && !(r.mode = 0 && q.mode = 0) && !(r.mode = 3 && q.mode = 3)
def setsConflict (rs qs : List RegionRecord) : Bool := rs.any fun r => qs.any (recordsConflict r)

/-- One record depends on another: it was spawned or pushed under it, or its after field names the other's phase. -/
def dependsOn (e f : Entry) : Bool :=
  e.parents.contains f.id ||
  (e.asid = f.asid && field e.record 0x1E 2 = field f.record 0x1E 2 && field e.record 0x24 2 ≠ 0xFFFF &&
   field e.record 0x24 2 = field f.record 0x1C 2)
/-- Records that are not arbitrated against each other. The records of a gang are, for what recordsConflict does not except (11
R171). -/
def related (e f : Entry) : Bool := e.id = f.id || e.family = f.family || dependsOn e f || dependsOn f e

/-- The records that are running, under pre-emption, reserved or to run again after a kill, and that conflict with one, unrelated.
One that runs again is held by running activations only, as it has held the others (19 R316). -/
def State.blockers (s : State) (e : Entry) : List Entry :=
  ((s.activations.filter fun p => p.2.entry.asid = e.asid && p.2.phase ≠ .stopped && !related e p.2.entry &&
    setsConflict e.regions p.2.records).map fun p => p.2.entry) ++
  if e.rerun then [] else s.sched.entries.filter fun f => f.asid = e.asid && f.resumes = none &&
    (f.rerun || (f.reserved.isSome && decide (f.order < e.order))) && !related e f && setsConflict e.regions f.regions

/-- Eligible records of earlier spawn order that conflict with one, unrelated. -/
def State.earlier (s : State) (e : Entry) : List Entry :=
  if e.rerun then [] else s.sched.entries.filter fun f => f.asid = e.asid && f.resumes = none && f.order < e.order &&
    s.eligible f && !related e f && setsConflict e.regions f.regions

/-! ## Verdicts -/

/-- Where a copy of a gang's member is put. -/
structure Seat where
  entry : Entry
  role : PairRole
  x : Nat
  y : Nat
  deriving DecidableEq, Repr, Inhabited

/-- What a scheduler may do with an eligible record: put it on a region, or its gang on theirs, or resume it and its companions,
each colour at a place; complete it
unplaced; nothing for now because an older record comes first, or a starving one stands before it, or no region or colour
is free. -/
inductive Verdict where
  | place (at_ : Nat × Nat) (shadow : Option (Nat × Nat))
  | gang (at_ : List Seat)
  | resume (at_ : List (Nat × Nat × Nat))
  | unplaced (es : List Entry) (code : Nat)
  | held
  | blocked
  | fails
  deriving Inhabited

/-- One record has failed for longer than another, which came later where both failed at once. -/
def Entry.failedBefore (e f : Entry) : Bool :=
  decide (e.failedAt.getD 0 < f.failedAt.getD 0) || (e.failedAt.getD 0 = f.failedAt.getD 0 && decide (e.id < f.id))

/-- A starving record stands before one that is placed with others (18 R291). Of two that starve with one priority the one that failed
first goes ahead (log 67). -/
def State.isStarvedOut (s : State) (die : Nat) (g : List Entry) (e : Entry) : Bool :=
  s.sched.entries.any fun f => f.starved && f.die = die && (g.all fun m => m.id ≠ f.id) &&
    (decide (recordPriority e.record < recordPriority f.record) ||
     (recordPriority e.record = recordPriority f.record && !(e.starved && e.failedBefore f)))

/-- Arbitration of a record: it goes ahead, is held, or completes unplaced where both carry DISJOINT. -/
def State.arbitrate (s : State) (e : Entry) : Option Verdict :=
  let bs := s.blockers e ++ s.earlier e
  if bs.isEmpty then none
  else if isDisjoint e.record && bs.any (fun f => isDisjoint f.record) then some (.unplaced [e] 0x62)
  else some .held

/-- The copies of a gang's members, a REDUNDANT one's two together (18 R296; 19 R317). -/
def gangCopies (g : List Entry) : List (Entry × PairRole) :=
  g.flatMap fun e => if isRedundant e.record then [(e, .primary), (e, .shadow)] else [(e, .single)]
/-- Places for the copies of a gang's members, one after another. -/
def State.gangPlaces (s : State) (die : Nat) : List (Entry × PairRole) → List Rect → Option (List Seat)
  | [], _ => some []
  | (e, r) :: es, rs => match s.freePlace die (if r = .shadow then { e with reserved := none } else e) rs with
    | none => none
    | some p => (s.gangPlaces die es (e.rectAt die p :: rs)).map ({ entry := e, role := r, x := p.1, y := p.2 } :: ·)

/-- A member of a gang as it would stand, with its configuration. -/
def State.wouldStand (s : State) (die : Nat) (m : Seat) : Activation :=
  { entry := m.entry, die := die, x0 := m.x, y0 := m.y, role := m.role,
    config := ((s.loadImage m.entry.asid (field m.entry.record 0 8) true).2.toOption).getD {} }

/-- The circuits of a gang's members as they would stand. -/
def gangCircuits (g : List Activation) : List Circuit :=
  g.flatMap fun a => a.config.bindings.map (circuitOf a (edgeWays g))

/-- The circuits as they stand, and as they will once every load that is ready has been swept into force. -/
def State.circuitSets (s : State) : List (List Circuit) :=
  let now := s.circuits.map (·.2)
  [now, s.sweptCircuits (s.readyLoads none) now]

/-- More circuits leave no link with more than four of them (12 R180, R190). -/
def State.linksTake (s : State) (cs : List Circuit) : Bool := s.circuitSets.all fun k => linksGood (k ++ cs)

/-- The edges of a gang can be routed. -/
def State.edgesRoute (s : State) (g : List Activation) : Bool := s.linksTake (gangCircuits g)

/-- The records of the graph of one that are queued or pending (11 R171). -/
def State.graphOf (s : State) (e : Entry) : List Entry :=
  s.sched.entries.filter fun f => f.asid = e.asid && f.resumes = none &&
    field f.record 0x1E 2 = field e.record 0x1E 2 && field f.record 0x1A 2 = field e.record 0x1A 2

/-- Whether a gang can be placed on a die (18 R296; 11 R171). -/
def State.tryGang (s : State) (die : Nat) (e : Entry) : Verdict :=
  let g := s.gangOf e
  if gangWellFormed g = false then .unplaced (s.graphOf e) 0x10
  else if g.any (s.isStarvedOut die g) then .blocked
  else if g.any fun x => g.any fun y => x.id ≠ y.id && setsConflict x.regions y.regions then .unplaced g 0x62
  else match g.findSome? s.arbitrate with
    | some (.unplaced _ code) => .unplaced g code
    | some v => v
    | none => match s.gangPlaces die (gangCopies g) [] with
      | none => .fails
      | some ps =>
        if (freshColours s.usedColours ps.length).isNone || !s.edgesRoute (ps.map (s.wouldStand die)) then .fails
        else .gang ps

/-- The activations that are pre-empted and resumed with one: those of its gang, or its partner. -/
def State.companions (s : State) (a : Activation) : List Activation :=
  (s.activations.map (·.2)).filter fun b => b.colour = a.colour ||
    (match a.gang with
     | some g => b.gang = some g && b.entry.asid = a.entry.asid
     | none => false) ||
    (a.isPair && b.colour = a.partner)

/-! ## Moving what a pre-emption saved (18 R301) -/

/-- Identifiers and circuits moved with a region. -/
def shiftId (dx dy : Int) (id : Nat) : Nat :=
  tileId (idDie id) ((idX id : Int) + dx).toNat ((idY id : Int) + dy).toNat + id % 16
def shiftTarget (dx dy : Int) : HopTarget → HopTarget
  | .elementPort el p => .elementPort (shiftId dx dy el) p
  | .streamPort t p => .streamPort (shiftId dx dy t) p
  | .sink t => .sink (shiftId dx dy t)
  | t => t
def shiftSource (dx dy : Int) : SourcePort → SourcePort
  | .out el p => .out (shiftId dx dy el) p
  | .elementMem el p => .elementMem (shiftId dx dy el) p
  | .tileMem t p => .tileMem (shiftId dx dy t) p
  | t => t
def shiftNode (dx dy : Int) (n : HopNode) : HopNode := { n with
  tile := shiftId dx dy n.tile,
  targets := n.targets.map (shiftTarget dx dy),
  passPort := n.passPort.map fun p => (shiftId dx dy p.1, p.2),
  viaBank := n.viaBank.map fun p => (shiftId dx dy p.1, p.2) }
def shiftCircuit (dx dy : Int) (c : Circuit) : Circuit := { c with
  source := shiftSource dx dy c.source, ends := c.ends.map (shiftTarget dx dy),
  nodes := c.nodes.map fun n => (n.1, shiftNode dx dy n.2) }

/-- A saved activation as it would stand at another place. -/
def Activation.movedTo (a : Activation) (p : Nat × Nat) : Activation := { a with x0 := p.1, y0 := p.2 }
/-- How far it would move. -/
def Activation.shiftTo (a : Activation) (p : Nat × Nat) : Int × Int := ((p.1 : Int) - a.x0, (p.2 : Int) - a.y0)

/-- The saved circuits of an activation at a place, its edges led in and out as the others of a gang then stand. -/
def Activation.circuitsAt (a : Activation) (g : List Activation) (p : Nat × Nat) : Tab Circuit :=
  let d := a.shiftTo p
  let b := a.movedTo p
  ((a.frame.map (·.circuits)).getD []).map fun c => (c.1, (shiftCircuit d.1 d.2 c.2).releadEdges b.holds (edgeWays g))

/-- Places for activations that resume together, one after another: the place it left for one whose release walk is under way,
else any that is free (17 R282; 18 R301). -/
def State.resumePlaces (s : State) : List Activation → List Rect → Option (List (Activation × Nat × Nat))
  | [], _ => some []
  | b :: bs, rs =>
    let e := if b.resumeAs = .walking then { b.entry with reserved := some (b.die, b.x0, b.y0) } else b.entry
    match s.freePlace b.die e rs with
    | none => none
    | some p => (s.resumePlaces bs (b.entry.rectAt b.die p :: rs)).map ((b, p.1, p.2) :: ·)

/-- Where a saved activation may resume, with its companions (18 R296, R301; 12 R190). -/
def State.tryResume (s : State) (a : Activation) : Verdict :=
  let g := s.companions a
  if g.any (fun b => b.phase ≠ .saved) then .blocked
  else match s.resumePlaces g [] with
    | none => .fails
    | some ps =>
      let moved := ps.map fun m => m.1.movedTo m.2
      if s.linksTake (ps.flatMap fun m => (m.1.circuitsAt moved m.2).map (·.2)) then
        .resume (ps.map fun m => (m.1.colour, m.2))
      else .fails

/-- The entries of the activations that resume with one. -/
def State.resumingWith (s : State) (a : Activation) : List Entry :=
  s.sched.entries.filter fun f => (s.companions a).any fun b => f.resumes = some b.colour

/-- What a die's scheduler may do with an eligible record. -/
def State.verdict (s : State) (die : Nat) (e : Entry) : Verdict :=
  match e.resumes with
    | some c => match s.activation c with
      | some a =>
        let g := s.resumingWith a
        if (e :: g).any (s.isStarvedOut die (e :: g)) then .blocked else s.tryResume a
      | none => .blocked
    | none =>
      if !e.edges.isEmpty then s.tryGang die e
      else if s.isStarvedOut die [e] e then .blocked
      else if gangDoomed (s.gangOf e) then .unplaced (s.graphOf e) 0x10
      else match s.arbitrate e with
        | some v => v
        | none => match s.freePlace die e [] with
          | none => .fails
          | some p =>
            if isRedundant e.record then match s.freePlace die { e with reserved := none } [e.rectAt die p] with
              | none => .fails
              | some q => if (freshColours s.usedColours 2).isNone then .fails else .place p (some q)
            else if (freshColours s.usedColours 1).isNone then .fails else .place p none

/-- Whether a verdict lets a scheduler act. -/
def Verdict.acts : Verdict → Bool
  | .held => false
  | .blocked => false
  | .fails => false
  | _ => true

/-- The records that a die tries before it acts, with their verdicts, and the one on which it acts. -/
def State.scan (s : State) (die : Nat) : List Entry → List (Entry × Verdict) × Option (Entry × Verdict)
  | [] => ([], none)
  | e :: es =>
    let v := s.verdict die e
    if v.acts then ([], some (e, v))
    else
      let r := s.scan die es
      ((e, v) :: r.1, r.2)
def State.scanDie (s : State) (die : Nat) : List (Entry × Verdict) × Option (Entry × Verdict) := s.scan die (s.serving die)

/-- Note what was tried in vain: the moment from which a record fails (18 R291, R299), and once for each record that
arbitration holds back (19 R312, R314). -/
def State.noteTried (s : State) (tried : List (Entry × Verdict)) : State :=
  tried.foldl (fun s t => match t.2 with
    | .fails => s.mapSched fun c => { c with entries := c.entries.map fun e =>
        if e.id = t.1.id && e.failedAt.isNone then { e with failedAt := some s.cycle } else e }
    | .held =>
      if t.1.counted then s
      else
        let n := s.host.ovlcnt.getD t.1.asid 0
        let s := s.mapHost fun h => { h with ovlcnt := h.ovlcnt.put t.1.asid (if n = 0xFFFFFFFF then n else n + 1) }
        s.mapSched fun c => { c with entries := c.entries.map fun e => if e.id = t.1.id then { e with counted := true } else e }
    | _ => s) s

/-! ## Putting an activation on a region (18 R292, R293) -/

/-- A port that holds no token. -/
def emptyPort (p : Port) : Port := { depth := p.depth }

/-- An element that no activation uses: no tokens, blocks, requests or writes; its contexts are disabled. Handlers, code,
table, scales and accumulators stand as they were, and so does the entry that fired last: a block of an earlier activation counts
for rule 3 of 07 R107, where the spec is silent (DESIGN CHOICE, log 61). -/
def clearElement (x : Element) (now : Nat) : Element := { x with
  ports := x.ports.map fun p => (p.1, emptyPort p.2),
  slots := [], lastRelease := now, promotions := [], anew := [], block := none, again := none, contNop := [],
  requests := [], replies := [], tableWrites := [], grants := 0,
  ctxs := x.ctxs.map fun k => (k.1, { k.2 with word := k.2.word &&& ~~~0x400000, held := none }) }

/-- A memory tile that no activation uses. -/
def clearTile (x : MemTile) : MemTile := { x with
  fifos := [], wires := [], sinks := [], sinkWires := [], streams := [], stream := {}, nests := [], switching := [] }

/-- The region of an activation without anything of it that runs. -/
def State.vacate (s : State) (a : Activation) : State :=
  let s := a.elements.foldl (fun s e => (s.putElement e (clearElement (s.element e) s.cycle)).settleQuarantine e) s
  let s := a.memTiles.foldl (fun s t => s.putTile t (clearTile (s.tile t))) s
  { s with circuits := s.circuits.filter fun c => c.2.owner ≠ a.colour }

/-- The tiles of a region pass to a context: what another context left in tables, scratch and tile caches is zero or
invalid (18 R293). -/
def State.tenant (s : State) (a : Activation) : State :=
  let asid := a.entry.asid
  let s := a.elements.foldl (fun s e =>
    let x := s.element e
    s.putElement e (if x.tenant = some asid then x else { x with table := [], reloadable := none, tenant := some asid })) s
  a.memTiles.foldl (fun s t =>
    let x := s.tile t
    s.putTile t (if x.tenant = some asid then x else { x with sram := [], cache := [], tenant := some asid })) s

/-- What a new activation finds zero (18 R293): temporaries, predicates and status words, the scale sets its contexts name,
accumulator banks; CLKTH is 64. -/
def State.freshState (s : State) (a : Activation) (c : LoadedConfig) : State :=
  let s := a.elements.foldl (fun s e =>
    let x := s.element e
    s.putElement e { x with ctxs := x.ctxs.map fun k => (k.1, { k.2 with temps := [], preds := [], status := 0 }) }) s
  let s := c.ctxs.foldl (fun s k =>
    let el := (a.absolute k.1).getD k.1
    let x := s.element el
    let set := slice k.2.2.toNat 17 15
    s.putElement el { x with scales := x.scales.filter fun v => v.1 / 8 ≠ set }) s
  a.memTiles.foldl (fun s t => s.putTile t { s.tile t with bank := [], bankStatus := 0, clkth := 64 }) s

/-- The configuration of a record's image, resident or loaded (18 R292, step 4), whose circuits find room on every link (12
R180). -/
def State.configFor (s : State) (a : Activation) (ways : EdgeWays) : State × Load (LoadedConfig × Bool) :=
  let r : State × Load (LoadedConfig × Bool) := match s.residentAt a.entry.asid a.image.toNat a.rect with
    | some r => (s, .ok (r.config, true))
    | none => match s.loadImage a.entry.asid a.image.toNat true with
      | (s, .error e) => (s, .error e)
      | (s, .ok c) => (s, .ok (c, false))
  match r with
  | (s, .error e) => (s, .error e)
  | (s, .ok c) => match s.linksFree a c.1 ways with
    | .error e => (s, .error e)
    | .ok () => (s, .ok c)

/-- The sequencer of an activation at its start (13 R198). -/
def startSequencer (record : BitVec 512) (c : LoadedConfig) : Sequencer :=
  { regs := [(1, BitVec.ofNat 64 (field record 8 8))], cc := c.initial, program := c.program.getD {}, running := true }

/-- The chain that a die's spill engine keeps for a context counts from 0 when an activation of the context starts, unless another
one of it stands on the die (16 R258; log 23). -/
def State.restartSpillChain (s : State) (a : Activation) : State :=
  if s.activations.any fun p => p.2.entry.asid = a.entry.asid && p.2.die = a.die && p.2.colour ≠ a.colour then s
  else { s with chains := s.chains.filter fun c => c.id ≠ chainIdOf a a.anchor 5 }

/-- A record leaves the queue as its activation. -/
def State.enter (s : State) (a : Activation) : State :=
  let s := s.restartSpillChain a
  let s := s.mapSched fun c => { c with entries := c.entries.filter (·.id ≠ a.entry.id), colours := a.colour :: c.colours }
  s.putActivation { a with entry := { a.entry with reserved := none, claim := none } }

/-- Put an activation that has entered on its region: acquire, load, zero, bind; it then waits for its permit. A load that fails
ends it with a configuration fault, unless what the loader's reads met has ended it (24 R376). -/
def State.putOn (s : State) (a : Activation) (ways : EdgeWays) : State :=
  let fresh := a.entry.reserved.isNone
  let a := { a with entry := { a.entry with reserved := none, claim := none } }
  let foreign := a.memTiles.filter fun t => (s.tile t).tenant ≠ some a.entry.asid
  let s := (s.vacate a).tenant a
  let s := if fresh then s.acquire a else s
  match s.configFor a ways with
  | (s, .error e) => (s.mapActivation a.colour fun a => { a.cancel 0x10 with asks := [] }).reportLoad a 4 e
  | (s, .ok (c, resident)) =>
    let s := s.install a a.image c
    let s := (s.freshState a c).writeStores a c resident
    let s := (s.enableConfig a c true).setBanks a c State.switchBank
    let s := foreign.foldl (fun s t => s.putTile t { s.tile t with sram := [] }) s
    let s := (s.bindConfig a c ways).startStreams a c
    s.mapActivation a.colour fun b => { b with config := c, seq := startSequencer a.entry.record c }

/-- Place activations at once: they leave the queue together, and each is put on its region. -/
def State.placeAll (s : State) (g : List Activation) (ways : EdgeWays) : State :=
  g.foldl (fun s a => s.putOn a ways) (g.foldl State.enter s)

/-- A new activation of an entry. -/
def newActivation (s : State) (die : Nat) (e : Entry) (p : Nat × Nat) (colour : Nat) : Activation :=
  { entry := { e with die := die, pending := false }, colour := colour, die := die, x0 := p.1, y0 := p.2,
    image := BitVec.ofNat 64 (field e.record 0 8), isc := e.lo, extent := e.hi, records := e.regions, permit := 0,
    asks := [{ cls := 1, at_ := s.tick }], stepMode := e.stepMode, placedAt := s.cycle }

/-- Drop the reservations of the context's records whose R or RW records meet the writes of one that is placed first (19
R309): the copies that were forwarded are invalidated. -/
def State.dropReservation (s : State) (f : Entry) : State :=
  match f.reserved with
  | none => s
  | some (d, x, y) =>
    let a : Activation := { entry := f, die := d, x0 := x, y0 := y, records := f.regions }
    let ps := (f.regions.filter fun r => r.mode = 0 || r.mode = 2).flatMap fun r => s.rangePages f.asid r.base r.extent
    let s := s.dropClean a (touches ps)
    s.mapSched fun c => { c with entries := c.entries.map fun e => if e.id = f.id then { e with reserved := none } else e }

def State.dropReservations (s : State) (e : Entry) : State :=
  let writes := e.regions.filter fun r => r.mode ≠ 0
  (s.sched.entries.filter fun f => f.id ≠ e.id && f.asid = e.asid && f.reserved.isSome &&
    setsConflict writes (f.regions.filter fun r => r.mode = 0 || r.mode = 2)).foldl (fun s f => s.dropReservation f) s

/-- The turn of a level passes on as a context's records are placed (18 R290). -/
def State.takeTurn (s : State) (die : Nat) (e : Entry) : State :=
  let k := 8 * die + s.levelOf e
  s.mapSched fun c => { c with turn := c.turn.put k (match c.turn.find k with
    | some (asid, n) => if asid = e.asid && n < s.shareOf asid then (asid, n + 1) else (e.asid, 1)
    | none => (e.asid, 1)) }

/-- A record completes without a region: its counters fall, and its fault and its completion are reported (11 R171; 19
R313). -/
def State.completeUnplaced (s : State) (e : Entry) (code : Nat) : State :=
  let s := s.mapSched fun c => { c with entries := c.entries.filter (·.id ≠ e.id) }
  (s.report { record := e.va, unit := 4, asid := e.asid, identifier := tileId e.die 0 0 }
    { code := BitVec.ofNat 8 code }).completeEntry e code

/-- Place a single record, or both copies of a REDUNDANT one (19 R317). -/
def State.placeRecord (s : State) (die : Nat) (e : Entry) (p : Nat × Nat) (shadow : Option (Nat × Nat)) : Option State :=
  let s := (s.takeTurn die e).dropReservations e
  match shadow with
  | none => (freshColours s.usedColours 1).bind fun cs => cs.head?.map fun c =>
      s.placeAll [newActivation s die e p c] noWays
  | some q => match freshColours s.usedColours 2 with
    | some [c, d] =>
      let primary := { newActivation s die e p c with role := .primary, partner := d }
      let copy := { newActivation s die { e with reserved := none } q d with role := .shadow, partner := c }
      some (s.placeAll [primary, copy] noWays)
    | _ => none

/-- Place a gang with its edge routes, all at once, both copies of a REDUNDANT member (18 R296; 12 R190; 19 R317). Of the copies each
takes the tokens of the edges that come in, and only the primary's go out (DESIGN CHOICE, log 71). -/
def State.placeGang (s : State) (die : Nat) (ps : List Seat) : Option State :=
  match freshColours s.usedColours ps.length with
  | none => none
  | some cs =>
    let key := (ps.map (·.entry.id)).foldl min ((ps.map (·.entry.id)).headD 0)
    let s := (ps.filter fun m => m.role ≠ .shadow).foldl (fun s m => (s.takeTurn die m.entry).dropReservations m.entry) s
    let seats := ps.zip cs
    let partner (m : Seat) : Nat :=
      ((seats.find? fun k => k.1.entry.id = m.entry.id && k.1.role ≠ m.role).map (·.2)).getD 0
    let g := seats.map fun (m, c) =>
      { newActivation s die (if m.role = .shadow then { m.entry with reserved := none } else m.entry) (m.x, m.y) c with
        gang := some key, role := m.role, partner := partner m, config := (s.wouldStand die m).config }
    some (s.placeAll g (edgeWays g))

end Sys2Proof.Machine
end

