-- ==== Sys2Proof/Machine/SchedulerEvents.lean ====
section
/-! DEFINITION. The events of the die schedulers and of the power controller's permits: fetch, placement, stealing, ageing,
pre-emption, resumption, reservation and colours (18 R285, R289 to R302; 19 R309, R315; 21 R335, R343; 25 R401). -/
namespace Sys2Proof.Machine

/-! ## RECORD_FETCH (18 R289) -/

/-- RECORD_FETCH: the HOME scheduler of an enabled chain reads its descriptor, and takes the slot at HEAD. Where its own reads
terminate the context, nothing is fetched (24 R376). -/
def execRecordFetch (asid : Nat) (s : State) : Result :=
  if !s.chainEnabled asid || s.chainUsed asid = 0 then .fault .notEnabled
  else
  let s := s.meetDesc asid
  if !s.chainEnabled asid || s.chainUsed asid = 0 then .next s
  else
    let h := s.chainHead asid
    let die := s.descField asid 0x14 1 % 4
    let va := s.slotVa asid h
    let note := s.sched.notes.find? fun n => n.asid = asid && n.slot = h
    let advance (s : State) : State :=
      (s.putDesc asid 0x0C 4 ((h + 1) % 2 ^ 32)).mapSched fun c => { c with
        notes := c.notes.filter fun n => !(n.asid = asid && n.slot = h) }
    match s.readBytes asid .read false va 64 with
    | (s, r) =>
      if s.chainEnabled asid = false then .next s
      else match r with
        | .error f => .next (match note with
          | some n => (advance s).refuseRecord asid die va (recordCode f) n.record
          | none => (advance s).reportRecord asid die va (recordCode f))
        | .ok bs =>
          let order := (note.map (·.stamp)).getD 0
          let parents := (note.map (·.parents)).getD []
          .next ((advance s).acceptRecord asid die va (BitVec.ofNat 512 (natOfBytes bs)) order parents)

/-! ## Placement (18 R292 to R296) -/

/-- Something is noted of the records that were tried in vain. -/
def notesSomething (tried : List (Entry × Verdict)) : Bool :=
  tried.any fun t => match t.2 with
    | .fails => t.1.failedAt.isNone
    | .held => !t.1.counted
    | _ => false

/-- PLACEMENT: the first record that a die may act on is placed, or completes unplaced; the records before it are noted. -/
def execPlacement (die : Nat) (s : State) : Result :=
  if 4 ≤ die || !s.queuesCurrent then .fault .notEnabled
  else
    let r := s.scanDie die
    let s := s.noteTried r.1
    match r.2 with
    | some (e, .place p q) => occursIf (s.placeRecord die e p q)
    | some (_, .unplaced es code) =>
      occurs (es.all fun e => !s.ringFull e.asid) (es.foldl (fun s e => s.completeUnplaced e code) s)
    | some _ => .fault .notEnabled
    | none => occurs (notesSomething r.1) s

/-- GANG_PLACEMENT: the next that a die places is the gang of a record. -/
def execGangPlacement (die entry : Nat) (s : State) : Result :=
  let r := s.scanDie die
  match r.2 with
  | some (e, .gang ps) =>
    if 4 ≤ die || e.id ≠ entry || !s.queuesCurrent then .fault .notEnabled else occursIf ((s.noteTried r.1).placeGang die ps)
  | _ => .fault .notEnabled

/-- The dies that a die asks: the adjacent quadrants, lower first, then the opposite one (18 R294; 02 R13). -/
def askedDies (die : Nat) : List Nat := ([[1, 2, 3], [0, 3, 2], [0, 3, 1], [1, 2, 0]] : List (List Nat)).getD die []

/-- What a thief may take from a die: the record that it would serve next among those the thief can place. -/
def State.stealable (s : State) (thief die : Nat) : Option (Entry × Verdict) :=
  (s.serving die).findSome? fun e =>
    if e.resumes.isSome then none
    else match s.verdict thief e with
      | .place p q => some (e, .place p q)
      | .gang ps => some (e, .gang ps)
      | _ => none

/-- STEAL: a die that can place nothing of its own takes a record, or a whole gang, from another die and places it. -/
def execSteal (die : Nat) (s : State) : Result :=
  if 4 ≤ die || !s.queuesCurrent || (s.scanDie die).2.isSome then .fault .notEnabled
  else match (askedDies die).findSome? (s.stealable die) with
    | some (e, .place p q) => occursIf (s.placeRecord die e p q)
    | some (_, .gang ps) => occursIf (s.placeGang die ps)
    | _ => .fault .notEnabled

/-- Change the entry of an id. -/
def State.mapEntry (s : State) (id : Nat) (f : Entry → Entry) : State :=
  s.mapSched fun c => { c with entries := c.entries.map fun e => if e.id = id then f e else e }

/-- QUEUE_AGING (18 R290). -/
def execQueueAging (entry : Nat) (s : State) : Result :=
  match s.sched.entries.find? fun e => e.id = entry with
  | none => .fault .notEnabled
  | some e => occurs (e.agingDue s.cycle) (s.mapEntry entry fun e => { e with gained := e.gained + 1 })

/-- PLACEMENT_STARVATION (18 R291). -/
def execPlacementStarvation (entry : Nat) (s : State) : Result :=
  match s.sched.entries.find? fun e => e.id = entry with
  | none => .fault .notEnabled
  | some e => occurs (s.starvationDue e) (s.mapEntry entry fun e => { e with starved := true })

/-! ## Pre-emption (18 R299, R300; 25 R401) -/

/-- An activation may be pre-empted for a record of priority p (18 R299). -/
def State.preemptable (s : State) (p : Nat) (a : Activation) : Bool :=
  recordPriority a.entry.record < p && s.preemptible a.entry.asid && s.saveFits a && !a.entry.link && !a.cancelled &&
  a.victim.isNone && (a.phase = .starting || a.phase = .running || a.phase = .finishing || a.phase = .walking)

/-- The victim of a record: the lowest priority, then the one placed most recently. -/
def State.chooseVictim (s : State) (e : Entry) : Option Activation :=
  let p := recordPriority e.record
  let fits (a : Activation) : Bool :=
    !e.link && a.die = e.die && a.width = e.width && a.height = e.height && (s.companions a).all (s.preemptable p)
  (((s.activations.map (·.2)).filter fits).foldl (fun (m : Option Activation) a => match m with
    | none => some a
    | some b =>
      let pa := recordPriority a.entry.record
      let pb := recordPriority b.entry.record
      if pa < pb || (pa = pb && b.placedAt ≤ a.placedAt) then some a else some b) none)

/-- PREEMPTION_TIMEOUT: a record that has failed for 4,096 cycles takes a reserved region, or marks a victim, whole gangs and
pairs with it, whose region is then its own (17 R282; 18 R299). Each record has one. An activation that waits to resume marks no victim,
where R299 speaks of records (DESIGN CHOICE, log 75). -/
def execPreemptionTimeout (entry : Nat) (s : State) : Result :=
  match s.sched.entries.find? fun e => e.id = entry with
  | none => .fault .notEnabled
  | some e =>
    let sameShape (w h : Nat) : Bool := w = e.width && h = e.height
    let fails := match s.verdict e.die e with
      | .fails => true
      | _ => false
    if !s.eligible e || !e.failedFor s.cycle 4096 || e.claim.isSome || e.resumes.isSome || !fails then .fault .notEnabled
    else match s.sched.entries.find? fun f => f.id ≠ e.id && f.die = e.die && f.reserved.isSome && sameShape f.width f.height with
      | some f => .next (s.dropReservation f)
      | none => match s.chooseVictim e with
        | none => .fault .notEnabled
        | some a => .next (((s.companions a).foldl (fun s b => s.putActivation { b with victim := some false }) s).mapEntry entry
            fun e => { e with claim := some (a.die, a.x0, a.y0) })

/-- What pre-emption waits for (17 R282; 18 R300, steps 1 to 5; 26 R411). -/
def State.paused (s : State) (a : Activation) : Bool :=
  (a.elements.all fun e =>
    let x := s.element e
    x.block.isNone && x.again.isNone && x.replies.isEmpty && (x.requests.all fun q => q.2.all (s.staysQueued e)) &&
    x.ports.all fun p => p.2.wire.isEmpty) &&
  a.seq.atBoundary && (a.memTiles.all fun t => (s.tile t).stream.atBoundary &&
    ((s.tile t).wires ++ (s.tile t).sinkWires).all fun w => w.2.isEmpty) &&
  ((s.circuitsOf a).all fun c => c.2.nodes.all fun n => n.2.wire.isEmpty) &&
  (s.memory.additions.all fun d => d.2.colour ≠ a.colour) && !s.rowlessRuns a.colour &&
  !s.combineRetried a.colour && (a.phase ≠ .walking || a.walkSector = 0) &&
  s.chains.all fun c => c.commands.all fun k => k.colour ≠ a.colour || k.phase = .completed ||
    (if c.id.engine = 5 then c.stopped else k.attempt = 0)

/-- The chains of a region's engines that an activation owns. -/
def State.ownChains (s : State) (a : Activation) : List Chain :=
  s.chains.filter fun c => c.id.engine ≠ 5 && c.id.owner = a.colour

/-- What the scheduler saves: whole elements, of which R300 lists less (18 R300; DESIGN CHOICE, log 61). -/
def State.frameOf (s : State) (a : Activation) : SavedFrame :=
  { elements := a.elements.map fun e => (e, s.element e), tiles := a.memTiles.map fun t => (t, s.tile t),
    circuits := s.circuitsOf a, chains := s.ownChains a,
    deferred := (s.memory.deferred.filter fun d => d.2.2.colour.toNat = a.colour).map (·.2) }

/-- The parts of a context's save area that saved activations hold. -/
def State.savedParts (s : State) (asid : Nat) : List (Nat × Nat) :=
  (s.savedOf asid).filterMap fun a => a.frame.map (·.area)
/-- The lowest offset of a save area from which `n` bytes meet no part that is held, else 0 (log 64). -/
def saveOffset (parts : List (Nat × Nat)) (n : Nat) : Nat :=
  let starts := (0 :: parts.map fun p => p.1 + p.2).filter fun o => parts.all fun p => o + n ≤ p.1 || p.1 + p.2 ≤ o
  (starts.min?).getD 0

/-- The scheduler writes what it saves to a part of the context's save area (18 R287, R300). Which bytes it writes there the spec
leaves open: they are free, within the part and within the area (log 64). A byte that it cannot write is a fault, of which one save
reports the first, and the save goes on (24 R377). -/
def State.writeSave (s : State) (asid : Nat) (part : Nat × Nat) : State :=
  let s := s.meetDesc asid
  let base := s.descField asid 0x18 8
  let size := s.descField asid 0x20 8
  let ws := (Config.saveWrites s.tick).filter fun w => w.1 < part.2 && part.1 + w.1 < size
  let s := ws.foldl (fun s w => s.hwWrite (base + part.1 + w.1) [w.2]) s
  match ws.findSome? fun w => (s.hwFault (base + part.1 + w.1)).map fun c => (base + part.1 + w.1, c) with
  | some (pa, c) => s.deliver { unit := 4, asid := asid } { code := c, flags := 8, address := BitVec.ofNat 64 pa }
  | none => s

/-- What an activation that is saved withdraws and asks for again: the class it held or waited for since its placement (21 R343). -/
def Activation.classToAsk (a : Activation) : Nat :=
  if a.phase = .starting then ((a.asks.head?).map (·.cls)).getD 1 else a.permit

/-- PREEMPTION_SAVE: a victim that has paused is saved: its dirty sectors are written back, its region is free, its permit
returns, and it waits in its die's queue at the head of its level, or at the tail after YIELD (18 R300, R301; 21 R335). The head is
that of its own context's records, since contexts take turns (R290), and the levels it had gained are gone (DESIGN CHOICE, log 75). -/
def execPreemptionSave (colour : Nat) (s : State) : Result :=
  match s.activation colour with
  | none => .fault .notEnabled
  | some a => match a.victim with
    | none => .fault .notEnabled
    | some atTail =>
      if a.cancelled || a.phase = .saved || a.phase = .walked || a.phase = .stopped || !s.paused a then .fault .notEnabled
      else
        let s := a.memTiles.foldl (fun s t => (s.tile t).cache.foldl (fun s x => dropSector s t x) s) s
        let n := 2 ^ 21 * (a.width * a.height)
        let part := (saveOffset (s.savedParts a.entry.asid) n, n)
        let s := s.writeSave a.entry.asid part
        match s.activation colour with
        | none => .fault .notEnabled
        | some a =>
          if a.cancelled then .next s
          else
          let f := { s.frameOf a with area := part }
          let s := s.vacate a
          let s := { s with chains := s.chains.filter fun c => !(s.ownChains a).contains c }
          let s := s.mapMemory fun m => { m with deferred := m.deferred.filter fun d => d.2.2.colour.toNat ≠ colour }
          let e := { a.entry with
            die := a.die, resumes := some colour, since := s.cycle, gained := 0, failedAt := none, starved := false,
            counted := false }
          let s := s.mapSched fun c => { c with entries := if atTail then c.entries ++ [e] else e :: c.entries }
          .next (s.putActivation { a with
            phase := .saved, resumeAs := if a.phase = .starting then a.resumeAs else a.phase, frame := some f,
            victim := none, asks := [{ cls := a.classToAsk, at_ := s.tick }], permit := 0 })

/-! ## Resumption (18 R301; 19 R315) -/

def shiftEffect (dx dy : Int) : StepEffect → StepEffect
  | .depth el p d w => .depth (shiftId dx dy el) p d w
  | .bank t b m w => .bank (shiftId dx dy t) b m w
  | e => e
/-- A sequencer at its new place. A step of which nothing is released yet is checked again (log 61). -/
def shiftSequencer (dx dy : Int) (x : Sequencer) : Sequencer := { x with
  step := x.step.map fun r => { r with effects := r.effects.map (shiftEffect dx dy), released := r.released && r.begun } }
def shiftChain (dx dy : Int) (c : ChainId) : ChainId := if c.engine = 5 then c else { c with tile := shiftId dx dy c.tile }
/-- An element at its new place. What R300 does not list of its arbitration begins anew (log 61). -/
def shiftElement (dx dy : Int) (now : Nat) (x : Element) : Element := { x with
  slots := x.slots.map fun sl => { sl with since := now }, lastRelease := now, promotions := [], anew := [], lastFired := none,
  tableWrites := x.tableWrites.map fun w => { w with chain := shiftChain dx dy w.chain } }

/-- A reloadable table is built again from its recorded parameter block (18 R300). -/
def State.rebuildTable (s : State) (a : Activation) (el : Nat) : State :=
  let x := s.element el
  match x.reloadable with
  | none => s
  | some block =>
    let k : Command :=
      { place := 0, colour := a.colour, block := block,
        record := { engine := 2, fn := 0, flags := 0, parameter := 0, eyelet := 0, auxiliary := 0, activation := 0 } }
    s.putElement el { x with table := tableRows (tableWidth k.isSt32) (buildColumns s a k) }

/-- Configurations resident where a region is restored are overwritten (18 R292). -/
def State.evictMeeting (s : State) (r : Rect) : State :=
  s.mapSched fun c => { c with residents := c.residents.filter fun q =>
    !({ die := q.die, x := q.x0, y := q.y0, w := q.config.width, h := q.config.height : Rect }.meets r) }

/-- The permits that a resumed activation asks for: the class it held, and class 4 for each of its RUNs that waited for it (21
R342, R343). -/
def Activation.asksAgain (a : Activation) (now : Nat) : List PermitAsk :=
  (a.asks.map fun k => { k with at_ := now }) ++
  (a.runs.filter (·.needs)).map fun _ => { cls := 4, at_ := now, run := true }

/-- Restore a saved activation at a place: everything saved comes back, and the permit that was held is requested (18 R301; 21
R343). Its tile caches are empty, so the acquire has nothing to invalidate. `g` is its gang as it then stands. It counts as placed
when it was first placed (R299; DESIGN CHOICE, log 75). -/
def State.restore (s : State) (g : List Activation) (p : Nat × Nat) (a : Activation) : State :=
  match a.frame with
  | none => s
  | some f =>
    let d := a.shiftTo p
    let b := { a.movedTo p with
      phase := .starting, frame := none, asks := a.asksAgain s.tick, seq := shiftSequencer d.1 d.2 a.seq,
      late := a.late.map fun l => { l with el := shiftId d.1 d.2 l.el } }
    let s := s.mapSched fun c => { c with entries := c.entries.filter fun e => e.resumes ≠ some a.colour }
    let s := ((s.evictMeeting b.rect).vacate b).tenant b
    let s := f.elements.foldl (fun s e =>
      let el := shiftId d.1 d.2 e.1
      s.putElement el { shiftElement d.1 d.2 s.cycle e.2 with mismatchAt := (s.element el).mismatchAt }) s
    let s := f.tiles.foldl (fun s t =>
      let tile := shiftId d.1 d.2 t.1
      s.putTile tile { t.2 with
        cache := [], stream := shiftSequencer d.1 d.2 t.2.stream, mismatchAt := (s.tile tile).mismatchAt }) s
    let s := { s with welt := { s.welt with messages := s.welt.messages.map fun (m : Message) =>
      if m.sender = a.colour then { m with source := shiftId d.1 d.2 m.source } else m } }
    let chains := f.chains.map fun c => { c with id := shiftChain d.1 d.2 c.id }
    let s := { s with
      circuits := (a.circuitsAt g p).foldl (fun (m : Tab Circuit) (c : Nat × Circuit) => m.put c.1 c.2) s.circuits,
      chains := chains ++ s.chains }
    let s := f.deferred.foldl (fun s r => s.mapMemory fun m => { m with
      deferred := m.deferred.put m.nextDeferred (shiftId d.1 d.2 r.1, r.2), nextDeferred := m.nextDeferred + 1 }) s
    let s := b.elements.foldl (fun s e => s.rebuildTable b e) s
    (s.addResident b b.image b.config).putActivation b

/-- The activations of a resumption with the places they get. -/
def State.placedAgain (s : State) (at_ : List (Nat × Nat × Nat)) : List (Activation × Nat × Nat) :=
  at_.filterMap fun m => (s.activation m.1).map fun a => (a, m.2)

/-- RESUMPTION: the next that a die places is a saved activation; those saved with it come back together. -/
def execResumption (colour : Nat) (s : State) : Result :=
  match s.activation colour with
  | none => .fault .notEnabled
  | some a =>
    let r := s.scanDie a.die
    match r.2 with
    | some (e, .resume at_) =>
      if s.queuesCurrent && at_.any fun m => m.1 = colour then
        let ps := s.placedAgain at_
        let g := ps.map fun m => m.1.movedTo m.2
        .next (ps.foldl (fun s m => s.restore g m.2 m.1) ((s.noteTried r.1).takeTurn a.die e))
      else .fault .notEnabled
    | _ => .fault .notEnabled

/-! ## Reservation (19 R309) -/

/-- FORWARD_RESERVATION: a pending record whose phase one releasing activation holds is given a region on its die, acquired
and loaded. One whose load fails is given none, and only what the errors that its reads met have done stays (24 R375). -/
def execForwardReservation (entry : Nat) (s : State) : Result :=
  match s.sched.entries.find? fun e => e.id = entry with
  | none => .fault .notEnabled
  | some e =>
    let releases (a : Activation) : Bool :=
      a.phase = .walking && !a.cancelled && a.die = e.die && a.entry.asid = e.asid &&
      (counterKeys a.entry.asid a.entry.record).contains (afterKey e)
    if !e.pending || e.held || e.reserved.isSome || !e.edges.isEmpty || isRedundant e.record || counterOf s (afterKey e) ≠ 1 ||
        s.sched.saved.contains e.asid || !(s.activations.any fun p => releases p.2) || !(s.blockers e).isEmpty then
      .fault .notEnabled
    else match s.freePlace e.die e [] with
      | none => .fault .notEnabled
      | some p =>
        let a := newActivation s e.die e p 0
        match (s.acquire a).configFor a noWays with
        | (t, .error _) => occurs (t.host.llcinj ≠ s.host.llcinj || t.upsets ≠ s.upsets) t
        | (s, .ok (c, _)) =>
          .next ((s.install a a.image c).mapEntry entry fun e => { e with reserved := some (e.die, p.1, p.2) })

/-! ## Colours and permits (18 R285; 21 R341 to R343) -/

/-- COLOUR_RETURN: 1,048,576 cycles after its purge a colour is free again. -/
def execColourReturn (colour : Nat) (s : State) : Result :=
  match s.sched.purging.find? fun p => p.1 = colour with
  | none => .fault .notEnabled
  | some p => occurs (decide (1048576 ≤ s.cycle - p.2))
      (s.mapSched fun c => { c with purging := c.purging.filter fun q => q.1 ≠ colour })

/-- The other copy of a pair, while it stands. -/
def State.otherCopy (s : State) (a : Activation) : Option Activation :=
  if a.isPair then (s.activation a.partner).filter fun b => b.isPair && b.partner = a.colour else none

/-- What the permit of an activation is charged with its class, for both regions of a pair at once (21 R341). -/
def Activation.charge (a : Activation) (cls : Nat) : Nat :=
  classRate cls * (a.width * a.height) * (if a.isPair then 2 else 1)

/-- The charge of an activation that asks for a class: a pair holds one permit, of the higher class of its copies (log 65). -/
def State.chargeWith (s : State) (a : Activation) (cls : Nat) : Nat :=
  a.charge (max cls (((s.otherCopy a).map (·.permit)).getD 0))

/-- The charge of every permit but that of one activation and of its other copy. A pair counts at its primary copy. -/
def State.permitTotal (s : State) (a : Activation) : Nat :=
  ((s.activations.map (·.2)).filter fun b => b.colour ≠ a.colour && !(a.isPair && b.colour = a.partner) && b.phase ≠ .saved &&
    !(b.role = .shadow && (s.otherCopy b).isSome)).map (fun b => s.chargeWith b b.permit) |>.sum

/-- When an activation's oldest request came. -/
def Activation.askedAt (a : Activation) : Nat := ((a.asks.head?).map (·.at_)).getD 0

/-- The request that the controller serves next: the highest priority, then the earliest. -/
def State.nextRequest (s : State) : Option Activation :=
  ((s.activations.map (·.2)).filter fun a => !a.asks.isEmpty && a.phase ≠ .saved && !a.cancelled).foldl
    (fun (m : Option Activation) a => match m with
      | none => some a
      | some b =>
        let pa := recordPriority a.entry.record
        let pb := recordPriority b.entry.record
        if pb < pa || (pa = pb && a.askedAt < b.askedAt) then some a else some b) none

/-- The first RUN that waits for a permit need wait no longer. -/
def meetNeed : List RunProgress → List RunProgress
  | [] => []
  | r :: rs => if r.needs then { r with needs := false } :: rs else r :: meetNeed rs

/-- An activation whose oldest request is granted. One that waited for it at its placement or resumption starts or goes on. -/
def Activation.granted (a : Activation) (k : PermitAsk) : Activation := { a with
  permit := k.cls,
  asks := a.asks.tail,
  runs := if k.run then meetNeed a.runs else a.runs,
  phase := if a.phase = .starting then a.resumeAs else a.phase }

/-- PERMIT_GRANT: the next request is granted if it fits the budget; none above class 1 while the package throttles (26
R418). -/
def execPermitGrant (colour : Nat) (s : State) : Result :=
  match s.nextRequest with
  | none => .fault .notEnabled
  | some a => match a.asks with
    | [] => .fault .notEnabled
    | k :: _ =>
      occurs (a.colour = colour && decide (s.permitTotal a + s.chargeWith a k.cls ≤ s.host.budget) &&
        !(s.host.throttled && decide (1 < k.cls))) (s.putActivation (a.granted k))

end Sys2Proof.Machine
end

