-- ==== Sys2Proof/Machine/Completion.lean ====
section
/-! DEFINITION. How an activation ends: its release walk, its completion record, and the stop of a cancelled one (18 R297,
R298; 19 R306, R309, R316, R317; 25 R386; 26 R414). -/
namespace Sys2Proof.Machine

/-! ## The events of a completion record (07 R116; 25 R386) -/

/-- Events and their lowest sources with those of one more unit. -/
def addEvents (r : Nat × Tab Nat) (source events : Nat) : Nat × Tab Nat :=
  (r.1 ||| events % 64, (List.range 6).foldl (fun (m : Tab Nat) i =>
    if events / 2 ^ i % 2 = 1 then m.put i (min source (m.getD i 0xFFFF)) else m) r.2)

/-- The events of an activation: those its engines raised, the status words of its contexts and of its banks. -/
def gatherEvents (a : Activation) (els : Tab Element) (tiles : Tab MemTile) : Nat × Tab Nat :=
  let r := els.foldl (fun r e => e.2.ctxs.foldl (fun r k => addEvents r e.1 k.2.status.toNat) r) (a.events.toNat, a.sources)
  tiles.foldl (fun r t => addEvents r t.1 t.2.bankStatus.toNat) r
def State.eventsOf (s : State) (a : Activation) : Nat × Tab Nat :=
  match a.frame with
  | some f => gatherEvents a f.elements f.tiles
  | none => gatherEvents a (a.elements.map fun e => (e, s.element e)) (a.memTiles.map fun t => (t, s.tile t))

/-- Write the completion record of an activation. It carries the code of a lost write-back unless it carries another (24 R377). -/
def State.recordCompletion (s : State) (a : Activation) (code : Nat) : State :=
  let r := s.eventsOf a
  let code := if code = 0 && a.lostWrite then 0x26 else code
  s.putCompletion a.entry.asid (completionRecord s.cycle a.entry a.colour code r.1 r.2)

/-! ## Leaving a region -/

/-- An activation leaves its region, its colour is purged, and it is gone. -/
def State.leave (s : State) (a : Activation) : State :=
  let s := if a.phase = .saved then s else s.vacate a
  let s := { s with chains := s.chains.filter fun c => !(c.id.engine ≠ 5 && c.id.owner = a.colour) }
  let s := s.purge a.colour
  { s with activations := s.activations.drop a.colour }

/-- Invalidate the tile caches of a region without write-back. -/
def State.invalidateCaches (s : State) (a : Activation) : State :=
  a.memTiles.foldl (fun s t => s.putTile t { s.tile t with cache := [] }) s

/-! ## The release walk (19 R306, R309) -/

/-- The pages of a record's range that translate: device virtual address, physical address and length. -/
def State.rangePlaces (s : State) (asid : Nat) (r : RegionRecord) : List (Nat × Nat × Nat) :=
  (List.range ((r.base + r.extent + 65535) / 65536 - r.base / 65536)).flatMap fun i =>
    let lo := max r.base (r.base / 65536 * 65536 + 65536 * i)
    let hi := min (r.base + r.extent) (r.base / 65536 * 65536 + 65536 * (i + 1))
    (s.rangePages asid lo (hi - lo)).map fun p => (lo, p.1, p.2)

/-- The places of a physical sector in a record's range: how many sectors lie before it. -/
def sectorOffsets (r : RegionRecord) (ps : List (Nat × Nat × Nat)) (number : Nat) : List Nat :=
  ps.filterMap fun p =>
    if number * 128 < p.2.1 + p.2.2 ∧ p.2.1 < number * 128 + 128 then
      some ((p.1 / 65536 * 65536 + number * 128 % 65536) / 128 - r.base / 128)
    else none

/-- The dirty sectors of a region under a record from a sector offset on: offset and number, the first one. -/
def State.nextDirty (s : State) (a : Activation) (r : RegionRecord) (start : Nat) : Option (Nat × Nat) :=
  let ps := s.rangePlaces a.entry.asid r
  let dirty := a.memTiles.flatMap fun t => (s.tile t).cache.filter fun x => x.mask ≠ 0
  let found := dirty.flatMap fun x => ((sectorOffsets r ps x.number).filter fun o => decide (start ≤ o)).map fun o => (o, x.number)
  found.foldl (fun (m : Option (Nat × Nat)) p => match m with
    | none => some p
    | some q => if p.1 < q.1 then some p else some q) none

/-- Forward a written-back sector to the reserved regions whose R or RW records cover it (19 R309): a clean copy in the
anchor tile, if it has a CACHE bank. -/
def State.forward (s : State) (a : Activation) (number : Nat) : State :=
  let x : Sector := { number := number, bank := 0, data := 0 }
  let takes (f : Entry) : Bool :=
    f.asid = a.entry.asid && f.reserved.isSome &&
    touches ((f.regions.filter fun r => r.mode = 0 || r.mode = 2).flatMap fun r => s.rangePages f.asid r.base r.extent) x
  (s.sched.entries.filter takes).foldl (fun s f => match f.reserved with
    | none => s
    | some (d, x0, y0) =>
      let b : Activation := { entry := f, die := d, x0 := x0, y0 := y0 }
      match b.memTiles.find? fun t => t = b.anchor with
      | none => s
      | some t =>
        if (s.tile t).cacheBanks.isEmpty then s
        else
          let y := s.tile t
          ((s.putTile t { y with cache := y.cache.filter fun z => z.number ≠ number }).allocate t number f.asid 0).1) s

/-- One step of a release walk: the next dirty sector of the record is written back and marked clean; then the next record;
after the last one the counters fall and the permit returns (21 R341). A walk that is to be pre-empted pauses between records.
-/
def State.walkOn (s : State) (a : Activation) : Option State :=
  if a.victim.isSome && a.walkSector = 0 then none
  else match a.records[a.walkRecord]? with
    | none =>
      let s := s.putActivation { a with phase := .walked, permit := 0, asks := [] }
      some (s.lowerCounters a.entry.asid a.entry.record)
    | some r =>
      let next := s.putActivation { a with walkRecord := a.walkRecord + 1, walkSector := 0 }
      if r.mode ≠ 1 && r.mode ≠ 2 then some next
      else match s.nextDirty a r a.walkSector with
        | none => some next
        | some (offset, number) =>
          let s := s.putActivation { a with walkSector := offset + 1 }
          let s := a.memTiles.foldl (fun s t => match findSector (s.tile t).cache number with
            | some x => if x.mask = 0 then s else cleanSector s t x
            | none => s) s
          some (s.forward a number)

/-! ## The stop of a cancelled activation (18 R298; 19 R316; 23 R365) -/

/-- Nothing of a cancelled activation executes: its elements are at block boundaries, its sequencers at step boundaries,
and no engine without rows runs a command of it. A match that is tried again after a mismatch must end first, but for a kill (26
R411). -/
def State.hasStopped (s : State) (a : Activation) : Bool :=
  a.phase = .saved ||
  ((a.elements.all fun e =>
      let x := s.element e
      (match x.block with
       | some b => b.colour.toNat ≠ a.colour
       | none => true) && (a.code = 0x67 || (s.retryOf x).isNone)) &&
    a.seq.step.isNone && (a.memTiles.all fun t => (s.tile t).stream.step.isNone) && !s.rowlessRuns a.colour &&
    (a.code = 0x67 || !s.workRetried a.colour))

/-- A colour has collective commands. -/
def State.collects (s : State) (colour : Nat) : Bool := s.links.any fun p => p.2.commands.any fun c => c.colour = colour
/-- The collective commands of a colour stop: they abort their peers and leave the chains of the link regions (23 R365). -/
def State.abortCollectives (s : State) (colour : Nat) : State :=
  let aborts : List WeltSend := s.links.flatMap fun p => (p.2.commands.filter fun c => c.colour = colour).flatMap abortsOf
  let s := s.sendWelt aborts
  { s with
    links := s.links.map fun p => (p.1, p.2.without fun c => c.colour = colour),
    memory := { s.memory with additions := s.memory.additions.filter fun d => match d.2.adder with
      | .collective .. => d.2.colour ≠ colour
      | _ => true } }

/-- The commands of a colour leave the chains of the spill engines and of the link regions. -/
def State.dropCommands (s : State) (colour : Nat) : State :=
  let s := s.abortCollectives colour
  { s with
    chains := s.chains.map fun c =>
      if c.commands.any (fun k => k.colour = colour) then
        let rest := c.commands.filter fun k => k.colour ≠ colour
        let stays := rest.any fun k => k.phase = .faulted
        { c with commands := rest, stopped := stays, held := if stays then c.held else none }
      else c,
    memory := { s.memory with additions := s.memory.additions.filter fun d => match d.2.adder with
      | .engine .. => d.2.colour ≠ colour
      | _ => true } }

/-- The entry of a killed activation that runs again from its start, at the head of its level (19 R316). -/
def rerunEntry (now : Nat) (a : Activation) : Entry := { a.entry with
  die := a.die, rerun := true, resumes := none, since := now, gained := 0, failedAt := none, starved := false,
  counted := false, reserved := none, claim := none, pending := false }

/-- The end of a cancelled activation: no walk, its sectors invalidated, its colour purged, and its counters fall unless it
runs again. The copy of a pair that is not the primary leaves without a record. -/
def State.endCancelled (s : State) (a : Activation) : Option State :=
  let again := a.restarts && (s.marked a.entry.asid a.entry.record).isNone
  let records := a.role ≠ .shadow && !again
  if records && s.ringFull a.entry.asid then none
  else
    let s := if records then s.recordCompletion a (if a.code = 0 then 0x66 else a.code) else s
    let s := s.dropCommands a.colour
    let s := if a.phase = .saved then s.mapSched fun c => { c with
        entries := c.entries.filter fun e => e.resumes ≠ some a.colour }
      else s.invalidateCaches a
    let s := s.leave a
    if a.role = .shadow then some s
    else if again then some (s.mapSched fun c => { c with entries := rerunEntry s.cycle a :: c.entries })
    else some (s.lowerCounters a.entry.asid a.entry.record)

/-- A kill or a cancel of one copy of a pair stops the other one. -/
def State.pairToStop (s : State) (a : Activation) : Option Activation :=
  if a.isPair then (s.activation a.partner).bind fun b => if b.cancelled then none else some b else none

/-! ## ACTIVATION_COMPLETION -/

/-- After DONE, the region is quiet, every engine command has completed, every addition has been made, and nothing is held (18
R297, step 1; 20 R319). -/
def State.endReached (s : State) (a : Activation) : Bool :=
  a.phase = .finishing && !a.cancelled && a.victim.isNone && s.isQuiet a && !s.stepAdds a && !s.commandsOpen a &&
  (s.heldFaults a).isEmpty && a.late.isNone && a.seq.lateAccess.isEmpty && a.memTiles.all fun t => (s.tile t).stream.lateAccess.isEmpty

/-- ACTIVATION_COMPLETION: the next step of an activation's end. After DONE it waits for its quiet region and its commands,
walks, lets its counters fall, writes its record and is purged; a cancelled one stops, its collective commands first, once no second
attempt of one is under way (26 R411). -/
def execActivationCompletion (colour : Nat) (s : State) : Result :=
  match s.activation colour with
  | none => .fault .notEnabled
  | some a =>
    if a.phase = .walked then
      occurs (!s.ringFull a.entry.asid) ((s.recordCompletion a a.code).leave a)
    else if a.cancelled then match s.pairToStop a with
      | some b => .next (s.putActivation { b with cancelled := true, code := a.code, restarts := a.restarts })
      | none =>
        if s.collects colour && (a.code = 0x67 || !s.combineRetried colour) then .next (s.abortCollectives colour)
        else if s.hasStopped a then occursIf (s.endCancelled a) else .fault .notEnabled
    else match a.phase with
      | .finishing => occurs (!a.isPair && s.endReached a)
          (s.putActivation { a with phase := .walking, walkRecord := 0, walkSector := 0 })
      | .walking => occursIf (s.walkOn a)
      | _ => .fault .notEnabled

/-! ## REDUNDANT_COMPARISON (19 R317; 26 R414) -/

/-- REDUNDANT_COMPARISON: equal digests let the primary walk and the shadow leave; unequal ones kill both. -/
def execRedundantComparison (colour : Nat) (s : State) : Result :=
  match s.activation colour with
  | none => .fault .notEnabled
  | some a => match s.activation a.partner with
    | none => .fault .notEnabled
    | some b =>
      if a.role ≠ .primary || !s.endReached a || !s.endReached b then .fault .notEnabled
      else if a.digestA = b.digestA && a.digestB = b.digestB then
        .next (((s.putActivation { a with phase := .walking, compared := true, walkRecord := 0, walkSector := 0 }).invalidateCaches
          b).leave b)
      else
        let s := s.blackBox 0x06 [(12, 2, colour), (16, 8, a.digestA.toNat), (24, 8, b.digestA.toNat)]
        .next ((s.killByColour colour).killByColour b.colour)

end Sys2Proof.Machine
end

