-- ==== Sys2Proof/Machine/CopyEngine.lean ====
section
/-! DEFINITION. The copy engine: COPY, GATHER and SCATTER with their refusals, conversions and rows (14 R226 to R233; 16
R261, R262). -/
namespace Sys2Proof.Machine

/-! ## Parameter blocks (14 R226, R227; 16 R261) -/

/-- What a block says of its elements: the conversion, its exponent and the element sizes in bytes. -/
structure Conv where
  code : Nat
  scale : Int
  es : Nat
  ed : Nat
  deriving DecidableEq, Repr

def Command.control (k : Command) : Nat := k.field 0 4
/-- The element sizes of the conversions 1 to 7 (14 R229). -/
def convSizes : List (Nat × Nat) := [(2, 1), (2, 1), (4, 2), (4, 1), (4, 1), (2, 4), (1, 2)]
def Command.conv (k : Command) : Conv :=
  let c := k.control
  let code := slice c 11 8
  let sizes := if code = 0 then (2 ^ slice c 14 12, 2 ^ slice c 14 12) else convSizes.getD (code - 1) (1, 1)
  { code := code, scale := signedOf 8 (slice c 23 16), es := sizes.1, ed := sizes.2 }

/-- VERSION, the reserved fields and codes of a control word, SCALE and ESIZE (14 R231). -/
def controlGood (c : Nat) : Bool :=
  let code := slice c 11 8
  slice c 3 0 = 1 && slice c 7 7 = 0 && slice c 15 15 = 0 && slice c 31 24 = 0 && code ≤ 7 &&
  (if code = 0 then slice c 14 12 ≤ 3 && slice c 23 16 = 0 else slice c 14 12 = 0)

def Command.levels (k : Command) : Nat := slice k.control 5 4
def Command.transposes (k : Command) : Bool := slice k.control 6 6 = 1
/-- The count of level l of COPY, 1 where the level is unused (14 R228). -/
def Command.extentOf (k : Command) (l : Nat) : Nat :=
  if l = 0 then k.field 4 4 else if l ≤ k.levels then k.field (0x1E + 2 * l) 2 else 1
/-- The source and destination strides of level l. -/
def Command.sourceStride (k : Command) (l : Nat) : Int := k.signedWord (0x20 + 8 * l)
def Command.destStride (k : Command) (l : Nat) : Int := k.signedWord (0x24 + 8 * l)
def Command.source (k : Command) : Nat := k.field 8 8
def Command.dest (k : Command) : Nat := k.field 0x10 8
def Command.fromScratch (k : Command) : Bool := k.field 0x18 4 / 2 % 2 = 1
def Command.toScratch (k : Command) : Bool := k.field 0x18 4 % 2 = 1
def Command.edge0 (k : Command) : Nat := k.field 0x1A 2
def Command.edge1 (k : Command) : Nat := k.field 0x26 2

/-- The source elements of a row that lie within the tensor: the first `insideCount`, or none. -/
def Command.insideCount (k : Command) (i1 : Nat) : Nat :=
  if k.edge1 ≠ 0 ∧ k.edge1 ≤ i1 then 0
  else if k.edge0 = 0 then k.extentOf 0 else min k.edge0 (k.extentOf 0)

/-- Row r of COPY as the tuple (i1, i2, i3). -/
def Command.tuple (k : Command) (r : Nat) : Nat × Nat × Nat :=
  (r % k.extentOf 1, r / k.extentOf 1 % k.extentOf 2, r / (k.extentOf 1 * k.extentOf 2))
def Command.copyRows (k : Command) : Nat := k.extentOf 1 * k.extentOf 2 * k.extentOf 3

/-- The source address of a row's first element, and the destination address of its element i0 (14 R228). -/
def Command.sourceAt (k : Command) (t : Nat × Nat × Nat) : Int :=
  k.source + t.1 * k.sourceStride 1 + t.2.1 * k.sourceStride 2 + t.2.2 * k.sourceStride 3
def Command.destAt (k : Command) (t : Nat × Nat × Nat) (i0 : Nat) : Int :=
  let outer := k.dest + t.2.1 * k.destStride 2 + t.2.2 * k.destStride 3
  if k.transposes then outer + t.1 * k.conv.ed + i0 * k.destStride 1 else outer + i0 * k.conv.ed + t.1 * k.destStride 1

/-- The lowest and the highest offset of terms that each run from 0 to (count − 1) × stride. -/
def spanOf (terms : List (Nat × Int)) : Int × Int :=
  terms.foldl (fun m t =>
    let x := ((t.1 : Int) - 1) * t.2
    (m.1 + min 0 x, m.2 + max 0 x)) (0, 0)

/-- Some element of `e` bytes, whose address is the sum of terms that each run from 0 to (count − 1) × stride from a base, has a
byte in [lo, hi). Of each term only the values count from which the terms after it reach the interval. -/
def spanMeets (e lo hi : Int) : List (Nat × Int) → Int → Bool
  | [], x => decide (x < hi ∧ lo < x + e)
  | (n, d) :: ts, x =>
    if d = 0 then spanMeets e lo hi ts x
    else
      let x := if d < 0 then x + ((n : Int) - 1) * d else x
      let w : Int := d.natAbs
      let m := spanOf ts
      let first := max 0 ((lo - x - m.2 - e) / w + 1)
      let last := min ((n : Int) - 1) ((hi - x - m.1 - 1) / w)
      (List.range (last + 1 - first).toNat).any fun j => spanMeets e lo hi ts (x + (first + j) * w)

/-- A scratch side touches only SCRATCH banks of the region (14 R231): a bank between its elements does not count. -/
def State.spanGood (s : State) (a : Activation) (base : Int) (terms : List (Nat × Int)) (e : Nat) : Bool :=
  let m := spanOf terms
  decide (0 ≤ base + m.1) && decide (base + m.2 + e ≤ ((a.memTiles.length * 2 ^ 20 : Nat) : Int)) &&
  a.memTiles.zipIdx.all fun t => (List.range 16).all fun b =>
    let lo : Int := ((2 ^ 20 * t.2 + 65536 * b : Nat) : Int)
    s.inScratch t.1 (65536 * b) || !spanMeets e lo (lo + 65536) terms base

/-- The levels that a COPY uses above level 0. -/
def Command.usedLevels (k : Command) : List Nat := (List.range k.levels).map (· + 1)

/-- The refusals of COPY (14 R231). -/
def copyGood (s : State) (a : Activation) (k : Command) : Bool :=
  let c := k.conv
  let n1 := (k.extentOf 1)
  let inner := k.insideCount 0
  let srcTerms := (inner, (c.es : Int)) :: (if k.edge1 ≠ 0 then min k.edge1 n1 else n1, k.sourceStride 1) ::
    [2, 3].map fun l => (k.extentOf l, k.sourceStride l)
  let dstTerms := (if k.transposes then [(k.extentOf 0, k.destStride 1), (n1, (c.ed : Int))]
    else [(k.extentOf 0, (c.ed : Int)), (n1, k.destStride 1)]) ++ [2, 3].map fun l => (k.extentOf l, k.destStride l)
  let strides (f : Nat → Int) (e : Nat) : Bool := k.usedLevels.all fun l => f l % e = 0
  controlGood k.control && slice (k.field 0x18 4) 15 2 = 0 && !(k.transposes && k.levels = 0) &&
  ((0 :: k.usedLevels).all fun l => k.extentOf l ≠ 0) &&
  k.source % c.es = 0 && k.dest % c.ed = 0 && strides k.sourceStride c.es && strides k.destStride c.ed &&
  (!k.fromScratch || s.spanGood a k.source srcTerms.reverse c.es) &&
  (!k.toScratch || s.spanGood a k.dest dstTerms.reverse c.ed)

/-- The fields of GATHER and SCATTER (16 R261). -/
def Command.indexScratch (k : Command) : Bool := k.field 0x18 4 / 4 % 2 = 1
def Command.indexList (k : Command) : Nat := k.field 0x20 8
def Command.rowCount (k : Command) : Nat := k.field 0x28 4
def Command.bound (k : Command) : Nat := k.field 0x2C 4
def Command.rowStride (k : Command) (isSource : Bool) : Int := k.signedWord (if isSource then 0x30 else 0x34)

/-- The rows that the indices choose lie in a scratch side: the source of GATHER, the destination of SCATTER. -/
def Command.choosesScratch (k : Command) : Bool := if k.record.fn = 1 then k.fromScratch else k.toScratch

/-- The scratch rows that a list of indices chooses lie in the region's SCRATCH banks (14 R231; 16 R261). -/
def rowsGood (s : State) (a : Activation) (k : Command) (list : List Byte) : Bool :=
  let gathers := decide (k.record.fn = 1)
  let base := if gathers then k.source else k.dest
  let e := if gathers then k.conv.es else k.conv.ed
  (List.range k.rowCount).all fun i =>
    let x := natOfBytes ((list.drop (4 * i)).take 4)
    let at_ : Int := base + x * k.rowStride gathers
    (k.bound ≠ 0 && decide (k.bound ≤ x)) || (decide (0 ≤ at_) && s.scratchGood a at_.toNat (e * k.extentOf 0))

/-- The refusals of GATHER and SCATTER that need no index (16 R261). -/
def gatherGood (s : State) (a : Activation) (k : Command) : Bool :=
  let c := k.conv
  let gathers := k.record.fn = 1
  let direct (isSource : Bool) (base e : Nat) : Bool :=
    s.spanGood a base [(k.rowCount, k.rowStride isSource), (k.extentOf 0, (e : Int))] e
  controlGood k.control && k.levels = 0 && !k.transposes && k.field 0x18 4 < 8 && k.field 0x38 8 = 0 &&
  k.extentOf 0 ≠ 0 && k.rowCount ≠ 0 &&
  k.source % c.es = 0 && k.dest % c.ed = 0 && k.rowStride true % c.es = 0 && k.rowStride false % c.ed = 0 &&
  (!k.fromScratch || gathers || direct true k.source c.es) && (!k.toScratch || !gathers || direct false k.dest c.ed) &&
  (!k.indexScratch || s.scratchGood a k.indexList (4 * k.rowCount))

def copyParameter : FaultInfo := { code := 0x50 }

/-! ## Conversions (14 R229) -/

/-- A value times 2^e. -/
def FVal.scaled (v : FVal) (e : Int) : FVal :=
  match v with
  | .fin n m x => .fin n m (x + e)
  | v => v

/-- The formats of a conversion: source and destination. -/
def convFormats (code : Nat) : Fmt × Fmt :=
  ([(fmtBf16, fmtE4m3), (fmtBf16, fmtE5m2), (fmtF32, fmtBf16), (fmtF32, fmtE4m3), (fmtF32, fmtE5m2), (fmtBf16, fmtF32),
    (fmtE4m3, fmtBf16)] : List (Fmt × Fmt)).getD (code - 1) (fmtF32, fmtF32)

/-- One element converted: the exact product with 2^e rounded once, and its events. -/
def Conv.apply (c : Conv) (bits : Nat) : Nat × Word :=
  if c.code = 0 then (bits, 0)
  else
    let f := convFormats c.code
    let v := f.1.value bits
    let r := f.2.encode .rne (v.scaled c.scale)
    (r.1, r.2 ||| nvIf v.isSignalling)

/-- The destination bytes of a row's elements, in order, and the events: elements beyond the source bytes are zero. -/
def Conv.row (c : Conv) (n : Nat) (bs : List Byte) : List (List Byte) × Word :=
  let rs := (List.range n).map fun i =>
    if c.es * i < bs.length then c.apply (natOfBytes ((bs.drop (c.es * i)).take c.es)) else (0, 0)
  (rs.map fun r => leBytes c.ed r.1, rs.foldl (fun e r => e ||| r.2) 0)

/-! ## Rows -/

/-- Where each destination element of a row goes: its address with its pieces, or the whole row where it is contiguous. -/
def State.reachAll (s : State) (a : Activation) (scratch : Bool) : List (Int × Nat) → Tried (List (Int × Nat × List Piece))
  | [] => (s, .ok [])
  | (at_, n) :: rest => andThen (s.sideReach a 0 scratch .write at_ n) fun s ps =>
    andThen (s.reachAll a scratch rest) fun s more => (s, .ok ((at_, n, ps) :: more))

/-- Ready the LLC for all the checked ranges of a row (16 R262). -/
def State.settleAll (s : State) (a : Activation) : List (Int × Nat × List Piece) → Tried Unit
  | [] => (s, .ok ())
  | (at_, _, ps) :: rest => andThen (s.settlePieces a (deviceAddress at_) ps) fun s _ => s.settleAll a rest

/-- Write bytes over checked ranges in order. -/
def State.storeAll (s : State) (a : Activation) (scratch : Bool) : List (Int × Nat × List Piece) → List Byte → Tried Unit
  | [], _ => (s, .ok ())
  | (at_, n, ps) :: rest, bs =>
    andThen (s.sideStore a scratch at_ (bs.take n) ps) fun s _ => s.storeAll a scratch rest (bs.drop n)

/-- One row: check every source byte and every destination byte, read, convert, write (16 R262). -/
def State.moveRow (s : State) (a : Activation) (tile : Nat) (k : Command) (n inside : Nat) (src : Int)
    (dst : List (Int × Nat)) : Tried Unit :=
  let c := k.conv
  andThen (if inside = 0 then (s, .ok []) else s.sideReach a 0 k.fromScratch .read src (inside * c.es)) fun s from_ =>
  andThen (s.reachAll a k.toScratch dst) fun s to_ =>
  andThen (if inside = 0 then (s, .ok []) else s.sideLoad a k.fromScratch src (inside * c.es) from_) fun s bs =>
    let r := c.row n bs
    andThen (s.settleAll a to_) fun s _ =>
    andThen (s.storeAll a k.toScratch to_ r.1.flatten) fun s _ => (s.raiseEvents k.colour tile r.2.toNat, .ok ())

/-- COPY_ROW (14 R228): the next source row, the tuple (i3, i2, i1) with i1 fastest. -/
def execCopyRow (c : ChainId) (place : Nat) (s : State) : Result :=
  onCommand c place s (fun r => r.engine = 0 && r.fn = 0) fun s a k =>
    let t := k.tuple k.row
    let n := k.extentOf 0
    let ed := k.conv.ed
    let dst := if k.transposes then (List.range n).map fun i => (k.destAt t i, ed) else [(k.destAt t 0, n * ed)]
    andThen (onRow k.row (s.moveRow a c.tile k n (k.insideCount t.1) (k.sourceAt t) dst)) fun s _ =>
      (s, .ok (k.rowDone k.copyRows (n * ed)))

/-- GATHER_SCATTER_ROW (16 R261): the row of the next index. A gather beyond the bound writes zeros, a scatter beyond it
moves nothing. -/
def execGatherScatterRow (c : ChainId) (place : Nat) (s : State) : Result :=
  onCommand c place s (fun r => r.engine = 0 && (r.fn = 1 || r.fn = 2)) fun s a k =>
    let i := k.row
    let n := k.extentOf 0
    let ed := k.conv.ed
    let src (r : Nat) : Int := k.source + r * k.rowStride true
    let dst (r : Nat) : Int := k.dest + r * k.rowStride false
    andThen (onRow i (s.sideRead a 0 k.indexScratch ((k.indexList : Int) + 4 * i) 4)) fun s ib =>
      let x := natOfBytes ib
      let beyond := decide (k.bound ≠ 0 ∧ k.bound ≤ x)
      if k.record.fn = 1 then
        andThen (onRow i (s.moveRow a c.tile k n (if beyond then 0 else n) (src x) [(dst i, n * ed)])) fun s _ =>
          (s, .ok (k.rowDone k.rowCount (n * ed)))
      else if beyond then (s, .ok (k.rowDone k.rowCount 0))
      else andThen (onRow i (s.moveRow a c.tile k n n (src i) [(dst x, n * ed)])) fun s _ =>
        (s, .ok (k.rowDone k.rowCount (n * ed)))

end Sys2Proof.Machine
end

