-- ==== Sys2Proof/Machine/ElementMemory.lean ====
section
/-! DEFINITION. The memory instructions of the elements: addresses, the checks of a staged request, and the requests they
stage (16 R247 to R254; 19 R303, R304). -/
namespace Sys2Proof.Machine

/-- The address an element names: its space and the offset or device virtual address (16 R247). -/
def elementAddress (raw align : Nat) (u : RecordUse) : Except FaultInfo (Bool × Nat) :=
  let scratch := raw / 2 ^ 63 = 0
  let a := raw % 2 ^ 48
  if slice raw 62 48 ≠ 0 ∨ (scratch ∧ 2 ^ 40 ≤ a) then
    .error { code := 0x20, flags := useFlags u, address := BitVec.ofNat 64 raw }
  else if a % align ≠ 0 then .error { code := 0x21, flags := useFlags u, address := BitVec.ofNat 64 a }
  else .ok (scratch, a)

/-- The 64-bit address in bytes 0 to 7 of a temporary. -/
def Block.addressTemp (b : Block) (t : Nat) : Nat := (b.temp t).toNat % 2 ^ 64

/-- Check one piece of a request that does not cross a page, and complete it with its physical address, memory type and
full-empty attribute (16 R247, R249; 25 R392). -/
def checkPiece (s : State) (b : Block) (u : RecordUse) (needsFullEmpty scratch : Bool) (a : Nat) (r : MemRequest) :
    Except FaultInfo (State × MemRequest) :=
  match s.activation b.colour.toNat with
  | none => .error { code := 0x23, flags := useFlags u, address := BitVec.ofNat 64 a }
  | some act =>
    if scratch then
      if s.scratchGood act a r.size = false then
        .error { code := 0x22, flags := useFlags u, address := BitVec.ofNat 64 a }
      else if needsFullEmpty then .error { code := 0x25, flags := useFlags u, address := BitVec.ofNat 64 a }
      else .ok (s, { r with scratch := true, va := a, address := a })
    else match checkAccess s act u a r.size with
      | .error f => .error f
      | .ok l =>
        if needsFullEmpty && !l.fullEmpty then
          .error { code := 0x25, flags := useFlags u, address := BitVec.ofNat 64 a }
        else .ok (s.cacheLeaf act.entry.asid a l,
          { r with va := a, address := l.pa, mtype := l.mtype, fullEmpty := l.fullEmpty })

/-- The request of an instruction before its address is known. -/
def Block.request (b : Block) (op : MemOp) (mport size scope : Nat) (data : Vec) (reply : Option (BitVec 5)) : MemRequest :=
  { op := op, mport := mport, size := size, data := data, scope := scope, reply := reply, ctx := b.ctx,
    colour := b.colour, iter := b.iter, entry := b.entry, word := b.word }

def Block.stage (b : Block) (e : BlockEffect) : Block := { b with effects := b.effects ++ [e] }

/-- Check and stage a run of pieces of up to 256 bytes from an address. -/
def stagePieces (b0 : Block) (u : RecordUse) (scratch : Bool) :
    State → Block → List (Nat × MemRequest) → Except FaultInfo (State × Block)
  | s, b, [] => .ok (s, b)
  | s, b, (a, r) :: rest =>
    match checkPiece s b0 u false scratch a r with
    | .error f => .error f
    | .ok (s', r') => stagePieces b0 u scratch s' (b.stage (.request r')) rest

/-- Bytes of the size codes 0 to 5 (05 R76). -/
def sizeBytes (c : BitVec 3) : Nat :=
  match c.toNat with
  | 0 => 1
  | 1 => 2
  | 2 => 4
  | 3 => 8
  | 4 => 32
  | _ => 256
/-- The width in which an extension word fills a data source of a size (05 R73). As data of 8, 32 or 256 bytes it fills every
32-bit word (DESIGN CHOICE, log 61: R73 names types of 8, 16 and 32 bits). -/
def extWidth (c : BitVec 3) : Nat :=
  match c.toNat with
  | 0 => 8
  | 1 => 16
  | _ => 32
def emWords (o : EM) : Nat := 1 + (if o.src = 15 then 1 else 0)
def emData (o : EM) (b : Block) : Vec := sourceVec b o.src o.ext (extWidth o.size)

/-- Stage one access of an element at the address in its address temporary (16 R248, R251, R254). -/
def stageAccess (s : State) (o : EM) (op : MemOp) (u : RecordUse) (size align : Nat) (needsFullEmpty replies : Bool) : Result :=
  inBlockWith s (emWords o) fun s _ b =>
    match elementAddress (b.addressTemp o.addr.toNat) align u with
    | .error f => .error f
    | .ok (scratch, a) =>
      let r := b.request op o.mport.toNat size o.scope.toNat (emData o b) (if replies then some o.chan else none)
      match checkPiece s b u needsFullEmpty scratch a r with
      | .error f => .error f
      | .ok (s', r') => .ok (s', b.stage (.request r'))

def execMld (o : EM) (s : State) : Result :=
  stageAccess s o (.load (o.variant.getLsbD 2)) .read (sizeBytes o.size) (sizeBytes o.size) false true
def execMst (o : EM) (s : State) : Result :=
  stageAccess s o .store .write (sizeBytes o.size) (sizeBytes o.size) false (o.variant.getLsbD 0)
def execMtake (o : EM) (s : State) : Result :=
  stageAccess s o (.take (o.variant.getLsbD 2)) .take (sizeBytes o.size) (sizeBytes o.size) true true
def execMfill (o : EM) (s : State) : Result :=
  stageAccess s o .fill .fill (sizeBytes o.size) (sizeBytes o.size) true (o.variant.getLsbD 0)
def execMatom (o : EM) (s : State) : Result :=
  stageAccess s o (.atom (slice o.variant.toNat 4 1)) .atomic (sizeBytes o.size) (sizeBytes o.size) false true

/-- MFENCE holds the element's later requests; it names no address (16 R253). -/
def execMfence (o : EM) (s : State) : Result :=
  inBlock s 1 fun _ _ b => .ok (b.stage (.request
    (b.request .fence o.mport.toNat 0 o.scope.toNat 0 (if o.variant.getLsbD 0 then some o.chan else none))))

/-- EYADD of an element: a count for an eyelet, aligned to 16 (16 R254). -/
def execEyaddElement (o : EM) (s : State) : Result :=
  stageAccess s o .eyadd .atomic 16 16 false (o.variant.getLsbD 0)

end Sys2Proof.Machine
end

