-- ==== Sys2Proof/Machine/StackEvents.lean ====
section
/-! DEFINITION. The spill engines: PUSHT and POPT as they are served, spills and returns (15 R243, R244; 16 R274, R275). -/
namespace Sys2Proof.Machine

/-- The first free blocks of an area of a size for an entry, where the entries that pass hold blocks by a field (log 23). -/
def freeBlocks (held : StackEntry → List Nat) (l : List StackEntry) (size len : Nat) : List Nat :=
  let used := l.flatMap held
  ((List.range (size / 256)).filter fun b => !used.contains b).take (occupied len / 256)
/-- Enough blocks for an entry. -/
def enough (bs : List Nat) (len : Nat) : Bool := bs.length = occupied len / 256

/-- The runs of addresses that an entry's bytes take in the blocks of an area: offset within the entry, address, length. -/
def blockRuns (base : Nat) (blocks : List Nat) (n : Nat) : List (Nat × Nat × Nat) :=
  blocks.zipIdx.map fun b => (256 * b.2, base + 256 * b.1, min 256 (n - 256 * b.2))

/-- The fault that the blocks of an area give: a part that is not ready, or a retired frame (24 R377; 26 R419). -/
def State.areaFault (s : State) (base : Nat) (blocks : List Nat) : Option (BitVec 8) :=
  if blocks.any fun b => !s.tierReady (base + 256 * b) then some 0x24
  else if blocks.any fun b => s.retired (base + 256 * b) then some 0x26
  else none

/-- Bytes of a ring or spill area, or the fault of reading them. -/
def State.areaRead (s : State) (base : Nat) (blocks : List Nat) (n : Nat) : State × Except (BitVec 8) (List Byte) :=
  match s.areaFault base blocks with
  | some c => (s, .error c)
  | none =>
    let s := (blockRuns base blocks n).foldl (fun s r => (s.llcRead r.2.1 r.2.2).1) s
    if s.halted then (s, .error 0x26)
    else match s.areaFault base blocks with
      | some c => (s, .error c)
      | none => (s, .ok ((blockRuns base blocks n).flatMap fun r => s.physBytes r.2.1 r.2.2))

/-- Write bytes to a ring or spill area at the LLC: every tile cache drops what it holds of them (17 R281). -/
def State.areaWrite (s : State) (asid base : Nat) (blocks : List Nat) (bs : List Byte) : State :=
  (blockRuns base blocks bs.length).foldl (fun s r =>
    (s.tiles.foldl (fun s t => s.flushRange t.1 r.2.1 r.2.2) s).llcPut asid r.2.1 ((bs.drop r.1).take r.2.2)) s

/-- Move bytes to a ring or spill area; the fault of a part that is not ready or of a frame that is retired, before or by the write
(24 R375, R377; 26 R419). -/
def State.areaMove (s : State) (asid base : Nat) (blocks : List Nat) (bs : List Byte) : State × Option (BitVec 8) :=
  match s.areaFault base blocks with
  | some c => (s, some c)
  | none =>
    let s := s.areaWrite asid base blocks bs
    (s, s.areaFault base blocks)

/-- The spill engine reads a context's descriptor (15 R243): the errors of its pieces are met, and a part that is not ready or a
retired frame is a fault. -/
def State.meetStack (s : State) (asid : Nat) : State × Option (BitVec 8) :=
  let at_ := s.host.stkbase.toNat + 64 * asid
  if !s.tierReady at_ then (s, some 0x24)
  else
    let s := s.meetRange at_ 64
    (s, if s.retired at_ then some 0x26 else none)

/-- The spill engine of a die is ready (26 R419). -/
def State.spillReady (s : State) (die : Nat) : Bool := s.host.rdys.getLsbD (7 + die)

/-- Every command of a chain before a place has been served. -/
def servedBefore (c : Chain) (place : Nat) : Bool :=
  c.commands.all fun k => place ≤ k.place || k.phase = .moved || k.phase = .adding || k.phase = .completed

/-- A stack command that has moved its bytes (16 R274). -/
def Command.stackDone (k : Command) (n : Nat) : Command := { k with phase := .moved, row := 1, owed := n }

/-- A stack access of a command that meets a fault of the ring or of the descriptor (24 R377; 26 R419). -/
def ringFault (code : BitVec 8) (u : RecordUse) (k : Command) : FaultInfo :=
  { code := code, flags := useFlags u, address := k.record.parameter }

/-- PUSHT: the bytes go onto the top of the context's stack. -/
def pushStack (s : State) (a : Activation) (k : Command) : Tried Command :=
  let asid := a.entry.asid
  match s.meetStack asid with
  | (s, some c) => (s, .error (ringFault c .write k))
  | (s, none) =>
    let d := s.stackDesc asid
    let n := k.record.auxiliary.toNat
    let l := s.stack asid
    andThen (s.sideRead a 5 (k.record.flags.getLsbD 0) (k.record.parameter.toNat : Int) n) fun s bs =>
      let blocks := freeBlocks (·.ring) l d.hsize n
      match s.areaMove asid d.hbase blocks bs with
      | (s, some c) => (s, .error (ringFault c .write k))
      | (s, none) => (s.putStack asid (l ++ [{ length := n, ring := blocks }]), .ok (k.stackDone n))

/-- POPT of an entry whose bytes are in HBM: they go to the destination, and the entry leaves the stack. -/
def popStack (s : State) (a : Activation) (k : Command) (e : StackEntry) : Tried Command :=
  let asid := a.entry.asid
  match s.meetStack asid with
  | (s, some c) => (s, .error (ringFault c .read k))
  | (s, none) =>
    let d := s.stackDesc asid
    let l := s.stack asid
    let va := k.record.parameter.toNat
    if k.record.auxiliary ≠ 0 ∧ k.record.auxiliary.toNat ≠ e.length then
      (s, .error { code := 0x5B, address := k.record.parameter })
    else andThen (s.engineReach a 5 .write va e.length) fun s ps =>
      if ps.any fun p => !isHbm p.2.1.pa then (s, .error { code := 0x24, flags := 8, address := k.record.parameter })
      else match s.areaRead d.hbase e.ring e.length with
        | (s, .error c) => (s, .error (ringFault c .read k))
        | (s, .ok bs) => andThen (s.storePieces a va bs ps) fun s _ =>
          (s.putStack asid l.dropLast, .ok (k.stackDone e.length))

/-- The bottom-most RESIDENT entry below the top. -/
def spillCandidate (l : List StackEntry) : Option Nat := l.dropLast.findIdx? fun e => e.state = .resident

/-- STACK_COMMAND: the oldest command of a context's spill chain that has not been served. A PUSHT has been checked at its step; the
returns leave it its room, and it waits where it finds none (log 23). A POPT of a SPILLED entry makes it return, and waits; a POPT of a SPILLING
entry cancels the spill. -/
def execStackCommand (c : ChainId) (place : Nat) (s : State) : Result :=
  match s.working c place with
  | none => .fault .notEnabled
  | some (a, k) =>
    let asid := a.entry.asid
    let l := s.stack asid
    if servedBefore (s.chain c) place = false then .fault .notEnabled
    else if k.record.fn = 0 then
      if ringHasRoom (s.stackDesc asid) l k.record.auxiliary.toNat then onCommand c place s (fun r => r.engine = 5) pushStack
      else .fault .notEnabled
    else match l.getLast? with
      | none => onCommand c place s (fun r => r.engine = 5) fun s _ k => (s, .error { code := 0x5A, address := k.record.parameter })
      | some e => match e.state with
        | .returning => .fault .notEnabled
        | .spilled =>
          occurs (c.engine = 5) (s.putStack asid (l.dropLast ++ [{ e with state := .returning }]))
        | _ => onCommand c place s (fun r => r.engine = 5) fun s a k => popStack s a k e

/-! ## Spills and returns (15 R244) -/

def setStackState (l : List StackEntry) (i : Nat) (st : StackState) : List StackEntry :=
  match l[i]? with
  | some e => l.set i { e with state := st }
  | none => l

/-- SPILL: above HIGH, the bottom-most RESIDENT entry starts to spill. -/
def execSpill (asid : Nat) (s : State) : Result :=
  let d := s.stackDesc asid
  let l := s.stack asid
  if d.lsize = 0 || decide (ringBytes l ≤ d.high) || l.any (fun e => e.state = .spilling) then .fault .notEnabled
  else occursIf ((spillCandidate l).map fun i => s.putStack asid (setStackState l i .spilling))

/-- SPILL_COMPLETION: the SPILLING entry is in LPDDR; the next one starts while the footprint is above LOW. A copy that meets a
fault leaves its entry RESIDENT, and one waits for the tier and for blocks that an entry on its return leaves (log 23). -/
def execSpillCompletion (asid : Nat) (s : State) : Result :=
  let d := s.stackDesc asid
  let l := s.stack asid
  match l.findIdx? fun e => e.state = .spilling with
  | none => .fault .notEnabled
  | some i => match l[i]? with
    | none => .fault .notEnabled
    | some e =>
      let blocks := freeBlocks (·.spill) l d.lsize e.length
      if s.tierReady d.lbase = false || !enough blocks e.length then .fault .notEnabled
      else match s.areaRead d.hbase e.ring e.length with
        | (s, .error _) => .next (s.putStack asid (setStackState l i .resident))
        | (s, .ok bs) =>
          let r := s.areaMove asid d.lbase blocks bs
          let l := match r.2 with
            | some _ => setStackState l i .resident
            | none => l.set i { e with state := .spilled, ring := [], spill := blocks }
          .next (r.1.putStack asid (match (if d.low < ringBytes l then spillCandidate l else none) with
            | some j => setStackState l j .spilling
            | none => l))

/-- The bytes between an entry and the top of its stack. -/
def aboveEntry (l : List StackEntry) (i : Nat) : Nat := ((l.drop (i + 1)).map fun e => occupied e.length).sum

/-- STACK_RETURN: the topmost SPILLED entry within NEAR bytes of the top starts to return: those above it are below NEAR (DESIGN
CHOICE, log 23). It leaves room for the PUSHTs that have committed, whose fault would have been exact at the step. -/
def execStackReturn (asid : Nat) (s : State) : Result :=
  let d := s.stackDesc asid
  let l := s.stack asid
  let near (i : Nat) : Bool := match l[i]? with
    | some e => e.state = .spilled && decide (aboveEntry l i < d.near) && decide (s.ringPeak asid + occupied e.length ≤ d.hsize)
    | none => false
  occursIf (((List.range l.length).reverse.find? near).map fun i => s.putStack asid (setStackState l i .returning))

/-- A return that meets a fault: the entry stays in LPDDR, and a POPT that waits for it stops its chain (24 R377; 26 R419). -/
def State.failReturn (s : State) (asid : Nat) (l : List StackEntry) (i : Nat) (code : BitVec 8) : State :=
  let s := s.putStack asid (setStackState l i .spilled)
  let popt (c : Chain) : Option (ChainId × Command) :=
    (c.commands.find? fun k => k.phase = .running && k.record.fn = 1 && servedBefore c k.place).map fun k => (c.id, k)
  match (s.chains.filter fun c => c.id.engine = 5 && c.id.owner = asid && i + 1 = l.length).findSome? popt with
  | none => s
  | some (c, k) => s.stopChain c k.place (ringFault code .read k)

/-- STACK_RETURN_COMPLETION: the topmost RETURNING entry is in HBM again, once the ring has blocks for it. -/
def execStackReturnCompletion (asid : Nat) (s : State) : Result :=
  let d := s.stackDesc asid
  let l := s.stack asid
  let returning (i : Nat) : Bool := (l[i]?.map fun e => decide (e.state = .returning)).getD false
  match (List.range l.length).reverse.find? returning with
  | none => .fault .notEnabled
  | some i => match l[i]? with
    | none => .fault .notEnabled
    | some e =>
      let blocks := freeBlocks (·.ring) l d.hsize e.length
      if !enough blocks e.length then .fault .notEnabled
      else match s.areaRead d.lbase e.spill e.length with
        | (s, .error c) => .next (s.failReturn asid l i c)
        | (s, .ok bs) => match s.areaMove asid d.hbase blocks bs with
          | (s, some c) => .next (s.failReturn asid l i c)
          | (s, none) => .next (s.putStack asid (l.set i { e with state := .resident, ring := blocks, spill := [] }))

end Sys2Proof.Machine
end

