-- ==== Sys2Proof/Machine/Tokens.lean ====
section
/-! DEFINITION. The token instructions of a block: sends, messages, and what stays at commit (13 R192 to R197). -/
namespace Sys2Proof.Machine

/-- The words of an ES instruction: colour mode 1 takes an extension word (05 R75). -/
def esWords (o : ES) : Nat := 1 + (if o.mode = 1 then 1 else 0)
def esSource (o : ES) (b : Block) : Vec := sourceVec b o.src 0 32
/-- The colour a token takes: the block's, or the extension word's (13 R192). -/
def esColour (o : ES) (b : Block) : BitVec 16 := if o.mode = 1 then o.ext.extractLsb' 0 16 else b.colour
/-- The kind of a token (13 R192). -/
def esKind (o : ES) : TokenKind :=
  if o.last = 1 then .last else if o.flags.getLsbD 1 then .conf else if o.flags.getLsbD 2 then .ctrl else .data

/-- What a block decides about the operand of a port: the last decision of the block stands (13 R197). -/
def Block.decide (b : Block) (port : Nat) (keeps : Bool) : Block := { b with keeps := b.keeps.put port keeps }
/-- A send with K retains the operand it names (13 R192). -/
def Block.keepSource (b : Block) (o : ES) : Block :=
  if o.keep = 1 then b.decide (o.src.toNat - 8) true else b

/-- The low `n` bytes of a vector, the rest zero. -/
def lowBytes (v : Vec) (n : Nat) : Vec := BitVec.ofNat 2048 (v.toNat % 2 ^ (8 * n))

def execSend (o : ES) (s : State) : Result :=
  inBlock s (esWords o) fun _ _ b =>
    let scalar := o.flags.getLsbD 0
    let t : Token :=
      { kind := esKind o, vector := !scalar, chan := o.chan, ctx := o.ctx, colour := esColour o b, iter := b.iter,
        data := if scalar then lowBytes (esSource o b) 32 else esSource o b }
    .ok ((b.stage (.send o.port.toNat t)).keepSource o)

/-- The record of a reserved bit names the destination word in its address (DESIGN CHOICE, log 28). -/
def execSendr (o : ES) (s : State) : Result :=
  inBlock s 1 fun s _ b =>
    let dest := (b.temp o.ctx.toNat).toNat % 2 ^ 64
    let f := o.flags.toNat % 8 + 1
    if (match s.activation b.colour.toNat with
        | some a => a.isPair
        | none => false) then .exc (pairFault .write (BitVec.ofNat 64 dest) (32 * f))
    else if slice dest 63 44 ≠ 0 then .exc { code := 0x42, address := BitVec.ofNat 64 dest }
    else
      let t : Token :=
        { kind := if o.last = 1 then .last else .data, vector := 1 < f, chan := BitVec.ofNat 5 (slice dest 23 19),
          ctx := BitVec.ofNat 3 (slice dest 18 16), colour := BitVec.ofNat 16 dest, iter := b.iter,
          data := lowBytes (esSource o b) (32 * f) }
      .ok ((b.stage (.message (BitVec.ofNat 64 dest) f t)).keepSource o)

def execLast (o : ES) (s : State) : Result :=
  inBlock s (esWords o) fun _ _ b =>
    .ok (b.stage (.send o.port.toNat
      { kind := .last, vector := false, chan := o.chan, ctx := o.ctx, colour := esColour o b, iter := b.iter }))

def execDrop (o : ES) (s : State) : Result := inBlock s 1 fun _ _ b => .ok (b.decide (o.src.toNat - 8) false)
def execKeep (o : ES) (s : State) : Result := inBlock s 1 fun _ _ b => .ok (b.decide (o.src.toNat - 8) true)

end Sys2Proof.Machine
end

