-- ==== Sys2Proof/Machine/Segments.lean ====
section
/-! DEFINITION. The segment, table, scale, accumulator and checksum instructions of the elements (03 R26 to R42; 10 R152 to
R169; 23 R370). -/
namespace Sys2Proof.Machine

/-! ## The context: table mode, lanes, accumulators (07 R98, 10 R153) -/

def tmodeOf (x : Element) (c : Nat) : Nat := slice (x.ctxOf c).word.toNat 12 10
def lanesMode (x : Element) (c : Nat) : Nat := slice (x.ctxOf c).word.toNat 14 13
/-- The table mode of an EG instruction: its own, or the context's (05 R77). -/
def egMode (x : Element) (b : Block) (o : EG) : Nat := if o.mode = 0 then tmodeOf x b.ctx.toNat else o.mode.toNat
/-- The columns a context covers (10 R153). -/
def columnsOf (lanes : Nat) : Nat := if lanes = 0 then 128 else 64
/-- The width of an integer accumulator (04 R50). -/
def accWidth (lanes : Nat) : Nat := if lanes = 0 then 48 else 64

/-- The cells of the accumulators: 64 bits each. -/
def accCells (a : Acc) : List Nat := (List.range 128).map fun i => a.toNat / 2 ^ (64 * i) % 2 ^ 64
def accOfCells (cs : List Nat) : Acc := BitVec.ofNat 8192 (packLanes 64 cs)
/-- A cell that holds an integer of `w` bits, sign-extended. -/
def cellOf (w n : Nat) : Nat := wrapTo 64 (signedOf w n)

/-- Row `r` of the table store, and entry S[j][n] of an ST16 or ST32 table (03 R27, R28); S[0][n] is zero. -/
def tableRow (x : Element) (r : Nat) : Vec := x.table.getD r 0
def tableEntry (x : Element) (mode j n : Nat) : Int :=
  if j = 0 then 0
  else if mode = 4 then signedOf 16 (laneNat (tableRow x (j - 1)) 16 n)
  else signedOf 32 (laneNat (tableRow x (j - 1)) 32 n)

/-- The accumulator events of a floating-point result (07 R116). -/
def accEvents (e : Word) : Word :=
  (if e.getLsbD 0 then evAof else 0) ||| (if e.getLsbD 1 then evAsat else 0) ||| (if e.getLsbD 2 then evAnv else 0)

/-! ## The cursor (10 R152, R158) -/

def segmentFault (reason w : Nat) : FaultInfo :=
  { code := 0x40, detail := BitVec.ofNat 8 reason, position := BitVec.ofNat 32 w }
/-- An integer into accumulators of FP32 kind (10 R156). -/
def kindFault : FaultInfo := { code := 0x41 }

/-- A cursor that is open under another owner or key. -/
def cursorTaken (c : Cursor) (owner : CursorOwner) (b : Block) : Bool :=
  c.isOpen && !(c.owner = owner && c.colour = b.colour && c.iter = b.iter)
/-- The cursor opened by a block. -/
def openCursor (owner : CursorOwner) (b : Block) : Cursor :=
  { isOpen := true, owner := owner, colour := b.colour, iter := b.iter }

/-! ## Trains (03 R30 to R32; 10 R156) -/

/-- What a train asks of the instruction: a step of value v at s of length L, or the end of a chunk. -/
inductive TrainItem where
  | step (v : Int) (s len : Nat)
  | close
  deriving DecidableEq, Repr

/-- One word of a train: the items it gives, the cursor and whether the token's chunk is done; or a reason. -/
def trainWord (owner : CursorOwner) (b : Block) (x : Word) (cur : Cursor) (done : Bool) :
    Except Nat (List TrainItem × Cursor × Bool) :=
  let n := x.toNat
  let left := cur.left - 1
  let shut (c : Cursor) (items : List TrainItem) : Except Nat (List TrainItem × Cursor × Bool) :=
    if c.left = 0 then .ok (items ++ [.close], { c with isOpen := false }, true) else .ok (items, c, false)
  if done then (if n ≠ 0 then .error 6 else .ok ([], cur, true))
  else if !cur.isOpen then
    if n = 0 then .ok ([], cur, false)
    else if x.getLsbD 31 then .error 7
    else
      let count := n % 2 ^ 16
      let dense := x.getLsbD 30
      if (dense ∧ count ≠ 64) ∨ (!dense ∧ 256 < count) then .error 8
      else shut { openCursor owner b with left := count, dense := dense, pprev := cur.pprev } []
  else if cur.dense then
    let items := (List.range 4).map fun k =>
      TrainItem.step (signedOf 8 (n / 2 ^ (8 * k))) (4 * (64 - cur.left) + k) 1
    shut { cur with left := left, endB := 4 * (64 - cur.left) + 4 } items
  else if !x.getLsbD 31 then .error 1
  else if slice n 29 24 ≠ 0 then .error 2
  else
    let len := slice n 23 16 + 1
    let s := slice n 15 8
    if 256 < s + len then .error 3
    else if s < cur.endB then .error 4
    else if x.getLsbD 30 ≠ (cur.left = 1) then .error 5
    else shut { cur with left := left, endB := s + len } [.step (signedOf 8 n) s len]

/-- The words of a token from word `w` on: the items in order, the cursor, and the first fault (reason, word). -/
def trainWords (owner : CursorOwner) (b : Block) :
    Nat → List Word → Cursor → Bool → List TrainItem × Cursor × Option (Nat × Nat)
  | _, [], cur, _ => ([], cur, none)
  | w, x :: xs, cur, done =>
    match trainWord owner b x cur done with
    | .error reason => ([], cur, some (reason, w))
    | .ok (items, cur', done') =>
      let r := trainWords owner b (w + 1) xs cur' done'
      (items ++ r.1, r.2)

/-- The 64 words of an operand. -/
def operandWords (b : Block) (p : Nat) : List Word := (List.range 64).map fun i => vecWord (b.operand p) i

/-! ## Steps and combinations (10 R156, R157) -/

/-- The accumulators in work: cells, kind and events. -/
structure Accs where
  cells : List Nat
  fp : Bool
  events : Word := 0
  deriving DecidableEq, Repr

/-- Add an integer to each covered column: acc48 or i64, AOF on wrap. -/
def Accs.addInts (a : Accs) (lanes : Nat) (f : Nat → Int) : Accs :=
  let n := columnsOf lanes
  let w := accWidth lanes
  let rs := (List.range n).map fun i => accAdd w (a.cells.getD i 0) (f i)
  { a with cells := (rs.map fun r => cellOf w r.1) ++ a.cells.drop n,
           events := rs.foldl (fun e r => e ||| r.2) a.events }

/-- Write FP32 results to the covered columns. -/
def Accs.writeFloats (a : Accs) (n : Nat) (f : Nat → Nat × Word) : Accs :=
  let rs := (List.range n).map f
  { cells := (rs.map (·.1)) ++ a.cells.drop n, fp := true,
    events := rs.foldl (fun e r => e ||| accEvents r.2) a.events }

/-- step(v, s, L) on the table (10 R156). -/
def Accs.step (a : Accs) (x : Element) (mode lanes : Nat) (v : Int) (s len : Nat) : Except FaultInfo Accs :=
  if a.fp then .error kindFault
  else .ok (a.addInts lanes fun n => v * (tableEntry x mode (s + len) n - tableEntry x mode s n))

/-- A slot of a partial port; a scalar token there contributes zero (10 R154). -/
def partialVec (b : Block) (p : Nat) : Option Vec :=
  match b.operands.find p with
  | some sl => if sl.token.vector then some sl.token.data else none
  | none => none
/-- Lane `n` of an integer partial: i32 with LANES 0 and i64 with LANES 1, over two ports (10 R154). -/
def intPartial (b : Block) (p lanes n : Nat) : Int :=
  let w := if lanes = 0 then 32 else 64
  let per := if lanes = 0 then 64 else 32
  match partialVec b (p + n / per) with
  | some v => signedOf w (laneNat v w (n % per))
  | none => 0
/-- Lane `n` of an FP32 partial; +0 from a scalar token. -/
def floatPartial (b : Block) (p n : Nat) : Nat :=
  match partialVec b p with
  | some v => laneNat v 32 n
  | none => 0

/-- round_rne(x × G) of an integer and an FP32 encoding (03 R40). -/
def scaleInt (x : Int) (g : Nat) : Nat × Word :=
  let r := (intVal x).mul (fmtF32.value g)
  let e := fmtF32.encode .rne r.1
  (e.1, e.2 ||| nvIf (r.2 || (fmtF32.value g).isSignalling))

/-- combine() of a CHAIN close (10 R157); `mode` is the table mode. -/
def Accs.combine (a : Accs) (x : Element) (b : Block) (o : EG) (mode lanes : Nat) : Except FaultInfo Accs :=
  let p := o.oport.toNat
  if mode = 4 ∨ mode = 2 then
    if a.fp then .error kindFault else .ok (a.addInts lanes (intPartial b p lanes))
  else if mode = 5 then
    if a.fp then .error kindFault
    else
      let g := (scaleReg x b.ctx.toNat o.g.toNat).toNat
      .ok (a.writeFloats (columnsOf lanes) fun n =>
        let c := scaleInt (signedOf 64 (a.cells.getD n 0)) g
        match partialVec b p with
        | none => c
        | some v =>
          let y := addF32 (laneNat v 32 n) c.1
          (y.1, y.2 ||| c.2))
  else .ok (a.writeFloats 64 fun n => addF32 (floatPartial b p n) (a.cells.getD n 0))

/-- Apply the items of a train: steps, and combinations where the accumulate mode is CHAIN. -/
def Accs.items (x : Element) (b : Block) (o : EG) (mode lanes : Nat) : Accs → List TrainItem → Except FaultInfo Accs
  | a, [] => .ok a
  | a, .step v s len :: r =>
    match a.step x mode lanes v s len with
    | .error f => .error f
    | .ok a' => Accs.items x b o mode lanes a' r
  | a, .close :: r =>
    if o.accMode = 1 then
      match a.combine x b o mode lanes with
      | .error f => .error f
      | .ok a' => Accs.items x b o mode lanes a' r
    else Accs.items x b o mode lanes a r

/-- The block with new accumulators and cursor. -/
def Block.withAccs (b : Block) (a : Accs) (c : Cursor) : Block :=
  { b with acc := accOfCells a.cells, accFp := a.fp, cursor := c, events := b.events ||| a.events }
def Block.accs (b : Block) : Accs := { cells := accCells b.acc, fp := b.accFp }

/-- What a CHAIN SEGMAC notes for the commit: its partial ports stay unless the block closed a chunk with them. A port
that closed is noted as the port + 4 (10 R157). -/
def chainNote (b : Block) (o : EG) (fpForm closed : Bool) : Block :=
  if o.accMode = 1 then
    let p := o.oport.toNat
    let ports := if fpForm then [p] else [p, p + 1]
    { b with partials := b.partials ++ ports.map fun q => if closed then q + 4 else q }
  else b

def execSegmac (o : EG) (s : State) : Result :=
  inBlock s 1 fun s el b =>
    let x := s.element el
    let mode := egMode x b o
    let lanes := lanesMode x b.ctx.toNat
    if cursorTaken b.cursor .segmac b then .exc (segmentFault 9 0)
    else
      let t := trainWords .segmac b 0 (operandWords b o.port.toNat) b.cursor false
      match b.accs.items x b o mode lanes t.1, t.2.2 with
      | .error f, _ => .exc f
      | .ok _, some (reason, w) => .exc (segmentFault reason w)
      | .ok a, none => .ok (chainNote (b.withAccs a t.2.1) o (mode = 5) (t.1.contains .close))

def execSegden (o : EG) (s : State) : Result :=
  inBlock s 1 fun s el b =>
    let x := s.element el
    let mode := egMode x b o
    let lanes := lanesMode x b.ctx.toNat
    if b.cursor.isOpen then .exc (segmentFault 9 0)
    else
      let v (p : Nat) : Int := signedOf 8 (vecByte (b.operand o.port.toNat) p).toNat
      let items := ((List.range 256).filter fun p => v p ≠ 0).map fun p => TrainItem.step (v p) p 1
      match b.accs.items x b o mode lanes (items ++ [.close]) with
      | .error f => .exc f
      | .ok a => .ok (b.withAccs a { b.cursor with isOpen := false })

/-! ## DROW (10 R161, R162) -/

/-- A weight of a dense table: its encoding or its signed value's bits (10 R161). -/
def denseWeight (x : Element) (mode k n : Nat) : Nat :=
  if mode = 1 then laneNat (tableRow x (k / 2)) 16 (2 * n + k % 2)
  else if mode = 2 then laneNat (tableRow x (k / 2)) 8 (2 * n + k % 2)
  else laneNat (tableRow x (k / 4)) 8 (4 * n + k % 4)

/-- round_rne(acc + a × w) of encodings of a dense format (04 R63). -/
def macF32 (f : Fmt) (acc a w : Nat) : Nat × Word :=
  let p := (f.value a).mul (f.value w)
  let v := fmtF32.value acc
  let r := sumVals .rne [v, p.1]
  let e := fmtF32.encode .rne r.1
  (e.1, e.2 ||| nvIf (p.2 || r.2 || (f.value a).isSignalling || (f.value w).isSignalling || v.isSignalling))

/-- One row of a dense token added to every covered column. -/
def denseRow (x : Element) (b : Block) (p mode lanes t : Nat) (a : Accs) (i : Nat) : Accs :=
  let v := b.operand p
  let per := if mode = 1 then 128 else 256
  let k := per * t + i
  if mode = 2 then
    a.addInts lanes fun n => signedOf 8 (laneNat v 8 i) * signedOf 8 (denseWeight x mode k n)
  else
    let f := if mode = 1 then fmtBf16 else fmtE4m3
    let act := laneNat v (if mode = 1 then 16 else 8) i
    a.writeFloats 64 fun n => macF32 f (a.cells.getD n 0 % 2 ^ 32) act (denseWeight x mode k n)

def execDrow (o : EG) (s : State) : Result :=
  inBlock s 1 fun s el b =>
    let x := s.element el
    let mode := egMode x b o
    let lanes := lanesMode x b.ctx.toNat
    if cursorTaken b.cursor .drow b then .exc (segmentFault 9 0)
    else if mode = 2 ∧ b.accFp then .exc kindFault
    else
      let t := if b.cursor.isOpen then b.cursor.left else 0
      let per := if mode = 1 then 128 else 256
      let last := if mode = 2 then 1 else 3
      let a := (List.range per).foldl (denseRow x b o.port.toNat mode lanes t) b.accs
      if t < last then .ok (b.withAccs a { openCursor .drow b with left := t + 1, pprev := b.cursor.pprev })
      else
        let shut : Cursor := { b.cursor with isOpen := false }
        if o.accMode = 1 then match a.combine x b o mode lanes with
          | .error f => .exc f
          | .ok a' => .ok (b.withAccs a' shut)
        else .ok (b.withAccs a shut)

/-! ## BWDOT and DIFF (10 R163, R164) -/

/-- The boundaries of a window. -/
def windowOf (mode lanes : Nat) : Nat := if mode = 4 ∧ lanes = 0 then 128 else 64
/-- The cursor after window `w`, with DIFF's last boundary value. -/
def nextWindow (owner : CursorOwner) (b : Block) (w wd : Nat) (pprev : DWord) : Cursor :=
  if w + 1 < 256 / wd then { openCursor owner b with left := w + 1, pprev := pprev }
  else { b.cursor with isOpen := false, pprev := pprev }

def execBwdot (o : EG) (s : State) : Result :=
  inBlock s 1 fun s el b =>
    let x := s.element el
    let mode := egMode x b o
    let lanes := lanesMode x b.ctx.toNat
    let wd := windowOf mode lanes
    if cursorTaken b.cursor .bwdot b then .exc (segmentFault 9 0)
    else
      let w := if b.cursor.isOpen then b.cursor.left else 0
      let dy (n : Nat) : Int := signedOf 8 (vecByte (b.operand o.port.toNat) n).toNat
      let dot (l : Nat) : Int := ((List.range (columnsOf lanes)).map fun n => dy n * tableEntry x mode (wd * w + 1 + l) n).sum
      let zero : Accs := { cells := b.accs.cells.mapIdx fun i c => if i < wd then 0 else c, fp := false }
      let first := if o.accMode = 1 then zero.addInts lanes (fun l => if l < wd then intPartial b o.oport.toNat lanes l else 0) else zero
      let a := first.addInts lanes fun l => if l < wd then dot l else 0
      .ok (b.withAccs a (nextWindow .bwdot b w wd b.cursor.pprev))

def execDiff (o : EG) (s : State) : Result :=
  inBlock s 1 fun s el b =>
    let x := s.element el
    let mode := egMode x b o
    let lanes := lanesMode x b.ctx.toNat
    let wd := windowOf mode lanes
    if cursorTaken b.cursor .diff b then .exc (segmentFault 9 0)
    else
      let w := if b.cursor.isOpen then b.cursor.left else 0
      let before : Int := if w = 0 then 0 else b.cursor.pprev.toInt
      let p (l : Nat) : Int := intPartial b o.port.toNat lanes l
      let d (l : Nat) : Int := p l - (if l = 0 then before else p (l - 1))
      let c := nextWindow .diff b w wd (BitVec.ofInt 64 (p (wd - 1)))
      if mode = 4 then
        let cells := b.accs.cells.mapIdx fun l c => if l < wd then cellOf 32 (wrapTo 32 (d l)) else c
        .ok (b.withAccs { cells := cells, fp := false } c)
      else
        let g := (scaleReg x b.ctx.toNat o.g.toNat).toNat
        .ok (b.withAccs (b.accs.writeFloats 64 fun l => scaleInt (signedOf 64 (wrapTo 64 (d l))) g) c)

/-! ## SEGGRAD (10 R165) -/

/-- The row adds of one step, in order: v × g at boundary s, and −v × g at s + L when below 256. -/
def gradRows : TrainItem → List (Nat × Int)
  | .step v s len => if v = 0 then [] else (s, v) :: (if s + len < 256 then [(s + len, -v)] else [])
  | .close => []

/-- The pieces of a row add: up to 256 bytes each, with the g lanes they take. -/
def rowPieces (b : Block) (g : Vec) (mport rowAt n : Nat) (wide : Bool) (v : Int) : List (Nat × MemRequest) :=
  let w := if wide then 8 else 4
  let per := 256 / w
  (List.range ((n + per - 1) / per)).map fun k =>
    let lanes := BitVec.ofNat 2048 (g.toNat / 2 ^ (16 * per * k) % 2 ^ (16 * per))
    (rowAt + 256 * k, b.request (.rowAdd wide v) mport (min 256 (w * (n - per * k))) 1 lanes none)

/-- SEGGRAD: the base is checked first, then the row adds in step order, then the train's words: where several are faulty, the
instruction reports the first of these (DESIGN CHOICE, log 61: 10 R156 and R165 give no order within it). -/
def execSeggrad (o : EG) (s : State) : Result :=
  inBlockWith s 1 fun s el b =>
    let x := s.element el
    let mode := egMode x b o
    let n := columnsOf (lanesMode x b.ctx.toNat)
    let wide : Bool := o.width = 1
    let stride := (if mode = 4 then 128 else 64) * (if wide then 8 else 4)
    if cursorTaken b.cursor .seggrad b then .error (segmentFault 9 0)
    else match elementAddress (b.addressTemp 7) 256 .atomic with
      | .error f => .error f
      | .ok (scratch, base) =>
        let t := trainWords .seggrad b 0 (operandWords b o.port.toNat) b.cursor false
        let rows := t.1.flatMap gradRows
        let pieces := rows.flatMap fun r =>
          rowPieces b (b.operand o.oport.toNat) o.mport.toNat (base + r.1 * stride) n wide r.2
        match stagePieces b .atomic scratch s b pieces, t.2.2 with
        | .error f, _ => .error f
        | .ok _, some (reason, w) => .error (segmentFault reason w)
        | .ok (s', b'), none => .ok (s', { b' with cursor := t.2.1 })

/-! ## Accumulators out (10 R166, R167) -/

/-- Output types: 0 i32, 1 i16, 2 i8, 3 i64, 4 f32, 5 bf16. -/
def outWidth (t : Nat) : Nat :=
  match t with
  | 0 => 32
  | 1 => 16
  | 2 => 8
  | 3 => 64
  | 4 => 32
  | _ => 16

/-- One accumulator converted to an output type, with its accumulator events (10 R166). -/
def accOut (t : Nat) (sat fp : Bool) (cell : Nat) : Nat × Word :=
  let w := outWidth t
  let r : Nat × Word :=
    if fp then
      if t = 4 then (cell % 2 ^ 32, 0)
      else if t = 5 then convertFloat fmtF32 fmtBf16 .rne (cell % 2 ^ 32)
      else floatToInt fmtF32 .rne true w (cell % 2 ^ 32)
    else if t = 4 then intToFloat fmtF32 .rne (signedOf 64 cell)
    else if t = 5 then intToFloat fmtBf16 .rne (signedOf 64 cell)
    else narrow sat true w (signedOf 64 cell)
  (r.1, accEvents r.2)

/-- The bytes of the converted accumulators as a number, their length, and the events. -/
def accOutput (x : Element) (b : Block) (t : Nat) (sat : Bool) : Nat × Nat × Word :=
  let n := columnsOf (lanesMode x b.ctx.toNat)
  let rs := (b.accs.cells.take n).map (accOut t sat b.accFp)
  (packLanes (outWidth t) (rs.map (·.1)), n * outWidth t / 8, rs.foldl (fun e r => e ||| r.2) 0)

def execAccout (o : EM) (s : State) : Result :=
  inBlock s 1 fun s el b =>
    let r := accOutput (s.element el) b o.size.toNat (o.variant.getLsbD 2)
    let b1 := (List.range ((r.2.1 + 255) / 256)).foldl (fun (b : Block) j =>
      b.stage (.send (o.mport.toNat + j)
        { kind := .data, vector := true, chan := o.chan, ctx := b.ctx, colour := b.colour, iter := b.iter,
          data := BitVec.ofNat 2048 (r.1 / 2 ^ (2048 * j)) })) b
    .ok (b1.raise r.2.2)

def execAccclr (_ : EM) (s : State) : Result :=
  inBlock s 1 fun s el b => .ok { b with acc := 0, accFp := lanesMode (s.element el) b.ctx.toNat = 2 }

/-- The pieces are performed in ascending order, also without a reply (DESIGN CHOICE, log 20: 20 R319 orders no two of them). -/
def execAccst (o : EM) (s : State) : Result :=
  inBlockWith s 1 fun s el b =>
    let r := accOutput (s.element el) b o.size.toNat (o.variant.getLsbD 2)
    let len := r.2.1
    match elementAddress (b.addressTemp o.addr.toNat) (min len 256) .write with
    | .error f => .error f
    | .ok (scratch, a) =>
      let k := (len + 255) / 256
      let pieces := (List.range k).map fun j =>
        let q := b.request .store o.mport.toNat (min 256 (len - 256 * j)) o.scope.toNat
          (BitVec.ofNat 2048 (r.1 / 2 ^ (2048 * j))) (if o.variant.getLsbD 0 && j + 1 = k then some o.chan else none)
        (a + 256 * j, { q with pieces := j })
      match stagePieces b .write scratch s b pieces with
      | .error f => .error f
      | .ok (s', b') => .ok (s', b'.raise r.2.2)

/-! ## Table rows and scale registers (10 R168, R169) -/

/-- A source of i32 lanes as a whole vector. -/
def wordsA (x : Element) (el : Nat) (b : Block) (o : EA) : Vec :=
  BitVec.ofNat 2048 (packLanes 32 ((List.range 64).map fun i => srcA x el b o { w := 32 } i))
def wordsB (x : Element) (el : Nat) (b : Block) (o : EA) : Vec :=
  BitVec.ofNat 2048 (packLanes 32 ((List.range 64).map fun i => srcB x el b o { w := 32 } i))

def execTwr (o : EA) (s : State) : Result :=
  inLanes s o fun x el b => b.stage (.tableRow (srcA x el b o { w := 32 } 0 % 256) (wordsB x el b o))
def execTrd (o : EA) (s : State) : Result :=
  inLanes s o fun x el b => b.setTemp o.d.toNat (tableRow x (srcA x el b o { w := 32 } 0 % 256))
def execScl (o : EA) (s : State) : Result :=
  inLanes s o fun x el b =>
    b.stage (.scale (8 * sset x b.ctx.toNat + o.x.toNat) (BitVec.ofNat 32 (srcA x el b o { w := 32 } 0)))
def execSclrd (o : EA) (s : State) : Result :=
  inLanes s o fun x _ b => b.setTemp o.d.toNat (broadcast 32 (scaleReg x b.ctx.toNat o.x.toNat).toNat)

/-! ## Chunk checksums (23 R370) -/

/-- The running pair over the lanes of A. -/
def checksum (w : Nat) (lane : Nat → Nat) (a b i0 : Nat) : Nat × Nat :=
  (List.range (lanesOf w)).foldl (fun p i =>
    let x := signedOf w (lane i)
    (wrapTo 64 (p.1 + x), wrapTo 64 (p.2 + ((i0 + i + 1 : Nat) : Int) * x))) (a, b)

/-- CSUM and CSVER: the new running state, and under CSVER whether it equals the expected pair. -/
def checksumInto (s : State) (o : EA) (verify : Bool) : Result :=
  inLanes s o fun x el b =>
    let w := laneWidth o.t
    let st := BitVec.ofNat 2048 (packLanes w ((List.range (lanesOf w)).map fun i => srcB x el b o (layoutOf o.t) i))
    let i0 := vecNat st 16 4
    let r := checksum w (srcA x el b o (layoutOf o.t)) (vecNat st 0 8) (vecNat st 8 8) i0
    let good := verify && r.1 = vecNat st 32 8 && r.2 = vecNat st 40 8
    b.setTemp o.d.toNat (BitVec.ofNat 2048
      (r.1 + r.2 * 2 ^ 64 + (i0 + lanesOf w) % 2 ^ 32 * 2 ^ 128 + (if good then 1 else 0) * 2 ^ 160 +
        vecNat st 32 16 * 2 ^ 256))

def execCsum (o : EA) (s : State) : Result := checksumInto s o false
def execCsver (o : EA) (s : State) : Result := checksumInto s o true

end Sys2Proof.Machine
end

