-- ==== Sys2Proof/Machine/TensorEngine.lean ====
section
/-! DEFINITION. The expander and the epilogue engine (15 R245; 16 R268 to R273). -/
namespace Sys2Proof.Machine

/-! ## EXPAND (15 R245; 16 R268 to R270) -/

/-- CRC-32C over bytes, one bit and one byte at a time (15 R245; log 22). -/
def crcBit (c : Nat) : Nat := if c % 2 = 1 then c / 2 ^^^ 0x82F63B78 else c / 2
def crcByte (c : Nat) (b : Byte) : Nat :=
  crcBit (crcBit (crcBit (crcBit (crcBit (crcBit (crcBit (crcBit (c ^^^ b.toNat))))))))
def crc32c (bs : List Byte) : Nat := bs.foldl crcByte 0xFFFFFFFF ^^^ 0xFFFFFFFF

def Command.streams (k : Command) : Bool := k.field 0 4 % 2 = 1
def Command.blocks (k : Command) : Nat := k.field 4 4
def Command.entryVa (k : Command) (m : Nat) : Nat := k.field 8 8 + 8 * (k.field 0x18 4 + m)
def Command.stallVa (k : Command) : Nat := k.field 0x30 8

/-- An index-table entry: the block's address and its declared length. -/
def Command.blockOf (k : Command) (entry : Nat) : Nat × Nat := (k.field 0x10 8 + slice entry 39 0, slice entry 63 40)

/-- The parsed size of a block, if it has one (15 R245). -/
def parsedSize (bs : List Byte) : Option Nat :=
  let r := (bs.getD 0 0).toNat
  if bs.length < 8 ∨ ((bs.drop 1).take 7).any (· ≠ 0) then none
  else if r = 0xFF then some 65548
  else if 1 ≤ r ∧ r ≤ 32 then some (12 + 768 * r)
  else none

/-- BF16 element i of bytes from an offset. -/
def bf16At (bs : List Byte) (off i : Nat) : Nat := natOfBytes ((bs.drop (off + 2 * i)).take 2)

/-- Element (i, n) of a rank-r block, and its events (16 R269). -/
def expandElement (bs : List Byte) (r i n : Nat) : Nat × Word :=
  let acc := (List.range r).foldl (fun (acc : Nat × Word) k =>
    let q := macF32 fmtBf16 acc.1 (bf16At bs 8 (i * r + k)) (bf16At bs (8 + 512 * r) (k * 128 + n))
    (q.1, acc.2 ||| q.2)) (0, 0)
  let out := convertFloat fmtF32 fmtBf16 .rne acc.1
  (out.1, acc.2 ||| out.2)

/-- The 256 rows of a block that passed its checks, and their events. -/
def expandRows (bs : List Byte) : List (List Byte) × Word :=
  let r := (bs.getD 0 0).toNat
  if r = 0xFF then ((List.range 256).map fun i => (bs.drop (8 + 256 * i)).take 256, 0)
  else
    let rows := (List.range 256).map fun i => (List.range 128).map fun n => expandElement bs r i n
    (rows.map fun row => row.flatMap fun e => leBytes 2 e.1, rows.foldl (fun e row => row.foldl (fun e x => e ||| x.2) e) 0)

/-- The cycles that a block's destination waits for its rows (16 R270). -/
def stallCycles (streams : Bool) (rank : Nat) : Nat := if streams ∨ rank = 0xFF then 0 else 64 * rank - 256

/-- Add to the stall counter of a command, atomically. -/
def State.addStall (s : State) (a : Activation) (k : Command) (ps : List Piece) (n : Nat) : Tried Unit :=
  if k.stallVa = 0 then (s, .ok ())
  else andThen (s.loadPieces a k.stallVa ps) fun s bs =>
    s.storePieces a k.stallVa (leBytes 8 ((natOfBytes bs + n) % 2 ^ 64)) ps

/-- The undeclared accesses that EXPAND would make, found before any byte moves (19 R304). -/
def checkExpand (s : State) (a : Activation) (k : Command) : Tried Unit :=
  let n := k.blocks
  if k.stallVa ≠ 0 && (!recordsAllow a.records .atomic k.stallVa 8 || a.isPair) then (s, .error (undeclared .atomic k.stallVa 8))
  else if n = 0 then (s, .ok ())
  else andThen (s.engineRead a 3 (k.entryVa 0) (8 * n)) fun s bs =>
    match (List.range n).find? fun m =>
        let b := k.blockOf (natOfBytes ((bs.drop (8 * m)).take 8))
        b.2 ≠ 0 && !recordsAllow a.records .read b.1 b.2 with
    | some m =>
      let b := k.blockOf (natOfBytes ((bs.drop (8 * m)).take 8))
      (s, .error (atRow (k.field 0x18 4 + m) (undeclared .read b.1 b.2)))
    | none => (s, .ok ())

/-- Deliver the rows of block m in scratch, or as tokens of the port. 16 R268 names no fault for a destination that is not a multiple of
256: the rows go where it says (DESIGN CHOICE, log 49). -/
def State.deliverRows (s : State) (a : Activation) (tile : Nat) (k : Command) (m : Nat) (rows : List (List Byte)) : Tried Unit :=
  if k.streams then
    let mport := slice (k.field 0 4) 2 1
    if (s.boundTo (.tileMem tile mport)).isNone then (s, .error { code := 0x13 })
    else
      let token (bs : List Byte) : Token :=
        { kind := .data, vector := true, chan := BitVec.ofNat 5 (slice (k.field 0 4) 7 3), colour := BitVec.ofNat 16 k.colour,
          iter := BitVec.ofNat 16 a.isc, data := vecOfBytes bs }
      (s.emit (.tileMem tile mport) (rows.map token), .ok ())
  else
    let at_ := k.field 0x20 8 + m * k.field 0x28 4
    if s.scratchGood a at_ 65536 then (s.scratchWrite a at_ rows.flatten, .ok ()) else (s, .error (scratchFault .write at_))

/-- EXPAND_BLOCK (16 R269): one block fetched, checked and delivered, or a fault that delivers nothing of it. -/
def execExpandBlock (c : ChainId) (place : Nat) (s : State) : Result :=
  onCommand c place s (fun r => r.engine = 3) fun s a k =>
    let m := k.row
    let number := k.field 0x18 4 + m
    onRow number (
      if k.blocks ≤ m then (s, .ok { k with phase := .moved })
      else andThen (s.engineRead a 3 (k.entryVa m) 8) fun s eb =>
        let b := k.blockOf (natOfBytes eb)
        andThen (if b.2 = 0 then (s, .ok []) else s.engineRead a 3 b.1 b.2) fun s bs =>
          if natOfBytes eb % 4 ≠ 0 ∨ parsedSize bs ≠ some b.2 then (s, .error { code := 0x55 })
          else if crc32c (bs.take (b.2 - 4)) ≠ natOfBytes (bs.drop (b.2 - 4)) then (s, .error { code := 0x56 })
          else
            let rows := expandRows bs
            let stall := stallCycles k.streams (bs.getD 0 0).toNat
            andThen (if k.stallVa = 0 then (s, .ok []) else s.engineReach a 3 .atomic k.stallVa 8) fun s ps =>
            andThen (s.deliverRows a c.tile k m rows.1) fun s _ =>
            andThen (s.addStall a k ps stall) fun s _ =>
              (s.raiseEvents k.colour c.tile rows.2.toNat, .ok (k.rowDone k.blocks 65536)))

/-! ## EPI (16 R272, R273) -/

def Command.epiSize (k : Command) : Nat := if k.field 0 4 % 4 = 1 then 8 else 4
def Command.epiOut (k : Command) : Nat := slice (k.field 0 4) 5 4
def Command.epiOutSize (k : Command) : Nat := if k.epiOut = 0 then 4 else if k.epiOut = 1 then 2 else 1
def Command.epiRows (k : Command) : Nat := k.field 8 4
def Command.epiCols (k : Command) : Nat := k.field 0x0C 4
def Command.columnScales (k : Command) : Bool := k.field 0 4 / 64 % 2 = 1
def Command.rowScales (k : Command) : Bool := k.field 0 4 / 128 % 2 = 1

/-- The refusals of EPI (16 R272). -/
def epilogueGood (s : State) (a : Activation) (k : Command) : Bool :=
  let ctl := k.field 0 4
  let rows := k.epiRows
  let cols := k.epiCols
  slice ctl 1 0 ≠ 3 && slice ctl 3 2 ≠ 3 && k.epiOut ≠ 3 && ctl < 512 && k.field 0x28 8 = 0 && k.field 0x30 16 = 0 &&
  1 ≤ rows && 1 ≤ cols && cols ≤ 128 && k.field 4 4 % k.epiSize = 0 && k.field 4 4 + rows * cols * k.epiSize ≤ 65536 &&
  (!k.columnScales || s.scratchGood a (k.field 0x10 4) (4 * cols)) &&
  (!k.rowScales || s.scratchGood a (k.field 0x14 4) (4 * rows)) &&
  ((List.range rows).all fun m => s.scratchGood a (k.field 0x18 4 + m * k.field 0x20 4) (cols * k.epiOutSize)) &&
  (k.epiOut ≠ 2 || s.scratchGood a (k.field 0x24 4) (4 * rows))

/-- A value with the events so far. -/
abbrev Noted := Nat × Word
def Noted.then (x : Noted) (f : Nat → Noted) : Noted :=
  let r := f x.1
  (r.1, x.2 ||| r.2)

/-- round_rne(a × b) in FP32. -/
def mulF32 (a b : Nat) : Noted := sumProducts fmtF32 .rne [(false, a, b)] []

/-- round_rne(0.5 × y × t): one rounding of the exact product. -/
def halfProduct (y t : Nat) : Noted :=
  let vy := fmtF32.value y
  let vt := fmtF32.value t
  let p := (vy.scaled (-1)).mul vt
  let r := fmtF32.encode .rne p.1
  (r.1, r.2 ||| nvIf (p.2 || vy.isSignalling || vt.isSignalling))

/-- GELU of an FP32 value, step by step (16 R273). -/
def gelu (y : Nat) : Noted :=
  let a := (mulF32 y y).then fun x => mulF32 x y
  let b := a.then fun x => sumProducts fmtF32 .rne [(false, 0x3D372713, x)] [(false, y)]
  let h := (b.then fun x => mulF32 0x3F4C422A x).then fun x => specialFn 4 x
  (h.then fun x => addF32 0x3F800000 x).then fun t => halfProduct y t

/-- ReLU: what is below zero, and −0, become +0; a NaN stays. -/
def relu (y : Nat) : Nat :=
  match fmtF32.value y with
  | .nan _ => y
  | v => if v.isNeg then 0 else y

/-- An element of the bank after scales and activation (16 R273). -/
def epilogueValue (k : Command) (raw cs rs : Nat) : Noted :=
  let input := k.field 0 4 % 4
  let y : Noted := if input = 2 then (raw, 0) else intToFloat fmtF32 .rne (signedOf (8 * k.epiSize) raw)
  let y := if k.columnScales then y.then fun x => mulF32 x cs else y
  let y := if k.rowScales then y.then fun x => mulF32 x rs else y
  match slice (k.field 0 4) 3 2 with
  | 1 => (relu y.1, y.2)
  | 2 => y.then gelu
  | _ => y

/-- The largest magnitude of a row, without NaNs, as an encoding with sign 0. -/
def rowMagnitude (ys : List Nat) : Nat :=
  ys.foldl (fun m y => if (fmtF32.value y).isNan then m else max m (y % 2 ^ 31)) 0

/-- round_rne of a quotient of naturals. -/
def divRne (n d : Nat) : Nat :=
  let q := n / d
  let r := n % d
  if d < 2 * r ∨ (2 * r = d ∧ q % 2 = 1) then q + 1 else q

/-- One i8 output: round_rne(y × 127 / A) from one rounding of the exact quotient. -/
def quantised (amax y : Nat) : Noted :=
  match fmtF32.value y, fmtF32.value amax with
  | .nan _, _ => (0, evVnv)
  | .inf neg, _ => (wrapTo 8 (if neg then -127 else 127), 0)
  | .fin neg m e, .fin _ ma ea =>
    if ma = 0 then (0, 0)
    else
      let q : Int := (divRne (m * 127 * 2 ^ (e - ea).toNat) (ma * 2 ^ (ea - e).toNat) : Nat)
      (wrapTo 8 (if neg then -q else q), 0)
  | _, _ => (0, 0)

/-- The scale of a row of i8 output: round_rne(A / 127, f32); +∞ with OF where A is infinite. -/
def rowScale (amax : Nat) : Noted :=
  match fmtF32.value amax with
  | .fin _ m e =>
    let q := stickyDiv m 127 160
    fmtF32.round .rne false q.1 (q.2 + e)
  | _ => (fmtF32.infinity, evVof)

/-- The output bytes of a row and its scale, with their events. -/
def epilogueRow (k : Command) (ys : List Nat) : List Byte × Option Nat × Word :=
  match k.epiOut with
  | 0 => (ys.flatMap (leBytes 4), none, 0)
  | 1 =>
    let rs := ys.map (convertFloat fmtF32 fmtBf16 .rne)
    (rs.flatMap fun r => leBytes 2 r.1, none, rs.foldl (fun e r => e ||| r.2) 0)
  | _ =>
    let amax := rowMagnitude ys
    let rs := ys.map (quantised amax)
    let sc := rowScale amax
    (rs.flatMap fun r => leBytes 1 r.1, some sc.1, rs.foldl (fun e r => e ||| r.2) sc.2)

/-- EPILOGUE_ROW (16 R273): one row of the bank, scaled, activated and put out; under CLR its words are then zero. -/
def execEpilogueRow (c : ChainId) (place : Nat) (s : State) : Result :=
  onCommand c place s (fun r => r.engine = 4) fun s a k =>
    let m := k.row
    let cols := k.epiCols
    let at_ := k.field 4 4 + m * cols * k.epiSize
    let bank := (s.tile c.tile).bank
    let rs := s.scratchNat a (k.field 0x14 4 + 4 * m) 4
    let ys := (List.range cols).map fun n =>
      epilogueValue k (bank.readNat (at_ + n * k.epiSize) k.epiSize) (s.scratchNat a (k.field 0x10 4 + 4 * n) 4) rs
    let out := epilogueRow k (ys.map (·.1))
    let dst := k.field 0x18 4 + m * k.field 0x20 4
    let scaleAt := k.field 0x24 4 + 4 * m
    let ok := s.scratchGood a dst out.1.length && (out.2.1.isNone || s.scratchGood a scaleAt 4) &&
      (!k.columnScales || s.scratchGood a (k.field 0x10 4) (4 * cols)) &&
      (!k.rowScales || s.scratchGood a (k.field 0x14 4 + 4 * m) 4)
    if ok = false then (s, .error (atRow m (scratchFault .write dst)))
    else
      let s := s.scratchWrite a dst out.1
      let s := match out.2.1 with
        | some v => s.scratchWriteNat a scaleAt 4 v
        | none => s
      let events := ys.foldl (fun e y => e ||| y.2) out.2.2
      let s := s.bankEvents c.tile (asAccEvents events)
      let x := s.tile c.tile
      let s := if k.field 0 4 / 256 % 2 = 1 then
          s.putTile c.tile { x with bank := x.bank.writeNat at_ (cols * k.epiSize) 0 } else s
      (s, .ok (k.rowDone k.epiRows out.1.length))

end Sys2Proof.Machine
end

