-- ==== Sys2Proof/Machine/EngineEvents.lean ====
section
/-! DEFINITION. The start and the completion of an engine command (16 R258). -/
namespace Sys2Proof.Machine

/-- The first command of a chain that has not started. -/
def Chain.nextCommand (c : Chain) : Option Command := c.commands.find? fun k => k.phase = .waiting

/-- The index list of a GATHER or SCATTER, checked when the command starts (19 R304), and the scratch rows that it chooses (14
R231). Where the list cannot be read whole, its rows are checked one by one (log 63). -/
def startIndexed (s : State) (a : Activation) (k : Command) : Tried Command :=
  if !k.indexScratch && !recordsAllow a.records .read k.indexList (4 * k.rowCount) then
    (s, .error (undeclared .read k.indexList (4 * k.rowCount)))
  else if !k.choosesScratch then (s, .ok k)
  else match s.sideRead a 0 k.indexScratch k.indexList (4 * k.rowCount) with
    | (s, .ok list) => if rowsGood s a k list then (s, .ok k) else (s, .error copyParameter)
    | (_, .error _) => (s, .ok k)

/-- The eyelet that a command of an engine other than the copy engine names is checked before any byte moves (19 R304). -/
def eyeletDeclared (a : Activation) (k : Command) : Bool :=
  k.record.engine = 0 || k.record.eyelet = 0 || recordsAllow a.records .atomic k.record.eyelet.toNat 16

/-- The checks and first effects of a command whose parameter block has been read: refusals before anything moves (14 R231;
16 R261, R263, R265 to R267, R272), undeclared accesses (19 R304), and SETTH (16 R264). -/
def startCommand (s : State) (a : Activation) (tile : Nat) (k : Command) : Tried Command :=
  let refuse (ok : Bool) (f : FaultInfo) : Tried Command := if ok then (s, .ok k) else (s, .error f)
  if eyeletDeclared a k = false then (s, .error (undeclared .atomic k.record.eyelet.toNat 16))
  else match k.record.engine with
  | 0 =>
    if k.record.fn = 0 then refuse (copyGood s a k) copyParameter
    else if gatherGood s a k = false then (s, .error copyParameter)
    else startIndexed s a k
  | 1 =>
    if clickGood s a k then
      let r := startClick s tile k
      (r.1, .ok r.2)
    else (s, .error { code := 0x51 })
  | 2 => match k.record.fn with
    | 0 => refuse (buildGood a k) (k.tableFault a 0x52)
    | 1 => refuse (patchGood a k) (k.tableFault a 0x52)
    | _ => refuse (scanGood s a k) { code := 0x52 }
  | 3 => andThen (checkExpand s a k) fun s _ => (s, .ok k)
  | 4 => refuse (epilogueGood s a k) { code := 0x57 }
  | _ => (s, .ok k)

/-- A copy of a redundant pair may name neither an eyelet nor an activation in a command, which stops its chain as it starts (19
R304; 26 R415). -/
def pairNames (a : Activation) (k : Command) : Option FaultInfo :=
  if !a.isPair then none
  else if k.record.eyelet ≠ 0 then some (pairFault .atomic k.record.eyelet 16)
  else if k.record.activation ≠ 0 then some (pairFault .read k.record.activation 64)
  else none

/-- ENGINE_COMMAND_START: the next command of a chain reads its parameter block and starts, or its chain stops. A command waits
until its engine is ready (26 R419); one on a spill engine has no block. -/
def execEngineCommandStart (c : ChainId) (s : State) : Result :=
  match s.chains.find? fun x => x.id = c with
  | none => .fault .notEnabled
  | some x => match x.nextCommand with
    | none => .fault .notEnabled
    | some k => match s.activation k.colour with
      | none => .fault .notEnabled
      | some a =>
        if x.stopped || !(if c.engine = 5 then a.mayServe else s.mayStart a) || s.switching a then .fault .notEnabled
        else if c.engine = 5 then occurs (s.spillReady c.tile) (s.setCommand c { k with phase := .running })
        else if !s.tileReady c.tile then .fault .notEnabled
        else
          let r : Tried Command := match pairNames a k with
          | some f => (s, .error f)
          | none => andThen (s.engineRead a c.engine k.record.parameter.toNat 64) fun s bs =>
            startCommand s a c.tile { k with block := BitVec.ofNat 512 (natOfBytes bs) }
          match r with
          | (s, .error i) => .next (s.stopChain c k.place i)
          | (s, .ok k) => .next (s.setCommand c { k with phase := .running })

/-- The completed commands at the head of a chain leave it: the sequence counts them, and the values whose command named
an eyelet are kept (16 R258; 20 R325). -/
def popCompleted : List Command → Word → List Nat → List Command × Word × List Nat
  | [], n, es => ([], n, es)
  | k :: ks, n, es =>
    if k.phase = .completed then popCompleted ks (n + 1) (if k.record.eyelet = 0 then es else (n + 1).toNat :: es)
    else (k :: ks, n, es)

/-- A command has completed: its record is pushed after its eyelet's addition, and the sequence moves on. -/
def State.finishCommand (s : State) (a : Activation) (c : ChainId) (k : Command) : State :=
  let s := if k.record.activation = 0 then s else s.pushRecord a k.record.activation.toNat
  let s := s.setCommand c { k with phase := .completed }
  let x := s.chain c
  let r := popCompleted x.commands x.seq x.eyelets
  s.putChain { x with commands := r.1, seq := r.2.1, eyelets := r.2.2 }

/-- ENGINE_COMMAND_COMPLETE: once every byte of a command has landed, what it owes its eyelet is added; once that is
performed, and what its push releases is stored, the command completes. -/
def execEngineCommandComplete (c : ChainId) (place : Nat) (s : State) : Result :=
  match s.chains.find? fun x => x.id = c with
  | none => .fault .notEnabled
  | some x => match x.command place with
    | none => .fault .notEnabled
    | some k => match s.activation k.colour with
      | none => .fault .notEnabled
      | some a =>
        if x.stopped || !(if c.engine = 5 then a.mayServe else s.mayStart a) then .fault .notEnabled
        else match k.phase with
          | .moved =>
            let n := if c.engine = 5 then 0 else k.eyeletBytes
            .next ((s.setCommand c { k with phase := .adding, owed := k.owed + n }).issueOwed c place)
          | .adding =>
            if k.owed ≠ 0 then .next (s.issueOwed c place)
            else occurs (!s.adding c place && !s.pushWaits a k.record.activation.toNat k.at_) (s.finishCommand a c k)
          | _ => .fault .notEnabled

end Sys2Proof.Machine
end

