-- ==== Sys2Proof/Machine/IntLanes.lean ====
section
/-! DEFINITION. The integer, logic, lane and predicate instructions (08 R117 to R137). -/
namespace Sys2Proof.Machine

/-- The `a` and `b` of lane `i`, read exactly by the type (08 R117, R123). -/
def intA (x : Element) (el : Nat) (b : Block) (o : EA) (i : Nat) : Int :=
  laneInt (laneSigned o.t) (laneWidth o.t) (srcA x el b o (layoutOf o.t) i)
def intB (x : Element) (el : Nat) (b : Block) (o : EA) (i : Nat) : Int :=
  laneInt (laneSigned o.t) (laneWidth o.t) (srcB x el b o (layoutOf o.t) i)
/-- Lane `i` of the destination before it is written. -/
def intD (b : Block) (o : EA) (i : Nat) : Int :=
  laneInt (laneSigned o.t) (laneWidth o.t) (laneNat (b.temp o.d.toNat) (laneWidth o.t) i)

/-- An instruction that writes each active lane of T from that lane's own operands. -/
def lanewise (s : State) (o : EA) (f : Element → Nat → Block → Nat → Nat × Word) : Result :=
  inLanes s o fun x el b => b.writeLanes o (laneWidth o.t) (lanesOf (laneWidth o.t)) (f x el b)

/-- An exact integer result, wrapped or clamped by S (08 R123). -/
def arith (s : State) (o : EA) (f : Int → Int → Int → Int) : Result :=
  lanewise s o fun x el b i =>
    narrow (o.sat = 1) (laneSigned o.t) (laneWidth o.t) (f (intA x el b o i) (intB x el b o i) (intD b o i))

/-- A result formed from the bits of the lanes. -/
def bitwise (s : State) (o : EA) (f : Nat → Nat → Nat → Nat) : Result :=
  lanewise s o fun x el b i =>
    (f (laneWidth o.t) (srcA x el b o (layoutOf o.t) i) (srcB x el b o (layoutOf o.t) i) % 2 ^ laneWidth o.t, 0)

/-! ## SYS (08 R120) -/

def execNop (s : State) : Result := inBlock s 1 fun _ _ b => .ok b
def execBrk (code : BitVec 16) (s : State) : Result :=
  inBlock s 1 fun _ _ _ => .exc { code := 0x70, operand := code.setWidth 32 }
def execTrap (code : BitVec 16) (s : State) : Result :=
  inBlock s 1 fun _ _ _ => .exc { code := 0x71, operand := code.setWidth 32 }

/-! ## MOV and LI (08 R121, R122; 05 R74) -/

def execMov (o : EA) (s : State) : Result :=
  lanewise s o fun x el b i => (srcA x el b o (layoutOf o.t) i, 0)

/-- The lane value of an immediate (05 R74). -/
def liLane (t : BitVec 3) (imm : BitVec 16) : Nat :=
  match t.toNat with
  | 0 => (imm.signExtend 32).toNat
  | 6 => imm.toNat * 65536
  | 2 => imm.toNat % 256
  | 5 => imm.toNat % 256
  | _ => imm.toNat

def execLi (d t : BitVec 3) (imm : BitVec 16) (s : State) : Result :=
  inBlock s 1 fun _ _ b => .ok (b.setTemp d.toNat (broadcast (laneWidth t) (liLane t imm)))

/-! ## Arithmetic (08 R123, R124) -/

def execAdd (o : EA) (s : State) : Result := arith s o fun a b _ => a + b
def execSub (o : EA) (s : State) : Result := arith s o fun a b _ => a - b
def execMul (o : EA) (s : State) : Result := arith s o fun a b _ => a * b
def execMulh (o : EA) (s : State) : Result :=
  lanewise s o fun x el b i =>
    (wrapTo (laneWidth o.t) ((intA x el b o i * intB x el b o i) / (2 ^ laneWidth o.t : Nat)), 0)
def execMad (o : EA) (s : State) : Result := arith s o fun a b d => a * b + d
def execMin (o : EA) (s : State) : Result :=
  lanewise s o fun x el b i => (wrapTo (laneWidth o.t) (Min.min (intA x el b o i) (intB x el b o i)), 0)
def execMax (o : EA) (s : State) : Result :=
  lanewise s o fun x el b i => (wrapTo (laneWidth o.t) (Max.max (intA x el b o i) (intB x el b o i)), 0)
def execAbs (o : EA) (s : State) : Result := arith s o fun a _ _ => (a.natAbs : Int)
def execNeg (o : EA) (s : State) : Result := arith s o fun a _ _ => -a

/-! ## Logic, shifts and counts (08 R125 to R127) -/

/-- The complement of `w` bits. -/
def notBits (w a : Nat) : Nat := 2 ^ w - 1 - a

def execAnd (o : EA) (s : State) : Result := bitwise s o fun _ a b => a &&& b
def execOr (o : EA) (s : State) : Result := bitwise s o fun _ a b => a ||| b
def execXor (o : EA) (s : State) : Result := bitwise s o fun _ a b => a ^^^ b
def execAndn (o : EA) (s : State) : Result := bitwise s o fun w a b => a &&& notBits w b
def execOrn (o : EA) (s : State) : Result := bitwise s o fun w a b => a ||| notBits w b
def execXnor (o : EA) (s : State) : Result := bitwise s o fun w a b => notBits w (a ^^^ b)

def execShl (o : EA) (s : State) : Result := bitwise s o fun w a c => if w ≤ c then 0 else a * 2 ^ c
def execShr (o : EA) (s : State) : Result := bitwise s o fun w a c => if w ≤ c then 0 else a / 2 ^ c
def execSar (o : EA) (s : State) : Result :=
  bitwise s o fun w a c => wrapTo w (signedOf w a / (2 ^ (if w ≤ c then w else c) : Nat))
def execRol (o : EA) (s : State) : Result :=
  bitwise s o fun w a c => a * 2 ^ (c % w) % 2 ^ w + a / 2 ^ (w - c % w)

/-- The number of leading zeros, and of set bits, among the low `w` bits. -/
def clzNat (w a : Nat) : Nat := if a = 0 then w else w - 1 - Nat.log2 a
def popcNat : Nat → Nat → Nat
  | 0, _ => 0
  | w + 1, a => a % 2 + popcNat w (a / 2)

def execClz (o : EA) (s : State) : Result := bitwise s o fun w a _ => clzNat w a
def execPopc (o : EA) (s : State) : Result := bitwise s o fun w a _ => popcNat w a

/-! ## Comparison and selection (08 R128, R129) -/

/-- The conditions eq, ne, lt, le, gt, ge on integers. -/
def intCond (c : BitVec 3) (a b : Int) : Bool :=
  match c.toNat with
  | 0 => a = b
  | 1 => a ≠ b
  | 2 => a < b
  | 3 => a ≤ b
  | 4 => a > b
  | _ => a ≥ b

/-- Write predicate pd where the block's predicate is active (08 R128). -/
def writePred (b : Block) (o : EA) (w : Nat) (f : Nat → Bool) : Block :=
  let act (j : Nat) : Bool := ((b.pred o.p.toNat).getLsbD j) != (o.n = 1)
  b.setPred o.d.toNat (setBits (b.pred o.d.toNat) (predBits w) fun j => if act j then some (lanesTest w f j) else none)

def execCmp (c : BitVec 3) (o : EA) (s : State) : Result :=
  inLanes s o fun x el b => writePred b o (laneWidth o.t) fun i => intCond c (intA x el b o i) (intB x el b o i)

def execSel (o : EA) (s : State) : Result :=
  inLanes s o fun x el b =>
    b.setTemp o.d.toNat (setLanes 0 (laneWidth o.t) fun i =>
      some (if b.active o (laneWidth o.t) i then srcA x el b o (layoutOf o.t) i else srcB x el b o (layoutOf o.t) i))

/-! ## Conversion and moving lanes (08 R130 to R134) -/

/-- One lane of a conversion from a source type to T (08 R130, 04 R59). -/
def cvtLane (src : BitVec 3) (o : EA) (n : Nat) : Nat × Word :=
  match laneFmt src, laneFmt o.t with
  | some f, _ => floatToInt f (roundingOf o.rm) (laneSigned o.t) (laneWidth o.t) n
  | none, some f => intToFloat f .rne (laneInt (laneSigned src) (laneWidth src) n)
  | none, none => narrow (o.sat = 1) (laneSigned o.t) (laneWidth o.t) (laneInt (laneSigned src) (laneWidth src) n)

def execCvt (c : BitVec 3) (o : EA) (s : State) : Result :=
  inLanes s o fun x el b =>
    b.writeLanes o (laneWidth o.t) (Min.min (lanesOf (laneWidth o.t)) (lanesOf (laneWidth c))) fun i =>
      cvtLane c o (srcA x el b o (layoutOf c) i)

def execShuf (o : EA) (s : State) : Result :=
  lanewise s o fun x el b i =>
    (srcA x el b o (layoutOf o.t) (srcB x el b o (layoutOf o.t) i % lanesOf (laneWidth o.t)), 0)

/-- The lane that BCAST and LROT take from lane 0 of B (08 R132). -/
def laneIndex (x : Element) (el : Nat) (b : Block) (o : EA) : Nat := srcB x el b o (layoutOf o.t) 0 % lanesOf (laneWidth o.t)

def execBcast (o : EA) (s : State) : Result :=
  lanewise s o fun x el b _ => (srcA x el b o (layoutOf o.t) (laneIndex x el b o), 0)
def execLrot (o : EA) (s : State) : Result :=
  lanewise s o fun x el b i =>
    (srcA x el b o (layoutOf o.t) ((i + laneIndex x el b o) % lanesOf (laneWidth o.t)), 0)

def execPack (o : EA) (s : State) : Result :=
  lanewise s o fun x el b i =>
    let w := laneWidth o.t
    let m := lanesOf (2 * w)
    let n := if i < m then srcA x el b o { w := 2 * w } i else srcB x el b o { w := 2 * w } (i - m)
    narrow (o.sat = 1) (laneSigned o.t) w (signedOf (2 * w) n)

/-- Widen half a vector, from lane `first` of the narrow source (08 R134). -/
def unpack (s : State) (o : EA) (first : Nat) : Result :=
  lanewise s o fun x el b i =>
    let w := laneWidth o.t
    (wrapTo w (laneInt (laneSigned o.t) (w / 2) (srcA x el b o { w := w / 2 } (first + i))), 0)

def execUnpackLo (o : EA) (s : State) : Result := unpack s o 0
def execUnpackHi (o : EA) (s : State) : Result := unpack s o (lanesOf (laneWidth o.t))

/-! ## Reductions and scans (08 R135, R136) -/

/-- The values of the active lanes below `n`, in ascending index. -/
def activeInts (x : Element) (el : Nat) (b : Block) (o : EA) (n : Nat) : List Int :=
  ((List.range n).filter fun i => b.active o (laneWidth o.t) i).map (intA x el b o)

/-- A non-empty list combined by minimum or maximum. -/
def leastOf (xs : List Int) : Int := xs.foldl Min.min (xs.headD 0)
def greatestOf (xs : List Int) : Int := xs.foldl Max.max (xs.headD 0)

/-- A bit operation over all the values of a list. -/
def foldBits (w : Nat) (f : Nat → Nat → Nat) (xs : List Int) : Nat :=
  match xs.map (wrapTo w) with
  | [] => 0
  | a :: r => r.foldl f a

/-- The reduction of the active lanes by function code: sum, min, max, and, or, xor. -/
def redValue (c : BitVec 3) (o : EA) (xs : List Int) : Nat × Word :=
  let w := laneWidth o.t
  match c.toNat with
  | 0 => narrow (o.sat = 1) (laneSigned o.t) w xs.sum
  | 1 => (wrapTo w (leastOf xs), 0)
  | 2 => (wrapTo w (greatestOf xs), 0)
  | 3 => (foldBits w (· &&& ·) xs, 0)
  | 4 => (foldBits w (· ||| ·) xs, 0)
  | _ => (foldBits w (· ^^^ ·) xs, 0)

def execRed (c : BitVec 3) (o : EA) (s : State) : Result :=
  inLanes s o fun x el b =>
    let r := redValue c o (activeInts x el b o (lanesOf (laneWidth o.t)))
    b.writeLanes o (laneWidth o.t) (lanesOf (laneWidth o.t)) fun _ => r

/-- The prefix value of lane `i` by function code: isum, xsum, imin, imax. -/
def scanValue (c : BitVec 3) (o : EA) (below upTo : List Int) : Nat × Word :=
  let w := laneWidth o.t
  match c.toNat with
  | 0 => narrow (o.sat = 1) (laneSigned o.t) w upTo.sum
  | 1 => narrow (o.sat = 1) (laneSigned o.t) w below.sum
  | 2 => (wrapTo w (leastOf upTo), 0)
  | _ => (wrapTo w (greatestOf upTo), 0)

def execScan (c : BitVec 3) (o : EA) (s : State) : Result :=
  lanewise s o fun x el b i => scanValue c o (activeInts x el b o i) (activeInts x el b o (i + 1))

/-! ## Predicates (08 R137) -/

def execPand (o : EA) (s : State) : Result :=
  inBlock s 1 fun _ _ b => .ok (b.setPred o.d.toNat (b.pred o.a.toNat &&& b.pred o.b.toNat))
def execPor (o : EA) (s : State) : Result :=
  inBlock s 1 fun _ _ b => .ok (b.setPred o.d.toNat (b.pred o.a.toNat ||| b.pred o.b.toNat))
def execPnot (o : EA) (s : State) : Result :=
  inBlock s 1 fun _ _ b => .ok (b.setPred o.d.toNat (~~~ b.pred o.a.toNat))

/-- Whether a lane is non-zero: both zeros of a floating type are zero (08 R137). -/
def laneNonZero (t : BitVec 3) (n : Nat) : Bool :=
  match laneFmt t with
  | some f => !(f.value n).isZero
  | none => n ≠ 0

def execPset (o : EA) (s : State) : Result :=
  inLanes s o fun x el b =>
    b.setPred o.d.toNat (setBits (b.pred o.d.toNat) (predBits (laneWidth o.t)) fun j =>
      some (lanesTest (laneWidth o.t) (fun i => laneNonZero o.t (srcA x el b o (layoutOf o.t) i)) j))

end Sys2Proof.Machine
end

