-- ==== Sys2Proof/Machine/FloatLanes.lean ====
section
/-! DEFINITION. The floating-point and complex lane instructions (09 R139 to R150). -/
namespace Sys2Proof.Machine

/-- A floating instruction on the encodings of each active lane: A, B and D. -/
def floatLanes (s : State) (o : EA) (f : Fmt → Nat → Nat → Nat → Nat × Word) : Result :=
  lanewise s o fun x el b i =>
    f (fmtOfType o.t) (srcA x el b o (layoutOf o.t) i) (srcB x el b o (layoutOf o.t) i)
      (laneNat (b.temp o.d.toNat) (laneWidth o.t) i)

/-! ## Addition, multiplication and fused multiply-add (09 R142, R143) -/

def execFadd (o : EA) (s : State) : Result :=
  floatLanes s o fun f a b _ => sumProducts f (roundingOf o.rm) [] [(false, a), (false, b)]
def execFsub (o : EA) (s : State) : Result :=
  floatLanes s o fun f a b _ => sumProducts f (roundingOf o.rm) [] [(false, a), (true, b)]
def execFmul (o : EA) (s : State) : Result :=
  floatLanes s o fun f a b _ => sumProducts f (roundingOf o.rm) [(false, a, b)] []
def execFma (o : EA) (s : State) : Result :=
  floatLanes s o fun f a b d => sumProducts f (roundingOf o.rm) [(false, a, b)] [(false, d)]
def execFms (o : EA) (s : State) : Result :=
  floatLanes s o fun f a b d => sumProducts f (roundingOf o.rm) [(false, a, b)] [(true, d)]
def execFnma (o : EA) (s : State) : Result :=
  floatLanes s o fun f a b d => sumProducts f (roundingOf o.rm) [(true, a, b)] [(false, d)]

/-! ## Minimum, maximum, absolute value and negation (09 R144) -/

def execFmin (o : EA) (s : State) : Result := floatLanes s o fun f a b _ => minMax f false a b
def execFmax (o : EA) (s : State) : Result := floatLanes s o fun f a b _ => minMax f true a b

/-- A sign operation: a NaN gives the canonical NaN, with NV if it is signalling. -/
def signLane (f : Fmt) (a n : Nat) : Nat × Word :=
  if (f.value a).isNan then (f.nan, nvIf (f.value a).isSignalling) else (n, 0)

def execFabs (o : EA) (s : State) : Result := floatLanes s o fun f a _ _ => signLane f a (a % f.signBit)
def execFneg (o : EA) (s : State) : Result :=
  floatLanes s o fun f a _ _ => signLane f a ((a + f.signBit) % (2 * f.signBit))

/-! ## Comparison (09 R145) -/

/-- The conditions eq, ne, lt, le, gt, ge, un, and NV. -/
def floatCond (f : Fmt) (c : BitVec 3) (a b : Nat) : Bool × Word :=
  let x := f.value a
  let y := f.value b
  let r := compareVals x y
  let sig := x.isSignalling || y.isSignalling
  match c.toNat with
  | 0 => (r = some .eq, nvIf sig)
  | 1 => (r ≠ some .eq, nvIf sig)
  | 2 => (r = some .lt, nvIf r.isNone)
  | 3 => (r = some .lt || r = some .eq, nvIf r.isNone)
  | 4 => (r = some .gt, nvIf r.isNone)
  | 5 => (r = some .gt || r = some .eq, nvIf r.isNone)
  | _ => (r.isNone, nvIf sig)

def execFcmp (c : BitVec 3) (o : EA) (s : State) : Result :=
  inLanes s o fun x el b =>
    let w := laneWidth o.t
    let lane (i : Nat) : Bool × Word :=
      floatCond (fmtOfType o.t) c (srcA x el b o (layoutOf o.t) i) (srcB x el b o (layoutOf o.t) i)
    let e := (List.range (lanesOf w)).foldl (fun e i => if b.active o w i then e ||| (lane i).2 else e) 0
    (writePred b o w fun i => (lane i).1).raise e

/-! ## Special functions (09 R146, R147) -/

/-- A special function in T: bf16 lanes widen, take the FP32 result and round it once more. -/
def specialLanes (s : State) (o : EA) (fn : Nat) : Result :=
  floatLanes s o fun f a _ _ =>
    if f = fmtF32 then specialFn fn a
    else
      let wide := (convertFloat fmtBf16 fmtF32 .rne a)
      let r := specialFn fn wide.1
      let n := convertFloat fmtF32 fmtBf16 .rne r.1
      (n.1, wide.2 ||| r.2 ||| n.2)

def execFrcp (o : EA) (s : State) : Result := specialLanes s o 0
def execFrsq (o : EA) (s : State) : Result := specialLanes s o 1
def execFexp2 (o : EA) (s : State) : Result := specialLanes s o 2
def execFlog2 (o : EA) (s : State) : Result := specialLanes s o 3
def execFtanh (o : EA) (s : State) : Result := specialLanes s o 4

/-! ## Conversion between floating formats (09 R148, 05 R80) -/

def fmtOfCode (c : Nat) : Fmt :=
  match c with
  | 0 => fmtF32
  | 1 => fmtBf16
  | 2 => fmtE4m3
  | _ => fmtE5m2

/-- Special values are rounded to f32 and bf16, and are low bits in the FP8 formats. -/
def fcvtLayout (c : Nat) : Layout := { w := (fmtOfCode c).width, fmt := if c < 2 then some (fmtOfCode c) else none }

def execFcvt (o : EA) (s : State) : Result :=
  inBlock s (1 + (if o.a = 15 then 1 else 0)) fun s el b =>
    let x := s.element el
    let src := o.b.toNat / 4
    let dst := o.b.toNat % 4
    let w := (fmtOfCode dst).width
    .ok (b.writeLanes o w (Min.min (lanesOf (fmtOfCode src).width) (lanesOf w)) fun i =>
      convertFloat (fmtOfCode src) (fmtOfCode dst) (roundingOf o.rm) (srcA x el b o (fcvtLayout src) i))

/-! ## Reductions (09 R149, 04 R63) -/

/-- One level of the pairwise tree, and the tree down to its root. -/
def pairUp : List (Nat × Word) → List (Nat × Word)
  | a :: b :: r =>
    let n := addF32 a.1 b.1
    (n.1, n.2 ||| a.2 ||| b.2) :: pairUp r
  | r => r
def sumTree : Nat → List (Nat × Word) → Nat × Word
  | 0, xs => xs.headD (0, 0)
  | n + 1, xs => sumTree n (pairUp xs)

/-- FRED: sum by the fixed tree over all lanes, min and max over the active lanes. -/
def fredValue (c : BitVec 3) (f : Fmt) (lanes : List (Nat × Bool)) : Nat × Word :=
  if c = 0 then
    let leaf (p : Nat × Bool) : Nat × Word :=
      if p.2 then
        let v := f.value p.1
        ((convertFloat f fmtF32 .rne p.1).1, nvIf v.isSignalling)
      else (0, 0)
    let r := sumTree (Nat.log2 lanes.length) (lanes.map leaf)
    if f = fmtF32 then r
    else
      let n := convertFloat fmtF32 f .rne r.1
      (n.1, n.2 ||| r.2)
  else
    let act := (lanes.filter (·.2)).map (·.1)
    let sig := act.any fun n => (f.value n).isSignalling
    let nums := act.filter fun n => !(f.value n).isNan
    match nums with
    | [] => (f.nan, nvIf sig)
    | a :: r => (r.foldl (fun m n => (minMax f (c = 2) m n).1) a, nvIf sig)

def execFred (c : BitVec 3) (o : EA) (s : State) : Result :=
  inLanes s o fun x el b =>
    let w := laneWidth o.t
    let r := fredValue c (fmtOfType o.t)
      ((List.range (lanesOf w)).map fun i => (srcA x el b o (layoutOf o.t) i, b.active o w i))
    b.writeLanes o w (lanesOf w) fun _ => r

/-! ## Complex pairs (09 R150) -/

/-- Write both lanes of each active pair; predicate bit 2j governs pair j. -/
def complexLanes (s : State) (o : EA) (f : Nat × Nat → Nat × Nat → Nat × Nat → (Nat × Word) × (Nat × Word)) : Result :=
  inLanes s o fun x el b =>
    let pair (g : Nat → Nat) (j : Nat) : Nat × Nat := (g (2 * j), g (2 * j + 1))
    let act (j : Nat) : Bool := b.active o 32 (2 * j)
    let out (j : Nat) := f (pair (srcA x el b o (layoutOf o.t)) j) (pair (srcB x el b o (layoutOf o.t)) j)
      (pair (laneNat (b.temp o.d.toNat) 32) j)
    let d := setLanes (b.temp o.d.toNat) 32 fun i =>
      if act (i / 2) then some (if i % 2 = 0 then (out (i / 2)).1.1 else (out (i / 2)).2.1) else none
    let e := (List.range 32).foldl (fun e j => if act j then e ||| (out j).1.2 ||| (out j).2.2 else e) 0
    (b.setTemp o.d.toNat d).raise e

def execCmul (o : EA) (s : State) : Result :=
  complexLanes s o fun a b _ =>
    (sumProducts fmtF32 .rne [(false, a.1, b.1), (true, a.2, b.2)] [],
     sumProducts fmtF32 .rne [(false, a.1, b.2), (false, a.2, b.1)] [])
def execCmad (o : EA) (s : State) : Result :=
  complexLanes s o fun a b d =>
    (sumProducts fmtF32 .rne [(false, a.1, b.1), (true, a.2, b.2)] [(false, d.1)],
     sumProducts fmtF32 .rne [(false, a.1, b.2), (false, a.2, b.1)] [(false, d.2)])

end Sys2Proof.Machine
end

