-- ==== Sys2Proof/Machine/Reliability.lean ====
section
/-! DEFINITION. Power and temperature, supply, injected errors and LLC maintenance, readiness, and reset with its boot stages
(24 R373, R374; 26 R407, R408, R416 to R420). -/
namespace Sys2Proof.Machine

/-! ## Power, temperature and supply (26 R417, R418) -/

/-- The temperature monitors of the package. -/
def allMonitors : List (Nat × Nat) := (List.range 4).flatMap fun d => (List.range 64).map fun i => (d, i)
/-- A temperature in 1/16 °C (25 R402). -/
def State.temperature (s : State) (die index : Nat) : Int :=
  (Config.monitor die 0 index (s.host.monitorRead.getD (1024 * die + index) 0) s.tick).toInt

/-- POWER_SAMPLE: the controller throttles while power exceeds the budget or a monitor reads 105 °C or more; a change is an
event; a monitor at 115 °C or above is fatal. -/
def execPowerSample (milliwatts : Nat) (s : State) : Result :=
  let above := decide (s.host.budget < milliwatts)
  let hot := allMonitors.any fun m => decide (1680 ≤ s.temperature m.1 m.2)
  let now := above || hot
  let t := if now = s.host.throttled then s
    else (s.blackBox 0x07 [(9, 1, (Config.throttleCause above hot).toNat), (10, 1, if now then 1 else 0)]).mapHost fun h =>
      { h with throttled := now }
  .next (match allMonitors.find? fun m => decide (1840 ≤ s.temperature m.1 m.2) with
    | some m => t.fatal 3 [(16, 1, m.1), (17, 1, m.2), (18, 2, (s.temperature m.1 m.2 % 65536).toNat)]
    | none => t)

/-- SUPPLY_DROOP_FATAL: a supply below 500 mV for 1,200 cycles stops the package. -/
def execSupplyDroopFatal (die index millivolts : Nat) (s : State) : Result :=
  occurs (decide (die < 4) && decide (index < 32) && decide (millivolts < 500))
    (s.fatal 4 [(16, 1, die), (17, 1, index), (18, 2, millivolts)])

/-! ## LLCINJ and LLCOP (24 R373, R374) -/

/-- A write of LLCINJ by function v: ASID 0 only, and none of the reserved bits. -/
def State.writeLlcinj (s : State) (v : Nat) (value : DWord) : State :=
  if v ≠ 0 ∨ slice value.toNat 61 48 ≠ 0 ∨ slice value.toNat 4 0 ≠ 0 then s
  else s.mapHost fun h => { h with llcinj := value }

/-- LLCINJ_ARM: a write with ARM set. -/
def execLlcinjArm (v : Nat) (value : DWord) (s : State) : Result :=
  if value.getLsbD 63 then .next (s.writeLlcinj v value) else .fault .notEnabled

/-- Clean one line: where it is dirty, all its pieces are read through the decoder and its dirty sectors written to memory; it
stays, or is invalidated. The flag says that an uncorrectable piece was met in a dirty sector. -/
def State.maintain (s : State) (line : Nat) (drops : Bool) : State × Bool :=
  match findLine s.memory.llc line with
  | none => (s, false)
  | some l =>
    let bad := (linePieces line l.dirty.getLsbD).any fun p => s.badPiece (p / 32)
    let s := s.writeBack line
    (if drops && !s.halted then s.dropLine line else s, bad)

/-- The write of LLCOP starts an operation: the operation is legal, no reserved bit is set and the line lies in HBM or CXL. -/
def llcopGood (value : DWord) : Bool :=
  let v := value.toNat
  (slice v 49 48 = 1 || slice v 49 48 = 2) && slice v 61 50 = 0 && slice v 7 0 = 0 &&
  (isHbm (v % 2 ^ 48) || isCxl (v % 2 ^ 48))

/-- A write of LLCOP with GO set, by function v: ASID 0 only. It is done when the step ends, so GO reads 0. -/
def State.writeLlcop (s : State) (v : Nat) (value : DWord) : State :=
  if v ≠ 0 then s
  else if llcopGood value = false then s.mapHost fun h => { h with llcop := BitVec.ofNat 64 (h.llcop.toNat % 2 ^ 63) }
  else
    let r := s.maintain (slice value.toNat 47 8) (slice value.toNat 49 48 = 2)
    let left := BitVec.ofNat 64 (value.toNat % 2 ^ 62 + (if r.2 then 2 ^ 62 else 0))
    r.1.mapHost fun h => { h with llcop := left }

/-- LLCOP_CLEAN: a write with GO set and OP 1. -/
def execLlcopClean (v : Nat) (value : DWord) (s : State) : Result :=
  occurs (value.getLsbD 63 && slice value.toNat 49 48 = 1) (s.writeLlcop v value)
/-- LLCOP_CLEAN_INVALIDATE: a write with GO set and OP 2. -/
def execLlcopCleanInvalidate (v : Nat) (value : DWord) (s : State) : Result :=
  occurs (value.getLsbD 63 && slice value.toNat 49 48 = 2) (s.writeLlcop v value)

/-! ## Readiness (26 R419) -/

/-- The bit of RDYS that stands for a function other than a tile, if there is such a function. -/
def rdysBit : ReadyFunction → Option Nat
  | .tile .. => none
  | .welt k => if k < 24 then some (23 + k) else none
  | .hbm k => if k < 8 then some (15 + k) else none
  | .llc k => if k < 4 then some (11 + k) else none
  | .spillEngine k => if k < 4 then some (7 + k) else none
  | .port k => if k < 7 then some k else none

def State.setRdys (s : State) (bit : Nat) (on : Bool) : State :=
  let mask : DWord := 1#64 <<< bit
  s.mapHost fun h => { h with rdys := if on then h.rdys ||| mask else h.rdys &&& ~~~mask }

/-- SELF_TEST_PASS: the readiness bit of a function sets. A memory tile out of service stays so until reset, and a link region while
it holds a quarantined element (26 R412, R413). -/
def execSelfTestPass (f : ReadyFunction) (s : State) : Result :=
  match f with
  | .tile die y x =>
    occurs (decide (die < 4) && decide (y < 28) && decide (x < 28) && !s.host.withdrawn.contains (tileId die x y) &&
        !s.linkQuarantined (tileId die x y))
      (s.setTileReady (tileId die x y) true)
  | f => occursIf ((rdysBit f).map fun b => s.setRdys b true)

/-! ## RESET (26 R408, R420 to R422) -/

/-- What repair leaves of an erasure-map register: the entries of the flash copy that boot could not repair. -/
def keptErasures (tick reg : Nat) (w : Word) : Word :=
  let keep0 := !Config.bootRepairs reg 0 tick
  let keep1 := !Config.bootRepairs reg 1 tick
  (if keep0 && w.getLsbD 7 then w &&& 0xBF else 0) ||| (if keep1 && w.getLsbD 15 then w &&& 0xBF00 else 0)

/-- The record of a boot stage. -/
def State.bootStage (s : State) (tick stage : Nat) : State :=
  s.blackBox 0x11 [(9, 1, stage), (10, 1, (Config.bootResult tick stage).toNat)]

/-- The package as reset leaves it before boot: memory keeps its bytes, and flash its copies, from which the erasure maps are loaded
(log 6). -/
def State.coldStart (s : State) : State :=
  { State.reset with
    agenda := s.agenda, tick := s.tick,
    upsets := s.upsets.filter fun u => match u with
      | .hbm .. => true
      | _ => false,
    memory := { mem := s.memory.mem, full := s.memory.full },
    host := { hbmer := s.host.flashErasures, flashErasures := s.host.flashErasures, flashCopy := s.host.flashCopy } }

/-- Stage 1: the signature of the first-stage firmware over its digest verifies against the key in ROM. -/
def firstStageGood (tick : Nat) : Bool :=
  edVerifies Config.romKey (Config.firstStageSignature tick) (sha512 (Config.firstStage tick))
/-- How many stages pass: the first one needs its signature, the third one firmware that is not below its counter. -/
def bootPassed (tick : Nat) : Nat :=
  let n := min 5 (Config.bootStages tick)
  if !firstStageGood tick then 0 else if Config.firmwareVersion tick < Config.rollbackCounter tick then min 2 n else n

/-- What a stage does where it passes: the device key pair; the configuration record with the package number, the budget and the
keys, and the counter; the measurement log, of which the spec gives no layout (log 18); the repairs. -/
def State.stageDone (s : State) (tick stage : Nat) : State :=
  match stage with
  | 2 => s.mapHost fun h => { h with deviceKey := Config.deviceKey }
  | 3 => s.mapHost fun h => { h with
      domid := (Config.bootPackage.getD 0).setWidth 32, budget := min Config.bootBudget 2300000,
      signingKeys := Config.signingKeys, firmware := Config.firmwareVersion tick, rollback := Config.rollbackCounter tick }
  | 4 => s.mapHost fun h => { h with measurements := (Config.laterImages tick).flatMap sha512 }
  | 5 =>
    let kept := (s.host.flashErasures.map fun r => (r.1, keptErasures tick r.1 r.2)).filter fun r => r.2 ≠ 0
    s.mapHost fun h => { h with hbmer := kept, flashErasures := kept }
  | _ => s

/-- RESET: the five stages run, up to the first that fails; a failure of the first two halts, a later one is fatal. -/
def execReset (s : State) : Result :=
  let passed := bootPassed s.tick
  let t := (List.range passed).foldl (fun t i => (t.bootStage s.tick (i + 1)).stageDone s.tick (i + 1)) s.coldStart
  .next (if 5 ≤ passed then t
    else
      let t := t.bootStage s.tick (passed + 1)
      if passed < 2 then { t with halted := true }
      else t.fatal 5 [(16, 1, passed + 1), (17, 1, (Config.bootResult s.tick (passed + 1)).toNat)])

end Sys2Proof.Machine
end

