-- ==== Sys2Proof/Machine/HostEvents.lean ====
section
/-! DEFINITION. What the host does: appends, cancels, answers to faults, invalidations, resets of a function, attestation, memory
accesses and the registers of BAR0 (18 R288, R298; 25 R384, R385, R399, R428; 26 R422 to R427). -/
namespace Sys2Proof.Machine

/-! ## Launch chains (18 R288, R298; 26 R423, R426) -/

/-- The eighth store of an append: LAST becomes 0 accepted, 1 FULL or 2 DISABLED. -/
def State.hostAppend (s : State) (asid : Nat) (record : BitVec 512) : State :=
  let note (s : State) (r : BitVec 2) : State := s.mapHost fun h => { h with
    lastAppend := h.lastAppend.put asid r, windowStores := h.windowStores.drop asid }
  if !s.chainEnabled asid then note s 2
  else if s.chainFull asid then note s 1
  else note (s.appendRecord asid record []) 0

/-- HOST_APPEND: a record is appended to a context's chain, or refused. -/
def execHostAppend (asid : Nat) (record : BitVec 512) (s : State) : Result :=
  if asid < 256 then .next (s.hostAppend asid record) else .fault .notEnabled

/-- HOST_CANCEL: the host cancels an id of a level; levels are 1 launch, 2 graph, 3 phase and 4 job. -/
def execHostCancel (asid level job id : Nat) (s : State) : Result :=
  occurs (decide (asid < 256) && decide (1 ≤ level) && decide (level ≤ 4) && decide (job < 65536) && decide (id < 65536))
    (s.cancelId asid job level id 0x66)

/-- FUNCTION_LEVEL_RESET: every context of a VF is terminated, and its fault queue is empty (26 R423). -/
def execFunctionLevelReset (v : Nat) (s : State) : Result :=
  if v = 0 ∨ 128 < v then .fault .notEnabled
  else
    let mine := (List.range 256).filter fun a => a ≠ 0 && s.vfOf a = v
    let s := mine.foldl (fun s a => s.terminateContext a) s
    let q := s.host.queues.getD v {}
    .next (s.mapHost fun h => { h with queues := h.queues.put v { q with head := q.tail } })

/-! ## Answers to held faults (25 R385, R428) -/

/-- Look at the saved frame of an activation as if it stood on its region. -/
def State.inFrame (s : State) (a : Activation) (f : State → State) : State :=
  match a.frame with
  | none => f s
  | some k =>
    let spill (c : Chain) : Bool := c.id.engine = 5
    let r := f { s with
      elements := k.elements, tiles := k.tiles, circuits := k.circuits, chains := k.chains ++ s.chains.filter spill }
    let back : State := { r with
      elements := s.elements, tiles := s.tiles, circuits := s.circuits,
      chains := s.chains.filter (fun c => !spill c) ++ r.chains.filter spill }
    match back.activation a.colour with
    | none => back
    | some b => back.putActivation { b with frame := some { k with
        elements := r.elements, tiles := r.tiles, circuits := r.circuits, chains := r.chains.filter fun c => !spill c } }

/-- The held faults of an activation, on its region or in its frame. -/
def State.heldBy (s : State) (a : Activation) : List HeldFault :=
  match a.frame with
  | none => s.heldFaults a
  | some k => { s with
      elements := k.elements, tiles := k.tiles, chains := k.chains ++ s.chains.filter fun (c : Chain) => c.id.engine = 5 }.heldFaults a

/-- RETRY of a late fault: the start tokens of iterations m up to the ISC at the fault are placed again, each on the port,
channel and context of its RUN (25 R396). -/
def State.regenerate (s : State) (a : Activation) : State :=
  match a.late with
  | none => s
  | some l =>
    if !l.delivered then s
    else
      let again := a.placed.filter fun p => l.m ≤ p.iteration && p.iteration < l.upTo
      let s := again.foldl (fun s p => s.emit (.tileMem a.anchor p.mport) [startToken a p.chan p.ctx p.iteration]) s
      match s.activation a.colour with
      | some b => s.putActivation { b with late := none }
      | none => s

/-- Every held unit of an activation is answered. A generator that a fault holds resumes from its last whole token. -/
def State.answerUnits (s : State) (a : Activation) (skip cont : Bool) : State :=
  let s := a.elements.foldl (fun s e =>
    ((s.element e).ctxs.map (·.1)).foldl (fun s c => answerElement s e c skip cont) s) s
  let s := a.memTiles.foldl (fun s t =>
    let x := s.tile t
    s.putTile t { x with
      stream := answerSequencer x.stream skip,
      streams := x.streams.map fun k => { k with held := none } }) s
  let s := { s with chains := s.chains.map fun (c : Chain) => if c.colour = a.colour && c.held.isSome then c.resume else c }
  let s := { s with links := s.links.map fun (k : Nat × LinkChain) =>
    if (k.2.commands.head?.map fun (c : Collective) => c.colour) = some a.colour then (k.1, { k.2 with held := none }) else k }
  let s := match s.activation a.colour with
    | some b => s.putActivation { b with seq := answerSequencer b.seq skip }
    | none => s
  s.regenerate a

/-- A SKIP acts as KILL where an engine or a late fault is held (25 R385). -/
def State.skipKills (s : State) (a : Activation) : Bool :=
  (s.chains.any fun c => c.colour = a.colour && c.held.isSome) ||
  (s.links.any fun k => (k.2.commands.head?.map (·.colour)) = some a.colour && k.2.held.isSome) ||
  (match a.frame with
   | some k => k.chains.any fun c => c.held.isSome
   | none => false) ||
  (match a.late with
   | some l => l.delivered
   | none => false)

/-- What FRESP's action does. -/
inductive Action where
  | retry | skip | kill | cont
  deriving DecidableEq, Repr

/-- The activation that a write of FRESP[q] names, unless the write is discarded. -/
def State.respondTo (s : State) (q asid colour : Nat) : Option Activation :=
  match s.activation colour with
  | none => none
  | some a =>
    let hs := s.heldBy a
    if a.entry.asid ≠ asid || hs.isEmpty || (q ≠ 0 && (s.vfOf asid ≠ q || hs.any isStage2)) then none else some a

/-- A write of FRESP[q] (25 R385). -/
def State.respond (s : State) (q asid colour : Nat) (action : Action) : State :=
  match s.respondTo q asid colour with
  | none => s
  | some a =>
    if action = .kill || (action = .skip && s.skipKills a) then
      let code := ((s.heldBy a).head?.map (·.info.code.toNat)).getD 0x66
      s.putActivation { a.cancel code with restarts := false }
    else s.inFrame a fun s => s.answerUnits a (action = .skip) (action = .cont)

/-- FRESP_RETRY. -/
def execFrespRetry (q asid colour : Nat) (s : State) : Result := .next (s.respond q asid colour .retry)
/-- FRESP_SKIP. -/
def execFrespSkip (q asid colour : Nat) (s : State) : Result := .next (s.respond q asid colour .skip)
/-- FRESP_KILL. -/
def execFrespKill (q asid colour : Nat) (s : State) : Result := .next (s.respond q asid colour .kill)
/-- FRESP_CONTINUE. -/
def execFrespContinue (q asid colour : Nat) (s : State) : Result := .next (s.respond q asid colour .cont)

/-! ## TLBINVH (25 R399) -/

/-- A write of TLBINVH[q]: a function other than 0 names pages and contexts of its own only. Its completion clears bit 61. -/
def State.tlbinvh (s : State) (q kind target address : Nat) : State :=
  if (q ≠ 0 ∧ (2 ≤ kind ∨ s.vfOf target ≠ q)) ∨ (2 ≤ kind ∧ 128 < target) then s
  else
    let v := kind % 4 * 2 ^ 62 + target % 256 * 2 ^ 48 + address % 2 ^ 48 / 65536 * 65536
    let waits := s.additionsUnder kind address target
    ((s.invalidate kind address target).repatchAll).mapHost fun h => { h with
      tlbinvh := h.tlbinvh.put q (BitVec.ofNat 64 v), tlbWaits := h.tlbWaits.put q waits }

/-- Bit 61 of TLBINVH[q] reads 1 until what the last invalidation waits for is performed. -/
def State.tlbinvhValue (s : State) (q : Nat) : DWord :=
  let busy := (s.host.tlbWaits.getD q []).any fun i => (s.memory.additions.find i).isSome
  s.host.tlbinvh.getD q 0 ||| (if busy then 1#64 <<< 61 else 0)

/-- TLBINVH_PAGE. -/
def execTlbinvhPage (q asid address : Nat) (s : State) : Result := .next (s.tlbinvh q 0 (asid % 256) address)
/-- TLBINVH_ASID. -/
def execTlbinvhAsid (q asid : Nat) (s : State) : Result := .next (s.tlbinvh q 1 (asid % 256) 0)
/-- TLBINVH_IPA: from queue 0 only. -/
def execTlbinvhIpa (q vf address : Nat) (s : State) : Result := .next (s.tlbinvh q 2 (vf % 256) address)
/-- TLBINVH_VF: from queue 0 only. -/
def execTlbinvhVf (q vf : Nat) (s : State) : Result := .next (s.tlbinvh q 3 (vf % 256) 0)

/-! ## Attestation (26 R422, R427) -/

def State.mailbox (s : State) (v : Nat) : Mailbox := s.host.mailboxes.getD v {}
def State.putMailbox (s : State) (v : Nat) (m : Mailbox) : State :=
  s.mapHost fun h => { h with mailboxes := h.mailboxes.put v m }
/-- GO reads 1. -/
def Mailbox.busy (m : Mailbox) : Bool := m.ctl.getLsbD 0

/-- A write of MBCTL: GO starts a request and clears DONE and ERR. -/
def State.writeMbctl (s : State) (v : Nat) (value : DWord) : State :=
  let m := s.mailbox v
  if m.busy || !value.getLsbD 0 then s else s.putMailbox v { m with ctl := 1 }

/-- MAILBOX_GO: a write of MBCTL with GO set. -/
def execMailboxGo (v : Nat) (value : DWord) (s : State) : Result :=
  occurs (decide (v ≤ 128) && value.getLsbD 0) (s.writeMbctl v value)

/-- The report: the measurement log, the nonce, and the device's signature over the digest of both (26 R422). -/
def attestationReport (log : List Byte) (key : BitVec 256) (nonce : BitVec 512) : List Byte :=
  let body := log ++ leBytes 64 nonce.toNat
  body ++ edSign key (sha512 body)

/-- ATTESTATION_REPORT_DONE: the report is delivered, or does not fit, or the DMA fails. -/
def execAttestationReportDone (v : Nat) (dmaGood : Bool) (s : State) : Result :=
  let m := s.mailbox v
  let r := attestationReport s.host.measurements s.host.deviceKey m.nonce
  if !m.busy then .fault .notEnabled
  else if m.len.toNat < r.length then
    .next (s.putMailbox v { m with ctl := 6, out := BitVec.ofNat 32 r.length })
  else if dmaGood then .next (s.putMailbox v { m with ctl := 2, out := BitVec.ofNat 32 r.length, sent := r })
  else .next (s.putMailbox v { m with ctl := 6, out := 0 })

/-! ## Memory accesses of the host cores (15 R242; 24 R377; 26 R419) -/

/-- HOST_MEMORY_ACCESS: a naturally aligned load or store of 1, 2, 4 or 8 bytes by a host core, coherent with the LLC under
ASID 0. One that reaches no ready memory, or a retired frame, takes an access fault. -/
def execHostMemoryAccess (writes : Bool) (address size : Nat) (value : DWord) (s : State) : Result :=
  if !([1, 2, 4, 8].contains size) || address % size ≠ 0 then .fault .notEnabled
  else
    let fails (s : State) : State := s.mapHost fun h => { h with hostFault := true }
    let done (s : State) (v : DWord) : State := s.mapHost fun h => { h with hostFault := false, hostRead := v }
    if !(isHbm address || isCxl address) || !s.tierReady address || s.retired address then .next (fails s)
    else if writes then
      let s := s.llcWrite 0 0 address (leBytes size value.toNat)
      .next (if s.retired address then fails s else done s s.host.hostRead)
    else match s.llcRead address size with
      | (s, some bs) => .next (done s (BitVec.ofNat 64 (natOfBytes bs)))
      | (s, none) => .next (fails s)

/-! ## Registers of BAR0 (26 R425, R426) -/

/-- A host-die register, with its index. -/
inductive HostReg where
  | schdbase | stkbase | domid | dropcnt | csirbase | csirlog | csirovf | llcinj | llcop | rftcnt | bbidx | rdys
  | drt (p : Nat) | rft (i : Nat) | llcq (i : Nat) | hbmer (i : Nat) | rdyt (i : Nat) | qmap (i : Nat)
  | monitor (die kind index : Nat) | xs1 (a : Nat) | xs2 (v : Nat) | event (i : Nat)
  | fqbase (q : Nat) | fqlog (q : Nat) | fqhead (q : Nat) | fqtail (q : Nat) | fqovf (q : Nat) | fresp (q : Nat)
  | tlbinvh (q : Nat) | mbctl (v : Nat) | mbaddr (v : Nat) | mblen (v : Nat) | mbout (v : Nat) | mbnonce (v i : Nat)
  | window (a i : Nat) | lcstat (a : Nat) | ovlcnt (a : Nat) | crbase (a : Nat) | crlog (a : Nat) | crhead (a : Nat)
  | crtail (a : Nat)
  deriving DecidableEq, Repr

/-- An array of registers: its offset, its count and the size of each. -/
def arrayIndex (off base count size : Nat) : Option (Nat × Nat) :=
  if base ≤ off ∧ off < base + count * size then some ((off - base) / size, (off - base) % size) else none

/-- The registers of a function page, each with its size and the byte within it. -/
def functionReg (v off : Nat) : Option (HostReg × Nat × Nat) :=
  if off < 0x008 then some (.fqbase v, 8, off)
  else if off < 0x00C then some (.fqlog v, 4, off - 0x008)
  else if 0x010 ≤ off ∧ off < 0x014 then some (.fqhead v, 4, off - 0x010)
  else if 0x014 ≤ off ∧ off < 0x018 then some (.fqtail v, 4, off - 0x014)
  else if 0x018 ≤ off ∧ off < 0x01C then some (.fqovf v, 4, off - 0x018)
  else if 0x020 ≤ off ∧ off < 0x028 then some (.fresp v, 8, off - 0x020)
  else if 0x028 ≤ off ∧ off < 0x030 then some (.tlbinvh v, 8, off - 0x028)
  else if 0x100 ≤ off ∧ off < 0x108 then some (.mbctl v, 8, off - 0x100)
  else if 0x108 ≤ off ∧ off < 0x110 then some (.mbaddr v, 8, off - 0x108)
  else if 0x110 ≤ off ∧ off < 0x114 then some (.mblen v, 4, off - 0x110)
  else if 0x114 ≤ off ∧ off < 0x118 then some (.mbout v, 4, off - 0x114)
  else if 0x140 ≤ off ∧ off < 0x180 then some (.mbnonce v ((off - 0x140) / 8), 8, (off - 0x140) % 8)
  else none

/-- The registers of a context page. -/
def contextReg (a off : Nat) : Option (HostReg × Nat × Nat) :=
  if off < 0x040 then some (.window a (off / 8), 8, off % 8)
  else if off < 0x048 then some (.lcstat a, 8, off - 0x040)
  else if off < 0x050 then some (.ovlcnt a, 8, off - 0x048)
  else if off < 0x058 then some (.crbase a, 8, off - 0x050)
  else if off < 0x05C then some (.crlog a, 4, off - 0x058)
  else if 0x060 ≤ off ∧ off < 0x064 then some (.crhead a, 4, off - 0x060)
  else if 0x064 ≤ off ∧ off < 0x068 then some (.crtail a, 4, off - 0x064)
  else none

/-- The registers below offset 0x1000. -/
def plainRegs : List (Nat × HostReg × Nat) :=
  [(0x00, .schdbase, 8), (0x08, .stkbase, 8), (0x10, .domid, 4), (0x14, .dropcnt, 4), (0x18, .csirbase, 8),
   (0x20, .csirlog, 4), (0x24, .csirovf, 4), (0x28, .llcinj, 8), (0x30, .llcop, 8), (0x38, .rftcnt, 4), (0x3C, .bbidx, 4),
   (0x40, .rdys, 8)]

/-- The register arrays of the physical function: offset, count, size and the register of an index. -/
def regArrays : List (Nat × Nat × Nat × (Nat → HostReg)) :=
  [(0x1000, 1024, 2, .drt), (0x2000, 1024, 8, .rft), (0x4000, 256, 4, .llcq), (0x5000, 2048, 4, .hbmer),
   (0x7000, 112, 4, .rdyt), (0x8000, 3136, 2, .qmap), (0x10000, 256, 8, .xs1), (0x10800, 129, 8, .xs2),
   (0x100000, 16384, 8, .event)]

/-- The register at an offset of the physical function's BAR0, its size and the byte within it. -/
def regAt (off : Nat) : Option (HostReg × Nat × Nat) :=
  if 0x1000000 ≤ off then
    if off < 0x1000000 + 256 * 4096 then contextReg ((off - 0x1000000) / 4096) (off % 4096) else none
  else if 0x400000 ≤ off then
    if off < 0x400000 + 129 * 65536 then functionReg ((off - 0x400000) / 65536) (off % 65536) else none
  else if 0xC000 ≤ off ∧ off < 0xD000 then
    let i := (off - 0xC000) / 4
    if i % 64 < monitorsOf (i / 64 % 4) then some (.monitor (i / 256) (i / 64 % 4) (i % 64), 4, off % 4) else none
  else match plainRegs.find? fun r => decide (r.1 ≤ off ∧ off < r.1 + r.2.2) with
    | some (base, r, n) => some (r, n, off - base)
    | none => regArrays.findSome? fun r => (arrayIndex off r.1 r.2.1 r.2.2.1).map fun p => (r.2.2.2 p.1, r.2.2.1, p.2)

/-- The contexts of a VF in ascending order, sixteen at most. -/
def State.contextsOf (s : State) (v : Nat) : List Nat := ((List.range 256).filter fun a => a ≠ 0 && s.vfOf a = v).take 16

/-- The offset in the physical function's BAR0 of an offset in the BAR0 of function v. -/
def State.physicalOffset (s : State) (v off : Nat) : Option Nat :=
  if v = 0 then some off
  else if off < 0x10000 then some (0x400000 + 0x10000 * v + off)
  else if off < 0x20000 then (s.contextsOf v)[(off - 0x10000) / 4096]?.map fun a => 0x1000000 + 4096 * a + off % 4096
  else none

/-- Bits of a register value that a mask keeps. -/
def keep (mask : Nat) (v : DWord) : DWord := v &&& BitVec.ofNat 64 mask

/-- An erasure-map register after a write by software: an entry whose position is 36 or above is ignored (26 R407). -/
def hbmerWritten (old v : Word) : Word :=
  let lo := if 36 ≤ slice v.toNat 5 0 then old &&& 0xBF else v &&& 0xBF
  let hi := if 36 ≤ slice v.toNat 13 8 then old &&& 0xBF00 else v &&& 0xBF00
  lo ||| hi

/-- The entries of an erasure-map register that a write enters: valid, and not what stood there. -/
def hbmerEntered (old w : Word) : Word :=
  (if w.getLsbD 7 && w &&& 0xBF ≠ old &&& 0xBF then 0xBF else 0) |||
  (if w.getLsbD 15 && w &&& 0xBF00 ≠ old &&& 0xBF00 then 0xBF00 else 0)

/-- A write of an erasure-map register by software; firmware copies each new entry to flash (26 R407, R408). -/
def State.writeHbmer (s : State) (i : Nat) (value : Word) : State :=
  let old := s.host.hbmer.getD i 0
  let w := hbmerWritten old value
  let mask := hbmerEntered old w
  s.mapHost fun h => { h with
    hbmer := h.hbmer.put i w,
    flashErasures := if mask = 0 then h.flashErasures
      else h.flashErasures.put i ((h.flashErasures.getD i 0 &&& ~~~mask) ||| (w &&& mask)) }

/-- What a function may not write: a register that only ASID 0 writes (18 R287; 22 R344; 23 R355, R369; 24 R373; 25 R384,
R386, R387; 26 R407). -/
def reservedToAsid0 : HostReg → Bool
  | .schdbase | .stkbase | .domid | .csirbase | .csirlog | .llcinj | .llcop | .drt _ | .hbmer _ | .xs1 _ | .xs2 _
  | .fqbase _ | .fqlog _ | .fqovf _ | .crbase _ | .crlog _ => true
  | _ => false

/-- The value of a register as ASID 0 reads it (26 R425, R426). -/
def State.regValue (s : State) : HostReg → DWord
  | .schdbase => s.host.schdbase
  | .stkbase => s.host.stkbase
  | .domid => s.host.domid.setWidth 64
  | .dropcnt => s.host.dropcnt.setWidth 64
  | .csirbase => s.host.csirbase
  | .csirlog => s.host.csirlog.setWidth 64
  | .csirovf => s.host.csirovf.setWidth 64
  | .llcinj => s.host.llcinj
  | .llcop => s.host.llcop
  | .rftcnt => BitVec.ofNat 64 s.host.rft.length
  | .bbidx => BitVec.ofNat 64 (s.host.bbidx + if s.host.frozen then 2 ^ 31 else 0)
  | .rdys => s.host.rdys
  | .drt p => (s.host.drt.getD p 0x3FF).setWidth 64
  | .rft i => match s.host.rft[i]? with
    | some f => BitVec.ofNat 64 (2 ^ 63 + f.toNat)
    | none => 0
  | .llcq i => (s.host.llcq.getD i 0).setWidth 64
  | .hbmer i => (s.host.hbmer.getD i 0).setWidth 64
  | .rdyt i => (s.host.rdyt.getD i 0).setWidth 64
  | .qmap i => (s.host.qmap.getD i 0).setWidth 64
  | .monitor die kind index => keep 0xFFFFFFFF (s.readMonitor die kind index).2
  | .xs1 a => s.host.xs1.getD a 0
  | .xs2 v => s.host.xs2.getD v 0
  | .event i => BitVec.ofNat 64 ((s.host.blackBox.getD (i / 4) 0).toNat / 2 ^ (64 * (i % 4)))
  | .fqbase q => (s.host.queues.getD q {}).base
  | .fqlog q => BitVec.ofNat 64 (s.host.queues.getD q {}).log
  | .fqhead q => (s.host.queues.getD q {}).head.setWidth 64
  | .fqtail q => (s.host.queues.getD q {}).tail.setWidth 64
  | .fqovf q => (s.host.queues.getD q {}).ovf.setWidth 64
  | .fresp q => s.host.fresp.getD q 0
  | .tlbinvh q => s.tlbinvhValue q
  | .mbctl v => (s.mailbox v).ctl
  | .mbaddr v => (s.mailbox v).addr
  | .mblen v => (s.mailbox v).len.setWidth 64
  | .mbout v => (s.mailbox v).out.setWidth 64
  | .mbnonce v i => BitVec.ofNat 64 ((s.mailbox v).nonce.toNat / 2 ^ (64 * i))
  | .window a i => BitVec.ofNat 64 ((s.host.windows.getD a 0).toNat / 2 ^ (64 * i))
  | .lcstat a => BitVec.ofNat 64 ((min (s.chainSize a - s.chainUsed a) 65535) * 65536 +
      (if s.chainEnabled a then 4 else 0) + (s.host.lastAppend.getD a 0).toNat)
  | .ovlcnt a => (s.host.ovlcnt.getD a 0).setWidth 64
  | .crbase a => (s.host.rings.getD a {}).base
  | .crlog a => BitVec.ofNat 64 (s.host.rings.getD a {}).log
  | .crhead a => (s.host.rings.getD a {}).head.setWidth 64
  | .crtail a => (s.host.rings.getD a {}).tail.setWidth 64

/-- Change a fault queue, a completion ring or a mailbox that takes writes. -/
def State.mapQueue (s : State) (q : Nat) (f : Ring → Ring) : State :=
  s.mapHost fun h => { h with queues := h.queues.put q (f (h.queues.getD q {})) }
def State.mapRing (s : State) (a : Nat) (f : Ring → Ring) : State :=
  s.mapHost fun h => { h with rings := h.rings.put a (f (h.rings.getD a {})) }
def State.mapMailbox (s : State) (v : Nat) (f : Mailbox → Mailbox) : State :=
  if (s.mailbox v).busy then s else s.putMailbox v (f (s.mailbox v))

/-- The actions of FRESP by their numbers. -/
def actionOf (n : Nat) : Action := if n = 0 then .retry else if n = 1 then .skip else if n = 2 then .kill else .cont

/-- A store to an append window; the eighth one appends (18 R288). -/
def State.windowStore (s : State) (a i : Nat) (value : DWord) : State :=
  let w := BitVec.ofNat 512 (setField (s.host.windows.getD a 0).toNat (64 * i) 64 value.toNat)
  let n := s.host.windowStores.getD a 0 + 1
  let s := s.mapHost fun h => { h with windows := h.windows.put a w, windowStores := h.windowStores.put a n }
  if n < 8 then s else s.hostAppend a w

/-- A register takes a value of its own width from function v. `half` says that only a half was written: the low one of
FRESP and TLBINVH waits for the high one. -/
def State.setReg (s : State) (v : Nat) (r : HostReg) (half : Option Bool) (value : DWord) : State :=
  if v ≠ 0 && reservedToAsid0 r then s
  else match r with
  | .schdbase => s.mapHost fun h => { h with schdbase := value }
  | .stkbase => s.mapHost fun h => { h with stkbase := value }
  | .domid => s.mapHost fun h => { h with domid := (keep 0x3FF value).setWidth 32 }
  | .csirbase => s.mapHost fun h => { h with csirbase := keep 0xFFFFFFFFFFFFFFC0 value }
  | .csirlog => s.mapHost fun h => { h with csirlog := value.setWidth 32 }
  | .llcinj => s.writeLlcinj v value
  | .llcop =>
    if value.getLsbD 63 then s.writeLlcop v value
    else if slice value.toNat 61 50 ≠ 0 || slice value.toNat 7 0 ≠ 0 then s
    else s.mapHost fun h => { h with llcop := keep (2 ^ 62 - 1) value ||| (h.llcop &&& BitVec.ofNat 64 (2 ^ 62)) }
  | .drt p => s.mapHost fun h => { h with drt := h.drt.put p ((keep 0x83FF value).setWidth 16) }
  | .hbmer i => s.writeHbmer i (value.setWidth 32)
  | .xs1 a => s.mapHost fun h => { h with xs1 := h.xs1.put a (keep 0xFFFFFFFFF001 value) }
  | .xs2 q => s.mapHost fun h => { h with
      xs2 := h.xs2.put q (keep (if q = 0 then 0xFFFFFFFFF003 else 0xFFFFFFFFF001) value) }
  | .fqbase q => s.mapQueue q fun k => { k with base := keep 0xFFFFFFFFFFC0 value }
  | .fqlog q => s.mapQueue q fun k => { k with log := value.toNat % 32 }
  | .fqhead q => if v = q then s.mapQueue q fun k => { k with head := value.setWidth 32 } else s
  | .fqovf q => if value = 0 then s.mapQueue q fun k => { k with ovf := 0 } else s
  | .fresp q =>
    if half = some false then s.mapHost fun h => { h with fresp := h.fresp.put q (keep 0xC000000000FFFFFF value) }
    else s.respond q (slice value.toNat 23 16) (slice value.toNat 15 0) (actionOf (slice value.toNat 63 62))
  | .tlbinvh q =>
    if half = some false then s.mapHost fun h => { h with
      tlbinvh := h.tlbinvh.put q (keep 0xC0FFFFFFFFFF0000 value) }
    else s.tlbinvh q (slice value.toNat 63 62) (slice value.toNat 55 48) (value.toNat % 2 ^ 48)
  | .mbctl q => if half = some true then s else s.writeMbctl q value
  | .mbaddr q => s.mapMailbox q fun m => { m with addr := value }
  | .mblen q => s.mapMailbox q fun m => { m with len := value.setWidth 32 }
  | .mbnonce q i => s.mapMailbox q fun m => { m with
      nonce := BitVec.ofNat 512 (setField m.nonce.toNat (64 * i) 64 value.toNat) }
  | .window a i => s.windowStore a i value
  | .ovlcnt a => if value = 0 then s.mapHost fun h => { h with ovlcnt := h.ovlcnt.drop a } else s
  | .crbase a => (s.mapRing a fun k => { k with base := keep 0xFFFFFFFFFFC0 value }).payOwed a
  | .crlog a => (s.mapRing a fun k => { k with log := value.toNat % 32 }).payOwed a
  | .crhead a =>
    if v = s.vfOf a then (s.mapRing a fun k => { k with head := value.setWidth 32 }).payOwed a else s
  | _ => s

/-- REGISTER_WRITE: a write to BAR0 of function v. A register takes a write of its own width, an 8-byte one also one of an
aligned half; any other write is discarded, as is one to no register. -/
def execRegisterWrite (v offset size : Nat) (value : DWord) (s : State) : Result :=
  if 128 < v then .fault .notEnabled
  else match (s.physicalOffset v offset).bind regAt with
    | none => .next s
    | some (r, n, at_) =>
      if size = n ∧ at_ = 0 then .next (s.setReg v r none (keep (2 ^ (8 * n) - 1) value))
      else if n = 8 ∧ size = 4 ∧ at_ % 4 = 0 then
        let merged := BitVec.ofNat 64 (setField (s.regValue r).toNat (8 * at_) 32 value.toNat)
        match r with
        | .window .. => .next s
        | .mbnonce .. => .next s
        | r => .next (s.setReg v r (some (at_ = 4)) merged)
      else .next s

/-- A read of BAR0 of function v: a register at its own width, an 8-byte one also as an aligned half; any other read is zero, as is
one of no register and of a page with no context behind it. A VF reads of its pages what function 0 reads (26 R425; log 53). A
monitor has the read effect of MON. -/
def State.barRead (s : State) (v offset size : Nat) : State × DWord :=
  match (s.physicalOffset v offset).bind regAt with
  | none => (s, 0)
  | some (r, n, at_) =>
    if (size = n ∧ at_ = 0) ∨ (n = 8 ∧ size = 4 ∧ at_ % 4 = 0) then
      ((match r with
        | .monitor die kind index => (s.readMonitor die kind index).1
        | _ => s), BitVec.ofNat 64 ((s.regValue r).toNat / 2 ^ (8 * at_) % 2 ^ (8 * size)))
    else (s, 0)

/-- MONITOR_READ: a read of BAR0 by function v, of which those of a monitor alone change anything but what the host has read. -/
def execMonitorRead (v offset size : Nat) (s : State) : Result :=
  let r := s.barRead v offset size
  occurs (decide (v ≤ 128)) (r.1.mapHost fun h => { h with hostRead := r.2 })

/-- FQOVF_CLEAR: function v writes 0 to FQOVF[q]; only ASID 0 clears it (25 R384; log 53). -/
def execFqovfClear (v q : Nat) (s : State) : Result :=
  if 128 < q then .fault .notEnabled
  else if v = 0 then .next (s.mapQueue q fun k => { k with ovf := 0 })
  else .next s

/-- OVLCNT_CLEAR: function v writes 0 to the OVLCNT of a context, which it reaches if it is function 0 or the context's. -/
def execOvlcntClear (v asid : Nat) (s : State) : Result :=
  if 256 ≤ asid then .fault .notEnabled
  else if v = 0 ∨ v = s.vfOf asid then .next (s.mapHost fun h => { h with ovlcnt := h.ovlcnt.drop asid })
  else .next s

end Sys2Proof.Machine
end

