-- ==== Sys2Proof/Machine/WeltEvents.lean ====
section
/-! DEFINITION. Between packages: frames, SENDR messages and their delivery, collective commands and chunk checksums (22 R344 to
R349; 23 R355 to R369; 26 R410, R411). -/
namespace Sys2Proof.Machine

/-! ## Frames and messages (23 R355 to R360) -/

/-- The package, die, region, channel and context of a destination word (05 R79). -/
def destPackage (d : DWord) : Nat := slice d.toNat 43 34
def destDie (d : DWord) : Nat := slice d.toNat 33 32
def destTile (d : DWord) : Nat := slice d.toNat 31 28
def destElement (d : DWord) : Nat := slice d.toNat 27 24
def destColour (d : DWord) : Nat := slice d.toNat 15 0

/-- A message that came over a link, as a message of this package: it stands on the die of the link's cache die. -/
def arrivedMessage (now link : Nat) (m : WeltMessage) : Message :=
  { dest := m.dest, source := 65536, flits := m.flits, born := now, aged := m.age, die := link / 6, link := some link,
    token := { kind := if m.last then .last else .data, vector := decide (1 < m.flits), chan := m.dest.extractLsb' 19 5,
               ctx := m.dest.extractLsb' 16 3, colour := m.dest.extractLsb' 0 16, iter := m.iter,
               data := m.data &&& BitVec.ofNat 2048 (2 ^ (256 * m.flits) - 1) } }

/-- The age of a message (23 R357); in an inbound buffer it waits for its activation and does not age out (R359). -/
def Message.age (m : Message) (now : Nat) : Nat := m.aged + (now - m.born)
def Message.tooOld (m : Message) (now : Nat) : Bool := !m.buffered && decide (524288 < m.age now)

/-- The quadrant next to one on the way to another (02 R13; 12 R191). Between 1 and 2 the way is a free choice (log 1). -/
def bridgeTo (tick from_ to_ : Nat) : Nat :=
  if from_ + to_ ≠ 3 then to_
  else if from_ = 0 then 1
  else if from_ = 3 then 2
  else if Config.crossesZero tick then 0 else 3

/-- The frames that a link's replay buffer holds are sent again, in order, by the links of their destinations; ages go on (23
R356, R357). -/
def State.resendFrames (s : State) (link : Nat) : State :=
  let mine := s.welt.sent.filter fun f => f.link = link
  (mine.drop (mine.length - Config.unacknowledged link s.tick)).foldl (fun s f => match f.cargo with
    | .message m =>
      let age := m.age + (s.cycle - f.cycle)
      if 524288 < age then s.dropMessage else s.sendFrame (destPackage m.dest) (.message { m with age := age })
    | .region m => s.sendFrame m.target (.region m)) s

/-- The flits that the inbound buffer of a die holds (23 R359). -/
def State.inboundFlits (s : State) (die : Nat) : Nat :=
  ((s.welt.messages.filter fun m => m.buffered && destDie m.dest = die).map (·.flits)).sum

/-- Where a message that is for this package goes: the activation of its colour with the element that its die and region fields
name, or none, where it is discarded (23 R358, R359). -/
def State.destOf (s : State) (m : Message) : Option (Activation × Nat) :=
  match s.activation (destColour m.dest) with
  | none => none
  | some a =>
    if a.die = destDie m.dest then (a.computeTiles[destTile m.dest]?).map fun t => (a, t + destElement m.dest) else none

/-- A message is for this package. -/
def State.isHere (s : State) (m : Message) : Bool := s.isOwnPackage (destPackage m.dest)
/-- The inbound buffer of a die is full: the die accepts no message (23 R359). -/
def State.inboundFull (s : State) (die : Nat) : Bool := 2048 ≤ s.inboundFlits die
/-- A message that has come to its die and waits there for room: in the inbound buffer, or in its remote FIFO, or because the die
accepts none (23 R359). -/
def State.lacksRoom (s : State) (m : Message) : Bool :=
  s.isHere m && (match s.destOf m with
    | none => false
    | some (a, el) =>
      if !m.buffered && s.inboundFull a.die then true
      else if a.phase = .saved then m.buffered || 2048 < s.inboundFlits a.die + m.flits
      else
        let x := s.element el
        ctxEnabled x m.token.ctx.toNat && m.token.chan.toNat ≤ hspan x m.token.ctx.toNat &&
        decide (16 < (x.ports.getD 3 {}).remote.length + (flitsOf m.token).length))
/-- A message stops its die: its activation is pre-empted and the inbound buffer has no room for it. -/
def State.stopsDie (s : State) (m : Message) : Bool :=
  !m.buffered && s.lacksRoom m && (match s.destOf m with
    | some (a, _) => a.phase = .saved
    | none => false)

/-- A message is for a pre-empted activation and not yet in its inbound buffer. -/
def State.isToBuffer (s : State) (m : Message) : Bool :=
  !m.buffered && s.isHere m && (match s.destOf m with
    | some (a, _) => a.phase = .saved
    | none => false)
/-- A message waits for an earlier one: from the same element of the same activation to the same destination word, where those of
other packages count as one (23 R360), or one that lies in the inbound buffer for the same colour, but may join those in the
buffer; one that stops its die; or one that stops its link (12 R185). -/
def State.waitsFor (s : State) (earlier : List Message) (m : Message) : Bool :=
  earlier.any fun e =>
    (((e.source = m.source && e.sender = m.sender && e.dest = m.dest) ||
      (e.buffered && destColour e.dest = destColour m.dest)) && !(e.buffered && s.isToBuffer m)) ||
    (s.isHere m && !m.buffered && s.stopsDie e && destDie e.dest = destDie m.dest) ||
    (e.link.isSome && e.link = m.link && !e.buffered && !m.buffered && s.lacksRoom e)

/-- A die stops its links: its inbound buffer is full, or a message waits for more room in it than there is (23 R359). -/
def State.dieStopped (s : State) (die : Nat) : Bool :=
  s.inboundFull die || s.welt.messages.any fun m => destDie m.dest = die && s.stopsDie m
/-- A link is stopped: its die stops, or a message that came over it waits for room (23 R359; 12 R185). -/
def State.linkStopped (s : State) (link : Nat) : Bool :=
  s.dieStopped (link / 6) || s.welt.messages.any fun m => m.link = some link && !m.buffered && s.lacksRoom m

/-- Two frames are the same: a message grows older while it is replayed. -/
def sameFrame : WeltFrame → WeltFrame → Bool
  | .message m, .message n => { m with age := 0 } = { n with age := 0 }
  | f, g => f = g

/-- A frame can come over a link: it is up and not stopped, and no other frame is being replayed on it. -/
def State.linkOpen (s : State) (link : Nat) (f : WeltFrame) : Bool :=
  link < 24 && s.host.rdys.getLsbD (23 + link) && !s.linkStopped link &&
  (match s.welt.replays.find link with
   | some (g, _) => sameFrame g f
   | none => true)

/-- A good frame has come over a link. -/
def State.tookFrame (s : State) (link : Nat) : State :=
  { s with welt := { s.welt with replays := s.welt.replays.drop link } }

/-- A link goes down: its readiness bit clears, and what its own replay buffer holds goes by other links. -/
def State.linkDown (s : State) (link : Nat) : State :=
  let s := { s with welt := { s.welt with replays := s.welt.replays.drop link, resent := s.welt.resent.drop link } }
  ((s.setRdys (23 + link) false).blackBox 0x05 [(9, 1, link)]).resendFrames link

/-- A frame of the package fails at the other end once more, or is taken there. -/
def State.ownFrame (s : State) (link : Nat) (good : Bool) : State :=
  let n := s.welt.resent.getD link 0
  if good then { s with welt := { s.welt with resent := s.welt.resent.drop link } }
  else if n < 16 then { s with welt := { s.welt with resent := s.welt.resent.put link (n + 1) } }
  else s.linkDown link

/-- A frame that comes over a link fails its CRC: it is replayed, and after 16 failed replays the link is down. -/
def State.failFrame (s : State) (link : Nat) (f : WeltFrame) : State :=
  let n := ((s.welt.replays.find link).map (·.2)).getD 0
  if n < 16 then { s with welt := { s.welt with replays := s.welt.replays.put link (f, n + 1) } } else s.linkDown link

/-- WELT_FRAME_RECEIVE: a frame comes over a link that is up and not stopped. One whose CRC fails is replayed before any later
frame, and after 16 failed replays of a frame of either end the link is down. A good frame of a link region is there, whether its
command is still in the chain or not; COLLECTIVE_STEP or COLLECTIVE_ABORT acts on it. -/
def execWeltFrameReceive (link : Nat) (frame : WeltFrame) (crcGood : Bool) (s : State) : Result :=
  match frame with
  | .own =>
    occurs (link < 24 && s.host.rdys.getLsbD (23 + link) && s.welt.sent.any fun f => f.link = link) (s.ownFrame link crcGood)
  | .message m =>
    if m.flits = 0 || 8 < m.flits || !s.linkOpen link frame then .fault .notEnabled
    else if crcGood then
      let s := s.tookFrame link
      .next { s with welt := { s.welt with messages := s.welt.messages ++ [arrivedMessage s.cycle link m] } }
    else .next (s.failFrame link frame)
  | _ => occurs (s.linkOpen link frame) (if crcGood then s.tookFrame link else s.failFrame link frame)

/-- WELT_MESSAGE_AGE_DISCARD: a message older than 524,288 cycles is discarded and counted, also one of this package (log 54). -/
def execWeltMessageAgeDiscard (message : Nat) (s : State) : Result :=
  match s.welt.messages[message]? with
  | none => .fault .notEnabled
  | some m => occurs (m.tooOld s.cycle)
      ({ s with welt := { s.welt with messages := s.welt.messages.eraseIdx message } }).dropMessage

/-- A message goes to another package over its link, or is lost. -/
def State.forwardMessage (s : State) (m : Message) : State :=
  s.sendFrame (destPackage m.dest) (.message
    { dest := m.dest, last := decide (m.token.kind = .last), iter := m.token.iter, flits := m.flits, data := m.token.data,
      age := m.age s.cycle })

/-- The die that a message leaves by or is for; one that no link reaches goes nowhere. -/
def State.wayOf (s : State) (m : Message) : Nat :=
  if s.isHere m then destDie m.dest else ((s.weltLink (destPackage m.dest)).map (· / 6)).getD m.die

/-- A message for this package that stands on its die (23 R359). -/
def State.deliverMessage (s : State) (message : Nat) (m : Message) : Result :=
  let gone := { s with welt := { s.welt with messages := s.welt.messages.eraseIdx message } }
  match s.destOf m with
  | none => .next gone.dropMessage
  | some (a, el) =>
    if s.lacksRoom m then .fault .notEnabled
    else if a.phase = .saved then
      let n := (s.welt.messages.takeWhile (·.buffered)).length
      .next { gone with welt := { gone.welt with
        messages := gone.welt.messages.take n ++ { m with buffered := true } :: gone.welt.messages.drop n } }
    else
      let x := s.element el
      let c := m.token.ctx.toNat
      if !ctxEnabled x c || hspan x c < m.token.chan.toNat then .next (gone.recordAtElement el m.token 0x44)
      else
        let q := x.ports.getD 3 {}
        .next (gone.putElement el { x with
          ports := x.ports.put 3 { q with remote := q.remote ++ flitsOf m.token, order := q.order ++ [.remote] } })

/-- SENDR_DELIVERY: a message crosses to the next quadrant on its way, leaves the package, or meets its fate on its die (02 R13;
12 R191; 23 R359). -/
def execSendrDelivery (message : Nat) (s : State) : Result :=
  match s.welt.messages[message]? with
  | none => .fault .notEnabled
  | some m =>
    if m.tooOld s.cycle || s.waitsFor (s.welt.messages.take message) m then .fault .notEnabled
    else if m.die ≠ s.wayOf m then
      .next { s with welt := { s.welt with
        messages := s.welt.messages.set message { m with die := bridgeTo s.tick m.die (s.wayOf m) } } }
    else if s.isHere m then s.deliverMessage message m
    else .next (({ s with welt := { s.welt with messages := s.welt.messages.eraseIdx message } }).forwardMessage m)

/-! ## The graphs of collective commands (22 R348; 23 R361, R362) -/

/-- The command's fields (22 R345, R346). -/
def Collective.field (k : Collective) (off n : Nat) : Nat := Sys2Proof.Machine.field k.block off n
def Collective.control (k : Collective) : Nat := k.field 0 4
def Collective.length (k : Collective) : Nat := k.field 0x04 4
def Collective.source (k : Collective) : Nat := k.field 0x08 8
def Collective.dest (k : Collective) : Nat := k.field 0x10 8
def Collective.id (k : Collective) : Nat := k.field 0x18 2
def Collective.eyeletBytes (k : Collective) : Nat := k.field 0x1C 4
def Collective.n (k : Collective) : Nat := k.field 0x28 2
def Collective.rank (k : Collective) : Nat := k.field 0x2A 2
def Collective.alg (k : Collective) : Nat := slice k.control 13 11
def Collective.type (k : Collective) : Nat := slice k.control 10 8
def Collective.op (k : Collective) : Nat := slice k.control 7 4

/-- CAR and CRS reduce; the others move. -/
def Collective.reduces (k : Collective) : Bool := k.fn ≤ 1
/-- CRS up a chain: its steps carry the slices of every rank as one payload, and rank n − 1 then sends each rank its own (23
R362). -/
def Collective.sendsSlices (k : Collective) : Bool := k.alg = 0 && k.fn = 1
/-- CAG up a chain: the contributions concatenate, and the whole returns down as one payload (23 R362). -/
def Collective.grows (k : Collective) : Bool := k.alg = 0 && k.fn = 2

/-- The payloads of a command: one for CAR and CBCAST, one for each rank, or for CA2A one for each pair of ranks, i to j at
i × n + j. CRS up a chain has the whole as payload 0 and what rank j receives as payload j + 1; CAG up a chain has the whole. -/
def Collective.slices (k : Collective) : Nat :=
  if k.sendsSlices then k.n + 1 else if k.grows ∨ k.fn = 0 ∨ k.fn = 4 then 1 else if k.fn = 3 then k.n * k.n else k.n
/-- The bytes of a payload. -/
def Collective.sliceBytes (k : Collective) (slice : Nat) : Nat :=
  if k.grows || (k.sendsSlices && slice = 0) then k.n * k.length else k.length
/-- A payload is combined. -/
def Collective.folds (k : Collective) (slice : Nat) : Bool := k.reduces && !(k.sendsSlices && slice ≠ 0)
/-- The rank that a moved payload starts from. -/
def Collective.giver (k : Collective) (slice : Nat) : Nat :=
  if k.sendsSlices then k.n - 1 else if k.fn = 3 then slice / k.n else if k.fn = 2 then slice else 0
/-- Whether a rank gives a contribution to a payload, and whether it needs the result. -/
def Collective.gives (k : Collective) (slice r : Nat) : Bool := k.folds slice || k.giver slice = r
def Collective.needs (k : Collective) (slice r : Nat) : Bool :=
  if k.sendsSlices then slice = r + 1 else if k.fn = 1 then slice = r else if k.fn = 3 then slice % k.n = r else true
/-- Where a payload lies at a source and at a rank's destination. -/
def Collective.sourceAt (k : Collective) (slice : Nat) : Nat :=
  k.source + (if k.sendsSlices then 0 else if k.fn = 1 then slice else if k.fn = 3 then slice % k.n else 0) * k.length
def Collective.destAt (k : Collective) (slice : Nat) : Nat :=
  k.dest + (if k.grows then 0 else if k.fn = 2 then slice else if k.fn = 3 then slice / k.n else 0) * k.length

/-- Bytes of a chunk, and the chunks of a payload, numbered from its start (22 R348, 23 R366). -/
def Collective.chunkSize (k : Collective) : Nat := if k.type = 4 then 4608 else 4096
def Collective.chunks (k : Collective) (slice : Nat) : Nat := (k.sliceBytes slice + k.chunkSize - 1) / k.chunkSize
def Collective.chunkBytes (k : Collective) (slice index : Nat) : Nat :=
  min k.chunkSize (k.sliceBytes slice - index * k.chunkSize)

/-- A transfer of a chunk: its step, its ranks, and whether it carries the partial of a path, a contribution to a home, or the
result. -/
structure Transfer where
  step : Nat
  src : Nat
  dst : Nat
  partial_ : Bool := false
  gift : Bool := false
  deriving DecidableEq, Repr, Inhabited

/-- The home of a chunk under direct and star (23 R362). -/
def Collective.home (k : Collective) (slice index : Nat) : Nat :=
  if k.alg = 2 then 0 else if k.fn = 1 then slice else if k.fn = 3 then slice % k.n else index % k.n

/-- The transfers of one chunk, in order of their steps. -/
def Collective.transfers (k : Collective) (slice index : Nat) : List Transfer :=
  let n := k.n
  let ks := (List.range (n - 1)).map (· + 1)
  let down : List Transfer := ks.map fun i => { step := n - 1 + i, src := n - i, dst := n - i - 1 }
  match k.alg with
  | 0 => match k.fn with
    | 0 => (ks.map fun i => { step := i, src := i - 1, dst := i, partial_ := true : Transfer }) ++ down
    | 1 => if slice = 0 then ks.map fun i => { step := i, src := i - 1, dst := i, partial_ := true : Transfer }
        else if slice = n then [] else [{ step := n, src := n - 1, dst := slice - 1 }]
    | 2 => ((ks.filter fun i => decide (index * k.chunkSize < i * k.length)).map fun i =>
        { step := i, src := i - 1, dst := i : Transfer }) ++ down
    | _ => ks.map fun i => { step := i, src := i - 1, dst := i }
  | 3 =>
    let o := if k.fn = 0 then index % n else if k.fn = 4 then 0 else slice
    if k.reduces then
      (ks.map fun i => { step := i, src := (o + i) % n, dst := (o + i + 1) % n, partial_ := true : Transfer }) ++
      (if k.fn = 0 then ks.map fun i => { step := n - 1 + i, src := (o + i - 1) % n, dst := (o + i) % n } else [])
    else ks.map fun i => { step := i, src := (o + i - 1) % n, dst := (o + i) % n }
  | _ =>
    let h := k.home slice index
    let givers := ((List.range n).filter fun r => k.gives slice r && r ≠ h)
    (givers.map fun r => { step := 1, src := r, dst := h, gift := k.reduces : Transfer }) ++
    (if k.fn = 1 && k.alg = 1 || k.fn = 3 then []
     else ((List.range n).filter fun r => k.needs slice r && r ≠ h).map fun r => { step := 2, src := h, dst := r })

/-- The bytes that a transfer of a chunk carries: up a growing chain, what the ranks below have given of it. -/
def Collective.carries (k : Collective) (slice index : Nat) (t : Transfer) : Nat :=
  if k.grows && t.step < k.n then min k.chunkSize (t.step * k.length - index * k.chunkSize) else k.chunkBytes slice index

/-! ## Combination (22 R347; 23 R363, R364) -/

/-- lse of two pairs: m and l of each. -/
def lsePair (a b : Nat × Nat) : (Nat × Nat) × Word :=
  let bad (x : Nat) : Bool := (fmtF32.value x).isNan || x = fmtF32.infinity
  if bad a.1 || bad a.2 || bad b.1 || bad b.2 then ((fmtF32.nan, fmtF32.nan), evVnv)
  else
    let m := (minMax fmtF32 true a.1 b.1).1
    if m = fmtF32.signBit + fmtF32.infinity then ((m, 0), 0)
    else
      let below (x : Nat) : Nat × Word := sumProducts fmtF32 .rne [] [(false, x), (true, m)]
      let da := below a.1
      let db := below b.1
      let ea := specialFn 2 da.1
      let eb := specialFn 2 db.1
      let l := sumProducts fmtF32 .rne [(false, a.2, ea.1), (false, b.2, eb.1)] []
      ((m, l.1), da.2 ||| db.2 ||| ea.2 ||| eb.2 ||| l.2)

/-- Element k of a scaled block: round_rne(S × code, f32), with its events (23 R364; 04 R55, R57). -/
def scaledElement (scale code : Nat) : Nat × Word :=
  let s := fmtF32.value scale
  let p := s.mul (fmtE4m3.value code)
  let r := fmtF32.encode .rne p.1
  (r.1, r.2 ||| nvIf (p.2 || s.isSignalling))

/-- The wide elements of a chunk, with the events of forming them: integers as bits, floating values as f32. -/
def decodeChunk (type : Nat) (bs : List Byte) : List Nat × Word :=
  let cut (es : Nat) : List Nat := (List.range (bs.length / es)).map fun i => natOfBytes ((bs.drop (es * i)).take es)
  match type with
  | 1 => (cut 8, 0)
  | 3 => ((cut 2).map fun b => b * 65536, 0)
  | 4 =>
    let xs := (List.range (bs.length / 36)).flatMap fun b =>
      let blk := bs.drop (36 * b)
      (List.range 32).map fun i => scaledElement (natOfBytes (blk.take 4)) ((blk.drop (4 + i)).headD 0).toNat
    (xs.map (·.1), xs.foldl (fun e x => e ||| x.2) 0)
  | _ => (cut 4, 0)

/-- One block of e4m3 codes: the scale from the largest finite magnitude, and the codes of the exact quotients; where the scale
of a block that is not all zero rounds to zero, a zero is 0 / 0 (04 R55). -/
def encodeBlock (xs : List Nat) : List Byte × Word :=
  let finite := xs.filter fun x => !(fmtF32.value x).isNan && x % 2 ^ 31 ≠ fmtF32.infinity
  let top := finite.foldl (fun m x => max m (x % 2 ^ 31)) 0
  let scale : Nat := match fmtF32.value top with
    | .fin _ m e =>
      let q := stickyDiv m 448 80
      (fmtF32.round .rne false q.1 (q.2 + e)).1
    | _ => 0
  let code (x : Nat) : Nat × Word :=
    match fmtF32.value x, fmtF32.value scale with
    | .fin neg m e, .fin _ d u =>
      if d = 0 then
        if m = 0 then (0x7F, nvIf true) else fmtE4m3.encode .rne (.inf neg)
      else
        let q := stickyDiv m d 80
        fmtE4m3.round .rne neg q.1 (q.2 + e - u)
    | v, _ => fmtE4m3.encode .rne v
  let cs := xs.map fun x => if top = 0 && (fmtF32.value x).isZero then (0, 0) else code x
  (leBytes 4 scale ++ cs.map (fun c => BitVec.ofNat 8 c.1), cs.foldl (fun e c => e ||| c.2) 0)

/-- A chunk in the command's type from its wide elements. -/
def encodeChunk (type : Nat) (xs : List Nat) : List Byte × Word :=
  match type with
  | 1 => (xs.flatMap (leBytes 8 ·), 0)
  | 3 =>
    let rs := xs.map fun x => convertFloat fmtF32 fmtBf16 .rne x
    (rs.flatMap fun r => leBytes 2 r.1, rs.foldl (fun e r => e ||| r.2) 0)
  | 4 =>
    let rs := (List.range (xs.length / 32)).map fun b => encodeBlock ((xs.drop (32 * b)).take 32)
    (rs.flatMap (·.1), rs.foldl (fun e r => e ||| r.2) 0)
  | _ => (xs.flatMap (leBytes 4 ·), 0)

/-- One combination of two wide elements. -/
def combineOne (type op a b : Nat) : Nat × Word :=
  if type ≤ 1 then
    let w := if type = 0 then 32 else 64
    match op with
    | 0 => ((a + b) % 2 ^ w, 0)
    | 1 => (if signedOf w a ≤ signedOf w b then a else b, 0)
    | _ => (if signedOf w a ≤ signedOf w b then b else a, 0)
  else match op with
    | 0 => addF32 a b
    | 1 => minMax fmtF32 false a b
    | _ => minMax fmtF32 true a b

/-- lse of two lists of words, pair by pair. -/
def combinePairs : List Nat → List Nat → List Nat × Word
  | ma :: la :: as_, mb :: lb :: bs =>
    let r := lsePair (ma, la) (mb, lb)
    let q := combinePairs as_ bs
    (r.1.1 :: r.1.2 :: q.1, r.2 ||| q.2)
  | _, _ => ([], 0)

/-- The combination of two lists of wide elements, the lower ranks first. -/
def combineLists (type op : Nat) (xs ys : List Nat) : List Nat × Word :=
  if op = 3 then combinePairs xs ys
  else
    let rs := (xs.zip ys).map fun p => combineOne type op p.1 p.2
    (rs.map (·.1), rs.foldl (fun e r => e ||| r.2) 0)

/-- Contributions combined in ascending rank and rounded once to the type. -/
def combineAll (type op : Nat) (parts : List (List Byte)) : List Byte × Word :=
  match parts.map (decodeChunk type) with
  | [] => ([], 0)
  | x :: xs =>
    let r := xs.foldl (fun (acc : List Nat × Word) y =>
      let q := combineLists type op acc.1 y.1
      (q.1, acc.2 ||| y.2 ||| q.2)) x
    let e := encodeChunk type r.1
    (e.1, r.2 ||| e.2)

/-- The checksum pair of a chunk (22 R349, 23 R366). -/
def checksumPair (type : Nat) (bs : List Byte) : DWord × DWord :=
  let es := if type = 1 then 8 else if type = 3 then 2 else 4
  let xs := (List.range (bs.length / es)).map fun i => signedOf (8 * es) (natOfBytes ((bs.drop (es * i)).take es))
  (BitVec.ofInt 64 (xs.foldl (· + ·) 0), BitVec.ofInt 64 ((xs.zipIdx.map fun x => ((x.2 + 1 : Nat) : Int) * x.1).foldl (· + ·) 0))

/-- A combination whose output pair can be predicted from its input pairs (23 R367). -/
def Collective.predictable (k : Collective) : Bool := k.op = 0 && k.type ≤ 1
/-- A recomputed pair agrees with the prediction, modulo 2^w. -/
def pairAgrees (type : Nat) (p q : DWord × DWord) : Bool :=
  let w := if type = 0 then 32 else 64
  p.1.toNat % 2 ^ w = q.1.toNat % 2 ^ w && p.2.toNat % 2 ^ w = q.2.toNat % 2 ^ w

/-! ## The command at the head of a link region's chain -/

def State.linkChain (s : State) (key : Nat) : LinkChain := s.links.getD key {}
def State.putLink (s : State) (key : Nat) (k : LinkChain) : State := { s with links := s.links.put key k }
/-- Put the first command of a chain back. -/
def State.setHead (s : State) (key : Nat) (k : Collective) : State :=
  let c := s.linkChain key
  s.putLink key { c with commands := k :: c.commands.drop 1 }

/-- The first command of a link region's chain and its activation, unless a fault or a pre-emption stops it; a second attempt of a
combination goes on (26 R411). -/
def State.headCommand (s : State) (die lreg : Nat) : Option (Collective × Activation) :=
  if 4 ≤ die || 6 ≤ lreg then none
  else
    let c := s.linkChain (6 * die + lreg)
    if c.held.isSome then none
    else match c.commands with
      | [] => none
      | k :: _ => match s.activation k.colour with
        | none => none
        | some a => if a.mayServe || (k.attempt ≠ 0 && a.mayRetry) then some (k, a) else none

/-- Stop a collective command on a fault: a page fault holds it, any other ends its activation, whose stop sends the aborts
(16 R258; 22 R344; 23 R365). -/
def State.stopCollective (s : State) (key : Nat) (k : Collective) (i : FaultInfo) : State :=
  let a := (s.activation k.colour).getD {}
  let s := s.report
    { record := a.entry.va, unit := 5, asid := k.asid, slot := key % 6, colour := k.colour, identifier := linkAnchor key,
      place := k.place % 65536 } i
  let page := 0x30 ≤ i.code.toNat && i.code.toNat ≤ 0x35
  if page then
    let c := s.linkChain key
    s.putLink key { c with held := some { info := i, place := k.place } }
  else s.cancelActivation k.colour i.code.toNat

/-- A link region is ready: its four tiles and its welt link are (26 R419). -/
def State.linkReady (s : State) (key : Nat) : Bool :=
  (linkTilesAt (linkAnchor key)).all s.tileReady && s.host.rdys.getLsbD (23 + key)

/-- The refusals that the parameter block decides (22 R345, R346; 23 R361, R362, R364). -/
def Collective.blockGood (k : Collective) : Bool :=
  let c := k.control
  let es := if k.op = 3 then 8 else ([4, 8, 4, 2, 36] : List Nat).getD k.type 1
  let moves := !k.reduces
  let srcLen := if k.fn = 1 ∨ k.fn = 3 then k.n * k.length else k.length
  let dstLen := if k.fn = 2 ∨ k.fn = 3 then k.n * k.length else k.length
  let disjoint := decide (k.source + srcLen ≤ k.dest ∨ k.dest + dstLen ≤ k.source)
  slice c 31 17 = 0 && slice c 16 14 < 6 && k.alg ≤ 3 && k.type ≤ 4 && k.op ≤ 3 && slice c 3 0 = 1 &&
  k.field 0x1A 2 = 0 && k.field 0x2C 4 = 0 && k.field 0x30 8 = 0 && k.field 0x38 8 = 0 &&
  (k.op ≠ 3 || k.type = 2) && (!moves || k.op = 0) && k.length ≠ 0 && k.length % es = 0 &&
  2 ≤ k.n && k.n ≤ 1024 && k.rank < k.n &&
  (k.fn ≠ 3 || k.alg = 1) && (k.alg ≠ 3 || moves || k.type ≤ 1) &&
  (if k.fn = 4 && k.rank ≠ 0 then true
   else if k.fn = 0 ∨ k.fn = 4 then disjoint || k.source = k.dest
   else disjoint)

/-- The rank table is good: reserved bits are zero and this rank's entry names this package. -/
def Collective.tableGood (k : Collective) (entries : List Nat) (package : Nat) : Bool :=
  entries.all (· < 1024) && entries[k.rank]? = some package

/-- The command's job and id are in flight at this rank already (23 R365). -/
def State.inFlight (s : State) (k : Collective) : Bool :=
  s.links.any fun l => l.2.commands.any fun c => c.running && c.job = k.job && c.id = k.id

def collectiveParameter : FaultInfo := { code := 0x68 }

/-- What a command announces of its parameters: its block and its rank table. -/
def Collective.announcement (k : Collective) : List Byte :=
  leBytes 64 k.block.toNat ++ k.ranks.flatMap (leBytes 2 ·)

/-- The rank that an announcement is from. -/
def announcedRank (bs : List Byte) : Nat := natOfBytes ((bs.drop 0x2A).take 2)
/-- What the ranks of a collective may not disagree on: OP, TYPE, ALG, length, n and the rank table (22 R346). -/
def announcedParameters (bs : List Byte) : Nat × Nat × Nat × List Byte :=
  (slice (natOfBytes (bs.take 4)) 13 4, natOfBytes ((bs.drop 4).take 4), natOfBytes ((bs.drop 0x28).take 2), bs.drop 64)
/-- An announcement agrees with a command: its parameters are the same, and it is from another rank of the table. -/
def Collective.agreesWith (k : Collective) (bs : List Byte) : Bool :=
  announcedParameters bs = announcedParameters k.announcement && decide (announcedRank bs < k.n) && announcedRank bs ≠ k.rank

/-- A message of a command to a rank. -/
def Collective.message (k : Collective) (kind : SendKind) (rank step slice index : Nat) (bs : List Byte) : WeltSend :=
  let p := checksumPair k.type bs
  { kind := kind, target := k.ranks.getD rank 0, job := k.job, collective := k.id, step := step, slice := slice, chunk := index,
    bytes := bs, sumA := p.1, sumB := p.2 }

/-- The ranges of device memory that a command reads and writes at this rank, and its eyelet (23 R361; 19 R304). -/
def Collective.ranges (k : Collective) : List (RecordUse × Nat × Nat) :=
  let reads := if k.fn = 4 && k.rank ≠ 0 then [] else
    [(RecordUse.read, k.source, if k.fn = 1 ∨ k.fn = 3 then k.n * k.length else k.length)]
  reads ++ [(.write, k.dest, if k.fn = 2 ∨ k.fn = 3 then k.n * k.length else k.length)] ++
    (if k.record.eyelet = 0 then [] else [(.atomic, k.record.eyelet.toNat, 16)])

/-- Start the first command: read and check its block and its rank table, and announce its parameters. -/
def State.startCollective (s : State) (key : Nat) (k : Collective) (a : Activation) : Option State :=
  if !s.linkReady key then none
  else
    let r : Tried Collective :=
      andThen (s.engineRead a 6 k.record.parameter.toNat 64) fun s bs =>
        let k := { k with block := BitVec.ofNat 512 (natOfBytes bs) }
        if k.blockGood = false || s.inFlight k then (s, .error collectiveParameter)
        else andThen (s.engineRead a 6 (k.field 0x20 8) (2 * k.n)) fun s ts =>
          let ranks := (List.range k.n).map fun i => natOfBytes ((ts.drop (2 * i)).take 2)
          if k.tableGood ranks (s.host.domid.toNat % 1024) = false then (s, .error collectiveParameter)
          else match k.ranges.find? fun r => !recordsAllow a.records r.1 r.2.1 r.2.2 with
            | some r => (s, .error (undeclared r.1 r.2.1 r.2.2))
            | none => (s, .ok { k with ranks := ranks, running := true })
    match r with
    | (s, .error i) => some (s.stopCollective key k i)
    | (s, .ok k) =>
      let others := (List.range k.n).filter (· ≠ k.rank)
      some ((s.setHead key k).sendWelt (others.map fun p => k.message .parameters p 0 0 0 k.announcement))

/-! ## A rank's own actions -/

/-- A chunk of a command: its slice and its index. -/
def Collective.allChunks (k : Collective) : List (Nat × Nat) :=
  (List.range k.slices).flatMap fun j => (List.range (k.chunks j)).map fun c => (j, c)

/-- The verified chunk that a transfer to this rank carried. -/
def Collective.got (k : Collective) (p : Nat × Nat) (t : Transfer) : Option (List Byte) :=
  (k.received.find? fun c => c.step = t.step && c.slice = p.1 && c.index = p.2 && c.rank = t.src).map (·.bytes)
/-- The combination that this rank has made of a chunk. -/
def Collective.output (k : Collective) (p : Nat × Nat) : Option (List Byte) :=
  (k.outputs.find? fun c => c.slice = p.1 && c.index = p.2).map (·.bytes)
def Collective.into (k : Collective) (p : Nat × Nat) : List Transfer := (k.transfers p.1 p.2).filter fun t => t.dst = k.rank
def Collective.from_ (k : Collective) (p : Nat × Nat) : List Transfer := (k.transfers p.1 p.2).filter fun t => t.src = k.rank

/-- Bytes of a chunk at this rank: what it has got, and then what lies in its own contribution, by address and length. -/
structure Share where
  given : List Byte := []
  own : Nat × Nat := (0, 0)
  deriving DecidableEq, Repr, Inhabited

/-- This rank's own contribution to a chunk. -/
def Collective.ownShare (k : Collective) (p : Nat × Nat) : Share :=
  { own := (k.sourceAt p.1 + p.2 * k.chunkSize, k.chunkBytes p.1 p.2) }

/-- What a combination of a chunk at this rank takes in: the partial of a path before its own contribution, or every
contribution at a home in ascending rank. None while something is missing, or where this rank combines nothing. -/
def Collective.inputs (k : Collective) (p : Nat × Nat) : Option (Nat × List Share) :=
  let ins := k.into p
  match ins.find? fun t => t.partial_ with
  | some t => (k.got p t).map fun b => (t.step, [{ given := b }, k.ownShare p])
  | none =>
    if ins.any fun t => t.gift then
      let all := (List.range k.n).map fun r =>
        if r = k.rank then some (k.ownShare p)
        else match ins.find? fun t => t.gift && t.src = r with
          | some t => (k.got p t).map fun b => { given := b }
          | none => none
      if all.all (·.isSome) then some (1, all.filterMap fun x => x) else none
    else none

/-- A chunk is combined at this rank. -/
def Collective.combines (k : Collective) (p : Nat × Nat) : Bool := (k.into p).any fun t => t.partial_ || t.gift

/-- A chunk up a growing chain as this rank passes it on: what it has got of it, and its own contribution after that. -/
def Collective.grown (k : Collective) (p : Nat × Nat) : Option Share :=
  let lo := max (p.2 * k.chunkSize) (k.rank * k.length)
  let hi := min ((p.2 + 1) * k.chunkSize) ((k.rank + 1) * k.length)
  let own := if lo < hi then (k.source + (lo - k.rank * k.length), hi - lo) else (0, 0)
  match (k.into p).find? fun t => t.step < k.n with
  | none => some { own := own }
  | some t => (k.got p t).map fun b => { given := b, own := own }

/-- A chunk of what rank n − 1 sends to one rank, cut from the whole that it has combined. -/
def Collective.cut (k : Collective) (p : Nat × Nat) : Option Share :=
  let lo := (p.1 - 1) * k.length + p.2 * k.chunkSize
  let hi := lo + k.chunkBytes p.1 p.2
  let parts := (List.range ((hi + k.chunkSize - 1) / k.chunkSize - lo / k.chunkSize)).map fun i =>
    k.output (0, lo / k.chunkSize + i)
  if parts.all (·.isSome) then
    some { given := ((parts.filterMap fun x => x).flatten.drop (lo % k.chunkSize)).take (hi - lo) }
  else none

/-- The result of a chunk, where this rank has it: its combination, its own part of a move, or what a transfer brought. -/
def Collective.result (k : Collective) (p : Nat × Nat) : Option Share :=
  let ends := k.combines p && !((k.from_ p).any fun t => t.partial_)
  if ends then (k.output p).map fun b => { given := b }
  else if k.sendsSlices && p.1 ≠ 0 && k.rank = k.n - 1 then k.cut p
  else if k.grows && k.rank = k.n - 1 then k.grown p
  else if !k.folds p.1 && !k.grows && k.giver p.1 = k.rank then some (k.ownShare p)
  else (((k.into p).filter fun t => !t.partial_ && !t.gift && !(k.grows && t.step < k.n)).findSome? (k.got p)).map fun b =>
    { given := b }

/-- What a transfer from this rank carries, where it is there. -/
def Collective.payload (k : Collective) (p : Nat × Nat) (t : Transfer) : Option Share :=
  if t.gift then some (k.ownShare p)
  else if t.partial_ then (if k.combines p then (k.output p).map fun b => { given := b } else some (k.ownShare p))
  else if k.grows && t.step < k.n then k.grown p
  else k.result p

/-- A transfer of this rank has been made. -/
def Collective.sent (k : Collective) (p : Nat × Nat) (t : Transfer) : Bool :=
  k.kept.any fun c => c.step = t.step && c.slice = p.1 && c.index = p.2 && c.rank = t.dst

/-- The next own actions, by chunk. -/
def Collective.nextCombine (k : Collective) : Option ((Nat × Nat) × Nat × List Share) :=
  k.allChunks.findSome? fun p => if (k.output p).isSome then none else (k.inputs p).map fun i => (p, i)
def Collective.nextSend (k : Collective) : Option ((Nat × Nat) × Transfer × Share) :=
  k.allChunks.findSome? fun p => (k.from_ p).findSome? fun t =>
    if k.sent p t then none else (k.payload p t).map fun v => (p, t, v)
def Collective.nextStore (k : Collective) : Option ((Nat × Nat) × Share) :=
  k.allChunks.findSome? fun p =>
    if !k.needs p.1 k.rank || k.stored.contains p then none else (k.result p).map fun v => (p, v)
/-- Everything has been received, sent and stored. -/
def Collective.done (k : Collective) : Bool :=
  k.allChunks.all fun p => (k.into p).all (fun t => (k.got p t).isSome) && (k.from_ p).all (k.sent p) &&
    (!k.needs p.1 k.rank || k.stored.contains p)

/-- The bytes of a share: its own part is read. -/
def State.shareBytes (s : State) (a : Activation) (v : Share) : Tried (List Byte) :=
  if v.own.2 = 0 then (s, .ok v.given)
  else andThen (s.engineRead a 6 v.own.1 v.own.2) fun s bs => (s, .ok (v.given ++ bs))
def State.sharesBytes (s : State) (a : Activation) : List Share → Tried (List (List Byte))
  | [] => (s, .ok [])
  | v :: vs => andThen (s.shareBytes a v) fun s b => andThen (s.sharesBytes a vs) fun s bs => (s, .ok (b :: bs))

/-! ## Incidents (23 R368, R369) -/

/-- Write a checksum incident record. -/
def State.incident (s : State) (key kind attempt step source link index : Nat) (k : Collective) (e c : DWord × DWord) : State :=
  let r := packFields [(0x00, 8, s.cycle), (0x08, 2, k.job), (0x0A, 2, k.id), (0x0C, 4, index), (0x10, 2, source),
    (0x12, 2, step), (0x14, 2, s.host.domid.toNat % 1024), (0x16, 1, link), (0x17, 1, key / 6 * 8 + key % 6), (0x18, 1, kind),
    (0x19, 1, attempt), (0x20, 8, e.1.toNat), (0x28, 8, e.2.toNat), (0x30, 8, c.1.toNat), (0x38, 8, c.2.toNat)]
  let size := 2 ^ s.host.csirlog.toNat
  let s := s.hwPut { unit := 4 } (s.host.csirbase.toNat + 64 * (s.host.csirnext % size)) (leBytes 64 r)
  s.mapHost fun h => { h with
    csirnext := (h.csirnext + 1) % size,
    csircount := min size (h.csircount + 1),
    csirovf := if h.csircount < size then h.csirovf else h.csirovf + 1 }

/-- How often a step of a chunk has been repeated, whichever check failed (23 R368). -/
def Collective.repeats (k : Collective) (p : Nat × Nat) (step : Nat) : Nat :=
  ((k.tries.find? fun t => t.1 = (p.1, p.2, step)).map (·.2)).getD 0

/-- A check of a step of a chunk from a rank fails: its incident and one more repetition, or after three of them an incident of
kind 3 and the checksum fault. -/
def State.checkFails (s : State) (key : Nat) (k : Collective) (p : Nat × Nat) (step kind rank link : Nat)
    (e c : DWord × DWord) (again : State → State) : State :=
  let n := k.repeats p step
  let source := k.ranks.getD rank 0
  if 3 ≤ n then (s.incident key 3 n step source link p.2 k e c).stopCollective key k { code := 0x6B }
  else
    let id := (p.1, p.2, step)
    let tries := (id, n + 1) :: k.tries.filter fun t => t.1 ≠ id
    again ((s.incident key kind n step source link p.2 k e c).setHead key { k with tries := tries })

/-- The combination of a chunk. A mismatch that checked firing finds forms it again once, and counts against the memory tile of the
link region (log 51); an error that it misses stands unless
the prediction finds it (23 R367; 26 R411). -/
def State.combineChunk (s : State) (key : Nat) (k : Collective) (a : Activation) (p : Nat × Nat) (step : Nat)
    (ins : List Share) : State :=
  match s.sharesBytes a ins with
  | (s, .error i) => s.stopCollective key k i
  | (s, .ok parts) =>
    if s.upsets.contains (.combine key) then
      let s := { s with upsets := s.upsets.erase (.combine key) }
      let s := s.tileMismatch (linkAnchor key) 5 k.colour k.fn k.attempt
      if k.attempt = 0 then s.setHead key { k with attempt := 1 } else s.killByColour k.colour
    else
      let r := combineAll k.type k.op parts
      let missed := s.upsets.findSome? fun u => match u with
        | .missed l bs => if l = key then some bs else none
        | _ => none
      let s := { s with upsets := s.upsets.filter fun u => match u with
        | .missed l _ => l ≠ key
        | _ => true }
      let out := match missed with
        | some bs => (bs ++ List.replicate r.1.length 0).take r.1.length
        | none => r.1
      let sums := parts.map (checksumPair k.type)
      let predicted : DWord × DWord := (sums.foldl (fun x q => x + q.1) 0, sums.foldl (fun x q => x + q.2) 0)
      let found := checksumPair k.type out
      if k.predictable && !pairAgrees k.type predicted found then
        s.checkFails key k p step 2 k.rank 0xFF predicted found id
      else
        let c : Chunk := { step := 0, slice := p.1, index := p.2, rank := k.rank, bytes := out }
        (s.setHead key { k with outputs := k.outputs ++ [c], attempt := 0 }).raiseEvents k.colour (linkAnchor key) r.2.toNat

/-- Send a chunk and keep it (22 R349). -/
def State.sendChunk (s : State) (key : Nat) (k : Collective) (a : Activation) (p : Nat × Nat) (t : Transfer)
    (v : Share) : State :=
  match s.shareBytes a v with
  | (s, .error i) => s.stopCollective key k i
  | (s, .ok bs) =>
    let c : Chunk := { step := t.step, slice := p.1, index := p.2, rank := t.dst, bytes := bs }
    (s.setHead key { k with kept := k.kept ++ [c] }).sendWelt [k.message .chunk t.dst t.step p.1 p.2 bs]

/-- Issue the addition that a command owes its eyelet (14 R230; 16 R252). -/
def State.payEyelet (s : State) (key : Nat) (k : Collective) (a : Activation) : State :=
  let va := k.record.eyelet.toNat
  if k.owed = 0 then s
  else if va = 0 then s.setHead key { k with owed := 0 }
  else if va % 16 ≠ 0 then s.stopCollective key k { code := 0x21, flags := 16, address := BitVec.ofNat 64 va }
  else match checkAccess s a .atomic va 16 false with
    | .error f => s.stopCollective key k f
    | .ok l => ((s.cacheLeaf a.entry.asid va l).setHead key { k with owed := 0 }).addAddition
        { address := l.pa, va := va, n := k.owed, asid := a.entry.asid, colour := a.colour, adder := .collective key k.place }

/-- Store the result of a chunk at this rank's destination. -/
def State.storeChunk (s : State) (key : Nat) (k : Collective) (a : Activation) (p : Nat × Nat) (v : Share) : State :=
  match andThen (s.shareBytes a v) fun s bs => s.engineWrite a 6 (k.destAt p.1 + p.2 * k.chunkSize) bs with
  | (s, .error i) => s.stopCollective key k i
  | (s, .ok ()) =>
    let k := { k with
      stored := k.stored ++ [p], owed := if k.eyeletBytes = 0 then k.owed + k.chunkBytes p.1 p.2 else k.owed }
    (s.setHead key k).payEyelet key k a

/-- A command is complete: its record is pushed and the chain moves on. -/
def State.finishCollective (s : State) (key : Nat) (k : Collective) (a : Activation) : State :=
  let s := if k.record.activation = 0 then s else s.pushRecord a k.record.activation.toNat
  let c := s.linkChain key
  s.putLink key { c with
    commands := c.commands.drop 1, seq := c.seq + 1,
    finished := k :: c.finished.filter fun x => !(x.job = k.job && x.id = k.id) }

/-- The next own action of the first command. -/
def State.collectiveAct (s : State) (key : Nat) (k : Collective) (a : Activation) : Option State :=
  if !k.running then s.startCollective key k a
  else if k.attempt ≠ 0 then k.nextCombine.map fun c => s.combineChunk key k a c.1 c.2.1 c.2.2
  else if k.owed ≠ 0 then some (s.payEyelet key k a)
  else if k.agreed.length + 1 < k.n then none
  else match k.nextCombine with
    | some (p, step, ins) => some (s.combineChunk key k a p step ins)
    | none => match k.nextSend with
      | some (p, t, v) => some (s.sendChunk key k a p t v)
      | none => match k.nextStore with
        | some (p, v) => some (s.storeChunk key k a p v)
        | none =>
          if !k.done then none
          else if !k.ended then
            let k := { k with ended := true, owed := k.eyeletBytes }
            some ((s.setHead key k).payEyelet key k a)
          else if s.memory.additions.any (fun d => d.2.adder = .collective key k.place && d.2.colour = k.colour) then none
          else if s.pushWaits a k.record.activation.toNat k.at_ then none
          else some (s.finishCollective key k a)

/-! ## COLLECTIVE_STEP and COLLECTIVE_ABORT -/

/-- A chunk arrives from a rank: it is verified at once, and kept or asked for again. -/
def State.receiveChunk (s : State) (key : Nat) (k : Collective) (step slice index source link : Nat) (bs : List Byte)
    (pair : DWord × DWord) : Option State :=
  let p := (slice, index)
  match (k.into p).find? fun t => t.step = step && t.src = source with
  | none => none
  | some t =>
    if k.agreed.length + 1 < k.n || (k.got p t).isSome || bs.length ≠ k.carries slice index t then none
    else
      let found := checksumPair k.type bs
      if found = pair then some (s.setHead key { k with
        received := k.received ++ [{ step := step, slice := slice, index := index, rank := source, bytes := bs }] })
      else some (s.checkFails key k p step 1 source link pair found fun s =>
        s.sendWelt [k.message .again source step slice index []])

/-- A command that a job and a collective id name (22 R351). -/
def Collective.named (k : Collective) (job collective : Nat) : Bool := k.job = job && k.id = collective

/-- A rank asks for a chunk again: it goes out from the one that its command keeps (23 R368). -/
def State.resendChunk (s : State) (key job collective step slice index target : Nat) : Option State :=
  let c := s.linkChain key
  let kept (k : Collective) : Option WeltSend :=
    if k.named job collective then
      (k.kept.find? fun x => x.step = step && x.slice = slice && x.index = index && x.rank = target).map fun x =>
        k.message .chunk target step slice index x.bytes
    else none
  ((c.commands.take 1 ++ c.finished).findSome? kept).map fun m => s.sendWelt [m]

/-- The packages that an announcement names. -/
def announcedPackages (bs : List Byte) : List Nat :=
  (List.range (natOfBytes ((bs.drop 0x28).take 2))).map fun i => natOfBytes ((bs.drop (64 + 2 * i)).take 2)

/-- The ranks of a command disagree, as it has found itself or as an abort says: it stops with a collective-mismatch fault, and its
own aborts tell its ranks and those that a disagreeing rank names (22 R346). -/
def State.disagree (s : State) (key : Nat) (k : Collective) (told : List Nat) : State :=
  let c := s.linkChain key
  (s.putLink key { c with commands := c.commands.map fun x =>
    if x.colour = k.colour && x.place = k.place then { x with mismatch := true, told := told } else x }).stopCollective key k
    { code := 0x69 }

/-- A rank announces its parameters: the command takes note of it, or stops with a collective-mismatch fault (22 R346). -/
def State.takeAnnouncement (s : State) (key : Nat) (k : Collective) (bs : List Byte) : Option State :=
  if k.agreesWith bs = false then some (s.disagree key k (announcedPackages bs))
  else if k.agreed.contains (announcedRank bs) then none
  else some (s.setHead key { k with agreed := announcedRank bs :: k.agreed })

/-- An input of a collective step can come: over its link, where it has one. -/
def State.inputOpen (s : State) (die lreg : Nat) (input : ChunkInput) : Bool :=
  match input with
  | .proceed => true
  | .peer link .. => s.linkOpen link (.region die lreg input)
  | .chunk _ _ _ _ _ _ link .. => s.linkOpen link (.region die lreg input)
  | .again link .. => s.linkOpen link (.region die lreg input)

/-- COLLECTIVE_STEP: the first command of a link region's chain acts, or takes what a rank of its job and collective id sent. -/
def execCollectiveStep (die lreg : Nat) (input : ChunkInput) (s : State) : Result :=
  let key := 6 * die + lreg
  if !s.inputOpen die lreg input then .fault .notEnabled
  else match input with
  | .again link job collective step slice index target =>
    if 4 ≤ die || 6 ≤ lreg then .fault .notEnabled
    else occursIf ((s.tookFrame link).resendChunk key job collective step slice index target)
  | input => match s.headCommand die lreg with
    | none => .fault .notEnabled
    | some (k, a) => if input ≠ .proceed && !a.mayServe then .fault .notEnabled else match input with
      | .peer link job collective announced =>
        if !k.running || !k.named job collective then .fault .notEnabled
        else occursIf ((s.tookFrame link).takeAnnouncement key k announced)
      | .chunk job collective step slice index source link bs a b =>
        if !k.running || !k.named job collective then .fault .notEnabled
        else occursIf ((s.tookFrame link).receiveChunk key k step slice index source link bs (a, b))
      | _ => occursIf (s.collectiveAct key k a)

/-- COLLECTIVE_ABORT: a peer's abort stops the command of its job and collective id, also one that waits in the chain (23 R365); one
that a disagreement has sent raises the collective-mismatch fault here too (22 R346). -/
def execCollectiveAbort (die : Nat) (command : CollectiveName) (s : State) : Result :=
  let key := 6 * die + command.lreg
  if 4 ≤ die || 6 ≤ command.lreg || !s.linkOpen command.link (.abort die command) then .fault .notEnabled
  else match (s.linkChain key).commands.find? fun k => k.named command.job command.collective with
    | none => .fault .notEnabled
    | some k => match s.activation k.colour with
      | none => .fault .notEnabled
      | some a =>
        let s := s.tookFrame command.link
        occurs a.mayServe (if command.mismatch then s.disagree key k [] else s.stopCollective key k { code := 0x6A })

end Sys2Proof.Machine
end

