-- ==== Sys2Proof/Machine/Dispatch.lean ====
section
/-! DEFINITION. The meaning of each instruction and event: one arm for each constructor. -/
namespace Sys2Proof.Machine

/-- What an instruction or event does in a state: one arm for each row of the opcode table. -/
def exec (i : Instr) (s : State) : Host.Outcome State Fault Refusal :=
  match i with
  | .nop => Sys2Proof.Machine.execNop s
  | .brk code => Sys2Proof.Machine.execBrk code s
  | .trap code => Sys2Proof.Machine.execTrap code s
  | .mov o => Sys2Proof.Machine.execMov o s
  | .li d t imm => Sys2Proof.Machine.execLi d t imm s
  | .add o => Sys2Proof.Machine.execAdd o s
  | .sub o => Sys2Proof.Machine.execSub o s
  | .mul o => Sys2Proof.Machine.execMul o s
  | .mulh o => Sys2Proof.Machine.execMulh o s
  | .mad o => Sys2Proof.Machine.execMad o s
  | .min o => Sys2Proof.Machine.execMin o s
  | .max o => Sys2Proof.Machine.execMax o s
  | .abs o => Sys2Proof.Machine.execAbs o s
  | .neg o => Sys2Proof.Machine.execNeg o s
  | .and o => Sys2Proof.Machine.execAnd o s
  | .or o => Sys2Proof.Machine.execOr o s
  | .xor o => Sys2Proof.Machine.execXor o s
  | .andn o => Sys2Proof.Machine.execAndn o s
  | .orn o => Sys2Proof.Machine.execOrn o s
  | .xnor o => Sys2Proof.Machine.execXnor o s
  | .shl o => Sys2Proof.Machine.execShl o s
  | .shr o => Sys2Proof.Machine.execShr o s
  | .sar o => Sys2Proof.Machine.execSar o s
  | .rol o => Sys2Proof.Machine.execRol o s
  | .clz o => Sys2Proof.Machine.execClz o s
  | .popc o => Sys2Proof.Machine.execPopc o s
  | .cmp c o => Sys2Proof.Machine.execCmp c o s
  | .sel o => Sys2Proof.Machine.execSel o s
  | .cvt c o => Sys2Proof.Machine.execCvt c o s
  | .shuf o => Sys2Proof.Machine.execShuf o s
  | .bcast o => Sys2Proof.Machine.execBcast o s
  | .lrot o => Sys2Proof.Machine.execLrot o s
  | .pack o => Sys2Proof.Machine.execPack o s
  | .unpackLo o => Sys2Proof.Machine.execUnpackLo o s
  | .unpackHi o => Sys2Proof.Machine.execUnpackHi o s
  | .red c o => Sys2Proof.Machine.execRed c o s
  | .scan c o => Sys2Proof.Machine.execScan c o s
  | .pand o => Sys2Proof.Machine.execPand o s
  | .por o => Sys2Proof.Machine.execPor o s
  | .pnot o => Sys2Proof.Machine.execPnot o s
  | .pset o => Sys2Proof.Machine.execPset o s
  | .fadd o => Sys2Proof.Machine.execFadd o s
  | .fsub o => Sys2Proof.Machine.execFsub o s
  | .fmul o => Sys2Proof.Machine.execFmul o s
  | .fma o => Sys2Proof.Machine.execFma o s
  | .fms o => Sys2Proof.Machine.execFms o s
  | .fnma o => Sys2Proof.Machine.execFnma o s
  | .fmin o => Sys2Proof.Machine.execFmin o s
  | .fmax o => Sys2Proof.Machine.execFmax o s
  | .fabs o => Sys2Proof.Machine.execFabs o s
  | .fneg o => Sys2Proof.Machine.execFneg o s
  | .fcmp c o => Sys2Proof.Machine.execFcmp c o s
  | .frcp o => Sys2Proof.Machine.execFrcp o s
  | .frsq o => Sys2Proof.Machine.execFrsq o s
  | .fexp2 o => Sys2Proof.Machine.execFexp2 o s
  | .flog2 o => Sys2Proof.Machine.execFlog2 o s
  | .ftanh o => Sys2Proof.Machine.execFtanh o s
  | .fcvt o => Sys2Proof.Machine.execFcvt o s
  | .fred c o => Sys2Proof.Machine.execFred c o s
  | .cmul o => Sys2Proof.Machine.execCmul o s
  | .cmad o => Sys2Proof.Machine.execCmad o s
  | .send o => Sys2Proof.Machine.execSend o s
  | .sendr o => Sys2Proof.Machine.execSendr o s
  | .last o => Sys2Proof.Machine.execLast o s
  | .drop o => Sys2Proof.Machine.execDrop o s
  | .keep o => Sys2Proof.Machine.execKeep o s
  | .mld o => Sys2Proof.Machine.execMld o s
  | .mst o => Sys2Proof.Machine.execMst o s
  | .mtake o => Sys2Proof.Machine.execMtake o s
  | .mfill o => Sys2Proof.Machine.execMfill o s
  | .matom o => Sys2Proof.Machine.execMatom o s
  | .mfence o => Sys2Proof.Machine.execMfence o s
  | .eyaddElement o => Sys2Proof.Machine.execEyaddElement o s
  | .segmac o => Sys2Proof.Machine.execSegmac o s
  | .segden o => Sys2Proof.Machine.execSegden o s
  | .drow o => Sys2Proof.Machine.execDrow o s
  | .bwdot o => Sys2Proof.Machine.execBwdot o s
  | .diff o => Sys2Proof.Machine.execDiff o s
  | .seggrad o => Sys2Proof.Machine.execSeggrad o s
  | .accout o => Sys2Proof.Machine.execAccout o s
  | .accclr o => Sys2Proof.Machine.execAccclr o s
  | .accst o => Sys2Proof.Machine.execAccst o s
  | .twr o => Sys2Proof.Machine.execTwr o s
  | .trd o => Sys2Proof.Machine.execTrd o s
  | .scl o => Sys2Proof.Machine.execScl o s
  | .sclrd o => Sys2Proof.Machine.execSclrd o s
  | .csum o => Sys2Proof.Machine.execCsum o s
  | .csver o => Sys2Proof.Machine.execCsver o s
  | .sadd o => Sys2Proof.Machine.execSadd o s
  | .ssub o => Sys2Proof.Machine.execSsub o s
  | .smul o => Sys2Proof.Machine.execSmul o s
  | .sand o => Sys2Proof.Machine.execSand o s
  | .sor o => Sys2Proof.Machine.execSor o s
  | .sxor o => Sys2Proof.Machine.execSxor o s
  | .sshl o => Sys2Proof.Machine.execSshl o s
  | .sshr o => Sys2Proof.Machine.execSshr o s
  | .ssar o => Sys2Proof.Machine.execSsar o s
  | .smin o => Sys2Proof.Machine.execSmin o s
  | .smax o => Sys2Proof.Machine.execSmax o s
  | .smov o => Sys2Proof.Machine.execSmov o s
  | .sli o => Sys2Proof.Machine.execSli o s
  | .saddi o => Sys2Proof.Machine.execSaddi o s
  | .sandi o => Sys2Proof.Machine.execSandi o s
  | .slih o => Sys2Proof.Machine.execSlih o s
  | .br cond o => Sys2Proof.Machine.execBr cond o s
  | .jmp o => Sys2Proof.Machine.execJmp o s
  | .loop o => Sys2Proof.Machine.execLoop o s
  | .sld fn o => Sys2Proof.Machine.execSld fn o s
  | .sst fn o => Sys2Proof.Machine.execSst fn o s
  | .satom fn o => Sys2Proof.Machine.execSatom fn o s
  | .cfg o => Sys2Proof.Machine.execCfg o s
  | .commit o => Sys2Proof.Machine.execCommit o s
  | .run o => Sys2Proof.Machine.execRun o s
  | .waitq o => Sys2Proof.Machine.execWaitq o s
  | .depth o => Sys2Proof.Machine.execDepth o s
  | .bank o => Sys2Proof.Machine.execBank o s
  | .copy o => Sys2Proof.Machine.execCopy o s
  | .gather o => Sys2Proof.Machine.execGather o s
  | .scatter o => Sys2Proof.Machine.execScatter o s
  | .chain o => Sys2Proof.Machine.execChain o s
  | .waitseq o => Sys2Proof.Machine.execWaitseq o s
  | .click o => Sys2Proof.Machine.execClick o s
  | .tbuild o => Sys2Proof.Machine.execTbuild o s
  | .tpatch o => Sys2Proof.Machine.execTpatch o s
  | .scant o => Sys2Proof.Machine.execScant o s
  | .expand o => Sys2Proof.Machine.execExpand o s
  | .epi o => Sys2Proof.Machine.execEpi o s
  | .pusht o => Sys2Proof.Machine.execPusht o s
  | .popt o => Sys2Proof.Machine.execPopt o s
  | .spawn o => Sys2Proof.Machine.execSpawn o s
  | .decl o => Sys2Proof.Machine.execDecl o s
  | .done o => Sys2Proof.Machine.execDone o s
  | .cancel o => Sys2Proof.Machine.execCancel o s
  | .split o => Sys2Proof.Machine.execSplit o s
  | .yield o => Sys2Proof.Machine.execYield o s
  | .eyadd o => Sys2Proof.Machine.execEyadd o s
  | .eywait o => Sys2Proof.Machine.execEywait o s
  | .eyset o => Sys2Proof.Machine.execEyset o s
  | .sfence o => Sys2Proof.Machine.execSfence o s
  | .car o => Sys2Proof.Machine.execCar o s
  | .crs o => Sys2Proof.Machine.execCrs o s
  | .cag o => Sys2Proof.Machine.execCag o s
  | .ca2a o => Sys2Proof.Machine.execCa2a o s
  | .cbcast o => Sys2Proof.Machine.execCbcast o s
  | .push o => Sys2Proof.Machine.execPush o s
  | .accept o => Sys2Proof.Machine.execAccept o s
  | .agset o => Sys2Proof.Machine.execAgset o s
  | .permit o => Sys2Proof.Machine.execPermit o s
  | .unpermit o => Sys2Proof.Machine.execUnpermit o s
  | .tlbinv o => Sys2Proof.Machine.execTlbinv o s
  | .quar o => Sys2Proof.Machine.execQuar o s
  | .ctxsave o => Sys2Proof.Machine.execCtxsave o s
  | .ctxload o => Sys2Proof.Machine.execCtxload o s
  | .mon o => Sys2Proof.Machine.execMon o s
  | .bbnote o => Sys2Proof.Machine.execBbnote o s
  | .sbrk o => Sys2Proof.Machine.execSbrk o s
  | .step o => Sys2Proof.Machine.execStep o s
  | .tokenArrival el port => Sys2Proof.Machine.execTokenArrival el port s
  | .confToken el port => Sys2Proof.Machine.execConfToken el port s
  | .ctrlToken el port => Sys2Proof.Machine.execCtrlToken el port s
  | .blockSelect el => Sys2Proof.Machine.execBlockSelect el s
  | .promotion el cand => Sys2Proof.Machine.execPromotion el cand s
  | .blockCommit el => Sys2Proof.Machine.execBlockCommit el s
  | .tagStoreDeadlock el => Sys2Proof.Machine.execTagStoreDeadlock el s
  | .tableWriteApply el => Sys2Proof.Machine.execTableWriteApply el s
  | .flitHop circuit node lands => Sys2Proof.Machine.execFlitHop circuit node lands s
  | .depthChange el port => Sys2Proof.Machine.execDepthChange el port s
  | .bankSwitch tile bank => Sys2Proof.Machine.execBankSwitch tile bank s
  | .memoryRequestPerform el mport => Sys2Proof.Machine.execMemoryRequestPerform el mport s
  | .replyArrival el mport => Sys2Proof.Machine.execReplyArrival el mport s
  | .fullEmptyWake request => Sys2Proof.Machine.execFullEmptyWake request s
  | .eyeletAddition addition => Sys2Proof.Machine.execEyeletAddition addition s
  | .stepStart q => Sys2Proof.Machine.execStepStart q s
  | .stepCommit q => Sys2Proof.Machine.execStepCommit q s
  | .waitSatisfied q => Sys2Proof.Machine.execWaitSatisfied q s
  | .cfgLoad colour => Sys2Proof.Machine.execCfgLoad colour s
  | .commitSweep colour => Sys2Proof.Machine.execCommitSweep colour s
  | .runStartTokens colour => Sys2Proof.Machine.execRunStartTokens colour s
  | .pushStream tile mport => Sys2Proof.Machine.execPushStream tile mport s
  | .acceptStream tile mport => Sys2Proof.Machine.execAcceptStream tile mport s
  | .engineCommandStart c => Sys2Proof.Machine.execEngineCommandStart c s
  | .engineCommandComplete c place => Sys2Proof.Machine.execEngineCommandComplete c place s
  | .copyRow c place => Sys2Proof.Machine.execCopyRow c place s
  | .gatherScatterRow c place => Sys2Proof.Machine.execGatherScatterRow c place s
  | .clickChunk c place => Sys2Proof.Machine.execClickChunk c place s
  | .tableBuild c place => Sys2Proof.Machine.execTableBuild c place s
  | .tablePatch c place => Sys2Proof.Machine.execTablePatch c place s
  | .scanPass c place => Sys2Proof.Machine.execScanPass c place s
  | .expandBlock c place => Sys2Proof.Machine.execExpandBlock c place s
  | .epilogueRow c place => Sys2Proof.Machine.execEpilogueRow c place s
  | .stackCommand c place => Sys2Proof.Machine.execStackCommand c place s
  | .spill asid => Sys2Proof.Machine.execSpill asid s
  | .stackReturn asid => Sys2Proof.Machine.execStackReturn asid s
  | .hostAppend asid record => Sys2Proof.Machine.execHostAppend asid record s
  | .recordFetch asid => Sys2Proof.Machine.execRecordFetch asid s
  | .placement die => Sys2Proof.Machine.execPlacement die s
  | .gangPlacement die entry => Sys2Proof.Machine.execGangPlacement die entry s
  | .steal die => Sys2Proof.Machine.execSteal die s
  | .queueAging entry => Sys2Proof.Machine.execQueueAging entry s
  | .placementStarvation entry => Sys2Proof.Machine.execPlacementStarvation entry s
  | .preemptionTimeout entry => Sys2Proof.Machine.execPreemptionTimeout entry s
  | .preemptionSave colour => Sys2Proof.Machine.execPreemptionSave colour s
  | .resumption colour => Sys2Proof.Machine.execResumption colour s
  | .forwardReservation entry => Sys2Proof.Machine.execForwardReservation entry s
  | .activationCompletion colour => Sys2Proof.Machine.execActivationCompletion colour s
  | .colourReturn colour => Sys2Proof.Machine.execColourReturn colour s
  | .redundantComparison colour => Sys2Proof.Machine.execRedundantComparison colour s
  | .permitGrant colour => Sys2Proof.Machine.execPermitGrant colour s
  | .powerSample milliwatts => Sys2Proof.Machine.execPowerSample milliwatts s
  | .supplyDroopFatal die index millivolts => Sys2Proof.Machine.execSupplyDroopFatal die index millivolts s
  | .weltFrameReceive link frame crcGood => Sys2Proof.Machine.execWeltFrameReceive link frame crcGood s
  | .weltMessageAgeDiscard message => Sys2Proof.Machine.execWeltMessageAgeDiscard message s
  | .sendrDelivery message => Sys2Proof.Machine.execSendrDelivery message s
  | .collectiveStep die lreg input => Sys2Proof.Machine.execCollectiveStep die lreg input s
  | .collectiveAbort die command => Sys2Proof.Machine.execCollectiveAbort die command s
  | .retranslation el mport => Sys2Proof.Machine.execRetranslation el mport s
  | .frespRetry q asid colour => Sys2Proof.Machine.execFrespRetry q asid colour s
  | .frespSkip q asid colour => Sys2Proof.Machine.execFrespSkip q asid colour s
  | .frespKill q asid colour => Sys2Proof.Machine.execFrespKill q asid colour s
  | .frespContinue q asid colour => Sys2Proof.Machine.execFrespContinue q asid colour s
  | .tlbinvhPage q asid address => Sys2Proof.Machine.execTlbinvhPage q asid address s
  | .tlbinvhAsid q asid => Sys2Proof.Machine.execTlbinvhAsid q asid s
  | .tlbinvhIpa q vf address => Sys2Proof.Machine.execTlbinvhIpa q vf address s
  | .tlbinvhVf q vf => Sys2Proof.Machine.execTlbinvhVf q vf s
  | .llcinjArm v value => Sys2Proof.Machine.execLlcinjArm v value s
  | .llcopClean v value => Sys2Proof.Machine.execLlcopClean v value s
  | .llcopCleanInvalidate v value => Sys2Proof.Machine.execLlcopCleanInvalidate v value s
  | .reset => Sys2Proof.Machine.execReset s
  | .selfTestPass f => Sys2Proof.Machine.execSelfTestPass f s
  | .functionLevelReset v => Sys2Proof.Machine.execFunctionLevelReset v s
  | .mailboxGo v value => Sys2Proof.Machine.execMailboxGo v value s
  | .attestationReportDone v dmaGood => Sys2Proof.Machine.execAttestationReportDone v dmaGood s
  | .monitorRead v offset size => Sys2Proof.Machine.execMonitorRead v offset size s
  | .fqovfClear v q => Sys2Proof.Machine.execFqovfClear v q s
  | .ovlcntClear v asid => Sys2Proof.Machine.execOvlcntClear v asid s
  | .registerWrite v offset size value => Sys2Proof.Machine.execRegisterWrite v offset size value s
  | .illegalInstruction q => Sys2Proof.Machine.execIllegalInstruction q s
  | .spillCompletion asid => Sys2Proof.Machine.execSpillCompletion asid s
  | .stackReturnCompletion asid => Sys2Proof.Machine.execStackReturnCompletion asid s
  | .hostCancel asid level job id => Sys2Proof.Machine.execHostCancel asid level job id s
  | .hostMemoryAccess writes address size value => Sys2Proof.Machine.execHostMemoryAccess writes address size value s

end Sys2Proof.Machine
end

