-- ==== Sys2Proof/Machine/Step.lean ====
section
/-! DEFINITION. One step of the machine: what comes next, its meaning, and the time that passes. -/
namespace Sys2Proof.Machine

/-- The instruction that stands where the unit with the turn is, executed (07 R108, 13 R199). -/
def turn (s : State) : Host.Outcome State Fault Refusal :=
  match fetched s with
  | .instr i => exec i s
  | .undecodable => .fault .undecodableHandlerWord
  | .nothing => .fault .noUnit

/-- What comes next: the oldest event of the agenda; else the instruction of the unit with the turn; else what a free
choice names, where a choice that cannot happen lets only time pass (log 1). -/
def perform (s : State) : Host.Outcome State Fault Refusal :=
  match s.agenda with
  | i :: rest => exec i { s with agenda := rest }
  | [] => match s.focus with
    | .none => lenient s (match Config.schedule s.tick with
        | .event i => exec i s
        | .element el => turn { s with focus := .element el }
        | .sequencer q => turn { s with focus := .sequencer q })
    | _ => turn s

/-- A step of a package whose compute dies a fatal error has stopped (26 R417): none but that of the host die and the cache dies, which
meets memory as before, and only reset starts the compute dies again. -/
def haltedStep (s : State) : Host.Outcome State Fault Refusal :=
  match hostWork s with
  | none => .next s.pass
  | some .reset => passing (perform { s with focus := .none })
  | some _ => passing (staysHalted (perform { s with focus := .none, halted := false }))

/-- One step of the machine. -/
def step (s : State) : Host.Outcome State Fault Refusal := if s.halted then haltedStep s else passing (perform s)

/-- The state with an instruction stored where `step` fetches its next one: in the code store of an element whose block
begins, or in the step table of a sequencer whose step begins (log 1). -/
def State.withFetchWord (s : State) (nbits w : Nat) : State :=
  let ws := wordsOfBytes (leBytes 12 (w % 2 ^ nbits))
  { placeWords s ws with agenda := [], halted := false }

end Sys2Proof.Machine
end

