-- ==== Sys2Proof/Safety.lean ====
section
/-! DEFINITION. The terms in which claims speak of the machine: which unit runs what, how a block or a step moves on, what an
instruction leaves unchanged, and the invariants of the state. -/
namespace Sys2Proof.Machine

/-! ## Invariants -/

/-- Both memories of a tile are in their canonical form. -/
def MemTile.memoryGood (x : MemTile) : Prop := x.sram.wf = true ∧ x.bank.wf = true

/-- Every memory of the state is in its canonical form: device memory, and the SRAM and accumulator bank of each tile, also of those
that the scheduler has saved. -/
def State.memoryGood (s : State) : Prop :=
  s.memory.mem.wf = true ∧ (∀ p ∈ s.tiles, p.2.memoryGood) ∧
  ∀ p ∈ s.activations, ∀ f, p.2.frame = some f → ∀ t ∈ f.tiles, t.2.memoryGood

/-- The sectors of the LLC that are not dirty hold what memory holds, as they do unless a decoder has taken the errors of one of their
pieces for another codeword (15 R242; 26 R406). -/
def State.cleanAgrees (s : State) : Prop :=
  ∀ pa l, findLine s.memory.llc (pa / 256) = some l → l.valid.getLsbD (pa / 128 % 2) = true →
    l.dirty.getLsbD (pa / 128 % 2) = false → vecByte l.data (pa % 256) = s.memory.mem.read pa

/-! ## The unit with the turn -/

/-- An element executes a block. -/
def RunsBlock (s : State) (el : Nat) (b : Block) : Prop := s.focus = .element el ∧ (s.element el).block = some b

/-- A sequencer executes a step of an activation. -/
def RunsStep (s : State) (q : SeqId) (a : Activation) (x : Sequencer) (r : StepRun) : Prop :=
  s.focus = .sequencer q ∧ s.seqActivation q = some a ∧ s.sequencer q = some x ∧ x.step = some r

/-- The region sequencer of an activation executes a step. -/
def RunsRegion (s : State) (c : Nat) (a : Activation) (x : Sequencer) (r : StepRun) : Prop := RunsStep s (.region c) a x r

/-- The state in which a block goes on as `b'` behind an instruction of `words` words, and nothing else has changed. -/
def blockMoves (s : State) (el : Nat) (b' : Block) (words : Nat) : State :=
  { s.putElement el { s.element el with block := some { b' with done := b'.done + 1, word := b'.word + words } } with
    focus := .none }

/-- The state in which a step goes on with its next word, its sequencer as `x'` and its run as `r'`. -/
def stepMoves (s : State) (q : SeqId) (x' : Sequencer) (r' : StepRun) : State :=
  { s.putSequencer q { x' with step := some { r' with word := r'.word + 1 } } with focus := .none }

/-- The state in which a word of a step waits: its registers and effects unchanged, the step noted as waiting at it. -/
def stepWaits (s : State) (q : SeqId) (x : Sequencer) (r : StepRun) : State :=
  { s.putSequencer q { x with step := some { r with waitsAt := some r.word } } with focus := .none }

/-- The state in which a step goes on with one more staged effect and unchanged registers. -/
def stepStages (s : State) (q : SeqId) (x : Sequencer) (r : StepRun) (e : StepEffect) : State :=
  stepMoves s q x { r with effects := r.effects ++ [e] }

/-- The state in which an instruction has ended its step. -/
def stepEnds (s : State) (q : SeqId) (x : Sequencer) (r : StepRun) (e : StepEnd) : State :=
  stepMoves s q x { r with ended := some e }

/-! ## Lanes of a temporary -/

/-- Executing `i` moves the block on with only temporary `d` and the events changed: lane `j` of `d` is the first part of
`f j` where `act j`, and as before elsewhere; the events gained are those of the lanes written. -/
def SetsTemp (s : State) (el : Nat) (b : Block) (i : Instr) (words d w : Nat) (act : Nat → Bool)
    (f : Nat → Nat × Word) : Prop :=
  ∃ b' : Block, exec i s = .next (blockMoves s el b' words) ∧
    b' = { b with temps := b'.temps, events := b'.events } ∧
    (∀ t, t ≠ d → b'.temp t = b.temp t) ∧
    (∀ j, j < lanesOf w → laneNat (b'.temp d) w j = if act j then (f j).1 % 2 ^ w else laneNat (b.temp d) w j) ∧
    ∀ k, b'.events.getLsbD k = true ↔
      b.events.getLsbD k = true ∨ ∃ j, j < lanesOf w ∧ act j = true ∧ (f j).2.getLsbD k = true

/-- Executing an EA instruction writes the active lanes of D in the lanes of T. -/
def SetsLanes (s : State) (el : Nat) (b : Block) (o : EA) (i : Instr) (f : Nat → Nat × Word) : Prop :=
  SetsTemp s el b i (eaWords o) o.d.toNat (laneWidth o.t) (fun j => b.active o (laneWidth o.t) j) f

/-- Executing `i` moves the block on with only predicate `d` and the events changed: bit `j` of `d` is `f j` where `act j`,
and as before elsewhere; p0 stays as it is. -/
def SetsPred (s : State) (el : Nat) (b : Block) (i : Instr) (words d : Nat) (act f : Nat → Bool) (events : Nat → Prop) :
    Prop :=
  ∃ b' : Block, exec i s = .next (blockMoves s el b' words) ∧
    b' = { b with preds := b'.preds, events := b'.events } ∧
    (∀ p, p ≠ d → b'.pred p = b.pred p) ∧
    (∀ j, j < 128 → (b'.pred d).getLsbD j = if act j then f j else (b.pred d).getLsbD j) ∧
    ∀ k, b'.events.getLsbD k = true ↔ b.events.getLsbD k = true ∨ events k

/-- An exact integer result as it is written to a lane of T: modulo 2^w, or under S clamped to the range of T with VSAT where
the clamp changes it (04 R49). -/
def writtenInt (o : EA) (v : Int) : Nat × Word :=
  let w := laneWidth o.t
  let lo : Int := if laneSigned o.t then -(2 ^ (w - 1) : Nat) else 0
  let hi : Int := if laneSigned o.t then (2 ^ (w - 1) : Nat) - 1 else (2 ^ w : Nat) - 1
  if o.sat = 1 then
    ((max lo (min v hi) % (2 ^ w : Nat)).toNat, if lo ≤ v ∧ v ≤ hi then 0 else evVsat)
  else ((v % (2 ^ w : Nat)).toNat, 0)

/-! ## What a block stages -/

/-- The token that a SEND or LAST stages (13 R192, R196). -/
def sentToken (o : ES) (b : Block) (kind : TokenKind) (scalar : Bool) (data : Vec) : Token :=
  { kind := kind, vector := !scalar, chan := o.chan, ctx := o.ctx,
    colour := if o.mode = 1 then o.ext.setWidth 16 else b.colour, iter := b.iter, data := data }

/-- The block with a request staged: the fields of its instruction, its block and the place it reaches. -/
def stagesRequest (b : Block) (op : MemOp) (o : EM) (size : Nat) (reply : Option (BitVec 5)) (scratch : Bool)
    (va pa : Nat) (mtype : MemType) (fullEmpty : Bool) : Block :=
  { b with effects := b.effects ++ [.request
      { op := op, mport := o.mport.toNat, scratch := scratch, va := va, address := pa, size := size, data := emData o b,
        scope := o.scope.toNat, reply := reply, ctx := b.ctx, colour := b.colour, iter := b.iter, entry := b.entry,
        word := b.word, mtype := mtype, fullEmpty := fullEmpty }] }

/-! ## Events -/

/-- A token stands at the head of an element's input port, and `x'` is the element with the port moved past it. -/
def HasHead (s : State) (el port : Nat) (t : Token) (x' : Element) : Prop :=
  ∃ q, ((s.element el).ports.getD port {}).head = some (t, q) ∧
    x' = { s.element el with ports := (s.element el).ports.put port q }

/-- A command of an engine chain works undisturbed: it runs, no bank of its region switches, no physical error strikes its
engine, and its activation is not cancelled. -/
def Works (s : State) (c : ChainId) (place : Nat) (a : Activation) (k : Command) : Prop :=
  s.working c place = some (a, k) ∧ s.switching a = false ∧ Upset.engineFiring c ∉ s.upsets ∧ a.cancelled = false

/-- The state behind one unit of a command's work: the command as it then stands, with what it owes its eyelet issued. -/
def unitDone (s : State) (c : ChainId) (place : Nat) (k : Command) : State :=
  (s.setCommand c { k with attempt := 0 }).issueOwed c place

/-- The command at the head of a link region's chain may act. -/
def LinkWorks (s : State) (die lreg : Nat) (k : Collective) (a : Activation) : Prop :=
  s.headCommand die lreg = some (k, a)

/-- Host registers of function v reach no other part of the machine: everything but the host die is as before. -/
def OnlyHost (s t : State) : Prop := t = { s with host := t.host }

/-! ## What a unit leaves alone -/

/-- Nothing but one element, the turn, and the translation cache differs: every other element, every tile, circuit, activation
and chain, all memory, the accesses and additions on their way, all registers of the host die and the events to come are as before. -/
def OnlyElement (s t : State) (el : Nat) : Prop :=
  (∀ e, e ≠ el → t.element e = s.element e) ∧ t.tiles = s.tiles ∧ t.circuits = s.circuits ∧
  t.activations = s.activations ∧ t.sched = s.sched ∧ t.chains = s.chains ∧ t.stackOf = s.stackOf ∧ t.links = s.links ∧
  t.welt = s.welt ∧ t.host = s.host ∧ t.memory.mem = s.memory.mem ∧ t.memory.llc = s.memory.llc ∧
  t.memory.full = s.memory.full ∧ t.memory.deferred = s.memory.deferred ∧ t.memory.additions = s.memory.additions ∧
  t.memory.advanced = s.memory.advanced ∧ t.agenda = s.agenda ∧ t.upsets = s.upsets ∧ t.cycle = s.cycle ∧ t.halted = s.halted

/-- What the walks of some addresses of a context do as they read the page tables, one after another. -/
def State.afterWalks (s : State) (asid : Nat) (vas : List Nat) : State := vas.foldl (fun s va => s.meetWalk asid va) s

/-- A block has staged a request of device memory at an address. -/
def StagesAt (es : List BlockEffect) (va : Nat) : Prop := ∃ r : MemRequest, .request r ∈ es ∧ r.scratch = false ∧ r.va = va

/-- The accumulators, the cursor, the predicates and what a block has staged and decided are as before. -/
def SameUnits (b b' : Block) : Prop :=
  b'.acc = b.acc ∧ b'.accFp = b.accFp ∧ b'.cursor = b.cursor ∧ b'.preds = b.preds ∧ b'.effects = b.effects ∧
  b'.keeps = b.keeps ∧ b'.operands = b.operands

end Sys2Proof.Machine
end

