-- ==== Sys2Proof/Certificates/Slice0/Obligations.lean ====
section
/-! DEFINITION. The statements for the provers. Each names the rules of the spec that it formalises or rests on. -/
open Sys2Proof Sys2Proof.Machine

/-! ## Decoding and encoding -/

/-- Decoding what the encoder writes for a legal instruction gives that instruction back, with every operand field, and the
number of its words; what stands behind it in the code does not matter (05 R64 to R84). -/
def Obligations.DecodeEncodeRoundTrip : Prop :=
  ∀ (i : Instr) (rest : List Word), i.isWord = true → i.check = none →
    decode (encode i ++ rest) = .ok (i, (encode i).length)

/-- What the decoder accepts is a legal instruction word of one to three words, and its major opcode lies in the element space
0x00 to 0x27 or in the sequencer space 0x30 to 0x3E (05 R64, R65). -/
def Obligations.DecodedInstructionsAreLegal : Prop :=
  ∀ (w : Word) (rest : List Word) (i : Instr) (n : Nat), decode (w :: rest) = .ok (i, n) →
    i.isWord = true ∧ i.check = none ∧ 1 ≤ n ∧ n ≤ 3 ∧
    ((bits w 26 6).toNat ≤ 0x27 ∨ (0x30 ≤ (bits w 26 6).toNat ∧ (bits w 26 6).toNat ≤ 0x3E))

/-- Words written out from the spec's own encodings decode to the instructions they stand for (05 R85; 08 R120, R121, R122,
R130, R137; 09 R145, R148, R150; 13 R197; 25 R398). -/
def Obligations.SpecWordsDecode : Prop :=
  decode [0x00000000] = .ok (.nop, 1) ∧
  decode [0x00800007] = .ok (.brk 7, 1) ∧
  decode [0x05F69000] =
    .ok (.mov { d := 3, a := 14, b := 13, t := 1, p := 0, n := 0, sat := 0, rm := 0, x := 0, extA := 0, extB := 0 }, 1) ∧
  decode [0x057E8000, 0x000186A0] =
    .ok (.mov { d := 2, a := 15, b := 13, t := 0, p := 0, n := 0, sat := 0, rm := 0, x := 0, extA := 0x186A0, extB := 0 },
      2) ∧
  decode [0x0A00FFFD] = .ok (.li 4 0 0xFFFD, 1) ∧
  decode [0x390E8188] =
    .ok (.cvt 6 { d := 2, a := 1, b := 13, t := 0, p := 0, n := 0, sat := 0, rm := 1, x := 0, extA := 0, extB := 0 }, 1) ∧
  decode [0x5CC66080] =
    .ok (.fcmp 2 { d := 1, a := 8, b := 12, t := 6, p := 0, n := 0, sat := 0, rm := 0, x := 0, extA := 0, extB := 0 }, 1) ∧
  decode [0x60810148] =
    .ok (.fcvt { d := 1, a := 0, b := 2, t := 0, p := 0, n := 0, sat := 0, rm := 1, x := 0, extA := 0, extB := 0 }, 1)

/-! ## A step of the machine runs the decoded instruction -/

/-- A step of the machine executes exactly the instruction that the words at the unit with the turn decode to, in a block or in a
step, and then time passes (log 1); a word of a step that does not decode raises the illegal-instruction exception (05 R67; 07
R108; 13 R199, R200). -/
def Obligations.StepRunsTheDecodedInstruction : Prop :=
  (∀ (s : State) (el : Nat) (b : Block) (i : Instr) (n : Nat),
      s.halted = false → s.agenda = [] → RunsBlock s el b → blockOpen (s.element el) b = true → b.asNop ≠ some b.word →
      decode (blockWords (s.element el) b) = .ok (i, n) →
      step s = passing (exec i s)) ∧
  (∀ (s : State) (q : SeqId) (a : Activation) (x : Sequencer) (r : StepRun),
      s.halted = false → s.agenda = [] → RunsStep s q a x r → r.ended = none → r.word < x.entry.length →
      (∀ i n, decode [x.program.code.getD (x.entry.first + r.word) 0] = .ok (i, n) → step s = passing (exec i s)) ∧
      (∀ e, decode [x.program.code.getD (x.entry.first + r.word) 0] = .error e →
        ∃ p, step s = .next (takeStepException s q (illegalInfo p)).pass))

/-! ## The integer, logic and lane instructions -/

/-- ADD, SUB, MUL and MAD write the exact result wrapped, or clamped under S, MULH the high half; MIN, MAX, ABS and NEG
likewise (08 R117, R123, R124; 04 R49). Each runs for all operands and changes nothing but D, the events and the place in the
block. -/
def Obligations.IntegerLaneResults : Prop :=
  ∀ (s : State) (el : Nat) (b : Block) (o : EA), RunsBlock s el b →
    let A := intA (s.element el) el b o
    let B := intB (s.element el) el b o
    let D := intD b o
    let w := laneWidth o.t
    SetsLanes s el b o (.add o) (fun j => writtenInt o (A j + B j)) ∧
    SetsLanes s el b o (.sub o) (fun j => writtenInt o (A j - B j)) ∧
    SetsLanes s el b o (.mul o) (fun j => writtenInt o (A j * B j)) ∧
    SetsLanes s el b o (.mad o) (fun j => writtenInt o (A j * B j + D j)) ∧
    SetsLanes s el b o (.mulh o) (fun j => ((A j * B j / (2 ^ w : Nat) % (2 ^ w : Nat)).toNat, 0)) ∧
    SetsLanes s el b o (.min o) (fun j => ((min (A j) (B j) % (2 ^ w : Nat)).toNat, 0)) ∧
    SetsLanes s el b o (.max o) (fun j => ((max (A j) (B j) % (2 ^ w : Nat)).toNat, 0)) ∧
    SetsLanes s el b o (.abs o) (fun j => writtenInt o |A j|) ∧
    SetsLanes s el b o (.neg o) (fun j => writtenInt o (-A j))

/-- AND, OR, XOR, ANDN, ORN and XNOR act on the w bits of each active lane (08 R125). -/
def Obligations.LogicLaneResults : Prop :=
  ∀ (s : State) (el : Nat) (b : Block) (o : EA), RunsBlock s el b → o.t.toNat < 6 →
    let w := laneWidth o.t
    let A (j : Nat) : BitVec w := BitVec.ofNat w (srcA (s.element el) el b o (layoutOf o.t) j)
    let B (j : Nat) : BitVec w := BitVec.ofNat w (srcB (s.element el) el b o (layoutOf o.t) j)
    SetsLanes s el b o (.and o) (fun j => ((A j &&& B j).toNat, 0)) ∧
    SetsLanes s el b o (.or o) (fun j => ((A j ||| B j).toNat, 0)) ∧
    SetsLanes s el b o (.xor o) (fun j => ((A j ^^^ B j).toNat, 0)) ∧
    SetsLanes s el b o (.andn o) (fun j => ((A j &&& ~~~B j).toNat, 0)) ∧
    SetsLanes s el b o (.orn o) (fun j => ((A j ||| ~~~B j).toNat, 0)) ∧
    SetsLanes s el b o (.xnor o) (fun j => ((~~~(A j ^^^ B j)).toNat, 0))

/-- SHL, SHR, SAR and ROL shift and rotate by the unsigned lane of B, for every count (08 R126). -/
def Obligations.ShiftLaneResults : Prop :=
  ∀ (s : State) (el : Nat) (b : Block) (o : EA), RunsBlock s el b → o.t.toNat < 6 →
    let w := laneWidth o.t
    let A (j : Nat) : BitVec w := BitVec.ofNat w (srcA (s.element el) el b o (layoutOf o.t) j)
    let c := srcB (s.element el) el b o (layoutOf o.t)
    SetsLanes s el b o (.shl o) (fun j => ((A j <<< c j).toNat, 0)) ∧
    SetsLanes s el b o (.shr o) (fun j => ((A j >>> c j).toNat, 0)) ∧
    SetsLanes s el b o (.sar o) (fun j => (((A j).sshiftRight (c j)).toNat, 0)) ∧
    SetsLanes s el b o (.rol o) (fun j => (((A j).rotateLeft (c j)).toNat, 0))

/-- CLZ writes the number of leading zero bits, w for a zero lane, and POPC the number of set bits (08 R127). -/
def Obligations.CountLaneResults : Prop :=
  ∀ (s : State) (el : Nat) (b : Block) (o : EA), RunsBlock s el b → o.t.toNat < 6 →
    let w := laneWidth o.t
    let A := srcA (s.element el) el b o (layoutOf o.t)
    (∃ f : Nat → Nat, SetsLanes s el b o (.clz o) (fun j => (f j, 0)) ∧
      ∀ j, (A j = 0 → f j = w) ∧ (A j ≠ 0 → f j < w ∧ 2 ^ (w - 1 - f j) ≤ A j ∧ A j < 2 ^ (w - f j))) ∧
    SetsLanes s el b o (.popc o) (fun j => (((List.range w).filter (A j).testBit).length, 0))

/-- SEL writes every lane, from A where the governing bit of the predicate selects it and from B elsewhere (08 R129). -/
def Obligations.SelWritesEveryLane : Prop :=
  ∀ (s : State) (el : Nat) (b : Block) (o : EA), RunsBlock s el b →
    let w := laneWidth o.t
    SetsTemp s el b (.sel o) (eaWords o) o.d.toNat w (fun _ => true) fun j =>
      (if b.active o w j then srcA (s.element el) el b o (layoutOf o.t) j
       else srcB (s.element el) el b o (layoutOf o.t) j, 0)

/-- SHUF writes A[B[i] mod n] in each active lane (08 R131); BCAST writes A[k] and LROT writes A[(i + k) mod n], with k the
unsigned lane 0 of B mod n (08 R132). -/
def Obligations.ShufBcastAndLrotMoveLanes : Prop :=
  (∀ (s : State) (el : Nat) (b : Block) (o : EA), RunsBlock s el b →
      SetsLanes s el b o (.shuf o) fun j =>
        (srcA (s.element el) el b o (layoutOf o.t)
          (srcB (s.element el) el b o (layoutOf o.t) j % lanesOf (laneWidth o.t)), 0)) ∧
  (∀ (s : State) (el : Nat) (b : Block) (o : EA), RunsBlock s el b →
      let n := lanesOf (laneWidth o.t)
      let A := srcA (s.element el) el b o (layoutOf o.t)
      let k := srcB (s.element el) el b o (layoutOf o.t) 0 % n
      SetsLanes s el b o (.bcast o) (fun _ => (A k, 0)) ∧ SetsLanes s el b o (.lrot o) (fun j => (A ((j + k) % n), 0)))

/-- MOV copies the active lanes; LI writes every lane with the value of its immediate; PACK narrows two vectors and UNPACK
widens half of one; CVT converts the lanes below the smaller lane count (05 R74; 08 R121, R122, R130, R133, R134). -/
def Obligations.MovesAndConversions : Prop :=
  ∀ (s : State) (el : Nat) (b : Block) (o : EA) (c : BitVec 3) (imm : BitVec 16), RunsBlock s el b →
    let x := s.element el
    let w := laneWidth o.t
    let n := lanesOf w
    SetsLanes s el b o (.mov o) (fun j => (srcA x el b o (layoutOf o.t) j, 0)) ∧
    SetsTemp s el b (.li o.d o.t imm) 1 o.d.toNat w (fun _ => true) (fun _ => (
      if o.t = 0 then (imm.signExtend 32).toNat else if o.t = 6 then imm.toNat * 2 ^ 16 else imm.toNat, 0)) ∧
    SetsLanes s el b o (.pack o) (fun j => writtenInt o (signedOf (2 * w)
      (if j < n / 2 then srcA x el b o { w := 2 * w } j else srcB x el b o { w := 2 * w } (j - n / 2)))) ∧
    SetsLanes s el b o (.unpackLo o) (fun j =>
      ((laneInt (laneSigned o.t) (w / 2) (srcA x el b o { w := w / 2 } j) % (2 ^ w : Nat)).toNat, 0)) ∧
    SetsLanes s el b o (.unpackHi o) (fun j =>
      ((laneInt (laneSigned o.t) (w / 2) (srcA x el b o { w := w / 2 } (n + j)) % (2 ^ w : Nat)).toNat, 0)) ∧
    SetsTemp s el b (.cvt c o) (eaWords o) o.d.toNat w
      (fun j => decide (j < min n (lanesOf (laneWidth c))) && b.active o w j) (fun j =>
        let v := srcA x el b o (layoutOf c) j
        if c.toNat < 6 then
          if o.t.toNat < 6 then writtenInt o (laneInt (laneSigned c) (laneWidth c) v)
          else intToFloat (fmtOfType o.t) .rne (laneInt (laneSigned c) (laneWidth c) v)
        else floatToInt (fmtOfType c) (roundingOf o.rm) (laneSigned o.t) w v)

/-- RED combines the active lanes and writes the result to each of them: the wrapped or clamped sum, the least or the greatest, or
bit by bit the and, the or and the exclusive or of them all. SCAN gives each active lane the sum of the active lanes up to it, or
below it, or the least or the greatest of those up to it (08 R135, R136). -/
def Obligations.ReductionsAndPrefixScans : Prop :=
  (∀ (s : State) (el : Nat) (b : Block) (o : EA) (c : BitVec 3), RunsBlock s el b →
      let w := laneWidth o.t
      let act (n : Nat) : List Int :=
        ((List.range n).filter fun j => b.active o w j).map (intA (s.element el) el b o)
      SetsLanes s el b o (.red c o) (fun _ => redValue c o (act (lanesOf w))) ∧
      SetsLanes s el b o (.scan 0 o) (fun j => writtenInt o (act (j + 1)).sum) ∧
      SetsLanes s el b o (.scan 1 o) (fun j => writtenInt o (act j).sum) ∧
      SetsLanes s el b o (.scan c o) (fun j => scanValue c o (act j) (act (j + 1)))) ∧
  (∀ (o : EA) (xs : List Int),
      redValue 0 o xs = writtenInt o xs.sum ∧
      (xs ≠ [] → (∃ m ∈ xs, (∀ x ∈ xs, m ≤ x) ∧ redValue 1 o xs = ((m % (2 ^ laneWidth o.t : Nat)).toNat, 0)) ∧
        ∃ m ∈ xs, (∀ x ∈ xs, x ≤ m) ∧ redValue 2 o xs = ((m % (2 ^ laneWidth o.t : Nat)).toNat, 0)) ∧
      (let bit (x : Int) (k : Nat) : Bool := (x % (2 ^ laneWidth o.t : Nat)).toNat.testBit k
        let bits (c : BitVec 3) (v : Nat → Bool) : Prop := (redValue c o xs).1 < 2 ^ laneWidth o.t ∧ (redValue c o xs).2 = 0 ∧
          ∀ k, k < laneWidth o.t → (redValue c o xs).1.testBit k = v k
        xs ≠ [] → bits 3 (fun k => xs.all fun x => bit x k) ∧ bits 4 (fun k => xs.any fun x => bit x k) ∧
          bits 5 (fun k => (xs.filter fun x => bit x k).length % 2 = 1)) ∧
      ∀ below : List Int, xs ≠ [] →
        (∃ m ∈ xs, (∀ x ∈ xs, m ≤ x) ∧ scanValue 2 o below xs = ((m % (2 ^ laneWidth o.t : Nat)).toNat, 0)) ∧
        ∃ m ∈ xs, (∀ x ∈ xs, x ≤ m) ∧ scanValue 3 o below xs = ((m % (2 ^ laneWidth o.t : Nat)).toNat, 0))

/-- CMP writes the predicate bits that its own predicate selects: the comparison of a lane, or of both lanes of a pair of 8-bit
lanes (04 R51; 08 R128). -/
def Obligations.CmpWritesSelectedBits : Prop :=
  ∀ (s : State) (el : Nat) (b : Block) (o : EA) (c : BitVec 3), RunsBlock s el b → o.d ≠ 0 →
    let w := laneWidth o.t
    let A := intA (s.element el) el b o
    let B := intB (s.element el) el b o
    let test (j : Nat) : Bool := if w = 8 then intCond c (A (2 * j)) (B (2 * j)) && intCond c (A (2 * j + 1)) (B (2 * j + 1))
      else intCond c (A j) (B j)
    SetsPred s el b (.cmp c o) (eaWords o) o.d.toNat
      (fun j => decide (j < if w = 8 then 128 else 2048 / w) && ((b.pred o.p.toNat).getLsbD j != decide (o.n = 1)))
      test (fun _ => False)

/-- PAND, POR and PNOT write all 128 bits of their predicate, PSET the bits that govern lanes of T (08 R137). -/
def Obligations.PredicateInstructions : Prop :=
  ∀ (s : State) (el : Nat) (b : Block) (o : EA), RunsBlock s el b → o.d ≠ 0 →
    let A := b.pred o.a.toNat
    let B := b.pred o.b.toNat
    let w := laneWidth o.t
    let nz (j : Nat) : Bool := laneNonZero o.t (srcA (s.element el) el b o (layoutOf o.t) j)
    SetsPred s el b (.pand o) 1 o.d.toNat (fun _ => true) (fun j => A.getLsbD j && B.getLsbD j) (fun _ => False) ∧
    SetsPred s el b (.por o) 1 o.d.toNat (fun _ => true) (fun j => A.getLsbD j || B.getLsbD j) (fun _ => False) ∧
    SetsPred s el b (.pnot o) 1 o.d.toNat (fun _ => true) (fun j => !A.getLsbD j) (fun _ => False) ∧
    SetsPred s el b (.pset o) (eaWords o) o.d.toNat (fun j => decide (j < if w = 8 then 128 else 2048 / w))
      (fun j => if w = 8 then nz (2 * j) && nz (2 * j + 1) else nz j) (fun _ => False)

/-! ## The floating-point instructions -/

/-- FADD to FNMA write the exact sum of their signed product and addend rounded once in the mode of RM; FMIN and FMAX choose;
FABS and FNEG change the sign bit, and a NaN gives the canonical NaN (09 R139, R142, R143, R144). -/
def Obligations.FloatLaneResults : Prop :=
  ∀ (s : State) (el : Nat) (b : Block) (o : EA), RunsBlock s el b →
    let f := fmtOfType o.t
    let rm := roundingOf o.rm
    let A := srcA (s.element el) el b o (layoutOf o.t)
    let B := srcB (s.element el) el b o (layoutOf o.t)
    let D := laneNat (b.temp o.d.toNat) (laneWidth o.t)
    let sign (j : Nat) (n : Nat) : Nat × Word :=
      if (f.value (A j)).isNan then (f.nan, if (f.value (A j)).isSignalling then evVnv else 0) else (n, 0)
    SetsLanes s el b o (.fadd o) (fun j => sumProducts f rm [] [(false, A j), (false, B j)]) ∧
    SetsLanes s el b o (.fsub o) (fun j => sumProducts f rm [] [(false, A j), (true, B j)]) ∧
    SetsLanes s el b o (.fmul o) (fun j => sumProducts f rm [(false, A j, B j)] []) ∧
    SetsLanes s el b o (.fma o) (fun j => sumProducts f rm [(false, A j, B j)] [(false, D j)]) ∧
    SetsLanes s el b o (.fms o) (fun j => sumProducts f rm [(false, A j, B j)] [(true, D j)]) ∧
    SetsLanes s el b o (.fnma o) (fun j => sumProducts f rm [(true, A j, B j)] [(false, D j)]) ∧
    SetsLanes s el b o (.fmin o) (fun j => minMax f false (A j) (B j)) ∧
    SetsLanes s el b o (.fmax o) (fun j => minMax f true (A j) (B j)) ∧
    SetsLanes s el b o (.fabs o) (fun j => sign j (A j % f.signBit)) ∧
    SetsLanes s el b o (.fneg o) (fun j => sign j ((A j + f.signBit) % (2 * f.signBit)))

/-- FCMP writes the predicate bits as CMP does, for each condition; the special functions, FCVT, FRED, CMUL and CMAD write the
lanes that their rules name, for all operands (09 R145 to R150; 05 R80). The inexact results of FEXP2, FLOG2 and FTANH are
free values (log 16). -/
def Obligations.FloatComparisonsAndFunctions : Prop :=
  ∀ (s : State) (el : Nat) (b : Block) (o : EA) (c : BitVec 3), RunsBlock s el b →
    let f := fmtOfType o.t
    let w := laneWidth o.t
    let x := s.element el
    let A := srcA x el b o (layoutOf o.t)
    let B := srcB x el b o (layoutOf o.t)
    let D := laneNat (b.temp o.d.toNat) 32
    let fn (n j : Nat) : Nat × Word :=
      if f = fmtF32 then specialFn n (A j)
      else
        let wide := convertFloat fmtBf16 fmtF32 .rne (A j)
        let r := specialFn n wide.1
        let out := convertFloat fmtF32 fmtBf16 .rne r.1
        (out.1, wide.2 ||| r.2 ||| out.2)
    let src := o.b.toNat / 4
    let wd := (fmtOfCode (o.b.toNat % 4)).width
    let re (neg : Bool) (j : Nat) : List (Bool × Nat × Nat) :=
      if neg then [(false, A (2 * j), B (2 * j)), (true, A (2 * j + 1), B (2 * j + 1))]
      else [(false, A (2 * j), B (2 * j + 1)), (false, A (2 * j + 1), B (2 * j))]
    (o.d ≠ 0 → w ≠ 8 → SetsPred s el b (.fcmp c o) (eaWords o) o.d.toNat
      (fun j => decide (j < 2048 / w) && ((b.pred o.p.toNat).getLsbD j != decide (o.n = 1)))
      (fun j => (floatCond f c (A j) (B j)).1)
      (fun k => ∃ j, j < lanesOf w ∧ b.active o w j = true ∧ (floatCond f c (A j) (B j)).2.getLsbD k = true)) ∧
    SetsLanes s el b o (.frcp o) (fn 0) ∧
    SetsLanes s el b o (.frsq o) (fn 1) ∧
    SetsLanes s el b o (.fexp2 o) (fn 2) ∧
    SetsLanes s el b o (.flog2 o) (fn 3) ∧
    SetsLanes s el b o (.ftanh o) (fn 4) ∧
    SetsTemp s el b (.fcvt o) (1 + if o.a = 15 then 1 else 0) o.d.toNat wd
      (fun j => decide (j < min (lanesOf (fmtOfCode src).width) (lanesOf wd)) && b.active o wd j)
      (fun j => convertFloat (fmtOfCode src) (fmtOfCode (o.b.toNat % 4)) (roundingOf o.rm)
        (srcA x el b o (fcvtLayout src) j)) ∧
    SetsLanes s el b o (.fred c o) (fun _ => fredValue c f
      ((List.range (lanesOf w)).map fun j => (A j, b.active o w j))) ∧
    SetsTemp s el b (.cmul o) (eaWords o) o.d.toNat 32 (fun j => b.active o 32 (2 * (j / 2)))
      (fun j => sumProducts fmtF32 .rne (re (j % 2 = 0) (j / 2)) []) ∧
    SetsTemp s el b (.cmad o) (eaWords o) o.d.toNat 32 (fun j => b.active o 32 (2 * (j / 2)))
      (fun j => sumProducts fmtF32 .rne (re (j % 2 = 0) (j / 2)) [(false, D j)])

/-- Widening a BF16, E4M3 or E5M2 number to FP32 is exact: narrowing it again, in any rounding mode, gives the same encoding
and no event (04 R53, R54, R58). FADD and FMUL do not depend on the order of their operands (09 R142). -/
def Obligations.WideningIsExactAndSumsCommute : Prop :=
  (∀ (f : Fmt) (rm : Rounding) (n : Nat), f = fmtBf16 ∨ f = fmtE4m3 ∨ f = fmtE5m2 → n < 2 ^ f.width →
      (f.value n).isNan = false →
      (convertFloat f fmtF32 .rne n).2 = 0 ∧ convertFloat fmtF32 f rm (convertFloat f fmtF32 .rne n).1 = (n, 0)) ∧
  (∀ (f : Fmt) (rm : Rounding) (a b : Nat),
      sumProducts f rm [] [(false, a), (false, b)] = sumProducts f rm [] [(false, b), (false, a)] ∧
      sumProducts f rm [(false, a, b)] [] = sumProducts f rm [(false, b, a)] [])

/-! ## NOP, exceptions of a block, and what a block sends and keeps -/

/-- NOP only occupies one instruction of the block; BRK and TRAP take their exceptions with their codes (08 R120). SEND and LAST
stage a token with its sideband for their output port, and DROP and KEEP decide that the operand of a port is released or kept
at commit; nothing else of the block changes (13 R192, R196, R197). -/
def Obligations.SysAndTokenInstructions : Prop :=
  (∀ (s : State) (el : Nat) (b : Block) (code : BitVec 16), RunsBlock s el b →
      exec .nop s = .next (blockMoves s el b 1) ∧
      exec (.brk code) s = .next (takeBlockException s el b { code := 0x70, operand := code.setWidth 32 }) ∧
      exec (.trap code) s = .next (takeBlockException s el b { code := 0x71, operand := code.setWidth 32 })) ∧
  (∀ (s : State) (el : Nat) (b : Block) (o : ES), RunsBlock s el b →
      let words := 1 + (if o.mode = 1 then 1 else 0)
      let scalar := o.flags.getLsbD 0
      let v := sourceVec b o.src 0 32
      let data := if scalar then BitVec.ofNat 2048 (v.toNat % 2 ^ 256) else v
      let kind := if o.last = 1 then .last else if o.flags.getLsbD 1 then .conf else if o.flags.getLsbD 2 then .ctrl else .data
      let keeps := b.keeps.put (o.src.toNat - 8)
      exec (.send o) s = .next (blockMoves s el { b with
        effects := b.effects ++ [.send o.port.toNat (sentToken o b kind scalar data)],
        keeps := if o.keep = 1 then keeps true else b.keeps } words) ∧
      exec (.last o) s = .next (blockMoves s el { b with
        effects := b.effects ++ [.send o.port.toNat (sentToken o b .last true 0)] } words) ∧
      exec (.drop o) s = .next (blockMoves s el { b with keeps := keeps false } 1) ∧
      exec (.keep o) s = .next (blockMoves s el { b with keeps := keeps true } 1))

/-- Taking an exception at a block (07 R112; 25 R382, R384), where no mismatch of its firing is retried first (26 R411): the block is
abandoned and commits nothing, its operands stay in their slots, its context keeps its temporaries, predicates, accumulators,
cursor and status and holds the fault with the operands of its match; the record is delivered. Nothing of the fabric or the tiles
changes, nor of the activations where the delivery meets no physical error. -/
def Obligations.BlockExceptionCommitsNothing : Prop :=
  ∀ (s : State) (el : Nat) (b : Block) (i : FaultInfo),
    let t := takeBlockException s el b i
    let x := s.element el
    let y := t.element el
    let k := x.ctxOf b.ctx.toNat
    let h := y.ctxOf b.ctx.toNat
    Upset.elementFiring el ∉ s.upsets →
    t.focus = .none ∧ y.block = none ∧ y.slots = x.slots ∧ y.table = x.table ∧ y.scales = x.scales ∧
    y.requests = x.requests ∧ y.ports = x.ports ∧
    h.held = some { info := i, place := b.entry, word := b.word, operands := b.operands.map (·.2.order) } ∧
    h.temps = k.temps ∧ h.preds = k.preds ∧ h.acc = k.acc ∧ h.cursor = k.cursor ∧ h.status = k.status ∧
    (∀ c, c ≠ b.ctx.toNat → y.ctxOf c = x.ctxOf c) ∧ (∀ e, e ≠ el → t.element e = s.element e) ∧
    t.tiles = s.tiles ∧ t.circuits = s.circuits ∧ t.chains = s.chains ∧
    (s.upsets = [] → s.host.llcinj.getLsbD 63 = false → t.activations = s.activations) ∧
    t.memory = (s.report (s.blockSite el b) i).memory ∧ t.host = (s.report (s.blockSite el b) i).host

/-- SENDR (13 R194; 05 R79; 26 R415): a message of 1 to 8 flits for the destination word of a temporary is staged; a reserved
bit of the destination, or a copy of a redundant pair, takes its exception instead. That both faults name the destination word in
the address field is the model's choice (log 28). -/
def Obligations.SendrStagesAMessage : Prop :=
  ∀ (s : State) (el : Nat) (b : Block) (o : ES), RunsBlock s el b →
    let dest := (b.temp o.ctx.toNat).toNat % 2 ^ 64
    let f := o.flags.toNat % 8 + 1
    let pair := (s.activation b.colour.toNat).elim false (·.isPair)
    let t : Token :=
      { kind := if o.last = 1 then .last else .data, vector := 1 < f, chan := BitVec.ofNat 5 (dest / 2 ^ 19),
        ctx := BitVec.ofNat 3 (dest / 2 ^ 16), colour := BitVec.ofNat 16 dest, iter := b.iter,
        data := BitVec.ofNat 2048 ((sourceVec b o.src 0 32).toNat % 2 ^ (256 * f)) }
    (pair = false → dest < 2 ^ 44 → exec (.sendr o) s = .next (blockMoves s el { b with
      effects := b.effects ++ [.message (BitVec.ofNat 64 dest) f t],
      keeps := if o.keep = 1 then b.keeps.put (o.src.toNat - 8) true else b.keeps } 1)) ∧
    (pair = false → 2 ^ 44 ≤ dest →
      exec (.sendr o) s = .next (takeBlockException s el b { code := 0x42, address := BitVec.ofNat 64 dest })) ∧
    (pair = true → exec (.sendr o) s = .next (takeBlockException s el b
      { code := 0x23, flags := 8, address := BitVec.ofNat 64 dest, position := BitVec.ofNat 32 (32 * f) }))

/-! ## The memory instructions of the elements -/

/-- MLD, MST, MATOM and EYADD at an aligned scratch offset of a SCRATCH bank of the region stage one request each (15 R240; 16
R247, R248, R251, R254). -/
def Obligations.ScratchAccessesAreStaged : Prop :=
  ∀ (s : State) (el : Nat) (b : Block) (o : EM) (act : Activation) (a : Nat), RunsBlock s el b →
    s.activation b.colour.toNat = some act → (b.temp o.addr.toNat).toNat % 2 ^ 64 = a → a < 2 ^ 40 →
    let n := sizeBytes o.size
    let words := 1 + (if o.src = 15 then 1 else 0)
    let done := o.variant.getLsbD 0
    let st (op : MemOp) (size : Nat) (reply : Bool) : Block :=
      stagesRequest b op o size (if reply then some o.chan else none) true a a .cached false
    (a % n = 0 → s.scratchGood act a n = true →
      exec (.mld o) s = .next (blockMoves s el (st (.load (o.variant.getLsbD 2)) n true) words) ∧
      exec (.mst o) s = .next (blockMoves s el (st .store n done) words) ∧
      exec (.matom o) s = .next (blockMoves s el (st (.atom (slice o.variant.toNat 4 1)) n true) words)) ∧
    (a % 16 = 0 → s.scratchGood act a 16 = true →
      exec (.eyaddElement o) s = .next (blockMoves s el (st .eyadd 16 done) words))

/-- At a device virtual address that its access check admits, MLD, MST, MATOM and EYADD stage one request each at the physical
address, and on a full-empty page MTAKE and MFILL do; the translation is kept in the translation cache (16 R247 to R254; 19
R303; 25 R391, R392). MFENCE stages a fence that names no address (16 R253). -/
def Obligations.DeviceAccessesAndFencesAreStaged : Prop :=
  (∀ (s : State) (el : Nat) (b : Block) (o : EM) (act : Activation) (a : Nat) (l : Leaf), RunsBlock s el b →
      s.activation b.colour.toNat = some act → (b.temp o.addr.toNat).toNat % 2 ^ 64 = 2 ^ 63 + a → a < 2 ^ 48 →
      let n := sizeBytes o.size
      let words := 1 + (if o.src = 15 then 1 else 0)
      let done := o.variant.getLsbD 0
      let s' := s.cacheLeaf act.entry.asid a l
      let st (op : MemOp) (size : Nat) (reply : Bool) : Block :=
        stagesRequest b op o size (if reply then some o.chan else none) false a l.pa l.mtype l.fullEmpty
      (a % n = 0 → checkAccess s act .read a n = .ok l →
        exec (.mld o) s = .next (blockMoves s' el (st (.load (o.variant.getLsbD 2)) n true) words)) ∧
      (a % n = 0 → checkAccess s act .write a n = .ok l →
        exec (.mst o) s = .next (blockMoves s' el (st .store n done) words)) ∧
      (a % n = 0 → checkAccess s act .atomic a n = .ok l →
        exec (.matom o) s = .next (blockMoves s' el (st (.atom (slice o.variant.toNat 4 1)) n true) words)) ∧
      (a % 16 = 0 → checkAccess s act .atomic a 16 = .ok l →
        exec (.eyaddElement o) s = .next (blockMoves s' el (st .eyadd 16 done) words)) ∧
      (a % n = 0 → l.fullEmpty = true → checkAccess s act .take a n = .ok l →
        exec (.mtake o) s = .next (blockMoves s' el (st (.take (o.variant.getLsbD 2)) n true) words)) ∧
      (a % n = 0 → l.fullEmpty = true → checkAccess s act .fill a n = .ok l →
        exec (.mfill o) s = .next (blockMoves s' el (st .fill n done) words))) ∧
  (∀ (s : State) (el : Nat) (b : Block) (o : EM), RunsBlock s el b →
      exec (.mfence o) s = .next (blockMoves s el { b with effects := b.effects ++ [.request
        { op := .fence, mport := o.mport.toNat, scope := o.scope.toNat,
          reply := if o.variant.getLsbD 0 then some o.chan else none, ctx := b.ctx, colour := b.colour, iter := b.iter,
          entry := b.entry, word := b.word }] } 1))

/-- An address with a reserved bit raises the address-format fault 0x20 at the block, a misaligned one the alignment fault
0x21, a scratch offset outside the SCRATCH banks 0x22, and a device address outside the region records 0x23 (15 R240; 16
R247, R248; 19 R303). That an atomic's record shows flags 16 alone, and that the 0x23 record shows the width in its position
field, is the model's choice (log 27). -/
def Obligations.MemoryFaultsAreExact : Prop :=
  ∀ (s : State) (el : Nat) (b : Block) (o : EM) (act : Activation), RunsBlock s el b →
    s.activation b.colour.toNat = some act →
    let raw := (b.temp o.addr.toNat).toNat % 2 ^ 64
    let a := raw % 2 ^ 48
    let n := sizeBytes o.size
    let traps (i : Instr) (code flags : BitVec 8) (address : Nat) (len : Option Nat) : Prop :=
      exec i s = .next (takeBlockException s el b
        { code := code, flags := flags, address := BitVec.ofNat 64 address,
          position := (len.map (BitVec.ofNat 32)).getD 0xFFFFFFFF })
    (slice raw 62 48 ≠ 0 ∨ (raw < 2 ^ 63 ∧ 2 ^ 40 ≤ a) →
      traps (.mld o) 0x20 0 raw none ∧ traps (.mst o) 0x20 8 raw none ∧ traps (.matom o) 0x20 16 raw none) ∧
    (slice raw 62 48 = 0 → (2 ^ 63 ≤ raw ∨ a < 2 ^ 40) → a % n ≠ 0 →
      traps (.mld o) 0x21 0 a none ∧ traps (.mst o) 0x21 8 a none ∧ traps (.matom o) 0x21 16 a none) ∧
    (raw < 2 ^ 40 → raw % n = 0 → s.scratchGood act raw n = false →
      traps (.mld o) 0x22 0 raw none ∧ traps (.mst o) 0x22 8 raw none ∧ traps (.matom o) 0x22 16 raw none) ∧
    (slice raw 62 48 = 0 → 2 ^ 63 ≤ raw → a % n = 0 →
      (recordsAllow act.records .read a n = false → traps (.mld o) 0x23 0 a (some n)) ∧
      (recordsAllow act.records .write a n = false → traps (.mst o) 0x23 8 a (some n)))

/-! ## The segment unit -/

/-- One step of a train adds v × (S[s + L] − S[s]) to each covered column, modulo the accumulator's width, and leaves the other
columns (10 R156; 03 R29; 04 R50). -/
def Obligations.SegmentStepAddsTableDifference : Prop :=
  ∀ (a : Accs) (x : Element) (mode lanes : Nat) (v : Int) (p len : Nat), a.fp = false → a.cells.length = 128 →
    ∃ a', a.step x mode lanes v p len = .ok a' ∧ a'.fp = false ∧ a'.cells.length = 128 ∧
      ∀ n, n < 128 → a'.cells.getD n 0 =
        if n < columnsOf lanes then
          let w := accWidth lanes
          wrapTo 64 (signedOf w (wrapTo w (signedOf w (a.cells.getD n 0) +
            v * (tableEntry x mode (p + len) n - tableEntry x mode p n))))
        else a.cells.getD n 0

/-- SEGMAC and SEGDEN, where the cursor is free for them and their words meet no format or kind fault, put the accumulators that
the items of the train give into the block, with the cursor behind the words, which SEGDEN leaves closed; otherwise they raise the
segment-format fault with its reason and position. A step into FP32 accumulators, and a chained close that would add integers to
them, raise the accumulator-kind fault (10 R156 to R160). That SEGDEN's reason 9 names position 0 is the model's choice (log 32). -/
def Obligations.SegmacAndSegden : Prop :=
  ∀ (s : State) (el : Nat) (b : Block) (o : EG), RunsBlock s el b →
    let x := s.element el
    let mode := egMode x b o
    let lanes := lanesMode x b.ctx.toNat
    let t := trainWords .segmac b 0 (operandWords b o.port.toNat) b.cursor false
    let v (p : Nat) : Int := signedOf 8 (vecByte (b.operand o.port.toNat) p).toNat
    let items := ((List.range 256).filter fun p => v p ≠ 0).map fun p => TrainItem.step (v p) p 1
    (∀ a, cursorTaken b.cursor .segmac b = false → Accs.items x b o mode lanes b.accs t.1 = .ok a → t.2.2 = none →
      exec (.segmac o) s =
        .next (blockMoves s el (chainNote (b.withAccs a t.2.1) o (mode = 5) (t.1.contains .close)) 1)) ∧
    (∀ a, b.cursor.isOpen = false → Accs.items x b o mode lanes b.accs (items ++ [.close]) = .ok a →
      exec (.segden o) s = .next (blockMoves s el (b.withAccs a { b.cursor with isOpen := false }) 1)) ∧
    (cursorTaken b.cursor .segmac b = true → exec (.segmac o) s =
      .next (takeBlockException s el b { code := 0x40, detail := 9, position := 0 })) ∧
    (∀ a reason w, cursorTaken b.cursor .segmac b = false → Accs.items x b o mode lanes b.accs t.1 = .ok a →
      t.2.2 = some (reason, w) → exec (.segmac o) s =
        .next (takeBlockException s el b
          { code := 0x40, detail := BitVec.ofNat 8 reason, position := BitVec.ofNat 32 w })) ∧
    (b.cursor.isOpen = true → exec (.segden o) s =
      .next (takeBlockException s el b { code := 0x40, detail := 9, position := 0 })) ∧
    (b.accFp = true →
      let kind (i : Instr) : Prop := exec i s = .next (takeBlockException s el b { code := 0x41 })
      let sums := o.accMode = 1 ∧ (mode = 2 ∨ mode = 4 ∨ mode = 5)
      (∀ v' p n rest, cursorTaken b.cursor .segmac b = false → t.1 = .step v' p n :: rest → kind (.segmac o)) ∧
      (∀ rest, cursorTaken b.cursor .segmac b = false → t.1 = .close :: rest → sums → kind (.segmac o)) ∧
      (b.cursor.isOpen = false → (∃ p, p < 256 ∧ v p ≠ 0) ∨ sums → kind (.segden o)))

/-- DROW, BWDOT and DIFF run where the cursor is free for them, whatever the operands hold, and change the accumulators, the cursor
and the events of the block, and nothing else. DROW adds the products of a token's rows to each covered column, as integers that
wrap or in FP32 with one rounding for each row in ascending order, and its last token adds the partial in CHAIN mode; BWDOT writes
the dot products of its window to its lanes, with the partial in CHAIN mode, and DIFF the differences of its window, scaled to FP32
for an ST32 table (10 R162 to R164). DROW meets the kind fault 0x41 only where integer sums meet FP32 accumulators; an instruction
whose cursor another holds raises reason 9 (10 R156, R158), at position 0 by the model's choice (log 32). -/
def Obligations.DenseWindowInstructions : Prop :=
  ∀ (s : State) (el : Nat) (b : Block) (o : EG), RunsBlock s el b →
    let x := s.element el
    let mode := egMode x b o
    let lanes := lanesMode x b.ctx.toNat
    let w := accWidth lanes
    let cell (c : Block) (n : Nat) : Nat := c.acc.toNat / 2 ^ (64 * n) % 2 ^ 64
    let wrapped (z : Int) : Nat := wrapTo 64 (signedOf w (wrapTo w z))
    let partial_ := intPartial b o.oport.toNat lanes
    let chain := o.accMode = 1
    let k := if b.cursor.isOpen then b.cursor.left else 0
    let token := b.operand o.port.toNat
    let lanesOfWindow := windowOf mode lanes
    let runs (i : Instr) (gives : Block → Prop) : Prop := ∃ b', exec i s = .next (blockMoves s el b' 1) ∧
      b' = { b with acc := b'.acc, accFp := b'.accFp, cursor := b'.cursor, events := b'.events } ∧ gives b'
    let moves (b' : Block) (last : Nat) : Prop :=
      (k < last → b'.cursor.isOpen = true ∧ b'.cursor.left = k + 1) ∧ (last ≤ k → b'.cursor.isOpen = false)
    let traps (i : Instr) (f : FaultInfo) : Prop := exec i s = .next (takeBlockException s el b f)
    (cursorTaken b.cursor .drow b = false → b.accFp = false → ¬chain → runs (.drow o) fun _ => True) ∧
    (cursorTaken b.cursor .drow b = false → mode = 2 → b.accFp = false → runs (.drow o) fun b' =>
      b'.accFp = false ∧ moves b' 1 ∧ ∀ n, n < columnsOf lanes → cell b' n = wrapped (signedOf w (cell b n) +
        ((List.range 256).map fun i => signedOf 8 (laneNat token 8 i) * signedOf 8 (denseWeight x 2 (256 * k + i) n)).sum +
        (if chain ∧ 1 ≤ k then partial_ n else 0))) ∧
    (cursorTaken b.cursor .drow b = false → mode = 1 ∨ mode = 3 → runs (.drow o) fun b' =>
      b'.accFp = true ∧ moves b' 3 ∧ ∀ n, n < 64 →
        let f := if mode = 1 then fmtBf16 else fmtE4m3
        let per := if mode = 1 then 128 else 256
        let sum := (List.range per).foldl (fun acc i =>
          (macF32 f acc (laneNat token (if mode = 1 then 16 else 8) i) (denseWeight x mode (per * k + i) n)).1)
          (cell b n % 2 ^ 32)
        cell b' n = if chain ∧ 3 ≤ k then (addF32 (floatPartial b o.oport.toNat n) sum).1 else sum) ∧
    (cursorTaken b.cursor .bwdot b = false → runs (.bwdot o) fun b' =>
      b'.accFp = false ∧ moves b' (256 / lanesOfWindow - 1) ∧ ∀ l, l < lanesOfWindow → l < columnsOf lanes →
        cell b' l = wrapped ((if chain then partial_ l else 0) + ((List.range (columnsOf lanes)).map fun n =>
          signedOf 8 (vecByte token n).toNat * tableEntry x mode (lanesOfWindow * k + 1 + l) n).sum)) ∧
    (cursorTaken b.cursor .diff b = false → runs (.diff o) fun b' =>
      let p := intPartial b o.port.toNat lanes
      let d (l : Nat) : Int := p l - (if l = 0 then (if k = 0 then 0 else b.cursor.pprev.toInt) else p (l - 1))
      b'.cursor.pprev = BitVec.ofInt 64 (p (lanesOfWindow - 1)) ∧ moves b' (256 / lanesOfWindow - 1) ∧
      (mode = 4 → b'.accFp = false ∧ ∀ l, l < lanesOfWindow → cell b' l = wrapTo 64 (signedOf 32 (wrapTo 32 (d l)))) ∧
      (mode ≠ 4 → b'.accFp = true ∧ ∀ l, l < 64 → cell b' l =
        (scaleInt (signedOf 64 (wrapTo 64 (d l))) (scaleReg x b.ctx.toNat o.g.toNat).toNat).1)) ∧
    (cursorTaken b.cursor .drow b = false → mode = 2 → b.accFp = true → traps (.drow o) { code := 0x41 }) ∧
    (∀ taken : FaultInfo, taken = { code := 0x40, detail := 9, position := 0 } →
      (cursorTaken b.cursor .drow b = true → traps (.drow o) taken) ∧
      (cursorTaken b.cursor .bwdot b = true → traps (.bwdot o) taken) ∧
      (cursorTaken b.cursor .diff b = true → traps (.diff o) taken))

/-- SEGGRAD and ACCST stage the pieces of their row adds and stores where their addresses are well formed and every piece passes
its check; ACCOUT stages one token for each 256 bytes of output; ACCCLR clears the accumulators and leaves the cursor and the
status (10 R165, R167). -/
def Obligations.AccumulatorOutputs : Prop :=
  ∀ (s s' : State) (el : Nat) (b b' : Block) (g : EG) (o : EM) (scratch : Bool) (a : Nat), RunsBlock s el b →
    let x := s.element el
    let t := trainWords .seggrad b 0 (operandWords b g.port.toNat) b.cursor false
    let stride := (if egMode x b g = 4 then 128 else 64) * (if g.width = 1 then 8 else 4)
    let rows := (t.1.flatMap gradRows).flatMap fun r => rowPieces b (b.operand g.oport.toNat) g.mport.toNat (a + r.1 * stride)
      (columnsOf (lanesMode x b.ctx.toNat)) (g.width = 1) r.2
    let r := accOutput x b o.size.toNat (o.variant.getLsbD 2)
    let n := (r.2.1 + 255) / 256
    let stores := (List.range n).map fun j => (a + 256 * j,
      b.request .store o.mport.toNat (min 256 (r.2.1 - 256 * j)) o.scope.toNat (BitVec.ofNat 2048 (r.1 / 2 ^ (2048 * j)))
        (if o.variant.getLsbD 0 && j + 1 = n then some o.chan else none))
    let token (j : Nat) : BlockEffect := .send (o.mport.toNat + j)
      { kind := .data, vector := true, chan := o.chan, ctx := b.ctx, colour := b.colour, iter := b.iter,
        data := BitVec.ofNat 2048 (r.1 / 2 ^ (2048 * j)) }
    (cursorTaken b.cursor .seggrad b = false → elementAddress (b.addressTemp 7) 256 .atomic = .ok (scratch, a) →
      t.2.2 = none → stagePieces b .atomic scratch s b rows = .ok (s', b') →
      exec (.seggrad g) s = .next (blockMoves s' el { b' with cursor := t.2.1 } 1)) ∧
    (elementAddress (b.addressTemp o.addr.toNat) (min r.2.1 256) .write = .ok (scratch, a) →
      stagePieces b .write scratch s b stores = .ok (s', b') →
      exec (.accst o) s = .next (blockMoves s' el { b' with events := b'.events ||| r.2.2 } 1)) ∧
    exec (.accout o) s = .next (blockMoves s el { b with
      effects := b.effects ++ (List.range n).map token, events := b.events ||| r.2.2 } 1) ∧
    exec (.accclr o) s = .next (blockMoves s el { b with acc := 0, accFp := lanesMode x b.ctx.toNat = 2 } 1)

/-- TWR and SCL stage their writes; TRD and SCLRD read a table row and a scale register as they stood at block entry, since both
are staged. A scale register is one of the set of the block's context (07 R98; 10 R168, R169). -/
def Obligations.TableRowsAndScales : Prop :=
  ∀ (s : State) (el : Nat) (b : Block) (o : EA), RunsBlock s el b →
    let x := s.element el
    let lane0 := srcA x el b o { w := 32 } 0
    let k := 8 * slice (x.ctxOf b.ctx.toNat).word.toNat 17 15 + o.x.toNat
    let scale := x.scales.getD k 0
    (∃ v : Vec, (∀ j, j < 64 → laneNat v 32 j = srcB x el b o { w := 32 } j % 2 ^ 32) ∧
      exec (.twr o) s = .next (blockMoves s el { b with effects := b.effects ++ [.tableRow (lane0 % 256) v] } (eaWords o))) ∧
    exec (.trd o) s = .next (blockMoves s el (b.setTemp o.d.toNat (x.table.getD (lane0 % 256) 0)) (eaWords o)) ∧
    exec (.scl o) s = .next (blockMoves s el
      { b with effects := b.effects ++ [.scale k (BitVec.ofNat 32 lane0)] } (eaWords o)) ∧
    ∃ v : Vec, (∀ j, j < 64 → laneNat v 32 j = scale.toNat) ∧
      exec (.sclrd o) s = .next (blockMoves s el (b.setTemp o.d.toNat v) (eaWords o))

/-- CSUM and CSVER fold the lanes of A into the running pair modulo 2^64, count the lanes, keep the expected pair, and write at
byte 20 whether CSVER found the pair it expected (23 R370). -/
def Obligations.ChecksumPairs : Prop :=
  ∀ (s : State) (el : Nat) (b : Block) (o : EA), RunsBlock s el b → o.t.toNat ≤ 2 →
    let x := s.element el
    let w := laneWidth o.t
    let n := lanesOf w
    let A (i : Nat) : Int := signedOf w (srcA x el b o (layoutOf o.t) i)
    ∃ B : Vec, (∀ j, j < n → laneNat B w j = srcB x el b o (layoutOf o.t) j) ∧
      let i0 := vecNat B 16 4
      let sa := (((vecNat B 0 8 : Int) + ((List.range n).map A).sum) % (2 ^ 64 : Nat)).toNat
      let sb := (((vecNat B 8 8 : Int) + ((List.range n).map fun i => ((i0 + i + 1 : Nat) : Int) * A i).sum) %
        (2 ^ 64 : Nat)).toNat
      let out (v : Vec) (good : Bool) : Prop :=
        vecNat v 0 8 = sa ∧ vecNat v 8 8 = sb ∧ vecNat v 16 4 = (i0 + n) % 2 ^ 32 ∧
        vecNat v 20 4 = (if good then 1 else 0) ∧ vecNat v 24 8 = 0 ∧ vecNat v 32 16 = vecNat B 32 16 ∧
        vecNat v 48 208 = 0
      (∃ v, out v false ∧ exec (.csum o) s = .next (blockMoves s el (b.setTemp o.d.toNat v) (eaWords o))) ∧
      ∃ v, out v (decide (sa = vecNat B 32 8 ∧ sb = vecNat B 40 8)) ∧
        exec (.csver o) s = .next (blockMoves s el (b.setTemp o.d.toNat v) (eaWords o))

/-! ## The registers and branches of the sequencers -/

/-- s0 reads as zero and discards writes; a write of another register is read back from it, and no other register of the
sequencer, nor anything else of it, changes (05 R81; 13 R198). -/
def Obligations.RegisterZeroIsHardWired : Prop :=
  ∀ (x : Sequencer) (r k : Nat) (v : DWord),
    x.reg 0 = 0 ∧ x.setReg 0 v = x ∧ (r ≠ 0 → (x.setReg r v).reg r = v) ∧ (k ≠ r → (x.setReg r v).reg k = x.reg k) ∧
    (x.setReg r v) = { x with regs := (x.setReg r v).regs }

/-- QALU and QIMM write d with the result of their table, modulo 2^64, and change nothing else (05 R82; 13 R202). -/
def Obligations.ScalarResults : Prop :=
  ∀ (s : State) (q : SeqId) (a : Activation) (x : Sequencer) (r : StepRun) (o : QA) (m : QI), RunsStep s q a x r →
    let A := x.reg o.a.toNat
    let B := x.reg o.b.toNat
    let M := x.reg m.a.toNat
    let sets (i : Instr) (v : DWord) : Prop := exec i s = .next (stepMoves s q (x.setReg o.d.toNat v) r)
    let setsI (i : Instr) (v : DWord) : Prop := exec i s = .next (stepMoves s q (x.setReg m.d.toNat v) r)
    sets (.sadd o) (A + B) ∧ sets (.ssub o) (A - B) ∧ sets (.smul o) (A * B) ∧ sets (.sand o) (A &&& B) ∧
    sets (.sor o) (A ||| B) ∧ sets (.sxor o) (A ^^^ B) ∧ sets (.sshl o) (A <<< B.toNat) ∧ sets (.sshr o) (A >>> B.toNat) ∧
    sets (.ssar o) (A.sshiftRight B.toNat) ∧ sets (.smin o) (BitVec.ofInt 64 (min A.toInt B.toInt)) ∧
    sets (.smax o) (BitVec.ofInt 64 (max A.toInt B.toInt)) ∧ sets (.smov o) A ∧
    setsI (.sli m) (m.imm.signExtend 64) ∧ setsI (.saddi m) (M + m.imm.signExtend 64) ∧
    setsI (.sandi m) (M &&& m.imm.signExtend 64) ∧ setsI (.slih m) (BitVec.ofNat 64 (M.toNat * 2 ^ 14 + m.imm.toNat))

/-- A branch that is not taken goes on with the next word; a taken one goes on at its target within the step, ends the step at
the first word of another, and otherwise is an illegal instruction (05 R84). BR compares, JMP is always taken, LOOP counts its
register down and is taken unless the count is zero. Where several steps begin at the target, that it is the lowest of them is the
model's choice (log 36). -/
def Obligations.BranchesFollowTheirOffsets : Prop :=
  ∀ (s : State) (q : SeqId) (a : Activation) (x : Sequencer) (r : StepRun) (o : QB) (c : BitVec 4), RunsStep s q a x r →
    let A := x.reg o.a.toNat
    let B := x.reg o.b.toNat
    let target : Int := x.entry.first + r.word + o.off.toInt
    let goes (i : Instr) (x' : Sequencer) (taken : Prop) : Prop :=
      (¬taken → exec i s = .next (stepMoves s q x' r)) ∧
      (∀ k : Nat, taken → k < x.entry.length → target = x.entry.first + k →
        exec i s = .next { s.putSequencer q { x' with step := some { r with word := k } } with focus := .none }) ∧
      (taken → (target < x.entry.first ∨ (x.entry.first + x.entry.length : Nat) ≤ target) →
        (∀ k, k < x.program.steps.length → (((x.program.steps.getD k default).first : Nat) : Int) = target →
          (∀ j, j < k → (((x.program.steps.getD j default).first : Nat) : Int) ≠ target) →
          exec i s = .next (stepEnds s q x' r (.branch k))) ∧
        ((∀ e ∈ x.program.steps, (e.first : Int) ≠ target) →
          exec i s = .next (takeStepException s q (illegalInfo false))))
    (c = 0 → goes (.br c o) x (A = B)) ∧ (c = 1 → goes (.br c o) x (A ≠ B)) ∧ (c = 2 → goes (.br c o) x (A.slt B = true)) ∧
    (c = 3 → goes (.br c o) x (B.sle A = true)) ∧ (c = 4 → goes (.br c o) x (A < B)) ∧ (c = 5 → goes (.br c o) x (B ≤ A)) ∧
    goes (.jmp o) x True ∧ goes (.loop o) (x.setReg o.a.toNat (A - 1)) (A ≠ 1)

/-- LOOP at zero wraps its register to the greatest value and is taken: within the step, to the first word of another step, or
into an illegal instruction where its target is neither (13 R204). That s0 counts as zero and keeps nothing (log 26), and that the
lowest of several steps that begin at the target is the one (log 36), are the model's choices. -/
def Obligations.LoopAtZeroWrapsAndIsTaken : Prop :=
  ∀ (s : State) (q : SeqId) (a : Activation) (x : Sequencer) (r : StepRun) (o : QB), RunsStep s q a x r →
    x.reg o.a.toNat = 0 →
    let target : Int := x.entry.first + r.word + o.off.toInt
    ∃ x' : Sequencer, (o.a ≠ 0 → x'.reg o.a.toNat = BitVec.ofNat 64 (2 ^ 64 - 1)) ∧
      (∀ j, j ≠ o.a.toNat ∨ o.a = 0 → x'.reg j = x.reg j) ∧ x' = { x with regs := x'.regs } ∧
      (∀ k : Nat, k < x.entry.length → target = x.entry.first + k →
        exec (.loop o) s = .next { s.putSequencer q { x' with step := some { r with word := k } } with focus := .none }) ∧
      ((target < x.entry.first ∨ (x.entry.first + x.entry.length : Nat) ≤ target) →
        (∀ k, k < x.program.steps.length → (((x.program.steps.getD k default).first : Nat) : Int) = target →
          (∀ j, j < k → (((x.program.steps.getD j default).first : Nat) : Int) ≠ target) →
          exec (.loop o) s = .next (stepEnds s q x' r (.branch k))) ∧
        ((∀ e ∈ x.program.steps, (e.first : Int) ≠ target) →
          exec (.loop o) s = .next (takeStepException s q (illegalInfo false))))

/-! ## The memory instructions of the sequencers -/

/-- SLD writes d with the loaded value, sign- or zero-extended, once its access check admits the address; on words that are not
all full it stays at its word and changes nothing but the turn; a misaligned address is an alignment fault (05 R83; 13 R205; 15
R246). -/
def Obligations.SldLoads : Prop :=
  ∀ (s s' : State) (q : SeqId) (a : Activation) (x : Sequencer) (r : StepRun) (o : QI) (fn : BitVec 4) (l : Leaf)
    (bs : List Byte), RunsStep s q a x r →
    let va := (x.reg o.a.toNat + o.imm.signExtend 64).toNat
    let n := sldSize fn.toNat
    let t := s.cacheLeaf a.entry.asid va l
    (va % n ≠ 0 → exec (.sld fn o) s = .next (takeStepException s q { code := 0x21, address := BitVec.ofNat 64 va })) ∧
    (va % n = 0 → checkAccess s a .read va n = .ok l →
      (l.fullEmpty = true → t.everyFull l.pa n = false → exec (.sld fn o) s = .next (stepWaits s q x r)) ∧
      ((l.fullEmpty = true → t.everyFull l.pa n = true) →
        readSectors (seqTile a q) a.entry.asid a.colour (if l.fullEmpty then .device else l.mtype) 4 t l.pa n [] =
          (s', some bs) →
        let v := natOfBytes (overlay r.effects va bs)
        exec (.sld fn o) s = .next (stepMoves s' q (x.setReg o.d.toNat (
          if fn.toNat < 4 then BitVec.ofInt 64 (signedOf (8 * n) v) else BitVec.ofNat 64 v)) r)))

/-- An SLD returns the bytes that an earlier SST of the same step stored at its address (13 R199). -/
def Obligations.SldReadsTheStepsOwnStores : Prop :=
  ∀ (es : List StepEffect) (va n w : Nat) (h : Home) (v : DWord) (bs : List Byte), n ≤ 8 → bs.length = n →
    natOfBytes (overlay (es ++ [.store va h n v w]) va bs) = v.toNat % 2 ^ (8 * n)

/-- SST and SATOM, EYADD and EYSET stage their accesses once their checks allow them, each with the place that its translation
gave (25 R392), and EYWAIT ends its step with the wait for
an eyelet's generation; SFENCE stages its fence. Nothing is performed and no register changes before the commit (05 R83; 13
R199, R205; 21 R328). That the translation is made when the access is staged (log 35), and that SATOM's alignment fault shows flags
16 alone (log 27), are the model's choices. -/
def Obligations.StepAccessesAreStaged : Prop :=
  ∀ (s : State) (q : SeqId) (a : Activation) (x : Sequencer) (r : StepRun) (o : QI) (fn : BitVec 4) (l : Leaf),
    RunsStep s q a x r →
    let va := (x.reg o.a.toNat + o.imm.signExtend 64).toNat
    let ey := (x.reg o.a.toNat).toNat
    let n := 2 ^ (fn.toNat % 4)
    let g : Word := (x.reg o.d.toNat + o.imm.signExtend 64).setWidth 32
    let kept (va : Nat) : State := s.cacheLeaf a.entry.asid va l
    (va % n = 0 → checkAccess s a .write va n = .ok l →
      exec (.sst fn o) s = .next (stepStages (kept va) q x r (.store va l.home n (x.reg o.d.toNat) r.word))) ∧
    (va % 8 = 0 → checkAccess s a .atomic va 8 = .ok l →
      exec (.satom fn o) s =
        .next (stepStages (kept va) q x r (.atom va l.home (fn.toNat % 4) o.d.toNat (x.reg o.d.toNat) r.word))) ∧
    (ey % 16 = 0 → checkAccess s a .atomic ey 16 = .ok l →
      exec (.eyadd o) s = .next (stepStages (kept ey) q x r (.eyelet ey l.home false g r.word)) ∧
      exec (.eyset o) s = .next (stepStages (kept ey) q x r (.eyelet ey l.home true g r.word))) ∧
    (ey % 16 = 0 → checkAccess s a .wait ey 16 = .ok l →
      exec (.eywait o) s = .next (stepEnds (kept ey) q x r (.wait (.eyelet (BitVec.ofNat 64 ey) g)))) ∧
    exec (.sfence o) s = .next (stepStages s q x r (.sfence o.imm.toNat)) ∧
    (va % n ≠ 0 → exec (.sst fn o) s =
      .next (takeStepException s q { code := 0x21, flags := 8, address := BitVec.ofNat 64 va })) ∧
    (va % 8 ≠ 0 → exec (.satom fn o) s =
      .next (takeStepException s q { code := 0x21, flags := 16, address := BitVec.ofNat 64 va }))

/-! ## Terminators, configurations and streams -/

/-- WAITQ ends its step with a wait: in region code for the region to be quiet, in stream code for the generators of its own tile to
have finished (13 R200, R216, R225). The wait ends where that holds. -/
def Obligations.WaitqWaitsForQuiet : Prop :=
  ∀ (s : State) (q : SeqId) (a : Activation) (x : Sequencer) (r : StepRun) (o : QA), RunsStep s q a x r →
    exec (.waitq o) s = .next (stepEnds s q x r (.wait .quiet)) ∧
    (∀ c, q = .region c → s.quietFor q a = s.isQuiet a) ∧
    (∀ t, q = .stream t → (s.quietFor q a = true ↔ (s.tile t).streams = []))

/-- DONE and WAITSEQ end their step as well, and RUN ends it with the placement staged; CFG and COMMIT stage their effects. A
RUN of an unbound port, or in base state beyond the package budget, takes its exception (13 R200, R211, R217, R218; 16 R260; 21
R329, R342). Behind a COMMIT of its step the port is not checked here but when the step commits; the base state is the one that the
step's earlier PERMIT and UNPERMIT leave (log 35), and a pair is charged for both of its regions (log 65): the model's choices. -/
def Obligations.TerminatorsEndTheirStep : Prop :=
  ∀ (s : State) (q : SeqId) (c : Nat) (a : Activation) (x : Sequencer) (r : StepRun) (o : QA) (e : QE),
    (RunsStep s q a x r →
      exec (.done o) s = .next (stepEnds s q x r .finished) ∧
      exec (.waitseq e) s = .next (stepEnds s q x r
        (.wait (.sequence (e.flags.toNat % 8) ((x.reg e.sC.toNat).setWidth 32))))) ∧
    (RunsRegion s c a x r →
      let p := s.portSends a.anchor o.d.toNat
      exec (.cfg o) s = .next (stepStages s (.region c) x r (.cfg (x.reg o.a.toNat) (o.flags.getLsbD 0) r.word)) ∧
      exec (.commit o) s = .next (stepStages s (.region c) x r (.commit r.word)) ∧
      (p = true ∨ stagedCommit r.effects = true → ¬(stagedBase a r.effects = true ∧ s.host.budget < 400 * chargedTiles a) →
        exec (.run o) s = .next (stepEnds s (.region c) x { r with
          effects := r.effects ++
            [.run o.d.toNat (x.reg o.a.toNat) (o.flags.extractLsb' 0 5) (o.flags.extractLsb' 5 3) r.word] } .run)) ∧
      (p = false → stagedCommit r.effects = false →
        exec (.run o) s = .next (takeStepException s (.region c) { code := 0x13 })) ∧
      (p = true ∨ stagedCommit r.effects = true → stagedBase a r.effects = true → s.host.budget < 400 * chargedTiles a →
        exec (.run o) s = .next (takeStepException s (.region c) { code := 0x64 })))

/-- AGSET, PUSH and ACCEPT of a generator whose nest and port are bound are staged; an unbound one raises the unbound-port fault
(13 R221, R224). Behind a COMMIT of the step they are staged in any case, and the new configuration is checked when the step commits
(the model's choice, log 35). -/
def Obligations.GeneratorInstructions : Prop :=
  ∀ (s : State) (q : SeqId) (a : Activation) (x : Sequencer) (r : StepRun) (o : QA), RunsStep s q a x r →
    let t := seqTile a q
    let later := stagedCommit r.effects = true
    let unbound (i : Instr) : Prop := exec i s = .next (takeStepException s q { code := 0x13 })
    let sets := exec (.agset o) s = .next (stepStages s q x r (.agset o.d.toNat (x.reg o.a.toNat) r.word))
    let pushes := exec (.push o) s =
      .next (stepStages s q x r (.push o.d.toNat (o.flags.extractLsb' 0 5) (o.flags.extractLsb' 5 3) r.word))
    let accepts := exec (.accept o) s = .next (stepStages s q x r (.accept o.d.toNat (o.flags.extractLsb' 0 5) r.word))
    (later → sets ∧ pushes ∧ accepts) ∧
    (∀ n : Nest, (s.tile t).nests.find o.d.toNat = some n →
      sets ∧ (s.portSends t n.mport = true → pushes) ∧ (s.portReceives t n.mport = true → accepts) ∧
      (s.portSends t n.mport = false → ¬later → unbound (.push o)) ∧
      (s.portReceives t n.mport = false → ¬later → unbound (.accept o))) ∧
    ((s.tile t).nests.find o.d.toNat = none → ¬later → unbound (.agset o) ∧ unbound (.push o) ∧ unbound (.accept o))

/-- DEPTH of a port that ends a circuit of the region, with a legal depth beside those that the step has staged, is staged,
and so is BANK of a bank of the region's memory tiles that nothing uses; every other operand raises the depth, bank or
bank-busy fault at the step (13 R219, R220; 12 R186, R189). What counts as use of a bank beside 13 R220's words (log 58), the operand
in the address field (log 28), and that circuits and uses are left to the step's commit behind a COMMIT (log 35) are the model's
choices. -/
def Obligations.DepthAndBank : Prop :=
  ∀ (s : State) (c : Nat) (a : Activation) (x : Sequencer) (r : StepRun) (o : QA) (el port tile bank : Nat),
    RunsRegion s c a x r →
    let v := (x.reg o.a.toNat).toNat
    let d := (x.reg o.b.toNat).toNat
    let traps (i : Instr) (code : BitVec 8) : Prop :=
      exec i s = .next (takeStepException s (.region c) { code := code, address := BitVec.ofNat 64 v })
    let later := stagedCommit r.effects = true
    let legal := d % 8 = 0 ∧ 8 ≤ d ∧ d ≤ 256
    let room := (s.circuits.any fun k => k.2.ends.contains (.elementPort el port)) = true ∧
      s.poolWith r.effects (tileOf el) el port d ≤ 512
    (v < 2 ^ 18 → slice v 15 14 = 0 → a.absolute (v % 2 ^ 14) = some el →
      (isComputeTile el = true → slice v 17 16 = port →
        (legal → (room ∨ later) → exec (.depth o) s = .next (stepStages s (.region c) x r (.depth el port d r.word))) ∧
        (¬legal → traps (.depth o) 0x14) ∧ (¬room → ¬later → traps (.depth o) 0x14)) ∧
      (isComputeTile el = false → traps (.depth o) 0x14)) ∧
    ((2 ^ 18 ≤ v ∨ slice v 15 14 ≠ 0 ∨ a.absolute (v % 2 ^ 14) = none) → traps (.depth o) 0x14) ∧
    (v < 2 ^ 14 → a.absolute (v / 16 * 16) = some tile →
      (isComputeTile tile = false → v % 16 = bank →
        (s.bankBusy a r.effects tile bank = false ∨ later →
          exec (.bank o) s = .next (stepStages s (.region c) x r (.bank tile bank (bankMode o.flags) r.word))) ∧
        (s.bankBusy a r.effects tile bank = true → ¬later → traps (.bank o) 0x16)) ∧
      (isComputeTile tile = true → traps (.bank o) 0x15)) ∧
    ((2 ^ 14 ≤ v ∨ a.absolute (v / 16 * 16) = none) → traps (.bank o) 0x15)

/-! ## Engine and collective commands -/

/-- Every engine instruction stages the append of its record: parameter s(A), eyelet s(B), and s(C) as the activation under ACT
or as the auxiliary operand; a collective of region code likewise. TPATCH in delta form with a register in sC is an illegal
instruction (05 R67; 16 R257, R259; 22 R344; 23 R361); that the form is the one its parameter block shows when the step executes it
is the model's choice (log 68). A collective of a redundant pair's copy raises the fault of 26 R415, whose record shows the block's
address and width (log 28). -/
def Obligations.EngineCommandsAreAppended : Prop :=
  ∀ (s : State) (q : SeqId) (a : Activation) (x : Sequencer) (r : StepRun) (o : QE), RunsStep s q a x r →
    let act : DWord := if o.flags.getLsbD 0 then x.reg o.sC.toNat else 0
    let rec_ (engine fn : Nat) (aux activation : DWord) : CommandRecord :=
      { engine := engine, fn := fn, flags := BitVec.ofNat 16 o.flags.toNat, parameter := x.reg o.sA.toNat,
        eyelet := x.reg o.sB.toNat, auxiliary := aux, activation := activation }
    let appendsAt (t : State) (i : Instr) (engine fn : Nat) (aux activation : DWord) : Prop :=
      exec i s = .next (stepStages t q x r (.append (rec_ engine fn aux activation) r.word))
    let appends := appendsAt s
    let collective (i : Instr) (fn : Nat) : Prop := ∀ c, q = .region c →
      (a.isPair = false → exec i s = .next (stepStages s q x r (.collective fn (rec_ 6 fn 0 act)))) ∧
      (a.isPair = true → exec i s = .next (takeStepException s q { code := 0x23, address := x.reg o.sA.toNat, position := 64 }))
    let format := s.patchFormat q a r.effects (x.reg o.sA.toNat).toNat
    appends (.copy o) 0 0 0 act ∧ appends (.gather o) 0 1 0 act ∧ appends (.scatter o) 0 2 0 act ∧
    appends (.click o) 1 0 (x.reg o.sC.toNat) 0 ∧ appends (.tbuild o) 2 0 0 act ∧
    (o.sC = 0 → appends (.tpatch o) 2 1 (x.reg o.sC.toNat) 0) ∧
    (o.sC ≠ 0 → format.2 ≠ some 2 → format.2 ≠ some 3 → appendsAt format.1 (.tpatch o) 2 1 (x.reg o.sC.toNat) 0) ∧
    (o.sC ≠ 0 → (format.2 = some 2 ∨ format.2 = some 3) →
      exec (.tpatch o) s = .next (takeStepException format.1 q { code := 0x11 })) ∧
    appends (.scant o) 2 2 0 act ∧ appends (.expand o) 3 0 0 act ∧ appends (.epi o) 4 0 0 act ∧
    collective (.car o) 0 ∧ collective (.crs o) 1 ∧ collective (.cag o) 2 ∧ collective (.ca2a o) 3 ∧
    collective (.cbcast o) 4

/-- PUSHT and POPT stage their append for every length, source and stack that R244, R274 and R275 allow, and take the
stack-overflow, stack-underflow, stack-length, scratch-range, undeclared-access and tier-access faults at the step otherwise; an
undeclared eyelet faults there too. The stack is the one that the commands before this one leave, that a PUSHT of length 0 or of 2^32
and above takes the stack-length fault, that the eyelet is checked after the rest, and that a page in a retired frame or in a part that
is not ready faults here are the model's choices (log 37), with footprints as log 23 counts them. CHAIN reads its record as SLD reads, waits on an empty full-empty
word, and stages the append of the record where its engine, function, flags and reserved bytes are as R257 and R259 allow, with
the checks of PUSHT and POPT for a record of the spill engine; another record raises the chain-record fault. In a copy of a
redundant pair the three raise the fault of R415 (15 R243, R244; 16 R257, R259, R260, R274, R275; 19 R304; 26 R415). The width in the
position field (log 27) and the parameter in the address field (log 28) are the model's choices. -/
def Obligations.StackAndChainInstructions : Prop :=
  ∀ (s : State) (q : SeqId) (a : Activation) (x : Sequencer) (r : StepRun) (o : QE), RunsStep s q a x r →
    let va := x.reg o.sA.toNat
    let takes (s' : State) (i : Instr) (f : FaultInfo) : Prop := exec i s = .next (takeStepException s' q f)
    let traps (i : Instr) (code : BitVec 8) : Prop := takes s i { code := code, address := va }
    let undeclared (i : Instr) (flags : BitVec 8) (address : DWord) (width : Nat) : Prop :=
      takes s i { code := 0x23, flags := flags, address := address, position := BitVec.ofNat 32 width }
    (a.isPair = true → undeclared (.pusht o) 0 va (x.reg o.sC.toNat).toNat ∧
      undeclared (.popt o) 8 va (x.reg o.sC.toNat).toNat ∧ undeclared (.chain o) 0 va 64) ∧
    (a.isPair = false →
      let len := x.reg o.sC.toNat
      let n := len.toNat
      let eyelet := x.reg o.sB.toNat
      let named := eyelet = 0 ∨ recordsAllow a.records .atomic eyelet.toNat 16 = true
      let stack := s.stackAhead a.entry.asid r.effects
      let stages (i : Instr) (fn : Nat) : Prop := exec i s = .next (stepStages s q x r
        (.append { engine := 5, fn := fn, flags := BitVec.ofNat 16 o.flags.toNat, parameter := va, eyelet := eyelet,
                   auxiliary := len, activation := 0 } r.word))
      let d := s.stackDesc a.entry.asid
      let foot := ringBytes stack + (n + 255) / 256 * 256
      let fits := foot ≤ d.hsize ∧ (d.lsize = 0 ∨ (foot ≤ d.high ∧ leavingBytes stack = 0) ∨
        spilledBytes stack + mustSpill stack (foot - leavingBytes stack - d.low) ≤ d.lsize)
      let checked (i : Instr) (fn : Nat) : Prop :=
        (named → stages i fn) ∧ (¬named → undeclared i 16 eyelet 16)
      let reached (i : Instr) (fn : Nat) (u : RecordUse) (k : Nat) : Prop :=
        (s.pagesReachable a.entry.asid u va.toNat k = .ok () → checked i fn) ∧
        ∀ f, s.pagesReachable a.entry.asid u va.toNat k = .error f → takes s i f
      (n = 0 ∨ 2 ^ 32 ≤ n → traps (.pusht o) 0x5B) ∧
      (0 < n → n < 2 ^ 32 →
        (¬fits → traps (.pusht o) 0x59) ∧
        (fits → o.flags.getLsbD 0 = false →
          (recordsAllow a.records .read va.toNat n = true → reached (.pusht o) 0 .read n) ∧
          (recordsAllow a.records .read va.toNat n = false → undeclared (.pusht o) 0 va n)) ∧
        (fits → o.flags.getLsbD 0 = true →
          (s.scratchGood a va.toNat n = true → checked (.pusht o) 0) ∧
          (s.scratchGood a va.toNat n = false → traps (.pusht o) 0x22))) ∧
      (stack = [] → traps (.popt o) 0x5A) ∧
      (∀ e : StackEntry, stack.getLast? = some e →
        (n ≠ 0 → n ≠ e.length → traps (.popt o) 0x5B) ∧
        (n = 0 ∨ n = e.length →
          (recordsAllow a.records .write va.toNat e.length = false → undeclared (.popt o) 8 va e.length) ∧
          (recordsAllow a.records .write va.toNat e.length = true →
            ((∀ w t, va.toNat ≤ w → w < va.toNat + e.length → translate s a.entry.asid w .write = .ok t →
              isHbm t.pa = true) → reached (.popt o) 1 .write e.length) ∧
            ∀ w t, va.toNat ≤ w → w < va.toNat + e.length → (w = va.toNat ∨ w % 65536 = 0) →
              translate s a.entry.asid w .write = .ok t → isHbm t.pa = false →
              takes s (.popt o) { code := 0x24, flags := 8, address := va }))) ∧
      (va.toNat % 64 ≠ 0 → traps (.chain o) 0x21) ∧
      (∀ l : Leaf, va.toNat % 64 = 0 → checkAccess s a .read va.toNat 64 = .ok l →
        let t := s.cacheLeaf a.entry.asid va.toNat l
        (l.fullEmpty = true → t.everyFull l.pa 64 = false → exec (.chain o) s = .next (stepWaits s q x r)) ∧
        ((l.fullEmpty = true → t.everyFull l.pa 64 = true) → ∀ (s' : State) (bs : List Byte),
          readSectors (seqTile a q) a.entry.asid a.colour (if l.fullEmpty then .device else l.mtype) 4 t l.pa 64 [] =
            (s', some bs) →
          let v := BitVec.ofNat 512 (natOfBytes (overlay r.effects va.toNat bs))
          let c : CommandRecord :=
            { engine := field v 0 1, fn := field v 1 1, flags := BitVec.ofNat 16 (field v 2 2),
              parameter := BitVec.ofNat 64 (field v 8 8), eyelet := BitVec.ofNat 64 (field v 16 8),
              auxiliary := BitVec.ofNat 64 (field v 24 8), activation := BitVec.ofNat 64 (field v 32 8) }
          let legal := recordLegal c.engine c.fn c.flags.toNat = true ∧ field v 4 4 = 0 ∧ field v 40 24 = 0
          (legal → (c.engine = 5 → checkStack s' a r.effects c = .ok ()) →
            exec (.chain o) s = .next (stepStages s' q x r (.append c r.word))) ∧
          (∀ f, legal → c.engine = 5 → checkStack s' a r.effects c = .error f → takes s' (.chain o) f) ∧
          (¬legal → takes s' (.chain o) { code := 0x58, address := va }))))

/-! ## Tasks, power, supervision and debug -/

/-- SPAWN stages the record it read; DECL stages a narrowing that R330 allows and faults on any other; CANCEL, SPLIT, YIELD,
PERMIT and UNPERMIT stage their effects, with the operand faults of R332 and R342 (17 R279; 21 R330 to R335, R342). A copy of a
redundant pair that spawns raises the fault of 26 R415. The operand in the address fields of these faults is the model's choice (log
28). -/
def Obligations.TaskInstructionsAreStaged : Prop :=
  ∀ (s s' : State) (c : Nat) (a : Activation) (x : Sequencer) (r : StepRun) (o : QA) (bs : List Byte) (old : RegionRecord),
    RunsRegion s c a x r →
    let A := x.reg o.a.toNat
    let B := x.reg o.b.toNat
    let D := x.reg o.d.toNat
    let now (i : Instr) (e : StepEffect) : Prop := exec i s = .next (stepStages s (.region c) x r e)
    let traps (i : Instr) (f : FaultInfo) : Prop := exec i s = .next (takeStepException s (.region c) f)
    let n := B.toNat % 2 ^ 48
    let mode := slice B.toNat 51 48
    let narrows := B.toNat < 2 ^ 52 ∧ mode ≤ 3 ∧ (n = 0 ∨ (old.base ≤ A.toNat ∧ A.toNat + n ≤ old.base + old.extent ∧
      (mode = old.mode ∨ old.mode = 2)))
    let charge := (if A.toNat = 7 then 800 else 100 * A.toNat) * chargedTiles a
    (a.isPair = false → readStep s (.region c) a r A.toNat 64 64 = .bytes s' bs →
      exec (.spawn o) s =
        .next (stepStages s' (.region c) x r (.spawn (BitVec.ofNat 512 (natOfBytes bs)) A.toNat r.word))) ∧
    (a.isPair = true → traps (.spawn o) { code := 0x23, address := A, position := 64 }) ∧
    ((stagedRecords r.effects a.records)[D.toNat]? = some old →
      (narrows → now (.decl o) (.decl D.toNat A B)) ∧ (¬narrows → traps (.decl o) { code := 0x27, address := A })) ∧
    ((stagedRecords r.effects a.records)[D.toNat]? = none → traps (.decl o) { code := 0x27 }) ∧
    (A.toNat < 2 ^ 16 → now (.cancel o) (.cancel (o.flags.toNat % 8) A.toNat)) ∧
    (2 ^ 16 ≤ A.toNat → traps (.cancel o) { code := 0x63, address := A }) ∧
    now (.split o) (.split o.d.toNat A) ∧ now (.yield o) .yield ∧ now (.unpermit o) .unpermit ∧
    (A.toNat ≤ 7 → charge ≤ s.host.budget → now (.permit o) (.permit A.toNat)) ∧
    ((7 < A.toNat ∨ s.host.budget < charge) → traps (.permit o) { code := 0x64 })

/-- In ASID 0 the QSYS instructions of region code stage their effects, MON reads its monitor at once and stages the write of d, and
an operand out of range raises the QSYS operand fault; SBRK is staged in region and in stream code, STEP where its target exists (25
R398 to R405). The reading of a monitor is a free value (log 7). That SBRK is staged in stream code, where R404 and R225 differ, and which
targets STEP has (log 33), that CTXSAVE, CTXLOAD and MON ignore the other bits of their operand (log 34), and the operand in the
address field (log 28) are the model's choices. -/
def Obligations.SupervisorAndDebugInstructions : Prop :=
  ∀ (s : State) (o : QA),
    (∀ (q : SeqId) (a : Activation) (x : Sequencer) (r : StepRun), RunsStep s q a x r →
      exec (.sbrk o) s = .next (stepStages s q x r (.sbrk o.flags))) ∧
    ∀ (c : Nat) (a : Activation) (x : Sequencer) (r : StepRun), RunsRegion s c a x r →
      let A := x.reg o.a.toNat
      let B := x.reg o.b.toNat
      let k := o.flags.toNat % 4
      let now (i : Instr) (e : StepEffect) : Prop := exec i s = .next (stepStages s (.region c) x r e)
      let traps (i : Instr) (code : BitVec 8) (v : DWord) : Prop :=
        exec i s = .next (takeStepException s (.region c) { code := code, address := v })
      let die := slice A.toNat 17 16
      let kind := slice A.toNat 13 12
      let index := A.toNat % 64
      let count := if kind = 0 then 64 else if kind = 1 then 32 else if kind = 2 then 16 else 0
      let key := 1024 * die + 256 * kind + index
      (a.entry.asid = 0 →
        (B.toNat < 256 → (k < 2 ∨ B.toNat ≤ 128) → now (.tlbinv o) (.tlbinv k A B.toNat)) ∧
        ((256 ≤ B.toNat ∨ (2 ≤ k ∧ 128 < B.toNat)) → traps (.tlbinv o) 0x74 B) ∧
        (A.toNat < 2 ^ 16 → idNames A.toNat = true → isComputeTile A.toNat = true →
          now (.quar o) (.quar o.d.toNat A.toNat (o.flags.getLsbD 0))) ∧
        (2 ^ 16 ≤ A.toNat ∨ idNames A.toNat = false ∨ isComputeTile A.toNat = false → traps (.quar o) 0x74 A) ∧
        (A.toNat % 256 ≠ 0 → now (.ctxsave o) (.ctxsave o.d.toNat (A.toNat % 256) none) ∧
          now (.ctxload o) (.ctxload o.d.toNat (A.toNat % 256))) ∧
        (A.toNat % 256 = 0 → traps (.ctxsave o) 0x74 A ∧ traps (.ctxload o) 0x74 A) ∧
        (index < count → ∃ s', exec (.mon o) s = .next (stepStages s' (.region c) x r
            (.mon o.d.toNat (Config.monitor die kind index (s.host.monitorRead.getD key 0) s.tick))) ∧
          s' = { s with host := { s.host with monitorRead :=
            if kind = 1 then s.host.monitorRead.put key s.tick else s.host.monitorRead } }) ∧
        (count ≤ index → traps (.mon o) 0x74 A) ∧
        now (.bbnote o) (.bbnote A B)) ∧
      (stepTarget s a k A.toNat = true → now (.step o) (.stepMode k A)) ∧
      (stepTarget s a k A.toNat = false → traps (.step o) 0x75 A)

/-- A QSYS instruction outside ASID 0 raises the illegal-instruction fault with its privilege flag, and stream code raises the
illegal-instruction fault on every instruction that only region code may execute (05 R67; 13 R225; 21 R328). -/
def Obligations.PrivilegeAndStreamCode : Prop :=
  ∀ (s : State) (q : SeqId) (a : Activation) (x : Sequencer) (r : StepRun) (o : QA) (e : QE), RunsStep s q a x r →
    let illegal (i : Instr) (priv : Bool) : Prop :=
      exec i s = .next (takeStepException s q { code := 0x11, flags := if priv then 4 else 0 })
    (a.entry.asid ≠ 0 → illegal (.tlbinv o) true ∧ illegal (.quar o) true ∧ illegal (.ctxsave o) true ∧
      illegal (.ctxload o) true ∧ illegal (.mon o) true ∧ illegal (.bbnote o) true) ∧
    (∀ t, q = .stream t →
      illegal (.cfg o) false ∧ illegal (.commit o) false ∧ illegal (.run o) false ∧ illegal (.depth o) false ∧
      illegal (.bank o) false ∧ illegal (.spawn o) false ∧ illegal (.decl o) false ∧ illegal (.cancel o) false ∧
      illegal (.split o) false ∧ illegal (.yield o) false ∧ illegal (.permit o) false ∧ illegal (.unpermit o) false ∧
      illegal (.car e) false ∧ illegal (.crs e) false ∧ illegal (.cag e) false ∧ illegal (.ca2a e) false ∧
      illegal (.cbcast e) false ∧ illegal (.step o) false ∧
      (a.entry.asid = 0 → illegal (.tlbinv o) false ∧ illegal (.quar o) false ∧ illegal (.ctxsave o) false ∧
        illegal (.ctxload o) false ∧ illegal (.mon o) false ∧ illegal (.bbnote o) false))

/-- Taking an exception at a step of region or of stream code, where no mismatch of its firing is retried first (13 R199; 25 R382 to
R385; 26 R411): the registers are as at its start, nothing of it is committed, CC still names it, the sequencer is held with the
fault at the faulting word, and the record is delivered. A step that is at a word beyond its length, at a word that is no sequencer
instruction, or at one that does not decode, takes the illegal-instruction exception, with the privilege flag where the word is one
of QSYS outside ASID 0 (13 R200; 05 R65, R67). -/
def Obligations.StepExceptionUndoesTheStep : Prop :=
  ∀ (s : State) (q : SeqId) (a : Activation) (x : Sequencer) (r : StepRun) (i : FaultInfo), RunsStep s q a x r →
    let t := takeStepException s q i
    let site := s.stepSite q x.cc r.word
    let clean := s.upsets = [] ∧ s.host.llcinj.getLsbD 63 = false
    (Upset.stepFiring q ∉ s.upsets →
      t.focus = .none ∧ t.elements = s.elements ∧ t.circuits = s.circuits ∧ t.chains = s.chains ∧
      t.memory = (s.report site i).memory ∧ t.host = (s.report site i).host ∧ (clean → t.sched = s.sched) ∧
      (clean → t.sequencer q = some { x with
        regs := r.saved, step := none, held := some { info := i, place := x.cc, word := r.word } }) ∧
      (∀ c, q = .region c → t.tiles = s.tiles ∧ (clean → ∀ k, k ≠ c → t.activation k = s.activation k)) ∧
      (∀ tile, q = .stream tile → (clean → t.activations = s.activations) ∧ ∀ k, k ≠ tile → t.tile k = s.tile k)) ∧
    (r.ended = none →
      let w := x.program.code.getD (x.entry.first + r.word) 0
      let outside := x.entry.length ≤ r.word
      let illegal (flags : BitVec 8) : Prop :=
        exec (.illegalInstruction q) s = .next (takeStepException s q { code := 0x11, flags := flags })
      (outside → illegal 0) ∧
      (¬outside → isSequencerWord w = false → illegal 0) ∧
      (¬outside → ∀ e, decode [w] = .error e →
        illegal (if a.entry.asid ≠ 0 ∧ (bits w 26 6).toNat = 0x3D then 4 else 0)))

/-! ## The events of the elements, the fabric and the memory -/

/-- The events of an element, each where its condition holds: a token enters a slot or is discarded with a record, CONF sets
scales, CTRL masks and unmasks; a candidate of the highest level is selected and promoted; a block commits, with the scale or
the table row it staged, or is abandoned; a table write and a depth take effect; a tag-store deadlock ends the activations
that hold its slots (07 R101 to R113; 03 R43 to R47; 12 R187; 26 R411). -/
def Obligations.ElementEventsOccur : Prop :=
  ∀ (s : State) (el port : Nat),
    let x := s.element el
    (∀ t x', HasHead s el port t x' →
      (t.kind = .data ∨ t.kind = .last →
        (∀ e, handlerFor x t.ctx.toNat t.chan.toNat = some e → x.slots.length < 64 →
          exec (.tokenArrival el port) s = .next (s.putElement el { x' with
            slots := x.slots ++ [{ port := port, token := t, order := x.arrivals, since := s.cycle }],
            arrivals := x.arrivals + 1 })) ∧
        (handlerFor x t.ctx.toNat t.chan.toNat = none →
          exec (.tokenArrival el port) s = .next ((s.putElement el x').recordAtElement el t 0x44))) ∧
      (t.kind = .conf → ctxEnabled x t.ctx.toNat = true → x.block = none →
        (∀ sl ∈ x.slots, ¬(sl.port = port ∧ sl.token.ctx = t.ctx)) → t.vector = true → (vecWord t.data 0).toNat < 256 →
        ∃ scales, exec (.confToken el port) s = .next (s.putElement el { x' with scales := scales }) ∧
          ∀ i, i < 8 → scales.getD (8 * slice (x.ctxOf t.ctx.toNat).word.toNat 17 15 + i) 0 =
            if (vecWord t.data 0).getLsbD i then vecWord t.data (1 + i)
            else x.scales.getD (8 * slice (x.ctxOf t.ctx.toNat).word.toNat 17 15 + i) 0) ∧
      (∀ e, t.kind = .ctrl → handlerFor x t.ctx.toNat t.chan.toNat = some e →
        ((vecWord t.data 0).toNat % 4 = 0 → exec (.ctrlToken el port) s =
          .next (s.putElement el { x' with handlers := x.handlers.put e (x.handlers.getD e 0 ||| 0x1000000) })) ∧
        ((vecWord t.data 0).toNat % 4 = 1 → exec (.ctrlToken el port) s =
          .next (s.putElement el { x' with handlers := x.handlers.put e (x.handlers.getD e 0 &&& 0xFEFFFFFF) })))) ∧
    (∀ k n, x.block = none → (∀ c ∈ candidates x, promotionDue s.cycle x c = false) → s.choice x = some (k, n) →
      ∃ y, exec (.blockSelect el) s = .next (s.putElement el y) ∧ y.block = some (startBlock x k n) ∧ y.slots = x.slots ∧
        y.lastFired = some (k.ctx, k.entry) ∧ y.ctxs = x.ctxs ∧
        (x.again = none → ∀ c ∈ candidates x, s.selectable x c = true → candidateLevel x c ≤ candidateLevel x k)) ∧
    (∀ k cand, (candidates x).find? (fun c => c.id = cand) = some k → candidateLevel x k < 63 →
      x.promotions.getD cand 0 < (s.cycle - k.since) / 1024 → exec (.promotion el cand) s =
        .next (s.putElement el { x with promotions := x.promotions.put cand (x.promotions.getD cand 0 + 1) })) ∧
    (∀ b, x.block = some b → blockOpen x b = false →
      (s.stopping b.colour.toNat (b.attempt ≠ 0) = true → exec (.blockCommit el) s = .next ((s.putElement el { x with block := none }).settleQuarantine el)) ∧
      (s.stopping b.colour.toNat (b.attempt ≠ 0) = false → Upset.elementFiring el ∉ s.upsets →
        exec (.blockCommit el) s = .next ((commitBlock s el b).closeGrant b.colour.toNat) ∧
        (b.effects = [] →
          let y := (commitBlock s el b).element el
          let h := y.ctxOf b.ctx.toNat
          y.block = none ∧ h.temps = b.temps ∧ h.preds = b.preds ∧ h.acc = b.acc ∧ h.cursor = b.cursor ∧
          h.status = (x.ctxOf b.ctx.toNat).status ||| b.events) ∧
        (∀ k v, b.effects = [.scale k v] → ((commitBlock s el b).element el).scales.getD k 0 = v) ∧
        (∀ r v, b.effects = [.tableRow r v] → ((commitBlock s el b).element el).table.getD r 0 = v))) ∧
    (x.slots.length = 64 → completeMatches x = [] → x.lastRelease + 65536 ≤ s.cycle →
      ∃ t, exec (.tagStoreDeadlock el) s = .next t ∧ ∀ sl ∈ x.slots, ∀ a, s.activation sl.token.colour.toNat = some a →
        a.colour = sl.token.colour.toNat → ∃ a', t.activation sl.token.colour.toNat = some a' ∧ a'.cancelled = true) ∧
    (∀ w rest, x.tableWrites = w :: rest → x.block = none → trainOpen x = false → (s.chain w.chain).stopped = false →
      (∀ rows block, w.kind = .build rows block none → exec (.tableWriteApply el) s = .next ((s.putElement el
        { x with tableWrites := rest, table := rows, reloadable := some block }).tableApplied w)) ∧
      (∀ wide delta k n ds, w.kind = .patch wide delta k n ds → patchFails x wide delta k n ds = none →
        exec (.tableWriteApply el) s = .next ((s.putElement el
          { x with tableWrites := rest, table := patchedTable x wide delta k n ds, reloadable := none }).tableApplied w))) ∧
    (∀ d c, (x.ports.getD port {}).newDepth = some d →
      s.circuits.find? (fun c => c.2.ends.contains (.elementPort el port)) = some c → s.drained el port c.2 = true →
      exec (.depthChange el port) s = .next (s.putElement el
        { x with ports := x.ports.put port { x.ports.getD port {} with depth := d, newDepth := none } }))

/-- A flit leaves a buffer for every branch, and lands with good parity; a switched bank is in its new mode; a request is
performed at its bank or tile, a reply arrives, a deferred access wakes, an eyelet counts, and a held request is translated
again, each where its condition holds (12 R181 to R185; 15 R238, R246; 16 R249 to R252; 25 R393). -/
def Obligations.FabricAndMemoryEventsOccur : Prop :=
  ∀ (s : State),
    (∀ k c node f rest, s.circuits.find k = some c → (c.node node).flits = f :: rest → s.nodeReady c node = true →
      s.longestUnserved k node = true →
      let c' := c.setNode node { c.node node with flits := rest, served := s.tick + 1 }
      let t := { s with circuits := s.circuits.put k c' }
      exec (.flitHop k node false) s = .next ((c.node node).targets.foldl (fun s t => s.putWire k t f)
        (if node = 0 then t.noteLeft c' f else t))) ∧
    (∀ k c node el p f rest, s.circuits.find k = some c → (c.node node).targets = [.elementPort el p] →
      ((s.element el).ports.getD p {}).wire = f :: rest → f.par = parityOf f → Upset.flit k node 0 ∉ s.upsets →
      let q := (s.element el).ports.getD p {}
      let g := s.arriving c (tileOf el) f
      exec (.flitHop k node true) s = .next (s.putElement el { s.element el with ports := (s.element el).ports.put p { q with
        wire := rest, circuit := q.circuit ++ [g], order := if g.isEnd then q.order ++ [.circuit] else q.order } })) ∧
    (∀ tile bank w, (s.tile tile).switching.find bank = some w → (∀ r ∈ w.requests, s.requestOpen r.1 r.2 = false) →
      (∀ i ∈ w.additions, s.memory.additions.find i = none) →
      let t := s.switchBank tile bank w.mode
      exec (.bankSwitch tile bank) s =
        .next (t.putTile tile { t.tile tile with switching := (t.tile tile).switching.drop bank })) ∧
    (∀ el mport r rest a, s.pickRequest el mport = some (r, rest) → s.activation r.colour.toNat = some a →
      s.mayPerform a r = true →
      let x := s.element el
      let s' := (s.putElement el { x with requests := x.requests.put mport rest }).takeFromSink el r
      (∀ t, s'.perform a el r = some t → exec (.memoryRequestPerform el mport) s = .next t) ∧
      (∀ tile byte, r.scratch = true → a.scratchPlace r.address = some (tile, byte) →
        (s'.tile tile).switching.find (byte / 65536) = none → s'.scratchGood a r.address r.size = true →
        (r.op = .store → exec (.memoryRequestPerform el mport) s =
          .next ((s'.scratchWrite a r.address (vecBytes r.data r.size)).addReply el r [])) ∧
        (∀ signed, r.op = .load signed → r.scope = 0 → exec (.memoryRequestPerform el mport) s =
          .next (s'.addReply el r (s'.scratchBytes a r.address r.size))))) ∧
    (∀ el mport t before after, (s.element el).replies = before ++ (mport, t) :: after → (∀ r ∈ before, r.1 ≠ mport) →
      let x := s.element el
      let q := x.ports.getD mport {}
      exec (.replyArrival el mport) s = .next (s.putElement el { x with
        replies := before ++ after,
        ports := x.ports.put mport { q with
          reply := q.reply ++ flitsOf t, order := q.order ++ [.reply] } })) ∧
    (∀ n el r a t, s.memory.deferred.find n = some (el, r) → s.activation r.colour.toNat = some a → r.isHeld = false →
      s.mayPerform a r = true → (∀ s' rest, performDevice s a el r ≠ .waits s' rest) →
      (s.mapMemory fun m => { m with deferred := m.deferred.drop n }).perform a el r = some t →
      exec (.fullEmptyWake n) s = .next t) ∧
    (∀ n e t w, s.memory.additions.find n = some e → s.additionReady n e = true → s.homeFault e = none →
      ((s.mapMemory fun m => { m with additions := m.additions.drop n }).flushEyelet e.colour e.scratchTile
        e.address).readEyelet e.scratchTile e.address = (t, some w) → w.flags < 2 →
      let w' := addTo w e.n
      (t.writeEyelet e.scratchTile e.asid e.address w').eyeletLost e.scratchTile e.address = false →
      ∃ t', exec (.eyeletAddition n) s = .next t' ∧ w'.target = w.target ∧
        (w.target = 0 → w'.count = (w.count + e.n) % 2 ^ 32 ∧ w'.generation = w.generation) ∧
        (w.target ≠ 0 → w'.count = (w.count + e.n) % w.target ∧
          w'.generation = (w.generation + (w.count + e.n) / w.target) % 2 ^ 32) ∧
        t'.memory.mem = (t.writeEyelet e.scratchTile e.asid e.address w').memory.mem ∧
        t'.memory.llc = (t.writeEyelet e.scratchTile e.asid e.address w').memory.llc ∧
        t'.tiles = (t.writeEyelet e.scratchTile e.asid e.address w').tiles) ∧
    (∀ el mport before r after a l, (s.element el).requests.getD mport [] = before ++ r :: after →
      (∀ q ∈ before, q.held = false) → r.held = true → s.activation r.colour.toNat = some a →
      s.reach a r.op.use r.va = .ok l → (((∃ w, r.op = .take w) ∨ r.op = .fill) → l.fullEmpty = true) →
      exec (.retranslation el mport) s = .next (s.putElement el { s.element el with
        requests := (s.element el).requests.put mport (before ++
          { r with held := false, address := l.pa, mtype := l.mtype, fullEmpty := l.fullEmpty } :: after) }))

/-! ## The events of the sequencers -/

/-- The events of a sequencer, each where its condition holds: a step starts with its registers saved; a step that has ended
and passed its checks releases its effects and CC moves on, and a failing check is an exception of the step; waits end; a load
and a sweep put a configuration in force; start tokens and streams go on (13 R199, R200, R211 to R225; 16 R260; 20 R325). That YIELD
is released behind the step's other effects and SBRK last is the model's reading (log 33). -/
def Obligations.SequencerEventsOccur : Prop :=
  ∀ (s : State) (q : SeqId) (a : Activation) (x : Sequencer) (c : Nat),
    (s.seqActivation q = some a → s.sequencer q = some x →
      (x.running = true → x.step = none → x.held = none → x.lateAccess = [] → x.wait = .none → s.mayStart a = true →
        a.stepMode = false → (isStreamSeq q = true ∨ a.phase = .running) →
        exec (.stepStart q) s = .next (s.putSequencer q { x with step := some { saved := x.regs } })) ∧
      (∀ r e, x.step = some r → r.ended = some e → r.released = false → a.cancelled = false → a.inForce = true →
        x.held = none → Upset.stepFiring q ∉ s.upsets → (isStreamSeq q = false ∨ a.sweep = false) →
        let es := releaseOrder r.effects
        let s' := s.putSequencer q { x with step := some { r with effects := es, released := true } }
        (∀ t x' b, s.checkStep q es = .ok () → s'.releaseAll q x.cc es = (t, [], b) → t.sequencer q = some x' →
          exec (.stepCommit q) s = .next ((t.putSequencer q (x'.finishStep e)).afterStep q e)) ∧
        (∀ f w, s.checkStep q es = .error (f, w) → exec (.stepCommit q) s =
          .next (takeStepException (s.putSequencer q { x with step := some { r with effects := es, word := w } }) q f))) ∧
      (x.running = true → x.step = none → x.held = none → a.inForce = true →
        (x.wait = .quiet → s.quietFor q a = true →
          exec (.waitSatisfied q) s = .next (s.putSequencer q { x with wait := .none })) ∧
        (∀ engine v, x.wait = .sequence engine v →
          let k := s.chain (chainIdOf a (seqTile a q) engine)
          (k.seq - v).toNat < 2 ^ 31 → v.toNat ∉ k.eyelets →
          exec (.waitSatisfied q) s = .next (s.putSequencer q { x with wait := .none })) ∧
        (∀ va g l t w x', x.wait = .eyelet va g → s.reach a .wait va.toNat = .ok l →
          (s.cacheLeaf a.entry.asid va.toNat l).readEyelet none l.pa = (t, some w) → w.flags < 2 →
          (BitVec.ofNat 32 w.generation - g).toNat < 2 ^ 31 → (t.observeAll a).sequencer q = some x' →
          exec (.waitSatisfied q) s = .next ((t.observeAll a).putSequencer q { x' with wait := .none })))) ∧
    (s.activation c = some a →
      (∀ l t k, a.load = some l → l.phase = .loading → (a.phase = .running ∨ a.phase = .finishing) → l.discard = false →
        s.loadFor a l.image = (t, .ok k) →
        exec (.cfgLoad c) s = .next (((t.meetNests a (k.nests.map (·.2.2))).install a l.image k).mapActivation c fun b =>
          { b with load := some { l with phase := .loaded, config := k } })) ∧
      (∀ l, a.load = some l → a.sweep = true → l.phase = .loaded → (a.phase = .running ∨ a.phase = .finishing) →
        s.givesWay a = false → s.isStill a = true → s.stepAdds a = false → (∀ e ∈ a.elements, (s.element e).block = none) →
        let met := s.meetNests a (l.config.nests.map (·.2.2))
        exec (.commitSweep c) s = .next (met.sweepTo a l) ∧
        ∀ b, (met.sweepTo a l).activation a.colour = some b → b.colour = a.colour →
          (∃ p, b.config = { l.config with program := p }) ∧ b.image = l.image ∧ b.load = none ∧ b.sweep = false) ∧
      (∀ r rest, a.runs = r :: rest → r.needs = false → s.mayStart a = true →
        let want := min (r.remaining.getD (a.extent - a.isc)) (a.extent - a.isc)
        let k := min want (s.oldest a + 64 - a.isc)
        (k ≠ 0 ∨ want = 0) →
        ∃ (t : State) (a' : Activation), exec (.runStartTokens c) s = .next (t.putActivation a') ∧ a'.isc = a.isc + k ∧
          t = s.emit (.tileMem a.anchor r.mport) ((List.range k).map fun i => startToken a r.chan r.ctx (a.isc + i)) ∧
          (k < want → ∃ r', a'.runs = r' :: rest) ∧ (want = k → a'.runs = rest))) ∧
    (∀ tile mport i st ws t, portStream (s.tile tile) true mport = some i → (s.tile tile).streams[i]? = some st →
      s.activation st.colour.toNat = some a → st.held = none → s.mayStart a = true →
      (∀ k ∈ (s.tile tile).streams.take i, ¬(k.isPush = true ∧ k.ag = st.ag)) →
      let n := min 64 (st.nest.words - st.next)
      st.stale = false → s.readNest a tile st st.next n = (t, .ok ws) →
      let t' := t.emit (.tileMem tile mport) [{ kind := .data, vector := decide (8 < n), chan := st.chan, ctx := st.ctx,
                                                colour := st.colour, iter := st.iter, data := vecOfWords ws }]
      exec (.pushStream tile mport) s = .next (t'.putTile tile { t'.tile tile with
        streams := if st.nest.words ≤ st.next + n then (t'.tile tile).streams.eraseIdx i
          else (t'.tile tile).streams.set i { st with next := st.next + n } })) ∧
    (∀ tile mport i st k rest, portStream (s.tile tile) false mport = some i →
      headToken ((s.tile tile).fifos.getD mport []) = some (k, rest) → (s.tile tile).streams[i]? = some st →
      s.activation st.colour.toNat = some a → st.held = none → s.mayStart a = true →
      let x := s.tile tile
      (k.chan ≠ st.chan → exec (.acceptStream tile mport) s =
        .next ((s.putTile tile { x with fifos := x.fifos.put mport rest }).report (s.streamSite a tile st)
          { code := 0x18 })) ∧
      (∀ t m half, k.chan = st.chan → k.colour = st.colour → k.kind = .data →
        st.stale = false → s.acceptWords a tile st st.next st.half ((List.range (if k.vector then 64 else 8)).map (vecWord k.data)) =
          (t, m, half, none) → m < st.nest.words →
        let u := if st.nest.adds then t.handBits tile mport else t
        exec (.acceptStream tile mport) s = .next (u.putTile tile { u.tile tile with
          fifos := (u.tile tile).fifos.put mport rest,
          streams := (u.tile tile).streams.set i { st with next := m, half := half } })))

/-! ## The events of the engines -/

/-- A command starts with the parameter block it reads, or stops its chain where a copy of a redundant pair names an eyelet or an
activation (26 R415), its rows, chunks and blocks are done one by one, it completes once what it owes its eyelet has been added, and
the stack commands, spills and returns move the entries of their stack (14 R228, R230; 15 R244; 16 R258 to R275). SCANT writes the
prefix sums of its columns, each value formed from the one before it (R267), in one event (log 48); the epilogue engine writes a row
of f32, bf16 or i8 output as R273 forms it, an i8 row with its scale. The blocks of the ring and of the spill area, and which entries count in which footprint, are the
model's choices (log 23). -/
def Obligations.EngineEventsOccur : Prop :=
  ∀ (s t : State) (c : ChainId) (place : Nat) (a : Activation) (k : Command),
    (∀ x bs k', s.chains.find? (fun y => y.id = c) = some x → x.nextCommand = some k → s.activation k.colour = some a →
      x.stopped = false → s.mayStart a = true → s.switching a = false → c.engine ≠ 5 → s.tileReady c.tile = true →
      (a.isPair = false ∨ (k.record.eyelet = 0 ∧ k.record.activation = 0) →
        s.engineRead a c.engine k.record.parameter.toNat 64 = (t, .ok bs) →
        ∀ t', startCommand t a c.tile { k with block := BitVec.ofNat 512 (natOfBytes bs) } = (t', .ok k') →
          exec (.engineCommandStart c) s = .next (t'.setCommand c { k' with phase := .running })) ∧
      (a.isPair = true → k.record.eyelet ≠ 0 → exec (.engineCommandStart c) s =
        .next (s.stopChain c k.place { code := 0x23, flags := 16, address := k.record.eyelet, position := 16 })) ∧
      (a.isPair = true → k.record.eyelet = 0 → k.record.activation ≠ 0 → exec (.engineCommandStart c) s =
        .next (s.stopChain c k.place { code := 0x23, address := k.record.activation, position := 64 }))) ∧
    (∀ x, s.chains.find? (fun y => y.id = c) = some x → x.command place = some k → s.activation k.colour = some a →
      x.stopped = false → (if c.engine = 5 then a.mayServe else s.mayStart a) = true →
      (k.phase = .moved → exec (.engineCommandComplete c place) s = .next ((s.setCommand c { k with
        phase := .adding, owed := k.owed + (if c.engine = 5 then 0 else k.eyeletBytes) }).issueOwed c place)) ∧
      (k.phase = .adding → k.owed = 0 → s.adding c place = false →
        s.pushWaits a k.record.activation.toNat k.at_ = false → exec (.engineCommandComplete c place) s = .next (s.finishCommand a c k))) ∧
    (Works s c place a k →
      let n := k.extentOf 0
      let bytes := n * k.conv.ed
      (k.record.engine = 0 → k.record.fn = 0 →
        let p := k.tuple k.row
        let dst := if k.transposes then (List.range n).map fun i => (k.destAt p i, k.conv.ed) else [(k.destAt p 0, bytes)]
        s.moveRow a c.tile k n (k.insideCount p.1) (k.sourceAt p) dst = (t, .ok ()) →
        exec (.copyRow c place) s = .next (unitDone t c place (k.rowDone k.copyRows bytes))) ∧
      (k.record.engine = 0 → k.record.fn = 1 → ∀ u ib,
        s.sideRead a 0 k.indexScratch ((k.indexList : Int) + 4 * k.row) 4 = (u, .ok ib) →
        let i := natOfBytes ib
        u.moveRow a c.tile k n (if k.bound ≠ 0 ∧ k.bound ≤ i then 0 else n) (k.source + i * k.rowStride true)
          [((k.dest : Int) + k.row * k.rowStride false, bytes)] = (t, .ok ()) →
        exec (.gatherScatterRow c place) s = .next (unitDone t c place (k.rowDone k.rowCount bytes))) ∧
      (k.record.engine = 0 → k.record.fn = 2 → ∀ u ib,
        s.sideRead a 0 k.indexScratch ((k.indexList : Int) + 4 * k.row) 4 = (u, .ok ib) →
        let i := natOfBytes ib
        (k.bound ≠ 0 → k.bound ≤ i →
          exec (.gatherScatterRow c place) s = .next (unitDone u c place (k.rowDone k.rowCount 0))) ∧
        ((k.bound = 0 ∨ i < k.bound) → u.moveRow a c.tile k n n ((k.source : Int) + k.row * k.rowStride true)
            [((k.dest : Int) + i * k.rowStride false, bytes)] = (t, .ok ()) →
          exec (.gatherScatterRow c place) s = .next (unitDone t c place (k.rowDone k.rowCount bytes)))) ∧
      (k.record.engine = 1 → ∀ k', clickStep s a k = (t, .ok k') →
        exec (.clickChunk c place) s = .next (unitDone t c place k')) ∧
      (k.record.engine = 2 → k.record.fn = 0 → k.isSt32 = false → ∀ el, k.tableElement a = some el →
        (∀ i, i < k.field 8 4 → s.scratchGood a (k.field 4 4 + k.field 0x10 4 * i) (k.field 0x0C 4) = true) →
        let r := s.queueTable c el k (.build (tableRows 16 (buildColumns s a k)) k.block none)
        exec (.tableBuild c place) s = .next (unitDone r.1 c place r.2)) ∧
      (k.record.engine = 2 → k.record.fn = 0 → k.isSt32 = true → 0 < k.field 0x0C 4 → ∀ el, k.tableElement a = some el →
        let group (i : Nat) : Nat := k.field 4 4 + k.field 0x10 4 * i
        let scale (i : Nat) : Nat := s.scratchNat a (group i + 132) 4
        let g := k.field 0x20 4
        (∀ i, i < k.field 0x0C 4 → s.scratchGood a (group i) 136 = true) →
        (g ≠ 0xFFFFFFFF → s.scratchGood a g 4 = true) →
        ((∀ i, i < k.field 0x0C 4 → scale i = scale 0) → isFinite32 (scale 0) = true →
          let word := if g = 0xFFFFFFFF then none else some (g, BitVec.ofNat 32 (superscaleG (scale 0)))
          let r := s.queueTable c el k (.build (tableRows 32 (buildColumns s a k)) k.block word)
          exec (.tableBuild c place) s = .next (unitDone r.1 c place r.2)) ∧
        ((isFinite32 (scale 0) = false ∨ ∃ i, i < k.field 0x0C 4 ∧ scale i ≠ scale 0) →
          exec (.tableBuild c place) s = .next (s.stopChain c place (k.tableFault a 0x53)))) ∧
      (k.record.engine = 2 → k.record.fn = 1 → ∀ el, k.tableElement a = some el →
        let cols := k.field 8 4
        let count := if k.field 0 4 < 2 then cols else 256 * cols
        let size := if k.field 0 4 = 0 then 1 else 4
        s.scratchGood a (k.field 4 4) (count * size) = true →
        let r := s.queueTable c el k (.patch (k.field 0 4 % 2 = 1) (2 ≤ k.field 0 4) (k.record.auxiliary.toNat % 256) cols
          ((List.range count).map fun i => signedOf (8 * size) (s.scratchNat a (k.field 4 4 + size * i) size)))
        exec (.tablePatch c place) s = .next (unitDone r.1 c place r.2)) ∧
      (k.record.engine = 2 → k.record.fn = 2 → s.scratchGood a (k.field 4 4) (scanBytes k) = true →
        s.scratchGood a (k.field 8 4) (scanBytes k) = true →
        let ctl := k.field 0 4
        let size := scanSize k
        let rows := k.field 0x0C 4
        let cols := k.field 0x10 4
        let plus (x y : Nat) : Nat := if ctl % 4 = 2 then (addF32 x y).1 else (x + y) % 2 ^ (8 * size)
        let sums (exclusive : Bool) (inp out : Nat → Nat) : Prop :=
          if exclusive then
            (0 < rows → out 0 = 0) ∧ (1 < rows → out 1 = inp 0) ∧ ∀ j, j + 2 < rows → out (j + 2) = plus (out (j + 1)) (inp (j + 1))
          else (0 < rows → out 0 = inp 0) ∧ ∀ j, j + 1 < rows → out (j + 1) = plus (out j) (inp (j + 1))
        ∃ bs events, exec (.scanPass c place) s = .next (unitDone
          ((s.scratchWrite a (k.field 8 4) bs).raiseEvents k.colour c.tile events) c place
          { k with row := rows, phase := .moved, owed := if k.eyeletBytes = 0 then k.owed + bs.length else k.owed }) ∧
          bs.length = rows * cols * size ∧ (ctl % 4 ≠ 2 → events = 0) ∧
          ∀ n, n < cols → ∃ first last : Nat → Nat,
            sums (ctl / 4 % 2 = 1) (fun j => s.scratchNat a (k.field 4 4 + (j * cols + n) * size) size) first ∧
            (if ctl / 8 % 2 = 1 then sums (ctl / 16 % 2 = 1) first last else last = first) ∧
            ∀ j, j < rows → natOfBytes ((bs.drop ((j * cols + n) * size)).take size) = last j % 2 ^ (8 * size)) ∧
      (k.record.engine = 3 → k.blocks ≤ k.row →
        exec (.expandBlock c place) s = .next (unitDone s c place { k with phase := .moved })) ∧
      (k.record.engine = 3 → k.row < k.blocks → ∀ u v eb bs,
        s.engineRead a 3 (k.entryVa k.row) 8 = (u, .ok eb) →
        let b := k.blockOf (natOfBytes eb)
        b.2 ≠ 0 → u.engineRead a 3 b.1 b.2 = (v, .ok bs) → natOfBytes eb % 4 = 0 → parsedSize bs = some b.2 →
        crc32c (bs.take (b.2 - 4)) = natOfBytes (bs.drop (b.2 - 4)) →
        let done (t : State) : State := unitDone (t.raiseEvents k.colour c.tile (expandRows bs).2.toNat) c place
          (k.rowDone k.blocks 65536)
        (k.stallVa = 0 → v.deliverRows a c.tile k k.row (expandRows bs).1 = (t, .ok ()) →
          exec (.expandBlock c place) s = .next (done t)) ∧
        (∀ w x y ps old, k.stallVa ≠ 0 → v.engineReach a 3 .atomic k.stallVa 8 = (w, .ok ps) →
          w.deliverRows a c.tile k k.row (expandRows bs).1 = (x, .ok ()) → x.loadPieces a k.stallVa ps = (y, .ok old) →
          let rank := (bs.getD 0 0).toNat
          let cycles := if k.streams = true ∨ rank = 0xFF then 0 else 64 * rank - 256
          y.storePieces a k.stallVa (leBytes 8 ((natOfBytes old + cycles) % 2 ^ 64)) ps = (t, .ok ()) →
          exec (.expandBlock c place) s = .next (done t))) ∧
      (k.record.engine = 4 →
        (k.columnScales = true → s.scratchGood a (k.field 0x10 4) (4 * k.epiCols) = true) →
        (k.rowScales = true → s.scratchGood a (k.field 0x14 4 + 4 * k.row) 4 = true) →
        let size := if k.field 0 4 % 4 = 1 then 8 else 4
        let at_ := k.field 4 4 + k.row * k.epiCols * size
        let bank := (s.tile c.tile).bank
        let times (x y : Nat) : Nat := (sumProducts fmtF32 .rne [(false, x, y)] []).1
        let input (n : Nat) : Nat :=
          let raw := bank.readNat (at_ + n * size) size
          if k.field 0 4 % 4 = 2 then raw else (intToFloat fmtF32 .rne (signedOf (8 * size) raw)).1
        let scaled (n : Nat) : Nat :=
          let x := if k.columnScales then times (input n) (s.scratchNat a (k.field 0x10 4 + 4 * n) 4) else input n
          if k.rowScales then times x (s.scratchNat a (k.field 0x14 4 + 4 * k.row) 4) else x
        let gelu (y : Nat) : Nat :=
          let b := (sumProducts fmtF32 .rne [(false, 0x3D372713, times (times y y) y)] [(false, y)]).1
          (halfProduct y (addF32 0x3F800000 (specialFn 4 (times 0x3F4C422A b)).1).1).1
        let out (n : Nat) : Nat :=
          let y := scaled n
          if slice (k.field 0 4) 3 2 = 1 then (if !(fmtF32.value y).isNan && (fmtF32.value y).isNeg then 0 else y)
          else if slice (k.field 0 4) 3 2 = 2 then gelu y else y
        let dst := k.field 0x18 4 + k.row * k.field 0x20 4
        let writes (es : Nat) (put : Nat → List Byte) (scaled : State → State) : Prop :=
          s.scratchGood a dst (k.epiCols * es) = true → ∃ events, exec (.epilogueRow c place) s =
            let u := (scaled (s.scratchWrite a dst ((List.range k.epiCols).flatMap put))).bankEvents c.tile events
            let x := u.tile c.tile
            let cleared := u.putTile c.tile { x with bank := x.bank.writeNat at_ (k.epiCols * size) 0 }
            .next (unitDone (if k.field 0 4 / 256 % 2 = 1 then cleared else u) c place
              (k.rowDone k.epiRows (k.epiCols * es)))
        (k.epiOut = 0 → writes 4 (fun n => leBytes 4 (out n)) id) ∧
        (k.epiOut = 1 → writes 2 (fun n => leBytes 2 (convertFloat fmtF32 fmtBf16 .rne (out n)).1) id) ∧
        (k.epiOut = 2 → ∀ top,
          let number (n : Nat) : Bool := !(fmtF32.value (out n)).isNan
          (∀ n, n < k.epiCols → number n = true → out n % 2 ^ 31 ≤ top) →
          (top = 0 ∨ ∃ n, n < k.epiCols ∧ number n = true ∧ out n % 2 ^ 31 = top) →
          let scaleAt := k.field 0x24 4 + 4 * k.row
          s.scratchGood a scaleAt 4 = true →
          writes 1 (fun n => leBytes 1 (quantised top (out n)).1) fun u => u.scratchWriteNat a scaleAt 4 (rowScale top).1))) ∧
    (s.working c place = some (a, k) → servedBefore (s.chain c) place = true → c.engine = 5 → k.record.engine = 5 →
      (k.record.fn = 0 → s.switching a = false →
        ringHasRoom (s.stackDesc a.entry.asid) (s.stack a.entry.asid) k.record.auxiliary.toNat = true →
        ∀ k', pushStack s a k = (t, .ok k') → a.cancelled = false →
        exec (.stackCommand c place) s = .next (unitDone t c place k') ∧
        ∃ blocks, t.stack a.entry.asid = s.stack a.entry.asid ++ [{ length := k.record.auxiliary.toNat, ring := blocks }]) ∧
      (k.record.fn = 1 → ∀ e, (s.stack a.entry.asid).getLast? = some e →
        (e.state = .spilled → exec (.stackCommand c place) s = .next
          (s.putStack a.entry.asid ((s.stack a.entry.asid).dropLast ++ [{ e with state := .returning }]))) ∧
        ((e.state = .resident ∨ e.state = .spilling) → s.switching a = false → a.cancelled = false →
          ∀ k', popStack s a k e = (t, .ok k') →
          exec (.stackCommand c place) s = .next (unitDone t c place k') ∧
          t.stack a.entry.asid = (s.stack a.entry.asid).dropLast))) ∧
    (∀ asid i e,
      let d := s.stackDesc asid
      let l := s.stack asid
      (d.lsize ≠ 0 → d.high < ringBytes l → (∀ f ∈ l, f.state ≠ .spilling) → spillCandidate l = some i → l[i]? = some e →
        exec (.spill asid) s = .next (s.putStack asid (l.set i { e with state := .spilling }))) ∧
      (∀ bs u, l.findIdx? (fun f => f.state = .spilling) = some i → l[i]? = some e → s.tierReady d.lbase = true →
        let blocks := freeBlocks (·.spill) l d.lsize e.length
        blocks.length = (e.length + 255) / 256 → s.areaRead d.hbase e.ring e.length = (t, .ok bs) →
        t.areaMove asid d.lbase blocks bs = (u, none) →
        let l' := l.set i { e with state := .spilled, ring := [], spill := blocks }
        (ringBytes l' ≤ d.low → exec (.spillCompletion asid) s = .next (u.putStack asid l')) ∧
        ∀ j f, d.low < ringBytes l' → spillCandidate l' = some j → l'[j]? = some f →
          exec (.spillCompletion asid) s = .next (u.putStack asid (l'.set j { f with state := .spilling }))) ∧
      (l[i]? = some e → e.state = .spilled → aboveEntry l i < d.near → s.ringPeak asid + occupied e.length ≤ d.hsize →
        (∀ j, i < j → ∀ f, l[j]? = some f → f.state ≠ .spilled) →
        exec (.stackReturn asid) s = .next (s.putStack asid (l.set i { e with state := .returning }))) ∧
      (∀ bs u, l[i]? = some e → e.state = .returning → (∀ j, i < j → ∀ f, l[j]? = some f → f.state ≠ .returning) →
        let blocks := freeBlocks (·.ring) l d.hsize e.length
        blocks.length = (e.length + 255) / 256 → s.areaRead d.lbase e.spill e.length = (t, .ok bs) →
        t.areaMove asid d.hbase blocks bs = (u, none) → exec (.stackReturnCompletion asid) s =
          .next (u.putStack asid (l.set i { e with state := .resident, ring := blocks, spill := [] }))))

/-! ## The algorithms of the engines -/

/-- The runs of a click cover the values in order, and in each every value is within half the spread of v, which lies between
the least and the greatest value; the spread is at most τ, so that at τ = 0 each run repeats one value (03 R33, R34). -/
def Obligations.ClickRunsStayWithinTolerance : Prop :=
  ∀ (tau : Nat) (xs : List Int),
    (clickRuns tau xs).flatMap (fun r => (xs.drop r.start).take r.length) = xs ∧
    ∀ r ∈ clickRuns tau xs, r.start + r.length ≤ xs.length ∧ 0 < r.length ∧
      ∃ lo hi : Int, hi - lo ≤ tau ∧ lo ≤ r.v ∧ r.v ≤ hi ∧
        lo ∈ (xs.drop r.start).take r.length ∧ hi ∈ (xs.drop r.start).take r.length ∧
        ∀ x ∈ (xs.drop r.start).take r.length, lo ≤ x ∧ x ≤ hi ∧ |x - r.v| ≤ (hi - lo + 1) / 2 ∧
          |x - r.v| ≤ ((tau : Int) + 1) / 2 ∧ (tau = 0 → x = r.v) ∧
          ((∀ y ∈ xs, -128 ≤ y ∧ y ≤ 127) → -128 ≤ r.v ∧ r.v ≤ 127)

/-! ## The events of the schedulers -/

/-- Records are fetched, placed, stolen, aged and reserved, activations pre-empted, resumed, ended and compared, and colours and
permits go round, each where its condition holds (18 R285 to R301; 19 R306 to R317; 21 R341 to R343; 23 R365). That the lowest free
colour is taken (log 24), that companions resume together (log 25), the order and the charge of requests for permits (logs 44, 65),
and what waits for what at an activation's end (log 54) are the model's choices. -/
def Obligations.SchedulerEventsOccur : Prop :=
  ∀ (s : State) (die id c : Nat) (e : Entry) (a : Activation),
    (∀ asid t bs, s.chainEnabled asid = true → s.chainUsed asid ≠ 0 →
      let u := s.meetDesc asid
      let h := u.chainHead asid
      let va := u.slotVa asid h
      u.chainEnabled asid = true → u.chainUsed asid ≠ 0 → u.readBytes asid .read false va 64 = (t, .ok bs) →
      t.chainEnabled asid = true →
      let t' := (t.putDesc asid 0x0C 4 ((h + 1) % 2 ^ 32)).mapSched fun k => { k with
        notes := k.notes.filter fun n => !(n.asid = asid && n.slot = h) }
      let note := u.sched.notes.find? fun n => n.asid = asid && n.slot = h
      exec (.recordFetch asid) s = .next (t'.acceptRecord asid (u.descField asid 0x14 1 % 4) va (BitVec.ofNat 512 (natOfBytes bs))
        ((note.map (·.stamp)).getD 0) ((note.map (·.parents)).getD []))) ∧
    (die < 4 → s.queuesCurrent = true → ∀ tried,
      (∀ p k, s.scanDie die = (tried, some (e, .place p none)) →
        let t := ((s.noteTried tried).takeTurn die e).dropReservations e
        freshColours t.usedColours 1 = some [k] →
        exec (.placement die) s = .next (t.placeAll [newActivation t die e p k] noWays)) ∧
      (∀ ps t, s.scanDie die = (tried, some (e, .gang ps)) → (s.noteTried tried).placeGang die ps = some t →
        exec (.gangPlacement die e.id) s = .next t) ∧
      (∀ p t, s.scanDie die = (tried, none) → (askedDies die).findSome? (s.stealable die) = some (e, .place p none) →
        s.placeRecord die e p none = some t → exec (.steal die) s = .next t)) ∧
    (s.sched.entries.find? (fun f => f.id = id) = some e →
      (e.pending = false → entryLevel e < 7 → e.gained < (s.cycle - e.since) / 2 ^ 20 →
        exec (.queueAging id) s = .next (s.mapEntry id fun f => { f with gained := f.gained + 1 })) ∧
      (∀ t, e.starved = false → s.levelOf e = 7 → e.failedAt = some t → t + 65536 ≤ s.cycle →
        exec (.placementStarvation id) s = .next (s.mapEntry id fun f => { f with starved := true })) ∧
      (∀ t, s.eligible e = true → e.failedAt = some t → t + 4096 ≤ s.cycle → s.verdict e.die e = .fails →
        e.claim = none → e.resumes = none →
        (∀ f ∈ s.sched.entries, f.id ≠ e.id → f.die = e.die → f.reserved = none) → s.chooseVictim e = some a →
        exec (.preemptionTimeout id) s =
          .next (((s.companions a).foldl (fun s b => s.putActivation { b with victim := some false }) s).mapEntry id
            fun f => { f with claim := some (a.die, a.x0, a.y0) })) ∧
      (∀ b p t k r, e.pending = true → e.held = false → e.reserved = none → e.edges = [] → isRedundant e.record = false →
        counterOf s (afterKey e) = 1 → e.asid ∉ s.sched.saved → s.blockers e = [] → b ∈ s.activations →
        b.2.phase = .walking → b.2.cancelled = false → b.2.die = e.die → b.2.entry.asid = e.asid →
        afterKey e ∈ counterKeys b.2.entry.asid b.2.entry.record → s.freePlace e.die e [] = some p →
        let n := newActivation s e.die e p 0
        (s.acquire n).configFor n noWays = (t, .ok (k, r)) →
        exec (.forwardReservation id) s =
          .next ((t.install n n.image k).mapEntry id fun f => { f with reserved := some (e.die, p.1, p.2) }))) ∧
    (s.activation c = some a →
      (∀ atTail b, a.victim = some atTail → a.cancelled = false → a.phase = .running → s.paused a = true →
        let t := a.memTiles.foldl (fun s k => (s.tile k).cache.foldl (fun s x => dropSector s k x) s) s
        let n := 2 ^ 21 * (a.width * a.height)
        let part := (saveOffset (t.savedParts a.entry.asid) n, n)
        let u := t.writeSave a.entry.asid part
        u.activation c = some b → b.cancelled = false → b.phase = .running →
        ∃ t' b', exec (.preemptionSave c) s = .next (State.putActivation t' b') ∧ b'.phase = .saved ∧
          b'.resumeAs = .running ∧ b'.frame = some { u.frameOf b with area := part } ∧ b'.seq = b.seq ∧
          b'.isc = b.isc ∧ b'.victim = none ∧ b'.asks.map (·.cls) = [b.permit]) ∧
      (∀ tried at_, s.scanDie a.die = (tried, some (e, .resume at_)) → s.queuesCurrent = true → (∃ m ∈ at_, m.1 = c) →
        let ps := s.placedAgain at_
        exec (.resumption c) s = .next (ps.foldl (fun s m => s.restore (ps.map fun m => m.1.movedTo m.2) m.2 m.1)
          ((s.noteTried tried).takeTurn a.die e))) ∧
      (a.phase = .walked → s.ringFull a.entry.asid = false →
        exec (.activationCompletion c) s = .next ((s.recordCompletion a a.code).leave a)) ∧
      (a.phase = .finishing → a.cancelled = false → a.isPair = false → s.endReached a = true →
        exec (.activationCompletion c) s =
          .next (s.putActivation { a with phase := .walking, walkRecord := 0, walkSector := 0 })) ∧
      (∀ t, a.phase = .walking → a.cancelled = false → s.walkOn a = some t →
        exec (.activationCompletion c) s = .next t) ∧
      (a.phase ≠ .walked → a.cancelled = true → s.pairToStop a = none →
        (s.collects c = true → (a.code = 0x67 ∨ s.combineRetried c = false) →
          exec (.activationCompletion c) s = .next (s.abortCollectives c)) ∧
        ∀ t, s.collects c = false → s.hasStopped a = true → s.endCancelled a = some t →
          exec (.activationCompletion c) s = .next t) ∧
      (∀ b, s.activation a.partner = some b → a.role = .primary → s.endReached a = true → s.endReached b = true →
        (a.digestA = b.digestA → a.digestB = b.digestB → exec (.redundantComparison c) s = .next (((s.putActivation
          { a with phase := .walking, compared := true, walkRecord := 0, walkSector := 0 }).invalidateCaches b).leave b)) ∧
        (a.digestA ≠ b.digestA ∨ a.digestB ≠ b.digestB → exec (.redundantComparison c) s =
          .next (((s.blackBox 0x06 [(12, 2, c), (16, 8, a.digestA.toNat), (24, 8, b.digestA.toNat)]).killByColour c).killByColour
            b.colour)))) ∧
    (∀ k, s.sched.purging.find? (fun p => p.1 = c) = some (c, k) → k + 1048576 ≤ s.cycle → exec (.colourReturn c) s =
      .next (s.mapSched fun m => { m with purging := m.purging.filter fun p => p.1 ≠ c })) ∧
    (∀ k rest, s.nextRequest = some a → a.asks = k :: rest → a.colour = c →
      s.permitTotal a + s.chargeWith a k.cls ≤ s.host.budget → (s.host.throttled = false ∨ k.cls ≤ 1) →
      ∃ b, exec (.permitGrant c) s = .next (s.putActivation b) ∧ b.permit = k.cls ∧ b.asks = rest ∧
        (a.phase ≠ .starting → b.phase = a.phase) ∧ (a.phase = .starting → b.phase = a.resumeAs) ∧ (k.run = false → b.runs = a.runs))

/-! ## What the host does, and the reliability of the package -/

/-- An append is accepted, or refused because the chain is full or disabled; a cancel and the four answers to a held fault take
effect, and an answer to no held fault changes nothing; an invalidation drops the translations it names, has the streams that it
covers patched anew, and reports its end once what it waits for is performed (18 R288, R298; 25 R385, R393, R399). That a chain that
is both disabled and full answers DISABLED (log 46), and that an entry of the translation cache is dropped whole (log 12), are the
model's choices. -/
def Obligations.HostAppendsAnswersAndInvalidates : Prop :=
  ∀ (s : State) (asid q c : Nat) (record : BitVec 512),
    let last (t : State) (r : BitVec 2) : State := t.mapHost fun h => { h with
      lastAppend := h.lastAppend.put asid r, windowStores := h.windowStores.drop asid }
    let writes (t : State) (kind target address : Nat) : Prop :=
      let u := s.invalidate kind address target
      OnlyHost u.repatchAll t ∧ (u.streamsStale = false → u.repatchAll = u) ∧
      u.memory.tlb = s.memory.tlb.filter (fun k => !s.invalidates kind address target k) ∧ u.memory.mem = s.memory.mem ∧
      u.memory.llc = s.memory.llc ∧ u.host = s.host ∧
      ((∀ i ∈ s.additionsUnder kind address target, t.memory.additions.find i = none) → (t.tlbinvhValue q).getLsbD 61 = false)
    (asid < 256 →
      exec (.hostAppend asid record) s = .next (if s.chainEnabled asid = false then last s 2
        else if s.chainFull asid then last s 1 else last (s.appendRecord asid record []) 0)) ∧
    (∀ level job id, asid < 256 → 1 ≤ level → level ≤ 4 → job < 65536 → id < 65536 →
      exec (.hostCancel asid level job id) s = .next (s.cancelId asid job level id 0x66) ∧
      (counterOf s (asid, if level = 4 then id else job, level, id) = 0 → s.cancelId asid job level id 0x66 = s)) ∧
    (s.respondTo q asid c = none →
      exec (.frespRetry q asid c) s = .next s ∧ exec (.frespSkip q asid c) s = .next s ∧
      exec (.frespKill q asid c) s = .next s ∧ exec (.frespContinue q asid c) s = .next s) ∧
    (∀ a, s.respondTo q asid c = some a →
      exec (.frespRetry q asid c) s = .next (s.inFrame a fun s => s.answerUnits a false false) ∧
      exec (.frespContinue q asid c) s = .next (s.inFrame a fun s => s.answerUnits a false true) ∧
      (s.skipKills a = false → exec (.frespSkip q asid c) s = .next (s.inFrame a fun s => s.answerUnits a true false)) ∧
      ∃ a', exec (.frespKill q asid c) s = .next (s.putActivation a') ∧ a'.cancelled = true ∧ a'.restarts = false) ∧
    (∀ address, asid < 256 → (q = 0 ∨ s.vfOf asid = q) →
      (∃ t, exec (.tlbinvhPage q asid address) s = .next t ∧ writes t 0 asid address) ∧
      ∃ t, exec (.tlbinvhAsid q asid) s = .next t ∧ writes t 1 asid 0) ∧
    (∀ vf address, q = 0 → vf ≤ 128 →
      (∃ t, exec (.tlbinvhIpa q vf address) s = .next t ∧ writes t 2 vf address) ∧
      ∃ t, exec (.tlbinvhVf q vf) s = .next t ∧ writes t 3 vf 0)

/-- Registers of the host die take writes of their width from the function that owns them and keep them from every other;
LLCOP finishes with GO clear, and its line is gone where it invalidates; reads of BAR0, mailboxes, overflow counters and the
accesses of the host cores answer (24 R373, R374; 25 R384, R402; 26 R407, R408, R422 to R427). The readings of monitors are free
values (log 7), and so are the images whose digests a report begins with (log 18); who clears OVLCNT and FQOVF, and that a VF reads
of its pages what function 0 reads of them, are the model's choices (log 53). -/
def Obligations.HostRegistersAndAccesses : Prop :=
  ∀ (s : State) (v : Nat) (value : DWord),
    let reads (v offset size : Nat) (value : DWord) : Prop :=
      exec (.monitorRead v offset size) s = .next (s.mapHost fun h => { h with hostRead := value })
    (v ≤ 128 → ∀ offset size, ∃ t, exec (.registerWrite v offset size value) s = .next t) ∧
    exec (.registerWrite 0 0x00 8 value) s = .next (s.mapHost fun h => { h with schdbase := value }) ∧
    exec (.registerWrite 0 0x08 8 value) s = .next (s.mapHost fun h => { h with stkbase := value }) ∧
    (∀ q, q ≤ 128 → exec (.registerWrite 0 (0x400000 + 0x10000 * q) 8 value) s = .next (s.mapHost fun h => { h with
      queues := h.queues.put q { h.queues.getD q {} with base := value &&& 0xFFFFFFFFFFC0 } })) ∧
    (v ≠ 0 → v ≤ 128 → exec (.registerWrite v 0 8 value) s = .next s) ∧
    (value.getLsbD 63 = true → (v ≠ 0 ∨ slice value.toNat 61 48 ≠ 0 ∨ slice value.toNat 4 0 ≠ 0) →
      exec (.llcinjArm v value) s = .next s) ∧
    (value.getLsbD 63 = true → slice value.toNat 61 48 = 0 → slice value.toNat 4 0 = 0 →
      exec (.llcinjArm 0 value) s = .next (s.mapHost fun h => { h with llcinj := value })) ∧
    (value.getLsbD 63 = true → slice value.toNat 49 48 = 1 →
      ∃ t, exec (.llcopClean 0 value) s = .next t ∧ t.host.llcop.getLsbD 63 = false) ∧
    (value.getLsbD 63 = true → slice value.toNat 49 48 = 2 →
      ∃ t, exec (.llcopCleanInvalidate 0 value) s = .next t ∧ t.host.llcop.getLsbD 63 = false ∧
        (llcopGood value = true → s.upsets = [] → s.host.llcinj.getLsbD 63 = false → s.halted = false →
          findLine t.memory.llc (slice value.toNat 47 8) = none)) ∧
    (v ≤ 128 → value.getLsbD 0 = true → (s.mailbox v).busy = false →
      exec (.mailboxGo v value) s = .next (s.putMailbox v { s.mailbox v with ctl := 1 })) ∧
    (∀ i, i < 2048 → slice value.toNat 5 0 < 36 → slice value.toNat 13 8 < 36 →
      let old := s.host.hbmer.getD i 0
      let w : Word := value.setWidth 32 &&& 0xBFBF
      ∃ t, exec (.registerWrite 0 (0x5000 + 4 * i) 4 value) s = .next t ∧ OnlyHost s t ∧ t.host.hbmer.getD i 0 = w ∧
        (w.getLsbD 7 = true → w &&& 0xBF ≠ old &&& 0xBF → t.host.flashErasures.getD i 0 &&& 0xBF = w &&& 0xBF) ∧
        (w.getLsbD 15 = true → w &&& 0xBF00 ≠ old &&& 0xBF00 → t.host.flashErasures.getD i 0 &&& 0xBF00 = w &&& 0xBF00)) ∧
    (∀ good, (s.mailbox v).busy = true →
      let body := s.host.measurements ++ leBytes 64 (s.mailbox v).nonce.toNat
      let r := body ++ edSign s.host.deviceKey (sha512 body)
      let n := BitVec.ofNat 32 r.length
      exec (.attestationReportDone v good) s = .next (s.putMailbox v (
        if (s.mailbox v).len.toNat < r.length then { s.mailbox v with ctl := 6, out := n }
        else if good then { s.mailbox v with ctl := 2, out := n, sent := r } else { s.mailbox v with ctl := 6, out := 0 }))) ∧
    (v ≤ 128 → ∀ offset size, ∃ t, exec (.monitorRead v offset size) s = .next t ∧ OnlyHost s t ∧
      (v ≠ 0 → 0x20000 ≤ offset → t.host.hostRead = 0) ∧ (v = 0 → 0x48 ≤ offset → offset < 0x1000 → t.host.hostRead = 0)) ∧
    reads 0 0 8 s.host.schdbase ∧ reads 0 0 4 (BitVec.ofNat 64 (s.host.schdbase.toNat % 2 ^ 32)) ∧
    reads 0 4 4 (BitVec.ofNat 64 (s.host.schdbase.toNat / 2 ^ 32)) ∧ reads 0 0 2 0 ∧ reads 0 0x10 4 (s.host.domid.setWidth 64) ∧
    reads 0 0x10 8 0 ∧ (1 ≤ v → v ≤ 128 → reads v 0 8 (s.host.queues.getD v {}).base) ∧
    (∀ die kind index, die < 4 → index < (if kind = 0 then 64 else if kind = 1 then 32 else if kind = 2 then 16 else 0) →
      let key := 1024 * die + 256 * kind + index
      ∃ t, exec (.monitorRead 0 (0xC000 + 4 * (256 * die + 64 * kind + index)) 4) s = .next t ∧
        t.host.hostRead.toNat = (Config.monitor die kind index (s.host.monitorRead.getD key 0) s.tick).toNat % 2 ^ 32 ∧
        t.host.monitorRead = if kind = 1 then s.host.monitorRead.put key s.tick else s.host.monitorRead) ∧
    (∀ q, q ≤ 128 → exec (.fqovfClear 0 q) s = .next (s.mapHost fun h => { h with
      queues := h.queues.put q { h.queues.getD q {} with ovf := 0 } }) ∧
      (v ≠ 0 → exec (.fqovfClear v q) s = .next s)) ∧
    (∀ asid, asid < 256 → (v = 0 ∨ v = s.vfOf asid) →
      exec (.ovlcntClear v asid) s = .next (s.mapHost fun h => { h with ovlcnt := h.ovlcnt.drop asid })) ∧
    (∀ address size, (size = 1 ∨ size = 2 ∨ size = 4 ∨ size = 8) → address % size = 0 →
      ((isHbm address || isCxl address) = false →
        ∃ t, exec (.hostMemoryAccess false address size value) s = .next t ∧ t.host.hostFault = true ∧ OnlyHost s t) ∧
      ((isHbm address || isCxl address) = true → s.tierReady address = true → s.retired address = false →
        (∀ t bs, s.llcRead address size = (t, some bs) → exec (.hostMemoryAccess false address size value) s =
          .next (t.mapHost fun h => { h with hostFault := false, hostRead := BitVec.ofNat 64 (natOfBytes bs) })) ∧
        ((s.llcWrite 0 0 address (leBytes size value.toNat)).retired address = false →
          exec (.hostMemoryAccess true address size value) s = .next
            ((s.llcWrite 0 0 address (leBytes size value.toNat)).mapHost fun h => { h with hostFault := false }))))

/-- The package throttles while its power is above the budget or a monitor reads 105 °C or more; a supply droop is fatal; a
function that passes its self-test is ready; a function-level reset empties the function's queue; reset loses the state of the
package and ends halted unless all five boot stages pass, which they do not where the first-stage firmware's signature is bad or
the firmware is older than its counter, and repairs nothing before the last (26 R408, R417 to R423). That reset leaves the bytes and
presence bits of memory is the model's choice (log 6); the readings of monitors and the outcomes of the boot stages are free values
(logs 7, 18). -/
def Obligations.PowerReadinessAndReset : Prop :=
  ∀ (s : State),
    (∀ mw, ∃ t, exec (.powerSample mw) s = .next t ∧
      (t.host.throttled = true ↔ s.host.budget < mw ∨
        ∃ d i, d < 4 ∧ i < 64 ∧ 1680 ≤ s.temperature d i) ∧
      ((∃ d i, d < 4 ∧ i < 64 ∧ 1840 ≤ s.temperature d i) → t.halted = true ∧ t.host.frozen = true)) ∧
    (∀ die index mv, die < 4 → index < 32 → mv < 500 → ∃ t, exec (.supplyDroopFatal die index mv) s = .next t ∧
      t.halted = true ∧ t.host.frozen = true ∧ OnlyHost { s with halted := true } t) ∧
    (∀ die y x, die < 4 → y < 28 → x < 28 → tileId die x y ∉ s.host.withdrawn →
      s.linkQuarantined (tileId die x y) = false → ∃ t,
      exec (.selfTestPass (.tile die y x)) s = .next t ∧ t.tileReady (tileId die x y) = true ∧ OnlyHost s t) ∧
    (∀ f b, rdysBit f = some b → ∃ t, exec (.selfTestPass f) s = .next t ∧ t.host.rdys.getLsbD b = true ∧
      (∀ k, k ≠ b → t.host.rdys.getLsbD k = s.host.rdys.getLsbD k) ∧ OnlyHost s t) ∧
    (∀ v, 1 ≤ v → v ≤ 128 → ∃ t, exec (.functionLevelReset v) s = .next t ∧
      (t.host.queues.getD v {}).head = (t.host.queues.getD v {}).tail) ∧
    ∃ t, exec .reset s = .next t ∧ t.memory = { mem := s.memory.mem, full := s.memory.full } ∧ t.elements = [] ∧
      t.tiles = [] ∧ t.circuits = [] ∧ t.activations = [] ∧ t.chains = [] ∧ t.sched = State.reset.sched ∧
      t.host.rdys = 0 ∧ t.host.rdyt = [] ∧ t.host.rft = [] ∧ t.host.withdrawn = [] ∧ t.host.throttled = false ∧
      (t.halted = true ↔ bootPassed s.tick < 5) ∧ (t.host.frozen = true ↔ 2 ≤ bootPassed s.tick ∧ bootPassed s.tick < 5) ∧
      (edVerifies Config.romKey (Config.firstStageSignature s.tick) (sha512 (Config.firstStage s.tick)) = false → t.halted = true) ∧
      (Config.firmwareVersion s.tick < Config.rollbackCounter s.tick → t.halted = true) ∧
      (bootPassed s.tick < 5 → t.host.hbmer = s.host.flashErasures) ∧
      (4 ≤ bootPassed s.tick → t.host.measurements = (Config.laterImages s.tick).flatMap sha512)

/-- The package right after reset: nothing runs, no chain, counter or translation is there, every memory is in its canonical
form, no function is ready, and CLKTH of a tile that nothing has written reads 64 (16 R264; 26 R419, R420). CSIRLOG reads 4, which
is the model's choice within the range of 23 R369 (log 5), as are the empty LLC (log 11) and the empty translation cache (log 12). -/
def Obligations.ResetState : Prop :=
  let s := State.reset
  s.memoryGood ∧ s.halted = false ∧ s.focus = .none ∧ s.activations = [] ∧ s.chains = [] ∧ s.links = [] ∧
  s.sched.counters = [] ∧ s.sched.entries = [] ∧ s.memory.tlb = [] ∧ s.memory.llc = [] ∧ s.host.rdys = 0 ∧
  s.host.frozen = false ∧ s.regValue .csirlog = 4 ∧ s.regValue .rftcnt = 0 ∧ ∀ t, (s.tile t).clkth = 64

/-! ## Between packages -/

/-- A good frame of a link that is up and not stopped is taken, and one of SENDR becomes a message; a bad one of any kind is replayed up to 16 times before the
link goes down, and so is a frame of the package's own that fails at the other end; an old message is counted and gone; another
crosses to the die it is for or leaves by, and is there delivered to its port, buffered for an activation that is pre-empted,
forwarded or lost; the first command of a link region's chain agrees with its peers, acts, takes and sends again the chunks of
its job and collective id, and stops on a disagreement or an abort (02 R13; 12 R191; 23 R355 to R369; 22 R344 to R351). The way over
the bridges (log 1), the state of a replay (log 9), one command of a chain at a time (log 47), the ages within the package and the
messages between link regions (log 54), and which messages wait for which (log 55) are the model's choices. -/
def Obligations.WeltEventsOccur : Prop :=
  ∀ (s : State),
    let opens (link : Nat) (f : WeltFrame) : Prop := link < 24 ∧ s.host.rdys.getLsbD (23 + link) = true ∧
      s.linkStopped link = false ∧ ∀ g n, s.welt.replays.find link = some (g, n) → sameFrame g f = true
    let good (f : WeltFrame) : Prop := f ≠ .own ∧ ∀ m, f = .message m → m.flits ≠ 0 ∧ m.flits ≤ 8
    let took (link : Nat) : State := { s with welt := { s.welt with replays := s.welt.replays.drop link } }
    let isDown (t : State) (link : Nat) : Prop := t.host.rdys.getLsbD (23 + link) = false ∧ t.welt.messages = s.welt.messages
    (∀ link f, opens link f → good f →
      (∀ m, f = .message m → exec (.weltFrameReceive link f true) s = .next { took link with
        welt := { (took link).welt with messages := s.welt.messages ++ [arrivedMessage s.cycle link m] } }) ∧
      ((∀ m, f ≠ .message m) → exec (.weltFrameReceive link f true) s = .next (took link)) ∧
      let n := ((s.welt.replays.find link).map (·.2)).getD 0
      (n < 16 → exec (.weltFrameReceive link f false) s =
        .next { s with welt := { s.welt with replays := s.welt.replays.put link (f, n + 1) } }) ∧
      (16 ≤ n → ∃ t, exec (.weltFrameReceive link f false) s = .next t ∧ isDown t link)) ∧
    (∀ link, link < 24 → s.host.rdys.getLsbD (23 + link) = true → (∃ f ∈ s.welt.sent, f.link = link) →
      let n := s.welt.resent.getD link 0
      exec (.weltFrameReceive link .own true) s = .next { s with welt := { s.welt with resent := s.welt.resent.drop link } } ∧
      (n < 16 → exec (.weltFrameReceive link .own false) s =
        .next { s with welt := { s.welt with resent := s.welt.resent.put link (n + 1) } }) ∧
      (16 ≤ n → ∃ t, exec (.weltFrameReceive link .own false) s = .next t ∧ isDown t link)) ∧
    (∀ i m, s.welt.messages[i]? = some m →
      let gone : State := { s with welt := { s.welt with messages := s.welt.messages.eraseIdx i } }
      let age := m.aged + (s.cycle - m.born)
      (m.buffered = false → 524288 < age → exec (.weltMessageAgeDiscard i) s = .next gone.dropMessage) ∧
      (m.buffered = true ∨ age ≤ 524288 → s.waitsFor (s.welt.messages.take i) m = false →
        (m.die ≠ s.wayOf m → exec (.sendrDelivery i) s = .next { s with welt := { s.welt with
          messages := s.welt.messages.set i { m with die := bridgeTo s.tick m.die (s.wayOf m) } } }) ∧
        (m.die = s.wayOf m → destPackage m.dest ≠ s.host.domid.toNat % 1024 →
          exec (.sendrDelivery i) s = .next (gone.forwardMessage m)) ∧
        (m.die = destDie m.dest → destPackage m.dest = s.host.domid.toNat % 1024 →
          (s.activation (destColour m.dest) = none → exec (.sendrDelivery i) s = .next gone.dropMessage) ∧
          ∀ a, s.activation (destColour m.dest) = some a →
            (a.die ≠ destDie m.dest ∨ a.computeTiles[destTile m.dest]? = none →
              exec (.sendrDelivery i) s = .next gone.dropMessage) ∧
            ∀ tile, a.die = destDie m.dest → a.computeTiles[destTile m.dest]? = some tile →
              let n := (s.welt.messages.takeWhile (·.buffered)).length
              (a.phase = .saved → m.buffered = false → s.inboundFlits a.die < 2048 → s.inboundFlits a.die + m.flits ≤ 2048 →
                exec (.sendrDelivery i) s = .next { s with welt := { s.welt with messages :=
                  (gone.welt.messages.take n ++ ({ m with buffered := true } :: gone.welt.messages.drop n)) } }) ∧
              (a.phase ≠ .saved → (m.buffered = true ∨ s.inboundFlits a.die < 2048) →
                let el := tile + destElement m.dest
                let x := s.element el
                let q := x.ports.getD 3 {}
                let q' : Port := { q with remote := q.remote ++ flitsOf m.token, order := q.order ++ [.remote] }
                let handled := ctxEnabled x m.token.ctx.toNat = true ∧ m.token.chan.toNat ≤ hspan x m.token.ctx.toNat
                (¬handled → exec (.sendrDelivery i) s = .next (gone.recordAtElement el m.token 0x44)) ∧
                (handled → q.remote.length + (flitsOf m.token).length ≤ 16 → exec (.sendrDelivery i) s =
                  .next (gone.putElement el { x with ports := x.ports.put 3 q' })))))) ∧
    (∀ die lreg k a, LinkWorks s die lreg k a →
      let key := 6 * die + lreg
      (∀ t, s.collectiveAct key k a = some t → exec (.collectiveStep die lreg .proceed) s = .next t) ∧
      (∀ link mismatch,
        let name : CollectiveName := { lreg := lreg, job := k.job, collective := k.id, link := link, mismatch := mismatch }
        opens link (.abort die name) → a.mayServe = true → exec (.collectiveAbort die name) s = .next (
          if mismatch then (took link).disagree key k [] else (took link).stopCollective key k { code := 0x6A })) ∧
      (k.running = true → a.mayServe = true →
        (∀ link bs, opens link (.region die lreg (.peer link k.job k.id bs)) →
          let same := announcedParameters bs = announcedParameters k.announcement ∧ announcedRank bs < k.n ∧ announcedRank bs ≠ k.rank
          (same → announcedRank bs ∉ k.agreed → exec (.collectiveStep die lreg (.peer link k.job k.id bs)) s =
            .next ((took link).setHead key { k with agreed := announcedRank bs :: k.agreed })) ∧
          (¬same → exec (.collectiveStep die lreg (.peer link k.job k.id bs)) s =
            .next ((took link).disagree key k (announcedPackages bs)))) ∧
        ∀ step slice index source link bs p q t,
          opens link (.region die lreg (.chunk k.job k.id step slice index source link bs p q)) →
          (took link).receiveChunk key k step slice index source link bs (p, q) = some t →
          exec (.collectiveStep die lreg (.chunk k.job k.id step slice index source link bs p q)) s = .next t)) ∧
    ∀ key link k step slice index target c, key < 24 → (s.linkChain key).commands.head? = some k →
      k.kept.find? (fun x => x.step = step && x.slice = slice && x.index = index && x.rank = target) = some c →
      opens link (.region (key / 6) (key % 6) (.again link k.job k.id step slice index target)) →
      exec (.collectiveStep (key / 6) (key % 6) (.again link k.job k.id step slice index target)) s =
        .next ((took link).sendWelt [k.message .chunk target step slice index c.bytes])

/-! ## Whole-machine rules -/

/-- Every step of the machine, of a unit or an event, keeps every memory of the package in its canonical form: device memory, the SRAM
and the accumulator bank of each tile, and those that the scheduler has saved (the model's form of memory; 15 R242, 25 R384). -/
def Obligations.StepsKeepMemoriesCanonical : Prop :=
  ∀ (s t : State), s.memoryGood → step s = .next t → t.memoryGood

/-- Whatever instruction a block executes, if the block goes on behind it then it has staged its effects behind those before, and
nothing but its element, the translation cache and time has changed, and what the walks of its translations do as they read the page
tables, each for an address of device memory that the instruction has staged a request at: no other element, tile, circuit,
activation or chain, no memory and no register of the host die, no queue of accesses and no event to come (07 R108, R111: the effects
of a block appear only at its commit). Where no physical error is pending and none has changed a clean sector, those walks only fill and
write back lines of the LLC, and every byte reads as before. -/
def Obligations.BlocksTouchOnlyTheirElement : Prop :=
  ∀ (s t : State) (el : Nat) (b b' : Block), s.halted = false → s.agenda = [] → RunsBlock s el b → step s = .next t →
    (t.element el).block = some b' →
    let asid := ((s.activation b.colour.toNat).map (·.entry.asid)).getD 0
    ∃ es walked t', b'.effects = b.effects ++ es ∧ (∀ va ∈ walked, StagesAt es va) ∧
      let met := s.afterWalks asid walked
      t = t'.pass ∧ OnlyElement met t' el ∧
      (s.upsets = [] → s.host.llcinj.getLsbD 63 = false → s.memoryGood → s.cleanAgrees →
        met = { s with memory := { s.memory with mem := met.memory.mem, llc := met.memory.llc } } ∧
        ∀ pa, met.physByte pa = s.physByte pa)

/-- Once a fatal error has stopped the package, no step starts it again but reset (26 R417, R420). -/
def Obligations.OnlyResetEndsAFatalError : Prop :=
  ∀ (s t : State), s.halted = true → s.agenda.head? ≠ some .reset → (s.agenda = [] → Config.schedule s.tick ≠ .event .reset) →
    step s = .next t → t.halted = true
end

