-- ==== Sys2Proof/Laws/Ops.lean ====
section
/-! SUPPORT. What the shared operations of a block and of a step do: how an instruction moves on, stages an effect, ends its
step, or takes an exception (07 R108, R112; 13 R199). -/
namespace Sys2Proof.Machine

variable {s s' : State} {el : Nat} {b b' : Block} {q : SeqId} {a : Activation} {x x' : Sequencer} {r r' : StepRun}

theorem inBlock_ok {f : State → Nat → Block → BlockResult} (words : Nat) (h : RunsBlock s el b) (hf : f s el b = .ok b') :
    inBlock s words f = .next (blockMoves s el b' words) := by
  obtain ⟨hs, hb⟩ := h
  simp [inBlock, hs, hb, hf, Block.advance, blockMoves]

theorem inBlock_exc {f : State → Nat → Block → BlockResult} {i : FaultInfo} (words : Nat) (h : RunsBlock s el b)
    (hf : f s el b = .exc i) : inBlock s words f = .next (takeBlockException s el b i) := by
  obtain ⟨hs, hb⟩ := h
  simp [inBlock, hs, hb, hf]

theorem inBlockWith_ok {f : State → Nat → Block → Except FaultInfo (State × Block)} (words : Nat) (h : RunsBlock s el b)
    (hf : f s el b = .ok (s', b')) : inBlockWith s words f = .next (blockMoves s' el b' words) := by
  obtain ⟨hs, hb⟩ := h
  simp [inBlockWith, hs, hb, hf, Block.advance, blockMoves]

theorem inBlockWith_error {f : State → Nat → Block → Except FaultInfo (State × Block)} {i : FaultInfo} (words : Nat)
    (h : RunsBlock s el b) (hf : f s el b = .error i) :
    inBlockWith s words f = .next (takeBlockException s el b i) := by
  obtain ⟨hs, hb⟩ := h
  simp [inBlockWith, hs, hb, hf]

theorem inLanes_next {o : EA} {f : Element → Nat → Block → Block} (h : RunsBlock s el b) :
    inLanes s o f = .next (blockMoves s el (f (s.element el) el b) (eaWords o)) := inBlock_ok _ h rfl

/-- Everything an element instruction can do: it moves its block on, takes an exception, is an illegal word of a step, or
cannot execute. -/
theorem inBlock_cases {f : State → Nat → Block → BlockResult} {words : Nat} {t : State}
    (h : inBlock s words f = .next t) :
    (∃ el b b', RunsBlock s el b ∧ f s el b = .ok b' ∧ t = blockMoves s el b' words) ∨
    (∃ el b i, RunsBlock s el b ∧ f s el b = .exc i ∧ t = takeBlockException s el b i) ∨
    (∃ q, s.focus = .sequencer q ∧ t = takeStepException s q (illegalInfo false)) := by
  unfold inBlock at h
  split at h
  · rename_i el hs
    split at h
    · rename_i b hb
      split at h
      · rename_i b' hf
        exact .inl ⟨el, b, b', ⟨hs, hb⟩, hf, by simpa [Block.advance, blockMoves] using h.symm⟩
      · rename_i i hf
        exact .inr (.inl ⟨el, b, i, ⟨hs, hb⟩, hf, by simpa using h.symm⟩)
    · cases h
  · rename_i q hs
    split at h
    · exact .inr (.inr ⟨q, hs, by simpa using h.symm⟩)
    · cases h
  · cases h

/-- The same for an element instruction that may translate. -/
theorem inBlockWith_cases {f : State → Nat → Block → Except FaultInfo (State × Block)} {words : Nat} {t : State}
    (h : inBlockWith s words f = .next t) :
    (∃ el b s' b', RunsBlock s el b ∧ f s el b = .ok (s', b') ∧ t = blockMoves s' el b' words) ∨
    (∃ el b i, RunsBlock s el b ∧ f s el b = .error i ∧ t = takeBlockException s el b i) ∨
    (∃ q, s.focus = .sequencer q ∧ t = takeStepException s q (illegalInfo false)) := by
  unfold inBlockWith at h
  split at h
  · rename_i el hs
    split at h
    · rename_i b hb
      split at h
      · rename_i s' b' hf
        exact .inl ⟨el, b, s', b', ⟨hs, hb⟩, hf, by simpa [Block.advance, blockMoves] using h.symm⟩
      · rename_i i hf
        exact .inr (.inl ⟨el, b, i, ⟨hs, hb⟩, hf, by simpa using h.symm⟩)
    · cases h
  · rename_i q hs
    split at h
    · exact .inr (.inr ⟨q, hs, by simpa using h.symm⟩)
    · cases h
  · cases h

theorem inStep_ok {f : State → SeqId → Activation → Sequencer → StepRun → StepResult} (h : RunsStep s q a x r)
    (hf : f s q a x r = .ok s' x' r') : inStep s f = .next (stepMoves s' q x' r') := by
  obtain ⟨hs, ha, hx, hr⟩ := h
  simp [inStep, hs, ha, hx, hr, hf, stepMoves]

theorem inStep_jump {f : State → SeqId → Activation → Sequencer → StepRun → StepResult} (h : RunsStep s q a x r)
    (hf : f s q a x r = .jump s' x' r') :
    inStep s f = .next { s'.putSequencer q { x' with step := some r' } with focus := .none } := by
  obtain ⟨hs, ha, hx, hr⟩ := h
  simp [inStep, hs, ha, hx, hr, hf]

theorem inStep_exc {f : State → SeqId → Activation → Sequencer → StepRun → StepResult} {i : FaultInfo}
    (h : RunsStep s q a x r) (hf : f s q a x r = .exc s' i) : inStep s f = .next (takeStepException s' q i) := by
  obtain ⟨hs, ha, hx, hr⟩ := h
  simp [inStep, hs, ha, hx, hr, hf]

theorem inStep_waits {f : State → SeqId → Activation → Sequencer → StepRun → StepResult} (h : RunsStep s q a x r)
    (hf : f s q a x r = .waits) : inStep s f = .next (stepWaits s q x r) := by
  obtain ⟨hs, ha, hx, hr⟩ := h
  simp [inStep, hs, ha, hx, hr, hf, stepWaits]

theorem inStep_stage {f : State → SeqId → Activation → Sequencer → StepRun → StepResult} {e : StepEffect}
    (h : RunsStep s q a x r) (hf : f s q a x r = stage s' x r e) : inStep s f = .next (stepStages s' q x r e) :=
  inStep_ok h hf

theorem inStep_ends {f : State → SeqId → Activation → Sequencer → StepRun → StepResult} {e : StepEnd}
    (h : RunsStep s q a x r) (hf : f s q a x r = endStep s' x r e) : inStep s f = .next (stepEnds s' q x r e) :=
  inStep_ok h hf

/-! The same of an instruction that only region code has. -/

theorem inRegionStep_ok {c : Nat} {f : State → Nat → Activation → Sequencer → StepRun → StepResult} (h : RunsRegion s c a x r)
    (hf : f s c a x r = .ok s' x' r') : inRegionStep s f = .next (stepMoves s' (.region c) x' r') := inStep_ok h hf

theorem inRegionStep_stage {c : Nat} {f : State → Nat → Activation → Sequencer → StepRun → StepResult} {e : StepEffect}
    (h : RunsRegion s c a x r) (hf : f s c a x r = stage s' x r e) :
    inRegionStep s f = .next (stepStages s' (.region c) x r e) := inStep_ok h hf

theorem inRegionStep_exc {c : Nat} {f : State → Nat → Activation → Sequencer → StepRun → StepResult} {i : FaultInfo}
    (h : RunsRegion s c a x r) (hf : f s c a x r = .exc s' i) :
    inRegionStep s f = .next (takeStepException s' (.region c) i) := inStep_exc h hf

/-- Everything a sequencer instruction can do. -/
theorem inStep_cases {f : State → SeqId → Activation → Sequencer → StepRun → StepResult} {t : State}
    (h : inStep s f = .next t) :
    ∃ q a x r, RunsStep s q a x r ∧
      ((∃ s' x' r', f s q a x r = .ok s' x' r' ∧ t = stepMoves s' q x' r') ∨
       (∃ s' x' r', f s q a x r = .jump s' x' r' ∧
          t = { s'.putSequencer q { x' with step := some r' } with focus := .none }) ∨
       (f s q a x r = .waits ∧ t = stepWaits s q x r) ∨
       (∃ s' i, f s q a x r = .exc s' i ∧ t = takeStepException s' q i)) := by
  unfold inStep at h
  split at h
  · rename_i q hs
    split at h
    · rename_i a x ha hx
      split at h
      · rename_i r hr
        refine ⟨q, a, x, r, ⟨hs, ha, hx, hr⟩, ?_⟩
        split at h
        · rename_i s' x' r' hf
          exact .inl ⟨s', x', r', hf, by simpa [stepMoves] using h.symm⟩
        · rename_i s' x' r' hf
          exact .inr (.inl ⟨s', x', r', hf, by simpa using h.symm⟩)
        · rename_i hf
          exact .inr (.inr (.inl ⟨hf, by simpa [stepWaits] using h.symm⟩))
        · rename_i s' i hf
          exact .inr (.inr (.inr ⟨s', i, hf, by simpa using h.symm⟩))
      · cases h
    · cases h
  · cases h
  · cases h

/-- An instruction that changes registers only moves the step on with them changed. -/
theorem inStepRegs_next {f : Sequencer → Sequencer} (h : RunsStep s q a x r) :
    inStepRegs s f = .next (stepMoves s q (f x) r) := by
  obtain ⟨hs, ha, hx, hr⟩ := h
  simp [inStepRegs, inStep, hs, ha, hx, hr, stepMoves]

/-- A three-register instruction writes its result and moves the step on. -/
theorem alu_next {o : QA} {f : DWord → DWord → DWord} {v : DWord} (h : RunsStep s q a x r)
    (hv : f (x.reg o.a.toNat) (x.reg o.b.toNat) = v) :
    alu s o f = .next (stepMoves s q (x.setReg o.d.toNat v) r) := by
  rw [alu, inStepRegs_next h, hv]

/-- So does an instruction with an immediate. -/
theorem aluImm_next {o : QI} {f : DWord → DWord} {v : DWord} (h : RunsStep s q a x r) (hv : f (x.reg o.a.toNat) = v) :
    aluImm s o f = .next (stepMoves s q (x.setReg o.d.toNat v) r) := by
  rw [aluImm, inStepRegs_next h, hv]

end Sys2Proof.Machine
end

