-- ==== Sys2Proof/Laws/Commands.lean ====
section
/-! SUPPORT. What the checks of PUSHT, POPT and CHAIN answer, and when a step's read waits or has its bytes (15 R244; 16 R260,
R274, R275; 13 R205). -/
namespace Sys2Proof.Machine

variable {s s' : State} {q : SeqId} {a : Activation} {x : Sequencer} {r : StepRun} {c : CommandRecord} {es : List StepEffect}

/-! ## The checks of the stack commands -/

theorem stackOverflows_iff (d : StackDesc) (l : List StackEntry) (n : Nat) :
    let foot := ringBytes l + occupied n
    stackOverflows d l n = true ↔ ¬(foot ≤ d.hsize ∧ (d.lsize = 0 ∨ (foot ≤ d.high ∧ leavingBytes l = 0) ∨
      spilledBytes l + mustSpill l (foot - leavingBytes l - d.low) ≤ d.lsize)) := by
  unfold stackOverflows
  simp only [Bool.or_eq_true, Bool.and_eq_true, decide_eq_true_eq, not_and_or, not_or, not_le, ← Nat.pos_iff_ne_zero]
  tauto

theorem checkStack_push_length (hf : c.fn = 0) (h : c.auxiliary.toNat = 0 ∨ 2 ^ 32 ≤ c.auxiliary.toNat) :
    checkStack s a es c = .error { code := 0x5B, address := c.parameter } := by
  unfold checkStack
  exact (if_pos hf).trans (if_pos h)

/-- A PUSHT of a length that R275 allows: it overflows, or its source is in scratch or in memory, and good or not. -/
theorem checkStack_push (hf : c.fn = 0) (h : ¬(c.auxiliary.toNat = 0 ∨ 2 ^ 32 ≤ c.auxiliary.toNat)) :
    checkStack s a es c =
      if stackOverflows (s.stackDesc a.entry.asid) (s.stackAhead a.entry.asid es) c.auxiliary.toNat then
        .error { code := 0x59, address := c.parameter }
      else if c.flags.getLsbD 0 then
        (if s.scratchGood a c.parameter.toNat c.auxiliary.toNat then checkEyelet a c
         else .error { code := 0x22, address := c.parameter })
      else if recordsAllow a.records .read c.parameter.toNat c.auxiliary.toNat = false then
        .error { code := 0x23, flags := useFlags .read, address := c.parameter, position := BitVec.ofNat 32 c.auxiliary.toNat }
      else match s.pagesReachable a.entry.asid .read c.parameter.toNat c.auxiliary.toNat with
        | .error f => .error f
        | .ok () => checkEyelet a c := by
  unfold checkStack
  exact (if_pos hf).trans (if_neg h)

theorem checkStack_pop_empty (hf : c.fn ≠ 0) (hl : s.stackAhead a.entry.asid es = []) :
    checkStack s a es c = .error { code := 0x5A, address := c.parameter } := by
  unfold checkStack
  rw [if_neg hf, hl]
  rfl

theorem checkStack_pop_length {e : StackEntry} (hf : c.fn ≠ 0) (hl : (s.stackAhead a.entry.asid es).getLast? = some e)
    (h : c.auxiliary ≠ 0 ∧ c.auxiliary.toNat ≠ e.length) :
    checkStack s a es c = .error { code := 0x5B, address := c.parameter } := by
  unfold checkStack
  rw [if_neg hf, hl]
  exact if_pos h

theorem checkStack_pop_undeclared {e : StackEntry} (hf : c.fn ≠ 0) (hl : (s.stackAhead a.entry.asid es).getLast? = some e)
    (h : ¬(c.auxiliary ≠ 0 ∧ c.auxiliary.toNat ≠ e.length))
    (hr : recordsAllow a.records .write c.parameter.toNat e.length = false) :
    checkStack s a es c = .error { code := 0x23, flags := useFlags .write, address := c.parameter,
                                   position := BitVec.ofNat 32 e.length } := by
  unfold checkStack
  rw [if_neg hf, hl]
  exact (if_neg h).trans (if_pos hr)

theorem checkEyelet_ok (h : c.eyelet = 0 ∨ recordsAllow a.records .atomic c.eyelet.toNat 16 = true) : checkEyelet a c = .ok () := by
  unfold checkEyelet
  exact if_pos (by simpa using h)

theorem checkEyelet_undeclared (h0 : c.eyelet ≠ 0) (h : recordsAllow a.records .atomic c.eyelet.toNat 16 = false) :
    checkEyelet a c = .error { code := 0x23, flags := useFlags .atomic, address := c.eyelet, position := 16 } := by
  unfold checkEyelet
  exact if_neg (by simpa [h] using h0)

/-- A POPT whose declared destination leads to HBM wherever it is mapped passes where its pages can be reached, but for its eyelet. -/
theorem checkStack_pop {e : StackEntry} (hf : c.fn ≠ 0) (hl : (s.stackAhead a.entry.asid es).getLast? = some e)
    (h : ¬(c.auxiliary ≠ 0 ∧ c.auxiliary.toNat ≠ e.length))
    (hr : recordsAllow a.records .write c.parameter.toNat e.length = true)
    (hp : ∀ w t, c.parameter.toNat ≤ w → w < c.parameter.toNat + e.length → translate s a.entry.asid w .write = .ok t →
      isHbm t.pa = true) :
    checkStack s a es c = match s.pagesReachable a.entry.asid .write c.parameter.toNat e.length with
      | .error f => .error f
      | .ok () => checkEyelet a c := by
  unfold checkStack
  rw [if_neg hf, hl]
  refine (if_neg h).trans ((if_neg (by simp [hr])).trans (if_pos ?_))
  rw [List.all_eq_true]
  intro p hm
  obtain ⟨hm, hlt⟩ := List.mem_filter.1 hm
  obtain ⟨i, -, rfl⟩ := List.mem_map.1 hm
  split
  · rename_i t ht
    exact hp _ t (by omega) (by simpa using hlt) ht
  · rfl

/-! ## PUSHT and POPT -/

theorem appendStack_pair {o : QE} {fn : Nat} (h : RunsStep s q a x r) (hp : a.isPair = true) :
    appendStack s o fn = .next (takeStepException s q
      (pairFault (if fn = 0 then .read else .write) (x.reg o.sA.toNat) (x.reg o.sC.toNat).toNat)) := inStep_exc h (by simp only [hp]; rfl)

theorem appendStack_ok {o : QE} {fn : Nat} (h : RunsStep s q a x r) (hp : a.isPair = false)
    (hc : checkStack s a r.effects (recordOf x o 5 fn (x.reg o.sC.toNat) 0) = .ok ()) :
    appendStack s o fn = .next (stepStages s q x r (.append (recordOf x o 5 fn (x.reg o.sC.toNat) 0) r.word)) :=
  inStep_stage h (by simp only [hp, hc]; rfl)

theorem appendStack_error {o : QE} {fn : Nat} {f : FaultInfo} (h : RunsStep s q a x r) (hp : a.isPair = false)
    (hc : checkStack s a r.effects (recordOf x o 5 fn (x.reg o.sC.toNat) 0) = .error f) :
    appendStack s o fn = .next (takeStepException s q f) := inStep_exc h (by simp only [hp, hc]; rfl)

/-! ## Reads of a step -/

theorem checkQmem_aligned {k : RecordUse} {va size align : Nat} (h : va % align = 0) :
    checkQmem s a k va size align = checkAccess s a k va size := by
  unfold checkQmem
  rw [if_neg (not_not.2 h)]

theorem readStep_misaligned {va size align : Nat} (h : va % align ≠ 0) :
    readStep s q a r va size align = .fault s { code := 0x21, address := BitVec.ofNat 64 va } := by
  unfold readStep checkQmem
  rw [if_pos h]
  rfl

theorem readStep_waits {va size align : Nat} {l : Leaf} (h : va % align = 0) (hl : checkAccess s a .read va size = .ok l)
    (hf : l.fullEmpty = true) (he : (s.cacheLeaf a.entry.asid va l).everyFull l.pa size = false) :
    readStep s q a r va size align = .waits := by
  unfold readStep
  rw [checkQmem_aligned h, hl]
  exact if_pos ⟨hf, he⟩

theorem readStep_bytes {va size align : Nat} {l : Leaf} {bs : List Byte} (h : va % align = 0)
    (hl : checkAccess s a .read va size = .ok l)
    (hf : l.fullEmpty = true → (s.cacheLeaf a.entry.asid va l).everyFull l.pa size = true)
    (hr : readSectors (seqTile a q) a.entry.asid a.colour (if l.fullEmpty then .device else l.mtype) 4
      (s.cacheLeaf a.entry.asid va l) l.pa size [] = (s', some bs)) :
    readStep s q a r va size align = .bytes s' (overlay r.effects va bs) := by
  unfold readStep
  rw [checkQmem_aligned h, hl]
  refine (if_neg ?_).trans ?_
  · rintro ⟨h1, h2⟩
    rw [hf h1] at h2
    cases h2
  · simp only [hr]

end Sys2Proof.Machine
end

