-- ==== Sys2Proof/Laws/Exec.lean ====
section
/-! SUPPORT. What `exec` does with each constructor, so that no proof unfolds its match. -/
namespace Sys2Proof.Machine

@[simp] theorem exec_nop (s : State) : exec (.nop) s = execNop s := rfl
@[simp] theorem exec_brk (code : BitVec 16) (s : State) : exec (.brk code) s = execBrk code s := rfl
@[simp] theorem exec_trap (code : BitVec 16) (s : State) : exec (.trap code) s = execTrap code s := rfl
@[simp] theorem exec_mov (o : EA) (s : State) : exec (.mov o) s = execMov o s := rfl
@[simp] theorem exec_li (d : BitVec 3) (t : BitVec 3) (imm : BitVec 16) (s : State) : exec (.li d t imm) s = execLi d t imm s := rfl
@[simp] theorem exec_add (o : EA) (s : State) : exec (.add o) s = execAdd o s := rfl
@[simp] theorem exec_sub (o : EA) (s : State) : exec (.sub o) s = execSub o s := rfl
@[simp] theorem exec_mul (o : EA) (s : State) : exec (.mul o) s = execMul o s := rfl
@[simp] theorem exec_mulh (o : EA) (s : State) : exec (.mulh o) s = execMulh o s := rfl
@[simp] theorem exec_mad (o : EA) (s : State) : exec (.mad o) s = execMad o s := rfl
@[simp] theorem exec_min (o : EA) (s : State) : exec (.min o) s = execMin o s := rfl
@[simp] theorem exec_max (o : EA) (s : State) : exec (.max o) s = execMax o s := rfl
@[simp] theorem exec_abs (o : EA) (s : State) : exec (.abs o) s = execAbs o s := rfl
@[simp] theorem exec_neg (o : EA) (s : State) : exec (.neg o) s = execNeg o s := rfl
@[simp] theorem exec_and (o : EA) (s : State) : exec (.and o) s = execAnd o s := rfl
@[simp] theorem exec_or (o : EA) (s : State) : exec (.or o) s = execOr o s := rfl
@[simp] theorem exec_xor (o : EA) (s : State) : exec (.xor o) s = execXor o s := rfl
@[simp] theorem exec_andn (o : EA) (s : State) : exec (.andn o) s = execAndn o s := rfl
@[simp] theorem exec_orn (o : EA) (s : State) : exec (.orn o) s = execOrn o s := rfl
@[simp] theorem exec_xnor (o : EA) (s : State) : exec (.xnor o) s = execXnor o s := rfl
@[simp] theorem exec_shl (o : EA) (s : State) : exec (.shl o) s = execShl o s := rfl
@[simp] theorem exec_shr (o : EA) (s : State) : exec (.shr o) s = execShr o s := rfl
@[simp] theorem exec_sar (o : EA) (s : State) : exec (.sar o) s = execSar o s := rfl
@[simp] theorem exec_rol (o : EA) (s : State) : exec (.rol o) s = execRol o s := rfl
@[simp] theorem exec_clz (o : EA) (s : State) : exec (.clz o) s = execClz o s := rfl
@[simp] theorem exec_popc (o : EA) (s : State) : exec (.popc o) s = execPopc o s := rfl
@[simp] theorem exec_cmp (c : BitVec 3) (o : EA) (s : State) : exec (.cmp c o) s = execCmp c o s := rfl
@[simp] theorem exec_sel (o : EA) (s : State) : exec (.sel o) s = execSel o s := rfl
@[simp] theorem exec_cvt (c : BitVec 3) (o : EA) (s : State) : exec (.cvt c o) s = execCvt c o s := rfl
@[simp] theorem exec_shuf (o : EA) (s : State) : exec (.shuf o) s = execShuf o s := rfl
@[simp] theorem exec_bcast (o : EA) (s : State) : exec (.bcast o) s = execBcast o s := rfl
@[simp] theorem exec_lrot (o : EA) (s : State) : exec (.lrot o) s = execLrot o s := rfl
@[simp] theorem exec_pack (o : EA) (s : State) : exec (.pack o) s = execPack o s := rfl
@[simp] theorem exec_unpackLo (o : EA) (s : State) : exec (.unpackLo o) s = execUnpackLo o s := rfl
@[simp] theorem exec_unpackHi (o : EA) (s : State) : exec (.unpackHi o) s = execUnpackHi o s := rfl
@[simp] theorem exec_red (c : BitVec 3) (o : EA) (s : State) : exec (.red c o) s = execRed c o s := rfl
@[simp] theorem exec_scan (c : BitVec 3) (o : EA) (s : State) : exec (.scan c o) s = execScan c o s := rfl
@[simp] theorem exec_pand (o : EA) (s : State) : exec (.pand o) s = execPand o s := rfl
@[simp] theorem exec_por (o : EA) (s : State) : exec (.por o) s = execPor o s := rfl
@[simp] theorem exec_pnot (o : EA) (s : State) : exec (.pnot o) s = execPnot o s := rfl
@[simp] theorem exec_pset (o : EA) (s : State) : exec (.pset o) s = execPset o s := rfl
@[simp] theorem exec_fadd (o : EA) (s : State) : exec (.fadd o) s = execFadd o s := rfl
@[simp] theorem exec_fsub (o : EA) (s : State) : exec (.fsub o) s = execFsub o s := rfl
@[simp] theorem exec_fmul (o : EA) (s : State) : exec (.fmul o) s = execFmul o s := rfl
@[simp] theorem exec_fma (o : EA) (s : State) : exec (.fma o) s = execFma o s := rfl
@[simp] theorem exec_fms (o : EA) (s : State) : exec (.fms o) s = execFms o s := rfl
@[simp] theorem exec_fnma (o : EA) (s : State) : exec (.fnma o) s = execFnma o s := rfl
@[simp] theorem exec_fmin (o : EA) (s : State) : exec (.fmin o) s = execFmin o s := rfl
@[simp] theorem exec_fmax (o : EA) (s : State) : exec (.fmax o) s = execFmax o s := rfl
@[simp] theorem exec_fabs (o : EA) (s : State) : exec (.fabs o) s = execFabs o s := rfl
@[simp] theorem exec_fneg (o : EA) (s : State) : exec (.fneg o) s = execFneg o s := rfl
@[simp] theorem exec_fcmp (c : BitVec 3) (o : EA) (s : State) : exec (.fcmp c o) s = execFcmp c o s := rfl
@[simp] theorem exec_frcp (o : EA) (s : State) : exec (.frcp o) s = execFrcp o s := rfl
@[simp] theorem exec_frsq (o : EA) (s : State) : exec (.frsq o) s = execFrsq o s := rfl
@[simp] theorem exec_fexp2 (o : EA) (s : State) : exec (.fexp2 o) s = execFexp2 o s := rfl
@[simp] theorem exec_flog2 (o : EA) (s : State) : exec (.flog2 o) s = execFlog2 o s := rfl
@[simp] theorem exec_ftanh (o : EA) (s : State) : exec (.ftanh o) s = execFtanh o s := rfl
@[simp] theorem exec_fcvt (o : EA) (s : State) : exec (.fcvt o) s = execFcvt o s := rfl
@[simp] theorem exec_fred (c : BitVec 3) (o : EA) (s : State) : exec (.fred c o) s = execFred c o s := rfl
@[simp] theorem exec_cmul (o : EA) (s : State) : exec (.cmul o) s = execCmul o s := rfl
@[simp] theorem exec_cmad (o : EA) (s : State) : exec (.cmad o) s = execCmad o s := rfl
@[simp] theorem exec_send (o : ES) (s : State) : exec (.send o) s = execSend o s := rfl
@[simp] theorem exec_sendr (o : ES) (s : State) : exec (.sendr o) s = execSendr o s := rfl
@[simp] theorem exec_last (o : ES) (s : State) : exec (.last o) s = execLast o s := rfl
@[simp] theorem exec_drop (o : ES) (s : State) : exec (.drop o) s = execDrop o s := rfl
@[simp] theorem exec_keep (o : ES) (s : State) : exec (.keep o) s = execKeep o s := rfl
@[simp] theorem exec_mld (o : EM) (s : State) : exec (.mld o) s = execMld o s := rfl
@[simp] theorem exec_mst (o : EM) (s : State) : exec (.mst o) s = execMst o s := rfl
@[simp] theorem exec_mtake (o : EM) (s : State) : exec (.mtake o) s = execMtake o s := rfl
@[simp] theorem exec_mfill (o : EM) (s : State) : exec (.mfill o) s = execMfill o s := rfl
@[simp] theorem exec_matom (o : EM) (s : State) : exec (.matom o) s = execMatom o s := rfl
@[simp] theorem exec_mfence (o : EM) (s : State) : exec (.mfence o) s = execMfence o s := rfl
@[simp] theorem exec_eyaddElement (o : EM) (s : State) : exec (.eyaddElement o) s = execEyaddElement o s := rfl
@[simp] theorem exec_segmac (o : EG) (s : State) : exec (.segmac o) s = execSegmac o s := rfl
@[simp] theorem exec_segden (o : EG) (s : State) : exec (.segden o) s = execSegden o s := rfl
@[simp] theorem exec_drow (o : EG) (s : State) : exec (.drow o) s = execDrow o s := rfl
@[simp] theorem exec_bwdot (o : EG) (s : State) : exec (.bwdot o) s = execBwdot o s := rfl
@[simp] theorem exec_diff (o : EG) (s : State) : exec (.diff o) s = execDiff o s := rfl
@[simp] theorem exec_seggrad (o : EG) (s : State) : exec (.seggrad o) s = execSeggrad o s := rfl
@[simp] theorem exec_accout (o : EM) (s : State) : exec (.accout o) s = execAccout o s := rfl
@[simp] theorem exec_accclr (o : EM) (s : State) : exec (.accclr o) s = execAccclr o s := rfl
@[simp] theorem exec_accst (o : EM) (s : State) : exec (.accst o) s = execAccst o s := rfl
@[simp] theorem exec_twr (o : EA) (s : State) : exec (.twr o) s = execTwr o s := rfl
@[simp] theorem exec_trd (o : EA) (s : State) : exec (.trd o) s = execTrd o s := rfl
@[simp] theorem exec_scl (o : EA) (s : State) : exec (.scl o) s = execScl o s := rfl
@[simp] theorem exec_sclrd (o : EA) (s : State) : exec (.sclrd o) s = execSclrd o s := rfl
@[simp] theorem exec_csum (o : EA) (s : State) : exec (.csum o) s = execCsum o s := rfl
@[simp] theorem exec_csver (o : EA) (s : State) : exec (.csver o) s = execCsver o s := rfl
@[simp] theorem exec_sadd (o : QA) (s : State) : exec (.sadd o) s = execSadd o s := rfl
@[simp] theorem exec_ssub (o : QA) (s : State) : exec (.ssub o) s = execSsub o s := rfl
@[simp] theorem exec_smul (o : QA) (s : State) : exec (.smul o) s = execSmul o s := rfl
@[simp] theorem exec_sand (o : QA) (s : State) : exec (.sand o) s = execSand o s := rfl
@[simp] theorem exec_sor (o : QA) (s : State) : exec (.sor o) s = execSor o s := rfl
@[simp] theorem exec_sxor (o : QA) (s : State) : exec (.sxor o) s = execSxor o s := rfl
@[simp] theorem exec_sshl (o : QA) (s : State) : exec (.sshl o) s = execSshl o s := rfl
@[simp] theorem exec_sshr (o : QA) (s : State) : exec (.sshr o) s = execSshr o s := rfl
@[simp] theorem exec_ssar (o : QA) (s : State) : exec (.ssar o) s = execSsar o s := rfl
@[simp] theorem exec_smin (o : QA) (s : State) : exec (.smin o) s = execSmin o s := rfl
@[simp] theorem exec_smax (o : QA) (s : State) : exec (.smax o) s = execSmax o s := rfl
@[simp] theorem exec_smov (o : QA) (s : State) : exec (.smov o) s = execSmov o s := rfl
@[simp] theorem exec_sli (o : QI) (s : State) : exec (.sli o) s = execSli o s := rfl
@[simp] theorem exec_saddi (o : QI) (s : State) : exec (.saddi o) s = execSaddi o s := rfl
@[simp] theorem exec_sandi (o : QI) (s : State) : exec (.sandi o) s = execSandi o s := rfl
@[simp] theorem exec_slih (o : QI) (s : State) : exec (.slih o) s = execSlih o s := rfl
@[simp] theorem exec_br (cond : BitVec 4) (o : QB) (s : State) : exec (.br cond o) s = execBr cond o s := rfl
@[simp] theorem exec_jmp (o : QB) (s : State) : exec (.jmp o) s = execJmp o s := rfl
@[simp] theorem exec_loop (o : QB) (s : State) : exec (.loop o) s = execLoop o s := rfl
@[simp] theorem exec_sld (fn : BitVec 4) (o : QI) (s : State) : exec (.sld fn o) s = execSld fn o s := rfl
@[simp] theorem exec_sst (fn : BitVec 4) (o : QI) (s : State) : exec (.sst fn o) s = execSst fn o s := rfl
@[simp] theorem exec_satom (fn : BitVec 4) (o : QI) (s : State) : exec (.satom fn o) s = execSatom fn o s := rfl
@[simp] theorem exec_cfg (o : QA) (s : State) : exec (.cfg o) s = execCfg o s := rfl
@[simp] theorem exec_commit (o : QA) (s : State) : exec (.commit o) s = execCommit o s := rfl
@[simp] theorem exec_run (o : QA) (s : State) : exec (.run o) s = execRun o s := rfl
@[simp] theorem exec_waitq (o : QA) (s : State) : exec (.waitq o) s = execWaitq o s := rfl
@[simp] theorem exec_depth (o : QA) (s : State) : exec (.depth o) s = execDepth o s := rfl
@[simp] theorem exec_bank (o : QA) (s : State) : exec (.bank o) s = execBank o s := rfl
@[simp] theorem exec_copy (o : QE) (s : State) : exec (.copy o) s = execCopy o s := rfl
@[simp] theorem exec_gather (o : QE) (s : State) : exec (.gather o) s = execGather o s := rfl
@[simp] theorem exec_scatter (o : QE) (s : State) : exec (.scatter o) s = execScatter o s := rfl
@[simp] theorem exec_chain (o : QE) (s : State) : exec (.chain o) s = execChain o s := rfl
@[simp] theorem exec_waitseq (o : QE) (s : State) : exec (.waitseq o) s = execWaitseq o s := rfl
@[simp] theorem exec_click (o : QE) (s : State) : exec (.click o) s = execClick o s := rfl
@[simp] theorem exec_tbuild (o : QE) (s : State) : exec (.tbuild o) s = execTbuild o s := rfl
@[simp] theorem exec_tpatch (o : QE) (s : State) : exec (.tpatch o) s = execTpatch o s := rfl
@[simp] theorem exec_scant (o : QE) (s : State) : exec (.scant o) s = execScant o s := rfl
@[simp] theorem exec_expand (o : QE) (s : State) : exec (.expand o) s = execExpand o s := rfl
@[simp] theorem exec_epi (o : QE) (s : State) : exec (.epi o) s = execEpi o s := rfl
@[simp] theorem exec_pusht (o : QE) (s : State) : exec (.pusht o) s = execPusht o s := rfl
@[simp] theorem exec_popt (o : QE) (s : State) : exec (.popt o) s = execPopt o s := rfl
@[simp] theorem exec_spawn (o : QA) (s : State) : exec (.spawn o) s = execSpawn o s := rfl
@[simp] theorem exec_decl (o : QA) (s : State) : exec (.decl o) s = execDecl o s := rfl
@[simp] theorem exec_done (o : QA) (s : State) : exec (.done o) s = execDone o s := rfl
@[simp] theorem exec_cancel (o : QA) (s : State) : exec (.cancel o) s = execCancel o s := rfl
@[simp] theorem exec_split (o : QA) (s : State) : exec (.split o) s = execSplit o s := rfl
@[simp] theorem exec_yield (o : QA) (s : State) : exec (.yield o) s = execYield o s := rfl
@[simp] theorem exec_eyadd (o : QI) (s : State) : exec (.eyadd o) s = execEyadd o s := rfl
@[simp] theorem exec_eywait (o : QI) (s : State) : exec (.eywait o) s = execEywait o s := rfl
@[simp] theorem exec_eyset (o : QI) (s : State) : exec (.eyset o) s = execEyset o s := rfl
@[simp] theorem exec_sfence (o : QI) (s : State) : exec (.sfence o) s = execSfence o s := rfl
@[simp] theorem exec_car (o : QE) (s : State) : exec (.car o) s = execCar o s := rfl
@[simp] theorem exec_crs (o : QE) (s : State) : exec (.crs o) s = execCrs o s := rfl
@[simp] theorem exec_cag (o : QE) (s : State) : exec (.cag o) s = execCag o s := rfl
@[simp] theorem exec_ca2a (o : QE) (s : State) : exec (.ca2a o) s = execCa2a o s := rfl
@[simp] theorem exec_cbcast (o : QE) (s : State) : exec (.cbcast o) s = execCbcast o s := rfl
@[simp] theorem exec_push (o : QA) (s : State) : exec (.push o) s = execPush o s := rfl
@[simp] theorem exec_accept (o : QA) (s : State) : exec (.accept o) s = execAccept o s := rfl
@[simp] theorem exec_agset (o : QA) (s : State) : exec (.agset o) s = execAgset o s := rfl
@[simp] theorem exec_permit (o : QA) (s : State) : exec (.permit o) s = execPermit o s := rfl
@[simp] theorem exec_unpermit (o : QA) (s : State) : exec (.unpermit o) s = execUnpermit o s := rfl
@[simp] theorem exec_tlbinv (o : QA) (s : State) : exec (.tlbinv o) s = execTlbinv o s := rfl
@[simp] theorem exec_quar (o : QA) (s : State) : exec (.quar o) s = execQuar o s := rfl
@[simp] theorem exec_ctxsave (o : QA) (s : State) : exec (.ctxsave o) s = execCtxsave o s := rfl
@[simp] theorem exec_ctxload (o : QA) (s : State) : exec (.ctxload o) s = execCtxload o s := rfl
@[simp] theorem exec_mon (o : QA) (s : State) : exec (.mon o) s = execMon o s := rfl
@[simp] theorem exec_bbnote (o : QA) (s : State) : exec (.bbnote o) s = execBbnote o s := rfl
@[simp] theorem exec_sbrk (o : QA) (s : State) : exec (.sbrk o) s = execSbrk o s := rfl
@[simp] theorem exec_step (o : QA) (s : State) : exec (.step o) s = execStep o s := rfl
@[simp] theorem exec_tokenArrival (el port : Nat) (s : State) : exec (.tokenArrival el port) s = execTokenArrival el port s := rfl
@[simp] theorem exec_confToken (el port : Nat) (s : State) : exec (.confToken el port) s = execConfToken el port s := rfl
@[simp] theorem exec_ctrlToken (el port : Nat) (s : State) : exec (.ctrlToken el port) s = execCtrlToken el port s := rfl
@[simp] theorem exec_blockSelect (el : Nat) (s : State) : exec (.blockSelect el) s = execBlockSelect el s := rfl
@[simp] theorem exec_promotion (el cand : Nat) (s : State) : exec (.promotion el cand) s = execPromotion el cand s := rfl
@[simp] theorem exec_blockCommit (el : Nat) (s : State) : exec (.blockCommit el) s = execBlockCommit el s := rfl
@[simp] theorem exec_tagStoreDeadlock (el : Nat) (s : State) : exec (.tagStoreDeadlock el) s = execTagStoreDeadlock el s := rfl
@[simp] theorem exec_tableWriteApply (el : Nat) (s : State) : exec (.tableWriteApply el) s = execTableWriteApply el s := rfl
@[simp] theorem exec_flitHop (circuit node : Nat) (lands : Bool) (s : State) : exec (.flitHop circuit node lands) s = execFlitHop circuit node lands s := rfl
@[simp] theorem exec_depthChange (el port : Nat) (s : State) : exec (.depthChange el port) s = execDepthChange el port s := rfl
@[simp] theorem exec_bankSwitch (tile bank : Nat) (s : State) : exec (.bankSwitch tile bank) s = execBankSwitch tile bank s := rfl
@[simp] theorem exec_memoryRequestPerform (el mport : Nat) (s : State) : exec (.memoryRequestPerform el mport) s = execMemoryRequestPerform el mport s := rfl
@[simp] theorem exec_replyArrival (el mport : Nat) (s : State) : exec (.replyArrival el mport) s = execReplyArrival el mport s := rfl
@[simp] theorem exec_fullEmptyWake (request : Nat) (s : State) : exec (.fullEmptyWake request) s = execFullEmptyWake request s := rfl
@[simp] theorem exec_eyeletAddition (addition : Nat) (s : State) : exec (.eyeletAddition addition) s = execEyeletAddition addition s := rfl
@[simp] theorem exec_stepStart (q : SeqId) (s : State) : exec (.stepStart q) s = execStepStart q s := rfl
@[simp] theorem exec_stepCommit (q : SeqId) (s : State) : exec (.stepCommit q) s = execStepCommit q s := rfl
@[simp] theorem exec_waitSatisfied (q : SeqId) (s : State) : exec (.waitSatisfied q) s = execWaitSatisfied q s := rfl
@[simp] theorem exec_cfgLoad (colour : Nat) (s : State) : exec (.cfgLoad colour) s = execCfgLoad colour s := rfl
@[simp] theorem exec_commitSweep (colour : Nat) (s : State) : exec (.commitSweep colour) s = execCommitSweep colour s := rfl
@[simp] theorem exec_runStartTokens (colour : Nat) (s : State) : exec (.runStartTokens colour) s = execRunStartTokens colour s := rfl
@[simp] theorem exec_pushStream (tile mport : Nat) (s : State) : exec (.pushStream tile mport) s = execPushStream tile mport s := rfl
@[simp] theorem exec_acceptStream (tile mport : Nat) (s : State) : exec (.acceptStream tile mport) s = execAcceptStream tile mport s := rfl
@[simp] theorem exec_engineCommandStart (c : ChainId) (s : State) : exec (.engineCommandStart c) s = execEngineCommandStart c s := rfl
@[simp] theorem exec_engineCommandComplete (c : ChainId) (place : Nat) (s : State) : exec (.engineCommandComplete c place) s = execEngineCommandComplete c place s := rfl
@[simp] theorem exec_copyRow (c : ChainId) (place : Nat) (s : State) : exec (.copyRow c place) s = execCopyRow c place s := rfl
@[simp] theorem exec_gatherScatterRow (c : ChainId) (place : Nat) (s : State) : exec (.gatherScatterRow c place) s = execGatherScatterRow c place s := rfl
@[simp] theorem exec_clickChunk (c : ChainId) (place : Nat) (s : State) : exec (.clickChunk c place) s = execClickChunk c place s := rfl
@[simp] theorem exec_tableBuild (c : ChainId) (place : Nat) (s : State) : exec (.tableBuild c place) s = execTableBuild c place s := rfl
@[simp] theorem exec_tablePatch (c : ChainId) (place : Nat) (s : State) : exec (.tablePatch c place) s = execTablePatch c place s := rfl
@[simp] theorem exec_scanPass (c : ChainId) (place : Nat) (s : State) : exec (.scanPass c place) s = execScanPass c place s := rfl
@[simp] theorem exec_expandBlock (c : ChainId) (place : Nat) (s : State) : exec (.expandBlock c place) s = execExpandBlock c place s := rfl
@[simp] theorem exec_epilogueRow (c : ChainId) (place : Nat) (s : State) : exec (.epilogueRow c place) s = execEpilogueRow c place s := rfl
@[simp] theorem exec_stackCommand (c : ChainId) (place : Nat) (s : State) : exec (.stackCommand c place) s = execStackCommand c place s := rfl
@[simp] theorem exec_spill (asid : Nat) (s : State) : exec (.spill asid) s = execSpill asid s := rfl
@[simp] theorem exec_stackReturn (asid : Nat) (s : State) : exec (.stackReturn asid) s = execStackReturn asid s := rfl
@[simp] theorem exec_hostAppend (asid : Nat) (record : BitVec 512) (s : State) : exec (.hostAppend asid record) s = execHostAppend asid record s := rfl
@[simp] theorem exec_recordFetch (asid : Nat) (s : State) : exec (.recordFetch asid) s = execRecordFetch asid s := rfl
@[simp] theorem exec_placement (die : Nat) (s : State) : exec (.placement die) s = execPlacement die s := rfl
@[simp] theorem exec_gangPlacement (die entry : Nat) (s : State) : exec (.gangPlacement die entry) s = execGangPlacement die entry s := rfl
@[simp] theorem exec_steal (die : Nat) (s : State) : exec (.steal die) s = execSteal die s := rfl
@[simp] theorem exec_queueAging (entry : Nat) (s : State) : exec (.queueAging entry) s = execQueueAging entry s := rfl
@[simp] theorem exec_placementStarvation (entry : Nat) (s : State) : exec (.placementStarvation entry) s = execPlacementStarvation entry s := rfl
@[simp] theorem exec_preemptionTimeout (entry : Nat) (s : State) : exec (.preemptionTimeout entry) s = execPreemptionTimeout entry s := rfl
@[simp] theorem exec_preemptionSave (colour : Nat) (s : State) : exec (.preemptionSave colour) s = execPreemptionSave colour s := rfl
@[simp] theorem exec_resumption (colour : Nat) (s : State) : exec (.resumption colour) s = execResumption colour s := rfl
@[simp] theorem exec_forwardReservation (entry : Nat) (s : State) : exec (.forwardReservation entry) s = execForwardReservation entry s := rfl
@[simp] theorem exec_activationCompletion (colour : Nat) (s : State) : exec (.activationCompletion colour) s = execActivationCompletion colour s := rfl
@[simp] theorem exec_colourReturn (colour : Nat) (s : State) : exec (.colourReturn colour) s = execColourReturn colour s := rfl
@[simp] theorem exec_redundantComparison (colour : Nat) (s : State) : exec (.redundantComparison colour) s = execRedundantComparison colour s := rfl
@[simp] theorem exec_permitGrant (colour : Nat) (s : State) : exec (.permitGrant colour) s = execPermitGrant colour s := rfl
@[simp] theorem exec_powerSample (milliwatts : Nat) (s : State) : exec (.powerSample milliwatts) s = execPowerSample milliwatts s := rfl
@[simp] theorem exec_supplyDroopFatal (die index millivolts : Nat) (s : State) : exec (.supplyDroopFatal die index millivolts) s = execSupplyDroopFatal die index millivolts s := rfl
@[simp] theorem exec_weltFrameReceive (link : Nat) (frame : WeltFrame) (crcGood : Bool) (s : State) : exec (.weltFrameReceive link frame crcGood) s = execWeltFrameReceive link frame crcGood s := rfl
@[simp] theorem exec_weltMessageAgeDiscard (message : Nat) (s : State) : exec (.weltMessageAgeDiscard message) s = execWeltMessageAgeDiscard message s := rfl
@[simp] theorem exec_sendrDelivery (message : Nat) (s : State) : exec (.sendrDelivery message) s = execSendrDelivery message s := rfl
@[simp] theorem exec_collectiveStep (die lreg : Nat) (input : ChunkInput) (s : State) : exec (.collectiveStep die lreg input) s = execCollectiveStep die lreg input s := rfl
@[simp] theorem exec_collectiveAbort (die : Nat) (command : CollectiveName) (s : State) : exec (.collectiveAbort die command) s = execCollectiveAbort die command s := rfl
@[simp] theorem exec_retranslation (el mport : Nat) (s : State) : exec (.retranslation el mport) s = execRetranslation el mport s := rfl
@[simp] theorem exec_frespRetry (q asid colour : Nat) (s : State) : exec (.frespRetry q asid colour) s = execFrespRetry q asid colour s := rfl
@[simp] theorem exec_frespSkip (q asid colour : Nat) (s : State) : exec (.frespSkip q asid colour) s = execFrespSkip q asid colour s := rfl
@[simp] theorem exec_frespKill (q asid colour : Nat) (s : State) : exec (.frespKill q asid colour) s = execFrespKill q asid colour s := rfl
@[simp] theorem exec_frespContinue (q asid colour : Nat) (s : State) : exec (.frespContinue q asid colour) s = execFrespContinue q asid colour s := rfl
@[simp] theorem exec_tlbinvhPage (q asid address : Nat) (s : State) : exec (.tlbinvhPage q asid address) s = execTlbinvhPage q asid address s := rfl
@[simp] theorem exec_tlbinvhAsid (q asid : Nat) (s : State) : exec (.tlbinvhAsid q asid) s = execTlbinvhAsid q asid s := rfl
@[simp] theorem exec_tlbinvhIpa (q vf address : Nat) (s : State) : exec (.tlbinvhIpa q vf address) s = execTlbinvhIpa q vf address s := rfl
@[simp] theorem exec_tlbinvhVf (q vf : Nat) (s : State) : exec (.tlbinvhVf q vf) s = execTlbinvhVf q vf s := rfl
@[simp] theorem exec_llcinjArm (v : Nat) (value : DWord) (s : State) : exec (.llcinjArm v value) s = execLlcinjArm v value s := rfl
@[simp] theorem exec_llcopClean (v : Nat) (value : DWord) (s : State) : exec (.llcopClean v value) s = execLlcopClean v value s := rfl
@[simp] theorem exec_llcopCleanInvalidate (v : Nat) (value : DWord) (s : State) : exec (.llcopCleanInvalidate v value) s = execLlcopCleanInvalidate v value s := rfl
@[simp] theorem exec_reset (s : State) : exec (.reset) s = execReset s := rfl
@[simp] theorem exec_selfTestPass (f : ReadyFunction) (s : State) : exec (.selfTestPass f) s = execSelfTestPass f s := rfl
@[simp] theorem exec_functionLevelReset (v : Nat) (s : State) : exec (.functionLevelReset v) s = execFunctionLevelReset v s := rfl
@[simp] theorem exec_mailboxGo (v : Nat) (value : DWord) (s : State) : exec (.mailboxGo v value) s = execMailboxGo v value s := rfl
@[simp] theorem exec_attestationReportDone (v : Nat) (dmaGood : Bool) (s : State) : exec (.attestationReportDone v dmaGood) s = execAttestationReportDone v dmaGood s := rfl
@[simp] theorem exec_monitorRead (v offset size : Nat) (s : State) : exec (.monitorRead v offset size) s = execMonitorRead v offset size s := rfl
@[simp] theorem exec_fqovfClear (v q : Nat) (s : State) : exec (.fqovfClear v q) s = execFqovfClear v q s := rfl
@[simp] theorem exec_ovlcntClear (v asid : Nat) (s : State) : exec (.ovlcntClear v asid) s = execOvlcntClear v asid s := rfl
@[simp] theorem exec_registerWrite (v offset size : Nat) (value : DWord) (s : State) : exec (.registerWrite v offset size value) s = execRegisterWrite v offset size value s := rfl
@[simp] theorem exec_illegalInstruction (q : SeqId) (s : State) : exec (.illegalInstruction q) s = execIllegalInstruction q s := rfl
@[simp] theorem exec_spillCompletion (asid : Nat) (s : State) : exec (.spillCompletion asid) s = execSpillCompletion asid s := rfl
@[simp] theorem exec_stackReturnCompletion (asid : Nat) (s : State) : exec (.stackReturnCompletion asid) s = execStackReturnCompletion asid s := rfl
@[simp] theorem exec_hostCancel (asid level job id : Nat) (s : State) : exec (.hostCancel asid level job id) s = execHostCancel asid level job id s := rfl
@[simp] theorem exec_hostMemoryAccess (writes : Bool) (address size : Nat) (value : DWord) (s : State) : exec (.hostMemoryAccess writes address size value) s = execHostMemoryAccess writes address size value s := rfl

end Sys2Proof.Machine
end

