-- ==== Sys2Proof/Laws/Fabric.lean ====
section
/-! SUPPORT. What becomes of a flit's parity on its way (12 R178; 13 R215). -/
namespace Sys2Proof.Machine

/-- A flit whose parity is good keeps it when it lands, also where it takes another colour. -/
theorem arriving_par {s : State} {c : Circuit} {tile : Nat} {f : Flit} (h : f.par = parityOf f) :
    (s.arriving c tile f).par = parityOf (s.arriving c tile f) := by
  have hr (k : Nat) : (recolour k f).par = parityOf (recolour k f) := by simp [recolour, h, parityOf, sideband]
  unfold State.arriving
  cases c.source <;> simp only [h]
  split
  · split
    · exact hr _
    · exact h
  · exact h

end Sys2Proof.Machine
end

