-- ==== Sys2Proof/Laws/Lanes.lean ====
section
/-! SUPPORT. What the shared operations on lanes and predicates do (04 R51; 08 R117, R128). -/
namespace Sys2Proof.Machine

theorem packLanes_lt (w : Nat) (xs : List Nat) : packLanes w xs < 2 ^ (w * xs.length) := by
  induction xs with
  | nil => simp [packLanes]
  | cons x xs ih =>
    have hx : x % 2 ^ w < 2 ^ w := Nat.mod_lt _ (Nat.two_pow_pos w)
    have : 2 ^ (w * (x :: xs).length) = 2 ^ w * 2 ^ (w * xs.length) := by
      rw [List.length_cons, Nat.mul_succ, Nat.add_comm, Nat.pow_add]
    rw [this, packLanes]
    calc x % 2 ^ w + 2 ^ w * packLanes w xs < 2 ^ w + 2 ^ w * packLanes w xs := by omega
      _ = 2 ^ w * (packLanes w xs + 1) := by ring
      _ ≤ _ := Nat.mul_le_mul_left _ ih

theorem packLanes_lane (w : Nat) (xs : List Nat) (i : Nat) :
    packLanes w xs / 2 ^ (w * i) % 2 ^ w = xs.getD i 0 % 2 ^ w := by
  induction xs generalizing i with
  | nil => simp [packLanes]
  | cons x xs ih =>
    have hp := Nat.two_pow_pos w
    cases i with
    | zero => simp [packLanes, Nat.add_mul_mod_self_left]
    | succ i =>
      have hd : (x % 2 ^ w + 2 ^ w * packLanes w xs) / 2 ^ w = packLanes w xs := by
        rw [Nat.add_mul_div_left _ _ hp, Nat.div_eq_of_lt (Nat.mod_lt _ hp), Nat.zero_add]
      rw [packLanes, Nat.mul_succ, Nat.add_comm (w * i), Nat.pow_add, ← Nat.div_div_eq_div_mul, hd, ih]
      simp

/-- A width whose lanes fill a vector. -/
theorem lanesOf_mul {w : Nat} (h : w ∣ 2048) : w * lanesOf w = 2048 := Nat.mul_div_cancel' h

theorem laneWidth_dvd (t : BitVec 3) : laneWidth t ∣ 2048 := by
  revert t; decide

/-- A lane of a vector whose lanes are listed. -/
theorem laneNat_packLanes {w : Nat} (h : w ∣ 2048) (f : Nat → Nat) (i : Nat) (hi : i < lanesOf w) :
    laneNat (BitVec.ofNat 2048 (packLanes w ((List.range (lanesOf w)).map f))) w i = f i % 2 ^ w := by
  have hlt : packLanes w ((List.range (lanesOf w)).map f) < 2 ^ 2048 := by
    have := packLanes_lt w ((List.range (lanesOf w)).map f)
    rwa [List.length_map, List.length_range, lanesOf_mul h] at this
  rw [laneNat, BitVec.toNat_ofNat, Nat.mod_eq_of_lt hlt, packLanes_lane]
  simp [List.getD, hi]

theorem laneNat_lt (v : Vec) (w i : Nat) : laneNat v w i < 2 ^ w := Nat.mod_lt _ (Nat.two_pow_pos w)

/-- A lane of a vector some of whose lanes were set. -/
theorem laneNat_setLanes {w : Nat} (h : w ∣ 2048) (old : Vec) (f : Nat → Option Nat) (i : Nat) (hi : i < lanesOf w) :
    laneNat (setLanes old w f) w i = match f i with
      | some x => x % 2 ^ w
      | none => laneNat old w i := by
  rw [setLanes, laneNat_packLanes h _ i hi]
  cases f i with
  | some x => rfl
  | none => exact Nat.mod_eq_of_lt (laneNat_lt old w i)

theorem laneNat_broadcast {w : Nat} (h : w ∣ 2048) (x i : Nat) (hi : i < lanesOf w) :
    laneNat (broadcast w x) w i = x % 2 ^ w := laneNat_packLanes h _ i hi

/-- The bits gathered by a fold of ors under a condition. -/
theorem foldOr_bit (l : List Nat) (c : Nat → Bool) (f : Nat → Word) (e : Word) (k : Nat) :
    (l.foldl (fun e i => if c i then e ||| f i else e) e).getLsbD k = true ↔
      e.getLsbD k = true ∨ ∃ i ∈ l, c i = true ∧ (f i).getLsbD k = true := by
  induction l generalizing e with
  | nil => simp
  | cons a l ih =>
    rw [List.foldl_cons, ih]
    by_cases h : c a = true <;> simp [h, or_assoc]

theorem Tab.find_put_self {α : Type} (t : Tab α) (n : Nat) (v : α) : (t.put n v).find n = some v := by
  induction t with
  | nil => simp [Tab.put, Tab.find]
  | cons p t ih =>
    obtain ⟨k, w⟩ := p
    simp only [Tab.put]
    split
    · simp [Tab.find]
    · split
      · simp [Tab.find]
      · rename_i h1 h2
        simp [Tab.find, ih, Ne.symm h1]

theorem Tab.find_put_of_ne {α : Type} (t : Tab α) (n m : Nat) (v : α) (h : m ≠ n) : (t.put n v).find m = t.find m := by
  induction t with
  | nil => simp [Tab.put, Tab.find, h.symm]
  | cons p t ih =>
    obtain ⟨k, w⟩ := p
    simp only [Tab.put]
    split
    · rename_i h1
      subst h1
      simp [Tab.find, h.symm]
    · split
      · simp [Tab.find, h.symm]
      · simp only [Tab.find, ih]

@[simp] theorem Tab.getD_put_self {α : Type} (t : Tab α) (n : Nat) (v d : α) : (t.put n v).getD n d = v := by
  simp [Tab.getD, Tab.find_put_self]
theorem Tab.getD_put_of_ne {α : Type} (t : Tab α) (n m : Nat) (v d : α) (h : m ≠ n) :
    (t.put n v).getD m d = t.getD m d := by
  simp [Tab.getD, Tab.find_put_of_ne t n m v h]

@[simp] theorem Block.temp_setTemp_self (b : Block) (t : Nat) (v : Vec) : (b.setTemp t v).temp t = v := by
  simp [Block.setTemp, Block.temp]
theorem Block.temp_setTemp_of_ne (b : Block) (t u : Nat) (v : Vec) (h : u ≠ t) : (b.setTemp t v).temp u = b.temp u := by
  simp [Block.setTemp, Block.temp, Tab.getD_put_of_ne _ _ _ _ _ h]

/-- What writing lanes does to a block. -/
theorem writeLanes_spec (b : Block) (o : EA) {w : Nat} (n : Nat) (f : Nat → Nat × Word) (h : w ∣ 2048) :
    let b' := b.writeLanes o w n f
    b' = { b with temps := b'.temps, events := b'.events } ∧
    (∀ t, t ≠ o.d.toNat → b'.temp t = b.temp t) ∧
    (∀ j, j < lanesOf w → laneNat (b'.temp o.d.toNat) w j =
      if j < n && b.active o w j then (f j).1 % 2 ^ w else laneNat (b.temp o.d.toNat) w j) ∧
    ∀ k, b'.events.getLsbD k = true ↔
      b.events.getLsbD k = true ∨ ∃ j, j < lanesOf w ∧ (j < n && b.active o w j) = true ∧ (f j).2.getLsbD k = true := by
  refine ⟨rfl, fun t ht => ?_, fun j hj => ?_, fun k => ?_⟩
  · exact Block.temp_setTemp_of_ne b _ t _ ht
  · show laneNat ((b.setTemp o.d.toNat _).temp o.d.toNat) w j = _
    rw [Block.temp_setTemp_self, laneNat_setLanes h _ _ j hj]
    split <;> simp_all
  · show (b.events ||| _).getLsbD k = true ↔ _
    rw [BitVec.getLsbD_or, Bool.or_eq_true, foldOr_bit]
    simp only [BitVec.ofNat_eq_ofNat, BitVec.getLsbD_zero, Bool.false_eq_true, false_or, List.mem_range, Bool.and_eq_true, decide_eq_true_eq]
    constructor
    · rintro (h1 | ⟨i, hi, h2, h3⟩)
      · exact .inl h1
      · exact .inr ⟨i, by omega, ⟨by omega, h2⟩, h3⟩
    · rintro (h1 | ⟨i, hi, ⟨h2, h3⟩, h4⟩)
      · exact .inl h1
      · exact .inr ⟨i, by omega, h3, h4⟩

end Sys2Proof.Machine
end

