-- ==== Sys2Proof/Laws/LaneResults.lean ====
section
/-! SUPPORT. How an instruction that works lane by lane sets its temporary, and how an exact integer is written to a lane
(04 R49; 08 R117). -/
namespace Sys2Proof.Machine

theorem laneWidth_pos (t : BitVec 3) : 0 < laneWidth t := by
  revert t; decide

/-- A lane-by-lane instruction sets the active lanes of D. -/
theorem lanewise_sets {s : State} {el : Nat} {b : Block} {o : EA} {i : Instr}
    {f : Element → Nat → Block → Nat → Nat × Word} {g : Nat → Nat × Word} (h : RunsBlock s el b)
    (hi : exec i s = lanewise s o f)
    (hg : ∀ j, j < lanesOf (laneWidth o.t) →
      (f (s.element el) el b j).1 % 2 ^ laneWidth o.t = (g j).1 % 2 ^ laneWidth o.t ∧
      (f (s.element el) el b j).2 = (g j).2) :
    SetsLanes s el b o i g := by
  obtain ⟨h1, h2, h3, h4⟩ := writeLanes_spec b o (lanesOf (laneWidth o.t)) (f (s.element el) el b) (laneWidth_dvd o.t)
  refine ⟨_, by rw [hi]; exact inLanes_next h, h1, h2, fun j hj => ?_, fun k => ?_⟩
  · rw [h3 j hj]
    simp [hj, (hg j hj).1]
  · rw [h4]
    refine or_congr_right (exists_congr fun j => and_congr_right fun hj => ?_)
    simp [hj, (hg j hj).2]

/-- Narrowing an exact integer to a lane is what `writtenInt` says. -/
theorem narrow_written (o : EA) (v : Int) :
    narrow (o.sat = 1) (laneSigned o.t) (laneWidth o.t) v = writtenInt o v := by
  have hw := laneWidth_pos o.t
  unfold narrow writtenInt clampTo clampChanges typeMin typeMax wrapTo
  by_cases hs : o.sat = 1
  · simp only [hs, decide_true, if_true]
    generalize hlo : (if laneSigned o.t = true then (-((2 ^ (laneWidth o.t - 1) : ℕ) : ℤ)) else 0) = lo
    generalize hhi : (if laneSigned o.t = true then ((2 ^ (laneWidth o.t - 1) : ℕ) : ℤ) - 1
      else ((2 ^ laneWidth o.t : ℕ) : ℤ) - 1) = hi
    have hlh : lo ≤ hi := by
      have := Nat.two_pow_pos (laneWidth o.t - 1)
      have := Nat.two_pow_pos (laneWidth o.t)
      subst hlo hhi
      split <;> omega
    by_cases h1 : v < lo
    · have : max lo (min v hi) = lo := by omega
      have e2 : ¬ (lo ≤ v ∧ v ≤ hi) := by omega
      simp [h1, this, e2]
    · by_cases h2 : hi < v
      · have : max lo (min v hi) = hi := by omega
        have e2 : ¬ (lo ≤ v ∧ v ≤ hi) := by omega
        simp [h1, h2, this, e2]
      · have e2 : (lo ≤ v ∧ v ≤ hi) := by omega
        simp [h1, h2, e2]
  · simp only [hs, decide_false, if_false, Bool.false_eq_true]

end Sys2Proof.Machine
end

