-- ==== Sys2Proof/Laws/Memory.lean ====
section
/-! SUPPORT. The canonical form of a memory and what each memory operation does to it; the operations on device memory keep
the form. -/
namespace Sys2Proof.Machine

/-! ## The canonical form -/

theorem Mem.wf_cons_iff (k : Nat) (b : Byte) (m : Mem) :
    Mem.wf ((k, b) :: m) = true ↔ b ≠ Mem.unlisted ∧ (∀ c ∈ m, k < c.1) ∧ Mem.wf m = true := by
  induction m generalizing k b with
  | nil => simp [Mem.wf]
  | cons c m ih =>
    obtain ⟨k', b'⟩ := c
    simp only [Mem.wf, Bool.and_eq_true, bne_iff_ne, ne_eq, decide_eq_true_eq, ih k' b', List.mem_cons, forall_eq_or_imp]
    constructor
    · rintro ⟨⟨h1, h2⟩, h3, h4, h5⟩
      exact ⟨h1, ⟨h2, fun c hc => lt_trans h2 (h4 c hc)⟩, h3, h4, h5⟩
    · rintro ⟨h1, ⟨h2, -⟩, h3, h4, h5⟩
      exact ⟨⟨h1, h2⟩, h3, h4, h5⟩

/-- Every address that a write leaves listed was listed before, or is the address written. -/
theorem Mem.mem_write {m : Mem} {a : Nat} {b : Byte} {c : Host.Cell} (h : c ∈ m.write a b) : c ∈ m ∨ c.1 = a := by
  induction m with
  | nil =>
    simp only [Mem.write] at h
    split at h <;> simp_all
  | cons p m ih =>
    obtain ⟨k, d⟩ := p
    simp only [Mem.write] at h
    split at h
    · split at h <;> simp_all
      rcases h with rfl | h <;> simp_all
    · split at h
      · split at h
        · exact .inl h
        · rcases List.mem_cons.1 h with rfl | h
          · exact .inr rfl
          · exact .inl h
      · rcases List.mem_cons.1 h with rfl | h
        · exact .inl (by simp)
        · rcases ih h with h | h
          · exact .inl (by simp [h])
          · exact .inr h

theorem Mem.write_wf {m : Mem} (h : m.wf = true) (a : Nat) (b : Byte) : (m.write a b).wf = true := by
  induction m with
  | nil => by_cases hb : b = Mem.unlisted <;> simp [Mem.write, Mem.wf, hb]
  | cons p m ih =>
    obtain ⟨k, d⟩ := p
    have hc := (Mem.wf_cons_iff k d m).1 h
    simp only [Mem.write]
    split
    · rename_i hk
      split
      · exact hc.2.2
      · rename_i hb
        exact (Mem.wf_cons_iff _ _ _).2 ⟨hb, hk ▸ hc.2.1, hc.2.2⟩
    · split
      · rename_i hk
        split
        · exact h
        · rename_i hb
          refine (Mem.wf_cons_iff _ _ _).2 ⟨hb, fun c hm => ?_, h⟩
          rcases List.mem_cons.1 hm with rfl | hm
          · exact hk
          · exact lt_trans hk (hc.2.1 c hm)
      · rename_i h1 h2
        refine (Mem.wf_cons_iff _ _ _).2 ⟨hc.1, fun c hm => ?_, ih hc.2.2⟩
        rcases Mem.mem_write hm with hm | hm
        · exact hc.2.1 c hm
        · omega

theorem Mem.writeNat_wf {m : Mem} (h : m.wf = true) (a n v : Nat) : (m.writeNat a n v).wf = true := by
  induction n generalizing m a v with
  | zero => exact h
  | succ n ih => exact ih (Mem.write_wf h _ _) _ _

theorem Mem.writeBytes_wf {m : Mem} (h : m.wf = true) (a : Nat) (bs : List Byte) : (m.writeBytes a bs).wf = true := by
  induction bs generalizing m a with
  | nil => exact h
  | cons b bs ih => exact ih (Mem.write_wf h _ _) _

theorem Mem.filter_wf {m : Mem} (h : m.wf = true) (p : Host.Cell → Bool) :
    Mem.wf (m.filter p) = true := by
  induction m with
  | nil => rfl
  | cons c m ih =>
    obtain ⟨k, b⟩ := c
    have hc := (Mem.wf_cons_iff k b m).1 h
    rw [List.filter_cons]
    split
    · exact (Mem.wf_cons_iff _ _ _).2 ⟨hc.1, fun c hm => hc.2.1 c (List.mem_filter.1 hm).1, ih hc.2.2⟩
    · exact ih hc.2.2

theorem Mem.clear_wf {m : Mem} (h : m.wf = true) (lo n : Nat) : (m.clear lo n).wf = true := Mem.filter_wf h _

theorem writeBackLine_wf {m : Mem} (h : m.wf = true) (l : LlcLine) : (writeBackLine m l).wf = true := by
  have half (m : Mem) (h : m.wf = true) (k : Nat) : (if l.dirty.getLsbD k && l.valid.getLsbD k then
      m.writeBytes (l.line * 256 + 128 * k) (leBytes 128 (l.data.toNat / 2 ^ (1024 * k))) else m).wf = true := by
    split
    · exact Mem.writeBytes_wf h _ _
    · exact h
  exact half _ (half _ h 0) 1

/-! ## Reading after writing -/

theorem Mem.read_unlisted {m : Mem} {a : Nat} (h : ∀ c ∈ m, c.1 ≠ a) : m.read a = Mem.unlisted := by
  induction m with
  | nil => rfl
  | cons c m ih =>
    obtain ⟨k, b⟩ := c
    rw [Mem.read, if_neg (h (k, b) (by simp))]
    exact ih fun c hc => h c (List.mem_cons_of_mem _ hc)

theorem Mem.read_write_self {m : Mem} (h : m.wf = true) (a : Nat) (b : Byte) : (m.write a b).read a = b := by
  induction m with
  | nil => by_cases hb : b = Mem.unlisted <;> simp [Mem.write, Mem.read, hb]
  | cons p m ih =>
    obtain ⟨k, d⟩ := p
    have hc := (Mem.wf_cons_iff k d m).1 h
    simp only [Mem.write]
    split
    · rename_i hk
      split
      · rename_i hb
        rw [hb]
        exact Mem.read_unlisted fun c hm => by have := hc.2.1 c hm; omega
      · simp [Mem.read]
    · split
      · rename_i h1 h2
        split
        · rename_i hb
          rw [hb]
          refine Mem.read_unlisted fun c hm => ?_
          rcases List.mem_cons.1 hm with rfl | hm
          · show k ≠ a
            omega
          · have := hc.2.1 c hm
            omega
        · simp [Mem.read]
      · rename_i h1 h2
        rw [Mem.read, if_neg (Ne.symm h1), ih hc.2.2]

theorem Mem.read_write_of_ne (m : Mem) {a k : Nat} (b : Byte) (h : k ≠ a) : (m.write a b).read k = m.read k := by
  induction m with
  | nil => by_cases hb : b = Mem.unlisted <;> simp [Mem.write, Mem.read, hb, h.symm]
  | cons p m ih =>
    obtain ⟨j, d⟩ := p
    simp only [Mem.write]
    split
    · rename_i hj
      split <;> simp [Mem.read, ← hj, h.symm]
    · split
      · split
        · rfl
        · simp [Mem.read, h.symm]
      · simp only [Mem.read, ih]

theorem Mem.read_writeBytes (m : Mem) (h : m.wf = true) (a : Nat) (bs : List Byte) (k : Nat) :
    (m.writeBytes a bs).read k = if a ≤ k ∧ k < a + bs.length then bs.getD (k - a) 0 else m.read k := by
  induction bs generalizing m a with
  | nil =>
    rw [if_neg (by simp)]
    rfl
  | cons b bs ih =>
    rw [Mem.writeBytes, ih _ (Mem.write_wf h _ _)]
    by_cases hk : k = a
    · subst hk
      simp [Mem.read_write_self h]
    · rw [Mem.read_write_of_ne m b hk]
      by_cases h1 : a + 1 ≤ k ∧ k < a + 1 + bs.length
      · rw [if_pos h1, if_pos (by simp; omega)]
        obtain ⟨j, hj⟩ : ∃ j, k = a + 1 + j := ⟨k - (a + 1), by omega⟩
        subst hj
        rw [show a + 1 + j - a = j + 1 by omega]
        simp
      · rw [if_neg h1, if_neg (by simp; omega)]

/-! ## Device memory through the LLC

What handles the errors of a data array leaves device memory in its form where the hardware's own accesses do, and these do at every
level of errors. -/

/-- The hardware's own accesses leave device memory in its canonical form. -/
def Hardware.KeepsForm (h : Hardware) : Prop :=
  (∀ s : State, s.memory.mem.wf = true → ∀ pa n, (h.read s pa n).memory.mem.wf = true) ∧
  ∀ s : State, s.memory.mem.wf = true → ∀ pa bs, (h.write s pa bs).memory.mem.wf = true

/-- Steps that keep the form keep it one after another. -/
theorem foldl_wf {α : Type} {f : State → α → State} (l : List α)
    (hf : ∀ s a, s.memory.mem.wf = true → (f s a).memory.mem.wf = true) :
    ∀ s : State, s.memory.mem.wf = true → (l.foldl f s).memory.mem.wf = true := by
  induction l with
  | nil => exact fun _ h => h
  | cons a l ih => exact fun s h => ih _ (hf s a h)

/-- Steps that leave device memory alone leave it alone one after another. -/
theorem foldl_mem {α : Type} {f : State → α → State} (l : List α) (hf : ∀ s a, (f s a).memory.mem = s.memory.mem) :
    ∀ s : State, (l.foldl f s).memory.mem = s.memory.mem := by
  induction l with
  | nil => exact fun _ => rfl
  | cons a l ih => exact fun s => (ih _).trans (hf s a)

/-! What leaves device memory alone. -/

theorem State.blackBox_mem (s : State) (kind : Nat) (fs : List (Nat × Nat × Nat)) :
    (s.blackBox kind fs).memory.mem = s.memory.mem := by
  unfold State.blackBox State.mapHost
  split <;> rfl

theorem State.fatal_mem (s : State) (cause : Nat) (fs : List (Nat × Nat × Nat)) :
    (s.fatal cause fs).memory.mem = s.memory.mem := s.blackBox_mem _ _

theorem State.lowerCounters_mem (s : State) (asid : Nat) (record : BitVec 512) :
    (s.lowerCounters asid record).memory.mem = s.memory.mem := by
  unfold State.lowerCounters
  refine foldl_mem _ (fun t k => ?_) s
  rfl

theorem State.retire_mem (s : State) (pa : Nat) : (s.retire pa).1.memory.mem = s.memory.mem := by
  unfold State.retire State.mapHost
  split
  · rfl
  · split <;> rfl

theorem State.hbmCorrected_mem (s : State) (pa pos : Nat) : (s.hbmCorrected pa pos).memory.mem = s.memory.mem := by
  unfold State.hbmCorrected
  dsimp only
  split
  · rfl
  · split
    · exact State.blackBox_mem _ _ _
    · split
      · exact State.blackBox_mem _ _ _
      · rfl

theorem State.decodePiece_mem (s : State) (pa : Nat) : (s.decodePiece pa).memory.mem = s.memory.mem := by
  unfold State.decodePiece State.mapMemory State.mapHost
  dsimp only
  split <;> split <;> rfl

/-! What writes lines back. -/

theorem State.dropLine_wf {s : State} (hs : s.memory.mem.wf = true) (line : Nat) : (s.dropLine line).memory.mem.wf = true := by
  unfold State.dropLine
  split
  · exact hs
  · exact writeBackLine_wf hs _

theorem State.quarantineWay_wf {s : State} (hs : s.memory.mem.wf = true) (die group way : Nat) :
    (s.quarantineWay die group way).memory.mem.wf = true := by
  unfold State.quarantineWay
  refine foldl_wf _ (fun s l hs => ?_) _ hs
  dsimp only
  generalize (if l.dirty = 0 then [] else linePieces l.line l.valid.getLsbD) = ps
  split
  · exact hs
  · refine State.dropLine_wf ?_ _
    rw [foldl_mem _ fun s p => State.decodePiece_mem s p]
    exact hs

section
variable {h : Hardware} (hh : h.KeepsForm) {s : State} (hs : s.memory.mem.wf = true)
include hh hs

/-! Fault records and descriptors. -/

theorem State.enqueueBy_wf (q r : Nat) : (s.enqueueBy h q r).1.memory.mem.wf = true := by
  unfold State.enqueueBy
  dsimp only
  split
  · exact hs
  · split
    · exact hs
    · refine hh.2 _ ?_ _ _
      exact hs

theorem State.recordBy_wf (q r : Nat) : (s.recordBy h q r).memory.mem.wf = true := by
  have e := State.enqueueBy_wf hh hs q r
  unfold State.recordBy
  split
  · rename_i t f ht
    rw [ht] at e
    split
    · exact e
    · exact State.enqueueBy_wf hh e _ _
  · rename_i t ht
    rw [ht] at e
    exact e

theorem State.deliverBy_wf (f : FaultSite) (i : FaultInfo) : (s.deliverBy h f i).memory.mem.wf = true := by
  unfold State.deliverBy
  dsimp only
  split
  · exact State.recordBy_wf hh (State.recordBy_wf hh hs _ _) _ _
  · exact State.recordBy_wf hh hs _ _

theorem State.setDescBy_wf (asid off n v : Nat) : (s.setDescBy h asid off n v).memory.mem.wf = true := hh.2 _ hs _ _

theorem State.meetDescBy_wf (asid : Nat) : (s.meetDescBy h asid).memory.mem.wf = true := by
  have e : (if (s.hwFault (s.descAt asid)).isSome then s else h.read s (s.descAt asid) 64).memory.mem.wf = true := by
    split
    · exact hs
    · exact hh.1 _ hs _ _
  unfold State.meetDescBy
  dsimp only
  split
  · exact State.deliverBy_wf hh e _ _
  · exact e

theorem State.terminateContextBy_wf (asid : Nat) : (s.terminateContextBy h asid).memory.mem.wf = true := by
  unfold State.terminateContextBy
  refine State.setDescBy_wf hh ?_ _ _ _ _
  rw [foldl_mem _ fun s r => State.lowerCounters_mem s asid r]
  exact State.setDescBy_wf hh (State.meetDescBy_wf hh hs asid) _ _ _ _

theorem State.memoryErrorBy_wf (line kind owner die way pieces : Nat) (retired : Option Nat) :
    (s.memoryErrorBy h line kind owner die way pieces retired).memory.mem.wf = true := by
  have both (t : State) (ht : t.memory.mem.wf = true) (r q : Nat) :
      (if q ≠ 0 then (t.recordBy h 0 r).recordBy h q r else t.recordBy h 0 r).memory.mem.wf = true := by
    split
    · exact State.recordBy_wf hh (State.recordBy_wf hh ht _ _) _ _
    · exact State.recordBy_wf hh ht _ _
  unfold State.memoryErrorBy
  refine both _ ?_ _ _
  rw [State.blackBox_mem]
  exact hs

/-! Pieces, lines and sectors. -/

theorem State.hbmUncorrectableBy_wf (pa : Nat) : (s.hbmUncorrectableBy h pa).memory.mem.wf = true := by
  unfold State.hbmUncorrectableBy
  dsimp only
  split
  · refine State.memoryErrorBy_wf hh ?_ _ _ _ _ _ _ _
    rw [State.retire_mem]
    exact hs
  · rw [State.fatal_mem]
    exact State.memoryErrorBy_wf hh hs _ _ _ _ _ _ _

theorem State.meetHbmBy_wf (pa : Nat) : (s.meetHbmBy h pa).memory.mem.wf = true := by
  unfold State.meetHbmBy
  dsimp only
  split
  · exact hs
  · split
    · refine State.hbmUncorrectableBy_wf hh ?_ pa
      exact hs
    · refine (congrArg Mem.wf (foldl_mem _ (fun s p => State.hbmCorrected_mem s pa p) _)).trans ?_
      simp only [State.mapMemory]
      exact Mem.writeNat_wf hs _ _ _
    · exact (congrArg Mem.wf (foldl_mem _ (fun s p => State.hbmCorrected_mem s pa p) _)).trans hs

theorem State.fetchSectorBy_wf (pa : Nat) : (s.fetchSectorBy h pa).memory.mem.wf = true := by
  have e := foldl_wf (sectorPieceAddrs pa) (fun t p ht => State.meetHbmBy_wf hh ht p) s hs
  unfold State.fetchSectorBy
  dsimp only
  split <;> exact e

omit hs in
theorem State.uncorrectableBy_wf (fuel : Nat) :
    ∀ (s : State) (l : LlcLine) (pa : Nat), s.memory.mem.wf = true → (State.uncorrectableBy h fuel s l pa).memory.mem.wf = true := by
  induction fuel with
  | zero => exact fun _ _ _ hs => hs
  | succ fuel ih =>
    intro s l pa hs
    unfold State.uncorrectableBy
    dsimp only
    split
    · refine State.fetchSectorBy_wf hh (State.memoryErrorBy_wf hh ?_ _ _ _ _ _ _ _) _
      exact hs
    · split
      · rw [State.fatal_mem]
        exact State.memoryErrorBy_wf hh hs _ _ _ _ _ _ _
      · refine foldl_wf _ (fun s x hs => State.dropLine_wf ?_ _) _ ?_
        · refine foldl_wf _ (fun s p hs => ?_) _ hs
          split
          · exact hs
          · split
            · exact hs
            · split
              · exact ih _ _ _ (by rw [State.decodePiece_mem]; exact hs)
              · rw [State.decodePiece_mem]
                exact hs
        · refine State.memoryErrorBy_wf hh (State.quarantineWay_wf ?_ _ _ _) _ _ _ _ _ _ _
          rw [State.retire_mem]
          refine State.terminateContextBy_wf hh ?_ _
          exact hs

theorem State.meetPieceBy_wf (pa : Nat) : (s.meetPieceBy h pa).memory.mem.wf = true := by
  have e : (s.decodePiece pa).memory.mem.wf = true := by
    rw [State.decodePiece_mem]
    exact hs
  unfold State.meetPieceBy
  split
  · exact hs
  · split
    · exact hs
    · dsimp only
      split
      · exact State.uncorrectableBy_wf hh _ _ _ _ e
      · exact e

theorem State.writeBackBy_wf (line : Nat) : (s.writeBackBy h line).memory.mem.wf = true := by
  unfold State.writeBackBy
  split
  · exact hs
  · split
    · exact hs
    · dsimp only
      generalize hl : linePieces line _ = ps
      have e := foldl_wf ps (fun t p ht => State.meetPieceBy_wf hh ht p) s hs
      split
      · exact e
      · split
        · exact e
        · exact writeBackLine_wf e _

omit hs in
theorem State.makeRoomBy_wf (fuel : Nat) :
    ∀ (s : State) (line : Nat), s.memory.mem.wf = true → (State.makeRoomBy h fuel s line).memory.mem.wf = true := by
  induction fuel with
  | zero => exact fun _ _ hs => hs
  | succ fuel ih =>
    intro s line hs
    unfold State.makeRoomBy
    split
    · exact hs
    · dsimp only
      split
      · exact hs
      · exact ih _ _ (State.dropLine_wf (State.writeBackBy_wf hh hs _) _)

theorem State.ensureBy_wf (pa : Nat) : (s.ensureBy h pa).memory.mem.wf = true := by
  have e := State.makeRoomBy_wf hh 17 s (pa / 256) hs
  unfold State.ensureBy
  split
  · exact hs
  · dsimp only
    split
    · exact e
    · exact State.fetchSectorBy_wf hh e _

theorem State.readSectorBy_wf (pa n : Nat) : (s.readSectorBy h pa n).memory.mem.wf = true := by
  unfold State.readSectorBy
  split
  · exact hs
  · split
    · exact foldl_wf _ (fun t i ht => State.meetPieceBy_wf hh ht _) s hs
    · exact State.ensureBy_wf hh hs pa

theorem State.meetRangeBy_wf (pa n : Nat) : (s.meetRangeBy h pa n).memory.mem.wf = true :=
  foldl_wf _ (fun _ p ht => State.readSectorBy_wf hh ht p.2.1 p.2.2) s hs

theorem State.settleBy_wf (asid pa : Nat) : (s.settleBy h asid pa).memory.mem.wf = true := by
  have e := State.ensureBy_wf hh hs pa
  unfold State.settleBy
  dsimp only
  split
  · split
    · exact State.ensureBy_wf hh (State.writeBackBy_wf hh e _) _
    · exact e
  · exact e

theorem State.writeSectorBy_wf (asid pa : Nat) (bs : List Byte) : (s.writeSectorBy h asid pa bs).memory.mem.wf = true := by
  have e := State.settleBy_wf hh hs asid pa
  unfold State.writeSectorBy
  split
  · exact hs
  · split
    · exact Mem.writeBytes_wf hs _ _
    · dsimp only
      split
      · split <;> exact e
      · exact e

theorem State.llcPutBy_wf (asid pa : Nat) (bs : List Byte) : (s.llcPutBy h asid pa bs).memory.mem.wf = true :=
  foldl_wf _ (fun _ _ ht => State.writeSectorBy_wf hh ht _ _ _) s hs

end

/-! The accesses themselves. -/

theorem hardwareAt_keepsForm (n : Nat) : (hardwareAt n).KeepsForm := by
  induction n with
  | zero => exact ⟨fun _ hs _ _ => hs, fun _ hs _ _ => hs⟩
  | succ n ih =>
    refine ⟨fun s hs pa k => State.meetRangeBy_wf ih hs pa k, fun s hs pa bs => ?_⟩
    show (if (s.hwFault pa).isSome then s else s.llcPutBy (hardwareAt n) 0 pa bs).memory.mem.wf = true
    split
    · exact hs
    · exact State.llcPutBy_wf ih hs 0 pa bs

section
variable {s : State} (hs : s.memory.mem.wf = true)
include hs

theorem State.meetPiece_wf (pa : Nat) : (s.meetPiece pa).memory.mem.wf = true :=
  State.meetPieceBy_wf (hardwareAt_keepsForm _) hs pa
theorem State.writeBack_wf (line : Nat) : (s.writeBack line).memory.mem.wf = true :=
  State.writeBackBy_wf (hardwareAt_keepsForm _) hs line
theorem State.ensure_wf (pa : Nat) : (s.ensure pa).memory.mem.wf = true :=
  State.ensureBy_wf (hardwareAt_keepsForm _) hs pa
theorem State.readSector_wf (pa n : Nat) : (s.readSector pa n).memory.mem.wf = true :=
  State.readSectorBy_wf (hardwareAt_keepsForm _) hs pa n
theorem State.meetRange_wf (pa n : Nat) : (s.meetRange pa n).memory.mem.wf = true :=
  State.meetRangeBy_wf (hardwareAt_keepsForm _) hs pa n
theorem State.writeSector_wf (asid pa : Nat) (bs : List Byte) : (s.writeSector asid pa bs).memory.mem.wf = true :=
  State.writeSectorBy_wf (hardwareAt_keepsForm _) hs asid pa bs
theorem State.llcPut_wf (asid pa : Nat) (bs : List Byte) : (s.llcPut asid pa bs).memory.mem.wf = true :=
  State.llcPutBy_wf (hardwareAt_keepsForm _) hs asid pa bs
theorem State.deliver_wf (f : FaultSite) (i : FaultInfo) : (s.deliver f i).memory.mem.wf = true :=
  State.deliverBy_wf (hardwareAt_keepsForm _) hs f i
theorem State.terminateContext_wf (asid : Nat) : (s.terminateContext asid).memory.mem.wf = true :=
  State.terminateContextBy_wf (hardwareAt_keepsForm _) hs asid
theorem State.meetDesc_wf (asid : Nat) : (s.meetDesc asid).memory.mem.wf = true :=
  State.meetDescBy_wf (hardwareAt_keepsForm _) hs asid
theorem State.hwWrite_wf (pa : Nat) (bs : List Byte) : (s.hwWrite pa bs).memory.mem.wf = true :=
  (hardwareAt_keepsForm _).2 s hs pa bs

theorem State.settle_wf (asid pa n : Nat) : (s.settle asid pa n).memory.mem.wf = true := by
  refine foldl_wf _ (fun t p ht => ?_) s hs
  split
  · exact ht
  · exact State.settleBy_wf (hardwareAt_keepsForm _) ht _ _

theorem State.llcRead_wf (pa n : Nat) : (s.llcRead pa n).1.memory.mem.wf = true := by
  unfold State.llcRead
  split
  · exact hs
  · dsimp only
    split <;> exact State.meetRange_wf hs pa n

theorem State.hwPut_wf (f : FaultSite) (pa : Nat) (bs : List Byte) : (s.hwPut f pa bs).memory.mem.wf = true := by
  unfold State.hwPut
  dsimp only
  split
  · exact State.deliver_wf (State.hwWrite_wf hs pa bs) _ _
  · exact State.hwWrite_wf hs pa bs

end

end Sys2Proof.Machine
end

