-- ==== Sys2Proof/Laws/State.lean ====
section
/-! SUPPORT. What each update of the state leaves in each of its fields, so that no proof unfolds a record update. -/
namespace Sys2Proof.Machine

variable (s : State)

/-! ## putElement -/

@[simp] theorem State.putElement_agenda (e : Nat) (x : Element) : (s.putElement e x).agenda = s.agenda := rfl
@[simp] theorem State.putElement_focus (e : Nat) (x : Element) : (s.putElement e x).focus = s.focus := rfl
@[simp] theorem State.putElement_tick (e : Nat) (x : Element) : (s.putElement e x).tick = s.tick := rfl
@[simp] theorem State.putElement_cycle (e : Nat) (x : Element) : (s.putElement e x).cycle = s.cycle := rfl
@[simp] theorem State.putElement_halted (e : Nat) (x : Element) : (s.putElement e x).halted = s.halted := rfl
@[simp] theorem State.putElement_upsets (e : Nat) (x : Element) : (s.putElement e x).upsets = s.upsets := rfl
@[simp] theorem State.putElement_elements (e : Nat) (x : Element) : (s.putElement e x).elements = s.elements.put e x := rfl
@[simp] theorem State.putElement_tiles (e : Nat) (x : Element) : (s.putElement e x).tiles = s.tiles := rfl
@[simp] theorem State.putElement_circuits (e : Nat) (x : Element) : (s.putElement e x).circuits = s.circuits := rfl
@[simp] theorem State.putElement_nextCircuit (e : Nat) (x : Element) : (s.putElement e x).nextCircuit = s.nextCircuit := rfl
@[simp] theorem State.putElement_activations (e : Nat) (x : Element) : (s.putElement e x).activations = s.activations := rfl
@[simp] theorem State.putElement_sched (e : Nat) (x : Element) : (s.putElement e x).sched = s.sched := rfl
@[simp] theorem State.putElement_chains (e : Nat) (x : Element) : (s.putElement e x).chains = s.chains := rfl
@[simp] theorem State.putElement_stackOf (e : Nat) (x : Element) : (s.putElement e x).stackOf = s.stackOf := rfl
@[simp] theorem State.putElement_links (e : Nat) (x : Element) : (s.putElement e x).links = s.links := rfl
@[simp] theorem State.putElement_welt (e : Nat) (x : Element) : (s.putElement e x).welt = s.welt := rfl
@[simp] theorem State.putElement_memory (e : Nat) (x : Element) : (s.putElement e x).memory = s.memory := rfl
@[simp] theorem State.putElement_host (e : Nat) (x : Element) : (s.putElement e x).host = s.host := rfl

/-! ## putTile -/

@[simp] theorem State.putTile_agenda (n : Nat) (x : MemTile) : (s.putTile n x).agenda = s.agenda := rfl
@[simp] theorem State.putTile_focus (n : Nat) (x : MemTile) : (s.putTile n x).focus = s.focus := rfl
@[simp] theorem State.putTile_tick (n : Nat) (x : MemTile) : (s.putTile n x).tick = s.tick := rfl
@[simp] theorem State.putTile_cycle (n : Nat) (x : MemTile) : (s.putTile n x).cycle = s.cycle := rfl
@[simp] theorem State.putTile_halted (n : Nat) (x : MemTile) : (s.putTile n x).halted = s.halted := rfl
@[simp] theorem State.putTile_upsets (n : Nat) (x : MemTile) : (s.putTile n x).upsets = s.upsets := rfl
@[simp] theorem State.putTile_elements (n : Nat) (x : MemTile) : (s.putTile n x).elements = s.elements := rfl
@[simp] theorem State.putTile_tiles (n : Nat) (x : MemTile) : (s.putTile n x).tiles = s.tiles.put n x := rfl
@[simp] theorem State.putTile_circuits (n : Nat) (x : MemTile) : (s.putTile n x).circuits = s.circuits := rfl
@[simp] theorem State.putTile_nextCircuit (n : Nat) (x : MemTile) : (s.putTile n x).nextCircuit = s.nextCircuit := rfl
@[simp] theorem State.putTile_activations (n : Nat) (x : MemTile) : (s.putTile n x).activations = s.activations := rfl
@[simp] theorem State.putTile_sched (n : Nat) (x : MemTile) : (s.putTile n x).sched = s.sched := rfl
@[simp] theorem State.putTile_chains (n : Nat) (x : MemTile) : (s.putTile n x).chains = s.chains := rfl
@[simp] theorem State.putTile_stackOf (n : Nat) (x : MemTile) : (s.putTile n x).stackOf = s.stackOf := rfl
@[simp] theorem State.putTile_links (n : Nat) (x : MemTile) : (s.putTile n x).links = s.links := rfl
@[simp] theorem State.putTile_welt (n : Nat) (x : MemTile) : (s.putTile n x).welt = s.welt := rfl
@[simp] theorem State.putTile_memory (n : Nat) (x : MemTile) : (s.putTile n x).memory = s.memory := rfl
@[simp] theorem State.putTile_host (n : Nat) (x : MemTile) : (s.putTile n x).host = s.host := rfl

/-! ## putActivation -/

@[simp] theorem State.putActivation_agenda (a : Activation) : (s.putActivation a).agenda = s.agenda := rfl
@[simp] theorem State.putActivation_focus (a : Activation) : (s.putActivation a).focus = s.focus := rfl
@[simp] theorem State.putActivation_tick (a : Activation) : (s.putActivation a).tick = s.tick := rfl
@[simp] theorem State.putActivation_cycle (a : Activation) : (s.putActivation a).cycle = s.cycle := rfl
@[simp] theorem State.putActivation_halted (a : Activation) : (s.putActivation a).halted = s.halted := rfl
@[simp] theorem State.putActivation_upsets (a : Activation) : (s.putActivation a).upsets = s.upsets := rfl
@[simp] theorem State.putActivation_elements (a : Activation) : (s.putActivation a).elements = s.elements := rfl
@[simp] theorem State.putActivation_tiles (a : Activation) : (s.putActivation a).tiles = s.tiles := rfl
@[simp] theorem State.putActivation_circuits (a : Activation) : (s.putActivation a).circuits = s.circuits := rfl
@[simp] theorem State.putActivation_nextCircuit (a : Activation) : (s.putActivation a).nextCircuit = s.nextCircuit := rfl
@[simp] theorem State.putActivation_activations (a : Activation) : (s.putActivation a).activations = s.activations.put a.colour a := rfl
@[simp] theorem State.putActivation_sched (a : Activation) : (s.putActivation a).sched = s.sched := rfl
@[simp] theorem State.putActivation_chains (a : Activation) : (s.putActivation a).chains = s.chains := rfl
@[simp] theorem State.putActivation_stackOf (a : Activation) : (s.putActivation a).stackOf = s.stackOf := rfl
@[simp] theorem State.putActivation_links (a : Activation) : (s.putActivation a).links = s.links := rfl
@[simp] theorem State.putActivation_welt (a : Activation) : (s.putActivation a).welt = s.welt := rfl
@[simp] theorem State.putActivation_memory (a : Activation) : (s.putActivation a).memory = s.memory := rfl
@[simp] theorem State.putActivation_host (a : Activation) : (s.putActivation a).host = s.host := rfl

/-! ## mapMemory -/

@[simp] theorem State.mapMemory_agenda (f : MemorySystem → MemorySystem) : (s.mapMemory f).agenda = s.agenda := rfl
@[simp] theorem State.mapMemory_focus (f : MemorySystem → MemorySystem) : (s.mapMemory f).focus = s.focus := rfl
@[simp] theorem State.mapMemory_tick (f : MemorySystem → MemorySystem) : (s.mapMemory f).tick = s.tick := rfl
@[simp] theorem State.mapMemory_cycle (f : MemorySystem → MemorySystem) : (s.mapMemory f).cycle = s.cycle := rfl
@[simp] theorem State.mapMemory_halted (f : MemorySystem → MemorySystem) : (s.mapMemory f).halted = s.halted := rfl
@[simp] theorem State.mapMemory_upsets (f : MemorySystem → MemorySystem) : (s.mapMemory f).upsets = s.upsets := rfl
@[simp] theorem State.mapMemory_elements (f : MemorySystem → MemorySystem) : (s.mapMemory f).elements = s.elements := rfl
@[simp] theorem State.mapMemory_tiles (f : MemorySystem → MemorySystem) : (s.mapMemory f).tiles = s.tiles := rfl
@[simp] theorem State.mapMemory_circuits (f : MemorySystem → MemorySystem) : (s.mapMemory f).circuits = s.circuits := rfl
@[simp] theorem State.mapMemory_nextCircuit (f : MemorySystem → MemorySystem) : (s.mapMemory f).nextCircuit = s.nextCircuit := rfl
@[simp] theorem State.mapMemory_activations (f : MemorySystem → MemorySystem) : (s.mapMemory f).activations = s.activations := rfl
@[simp] theorem State.mapMemory_sched (f : MemorySystem → MemorySystem) : (s.mapMemory f).sched = s.sched := rfl
@[simp] theorem State.mapMemory_chains (f : MemorySystem → MemorySystem) : (s.mapMemory f).chains = s.chains := rfl
@[simp] theorem State.mapMemory_stackOf (f : MemorySystem → MemorySystem) : (s.mapMemory f).stackOf = s.stackOf := rfl
@[simp] theorem State.mapMemory_links (f : MemorySystem → MemorySystem) : (s.mapMemory f).links = s.links := rfl
@[simp] theorem State.mapMemory_welt (f : MemorySystem → MemorySystem) : (s.mapMemory f).welt = s.welt := rfl
@[simp] theorem State.mapMemory_memory (f : MemorySystem → MemorySystem) : (s.mapMemory f).memory = f s.memory := rfl
@[simp] theorem State.mapMemory_host (f : MemorySystem → MemorySystem) : (s.mapMemory f).host = s.host := rfl

/-! ## mapHost -/

@[simp] theorem State.mapHost_agenda (f : HostDie → HostDie) : (s.mapHost f).agenda = s.agenda := rfl
@[simp] theorem State.mapHost_focus (f : HostDie → HostDie) : (s.mapHost f).focus = s.focus := rfl
@[simp] theorem State.mapHost_tick (f : HostDie → HostDie) : (s.mapHost f).tick = s.tick := rfl
@[simp] theorem State.mapHost_cycle (f : HostDie → HostDie) : (s.mapHost f).cycle = s.cycle := rfl
@[simp] theorem State.mapHost_halted (f : HostDie → HostDie) : (s.mapHost f).halted = s.halted := rfl
@[simp] theorem State.mapHost_upsets (f : HostDie → HostDie) : (s.mapHost f).upsets = s.upsets := rfl
@[simp] theorem State.mapHost_elements (f : HostDie → HostDie) : (s.mapHost f).elements = s.elements := rfl
@[simp] theorem State.mapHost_tiles (f : HostDie → HostDie) : (s.mapHost f).tiles = s.tiles := rfl
@[simp] theorem State.mapHost_circuits (f : HostDie → HostDie) : (s.mapHost f).circuits = s.circuits := rfl
@[simp] theorem State.mapHost_nextCircuit (f : HostDie → HostDie) : (s.mapHost f).nextCircuit = s.nextCircuit := rfl
@[simp] theorem State.mapHost_activations (f : HostDie → HostDie) : (s.mapHost f).activations = s.activations := rfl
@[simp] theorem State.mapHost_sched (f : HostDie → HostDie) : (s.mapHost f).sched = s.sched := rfl
@[simp] theorem State.mapHost_chains (f : HostDie → HostDie) : (s.mapHost f).chains = s.chains := rfl
@[simp] theorem State.mapHost_stackOf (f : HostDie → HostDie) : (s.mapHost f).stackOf = s.stackOf := rfl
@[simp] theorem State.mapHost_links (f : HostDie → HostDie) : (s.mapHost f).links = s.links := rfl
@[simp] theorem State.mapHost_welt (f : HostDie → HostDie) : (s.mapHost f).welt = s.welt := rfl
@[simp] theorem State.mapHost_memory (f : HostDie → HostDie) : (s.mapHost f).memory = s.memory := rfl
@[simp] theorem State.mapHost_host (f : HostDie → HostDie) : (s.mapHost f).host = f s.host := rfl

/-! ## mapSched -/

@[simp] theorem State.mapSched_agenda (f : Scheduler → Scheduler) : (s.mapSched f).agenda = s.agenda := rfl
@[simp] theorem State.mapSched_focus (f : Scheduler → Scheduler) : (s.mapSched f).focus = s.focus := rfl
@[simp] theorem State.mapSched_tick (f : Scheduler → Scheduler) : (s.mapSched f).tick = s.tick := rfl
@[simp] theorem State.mapSched_cycle (f : Scheduler → Scheduler) : (s.mapSched f).cycle = s.cycle := rfl
@[simp] theorem State.mapSched_halted (f : Scheduler → Scheduler) : (s.mapSched f).halted = s.halted := rfl
@[simp] theorem State.mapSched_upsets (f : Scheduler → Scheduler) : (s.mapSched f).upsets = s.upsets := rfl
@[simp] theorem State.mapSched_elements (f : Scheduler → Scheduler) : (s.mapSched f).elements = s.elements := rfl
@[simp] theorem State.mapSched_tiles (f : Scheduler → Scheduler) : (s.mapSched f).tiles = s.tiles := rfl
@[simp] theorem State.mapSched_circuits (f : Scheduler → Scheduler) : (s.mapSched f).circuits = s.circuits := rfl
@[simp] theorem State.mapSched_nextCircuit (f : Scheduler → Scheduler) : (s.mapSched f).nextCircuit = s.nextCircuit := rfl
@[simp] theorem State.mapSched_activations (f : Scheduler → Scheduler) : (s.mapSched f).activations = s.activations := rfl
@[simp] theorem State.mapSched_sched (f : Scheduler → Scheduler) : (s.mapSched f).sched = f s.sched := rfl
@[simp] theorem State.mapSched_chains (f : Scheduler → Scheduler) : (s.mapSched f).chains = s.chains := rfl
@[simp] theorem State.mapSched_stackOf (f : Scheduler → Scheduler) : (s.mapSched f).stackOf = s.stackOf := rfl
@[simp] theorem State.mapSched_links (f : Scheduler → Scheduler) : (s.mapSched f).links = s.links := rfl
@[simp] theorem State.mapSched_welt (f : Scheduler → Scheduler) : (s.mapSched f).welt = s.welt := rfl
@[simp] theorem State.mapSched_memory (f : Scheduler → Scheduler) : (s.mapSched f).memory = s.memory := rfl
@[simp] theorem State.mapSched_host (f : Scheduler → Scheduler) : (s.mapSched f).host = s.host := rfl

/-! ## putStack -/

@[simp] theorem State.putStack_agenda (asid : Nat) (l : List StackEntry) : (s.putStack asid l).agenda = s.agenda := rfl
@[simp] theorem State.putStack_focus (asid : Nat) (l : List StackEntry) : (s.putStack asid l).focus = s.focus := rfl
@[simp] theorem State.putStack_tick (asid : Nat) (l : List StackEntry) : (s.putStack asid l).tick = s.tick := rfl
@[simp] theorem State.putStack_cycle (asid : Nat) (l : List StackEntry) : (s.putStack asid l).cycle = s.cycle := rfl
@[simp] theorem State.putStack_halted (asid : Nat) (l : List StackEntry) : (s.putStack asid l).halted = s.halted := rfl
@[simp] theorem State.putStack_upsets (asid : Nat) (l : List StackEntry) : (s.putStack asid l).upsets = s.upsets := rfl
@[simp] theorem State.putStack_elements (asid : Nat) (l : List StackEntry) : (s.putStack asid l).elements = s.elements := rfl
@[simp] theorem State.putStack_tiles (asid : Nat) (l : List StackEntry) : (s.putStack asid l).tiles = s.tiles := rfl
@[simp] theorem State.putStack_circuits (asid : Nat) (l : List StackEntry) : (s.putStack asid l).circuits = s.circuits := rfl
@[simp] theorem State.putStack_nextCircuit (asid : Nat) (l : List StackEntry) : (s.putStack asid l).nextCircuit = s.nextCircuit := rfl
@[simp] theorem State.putStack_activations (asid : Nat) (l : List StackEntry) : (s.putStack asid l).activations = s.activations := rfl
@[simp] theorem State.putStack_sched (asid : Nat) (l : List StackEntry) : (s.putStack asid l).sched = s.sched := rfl
@[simp] theorem State.putStack_chains (asid : Nat) (l : List StackEntry) : (s.putStack asid l).chains = s.chains := rfl
@[simp] theorem State.putStack_stackOf (asid : Nat) (l : List StackEntry) : (s.putStack asid l).stackOf = s.stackOf.put asid l := rfl
@[simp] theorem State.putStack_links (asid : Nat) (l : List StackEntry) : (s.putStack asid l).links = s.links := rfl
@[simp] theorem State.putStack_welt (asid : Nat) (l : List StackEntry) : (s.putStack asid l).welt = s.welt := rfl
@[simp] theorem State.putStack_memory (asid : Nat) (l : List StackEntry) : (s.putStack asid l).memory = s.memory := rfl
@[simp] theorem State.putStack_host (asid : Nat) (l : List StackEntry) : (s.putStack asid l).host = s.host := rfl

/-! ## putLink -/

@[simp] theorem State.putLink_agenda (key : Nat) (k : LinkChain) : (s.putLink key k).agenda = s.agenda := rfl
@[simp] theorem State.putLink_focus (key : Nat) (k : LinkChain) : (s.putLink key k).focus = s.focus := rfl
@[simp] theorem State.putLink_tick (key : Nat) (k : LinkChain) : (s.putLink key k).tick = s.tick := rfl
@[simp] theorem State.putLink_cycle (key : Nat) (k : LinkChain) : (s.putLink key k).cycle = s.cycle := rfl
@[simp] theorem State.putLink_halted (key : Nat) (k : LinkChain) : (s.putLink key k).halted = s.halted := rfl
@[simp] theorem State.putLink_upsets (key : Nat) (k : LinkChain) : (s.putLink key k).upsets = s.upsets := rfl
@[simp] theorem State.putLink_elements (key : Nat) (k : LinkChain) : (s.putLink key k).elements = s.elements := rfl
@[simp] theorem State.putLink_tiles (key : Nat) (k : LinkChain) : (s.putLink key k).tiles = s.tiles := rfl
@[simp] theorem State.putLink_circuits (key : Nat) (k : LinkChain) : (s.putLink key k).circuits = s.circuits := rfl
@[simp] theorem State.putLink_nextCircuit (key : Nat) (k : LinkChain) : (s.putLink key k).nextCircuit = s.nextCircuit := rfl
@[simp] theorem State.putLink_activations (key : Nat) (k : LinkChain) : (s.putLink key k).activations = s.activations := rfl
@[simp] theorem State.putLink_sched (key : Nat) (k : LinkChain) : (s.putLink key k).sched = s.sched := rfl
@[simp] theorem State.putLink_chains (key : Nat) (k : LinkChain) : (s.putLink key k).chains = s.chains := rfl
@[simp] theorem State.putLink_stackOf (key : Nat) (k : LinkChain) : (s.putLink key k).stackOf = s.stackOf := rfl
@[simp] theorem State.putLink_links (key : Nat) (k : LinkChain) : (s.putLink key k).links = s.links.put key k := rfl
@[simp] theorem State.putLink_welt (key : Nat) (k : LinkChain) : (s.putLink key k).welt = s.welt := rfl
@[simp] theorem State.putLink_memory (key : Nat) (k : LinkChain) : (s.putLink key k).memory = s.memory := rfl
@[simp] theorem State.putLink_host (key : Nat) (k : LinkChain) : (s.putLink key k).host = s.host := rfl

/-! ## Reading back what was written -/

@[simp] theorem State.element_putElement_self (e : Nat) (x : Element) : (s.putElement e x).element e = x := by
  simp [State.element]
theorem State.element_putElement_of_ne (e k : Nat) (x : Element) (h : k ≠ e) :
    (s.putElement e x).element k = s.element k := by
  simp [State.element, Tab.getD_put_of_ne _ _ _ _ _ h]
@[simp] theorem State.tile_putTile_self (n : Nat) (x : MemTile) : (s.putTile n x).tile n = x := by
  simp [State.tile]
theorem State.tile_putTile_of_ne (n k : Nat) (x : MemTile) (h : k ≠ n) : (s.putTile n x).tile k = s.tile k := by
  simp [State.tile, Tab.getD_put_of_ne _ _ _ _ _ h]
@[simp] theorem State.activation_putActivation_self (a : Activation) : (s.putActivation a).activation a.colour = some a := by
  simp [State.activation, Tab.find_put_self]
theorem State.activation_putActivation_of_ne (a : Activation) (c : Nat) (h : c ≠ a.colour) :
    (s.putActivation a).activation c = s.activation c := by
  simp [State.activation, Tab.find_put_of_ne _ _ _ _ h]

@[simp] theorem State.element_putTile (n : Nat) (x : MemTile) (e : Nat) : (s.putTile n x).element e = s.element e := rfl
@[simp] theorem State.element_putActivation (a : Activation) (e : Nat) : (s.putActivation a).element e = s.element e := rfl
@[simp] theorem State.tile_putElement (e : Nat) (x : Element) (n : Nat) : (s.putElement e x).tile n = s.tile n := rfl
@[simp] theorem State.tile_putActivation (a : Activation) (n : Nat) : (s.putActivation a).tile n = s.tile n := rfl
@[simp] theorem State.activation_putElement (e : Nat) (x : Element) (c : Nat) :
    (s.putElement e x).activation c = s.activation c := rfl
@[simp] theorem State.activation_putTile (n : Nat) (x : MemTile) (c : Nat) : (s.putTile n x).activation c = s.activation c := rfl

/-! ## A sequencer -/

/-- Putting a sequencer changes activations and tiles only. -/
theorem State.putSequencer_frame (q : SeqId) (x : Sequencer) :
    s.putSequencer q x =
      { s with activations := (s.putSequencer q x).activations, tiles := (s.putSequencer q x).tiles } := by
  unfold State.putSequencer
  cases q
  · dsimp only
    split <;> rfl
  · rfl

/-- The memories of the tiles do not change with a sequencer. -/
theorem State.putSequencer_sram (q : SeqId) (x : Sequencer) (n : Nat) :
    ((s.putSequencer q x).tile n).sram = (s.tile n).sram ∧ ((s.putSequencer q x).tile n).bank = (s.tile n).bank := by
  unfold State.putSequencer
  cases q with
  | region c =>
    dsimp only
    split <;> exact ⟨rfl, rfl⟩
  | stream t =>
    by_cases h : n = t
    · subst h
      simp
    · simp [State.tile_putTile_of_ne _ _ _ _ h]

end Sys2Proof.Machine
end

