-- ==== Sys2Proof/Tests/Slice0.lean ====
section
/-! SUPPORT. The model's own tests: ill-formed terms, words written out from the spec's encodings, single steps with results
from the spec's worked examples, and for every statement with hypotheses states and operands that meet them. -/
namespace Sys2Proof.Tests
set_option Elab.async false
open Sys2Proof Sys2Proof.Machine

/-! ## Ill-formed terms: one for each check of 05 R66 to R84 -/

/-- An EA term whose optional fields are all zero. -/
def ea (d a b t : Nat) : EA :=
  { d := BitVec.ofNat 3 d, a := BitVec.ofNat 4 a, b := BitVec.ofNat 4 b, t := BitVec.ofNat 3 t, p := 0, n := 0, sat := 0,
    rm := 0, x := 0, extA := 0, extB := 0 }
def es (src port chan : Nat) : ES :=
  { port := BitVec.ofNat 2 port, chan := BitVec.ofNat 5 chan, ctx := 0, src := BitVec.ofNat 4 src, last := 0, keep := 0,
    mode := 0, flags := 0, ext := 0 }
def em (addr src size variant : Nat) : EM :=
  { addr := BitVec.ofNat 3 addr, src := BitVec.ofNat 4 src, size := BitVec.ofNat 3 size, mport := 0, chan := 0, scope := 0,
    variant := BitVec.ofNat 6 variant, ext := 0 }
def eg (port mode acc : Nat) : EG :=
  { port := BitVec.ofNat 2 port, mode := BitVec.ofNat 3 mode, accMode := BitVec.ofNat 3 acc, oport := 0, g := 0, mport := 0,
    width := 0, rsv := 0 }
def qa (d a b flags : Nat) : QA :=
  { d := BitVec.ofNat 4 d, a := BitVec.ofNat 4 a, b := BitVec.ofNat 4 b, flags := BitVec.ofNat 8 flags }
def qi (d a imm : Nat) : QI := { d := BitVec.ofNat 4 d, a := BitVec.ofNat 4 a, imm := BitVec.ofNat 14 imm }
def qb (a b off : Nat) : QB := { a := BitVec.ofNat 4 a, b := BitVec.ofNat 4 b, off := BitVec.ofNat 14 off }
def qe (a b c flags : Nat) : QE :=
  { sA := BitVec.ofNat 4 a, sB := BitVec.ofNat 4 b, sC := BitVec.ofNat 4 c, flags := BitVec.ofNat 10 flags }

/-- The checks of the element formats each refuse a term (05 R68 to R80). -/
theorem test_smoke_refused_element :
    (Instr.mov (ea 0 9 0 0)).check = some .selector ∧
    (Instr.add { ea 0 12 14 0 with x := 1 }).check = some .selector ∧
    (Instr.add { ea 0 14 1 0 with x := 6 }).check = some .specialCode ∧
    (Instr.add { ea 0 1 2 0 with x := 1 }).check = some .xField ∧
    (Instr.add (ea 0 0 13 6)).check = some .typeSet ∧
    (Instr.min { ea 0 1 2 0 with sat := 1 }).check = some .saturation ∧
    (Instr.add { ea 0 1 2 0 with rm := 1 }).check = some .rounding ∧
    (Instr.add { ea 0 1 2 0 with n := 1 }).check = some .predicate ∧
    (Instr.add { ea 0 1 2 0 with extA := 1 }).check = some .extension ∧
    (Instr.cmp 0 (ea 0 1 2 0)).check = some .operandField ∧
    (Instr.fcvt (ea 1 0 5 0)).check = some .selector ∧
    (Instr.send (es 12 0 0)).check = some .sourceField ∧
    (Instr.send { es 8 0 0 with mode := 2 }).check = some .colourMode ∧
    (Instr.send { es 8 0 0 with flags := 3 }).check = some .sendKind ∧
    (Instr.send { es 8 0 0 with flags := 8 }).check = some .flagsField ∧
    (Instr.mld (em 0 13 2 2)).check = some .variantField ∧
    (Instr.mld (em 0 13 6 0)).check = some .sizeField ∧
    (Instr.mld { em 0 13 2 0 with scope := 6 }).check = some .scopeField ∧
    (Instr.mst { em 0 8 2 8 with chan := 1 }).check = some .replyChannel ∧
    (Instr.segmac (eg 0 1 0)).check = some .tableMode ∧
    (Instr.segmac (eg 0 4 2)).check = some .accumulateMode ∧
    (Instr.segmac { eg 0 4 0 with oport := 1 }).check = some .operandPort ∧
    (Instr.segmac { eg 0 4 0 with g := 1 }).check = some .scaleField ∧
    (Instr.segmac { eg 0 4 0 with rsv := 1 }).check = some .reservedBits ∧
    (Instr.li 0 2 0x100).check = some .reservedBits := by decide

/-- So do the checks of the sequencer formats (05 R81 to R84). -/
theorem test_smoke_refused_sequencer :
    (Instr.sadd (qa 1 2 3 1)).check = some .registerField ∧
    (Instr.smov (qa 1 2 3 0)).check = some .registerField ∧
    (Instr.br 6 (qb 0 0 0)).check = some .registerField ∧
    (Instr.sld 7 (qi 1 2 0)).check = some .registerField ∧
    (Instr.bank (qa 0 1 0 3)).check = some .registerField ∧
    (Instr.copy (qe 1 2 3 0)).check = some .registerField ∧
    (Instr.cancel (qa 0 1 0 0)).check = some .registerField ∧
    (Instr.sfence (qi 0 0 6)).check = some .registerField ∧
    (Instr.push (qa 4 0 0 0)).check = some .registerField ∧
    (Instr.step (qa 0 1 0 3)).check = some .registerField := by decide

/-- The decoder refuses by name (05 R65, R67, R86). -/
theorem test_decode_refuses :
    decode [] = .error .truncated ∧
    decode [0xA0000000] = .error .reservedOpcode ∧
    decode [0xFC000000] = .error .reservedOpcode ∧
    decode [0xC0000C00] = .error .unusedFunction ∧
    decode [0x747800C0] = .error .unusedFunction ∧
    decode [0x0C06E000] = .error (.illFormed .typeSet) ∧
    decode [0x057E8000] = .error .truncated := by decide

/-! ## Words written out from the spec's encodings -/

/-- The words of 05 R85. -/
theorem test_decode_r85 :
    decode [0x044E8000] = .ok (.mov (ea 0 9 13 0), 1) ∧
    decode [0x90680008] = .ok (.accclr (em 0 13 0 8), 1) ∧
    decode [0x80800000] = .ok (.segmac (eg 0 4 0), 1) ∧
    decode [0x90680010] = .ok (.accst (em 0 13 0 16), 1) ∧
    decode [0xC6C01000] = .ok (.sli (qi 11 0 0x100), 1) ∧
    decode [0xCD88190B] = .ok (.sst 11 (qi 6 2 400), 1) ∧
    decode [0xD48C0000] = .ok (.copy (qe 2 3 0 0), 1) ∧
    decode [0xE40C0011] = .ok (.eywait (qi 0 3 1), 1) ∧
    decode [0x0D048420] = .ok (.add { ea 2 0 9 0 with p := 1, sat := 1 }, 1) ∧
    decode [0x0A00FFFD] = .ok (.li 4 0 0xFFFD, 1) ∧
    decode [0xC8917FFA] = .ok (.br 2 (qb 4 5 0x3FFA), 1) ∧
    decode [0x558E6A0A] = .ok (.fma { ea 3 1 12 6 with p := 2, n := 1, rm := 1, x := 2 }, 1) := by decide

/-- Lane words of 08 and 09. -/
theorem test_decode_lane_words :
    decode [0x08863FC0] = .ok (.li 1 6 0x3FC0, 1) ∧
    decode [0x30C60000] = .ok (.cmp 0 (ea 1 8 12 0), 1) ∧
    decode [0x34868400] = .ok (.sel { ea 1 0 13 0 with p := 1 }, 1) ∧
    decode [0x3886A020] = .ok (.cvt 0 { ea 1 0 13 2 with sat := 1 }, 1) ∧
    decode [0x450E8040] = .ok (.scan 1 (ea 2 1 13 0), 1) ∧
    decode [0x418E8000] = .ok (.red 0 (ea 3 1 13 0), 1) ∧
    decode [0x49890000] = .ok (.pand (ea 3 1 2 0), 1) ∧
    decode [0x49000080] = .ok (.pnot (ea 2 0 0 0), 1) ∧
    decode [0x48A680C0] = .ok (.pset (ea 1 4 13 0), 1) ∧
    decode [0x6446E080] = .ok (.fred 2 (ea 0 8 13 6), 1) ∧
    decode [0x4CC06040] = .ok (.fsub (ea 1 8 0 6), 1) ∧
    decode [0x610EE080] = .ok (.fexp2 (ea 2 1 13 6), 1) ∧
    decode [0x6A00E040] = .ok (.cmad (ea 4 0 1 6), 1) := by decide

/-- Segment and table words of 10 R155, and the send and memory words of 13 R197, 09 and 22. -/
theorem test_decode_segment_and_memory_words :
    decode [0x80A50C00] = .ok (.segmac { eg 0 5 1 with oport := 1, g := 3 }, 1) ∧
    decode [0x82802000] = .ok (.segden (eg 2 4 0), 1) ∧
    decode [0x84600000] = .ok (.drow (eg 0 3 0), 1) ∧
    decode [0x88850000] = .ok (.bwdot { eg 0 4 1 with oport := 1 }, 1) ∧
    decode [0x88A02800] = .ok (.diff { eg 0 5 0 with g := 2 }, 1) ∧
    decode [0x8C810200] = .ok (.seggrad { eg 0 4 0 with oport := 1, mport := 2 }, 1) ∧
    decode [0x90688600] = .ok (.accout { em 0 13 0 0 with mport := 2, chan := 3 }, 1) ∧
    decode [0x916C4A51] = .ok (.accst { em 2 13 4 17 with mport := 1, chan := 5, scope := 1 }, 1) ∧
    decode [0x94090000] = .ok (.twr (ea 0 1 2 0), 1) ∧
    decode [0x95FE8040, 5] = .ok (.trd { ea 3 15 13 0 with extA := 5 }, 2) ∧
    decode [0x987E8002, 0x3F800000] = .ok (.scl { ea 0 15 13 0 with x := 2, extA := 0x3F800000 }, 2) ∧
    decode [0x98EE8042] = .ok (.sclrd { ea 1 13 13 0 with x := 2 }, 1) ∧
    decode [0x6C085000] = .ok (.send (es 5 0 1), 1) ∧
    decode [0x7B3C0048] = .ok (.mst { em 6 7 4 8 with scope := 1 }, 1) := by decide

/-- Sequencer words of 13, 16 R259, 17, 21 R328, 22, 24 and 25 R398. -/
theorem test_decode_sequencer_words :
    decode [0xC2880B00] = .ok (.smov (qa 10 2 0 0), 1) ∧
    decode [0xC9D03FFD] = .ok (.loop (qb 4 0 0x3FFD), 1) ∧
    decode [0xC9800001] = .ok (.jmp (qb 0 0 1), 1) ∧
    decode [0xCC840003] = .ok (.sld 3 (qi 2 1 0), 1) ∧
    decode [0xD00C0205] = .ok (.run (qa 0 3 0 5), 1) ∧
    decode [0xD0000300] = .ok (.waitq (qa 0 0 0 0), 1) ∧
    decode [0xD48D0001] = .ok (.copy (qe 2 3 4 1), 1) ∧
    decode [0xD48C0400] = .ok (.gather (qe 2 3 0 0), 1) ∧
    decode [0xD4001000] = .ok (.waitseq (qe 0 0 0 0), 1) ∧
    decode [0xD8001400] = .ok (.epi (qe 0 0 0 0), 1) ∧
    decode [0xDC000400] = .ok (.popt (qe 0 0 0 0), 1) := by decide

/-- Task, synchronisation, collective, power, supervisor and debug words. -/
theorem test_decode_task_words :
    decode [0xE0100000] = .ok (.spawn (qa 0 4 0 0), 1) ∧
    decode [0xE159C100] = .ok (.decl (qa 5 6 7 0), 1) ∧
    decode [0xE0140303] = .ok (.cancel (qa 0 5 0 3), 1) ∧
    decode [0xE1900400] = .ok (.split (qa 6 4 0 0), 1) ∧
    decode [0xE54C0002] = .ok (.eyset (qi 5 3 0), 1) ∧
    decode [0xE4000013] = .ok (.sfence (qi 0 0 1), 1) ∧
    decode [0xE9140000] = .ok (.car (qe 4 5 0 0), 1) ∧
    decode [0xF0080000] = .ok (.permit (qa 0 2 0 0), 1) ∧
    decode [0xF4114000] = .ok (.tlbinv (qa 0 4 5 0), 1) ∧
    decode [0xF5940200] = .ok (.ctxsave (qa 6 5 0 0), 1) ∧
    decode [0xF8000007] = .ok (.sbrk (qa 0 0 0 7), 1) ∧
    decode [0xF80C0101] = .ok (.step (qa 0 3 0 1), 1) := by decide

/-- Encoding gives those words back, extension words behind them. -/
theorem test_encode_words :
    encode (.fma { ea 3 1 12 6 with p := 2, n := 1, rm := 1, x := 2 }) = [0x558E6A0A] ∧
    encode (.scl { ea 0 15 13 0 with x := 2, extA := 0x3F800000 }) = [0x987E8002, 0x3F800000] ∧
    encode (.br 2 (qb 4 5 0x3FFA)) = [0xC8917FFA] ∧
    encode (.accst { em 2 13 4 17 with mport := 1, chan := 5, scope := 1 }) = [0x916C4A51] ∧
    encode (.drop { es 8 0 0 with flags := 0x40 }) = [0x74008040] := by decide

/-- A table word is laid out with bit 0 as the least significant bit of the first word (00 R2). -/
theorem test_decode_table_word :
    decodeTableWord 32 0x0A00FFFD = some (.li 4 0 0xFFFD) ∧
    decodeTableWord 64 (0x3F800000 * 2 ^ 32 + 0x987E8002) = some (.scl { ea 0 15 13 0 with x := 2, extA := 0x3F800000 }) := by
  decide

/-! ## One instruction in a block: the results of 08 R138 and 09 R151 -/

/-- A machine in which element 0 executes a block, on its way with some temporaries. -/
def inElement (x : Element) (b : Block) : State :=
  { State.reset with focus := .element 0, elements := [(0, { x with block := some b })] }
def inBlockOf (b : Block) : State := inElement {} b
/-- A block whose temporaries t0, t1 and t2 begin with the numbers given, their other bits zero. -/
def blockWith (a b d : Nat) : Block :=
  { temps := [(0, BitVec.ofNat 2048 a), (1, BitVec.ofNat 2048 b), (2, BitVec.ofNat 2048 d)] }

/-- The block of element 0 behind a step. -/
def blockAfter : Host.Outcome State Fault Refusal → Option Block
  | .next s => (s.element 0).block
  | _ => none
/-- Lane 0 of t2, of width w, and the events that an instruction leaves. -/
def lane0 (i : Instr) (w a b d : Nat) : Option (Nat × Word) :=
  (blockAfter (exec i (inBlockOf (blockWith a b d)))).map fun k => (laneNat (k.temp 2) w 0, k.events)

/-- The operands t2, t0, t1 of type t. -/
def o3 (t : Nat) : EA := ea 2 0 1 t
def o3s (t : Nat) : EA := { ea 2 0 1 t with sat := 1 }
/-- The operands t2 and t0. -/
def o2 (t : Nat) : EA := ea 2 0 13 t

theorem test_add_wraps_and_clamps :
    lane0 (.add (o3 2)) 8 100 100 0 = some (200, 0) ∧ lane0 (.add (o3s 2)) 8 100 100 0 = some (127, evVsat) := by
  decide +kernel
theorem test_sub_clamps_unsigned :
    lane0 (.sub (o3 5)) 8 3 5 0 = some (254, 0) ∧ lane0 (.sub (o3s 5)) 8 3 5 0 = some (0, evVsat) := by decide +kernel
theorem test_mad_adds_the_old_destination :
    lane0 (.mad (o3 2)) 8 10 3 100 = some (130, 0) ∧ lane0 (.mad (o3s 2)) 8 10 3 100 = some (127, evVsat) := by decide +kernel
theorem test_mul_and_mulh :
    lane0 (.mul (o3 1)) 16 300 300 0 = some (24464, 0) ∧ lane0 (.mul (o3s 1)) 16 300 300 0 = some (32767, evVsat) ∧
    lane0 (.mulh (o3 1)) 16 300 300 0 = some (1, 0) ∧ lane0 (.mulh (o3 1)) 16 0xFFFF 1 0 = some (0xFFFF, 0) ∧
    lane0 (.mulh (o3 5)) 8 200 200 0 = some (156, 0) := by decide +kernel
theorem test_min_and_max_by_type :
    lane0 (.min (o3 2)) 8 0xFF 1 0 = some (0xFF, 0) ∧ lane0 (.min (o3 5)) 8 0xFF 1 0 = some (1, 0) ∧
    lane0 (.max (o3 2)) 8 0xFF 1 0 = some (1, 0) := by decide +kernel
theorem test_abs_and_neg :
    lane0 (.abs (o2 0)) 32 (2 ^ 31) 0 0 = some (2 ^ 31, 0) ∧
    lane0 (.abs { o2 0 with sat := 1 }) 32 (2 ^ 31) 0 0 = some (2 ^ 31 - 1, evVsat) ∧
    lane0 (.neg (o2 5)) 8 5 0 0 = some (251, 0) ∧ lane0 (.neg { o2 5 with sat := 1 }) 8 5 0 0 = some (0, evVsat) := by
  decide +kernel
theorem test_logic :
    lane0 (.and (o3 5)) 8 0xCC 0xAA 0 = some (0x88, 0) ∧ lane0 (.or (o3 5)) 8 0xCC 0xAA 0 = some (0xEE, 0) ∧
    lane0 (.xor (o3 5)) 8 0xCC 0xAA 0 = some (0x66, 0) ∧ lane0 (.andn (o3 5)) 8 0xCC 0xAA 0 = some (0x44, 0) ∧
    lane0 (.orn (o3 5)) 8 0xCC 0xAA 0 = some (0xDD, 0) ∧ lane0 (.xnor (o3 5)) 8 0xCC 0xAA 0 = some (0x99, 0) := by
  decide +kernel
theorem test_shifts_at_and_beyond_the_width :
    lane0 (.shl (o3 2)) 8 1 9 0 = some (0, 0) ∧ lane0 (.shl (o3 2)) 8 64 1 0 = some (128, 0) ∧
    lane0 (.sar (o3 2)) 8 128 9 0 = some (255, 0) ∧ lane0 (.rol (o3 5)) 8 0x81 9 0 = some (3, 0) ∧
    lane0 (.shr (o3 4)) 16 0x8000 15 0 = some (1, 0) := by decide +kernel
theorem test_counts :
    lane0 (.clz (o2 0)) 32 0 0 0 = some (32, 0) ∧ lane0 (.clz (o2 5)) 8 1 0 0 = some (7, 0) ∧
    lane0 (.popc (o2 1)) 16 0xFFFF 0 0 = some (16, 0) := by decide +kernel
theorem test_cvt_wraps_and_clamps :
    lane0 (.cvt 0 (o2 2)) 8 300 0 0 = some (44, 0) ∧ lane0 (.cvt 0 { o2 2 with sat := 1 }) 8 300 0 0 = some (127, evVsat) ∧
    lane0 (.cvt 2 (o2 5)) 8 0xFF 0 0 = some (255, 0) ∧ lane0 (.cvt 2 { o2 5 with sat := 1 }) 8 0xFF 0 0 = some (0, evVsat) := by
  decide +kernel
theorem test_pack_and_unpack :
    lane0 (.pack { o3 5 with sat := 1 }) 8 0xFFFB 0 0 = some (0, evVsat) ∧
    lane0 (.unpackLo (o2 1)) 16 0x80 0 0 = some (0xFF80, 0) ∧ lane0 (.unpackHi (o2 4)) 16 (2 ^ 1024 * 0x80) 0 0 = some (0x80, 0) := by
  decide +kernel
/-- 08 R138: sixty-four active lanes of 3, the lanes that bits 0 to 31 of p1 govern. -/
theorem test_red_clamps_once :
    (blockAfter (exec (.red 0 { o2 2 with p := 1, sat := 1 })
      (inBlockOf { temps := [(0, broadcast 8 3)], preds := [(1, 0xFFFFFFFF)] }))).map
      (fun k => (laneNat (k.temp 2) 8 0, laneNat (k.temp 2) 8 64, k.events)) = some (127, 0, evVsat) := by decide +kernel

/-- The block of 08 that counts and places: lanes 0 to 7 of in0 hold 2, 0, 2, 1, 2, 3, 0, 2 and k0 is 2. -/
def counting : Block :=
  { operands := [(0, { port := 0, order := 0, since := 0, token :=
      { data := BitVec.ofNat 2048 (packLanes 32 ([2, 0, 2, 1, 2, 3, 0, 2] ++ List.replicate 56 3)) } })] }
theorem test_cmp_writes_selected_bits :
    (blockAfter (exec (.cmp 0 (ea 1 8 12 0)) (inElement { scales := [(0, 2)] } counting))).map (fun k => k.pred 1) =
      some 0x95 := by decide +kernel
theorem test_sel_and_scan :
    (blockAfter (exec (.sel { ea 1 0 13 0 with p := 1 })
      (inBlockOf { temps := [(0, broadcast 32 1)], preds := [(1, 0x95)] }))).map (fun k =>
        (List.range 8).map (laneNat (k.temp 1) 32)) = some [1, 0, 1, 0, 1, 0, 0, 1] ∧
    (blockAfter (exec (.scan 1 (ea 2 1 13 0)) (inBlockOf
      { temps := [(1, BitVec.ofNat 2048 (packLanes 32 [1, 0, 1, 0, 1, 0, 0, 1]))] }))).map (fun k =>
        (List.range 9).map (laneNat (k.temp 2) 32)) = some [0, 1, 1, 2, 2, 3, 3, 3, 4] := by decide +kernel
theorem test_shuf_bcast_lrot :
    lane0 (.shuf (o3 5)) 8 0x0102030405060708 3 0 = some (5, 0) ∧ lane0 (.bcast (o3 5)) 8 0x04030201 258 0 = some (3, 0) ∧
    lane0 (.lrot (o3 5)) 8 0x04030201 1 0 = some (2, 0) := by decide +kernel
theorem test_predicates :
    (blockAfter (exec (.pand (ea 3 1 2 0)) (inBlockOf { preds := [(1, 12), (2, 10)] }))).map (·.pred 3) = some 8 ∧
    (blockAfter (exec (.por (ea 3 1 2 0)) (inBlockOf { preds := [(1, 12), (2, 10)] }))).map (·.pred 3) = some 14 ∧
    (blockAfter (exec (.pnot (ea 2 0 0 0)) (inBlockOf { preds := [(2, 10)] }))).map (·.pred 2) = some 0 ∧
    (blockAfter (exec (.pset (ea 1 0 13 7)) (inBlockOf { temps := [(0, 0x800000017F81)] }))).map (·.pred 1) = some 3 := by
  decide +kernel
theorem test_li_and_special_lanes :
    (blockAfter (exec (.li 4 0 0xFFFD) (inBlockOf {}))).map (fun k => laneNat (k.temp 4) 32 63) = some 0xFFFFFFFD ∧
    (blockAfter (exec (.mov (ea 3 14 13 2)) (inBlockOf {}))).map (fun k => laneNat (k.temp 3) 8 200) = some 200 ∧
    (blockAfter (exec (.mov { ea 3 14 13 7 with x := 1 }) (inBlockOf { colour := 257 }))).map
      (fun k => laneNat (k.temp 3) 16 0) = some 0x4380 := by decide +kernel

/-- FADD, FSUB and FMUL at the edges of 09 R151. -/
theorem test_fadd_fsub_fmul :
    lane0 (.fadd (o3 6)) 32 0x7F7FFFFF 0x7F7FFFFF 0 = some (0x7F800000, evVof) ∧
    lane0 (.fadd { o3 6 with rm := 1 }) 32 0x7F7FFFFF 0x7F7FFFFF 0 = some (0x7F7FFFFF, evVof) ∧
    lane0 (.fadd (o3 6)) 32 0x7F800000 0xFF800000 0 = some (0x7FC00000, evVnv) ∧
    lane0 (.fsub { o3 6 with rm := 2 }) 32 0x3F800000 0x3F800000 0 = some (0x80000000, 0) ∧
    lane0 (.fmul (o3 6)) 32 0x0D800000 0x0D800000 0 = some (0, 0) ∧
    lane0 (.fmul (o3 7)) 16 0x3F81 0x3F81 0 = some (0x3F82, 0) := by decide +kernel
theorem test_fma_rounds_once :
    lane0 (.fma (o3 6)) 32 0x3F800800 0x3F800800 0xBF800000 = some (0x3A000400, 0) ∧
    lane0 (.fma (o3 6)) 32 0 0x7F800000 0x7FC00000 = some (0x7FC00000, evVnv) ∧
    lane0 (.fms (o3 6)) 32 0x40000000 0x40400000 0x3F800000 = some (0x40A00000, 0) ∧
    lane0 (.fnma (o3 6)) 32 0x40000000 0x40400000 0x3F800000 = some (0xC0A00000, 0) := by decide +kernel
theorem test_fmin_fmax_fabs_fneg :
    lane0 (.fmin (o3 6)) 32 0x80000000 0 0 = some (0x80000000, 0) ∧
    lane0 (.fmax (o3 6)) 32 0x7F800001 0x3F800000 0 = some (0x3F800000, evVnv) ∧
    lane0 (.fmax (o3 6)) 32 0x7FC00000 0x3F800000 0 = some (0x3F800000, 0) ∧
    lane0 (.fneg (o2 6)) 32 0x7FC01234 0 0 = some (0x7FC00000, 0) ∧
    lane0 (.fabs (o2 6)) 32 0x80000001 0 0 = some (1, 0) := by decide +kernel
theorem test_fcmp :
    (blockAfter (exec (.fcmp 2 (ea 1 0 1 6)) (inBlockOf (blockWith 0x7FC00000 0x3F800000 0)))).map
      (fun k => ((k.pred 1).getLsbD 0, k.events)) = some (false, evVnv) ∧
    (blockAfter (exec (.fcmp 6 (ea 1 0 1 6)) (inBlockOf (blockWith 0x7FC00000 0x3F800000 0)))).map
      (fun k => ((k.pred 1).getLsbD 0, k.events)) = some (true, 0) ∧
    (blockAfter (exec (.fcmp 0 (ea 1 0 1 6)) (inBlockOf (blockWith 0x80000000 0 0)))).map
      (fun k => (k.pred 1).getLsbD 0) = some true := by decide +kernel
theorem test_special_functions :
    lane0 (.frcp (o2 6)) 32 0x80000000 0 0 = some (0xFF800000, 0) ∧
    lane0 (.frcp { o2 6 with p := 1 }) 32 0x40300000 0 7 = some (7, 0) ∧
    lane0 (.frsq (o2 6)) 32 0xBF800000 0 0 = some (0x7FC00000, evVnv) := by decide +kernel
theorem test_special_functions_exact :
    specialFn 0 0x40300000 = (0x3EBA2E8C, 0) ∧ specialFn 2 0x43000000 = (0x7F800000, evVof) ∧
    specialFn 2 0xC0000000 = (0x3E800000, 0) ∧ specialFn 3 0x41000000 = (0x40400000, 0) ∧
    specialFn 4 0xC1200000 = (0xBF800000, 0) := by decide +kernel
theorem test_fcvt :
    lane0 (.fcvt { ea 2 0 1 0 with b := 1 }) 16 0x3F808000 0 0 = some (0x3F80, 0) ∧
    lane0 (.fcvt { ea 2 0 1 0 with b := 1 }) 16 0x3F818000 0 0 = some (0x3F82, 0) ∧
    lane0 (.fcvt { ea 2 0 2 0 with b := 2 }) 8 0x43EB0000 0 0 = some (0x7E, evVsat) ∧
    lane0 (.fcvt { ea 2 0 2 0 with b := 2, rm := 1 }) 8 0x43EB0000 0 0 = some (0x7E, 0) := by decide +kernel
theorem test_fred :
    lane0 (.fred 0 (o2 6)) 32 0xFF8000007F800000 0 0 = some (0x7FC00000, evVnv) ∧
    lane0 (.fred 0 (o2 6)) 32 (packLanes 32 [0x3F800000, 0x3E800000, 0x3F000000, 0x3F800000]) 0 0 =
      some (0x40300000, 0) := by decide +kernel
theorem test_cmul_and_cmad :
    (blockAfter (exec (.cmul (o3 6)) (inBlockOf (blockWith 0x400000003F800000 0x4080000040400000 0)))).map
      (fun k => (laneNat (k.temp 2) 32 0, laneNat (k.temp 2) 32 1)) = some (0xC0A00000, 0x41200000) ∧
    lane0 (.cmad (o3 6)) 32 0x400000003F800000 0x4080000040400000 0x40A00000 = some (0, 0) := by decide +kernel

/-! ## The segment unit: the train of 10 R159 on column 0 of the original table of program 1 -/

/-- A table store whose column 0 holds S[1] to S[8]: 1, 3, 0, 1, 3, 2, 2, 6. -/
def originalColumn : Element :=
  { table := [(0, 1), (1, 3), (3, 1), (4, 3), (5, 2), (6, 2), (7, 6)] }
def operandOf (v : Nat) : Block := { operands := [(0, { port := 0, order := 0, since := 0, token :=
  { kind := .data, vector := true, data := BitVec.ofNat 2048 v } })] }
/-- Accumulator 0 and whether the cursor is open behind an instruction. -/
def acc0 (r : Host.Outcome State Fault Refusal) : Option (Int × Bool) :=
  (blockAfter r).map fun k => (signedOf 64 (k.acc.toNat % 2 ^ 64), k.cursor.isOpen)

theorem test_segmac_train :
    acc0 (exec (.segmac (eg 0 4 0)) (inElement originalColumn
      (operandOf (packLanes 32 [3, 0x80010005, 0x80010202, 0xC00106FD])))) = some (-1, false) := by decide +kernel
theorem test_segden_row :
    acc0 (exec (.segden (eg 0 4 0)) (inElement originalColumn
      (operandOf (packLanes 8 [5, 5, 2, 2, 0, 0, 0xFD, 0xFD])))) = some (-1, false) := by decide +kernel
/-- A header that is no header: reason 7 at word 0 (10 R158). -/
theorem test_segmac_fault_holds_the_context :
    (match exec (.segmac (eg 0 4 0)) (inElement originalColumn (operandOf 0x80000000)) with
     | .next s => ((s.element 0).block, ((s.element 0).ctxOf 0).held.map fun h => (h.info.code, h.info.detail, h.info.position))
     | _ => (some {}, none)) = (none, some (0x40, 7, 0)) := by decide +kernel
/-- DIFF of the P of 03 R41 gives the input gradient. -/
theorem test_trd_and_scl :
    (blockAfter (exec (.trd { ea 3 15 13 0 with extA := 7 }) (inElement originalColumn {}))).map (fun k => k.temp 3) =
      some 6 ∧
    (blockAfter (exec (.scl { ea 0 15 13 0 with x := 2, extA := 0x3F800000 }) (inBlockOf {}))).map (fun k => k.effects) =
      some [.scale 2 0x3F800000] := by decide +kernel
/-- 07 R98, 10 R169: SCL names a register of the scale set of its context, and commit writes it. -/
theorem test_scl_names_the_set_of_its_context :
    (blockAfter (exec (.scl { ea 0 15 13 0 with x := 3, extA := 0x3F800000 })
      (inElement { ctxs := [(0, { word := 0x10000 })] } {}))).map (fun k => k.effects) = some [.scale 19 0x3F800000] ∧
    ((commitBlock State.reset 0 { effects := [.scale 19 0x3F800000] }).element 0).scales = [(19, 0x3F800000)] := by
  decide +kernel

/-- 23 R370: the pair and the count of package 0's S; a pair that differs is found out. -/
theorem test_csum_and_csver :
    (blockAfter (exec (.csum (ea 0 8 13 0)) (inBlockOf (operandOf (packLanes 32 [0x3F800000, 0x40400000, 0, 0x40800000]))))).map
      (fun k => (vecNat (k.temp 0) 0 8, vecNat (k.temp 0) 8 8, vecNat (k.temp 0) 16 4)) =
        some (0xC0400000, 0x1C2000000, 64) ∧
    (blockAfter (exec (.csver (ea 1 8 0 0)) (inBlockOf { operandOf (packLanes 32 [0x3F800000, 0x40400000, 1, 0x40800000]) with
      temps := [(0, BitVec.ofNat 2048 (2 ^ 256 * 0xC0400000 + 2 ^ 320 * 0x1C2000000))] }))).map
      (fun k => (vecNat (k.temp 1) 20 4, vecNat (k.temp 1) 0 8, vecNat (k.temp 1) 8 8)) =
        some (0, 0xC0400001, 0x1C2000003) := by decide +kernel

/-- The clicker on the rows of program 1 and of 03 R36. -/
theorem test_click_chunk :
    (clickChunk true false 64 2 0 ((([-3, -1, -2, 5, 6, 0, 0, 1] : List Int).map (BitVec.ofInt 8)) ++ List.replicate 248 0)) =
      { words := [2, 0x800200FE, 0xC0010305], segments := 2, elided := 1, err := 4, dense := 0 } := by decide +kernel
theorem test_click_chunk_exact :
    (clickChunk true false 64 0 0 ([12, 12, 13, 11, 40, 41, 40] ++ List.replicate 249 0)).words =
      [6, 0x8001000C, 0x8000020D, 0x8000030B, 0x80000428, 0x80000529, 0xC0000628] := by decide +kernel

/-! ## Exceptions, sends and memory -/

theorem test_brk_takes_its_exception :
    (match exec (.brk 7) (inBlockOf { colour := 3, operands := [(0, { port := 0, token := {}, order := 5, since := 0 })] }) with
     | .next s => (s.focus, (s.element 0).block, ((s.element 0).ctxOf 0).held)
     | _ => (.none, none, none)) =
      (.none, none, some { info := { code := 0x70, operand := 7 }, operands := [5] }) := by decide +kernel
theorem test_send_and_keep :
    (blockAfter (exec (.send { es 0 2 7 with last := 1 }) (inBlockOf { temps := [(0, 9)], colour := 4, iter := 6 }))).map
      (·.effects) = some [.send 2 { kind := .last, vector := true, chan := 7, colour := 4, iter := 6, data := 9 }] ∧
    (blockAfter (exec (.keep { es 9 0 0 with flags := 0x80 }) (inBlockOf {}))).map (·.keeps) = some [(1, true)] := by
  decide +kernel
/-- 23 R355: a destination with a reserved bit is found at execution. -/
theorem test_sendr_destination :
    (match exec (.sendr (es 0 0 0)) (inBlockOf { temps := [(0, BitVec.ofNat 2048 (2 ^ 44))] }) with
     | .next s => ((s.element 0).ctxOf 0).held.map (·.info.code)
     | _ => none) = some 0x42 := by decide +kernel

/-! ## Sequencers -/

/-- A region of two by two tiles at tiles (2, 1) to (3, 2), whose anchor is a memory tile, with a program of one step. -/
def regionOf (x : Sequencer) : Activation :=
  { colour := 1, x0 := 2, y0 := 1, phase := .running, seq := { x with running := true } }
def inRegion (a : Activation) : State :=
  { State.reset with focus := .sequencer (.region 1), activations := [(1, a)] }
def stepWith (regs : Tab DWord) (r : StepRun) : Sequencer :=
  { regs := regs, program := { steps := [{ first := 0, length := 4 }, { first := 4, length := 1 }] }, step := some r }
/-- The sequencer of the region behind an instruction. -/
def seqAfter : Host.Outcome State Fault Refusal → Option Sequencer
  | .next s => s.sequencer (.region 1)
  | _ => none

theorem test_salu_wraps :
    (seqAfter (exec (.sadd (qa 3 1 2 0)) (inRegion (regionOf (stepWith [(1, 0xFFFFFFFFFFFFFFFF), (2, 2)] {}))))).map (·.reg 3) =
      some 1 ∧
    (seqAfter (exec (.ssar (qa 3 1 2 0)) (inRegion (regionOf (stepWith [(1, 0x8000000000000000), (2, 64)] {}))))).map (·.reg 3) =
      some 0xFFFFFFFFFFFFFFFF ∧
    (seqAfter (exec (.sshl (qa 3 1 2 0)) (inRegion (regionOf (stepWith [(1, 1), (2, 64)] {}))))).map (·.reg 3) = some 0 := by
  decide +kernel
theorem test_slih_shifts_by_fourteen :
    (seqAfter (exec (.slih (qi 3 1 0x3FFF)) (inRegion (regionOf (stepWith [(1, 1)] {}))))).map (·.reg 3) = some 0x7FFF ∧
    (seqAfter (exec (.sli (qi 3 0 0x3FFF)) (inRegion (regionOf (stepWith [] {}))))).map (·.reg 3) =
      some 0xFFFFFFFFFFFFFFFF ∧
    (seqAfter (exec (.sli (qi 0 0 5)) (inRegion (regionOf (stepWith [] {}))))).map (·.reg 0) = some 0 := by decide +kernel
/-- 13 R204: LOOP at zero wraps and is taken; BR to the first word of another step ends the step. -/
theorem test_loop_and_br :
    (seqAfter (exec (.loop (qb 1 0 2)) (inRegion (regionOf (stepWith [] {}))))).map (fun x => (x.reg 1, x.step.map (·.word))) =
      some (0xFFFFFFFFFFFFFFFF, some 2) ∧
    (seqAfter (exec (.loop (qb 1 0 2)) (inRegion (regionOf (stepWith [(1, 1)] {}))))).map
      (fun x => (x.reg 1, x.step.map (·.word))) = some (0, some 1) ∧
    (seqAfter (exec (.br 2 (qb 1 2 3)) (inRegion (regionOf (stepWith [(1, 0xFFFFFFFFFFFFFFFF)] { word := 1 }))))).map
      (fun x => x.step.map (·.ended)) = some (some (some (.branch 1))) := by decide +kernel
/-- A branch to no step, and a QSYS instruction outside ASID 0, are illegal (05 R67, R84). -/
theorem test_illegal_instructions :
    (seqAfter (exec (.jmp (qb 0 0 5)) (inRegion (regionOf (stepWith [] {}))))).map (fun x => x.held.map (·.info.code)) =
      some (some 0x11) ∧
    (seqAfter (exec (.tlbinv (qa 0 1 2 0)) (inRegion { regionOf (stepWith [] {}) with entry := { asid := 1 } }))).map
      (fun x => x.held.map fun h => (h.info.code, h.info.flags)) = some (some (0x11, 4)) := by decide +kernel
/-- An exception undoes the step's register writes (13 R199). -/
theorem test_step_exception_restores_registers :
    (seqAfter (exec (.cancel (qa 0 1 0 1)) (inRegion (regionOf (stepWith [(1, 65536)] { saved := [(1, 7)] }))))).map
      (fun x => (x.reg 1, x.held.map (·.info.code))) = some (7, some 0x63) := by decide +kernel
theorem test_copy_and_done :
    (seqAfter (exec (.copy (qe 2 3 4 1)) (inRegion (regionOf (stepWith [(2, 64), (3, 128), (4, 192)] {}))))).map
      (fun x => x.step.map (·.effects)) = some (some [.append
        { engine := 0, fn := 0, flags := 1, parameter := 64, eyelet := 128, auxiliary := 0, activation := 192 } 0]) ∧
    (seqAfter (exec (.done (qa 0 0 0 0)) (inRegion (regionOf (stepWith [] {}))))).map (fun x => x.step.map (·.ended)) =
      some (some (some .finished)) := by decide +kernel

/-- The bytes of a number, the most significant first, as the standards print them. -/
def bigBytes (n v : Nat) : List Byte := (leBytes n v).reverse
/-- FIPS 180-4: the digest of the message of the three letters abc. -/
theorem test_sha512 : sha512 [0x61, 0x62, 0x63] = bigBytes 64
    0xDDAF35A193617ABACC417349AE20413112E6FA4E89A97EA20A9EEEE64B55D39A2192992A274FC1A836BA3C23A3FEEBBD454D4423643CE80E2A9AC94FA54CA49F := by
  decide +kernel
/-- RFC 8032, 7.1, test 1: the public key and the signature of the empty message. -/
theorem test_ed25519 :
    let seed : BitVec 256 := BitVec.ofNat 256 (natOfBytes (bigBytes 32 0x9D61B19DEFFD5A60BA844AF492EC2CC44449C5697B326919703BAC031CAE7F60))
    let key : BitVec 256 := BitVec.ofNat 256 (natOfBytes (bigBytes 32 0xD75A980182B10AB7D54BFED3C964073A0EE172F3DAA62325AF021A68F707511A))
    let sig := bigBytes 64 (
      0xE5564300C360AC729086E2CC806E828A84877F1EB8E5D974D873E06522490155 * 2 ^ 256 +
      0x5FB8821590A33BACC61E39701CF9B46BD25BF5F0595BBE24655141438E7A100B)
    edPublic seed = key ∧ edSign seed [] = sig ∧ edVerifies key sig [] = true ∧ edVerifies key sig [0] = false := by decide +kernel

/-! ## States and operands that meet the hypotheses of the statements

Each theorem `witness_<Name>` is about the statement of that name and shows, clause by clause, that its hypotheses can be met. -/

/-- A package whose ASID 0 maps the low two gibibytes onto themselves, the second one full-empty, with every part ready. -/
def mapped : State :=
  { State.reset with
    memory := { mem := [(0x1000, 0x01), (0x1001, 0x20), (0x2000, 0x1F), (0x2008, 0x9F), (0x200B, 0x40)] },
    host := { xs1 := [(0, 0x1001)], xs2 := [(0, 3)], rdys := BitVec.allOnes 64, rdyt := (List.range 112).map fun i => (i, 0xFFFFFFF) } }
/-- Records that declare the low gigabytes for every use. -/
def declared : List RegionRecord := [{ base := 0, extent := 2 ^ 32, mode := 2 }]
/-- Activation 1 of ASID 0 on the region of two by two tiles at (2, 1). -/
def running1 : Activation := { regionOf {} with records := declared }
/-- A block of element 0 in that package; `t0` holds an address. -/
def addressing (a : Nat) : Block := { temps := [(0, BitVec.ofNat 2048 a)], colour := 1 }
def inMapped (b : Block) : State :=
  { mapped with focus := .element 0, elements := [(0, { block := some b })], activations := [(1, running1)] }
/-- The leaf that an address of the package leads to. -/
def leafAt (a : Nat) : Leaf := { pa := a, mtype := .cached, fullEmpty := decide (2 ^ 30 ≤ a), perms := 7, ipa := a, span := 30 }
/-- A sequencer of that activation in a step. -/
def stepping (x : Sequencer) : State :=
  { mapped with focus := .sequencer (.region 1), activations := [(1, { running1 with seq := x })] }

/-- Any block that an element executes: the hypothesis of the statements about lanes, floats, predicates, sends and tables. -/
theorem witness_block : RunsBlock (inMapped (addressing 0)) 0 (addressing 0) := ⟨rfl, rfl⟩
/-- Any step that a region sequencer, or a stream sequencer, executes. -/
theorem witness_step :
    RunsRegion (stepping (stepWith [] {})) 1 { running1 with seq := stepWith [] {} } (stepWith [] {}) {} ∧
    RunsStep { mapped with focus := .sequencer (.stream 0x430), tiles := [(0x430, { stream := stepWith [] {} })],
                           activations := [(1, running1)] } (.stream 0x430) running1 (stepWith [] {}) {} :=
  ⟨⟨rfl, rfl, rfl, rfl⟩, ⟨rfl, by decide +kernel, rfl, rfl⟩⟩

theorem witness_DecodeEncodeRoundTrip :
    (Instr.scl { ea 0 15 13 0 with x := 7, extA := 0xFFFFFFFF }).isWord = true ∧
    (Instr.scl { ea 0 15 13 0 with x := 7, extA := 0xFFFFFFFF }).check = none ∧
    (Instr.br 5 (qb 15 15 0x3FFF)).isWord = true ∧ (Instr.br 5 (qb 15 15 0x3FFF)).check = none := by decide
theorem witness_DecodedInstructionsAreLegal : decode (0x987E8002 :: [0x3F800000]) =
    .ok (.scl { ea 0 15 13 0 with x := 2, extA := 0x3F800000 }, 2) := by decide
theorem witness_StepRunsTheDecodedInstruction :
    let b : Block := { word := 1022 }
    let x : Element := { code := [(1022, 0x08863FC0)], block := some b }
    let s : State := { State.reset with focus := .element 0, elements := [(0, x)] }
    let y (w : Word) : Sequencer := { stepWith [] {} with program := { steps := [{ first := 0, length := 1 }], code := [(0, w)] } }
    (s.halted = false ∧ s.agenda = [] ∧ RunsBlock s 0 b ∧ blockOpen x b = true ∧ b.asNop ≠ some b.word ∧
      decode (blockWords x b) = .ok (.li 1 6 0x3FC0, 1)) ∧
    RunsRegion (stepping (y 0xC2880B00)) 1 { running1 with seq := y 0xC2880B00 } (y 0xC2880B00) {} ∧
    0 < (y 0xC2880B00).entry.length ∧
    decode [(y 0xC2880B00).program.code.getD ((y 0xC2880B00).entry.first + 0) 0] = .ok (.smov (qa 10 2 0 0), 1) ∧
    decode [(y 0xFC000000).program.code.getD ((y 0xFC000000).entry.first + 0) 0] = .error .reservedOpcode := by
  exact ⟨⟨rfl, rfl, ⟨rfl, rfl⟩, by decide, by decide, by decide⟩, ⟨rfl, rfl, rfl, rfl⟩, by decide, by decide, by decide⟩
theorem witness_IntegerLaneResults : RunsBlock (inMapped (addressing 0)) 0 (addressing 0) := witness_block
theorem witness_SelWritesEveryLane : RunsBlock (inMapped (addressing 0)) 0 (addressing 0) := witness_block
theorem witness_ShufBcastAndLrotMoveLanes : RunsBlock (inMapped (addressing 0)) 0 (addressing 0) := witness_block
theorem witness_MovesAndConversions : RunsBlock (inMapped (addressing 0)) 0 (addressing 0) := witness_block
theorem witness_FloatLaneResults : RunsBlock (inMapped (addressing 0)) 0 (addressing 0) := witness_block
theorem witness_TableRowsAndScales : RunsBlock (inMapped (addressing 0)) 0 (addressing 0) := witness_block
theorem witness_SysAndTokenInstructions : RunsBlock (inMapped (addressing 0)) 0 (addressing 0) := witness_block
theorem witness_LogicLaneResults : RunsBlock (inMapped (addressing 0)) 0 (addressing 0) ∧ (ea 1 0 1 5).t.toNat < 6 := ⟨witness_block, by decide⟩
theorem witness_ShiftLaneResults : RunsBlock (inMapped (addressing 0)) 0 (addressing 0) ∧ (ea 1 0 1 5).t.toNat < 6 := ⟨witness_block, by decide⟩
theorem witness_CountLaneResults : RunsBlock (inMapped (addressing 0)) 0 (addressing 0) ∧ (ea 1 0 1 5).t.toNat < 6 := ⟨witness_block, by decide⟩
theorem witness_CmpWritesSelectedBits : RunsBlock (inMapped (addressing 0)) 0 (addressing 0) ∧ (ea 1 0 1 0).d ≠ 0 := ⟨witness_block, by decide⟩
theorem witness_PredicateInstructions : RunsBlock (inMapped (addressing 0)) 0 (addressing 0) ∧ (ea 1 0 1 0).d ≠ 0 := ⟨witness_block, by decide⟩
theorem witness_FloatComparisonsAndFunctions : RunsBlock (inMapped (addressing 0)) 0 (addressing 0) ∧ (ea 1 0 1 7).d ≠ 0 ∧ laneWidth (ea 1 0 1 7).t ≠ 8 :=
  ⟨witness_block, by decide, by decide⟩
theorem witness_ReductionsAndPrefixScans : RunsBlock (inMapped (addressing 0)) 0 (addressing 0) ∧ [(3 : Int)] ≠ [] := ⟨witness_block, by decide⟩
theorem witness_ChecksumPairs : RunsBlock (inMapped (addressing 0)) 0 (addressing 0) ∧ (ea 1 0 1 2).t.toNat ≤ 2 := ⟨witness_block, by decide⟩
theorem witness_RegisterZeroIsHardWired : (15 : Nat) ≠ 0 ∧ (0 : Nat) ≠ 15 := by decide
theorem witness_ScalarResults : RunsRegion (stepping (stepWith [] {})) 1 { running1 with seq := stepWith [] {} } (stepWith [] {}) {} :=
  witness_step.1
theorem witness_WaitqWaitsForQuiet : RunsRegion (stepping (stepWith [] {})) 1 { running1 with seq := stepWith [] {} } (stepWith [] {}) {} :=
  witness_step.1
/-- WideningIsExactAndSumsCommute: the greatest numbers of each format. -/
theorem witness_WideningIsExactAndSumsCommute :
    (0xFF7F < 2 ^ fmtBf16.width ∧ (fmtBf16.value 0xFF7F).isNan = false) ∧
    (0xFE < 2 ^ fmtE4m3.width ∧ (fmtE4m3.value 0xFE).isNan = false) ∧
    (0xFB < 2 ^ fmtE5m2.width ∧ (fmtE5m2.value 0xFB).isNan = false) := by decide
theorem witness_BlockExceptionCommitsNothing :
    let s := inMapped (addressing 0)
    Upset.elementFiring 0 ∉ s.upsets ∧ s.upsets = [] ∧ s.host.llcinj.getLsbD 63 = false := by decide
/-- SendrStagesAMessage: the last destination without a reserved bit, the first with one, and a copy of a pair. -/
theorem witness_SendrStagesAMessage :
    ((addressing (2 ^ 44 - 1)).temp 0).toNat % 2 ^ 64 < 2 ^ 44 ∧ 2 ^ 44 ≤ ((addressing (2 ^ 44)).temp 0).toNat % 2 ^ 64 ∧
    ((inMapped (addressing 0)).activation 1).elim false (·.isPair) = false ∧
    (some { running1 with role := .shadow }).elim false (·.isPair) = true := by decide +kernel
/-- ScratchAccessesAreStaged: the last 256 bytes of the region's scratch. -/
theorem witness_ScratchAccessesAreStaged :
    let s := inMapped (addressing 0x1FFF00)
    RunsBlock s 0 (addressing 0x1FFF00) ∧ s.activation 1 = some running1 ∧
    ((addressing 0x1FFF00).temp (em 0 13 5 0).addr.toNat).toNat % 2 ^ 64 = 0x1FFF00 ∧ 0x1FFF00 < 2 ^ 40 ∧
    0x1FFF00 % sizeBytes 5 = 0 ∧ s.scratchGood running1 0x1FFF00 256 = true ∧ s.scratchGood running1 0x1FFFF0 16 = true :=
  ⟨⟨rfl, rfl⟩, rfl, by decide +kernel, by decide, by decide, by decide +kernel, by decide +kernel⟩
/-- DeviceAccessesAndFencesAreStaged: an ordinary page and a full-empty one. -/
theorem witness_DeviceAccessesAndFencesAreStaged :
    let a := 2 ^ 30 - 256
    let f := 2 ^ 30
    let s (k : Nat) := inMapped (addressing (2 ^ 63 + k))
    (∀ k, RunsBlock (s k) 0 (addressing (2 ^ 63 + k)) ∧ (s k).activation 1 = some running1) ∧
    ((addressing (2 ^ 63 + a)).temp 0).toNat % 2 ^ 64 = 2 ^ 63 + a ∧ a % sizeBytes 5 = 0 ∧
    checkAccess (s a) running1 .read a 256 = .ok (leafAt a) ∧ checkAccess (s a) running1 .write a 256 = .ok (leafAt a) ∧
    checkAccess (s a) running1 .atomic a 8 = .ok (leafAt a) ∧ checkAccess (s a) running1 .atomic a 16 = .ok (leafAt a) ∧
    (leafAt f).fullEmpty = true ∧ f % sizeBytes 2 = 0 ∧ checkAccess (s f) running1 .take f 4 = .ok (leafAt f) ∧
    checkAccess (s f) running1 .fill f 4 = .ok (leafAt f) :=
  ⟨fun _ => ⟨⟨rfl, rfl⟩, rfl⟩, by decide +kernel, by decide, by decide +kernel, by decide +kernel, by decide +kernel,
    by decide +kernel, by decide +kernel, by decide, by decide +kernel, by decide +kernel⟩
/-- MemoryFaultsAreExact: the lowest and highest reserved bits, a misaligned address of each space, the first offset beyond
the region's scratch, and a device address beyond the records. -/
theorem witness_MemoryFaultsAreExact :
    slice (2 ^ 62) 62 48 ≠ 0 ∧ slice (2 ^ 48) 62 48 ≠ 0 ∧ (2 ^ 40 < 2 ^ 63 ∧ 2 ^ 40 ≤ 2 ^ 40 % 2 ^ 48) ∧
    (slice 1 62 48 = 0 ∧ 1 % 2 ^ 48 % sizeBytes 1 ≠ 0) ∧
    (slice (2 ^ 63 + 2) 62 48 = 0 ∧ 2 ^ 63 ≤ 2 ^ 63 + 2 ∧ (2 ^ 63 + 2) % 2 ^ 48 % sizeBytes 2 ≠ 0) ∧
    (0x200000 < 2 ^ 40 ∧ 0x200000 % sizeBytes 5 = 0 ∧
      (inMapped (addressing 0x200000)).scratchGood running1 0x200000 256 = false) ∧
    (slice (2 ^ 63 + 2 ^ 32) 62 48 = 0 ∧ recordsAllow declared .read (2 ^ 32) 4 = false ∧
      recordsAllow declared .write (2 ^ 32 - 2) 4 = false) := by decide +kernel

/-! Helpers that turn an evaluated condition into the form of a hypothesis. -/

def isOk {α β : Type} : Except α β → Bool
  | .ok _ => true
  | .error _ => false
theorem ok_of_isOk {α β : Type} {x : Except α β} (h : isOk x = true) : ∃ a, x = .ok a := by
  cases x with
  | ok a => exact ⟨a, rfl⟩
  | error e => cases h
theorem error_of_isOk {α β : Type} {x : Except α β} (h : isOk x = false) : ∃ e, x = .error e := by
  cases x with
  | ok a => cases h
  | error e => exact ⟨e, rfl⟩
theorem pair_ok {γ α β : Type} {x : γ × Except α β} (h : isOk x.2 = true) : ∃ s a, x = (s, .ok a) := by
  obtain ⟨s, r⟩ := x
  obtain ⟨a, ha⟩ := ok_of_isOk h
  exact ⟨s, a, by rw [← ha]⟩
theorem pair_some {γ α : Type} {x : γ × Option α} (h : x.2.isSome = true) : ∃ s a, x = (s, some a) := by
  obtain ⟨s, r⟩ := x
  obtain ⟨a, ha⟩ := Option.isSome_iff_exists.1 h
  exact ⟨s, a, by rw [← ha]⟩
theorem some_of_isSome {α : Type} {x : Option α} (h : x.isSome = true) : ∃ a, x = some a := Option.isSome_iff_exists.1 h

/-! The segment unit. -/

theorem witness_SegmentStepAddsTableDifference :
    (Accs.mk (List.replicate 128 0) false 0).fp = false ∧ (Accs.mk (List.replicate 128 0) false 0).cells.length = 128 := by decide +kernel
/-- SegmacAndSegden: a train that ends well, one with a word that is none, a cursor that another instruction holds, and trains that
begin with a step and with a close, for FP32 accumulators. -/
theorem witness_SegmacAndSegden :
    let b := operandOf (packLanes 32 [3, 0x80010005, 0x80010202, 0xC00106FD])
    let f := operandOf 0x80000000
    let t (b : Block) := trainWords .segmac b 0 (operandWords b 0) b.cursor false
    cursorTaken b.cursor .segmac b = false ∧ (t b).2.2 = none ∧
    (∃ a, Accs.items originalColumn b (eg 0 4 0) 4 0 b.accs (t b).1 = .ok a) ∧ b.cursor.isOpen = false ∧
    (∃ a, Accs.items originalColumn b (eg 0 4 0) 4 0 b.accs [.step (-128) 255 1, .close] = .ok a) ∧
    cursorTaken { isOpen := true, owner := .drow } .segmac b = true ∧
    (t f).2.2 = some (7, 0) ∧ (∃ a, Accs.items originalColumn f (eg 0 4 0) 4 0 f.accs (t f).1 = .ok a) ∧
    ((t b).1.head? = some (.step 5 0 2) ∧ (t (operandOf 0x10000)).1 = [.close] ∧ { b with accFp := true }.accFp = true ∧
      egMode originalColumn b (eg 0 5 1) = 5 ∧ (eg 0 5 1).accMode = 1 ∧ ({ isOpen := true } : Cursor).isOpen = true ∧
      signedOf 8 (vecByte (b.operand 0) 0).toNat ≠ 0) :=
  ⟨by decide +kernel, by decide +kernel, ok_of_isOk (by decide +kernel), rfl, ok_of_isOk (by decide +kernel), by decide,
    by decide +kernel, ok_of_isOk (by decide +kernel), by decide +kernel⟩
theorem witness_DenseWindowInstructions :
    cursorTaken ({} : Cursor) .drow {} = false ∧ ({} : Block).accFp = false ∧ (eg 0 2 0).accMode ≠ 1 ∧
    cursorTaken ({} : Cursor) .bwdot {} = false ∧ cursorTaken ({} : Cursor) .diff {} = false ∧
    (egMode {} {} (eg 0 1 0) = 1 ∧ egMode {} {} (eg 0 2 0) = 2 ∧ egMode {} {} (eg 0 3 0) = 3 ∧ egMode {} {} (eg 0 4 0) = 4 ∧
      egMode {} {} (eg 0 5 0) = 5) ∧ (eg 0 2 1).accMode = 1 ∧ ({ accFp := true } : Block).accFp = true ∧
    (cursorTaken { isOpen := true, owner := .drow, left := 3 } .drow {} = false ∧
      cursorTaken { isOpen := true, owner := .drow } .bwdot {} = true ∧ cursorTaken { isOpen := true, owner := .drow } .diff {} = true) ∧
    cursorTaken { isOpen := true, owner := .diff } .drow {} = true := by decide
/-- AccumulatorOutputs: a train of one step whose rows fall into scratch, and the accumulators stored to scratch. -/
theorem witness_AccumulatorOutputs :
    let b : Block := { operandOf (packLanes 32 [1, 0xC0000001]) with colour := 1, temps := [(7, 0x10000), (0, 0x10000)] }
    let s := inMapped b
    let t := trainWords .seggrad b 0 (operandWords b 0) b.cursor false
    let rows := (t.1.flatMap gradRows).flatMap fun r => rowPieces b (b.operand 0) 0 (0x10000 + r.1 * 512) 128 false r.2
    let r := accOutput {} b 0 false
    let stores := (List.range 2).map fun j => (0x10000 + 256 * j,
      b.request .store 0 (min 256 (r.2.1 - 256 * j)) 0 (BitVec.ofNat 2048 (r.1 / 2 ^ (2048 * j))) none)
    cursorTaken b.cursor .seggrad b = false ∧ t.2.2 = none ∧
    elementAddress (b.addressTemp 7) 256 .atomic = .ok (true, 0x10000) ∧
    (∃ p, stagePieces b .atomic true s b rows = .ok p) ∧
    elementAddress (b.addressTemp 0) (min r.2.1 256) .write = .ok (true, 0x10000) ∧
    ∃ p, stagePieces b .write true s b stores = .ok p :=
  ⟨by decide, by decide +kernel, by decide +kernel, ok_of_isOk (by decide +kernel), by decide +kernel,
    ok_of_isOk (by decide +kernel)⟩

/-! Sequencer registers, branches and memory. -/

/-- BranchesFollowTheirOffsets: a target on the last word of the step, on the first word of the next step, and on no step; and
each comparison holding and failing. -/
theorem witness_BranchesFollowTheirOffsets :
    let x := stepWith [(1, 0xFFFFFFFFFFFFFFFF), (2, 1)] {}
    (3 < x.entry.length ∧ (x.entry.first + 0 : Int) + (3 : BitVec 14).toInt = x.entry.first + 3) ∧
    ((x.entry.first + x.entry.length : Nat) ≤ (x.entry.first + 0 : Int) + (4 : BitVec 14).toInt ∧ 1 < x.program.steps.length ∧
      (((x.program.steps.getD 1 default).first : Nat) : Int) = 4 ∧
      (((x.program.steps.getD 0 default).first : Nat) : Int) ≠ 4) ∧
    ((x.entry.first + 0 : Int) + (0x3FFF : BitVec 14).toInt < x.entry.first ∧
      ∀ e ∈ x.program.steps, (e.first : Int) ≠ -1) ∧
    (x.reg 1 = x.reg 1 ∧ x.reg 1 ≠ x.reg 2) ∧ ((x.reg 1).slt (x.reg 2) = true ∧ ¬(x.reg 2).slt (x.reg 1) = true) ∧
    ((x.reg 1).sle (x.reg 2) = true ∧ ¬(x.reg 2).sle (x.reg 1) = true) ∧ (x.reg 2 < x.reg 1 ∧ ¬x.reg 1 < x.reg 2) ∧
    (x.reg 2 ≤ x.reg 1 ∧ ¬x.reg 1 ≤ x.reg 2) ∧ (x.reg 1 ≠ 1 ∧ ¬x.reg 2 ≠ 1) := by decide
/-- LoopAtZeroWrapsAndIsTaken: a general register and s0, with targets on the last word of the step, on the first word of the
next step and on no step. -/
theorem witness_LoopAtZeroWrapsAndIsTaken :
    let x := stepWith [] {}
    (qb 1 0 3).a ≠ 0 ∧ x.reg (qb 1 0 3).a.toNat = 0 ∧ (qb 0 0 3).a = 0 ∧ x.reg 0 = 0 ∧
    (3 < x.entry.length ∧ (x.entry.first + 0 : Int) + (qb 1 0 3).off.toInt = x.entry.first + 3) ∧
    ((x.entry.first + x.entry.length : Nat) ≤ (x.entry.first + 0 : Int) + (qb 1 0 4).off.toInt ∧
      1 < x.program.steps.length ∧
      (((x.program.steps.getD 1 default).first : Nat) : Int) = (x.entry.first + 0 : Int) + (qb 1 0 4).off.toInt ∧
      (((x.program.steps.getD 0 default).first : Nat) : Int) ≠ (x.entry.first + 0 : Int) + (qb 1 0 4).off.toInt) ∧
    ((x.entry.first + 0 : Int) + (qb 1 0 0x3FFF).off.toInt < x.entry.first ∧
      ∀ e ∈ x.program.steps, (e.first : Int) ≠ (x.entry.first + 0 : Int) + (qb 1 0 0x3FFF).off.toInt) := by decide
/-- SldLoads: an ordinary page, a full-empty page with its words empty and full, and a misaligned address. -/
theorem witness_SldLoads :
    let s := stepping (stepWith [] {})
    let f := { s with memory := { s.memory with full := [2 ^ 28, 2 ^ 28 + 1] } }
    let t (s : State) (va : Nat) := s.cacheLeaf 0 va (leafAt va)
    0x2000 % sldSize 3 = 0 ∧ checkAccess s running1 .read 0x2000 8 = .ok (leafAt 0x2000) ∧
    (∃ u bs, readSectors running1.anchor 0 1 .cached 4 (t s 0x2000) 0x2000 8 [] = (u, some bs)) ∧
    (checkAccess s running1 .read (2 ^ 30) 8 = .ok (leafAt (2 ^ 30)) ∧ (leafAt (2 ^ 30)).fullEmpty = true ∧
      (t s (2 ^ 30)).everyFull (2 ^ 30) 8 = false) ∧
    ((t f (2 ^ 30)).everyFull (2 ^ 30) 8 = true ∧
      ∃ u bs, readSectors running1.anchor 0 1 .device 4 (t f (2 ^ 30)) (2 ^ 30) 8 [] = (u, some bs)) ∧
    0x2001 % sldSize 3 ≠ 0 :=
  ⟨by decide, by decide +kernel, pair_some (by decide +kernel), ⟨by decide +kernel, by decide, by decide +kernel⟩,
    ⟨by decide +kernel, pair_some (by decide +kernel)⟩, by decide⟩
theorem witness_SldReadsTheStepsOwnStores : 8 ≤ 8 ∧ (List.replicate 8 (0 : Byte)).length = 8 := by decide
/-- StepAccessesAreStaged: the top of the declared first gibibyte. -/
theorem witness_StepAccessesAreStaged :
    let s := stepping (stepWith [] {})
    let a := 2 ^ 30 - 16
    a % 2 ^ (11 % 4) = 0 ∧ checkAccess s running1 .write a 8 = .ok (leafAt a) ∧
    checkAccess s running1 .atomic a 8 = .ok (leafAt a) ∧ a % 16 = 0 ∧
    checkAccess s running1 .atomic a 16 = .ok (leafAt a) ∧ checkAccess s running1 .wait a 16 = .ok (leafAt a) ∧
    (a + 1) % 2 ^ (11 % 4) ≠ 0 ∧ (a + 4) % 8 ≠ 0 :=
  ⟨by decide, by decide +kernel, by decide +kernel, by decide, by decide +kernel, by decide +kernel, by decide, by decide⟩

/-! Configurations, streams, ports and banks. -/

/-- A package with a circuit from mp0 of the anchor to the input port 0 of element (2, 2, 0), and a FIFO through bank 3. -/
def wired : State :=
  { stepping (stepWith [] {}) with
    circuits := [(0, { source := .tileMem 0x220 0, owner := 1, ends := [.elementPort 0x420 0],
                       nodes := [(0, { targets := [.elementPort 0x420 0], viaBank := some (0x220, 3) })] })],
    tiles := [(0x220, { nests := [(0, { counts := [16], strides := [4] }), (1, { mport := 1 })] })] }
theorem witness_TerminatorsEndTheirStep :
    wired.portSends running1.anchor 0 = true ∧ wired.portSends running1.anchor 1 = false ∧
    stagedCommit [.commit 0] = true ∧ stagedCommit [] = false ∧ ¬(stagedBase running1 [] = true ∧ wired.host.budget < 400 * chargedTiles running1) ∧
    (stagedBase running1 [] = true ∧ (0 : Nat) < 400 * chargedTiles running1) := by decide +kernel
theorem witness_GeneratorInstructions :
    (wired.tile 0x220).nests.find 0 = some { counts := [16], strides := [4] } ∧ wired.portSends 0x220 0 = true ∧
    wired.portReceives 0x220 0 = false ∧ wired.portSends 0x220 1 = false ∧
    ({ wired with circuits := [(0, { source := .out 0 0, ends := [.streamPort 0x220 0] })] } : State).portReceives 0x220 0 = true ∧
    (wired.tile 0x220).nests.find 3 = none ∧ stagedCommit [.commit 0] = true ∧ stagedCommit [] = false := by decide +kernel
/-- DepthAndBank: the least and the greatest depth, an illegal one, reserved bits, a free bank and one under a FIFO, a step behind a
COMMIT, an element of a memory tile and a bank of a compute tile. -/
theorem witness_DepthAndBank :
    let v := 0x200
    (v < 2 ^ 18 ∧ slice v 15 14 = 0 ∧ running1.absolute (v % 2 ^ 14) = some 0x420 ∧ isComputeTile 0x420 = true ∧
      slice v 17 16 = 0) ∧
    (wired.circuits.any fun k => k.2.ends.contains (.elementPort 0x420 0)) = true ∧
    (wired.circuits.any fun k => k.2.ends.contains (.elementPort 0x420 1)) = false ∧
    (8 % 8 = 0 ∧ wired.poolWith [] (tileOf 0x420) 0x420 0 8 ≤ 512) ∧
    (256 % 8 = 0 ∧ wired.poolWith [] (tileOf 0x420) 0x420 0 256 ≤ 512) ∧
    ¬({ wired with elements := [(0x420, { ports := [(0, {})] }), (0x421, { ports := [(0, {}), (1, {})] })] } : State).poolWith
      [.depth 0x421 0 256 0, .depth 0x421 1 256 1] (tileOf 0x420) 0x420 0 8 ≤ 512 ∧
    ¬(264 ≤ 256) ∧ 2 ^ 18 ≤ 2 ^ 18 ∧ slice 0x4000 15 14 ≠ 0 ∧ running1.absolute 0x40 = none ∧
    ((0x0F : Nat) < 2 ^ 14 ∧ running1.absolute (0x0F / 16 * 16) = some 0x220 ∧ isComputeTile 0x220 = false ∧ 0x0F % 16 = 15 ∧
      wired.bankBusy running1 [] 0x220 15 = false) ∧
    wired.bankBusy running1 [] 0x220 3 = true ∧ stagedCommit [.commit 0] = true ∧ stagedCommit [] = false ∧
    (running1.absolute 0 = some 0x220 ∧ isComputeTile 0x220 = false) ∧ running1.absolute (0x20F / 16 * 16) = some 0x420 := by
  decide +kernel
/-- EngineCommandsAreAppended: an activation that is no copy of a pair, and a copy; a parameter block in delta form, and one that is
not. -/
theorem witness_EngineCommandsAreAppended :
    let s := stepping (stepWith [] {})
    let m : State := { s with memory := { s.memory with mem := s.memory.mem ++ [(0x3000, 3)] } }
    running1.isPair = false ∧ { running1 with role := .primary }.isPair = true ∧ (qe 1 2 15 0).sC ≠ 0 ∧ (qe 1 2 0 0).sC = 0 ∧
    (m.patchFormat (.region 1) running1 [] 0x3000).2 = some 3 ∧ (m.patchFormat (.region 1) running1 [] 0x3040).2 = some 0 := by
  decide +kernel

/-! Stacks and CHAIN. -/

/-- A package whose context 0 has a stack of 512 bytes of HBM at 0x100000 and no spill area, with a chain record at 0x3000. -/
def stacked (l : List StackEntry) : State :=
  let s := stepping (stepWith [] {})
  { s with
    memory := { s.memory with mem := [(0x1000, 0x01), (0x1001, 0x20), (0x2000, 0x1F), (0x2008, 0x9F), (0x200B, 0x40),
      (0x3000, 1), (0x3008, 0x40), (0x4002, 0x10), (0x4009, 0x02)] },
    host := { s.host with stkbase := 0x4000 }, stackOf := [(0, l)] }
/-- The same package with a third gibibyte that lies in the CXL range. -/
def outsideHbm : State :=
  let s := stacked [{ length := 8 }]
  { s with memory := { s.memory with mem := s.memory.mem.take 5 ++ [(0x2010, 0x1F), (0x2015, 4)] ++ s.memory.mem.drop 5 } }
/-- The record that a CHAIN reads there from the package. -/
def chainRead (a : Nat) : State × Option (List Byte) :=
  readSectors running1.anchor 0 1 .cached 4 ((stacked []).cacheLeaf 0 a (leafAt a)) a 64 []
/-- It is a record that CHAIN may append. -/
def chainLegal (a : Nat) : Bool := (chainRead a).2.any fun bs =>
  let v := BitVec.ofNat 512 (natOfBytes bs)
  recordLegal (field v 0 1) (field v 1 1) (field v 2 2) && field v 4 4 = 0 && field v 40 24 = 0
/-- A record of the spill engine. -/
def chainRecordOf (fn : Nat) (len : DWord) : CommandRecord :=
  { engine := 5, fn := fn, flags := 0, parameter := 0, eyelet := 0, auxiliary := len, activation := 0 }
/-- StackAndChainInstructions: a copy of a pair; a page that can be reached and one in a retired frame; the greatest length that fits and one byte more, in scratch and in memory; an
empty stack and a top entry of 8 bytes; a target outside HBM; records that are legal, not, of the spill engine, and on full-empty words. -/
theorem witness_StackAndChainInstructions :
    let d := (stacked []).stackDesc 0
    let full := { stacked [] with memory := { (stacked []).memory with full := (List.range 16).map (2 ^ 28 + ·) } }
    let lost := { stacked [] with host := { (stacked []).host with rft := [1] } }
    (isOk ((stacked []).pagesReachable 0 .read 0xFFF8 16) = true ∧ isOk (lost.pagesReachable 0 .write 0xFFF8 16) = false) ∧
    ({ running1 with role := .shadow }.isPair = true ∧ running1.isPair = false) ∧
    ((stacked []).stackAhead 0 [] = [] ∧ ringBytes [] + (512 + 255) / 256 * 256 ≤ d.hsize ∧ d.lsize = 0 ∧
      ¬ringBytes [] + (513 + 255) / 256 * 256 ≤ d.hsize) ∧
    (recordsAllow declared .read 0 512 = true ∧ recordsAllow declared .read (2 ^ 32) 8 = false ∧
      (stacked []).scratchGood running1 0x1FFE00 512 = true ∧ (stacked []).scratchGood running1 0x200000 8 = false) ∧
    (((stacked [{ length := 8 }]).stackAhead 0 []).getLast? = some { length := 8 } ∧ (7 : DWord).toNat ≠ 8 ∧
      recordsAllow declared .write (2 ^ 32) 8 = false ∧ recordsAllow declared .write 0x5000 8 = true ∧
      ∃ l, translate (stacked []) 0 0x5007 .write = .ok l ∧ isHbm l.pa = true) ∧
    (recordsAllow declared .write (2 ^ 31) 8 = true ∧ ∃ l, translate outsideHbm 0 (2 ^ 31) .write = .ok l ∧ isHbm l.pa = false) ∧
    (recordsAllow declared .atomic (2 ^ 32 - 16) 16 = true ∧ recordsAllow declared .atomic (2 ^ 32) 16 = false) ∧
    (0x3001 % 64 ≠ 0 ∧ 0x3000 % 64 = 0 ∧ checkAccess (stacked []) running1 .read 0x3000 64 = .ok (leafAt 0x3000)) ∧
    (∃ u bs, chainRead 0x3000 = (u, some bs)) ∧ chainLegal 0x3000 = true ∧ chainLegal 0x4000 = false ∧
    isOk (checkStack (stacked []) running1 [] (chainRecordOf 0 512)) = true ∧
    isOk (checkStack (stacked []) running1 [] (chainRecordOf 1 0)) = false ∧ recordLegal 5 0 1 = true ∧
    (checkAccess (stacked []) running1 .read (2 ^ 30) 64 = .ok (leafAt (2 ^ 30)) ∧ (leafAt (2 ^ 30)).fullEmpty = true ∧
      ((stacked []).cacheLeaf 0 (2 ^ 30) (leafAt (2 ^ 30))).everyFull (2 ^ 30) 64 = false ∧
      (full.cacheLeaf 0 (2 ^ 30) (leafAt (2 ^ 30))).everyFull (2 ^ 30) 64 = true ∧
      ∃ u bs, readSectors running1.anchor 0 1 .device 4 (full.cacheLeaf 0 (2 ^ 30) (leafAt (2 ^ 30))) (2 ^ 30) 64 [] =
        (u, some bs)) :=
  ⟨by decide +kernel, by decide, by decide +kernel, by decide +kernel,
    ⟨by decide +kernel, by decide, by decide +kernel, by decide +kernel, leafAt 0x5007, by decide +kernel, by decide +kernel⟩,
    ⟨by decide +kernel, { leafAt (2 ^ 31) with pa := 2 ^ 42, ipa := 2 ^ 42, fullEmpty := false }, by decide +kernel, by decide +kernel⟩,
    by decide +kernel, ⟨by decide, by decide, by decide +kernel⟩, pair_some (by decide +kernel), by decide +kernel, by decide +kernel,
    by decide +kernel, by decide +kernel, by decide,
    ⟨by decide +kernel, by decide, by decide +kernel, by decide +kernel, pair_some (by decide +kernel)⟩⟩

/-! Tasks, power, supervision and debug. -/

theorem witness_TaskInstructionsAreStaged :
    running1.isPair = false ∧ { running1 with role := .shadow }.isPair = true ∧
    (match readStep (stacked []) (.region 1) running1 {} 0x3000 64 64 with
     | .bytes _ _ => true
     | _ => false) = true ∧
    ((stagedRecords [] declared)[0]? = some { base := 0, extent := 2 ^ 32, mode := 2 } ∧ (stagedRecords [] declared)[1]? = none) ∧
    ((2 ^ 48 * 3 + 2 ^ 32 : Nat) < 2 ^ 52 ∧ slice (2 ^ 48 * 3 + 2 ^ 32) 51 48 ≤ 3) ∧ ¬(2 ^ 52 : Nat) < 2 ^ 52 ∧
    ((65535 : Nat) < 2 ^ 16 ∧ (2 ^ 16 : Nat) ≤ 65536) ∧
    800 * chargedTiles running1 ≤ mapped.host.budget ∧ (7 : Nat) ≤ 7 ∧ (7 : Nat) < 8 := by decide +kernel
/-- SupervisorAndDebugInstructions: operands at both sides of each bound. -/
theorem witness_SupervisorAndDebugInstructions :
    running1.entry.asid = 0 ∧ (255 < 256 ∧ 1 < 2) ∧ (128 ≤ 128 ∧ 2 ≤ 2 ∧ 128 < 129) ∧
    (0x200 < 2 ^ 16 ∧ idNames 0x1C0 = false ∧ idNames 0x420 = true ∧ isComputeTile 0x420 = true) ∧
    (255 % 256 ≠ 0 ∧ 256 % 256 = 0) ∧ (63 % 64 < 64 ∧ 32 ≤ (0x1000 + 32) % 64 ∧ (0x2000 + 15) % 64 < 16) ∧
    stepTarget (stepping {}) running1 1 0 = true ∧ stepTarget (stepping {}) running1 1 64 = false := by decide +kernel
theorem witness_PrivilegeAndStreamCode :
    { running1 with entry := { asid := 255 } }.entry.asid ≠ 0 ∧ running1.entry.asid = 0 ∧
    SeqId.stream 0x430 = .stream 0x430 := by decide
/-- StepExceptionUndoesTheStep: a step past its last word, one at a word of the element space, and words that do not decode, of
QSYS and of no space, where no mismatch is pending. -/
theorem witness_StepExceptionUndoesTheStep :
    let x := stepWith [] { word := 4 }
    let y : Sequencer := { stepWith [] { word := 3 } with program := { steps := [{ first := 0, length := 4 }], code := [(3, 0x08863FC0)] } }
    RunsRegion (stepping x) 1 { running1 with seq := x } x { word := 4 } ∧ x.entry.length ≤ 4 ∧
    RunsRegion (stepping y) 1 { running1 with seq := y } y { word := 3 } ∧ 3 < y.entry.length ∧
    isSequencerWord (y.program.code.getD (y.entry.first + 3) 0) = false ∧ decode [0xF4110000 ||| 0xC00] = .error .unusedFunction ∧
    decode [0xFC000000] = .error .reservedOpcode ∧
    ((stepping x).upsets = [] ∧ (stepping x).host.llcinj.getLsbD 63 = false) :=
  ⟨⟨rfl, rfl, rfl, rfl⟩, by decide, ⟨rfl, rfl, rfl, rfl⟩, by decide, by decide, by decide, by decide, by decide⟩

/-! The events of the elements, the fabric and the memory. -/

/-- An element whose context 0 is enabled, with one handler on port 0 for channel 0, and a package that holds it. -/
def enabledEl : Element := { ctxs := [(0, { word := 0x4003E0 })], handlers := [(0, 0x20000)] }
def withEl (x : Element) : State := { mapped with elements := [(0, x)], activations := [(1, running1)] }
def headed (t : Token) (x : Element) : State := withEl { x with ports := [(0, { circuit := flitsOf t, order := [.circuit] })] }
def waitingSlot : Slot := { port := 0, token := { colour := 1 }, order := 0, since := 0 }
theorem hasHead_of {s : State} {el port : Nat} {t : Token}
    (h : ((s.element el).ports.getD port {}).head.map Prod.fst = some t) : ∃ x', HasHead s el port t x' := by
  cases hq : ((s.element el).ports.getD port {}).head with
  | none => rw [hq] at h; cases h
  | some p => rw [hq] at h; cases h; exact ⟨_, p.2, hq, rfl⟩
/-- A data token: one free slot, and a channel without a handler. A CONF token, CTRL tokens that mask and unmask. -/
theorem witness_ElementEventsOccur_tokens :
    let d : Token := { colour := 1, kind := .last }
    let n : Token := { colour := 1, chan := 31 }
    let f : Token := { colour := 1, kind := .conf, vector := true, data := 0xFF }
    let k (v : Nat) : Token := { colour := 1, kind := .ctrl, data := BitVec.ofNat 2048 v }
    let x : Element := { enabledEl with slots := List.replicate 63 default }
    ((∃ x', HasHead (headed d x) 0 0 d x') ∧ handlerFor x 0 0 = some 0 ∧ x.slots.length < 64) ∧
    ((∃ x', HasHead (headed n x) 0 0 n x') ∧ handlerFor x 0 31 = none) ∧
    ((∃ x', HasHead (headed f enabledEl) 0 0 f x') ∧ ctxEnabled enabledEl 0 = true ∧ enabledEl.block = none ∧
      enabledEl.slots = [] ∧ f.vector = true ∧ (vecWord f.data 0).toNat < 256) ∧
    ((∃ x', HasHead (headed (k 4) x) 0 0 (k 4) x') ∧ (vecWord (k 4).data 0).toNat % 4 = 0) ∧
    ((∃ x', HasHead (headed (k 1) x) 0 0 (k 1) x') ∧ (vecWord (k 1).data 0).toNat % 4 = 1) :=
  ⟨⟨hasHead_of (by decide +kernel), by decide +kernel, by decide +kernel⟩, ⟨hasHead_of (by decide +kernel), by decide +kernel⟩,
    ⟨hasHead_of (by decide +kernel), by decide +kernel, rfl, rfl, rfl, by decide +kernel⟩, ⟨hasHead_of (by decide +kernel), by decide +kernel⟩,
    ⟨hasHead_of (by decide +kernel), by decide +kernel⟩⟩
/-- An idle element with a match; the same match 1,024 cycles on; a block that is done, with its activation running and
cancelled; 64 slots without a match, 65,536 cycles after the last release; writes of a table; a new depth. -/
theorem witness_ElementEventsOccur :
    let x : Element := { enabledEl with slots := [waitingSlot] }
    let late : State := { withEl x with cycle := 1024 }
    let b : Block := { colour := 1, done := 1 }
    let y : Element := { enabledEl with block := some b }
    let z : Element := { slots := List.replicate 64 { waitingSlot with token := { colour := 1, ctx := 7 } } }
    let build : TableWrite := { chain := { owner := 1, tile := 0x220, engine := 2 }, place := 0, kind := .build [] 0 none }
    let patch : TableWrite := { build with kind := .patch false false 255 0 [] }
    (x.block = none ∧ (∀ c ∈ candidates x, promotionDue 0 x c = false) ∧ ∃ k n, (withEl x).choice x = some (k, n)) ∧
    (∃ k, (candidates x).find? (fun c => c.id = 0) = some k ∧ candidateLevel x k < 63 ∧
      x.promotions.getD 0 0 < (late.cycle - k.since) / 1024) ∧
    (blockOpen y b = false ∧ (withEl y).stopping 1 (b.attempt ≠ 0) = false ∧ Upset.elementFiring 0 ∉ (withEl y).upsets ∧ b.effects = [] ∧
      { withEl y with activations := [] }.stopping 1 (b.attempt ≠ 0) = true) ∧
    (z.slots.length = 64 ∧ completeMatches z = [] ∧ z.lastRelease + 65536 ≤ 65536) ∧
    (({ enabledEl with tableWrites := [build] } : Element).block = none ∧ trainOpen enabledEl = false ∧
      ((withEl x).chain build.chain).stopped = false ∧
      patch.kind = .patch false false 255 0 [] ∧ patchFails enabledEl false false 255 0 [] = none) ∧
    (wired.circuits.find? (fun c => c.2.ends.contains (.elementPort 0x420 0))).isSome = true ∧
    wired.circuits.all (fun c => wired.drained 0x420 0 c.2) = true :=
  ⟨⟨rfl, by decide +kernel, by
      obtain ⟨p, hp⟩ := some_of_isSome (x := (withEl { enabledEl with slots := [waitingSlot] }).choice
        { enabledEl with slots := [waitingSlot] }) (by decide +kernel)
      exact ⟨p.1, p.2, hp⟩⟩, ⟨{ ctx := 0, entry := 0, colour := 1, iter := 0, operands := [(0, waitingSlot)], complete := 0, since := 0, id := 0 }, by decide +kernel⟩,
    by decide +kernel, by decide +kernel, by decide +kernel, by decide +kernel, by decide +kernel⟩

/-- A flit of a scalar token, and the circuit that carries it from an output of element 0 to port 0 of element (2, 2, 0). -/
def aFlit : Flit := flitOf { colour := 1 } 0
def carrying (fs ws : List Flit) : State :=
  { mapped with
    activations := [(1, running1)], elements := [(0x420, { ports := [(0, { depth := 8, wire := ws })] })],
    circuits := [(0, { source := .out 0x220 0, owner := 1, ends := [.elementPort 0x420 0],
                       nodes := [(0, { tile := 0x420, flits := fs, targets := [.elementPort 0x420 0] })] })] }
/-- A flit that may leave, a flit on the wire, and a bank that switches. -/
theorem witness_FabricAndMemoryEventsOccur_fabric :
    let c : Circuit := { source := .out 0x220 0, owner := 1, ends := [.elementPort 0x420 0],
                         nodes := [(0, { tile := 0x420, flits := [aFlit], targets := [.elementPort 0x420 0] })] }
    let s := carrying [aFlit] []
    (s.circuits.find 0 = some c ∧ (c.node 0).flits = [aFlit] ∧ s.nodeReady c 0 = true ∧ s.longestUnserved 0 0 = true) ∧
    ((c.node 0).targets = [.elementPort 0x420 0] ∧ (((carrying [] [aFlit]).element 0x420).ports.getD 0 {}).wire = [aFlit] ∧
      aFlit.par = parityOf aFlit ∧ Upset.flit 0 0 0 ∉ (carrying [] [aFlit]).upsets) ∧
    ({ mapped with tiles := [(0x220, { switching := [(15, { mode := .cache })] })] } : State).tile 0x220 =
      { switching := [(15, { mode := .cache })] } := by decide +kernel
/-- A package whose element (2, 2, 0) has one request in its memory port 0, which has come to the sink of tile (2, 1). -/
def requesting (r : MemRequest) : State :=
  { mapped with
    activations := [(1, running1)], elements := [(0x420, { requests := [(0, [r])], ports := [(0, { depth := 8 })] })],
    tiles := [(0x220, { sinks := [(portKey 0x420 0, flitsOf (requestToken r))] })],
    circuits := [(0, { source := .elementMem 0x420 0, owner := 1, ends := [.sink 0x220] })] }
/-- Requests at the last bytes of the region's scratch and at an ordinary and a full-empty page. -/
theorem witness_FabricAndMemoryEventsOccur_requests :
    let base : MemRequest := { op := .store, mport := 0, scratch := true, address := 0x1FFF00, size := 256, colour := 1 }
    let load : MemRequest := { base with op := .load true, reply := some 3 }
    let dev : MemRequest := { op := .load false, mport := 0, va := 0x2000, address := 0x2000, size := 8, colour := 1 }
    let put (r : MemRequest) : State :=
      ((requesting r).putElement 0x420 { (requesting r).element 0x420 with requests := [(0, [])] }).takeFromSink 0x420 r
    (∀ r ∈ [base, load, dev], (requesting r).pickRequest 0x420 0 = some (r, [])) ∧
    (∀ r ∈ [base, load, dev], (requesting r).mayPerform running1 r = true) ∧
    ((put dev).perform running1 0x420 dev).isSome = true ∧
    (running1.scratchPlace 0x1FFF00).isSome = true ∧ (put base).scratchGood running1 0x1FFF00 256 = true ∧
    running1.scratchPlace 0x1FFF00 = some (0x430, 0xFFF00) ∧ ((put base).tile 0x430).switching = [] := by decide +kernel
/-- A reply behind one of another port, a deferred access whose words have become full, eyelets with a target and without
one, and a request that an invalidation covers. -/
theorem witness_FabricAndMemoryEventsOccur_replies :
    let r : MemRequest := { op := .take false, mport := 0, va := 2 ^ 30, address := 2 ^ 30, size := 4, colour := 1, fullEmpty := true }
    let d : State := { requesting r with
      elements := [], memory := { mapped.memory with full := [2 ^ 28], deferred := [(5, 0x420, r)] } }
    let e (a : Nat) : EyeletAddition := { address := a, n := 2, asid := 0, colour := 1, adder := .step (.region 1) 0 0 }
    let m (a : Nat) : State := { mapped with
      activations := [(1, running1)],
      memory := { mapped.memory with mem := mapped.memory.mem ++ [(0x3000, 1), (0x3004, 2)], additions := [(0, e a)] } }
    let after (a : Nat) := (((m a).mapMemory fun k => { k with additions := k.additions.drop 0 }).flushEyelet 1 none a).readEyelet none a
    (∀ q ∈ [((1, { colour := 1 }) : Nat × Token)], q.1 ≠ 0) ∧
    (d.memory.deferred.find 5 = some (0x420, r) ∧ r.isHeld = false ∧ d.mayPerform running1 r = true ∧
      (match performDevice d running1 0x420 r with
       | .waits .. => true
       | _ => false) = false ∧
      ((d.mapMemory fun m => { m with deferred := m.deferred.drop 5 }).perform running1 0x420 r).isSome = true) ∧
    (∀ a ∈ [0x3000, 0x3100], (m a).memory.additions.find 0 = some (e a) ∧ (m a).additionReady 0 (e a) = true ∧
      (m a).homeFault (e a) = none) ∧
    ((after 0x3000).2 = some ⟨1, 2, 0, 0⟩ ∧
      ((after 0x3000).1.writeEyelet none 0 0x3000 (addTo ⟨1, 2, 0, 0⟩ 2)).eyeletLost none 0x3000 = false) ∧
    (after 0x3100).2 = some ⟨0, 0, 0, 0⟩ ∧
    (({ r with held := true } : MemRequest).held = true ∧ (requesting r).reach running1 .take (2 ^ 30) = .ok (leafAt (2 ^ 30))) := by
  decide +kernel

/-! The events of the sequencers. -/

/-- A region sequencer that runs, in a package with an image without records at 0x3000. -/
def going (x : Sequencer) (a : Activation) : State :=
  { mapped with
    memory := { mapped.memory with mem := mapped.memory.mem ++ [(0x3000, 1), (0x3004, 2), (0x3005, 2), (0x3010, 64)] },
    activations := [(1, { a with seq := { x with running := true }, phase := .running })] }
def active (x : Sequencer) (a : Activation) : Activation := { a with seq := { x with running := true }, phase := .running }
/-- A step that may start, one that has ended with a store and with a PUSH of no nest, and the steps of a program's end. -/
theorem witness_SequencerEventsOccur_steps :
    let a := active {} running1
    let r (e : StepEffect) : StepRun := { ended := some (.branch 255), effects := [e] }
    let x (e : StepEffect) : Sequencer := { step := some (r e) }
    let st : StepEffect := .store 0x2FF8 { pa := 0x2FF8 } 8 7 0
    let pu : StepEffect := .push 0 0 0 3
    let s := going (x st) running1
    let after := (s.putSequencer (.region 1) { x st with running := true, step := some { r st with released := true } }).releaseAll
      (.region 1) 0 [st]
    ((going {} running1).seqActivation (.region 1) = some a ∧
      (going {} running1).sequencer (.region 1) = some { ({} : Sequencer) with running := true } ∧
      (going {} running1).mayStart a = true ∧
      a.stepMode = false ∧ a.phase = .running) ∧
    ((r st).released = false ∧ a.cancelled = false ∧ a.inForce = true ∧ a.sweep = false ∧ Upset.stepFiring (.region 1) ∉ s.upsets) ∧
    (releaseOrder [.sbrk 0, .yield, st] = [st, .yield, .sbrk 0] ∧ isOk (s.checkStep (.region 1) [st]) = true ∧ after.2.1 = [] ∧ (after.1.sequencer (.region 1)).isSome = true) ∧
    isOk ((going (x pu) running1).checkStep (.region 1) [pu]) = false := by decide +kernel
/-- Waits: a quiet region, a sequence value just reached, and an eyelet at its generation. -/
theorem witness_SequencerEventsOccur_waits :
    let x (w : Wait) : Sequencer := { wait := w }
    let e (v : DWord) : State := going (x (.eyelet v 0)) running1
    let l := leafAt 0x4000
    let t := ((e 0x4000).cacheLeaf 0 0x4000 l).readEyelet none 0x4000
    (going (x .quiet) running1).quietFor (.region 1) (active (x .quiet) running1) = true ∧
    ((((going (x (.sequence 0 0)) running1).chain (chainIdOf running1 running1.anchor 0)).seq - 0).toNat < 2 ^ 31 ∧
      ((going (x (.sequence 0 0)) running1).chain (chainIdOf running1 running1.anchor 0)).eyelets = []) ∧
    (e 0x4000).reach (active (x (.eyelet 0x4000 0)) running1) .wait 0x4000 = .ok l ∧
    t.2 = some ⟨0, 0, 0, 0⟩ ∧ ((BitVec.ofNat 32 0 : Word) - 0).toNat < 2 ^ 31 ∧
    ((t.1.observeAll (active (x (.eyelet 0x4000 0)) running1)).sequencer (.region 1)).isSome = true := by decide +kernel
/-- A load of an image, its sweep, and a RUN of more start tokens than the window holds, of as many, and of none. -/
theorem witness_SequencerEventsOccur_configuration :
    let a (p : LoadPhase) := active {} { running1 with load := some { image := 0x3000, discard := false, phase := p }, sweep := true }
    let r (n : Nat) : RunProgress := { mport := 0, chan := 31, ctx := 7, remaining := some n }
    let b (n : Nat) := active {} { running1 with runs := [r n], extent := 65 }
    let s (a : Activation) : State := { going {} a with activations := [(1, a)] }
    isOk ((s (a .loading)).loadFor (a .loading) 0x3000).2 = true ∧
    ((a .loaded).sweep = true ∧ (s (a .loaded)).givesWay (a .loaded) = false ∧ (s (a .loaded)).isStill (a .loaded) = true ∧
      (s (a .loaded)).stepAdds (a .loaded) = false ∧ ∀ e ∈ (a .loaded).elements, ((s (a .loaded)).element e).block = none) ∧
    ((r 65).needs = false ∧ (s (b 65)).mayStart (b 65) = true ∧ (s (b 65)).oldest (b 65) = 0 ∧ min 65 (0 + 64 - 0) = 64 ∧
      min (min 64 65) (0 + 64 - 0) = 64 ∧ min (min 0 65) (0 + 64 - 0) = 0) := by decide +kernel
/-- Generators of a memory tile: a PUSH of a full token and one of its last word, an ACCEPT with a token of another channel
and one of its own. -/
theorem witness_SequencerEventsOccur_streams :
    let st (b : Bool) (n : Nat) : Stream :=
      { isPush := b, ag := 0, nest := { counts := [n], strides := [4] }, chan := 3, ctx := 0, colour := 1, iter := 0 }
    let a := active {} running1
    let t (c : BitVec 5) : Token := { chan := c, colour := 1 }
    let s (b : Bool) (n : Nat) (c : BitVec 5) : State :=
      { going {} running1 with tiles := [(0x220, { streams := [st b n], fifos := [(0, flitsOf (t c))] })] }
    (∀ n ∈ [1, 64, 65], (st true n).stale = false ∧ portStream ((s true n 3).tile 0x220) true 0 = some 0 ∧
      isOk ((s true n 3).readNest a 0x220 (st true n) 0 (min 64 ((st true n).nest.words - 0))).2 = true) ∧
    (portStream ((s false 9 4).tile 0x220) false 0 = some 0 ∧
      headToken (((s false 9 4).tile 0x220).fifos.getD 0 []) = some (t 4, []) ∧ (t 4).chan ≠ (st false 9).chan) ∧
    (headToken (((s false 9 3).tile 0x220).fifos.getD 0 []) = some (t 3, []) ∧
      ((s false 9 3).acceptWords a 0x220 (st false 9) 0 none ((List.range 8).map (vecWord (t 3).data))).2 =
        (8, none, none) ∧ 8 < (st false 9).nest.words) := by decide +kernel

/-! The events of the engines. -/

/-- A parameter block from its fields: offset and value. -/
def blockOf (fs : List (Nat × Nat)) : BitVec 512 := BitVec.ofNat 512 (fs.map fun f => f.2 * 2 ^ (8 * f.1)).sum
/-- A command of engine e with function f and a block, and the package in which it runs on tile (2, 1). -/
def commandOf (e f : Nat) (p : DWord) (fs : List (Nat × Nat)) (phase : CommandPhase) : Command :=
  { place := 0, colour := 1, phase := phase, block := blockOf fs,
    record := { engine := e, fn := f, flags := 0, parameter := p, eyelet := 0, auxiliary := 0, activation := 0 } }
def chainAt (e : Nat) : ChainId := { engine := e, tile := if e = 5 then 0 else 0x220, owner := if e = 5 then 0 else 1 }
def commanding (k : Command) : State :=
  { going {} running1 with
    circuits := [(0, { source := .tileMem 0x220 0, owner := 1, ends := [.elementPort 0x420 0] })],
    memory := { mapped.memory with mem := mapped.memory.mem ++
      [(0x8000, 1), (0x8001, 0x20), (0x8004, 4), (0x8011, 0x10), (0x8018, 3),
       (0x9001, 0xA0), (0x9005, 0x0C), (0x9006, 3), (0xA000, 1), (0xA308, 0x88), (0xA309, 0xD6), (0xA30A, 0xBD), (0xA30B, 0x27)] },
    chains := [{ id := chainAt k.record.engine, commands := [k] }] }
def works (k : Command) : Bool :=
  decide ((commanding k).working (chainAt k.record.engine) 0 = some (active {} running1, k)) &&
  (commanding k).switching (active {} running1) = false
theorem witness_EngineEventsOccur_startsAndCompletions :
    let w := commandOf 0 0 0x8000 [] .waiting
    let r := (commanding w).engineRead (active {} running1) 0 0x8000 64
    let p := active {} { running1 with role := .shadow }
    let c : State := { commanding w with activations := [(1, p)] }
    ((({ id := chainAt 0, commands := [w] } : Chain).nextCommand = some w ∧ (commanding w).activation 1 = some (active {} running1)) ∧
      (commanding w).mayStart (active {} running1) = true ∧ (commanding w).switching (active {} running1) = false ∧
      (commanding w).tileReady 0x220 = true) ∧
    (p.isPair = true ∧ c.activation 1 = some p ∧ c.mayStart p = true ∧ c.switching p = false ∧ c.tileReady 0x220 = true ∧
      (7 : DWord) ≠ 0) ∧ (commanding { w with phase := .adding }).pushWaits (active {} running1) 0 0 = false ∧
    (match r.2 with
     | .ok bs => isOk (startCommand r.1 (active {} running1) 0x220 { w with block := BitVec.ofNat 512 (natOfBytes bs) }).2
     | .error _ => false) = true ∧
    (active {} running1).mayServe = true ∧ (commanding { w with phase := .adding }).adding (chainAt 0) 0 = false := by
  decide +kernel
/-- Rows of the copy engine and a chunk of the clicker. -/
theorem witness_EngineEventsOccur_rows :
    let c := commandOf 0 0 0 [(0, 0x2001), (4, 4), (0x10, 0x1000), (0x18, 3)] .running
    let g := commandOf 0 1 0 [(0, 0x2001), (4, 4), (0x10, 0x1000), (0x18, 7), (0x20, 0x2000), (0x28, 1)] .running
    let k := commandOf 1 0 0 [(8, 1), (0x0C, 0x1000), (0x10, 0x3000)] .running
    let a := active {} running1
    let u := (commanding g).sideRead a 0 true (0x2000 + 4 * 0) 4
    (∀ m ∈ [c, g, k], works m = true) ∧
    isOk ((commanding c).moveRow a 0x220 c 4 (c.insideCount (c.tuple 0).1) (c.sourceAt (c.tuple 0)) [(c.destAt (c.tuple 0) 0, 16)]).2 = true ∧
    (isOk u.2 = true ∧ isOk (u.1.moveRow a 0x220 g 4 4 0 [(0x1000, 16)]).2 = true) ∧
    isOk (clickStep (commanding k) a k).2 = true := by decide +kernel
/-- A block of rank 1 whose factors are zero, with its CRC-32C, formed in eight parts. -/
def expandHead : List Byte := [1] ++ List.replicate 96 0
def expandZeros : List Byte := List.replicate 97 0
def expandBlock : List Byte := [1] ++ List.replicate 775 0 ++ [0x88, 0xD6, 0xBD, 0x27]
theorem expandBlock_crc : crc32c (expandBlock.take 776) = natOfBytes (expandBlock.drop 776) := by
  have h0 : expandHead.foldl crcByte 0xFFFFFFFF = 601434353 := by decide +kernel
  have h1 : expandZeros.foldl crcByte 601434353 = 2483141222 := by decide +kernel
  have h2 : expandZeros.foldl crcByte 2483141222 = 3459559513 := by decide +kernel
  have h3 : expandZeros.foldl crcByte 3459559513 = 689645117 := by decide +kernel
  have h4 : expandZeros.foldl crcByte 689645117 = 2728679009 := by decide +kernel
  have h5 : expandZeros.foldl crcByte 2728679009 = 1990564769 := by decide +kernel
  have h6 : expandZeros.foldl crcByte 1990564769 = 2539938355 := by decide +kernel
  have h7 : expandZeros.foldl crcByte 2539938355 = 3628214647 := by decide +kernel
  have parts : expandBlock.take 776 = expandHead ++ expandZeros ++ expandZeros ++ expandZeros ++ expandZeros ++
      expandZeros ++ expandZeros ++ expandZeros := by decide +kernel
  have drop : natOfBytes (expandBlock.drop 776) = 666752648 := by decide +kernel
  have out : 3628214647 ^^^ 0xFFFFFFFF = 666752648 := by decide +kernel
  rw [drop, crc32c, parts, List.foldl_append, List.foldl_append, List.foldl_append, List.foldl_append, List.foldl_append,
    List.foldl_append, List.foldl_append, h0, h1, h2, h3, h4, h5, h6, h7, out]
/-- The table engine, the expander at the end of its blocks and at its last block, and the epilogue engine. -/
theorem witness_EngineEventsOccur_tables :
    let b := commandOf 2 0 0 [(4, 0x1FFFFF), (8, 1), (0x0C, 1), (0x10, 1), (0x14, 0x01000000)] .running
    let p := commandOf 2 1 0 [(4, 0x1FFFFF), (8, 1), (0x0C, 0x01000000)] .running
    let n := commandOf 2 2 0 [(4, 0), (8, 0x1FFFFC), (0x0C, 1), (0x10, 1)] .running
    let z := commandOf 3 0 0 [] .running
    let e := commandOf 3 0 0 [(0, 1), (4, 1), (8, 0x9000)] .running
    let i := commandOf 4 0 0 [(0, 0xC0), (8, 1), (0x0C, 128), (0x10, 0x1FFE00), (0x14, 0x1FFFFC), (0x18, 0x1FFE00)] .running
    let a := active {} running1
    let u := (commanding e).engineRead a 3 (e.entryVa 0) 8
    let v := u.1.engineRead a 3 0xA000 780
    (∀ m ∈ [b, p, n, z, e, i], works m = true) ∧
    (b.tableElement a = some 0x230 ∧ (commanding b).scratchGood a 0x1FFFFF 1 = true) ∧
    (p.tableElement a = some 0x230 ∧ (commanding p).scratchGood a 0x1FFFFF 1 = true) ∧
    ((commanding n).scratchGood a 0 (scanBytes n) = true ∧ (commanding n).scratchGood a 0x1FFFFC (scanBytes n) = true) ∧
    (z.blocks = 0 ∧ e.blocks = 1 ∧ e.stallVa = 0) ∧
    (match u.2, v.2 with
     | .ok eb, .ok bs => decide (e.blockOf (natOfBytes eb) = (0xA000, 780)) && decide (natOfBytes eb % 4 = 0) &&
       decide (bs = expandBlock) && isOk (v.1.deliverRows a 0x220 e 0 (expandRows bs).1).2
     | _, _ => false) = true ∧
    parsedSize expandBlock = some 780 ∧
    ((commanding i).scratchGood a 0x1FFE00 (i.epiCols * 4) = true ∧ i.epiOut = 0 ∧ i.columnScales = true ∧ i.rowScales = true ∧
      (commanding i).scratchGood a 0x1FFFFC 4 = true) := by decide +kernel
/-- Rows of SCATTER within the bound and beyond it. -/
theorem witness_EngineEventsOccur_scatter :
    let g := commandOf 0 2 0 [(0, 0x2001), (4, 4), (8, 0x1000), (0x18, 7), (0x20, 0x2000), (0x28, 1), (0x2C, 1)] .running
    let a := active {} running1
    let beyond := (commanding g).scratchWriteNat a 0x2000 4 1
    let u := (commanding g).sideRead a 0 true (0x2000 + 4 * 0) 4
    works g = true ∧ isOk u.2 = true ∧ isOk (u.1.moveRow a 0x220 g 4 4 0x1000 [(0, 16)]).2 = true ∧
    beyond.working (chainAt 0) 0 = some (a, g) ∧ beyond.switching a = false ∧ g.bound ≠ 0 ∧
    (match (beyond.sideRead a 0 true (0x2000 + 4 * 0) 4).2 with
     | .ok ib => decide (g.bound ≤ natOfBytes ib)
     | _ => false) = true := by decide +kernel
/-- An ST32 build with and without a word for G, one whose columns disagree, patches of ST32 in both forms, and rows of the epilogue
engine in bf16 and in i8. -/
theorem witness_EngineEventsOccur_forms :
    let b (n g : Nat) := commandOf 2 0 0 [(0, 1), (8, 1), (0x0C, n), (0x10, 136), (0x14, 0x01000000), (0x20, g)] .running
    let p (ctl : Nat) := commandOf 2 1 0 [(0, ctl), (8, 1), (0x0C, 0x01000000)] .running
    let i (ctl : Nat) := commandOf 4 0 0 [(0, ctl), (8, 1), (0x0C, 128), (0x18, 0x1FFE00), (0x24, 0x1FFFFC)] .running
    let a := active {} running1
    let apart := (commanding (b 2 0)).scratchWriteNat a 268 4 0x3F800000
    (∀ m ∈ [b 1 0xFFFFFFFF, b 1 0x1FFFFC, p 1, p 3, i 0x10, i 0x20], works m = true) ∧
    ((b 1 0x1FFFFC).isSt32 = true ∧ (b 1 0x1FFFFC).tableElement a = some 0x230 ∧
      (commanding (b 1 0x1FFFFC)).scratchGood a 0 136 = true ∧ (commanding (b 1 0x1FFFFC)).scratchGood a 0x1FFFFC 4 = true ∧
      isFinite32 ((commanding (b 1 0x1FFFFC)).scratchNat a 132 4) = true) ∧
    (apart.working (chainAt 2) 0 = some (a, b 2 0) ∧ apart.switching a = false ∧ apart.scratchGood a 136 136 = true ∧
      apart.scratchGood a 0 4 = true ∧ apart.scratchNat a 268 4 ≠ apart.scratchNat a 132 4) ∧
    ((p 3).tableElement a = some 0x230 ∧ (commanding (p 1)).scratchGood a 0 4 = true ∧
      (commanding (p 3)).scratchGood a 0 (256 * 4) = true) ∧
    ((i 0x10).epiOut = 1 ∧ (commanding (i 0x10)).scratchGood a 0x1FFE00 (128 * 2) = true ∧ (i 0x10).columnScales = false) ∧
    ((i 0x20).epiOut = 2 ∧ (commanding (i 0x20)).scratchGood a 0x1FFE00 128 = true ∧
      (commanding (i 0x20)).scratchGood a 0x1FFFFC 4 = true) := by decide +kernel
/-- The expander at a block with a stall counter. -/
theorem witness_EngineEventsOccur_stall :
    let e := commandOf 3 0 0 [(0, 1), (4, 1), (8, 0x9000), (0x30, 0x5000)] .running
    let a := active {} running1
    let w := (commanding e).engineReach a 3 .atomic 0x5000 8
    works e = true ∧ e.stallVa ≠ 0 ∧
    (match w.2 with
     | .ok ps => match w.1.loadPieces a e.stallVa ps with
       | (y, .ok old) => decide (natOfBytes old = 0) && isOk (y.storePieces a e.stallVa (leBytes 8 0) ps).2
       | _ => false
     | _ => false) = true := by decide +kernel
/-- A package whose context 0 has a stack of 1,024 bytes with a spill area of 1,024 bytes, HIGH and LOW of 256 and NEAR of 512. -/
def spilling (l : List StackEntry) (k : Command) : State :=
  { commanding k with
    memory := { mapped.memory with mem := mapped.memory.mem ++ [(0x4002, 0x10), (0x4009, 4), (0x4012, 0x20), (0x4019, 4),
      (0x4021, 1), (0x4029, 1), (0x4031, 2)] },
    host := { mapped.host with stkbase := 0x4000 }, stackOf := [(0, l)] }
theorem witness_EngineEventsOccur_stacks :
    let a := active {} running1
    let k (f : Nat) : Command := { commandOf 5 f 0x5000 [] .running with
      record := { (commandOf 5 f 0x5000 [] .running).record with auxiliary := 8 } }
    let e : StackEntry := { length := 8, ring := [0] }
    let out : StackEntry := { length := 8, state := .spilled, spill := [0] }
    let s (l : List StackEntry) := spilling l (k 1)
    let d := (s []).stackDesc 0
    let two := [e, { e with ring := [1] }]
    let spills := [{ e with state := .spilling }, { e with ring := [1] }]
    let three := spills ++ [{ e with ring := [2] }]
    (∀ f ∈ [0, 1], (spilling [e] (k f)).working (chainAt 5) 0 = some (a, k f) ∧
      servedBefore ((spilling [] (k f)).chain (chainAt 5)) 0 = true) ∧
    (ringHasRoom d [] 8 = true ∧ (spilling [] (k 0)).switching a = false ∧ a.cancelled = false) ∧
    isOk (pushStack (spilling [] (k 0)) a (k 0)).2 = true ∧ isOk (popStack (s [e]) a (k 1) e).2 = true ∧
    (d.lsize ≠ 0 ∧ d.high < ringBytes two ∧ spillCandidate two = some 0 ∧ ∀ f ∈ two, f.state ≠ .spilling) ∧
    (spills.findIdx? (fun f => f.state = .spilling) = some 0 ∧ (s []).tierReady d.lbase = true ∧
      freeBlocks (·.spill) spills d.lsize 8 = [0] ∧ isOk ((s spills).areaRead d.hbase [0] 8).2 = true ∧
      ((s spills).areaMove 0 d.lbase [0] (List.replicate 8 0)).2 = none ∧ ringBytes [out, { e with ring := [1] }] ≤ d.low) ∧
    (d.low < ringBytes (three.set 0 out) ∧ spillCandidate (three.set 0 out) = some 1) ∧
    (aboveEntry [out, e] 0 < d.near ∧ ringBytes [out, e] + occupied 8 ≤ d.hsize) ∧
    (freeBlocks (·.ring) [{ out with state := .returning }, e] d.hsize 8 = [1] ∧ isOk ((s []).areaRead d.lbase [0] 8).2 = true ∧
      ((s []).areaMove 0 d.hbase [1] (List.replicate 8 0)).2 = none) := by decide +kernel

/-! The events of the schedulers. -/

/-- A package whose first two rows are ready, with an image at 0x7000, a chain of ASID 0 with one slot at 0x6000 that may be pre-empted, and some entries. -/
def anEntry : Entry := { id := 1, va := 0x6000, record := blockOf [(0, 0x7000), (0x1A, 5), (0x20, 7), (0x24, 0xFFFF)] }
def queued (es : List Entry) (as_ : List (Nat × Activation)) : State :=
  { mapped with
    host := { mapped.host with rdyt := [(0, 0xFFF), (1, 0xFFF), (28, 0xFFF), (29, 0xFFF)] }, activations := as_, sched := { entries := es },
    memory := { mapped.memory with mem := [(1, 0x60), (8, 1), (0x10, 1), (0x16, 3), (0x22, 0x80)] ++ mapped.memory.mem ++
      [(0x7000, 1), (0x7004, 2), (0x7005, 2), (0x7006, 1), (0x7010, 92), (0x7040, 7), (0x7044, 12), (0x7048, 80), (0x7050, 1)] } }
def placedAt (v : Verdict) : Option (Nat × Nat) :=
  match v with
  | .place p none => some p
  | _ => none
/-- A slot between HEAD and TAIL; a record that its own die places, or takes from the die beside it; a gang of two. -/
theorem witness_SchedulerEventsOccur_placement :
    let s := queued [anEntry] []
    let p : Entry := { anEntry with edges := [(0, true)] }
    let q : Entry := { anEntry with id := 2, edges := [(0, false)] }
    let g := queued [p, q] []
    let m := s.meetDesc 0
    (s.chainEnabled 0 = true ∧ s.chainUsed 0 = 1 ∧ m.chainEnabled 0 = true ∧ m.chainUsed 0 = 1 ∧
      isOk (m.readBytes 0 .read false (m.slotVa 0 (m.chainHead 0)) 64).2 = true ∧
      (m.readBytes 0 .read false (m.slotVa 0 (m.chainHead 0)) 64).1.chainEnabled 0 = true) ∧
    freshColours (((s.noteTried (s.scanDie 0).1).takeTurn 0 anEntry).dropReservations anEntry).usedColours 1 = some [1] ∧
    (s.queuesCurrent = true ∧ (s.noteTried (s.scanDie 0).1).queuesCurrent = true ∧ g.queuesCurrent = true) ∧
    ((s.scanDie 0).2.map fun r => (r.1, placedAt r.2)) = some (anEntry, some (3, 0)) ∧
    (s.scanDie 1).2.isNone = true ∧
    (((askedDies 1).findSome? (s.stealable 1)).map fun r => (r.1, placedAt r.2)) = some (anEntry, some (3, 0)) ∧
    (s.placeRecord 1 anEntry (3, 0) none).isSome = true ∧
    (match (g.scanDie 0).2 with
     | some (e, .gang ps) => decide (e = p) && (g.placeGang 0 ps).isSome
     | _ => false) = true := by decide +kernel
/-- Entries that have waited long enough to gain a level, to starve others, to look for a victim and to reserve a region. -/
theorem witness_SchedulerEventsOccur_entries :
    let a : Activation := { active {} running1 with walkRecord := 0 }
    let old (e : Entry) : State := { queued [e] [(1, a)] with cycle := 1048576 }
    let low : Entry := { anEntry with record := blockOf [(0x20, 6)] }
    let f : Entry := { anEntry with failedAt := some 0 }
    let v : State := { queued [f] [(1, a)] with cycle := 4096, host := { mapped.host with rdyt := [] } }
    let w : Entry := { anEntry with record := blockOf [(0, 0x7000), (0x1C, 6), (0x24, 5)], pending := true }
    let b : Activation := { a with phase := .walking, entry := { a.entry with record := blockOf [(0x1C, 5)] } }
    let s : State := { queued [w] [(1, b)] with sched := { entries := [w], counters := [((0, 0, 3, 5), 1)] } }
    let n := newActivation s 0 w (5, 0) 0
    (low.pending = false ∧ entryLevel low = 6 ∧ low.gained < ((old low).cycle - low.since) / 2 ^ 20) ∧
    (f.starved = false ∧ (old f).levelOf f = 7 ∧ f.failedAt = some 0) ∧
    (v.eligible f = true ∧ (match v.verdict 0 f with
      | .fails => true
      | _ => false) = true ∧ v.chooseVictim f = some a ∧ f.claim = none ∧ f.resumes = none ∧
      ∀ g ∈ v.sched.entries, g.id = f.id) ∧
    (w.pending = true ∧ w.held = false ∧ w.reserved = none ∧ w.edges = [] ∧ isRedundant w.record = false ∧
      counterOf s (afterKey w) = 1 ∧ w.asid ∉ s.sched.saved) ∧
    (s.blockers w = [] ∧ b.phase = .walking ∧ b.cancelled = false ∧ b.die = w.die ∧ b.entry.asid = w.asid ∧
      afterKey w ∈ counterKeys b.entry.asid b.entry.record ∧ s.freePlace 0 w [] = some (5, 0)) ∧
    isOk ((s.acquire n).configFor n noWays).2 = true := by decide +kernel
/-- A victim at rest, one saved whose entry comes up, the ends of an activation and of a pair, a colour that returns after
1,048,576 cycles, and a permit that just fits. -/
theorem witness_SchedulerEventsOccur_activations :
    let a := active {} running1
    let v : Activation := { a with victim := some true }
    let z : Activation := { a with phase := .saved, frame := some {}, asks := [{ cls := 1, at_ := 0 }] }
    let r : Entry := { anEntry with resumes := some 1 }
    let f : Activation := { a with phase := .finishing }
    let w : Activation := { a with phase := .walking, walkRecord := 1 }
    let p : Activation := { f with role := .primary, partner := 2 }
    let q (d : DWord) : Activation := { f with colour := 2, role := .shadow, partner := 1, x0 := 4, digestB := d }
    let pair (d : DWord) := queued [] [(1, p), (2, q d)]
    let k : Activation := { a with asks := [{ cls := 4, at_ := 0, run := true }], permit := 1 }
    let b : State := { queued [] [(1, k)] with host := { mapped.host with budget := classRate 4 * (2 * 2) } }
    let y : Activation := { a with cancelled := true, code := 0x66 }
    (y.phase ≠ .walked ∧ (queued [] [(1, y)]).pairToStop y = none ∧
      ({ queued [] [(1, y)] with links := [(0, { commands := [{ (default : Collective) with colour := 1 }] })] } : State).collects 1 =
        true ∧
      (queued [] [(1, y)]).combineRetried 1 = false ∧ (queued [] [(1, y)]).collects 1 = false ∧ (queued [] [(1, y)]).hasStopped y = true ∧
      ((queued [] [(1, y)]).endCancelled y).isSome = true) ∧
    ((queued [] [(1, v)]).paused v = true ∧ v.phase = .running ∧ v.cancelled = false) ∧
    ((match ((queued [r] [(1, z)]).scanDie 0).2 with
      | some (e, .resume at_) => decide (e = r) && at_.any fun m => m.1 = 1
      | _ => false) = true ∧ (queued [r] [(1, z)]).queuesCurrent = true) ∧
    (queued [] [(1, w)]).ringFull 0 = false ∧ (queued [] [(1, f)]).endReached f = true ∧
    ((queued [] [(1, w)]).walkOn w).isSome = true ∧
    ((pair 0).endReached p = true ∧ (pair 0).endReached (q 0) = true ∧ (pair 1).endReached p = true ∧
      (pair 1).endReached (q 1) = true) ∧
    ([(1, 0)].find? (fun c => c.1 = 1) = some (1, 0) ∧ 0 + 1048576 ≤ 1048576) ∧
    (b.nextRequest = some k ∧ k.asks = [{ cls := 4, at_ := 0, run := true }] ∧
      b.permitTotal k + b.chargeWith k 4 = b.host.budget ∧ b.host.throttled = false) := by decide +kernel

/-- A victim at rest in a context without a save area, to which nothing is written. -/
theorem witness_SchedulerEventsOccur_save :
    let v : Activation := { active {} running1 with victim := some true }
    let s : State := { mapped with activations := [(1, v)] }
    s.paused v = true ∧ v.cancelled = false ∧ v.phase = .running ∧
    (s.writeSave 0 (saveOffset (s.savedParts 0) (2 ^ 23), 2 ^ 23)).activation 1 = some v := by
  intro v s
  have size : (s.meetDesc 0).descField 0 0x20 8 = 0 := by decide +kernel
  have stands : (s.meetDesc 0).activation 1 = some v := by decide +kernel
  refine ⟨by decide +kernel, rfl, rfl, ?_⟩
  simp only [State.writeSave, size, Nat.not_lt_zero, decide_false, Bool.and_false, List.filter_false, List.foldl_nil,
    List.findSome?_nil, stands]

/-! The algorithms, the host, the package and the links. -/

/-- The numbers of a chunk at both ends of the values a byte holds. -/
theorem witness_ClickRunsStayWithinTolerance :
    (∀ y ∈ [-128, 127, (0 : Int)], -128 ≤ y ∧ y ≤ 127) ∧ (clickRuns 254 [-128, 127, 0]).length = 2 ∧
    (clickRuns 255 [-128, 127, 0]).length = 1 := by decide
/-- The last context, job and identifier; an answer to no held fault, and to one that a SKIP does not end; the functions and
contexts that may invalidate. -/
theorem witness_HostAppendsAnswersAndInvalidates :
    let x : Sequencer := { held := some { info := { code := 0x23 } } }
    let s := going x running1
    (255 < 256 ∧ 4 ≤ 4 ∧ 65535 < 65536) ∧ counterOf s (255, 65535, 4, 65535) = 0 ∧ s.respondTo 1 0 1 = none ∧
    s.respondTo 0 0 1 = some (active x running1) ∧ s.skipKills (active x running1) = false ∧
    (s.vfOf 0 = 0 ∧ s.vfOf 255 = 0) ∧ 128 ≤ 128 := by decide +kernel
/-- Values of the LLC registers whose fields are at the ends of their ranges, mailboxes that are busy and not, registers of the
last function, and addresses of memory and of none. -/
theorem witness_HostRegistersAndAccesses :
    let go : DWord := 0x8000000000000000
    let m (c : DWord) : State := mapped.putMailbox 128 { ctl := c }
    (go.getLsbD 63 = true ∧ slice (go ||| 0x2000000000000000).toNat 61 48 ≠ 0 ∧ slice (go ||| 1).toNat 4 0 ≠ 0 ∧
      slice go.toNat 61 48 = 0 ∧ slice go.toNat 4 0 = 0) ∧
    (slice (go ||| 0x1000000000000).toNat 49 48 = 1 ∧ slice (go ||| 0x2000000000000).toNat 49 48 = 2 ∧
      llcopGood (go ||| 0x2000000000000) = true ∧ mapped.upsets = [] ∧ mapped.host.llcinj.getLsbD 63 = false) ∧
    (slice (0x80 : DWord).toNat 5 0 < 36 ∧ slice (0xA3A3 : DWord).toNat 13 8 < 36 ∧ ((0xA3A3 : DWord).setWidth 32 : Word).getLsbD 15 = true ∧
      (0xA3A3 : Word) &&& 0xBF ≠ 0) ∧
    ((1 : DWord).getLsbD 0 = true ∧ ((m 2).mailbox 128).busy = false ∧ ((m 1).mailbox 128).busy = true) ∧
    mapped.vfOf 255 = 0 ∧
    ((2 ^ 47 : Nat) % 8 = 0 ∧ (isHbm (2 ^ 47) || isCxl (2 ^ 47)) = false) ∧
    ((isHbm 8 || isCxl 8) = true ∧ mapped.tierReady 8 = true ∧ mapped.retired 8 = false ∧
      (mapped.llcRead 8 8).2.isSome = true ∧ (mapped.llcWrite 0 0 8 (leBytes 8 7)).retired 8 = false) := by decide +kernel
theorem witness_PowerReadinessAndReset :
    (3 < 4 ∧ 31 < 32 ∧ 499 < 500) ∧ tileId 3 27 27 ∉ State.reset.host.withdrawn ∧
    State.reset.linkQuarantined (tileId 3 27 25) = false ∧ rdysBit (.port 6) = some 6 ∧
    rdysBit (.welt 23) = some 46 ∧ (1 ≤ 128 ∧ 128 ≤ 128) := by decide
/-- A region at which a message arrives, with a frame that has failed sixteen times on link 23, and one of its own there. -/
def receiving (ctx : BitVec 3) (n : Nat) : State :=
  { going {} running1 with
    elements := [(0x230, { enabledEl with ports := [(3, { remote := List.replicate n aFlit })] })],
    welt := { messages := [{ dest := 1, source := 65536, token := { colour := 1, ctx := ctx }, flits := 1, born := 0 }],
              sent := [{ link := 23, cycle := 0, cargo := .message default }], resent := [(23, n)],
              replays := [(23, (.message { dest := 1, flits := 8, age := 0, last := false, iter := 0, data := 0 }, 16))] } }
theorem witness_WeltEventsOccur_messages :
    let s := receiving 0 15
    let m : Message := { dest := 1, source := 65536, token := { colour := 1 }, flits := 1, born := 0 }
    let far : Message := { m with dest := 2 ^ 34 + 1 }
    let f : WeltMessage := { dest := 1, flits := 8, age := 9, last := false, iter := 0, data := 0 }
    let z : Activation := { active {} running1 with phase := .saved }
    (mapped.host.rdys.getLsbD (23 + 23) = true ∧ mapped.welt.replays = [] ∧ mapped.linkStopped 23 = false) ∧
    (active {} running1).mayServe = true ∧
    (s.inboundFlits z.die < 2048) ∧ (s.host.rdys.getLsbD 46 = true ∧ s.linkStopped 23 = false ∧
      (s.welt.replays.all fun r => sameFrame r.2.1 (.message f) && decide (16 ≤ r.2.2)) = true ∧ f.flits ≠ 0 ∧ f.flits ≤ 8) ∧
    ((s.welt.sent.any fun f => f.link = 23) = true ∧ s.welt.resent.getD 23 0 < 16 ∧
      16 ≤ (receiving 0 16).welt.resent.getD 23 0) ∧
    ((({ s with activations := [(1, z)] } : State).activation 1 = some z ∧ z.phase = .saved ∧
      ({ s with activations := [(1, z)] } : State).inboundFlits z.die + m.flits ≤ 2048) ∧
      ({ s with activations := [(1, z)] } : State).waitsFor [] m = false) ∧
    (s.welt.messages[0]? = some m ∧ m.buffered = false ∧ 524288 < 524288 + (1 - m.born) ∧ s.cycle - m.born ≤ 524288) ∧
    (s.waitsFor [] m = false ∧ destPackage far.dest ≠ s.host.domid.toNat % 1024 ∧ destPackage m.dest = s.host.domid.toNat % 1024) ∧
    (s.wayOf { m with die := 3 } = 0 ∧ s.wayOf m = m.die ∧ s.wayOf far = far.die) ∧
    (mapped.activation (destColour m.dest) = none ∧ s.activation (destColour m.dest) = some (active {} running1)) ∧
    (m.die = destDie m.dest ∧ (active {} running1).die = destDie m.dest ∧
      (active {} running1).computeTiles[destTile m.dest]? = some 0x230 ∧ (active {} running1).phase ≠ .saved ∧
      destElement m.dest = 0) ∧
    (ctxEnabled (s.element 0x230) 1 = false ∧ ctxEnabled (s.element 0x230) 0 = true ∧ m.token.chan.toNat ≤ hspan (s.element 0x230) 0 ∧
      (((s.element 0x230).ports.getD 3 {}).remote).length + (flitsOf m.token).length ≤ 16) := by decide +kernel
/-- A frame of a link region, which is no message. -/
theorem witness_WeltEventsOccur_frames :
    (∀ m, WeltFrame.abort 0 default ≠ .message m) ∧ WeltFrame.abort 0 default ≠ .own ∧
    mapped.host.rdys.getLsbD 46 = true ∧ mapped.linkStopped 23 = false ∧ mapped.welt.replays = [] :=
  ⟨fun _ h => by (cases h), by decide, by decide +kernel, by decide +kernel, rfl⟩
/-- A link region whose first command adds 16 bytes over two ranks. -/
def reducing (k : Collective) : State := { going {} running1 with links := [(0, { commands := [k] })] }
def aCollective : Collective :=
  { place := 0, fn := 0, record := default, colour := 1, asid := 0, job := 0, running := true, ranks := [0, 1], agreed := [1],
    block := blockOf [(4, 16), (0x28, 2)] }
theorem witness_WeltEventsOccur_collectives :
    let k := { aCollective with owed := 1 }
    let o := { aCollective with agreed := [] }
    let p := { o with block := blockOf [(4, 16), (0x28, 2), (0x2A, 1)] }
    let c : Chunk := { step := 1, slice := 0, index := 0, rank := 1, bytes := [] }
    (∀ x ∈ [k, o, aCollective], (reducing x).headCommand 0 0 = some (x, active {} running1)) ∧
    ((reducing k).collectiveAct 0 k (active {} running1)).isSome = true ∧
    (o.running = true ∧ announcedParameters p.announcement = announcedParameters o.announcement ∧ announcedRank p.announcement = 1 ∧
      1 < o.n ∧ 1 ≠ o.rank ∧ 1 ∉ o.agreed ∧ announcedRank o.announcement = o.rank) ∧
    ((reducing aCollective).receiveChunk 0 aCollective 2 0 0 1 0 (List.replicate 16 0)
      (checksumPair aCollective.type (List.replicate 16 0))).isSome = true ∧
    ((reducing { aCollective with kept := [c] }).linkChain 0).commands.head? = some { aCollective with kept := [c] } ∧
    ({ aCollective with kept := [c] }.kept.find? (fun x => x.step = 1 && x.slice = 0 && x.index = 0 && x.rank = 1) = some c) ∧
    ((reducing aCollective).host.rdys.getLsbD (23 + 23) = true ∧ (reducing aCollective).linkStopped 23 = false ∧
      (reducing aCollective).welt.replays = []) := by decide +kernel

/-! Whole-machine rules. -/

/-- A block at an instruction of element 0. -/
def executing : State :=
  { State.reset with focus := .element 0, elements := [(0, { code := [(0, 0x08863FC0)], block := some {} })] }
theorem witness_StepsKeepMemoriesCanonical : executing.memoryGood ∧ ∃ t, step executing = .next t :=
  ⟨⟨rfl, fun _ h => by simp [executing, State.reset] at h, fun _ h => by simp [executing, State.reset] at h⟩, _, rfl⟩
theorem witness_BlocksTouchOnlyTheirElement :
    executing.halted = false ∧ executing.agenda = [] ∧ RunsBlock executing 0 {} ∧
    (∃ t b', step executing = .next t ∧ (t.element 0).block = some b') ∧
    executing.upsets = [] ∧ executing.host.llcinj.getLsbD 63 = false ∧ executing.memoryGood ∧ executing.cleanAgrees :=
  ⟨rfl, rfl, ⟨rfl, rfl⟩, ⟨_, _, rfl, rfl⟩, rfl, rfl, witness_StepsKeepMemoriesCanonical.1,
    fun _ _ h => by simp [executing, State.reset, findLine] at h⟩
theorem witness_OnlyResetEndsAFatalError :
    let s : State := { State.reset with halted := true, agenda := [.monitorRead 4 0 0] }
    s.halted = true ∧ s.agenda.head? ≠ some .reset ∧ s.agenda ≠ [] ∧ ∃ t, step s = .next t := by
  exact ⟨rfl, by decide, by decide, _, rfl⟩

end Sys2Proof.Tests
end

section
/-! SUPPORT. Between packages: when a frame can come over a link and what it leaves, what becomes of a message on its way, and
how the first command of a link region's chain takes its inputs (23 R355 to R369; 22 R344 to R351). -/
namespace Sys2Proof.Machine

variable (s : State)

/-! ## Frames (23 R356, R357) -/

theorem State.linkOpen_iff (link : Nat) (f : WeltFrame) :
    s.linkOpen link f = true ↔ link < 24 ∧ s.host.rdys.getLsbD (23 + link) = true ∧ s.linkStopped link = false ∧
      ∀ g n, s.welt.replays.find link = some (g, n) → sameFrame g f = true := by
  unfold State.linkOpen
  rcases hr : s.welt.replays.find link with _ | ⟨g, n⟩ <;> simp [and_assoc]

theorem exec_weltFrameReceive_message {link : Nat} {m : WeltMessage} (ho : s.linkOpen link (.message m) = true)
    (h0 : m.flits ≠ 0) (h8 : m.flits ≤ 8) (crcGood : Bool) :
    exec (.weltFrameReceive link (.message m) crcGood) s = .next (if crcGood then
        { s.tookFrame link with
          welt := { (s.tookFrame link).welt with messages := s.welt.messages ++ [arrivedMessage s.cycle link m] } }
      else s.failFrame link (.message m)) := by
  have h8' : ¬8 < m.flits := by omega
  cases crcGood <;> simp [execWeltFrameReceive, ho, h0, h8', State.tookFrame]

/-- A frame for a link region is there once it has come; the command takes it in a step of its own. -/
theorem exec_weltFrameReceive_region {link : Nat} {f : WeltFrame} (ho : s.linkOpen link f = true) (hown : f ≠ .own)
    (hm : ∀ m, f ≠ .message m) (crcGood : Bool) :
    exec (.weltFrameReceive link f crcGood) s = .next (if crcGood then s.tookFrame link else s.failFrame link f) := by
  cases f with
  | message m => exact absurd rfl (hm m)
  | own => exact absurd rfl hown
  | region die lreg input => simp [execWeltFrameReceive, occurs, ho]
  | abort die command => simp [execWeltFrameReceive, occurs, ho]

theorem exec_weltFrameReceive_bad {link : Nat} {f : WeltFrame} (ho : s.linkOpen link f = true) (hown : f ≠ .own)
    (hm : ∀ m, f = .message m → m.flits ≠ 0 ∧ m.flits ≤ 8) :
    exec (.weltFrameReceive link f false) s = .next (s.failFrame link f) := by
  by_cases h : ∃ m, f = .message m
  · obtain ⟨m, rfl⟩ := h
    obtain ⟨h0, h8⟩ := hm m rfl
    exact exec_weltFrameReceive_message s ho h0 h8 false
  · exact exec_weltFrameReceive_region s ho hown (fun m hf => h ⟨m, hf⟩) false

theorem exec_weltFrameReceive_own {link : Nat} (hl : link < 24) (hr : s.host.rdys.getLsbD (23 + link) = true)
    (hs : ∃ f ∈ s.welt.sent, f.link = link) (crcGood : Bool) :
    exec (.weltFrameReceive link .own crcGood) s = .next (s.ownFrame link crcGood) := by
  have sent : (s.welt.sent.any fun f => f.link = link) = true := by simpa using hs
  simp [execWeltFrameReceive, occurs, hl, hr, sent]

/-! ## A link that goes down (23 R356) -/

theorem State.sendFrame_keeps (package : Nat) (c : WeltCargo) :
    (s.sendFrame package c).host.rdys = s.host.rdys ∧ (s.sendFrame package c).welt.messages = s.welt.messages := by
  unfold State.sendFrame
  split
  · exact ⟨rfl, rfl⟩
  · split <;> exact ⟨rfl, rfl⟩

theorem State.resendFrames_keeps (link : Nat) :
    (s.resendFrames link).host.rdys = s.host.rdys ∧ (s.resendFrames link).welt.messages = s.welt.messages := by
  unfold State.resendFrames
  refine List.foldlRecOn (motive := fun t : State => t.host.rdys = s.host.rdys ∧ t.welt.messages = s.welt.messages) _ _
    ⟨rfl, rfl⟩ ?_
  rintro t ⟨hr, hm⟩ f -
  have sends (package : Nat) (c : WeltCargo) : (t.sendFrame package c).host.rdys = s.host.rdys ∧
      (t.sendFrame package c).welt.messages = s.welt.messages :=
    ⟨(t.sendFrame_keeps package c).1.trans hr, (t.sendFrame_keeps package c).2.trans hm⟩
  split
  · dsimp only
    split
    · exact ⟨hr, hm⟩
    · exact sends _ _
  · exact sends _ _

theorem State.blackBox_keeps (kind : Nat) (fs : List (Nat × Nat × Nat)) :
    (s.blackBox kind fs).host.rdys = s.host.rdys ∧ (s.blackBox kind fs).welt = s.welt := by
  unfold State.blackBox
  split <;> exact ⟨rfl, rfl⟩

theorem State.setRdys_off {bit : Nat} (h : bit < 64) : (s.setRdys bit false).host.rdys.getLsbD bit = false := by
  simp [State.setRdys, h]

/-- A link that is down is not ready, and no message of the package is lost by it. -/
theorem State.linkDown_isDown {link : Nat} (h : link < 24) :
    (s.linkDown link).host.rdys.getLsbD (23 + link) = false ∧ (s.linkDown link).welt.messages = s.welt.messages := by
  unfold State.linkDown
  dsimp only
  rw [(State.resendFrames_keeps _ link).1, (State.resendFrames_keeps _ link).2, (State.blackBox_keeps _ _ _).1,
    (State.blackBox_keeps _ _ _).2]
  exact ⟨State.setRdys_off _ (by omega), rfl⟩

theorem State.failFrame_replays {link : Nat} {f : WeltFrame} (h : ((s.welt.replays.find link).map (·.2)).getD 0 < 16) :
    s.failFrame link f = { s with welt := { s.welt with
      replays := s.welt.replays.put link (f, ((s.welt.replays.find link).map (·.2)).getD 0 + 1) } } := if_pos h

theorem State.failFrame_down {link : Nat} {f : WeltFrame} (h : 16 ≤ ((s.welt.replays.find link).map (·.2)).getD 0) :
    s.failFrame link f = s.linkDown link := if_neg h.not_gt

theorem State.ownFrame_replays {link : Nat} (h : s.welt.resent.getD link 0 < 16) :
    s.ownFrame link false = { s with welt := { s.welt with
      resent := s.welt.resent.put link (s.welt.resent.getD link 0 + 1) } } := if_pos h

theorem State.ownFrame_down {link : Nat} (h : 16 ≤ s.welt.resent.getD link 0) :
    s.ownFrame link false = s.linkDown link := if_neg h.not_gt

/-! ## Messages on their way (02 R13; 12 R191; 23 R357, R359) -/

/-- The state without the message at a place, before it meets its fate. -/
def State.withoutMessage (i : Nat) : State :=
  { s with welt := { s.welt with messages := s.welt.messages.eraseIdx i } }

variable {s} {i : Nat} {m : Message}

theorem Message.tooOld_eq_false {now : Nat} (h : m.buffered = true ∨ m.age now ≤ 524288) : m.tooOld now = false := by
  simpa [Message.tooOld, imp_iff_not_or] using h

theorem State.isHere_iff : s.isHere m = true ↔ destPackage m.dest = s.host.domid.toNat % 1024 := by
  simp [State.isHere, State.isOwnPackage]

theorem State.wayOf_of_isHere (h : s.isHere m = true) : s.wayOf m = destDie m.dest := if_pos h

theorem exec_weltMessageAgeDiscard_old (hm : s.welt.messages[i]? = some m) (hb : m.buffered = false)
    (ha : 524288 < m.age s.cycle) : exec (.weltMessageAgeDiscard i) s = .next (s.withoutMessage i).dropMessage := by
  simp [execWeltMessageAgeDiscard, hm, occurs, Message.tooOld, hb, ha, State.withoutMessage]

/-- The message at a place of the list is neither too old nor waits for an earlier one. -/
def State.mayMove (s : State) (i : Nat) (m : Message) : Prop :=
  s.welt.messages[i]? = some m ∧ m.tooOld s.cycle = false ∧ s.waitsFor (s.welt.messages.take i) m = false

theorem exec_sendrDelivery_crosses (h : s.mayMove i m) (hd : m.die ≠ s.wayOf m) :
    exec (.sendrDelivery i) s = .next { s with welt := { s.welt with
      messages := s.welt.messages.set i { m with die := bridgeTo s.tick m.die (s.wayOf m) } } } := by
  obtain ⟨hm, hage, hw⟩ := h
  simp [execSendrDelivery, hm, hage, hw, hd]

theorem exec_sendrDelivery_leaves (h : s.mayMove i m) (hd : m.die = s.wayOf m) (hh : s.isHere m = false) :
    exec (.sendrDelivery i) s = .next ((s.withoutMessage i).forwardMessage m) := by
  obtain ⟨hm, hage, hw⟩ := h
  simp [execSendrDelivery, hm, hage, hw, ← hd, hh, State.withoutMessage]

theorem exec_sendrDelivery_arrives (h : s.mayMove i m) (hd : m.die = destDie m.dest) (hh : s.isHere m = true) :
    exec (.sendrDelivery i) s = s.deliverMessage i m := by
  obtain ⟨hm, hage, hw⟩ := h
  simp [execSendrDelivery, hm, hage, hw, hh, hd, State.wayOf_of_isHere hh]

/-! ## Messages on their die (23 R358, R359) -/

variable {a : Activation} {el : Nat}

theorem State.destOf_eq_none_of_colour (h : s.activation (destColour m.dest) = none) : s.destOf m = none := by
  simp [State.destOf, h]

theorem State.destOf_eq_none_of_region (ha : s.activation (destColour m.dest) = some a)
    (h : a.die ≠ destDie m.dest ∨ a.computeTiles[destTile m.dest]? = none) : s.destOf m = none := by
  rcases h with h | h <;> simp [State.destOf, ha, h]

theorem State.destOf_eq_some {tile : Nat} (ha : s.activation (destColour m.dest) = some a) (hd : a.die = destDie m.dest)
    (ht : a.computeTiles[destTile m.dest]? = some tile) : s.destOf m = some (a, tile + destElement m.dest) := by
  simp [State.destOf, ha, hd, ht]

theorem State.deliverMessage_lost (h : s.destOf m = none) :
    s.deliverMessage i m = .next (s.withoutMessage i).dropMessage := by
  simp [State.deliverMessage, h, State.withoutMessage]

theorem State.inboundFull_eq_false {die : Nat} (h : s.inboundFlits die < 2048) : s.inboundFull die = false :=
  decide_eq_false h.not_ge

theorem State.lacksRoom_of_saved (h : s.destOf m = some (a, el)) (hp : a.phase = .saved) (hb : m.buffered = false)
    (hf : s.inboundFlits a.die < 2048) (hr : s.inboundFlits a.die + m.flits ≤ 2048) : s.lacksRoom m = false := by
  simp [State.lacksRoom, h, hp, hb, State.inboundFull_eq_false hf, hr]

/-- The element has a handler range for the context and the channel of a message. -/
def State.handles (s : State) (el : Nat) (m : Message) : Prop :=
  ctxEnabled (s.element el) m.token.ctx.toNat = true ∧ m.token.chan.toNat ≤ hspan (s.element el) m.token.ctx.toNat

/-- A message for a placed activation has room unless its element handles it and its remote FIFO is full. -/
theorem State.lacksRoom_of_placed (h : s.destOf m = some (a, el)) (hp : a.phase ≠ .saved)
    (hf : m.buffered = true ∨ s.inboundFlits a.die < 2048)
    (hr : s.handles el m → ((s.element el).ports.getD 3 {}).remote.length + (flitsOf m.token).length ≤ 16) :
    s.lacksRoom m = false := by
  have accepts : (!m.buffered && s.inboundFull a.die) = false := by
    rcases hf with hf | hf
    · simp [hf]
    · simp [State.inboundFull_eq_false hf]
  simp only [State.lacksRoom, h, accepts, hp, Bool.false_eq_true, if_false, Bool.and_eq_false_iff]
  refine .inr ?_
  by_cases hh : s.handles el m
  · exact .inr (decide_eq_false (hr hh).not_gt)
  · exact .inl (by simpa [State.handles, imp_iff_not_or] using hh)

theorem State.deliverMessage_buffered (h : s.destOf m = some (a, el)) (hp : a.phase = .saved)
    (hr : s.lacksRoom m = false) :
    let gone := s.withoutMessage i
    let n := (s.welt.messages.takeWhile (·.buffered)).length
    s.deliverMessage i m = .next { s with welt := { s.welt with messages :=
      (gone.welt.messages.take n ++ ({ m with buffered := true } :: gone.welt.messages.drop n)) } } := by
  simp [State.deliverMessage, h, hp, hr, State.withoutMessage]

theorem State.deliverMessage_unhandled (h : s.destOf m = some (a, el)) (hp : a.phase ≠ .saved)
    (hr : s.lacksRoom m = false) (hh : ¬s.handles el m) :
    s.deliverMessage i m = .next ((s.withoutMessage i).recordAtElement el m.token 0x44) := by
  have refused : (!ctxEnabled (s.element el) m.token.ctx.toNat ||
      decide (hspan (s.element el) m.token.ctx.toNat < m.token.chan.toNat)) = true := by
    simpa [State.handles, imp_iff_not_or] using hh
  simp [State.deliverMessage, h, hp, hr, refused, State.withoutMessage]

theorem State.deliverMessage_handled (h : s.destOf m = some (a, el)) (hp : a.phase ≠ .saved)
    (hr : s.lacksRoom m = false) (hh : s.handles el m) :
    let x := s.element el
    let q := x.ports.getD 3 {}
    s.deliverMessage i m = .next ((s.withoutMessage i).putElement el { x with
      ports := x.ports.put 3 { q with remote := q.remote ++ flitsOf m.token, order := q.order ++ [.remote] } }) := by
  obtain ⟨he, hs⟩ := hh
  simp [State.deliverMessage, h, hp, hr, he, hs.not_gt, State.withoutMessage]

/-! ## The first command of a link region's chain (22 R344, R346; 23 R365, R366, R368) -/

variable {die lreg link : Nat} {k : Collective}

theorem LinkWorks.head (h : LinkWorks s die lreg k a) :
    die < 4 ∧ lreg < 6 ∧ (s.linkChain (6 * die + lreg)).commands.head? = some k ∧ s.activation k.colour = some a := by
  unfold LinkWorks State.headCommand at h
  split at h
  · cases h
  · next hk =>
    simp only [Bool.or_eq_true, decide_eq_true_eq, not_or, not_le] at hk
    dsimp only at h
    split at h
    · cases h
    · split at h
      · cases h
      · next k' ks hc =>
        split at h
        · cases h
        · next a' ha =>
          split at h
          · simp only [Option.some.injEq, Prod.mk.injEq] at h
            obtain ⟨rfl, rfl⟩ := h
            exact ⟨hk.1, hk.2, by rw [hc]; rfl, ha⟩
          · cases h

theorem Collective.named_self : k.named k.job k.id = true := by simp [Collective.named]

theorem exec_collectiveStep_proceed {t : State} (h : LinkWorks s die lreg k a)
    (ht : s.collectiveAct (6 * die + lreg) k a = some t) : exec (.collectiveStep die lreg .proceed) s = .next t := by
  simp [execCollectiveStep, State.inputOpen, show s.headCommand die lreg = some (k, a) from h, ht, occursIf]

theorem exec_collectiveStep_peer {bs : List Byte} {t : State} (h : LinkWorks s die lreg k a) (hrun : k.running = true)
    (hserve : a.mayServe = true) (ho : s.linkOpen link (.region die lreg (.peer link k.job k.id bs)) = true)
    (ht : (s.tookFrame link).takeAnnouncement (6 * die + lreg) k bs = some t) :
    exec (.collectiveStep die lreg (.peer link k.job k.id bs)) s = .next t := by
  simp [execCollectiveStep, State.inputOpen, ho, show s.headCommand die lreg = some (k, a) from h, hserve, hrun,
    Collective.named_self, ht, occursIf]

theorem exec_collectiveStep_chunk {step slice index source : Nat} {bs : List Byte} {p q : DWord} {t : State}
    (h : LinkWorks s die lreg k a) (hrun : k.running = true) (hserve : a.mayServe = true)
    (ho : s.linkOpen link (.region die lreg (.chunk k.job k.id step slice index source link bs p q)) = true)
    (ht : (s.tookFrame link).receiveChunk (6 * die + lreg) k step slice index source link bs (p, q) = some t) :
    exec (.collectiveStep die lreg (.chunk k.job k.id step slice index source link bs p q)) s = .next t := by
  simp [execCollectiveStep, State.inputOpen, ho, show s.headCommand die lreg = some (k, a) from h, hserve, hrun,
    Collective.named_self, ht, occursIf]

theorem Collective.agreesWith_iff {bs : List Byte} :
    k.agreesWith bs = true ↔ announcedParameters bs = announcedParameters k.announcement ∧ announcedRank bs < k.n ∧
      announcedRank bs ≠ k.rank := by
  simp [Collective.agreesWith, and_assoc]

theorem State.takeAnnouncement_agrees {key : Nat} {bs : List Byte} (h : k.agreesWith bs = true)
    (hn : announcedRank bs ∉ k.agreed) :
    s.takeAnnouncement key k bs = some (s.setHead key { k with agreed := announcedRank bs :: k.agreed }) := by
  simp [State.takeAnnouncement, h, hn]

theorem State.takeAnnouncement_disagrees {key : Nat} {bs : List Byte} (h : ¬k.agreesWith bs = true) :
    s.takeAnnouncement key k bs = some (s.disagree key k (announcedPackages bs)) := by
  simp [State.takeAnnouncement, h]

theorem exec_collectiveAbort_head (h : LinkWorks s die lreg k a) (hserve : a.mayServe = true) {mismatch : Bool} :
    let name : CollectiveName := { lreg := lreg, job := k.job, collective := k.id, link := link, mismatch := mismatch }
    s.linkOpen link (.abort die name) = true → exec (.collectiveAbort die name) s = .next (
      if mismatch then (s.tookFrame link).disagree (6 * die + lreg) k []
      else (s.tookFrame link).stopCollective (6 * die + lreg) k { code := 0x6A }) := by
  intro name ho
  obtain ⟨hdie, hlreg, hhead, hact⟩ := h.head
  have first : (s.linkChain (6 * die + lreg)).commands.find? (fun x => x.named k.job k.id) = some k := by
    obtain ⟨ks, hks⟩ := List.head?_eq_some_iff.mp hhead
    simp [hks, Collective.named_self]
  simp [execCollectiveAbort, name, hdie.not_ge, hlreg.not_ge, ho, first, hact, hserve, occurs]

theorem State.resendChunk_head {key step slice index target : Nat} {c : Chunk}
    (h : (s.linkChain key).commands.head? = some k)
    (hc : k.kept.find? (fun x => x.step = step && x.slice = slice && x.index = index && x.rank = target) = some c) :
    s.resendChunk key k.job k.id step slice index target =
      some (s.sendWelt [k.message .chunk target step slice index c.bytes]) := by
  obtain ⟨ks, hks⟩ := List.head?_eq_some_iff.mp h
  simp [State.resendChunk, hks, Collective.named_self, hc]

theorem exec_collectiveStep_again {key step slice index target : Nat} {c : Chunk} (hkey : key < 24)
    (h : (s.linkChain key).commands.head? = some k)
    (hc : k.kept.find? (fun x => x.step = step && x.slice = slice && x.index = index && x.rank = target) = some c)
    (ho : s.linkOpen link (.region (key / 6) (key % 6) (.again link k.job k.id step slice index target)) = true) :
    exec (.collectiveStep (key / 6) (key % 6) (.again link k.job k.id step slice index target)) s =
      .next ((s.tookFrame link).sendWelt [k.message .chunk target step slice index c.bytes]) := by
  have hdie : ¬4 ≤ key / 6 := by omega
  have hlreg : ¬6 ≤ key % 6 := by omega
  have sends := State.resendChunk_head (s := s.tookFrame link) h hc
  simp [execCollectiveStep, State.inputOpen, ho, hdie, hlreg, Nat.div_add_mod, sends, occursIf]

end Sys2Proof.Machine
end

section
/-! The statement on links, messages and collectives, from the rules above. -/
namespace Sys2Proof.Machine

/-- Settles O57: each event's condition follows from the hypotheses of its clause, and its effect from the lemma on that event. -/
theorem weltEventsOccur : Obligations.WeltEventsOccur := by
  unfold Obligations.WeltEventsOccur
  intro s opens good took isDown
  have isOpen {link f} (h : opens link f) : s.linkOpen link f = true := (s.linkOpen_iff link f).mpr h
  refine ⟨?frames, ?ownFrames, ?messages, ?collectives, ?resent⟩
  case frames =>
    rintro link f ho ⟨hown, hflits⟩
    refine ⟨?message, fun hm => exec_weltFrameReceive_region s (isOpen ho) hown hm true, fun hn => ?replayed,
      fun hn => ?down⟩
    case message =>
      rintro m rfl
      exact exec_weltFrameReceive_message s (isOpen ho) (hflits m rfl).1 (hflits m rfl).2 true
    case replayed => rw [exec_weltFrameReceive_bad s (isOpen ho) hown hflits, State.failFrame_replays s hn]
    case down =>
      rw [exec_weltFrameReceive_bad s (isOpen ho) hown hflits, State.failFrame_down s hn]
      exact ⟨_, rfl, State.linkDown_isDown s ho.1⟩
  case ownFrames =>
    intro link hl hr hs
    refine ⟨exec_weltFrameReceive_own s hl hr hs true, fun hn => ?replayed, fun hn => ?down⟩
    case replayed => rw [exec_weltFrameReceive_own s hl hr hs, State.ownFrame_replays s hn]
    case down =>
      rw [exec_weltFrameReceive_own s hl hr hs, State.ownFrame_down s hn]
      exact ⟨_, rfl, State.linkDown_isDown s hl⟩
  case messages =>
    intro i m hm gone age
    refine ⟨exec_weltMessageAgeDiscard_old hm, fun hage hw => ?_⟩
    have moves : s.mayMove i m := ⟨hm, Message.tooOld_eq_false hage, hw⟩
    refine ⟨exec_sendrDelivery_crosses moves, fun hd hp => ?leaves, fun hd hp => ?arrives⟩
    case leaves => exact exec_sendrDelivery_leaves moves hd (Bool.eq_false_iff.mpr (mt State.isHere_iff.mp hp))
    case arrives =>
      rw [exec_sendrDelivery_arrives moves hd (State.isHere_iff.mpr hp)]
      refine ⟨fun hnone => State.deliverMessage_lost (State.destOf_eq_none_of_colour hnone), fun a ha => ⟨fun hregion =>
        State.deliverMessage_lost (State.destOf_eq_none_of_region ha hregion), fun tile hdie htile => ?found⟩⟩
      have dest := State.destOf_eq_some ha hdie htile
      refine ⟨fun hsaved hb hfull hroom => ?saved, fun hplaced haccepts =>
        ⟨fun hunhandled => ?unhandled, fun hhandled hroom => ?handled⟩⟩
      case saved =>
        exact State.deliverMessage_buffered dest hsaved (State.lacksRoom_of_saved dest hsaved hb hfull hroom)
      case unhandled =>
        have room := State.lacksRoom_of_placed dest hplaced haccepts fun hhandled => absurd hhandled hunhandled
        exact State.deliverMessage_unhandled dest hplaced room hunhandled
      case handled =>
        have room := State.lacksRoom_of_placed dest hplaced haccepts fun _ => hroom
        exact State.deliverMessage_handled dest hplaced room hhandled
  case collectives =>
    intro die lreg k a hk key
    refine ⟨fun t => exec_collectiveStep_proceed hk, fun link mismatch ho hserve => ?abort, fun hrun hserve =>
      ⟨fun link bs ho => ⟨fun hsame hn => ?agrees, fun hdiffers => ?disagrees⟩,
        fun step slice index source link bs p q t ho => ?chunk⟩⟩
    case abort => exact exec_collectiveAbort_head hk hserve (isOpen ho)
    case agrees =>
      exact exec_collectiveStep_peer hk hrun hserve (isOpen ho)
        (State.takeAnnouncement_agrees (Collective.agreesWith_iff.mpr hsame) hn)
    case disagrees =>
      exact exec_collectiveStep_peer hk hrun hserve (isOpen ho)
        (State.takeAnnouncement_disagrees (mt Collective.agreesWith_iff.mp hdiffers))
    case chunk => exact exec_collectiveStep_chunk hk hrun hserve (isOpen ho)
  case resent =>
    intro key link k step slice index target c hkey hhead hc ho
    exact exec_collectiveStep_again hkey hhead hc (isOpen ho)

end Sys2Proof.Machine
end

section
/-! The greedy rule of the clicker (03 R33, R34): the runs of a chunk cut its values into slices that stand behind one
another, and the value of a run is the middle of its slice's least and greatest value. -/
namespace Sys2Proof.Machine

/-- The values of a list at the positions of a run. -/
def ClickRun.slice (q : ClickRun) (xs : List Int) : List Int := (xs.drop q.start).take q.length

/-- The run's value is the middle of the least and the greatest of the values, which lie at most τ apart. -/
def ClickRun.Centres (tau : Nat) (q : ClickRun) (ys : List Int) : Prop :=
  ∃ lo hi : Int, IsLeast {x | x ∈ ys} lo ∧ IsGreatest {x | x ∈ ys} hi ∧ hi - lo ≤ tau ∧ q.v = lo + (hi - lo) / 2

/-- The runs cut the values, the first of which stands at the given position, into slices, in order. -/
inductive CutInto (tau : Nat) : Nat → List Int → List ClickRun → Prop
  | nil (n : Nat) : CutInto tau n [] []
  | cons {q : ClickRun} {ys xs : List Int} {qs : List ClickRun} :
      q.length = ys.length → q.Centres tau ys → CutInto tau (q.start + ys.length) xs qs →
      CutInto tau q.start (ys ++ xs) (q :: qs)

/-- An open run keeps the least and the greatest of its values, and they lie at most τ apart. -/
structure OpenRun.Tracks (tau : Nat) (r : OpenRun) : Prop where
  least : IsLeast {x | x ∈ r.xs} r.lo
  greatest : IsGreatest {x | x ∈ r.xs} r.hi
  spread : r.hi - r.lo ≤ tau

section
variable {tau : Nat} {r : OpenRun} {q : ClickRun} {ys : List Int} {x : Int}

@[simp] theorem OpenRun.close_start : r.close.start = r.start := rfl
@[simp] theorem OpenRun.close_length : r.close.length = r.xs.length := rfl

theorem OpenRun.tracks_single {i : Nat} : OpenRun.Tracks tau { start := i, lo := x, hi := x, xs := [x] } where
  least := by simp
  greatest := by simp
  spread := by simp

theorem OpenRun.Tracks.push (h : r.Tracks tau) (hx : max r.hi x - min r.lo x ≤ tau) :
    OpenRun.Tracks tau { r with lo := min r.lo x, hi := max r.hi x, xs := x :: r.xs } where
  least := by simpa only [List.setOfPred_mem_cons, min_comm] using h.least.insert x
  greatest := by simpa only [List.setOfPred_mem_cons, max_comm] using h.greatest.insert x
  spread := hx

theorem OpenRun.Tracks.close_centres (h : r.Tracks tau) : r.close.Centres tau r.xs.reverse :=
  ⟨r.lo, r.hi, by simpa using h.least, by simpa using h.greatest, h.spread, rfl⟩

theorem OpenRun.Tracks.close_cutInto {xs : List Int} {qs : List ClickRun} (h : r.Tracks tau)
    (hrest : CutInto tau (r.start + r.xs.length) xs qs) : CutInto tau r.start (r.xs.reverse ++ xs) (r.close :: qs) :=
  .cons (q := r.close) (by simp) h.close_centres (by simpa using hrest)

/-- The greedy rule's invariant: the open run's values and those still to come are cut into the runs it gives. -/
theorem clickFrom_cutInto (xs : List Int) (h : r.Tracks tau) :
    CutInto tau r.start (r.xs.reverse ++ xs) (clickFrom tau r (r.start + r.xs.length) xs) := by
  induction xs generalizing r with
  | nil => exact h.close_cutInto (.nil _)
  | cons x xs ih =>
    rw [clickFrom]
    split
    next hx => simpa [Nat.add_assoc] using ih (h.push hx)
    next => exact h.close_cutInto (ih OpenRun.tracks_single)

theorem clickRuns_cutInto (tau : Nat) : ∀ xs : List Int, CutInto tau 0 xs (clickRuns tau xs)
  | [] => .nil 0
  | _ :: xs => clickFrom_cutInto xs OpenRun.tracks_single

/-- The slice of a cut's first run, whatever stands before it and behind it. -/
theorem ClickRun.slice_append {before : List Int} (xs : List Int) (hstart : before.length = q.start)
    (hlength : q.length = ys.length) : q.slice (before ++ (ys ++ xs)) = ys := by
  simp [ClickRun.slice, ← hstart, hlength]

theorem CutInto.flatMap_slice {n : Nat} {xs before : List Int} {qs : List ClickRun} (h : CutInto tau n xs qs)
    (hn : before.length = n) : qs.flatMap (·.slice (before ++ xs)) = xs := by
  induction h generalizing before with
  | nil => rfl
  | @cons q ys xs qs hlength _ _ ih =>
    have rest := ih (before := before ++ ys) (by simp [hn])
    rw [List.flatMap_cons, ClickRun.slice_append xs hn hlength, ← List.append_assoc, rest]

theorem CutInto.slice_centred {n : Nat} {xs before : List Int} {qs : List ClickRun} (h : CutInto tau n xs qs)
    (hn : before.length = n) (hq : q ∈ qs) :
    q.start + q.length ≤ (before ++ xs).length ∧ q.Centres tau (q.slice (before ++ xs)) := by
  induction h generalizing before with
  | nil => cases hq
  | @cons p ys xs qs hlength hcentres _ ih =>
    rcases List.mem_cons.mp hq with rfl | hq
    · rw [ClickRun.slice_append xs hn hlength]
      exact ⟨by simp [hn, hlength], hcentres⟩
    · rw [← List.append_assoc]
      exact ih (by simp [hn]) hq

theorem ClickRun.length_pos_of_mem_slice (h : x ∈ q.slice ys) : 0 < q.length :=
  Nat.pos_of_ne_zero fun h0 => by simp [ClickRun.slice, h0] at h

theorem ClickRun.mem_of_mem_slice (h : x ∈ q.slice ys) : x ∈ ys := List.mem_of_mem_drop (List.mem_of_mem_take h)

/-- The distance from the middle of an interval, rounded down, is at most half its width, rounded up (03 R34). -/
theorem abs_sub_middle_le {lo hi v : Int} (hv : v = lo + (hi - lo) / 2) (hlo : lo ≤ x) (hhi : x ≤ hi) :
    |x - v| ≤ (hi - lo + 1) / 2 := by
  rw [abs_le]
  omega

end

/-- Settles O51: the runs cut the values into slices, each centred at its run's value, and the bounds are those of the middle. -/
theorem clickRunsStayWithinTolerance : Obligations.ClickRunsStayWithinTolerance := by
  unfold Obligations.ClickRunsStayWithinTolerance
  intro tau xs
  have cut := clickRuns_cutInto tau xs
  refine ⟨cut.flatMap_slice (before := []) rfl, fun q hq => ?_⟩
  obtain ⟨inside, lo, hi, ⟨loMem, least⟩, ⟨hiMem, greatest⟩, spread, hv⟩ := cut.slice_centred (before := []) rfl hq
  have lohi : lo ≤ hi := least hiMem
  have loV : lo ≤ q.v := by omega
  have vHi : q.v ≤ hi := by omega
  refine ⟨inside, ClickRun.length_pos_of_mem_slice loMem, lo, hi, spread, loV, vHi, loMem, hiMem, fun x hx => ?_⟩
  have near := abs_sub_middle_le hv (least hx) (greatest hx)
  refine ⟨least hx, greatest hx, near, by omega, fun h0 => ?repeats, fun bytes => ?byte⟩
  case repeats =>
    have := least hx
    have := greatest hx
    omega
  case byte =>
    obtain ⟨loByte, -⟩ := bytes lo (ClickRun.mem_of_mem_slice loMem)
    obtain ⟨-, hiByte⟩ := bytes hi (ClickRun.mem_of_mem_slice hiMem)
    exact ⟨loByte.trans loV, vHi.trans hiByte⟩

end Sys2Proof.Machine
end

section
/-! SUPPORT. Reading and writing the bits of a predicate (04 R51; 08 R128). -/
namespace Sys2Proof.Machine

theorem Block.pred_setPred_self (b : Block) {p : Nat} (v : Pred) (hp : p ≠ 0) : (b.setPred p v).pred p = v := by
  simp [Block.setPred, Block.pred, hp]

theorem Block.pred_setPred_of_ne (b : Block) {p q : Nat} (v : Pred) (h : q ≠ p) : (b.setPred p v).pred q = b.pred q := by
  unfold Block.setPred Block.pred
  by_cases hp : p = 0
  · rw [if_pos hp]
  · rw [if_neg hp]
    by_cases hq : q = 0
    · rw [if_pos hq, if_pos hq]
    · rw [if_neg hq, if_neg hq]
      exact Tab.getD_put_of_ne _ _ _ _ _ h

theorem Block.setPred_frame (b : Block) (p : Nat) (v : Pred) :
    b.setPred p v = { b with preds := (b.setPred p v).preds } := by
  unfold Block.setPred
  split <;> rfl

/-- A bit of a predicate some of whose bits were set. -/
theorem getLsbD_setBits (old : Pred) (n : Nat) (f : Nat → Option Bool) {j : Nat} (hj : j < 128) :
    (setBits old n f).getLsbD j = if j < n then (f j).getD (old.getLsbD j) else old.getLsbD j := by
  have bit (xs : List Nat) : (packLanes 1 xs).testBit j = decide (xs.getD j 0 % 2 = 1) := by
    have lane := packLanes_lane 1 xs j
    rw [Nat.one_mul, Nat.pow_one] at lane
    rw [Nat.testBit_eq_decide_div_mod_eq, lane]
  rw [setBits, BitVec.getLsbD_ofNat, bit, List.getD_eq_getElem?_getD, List.getElem?_map, List.getElem?_range hj]
  have odd (v : Bool) : decide ((if v = true then 1 else 0) % 2 = 1) = v := by cases v <;> rfl
  rw [decide_eq_true hj, Bool.true_and]
  exact odd _

/-- What writing a predicate under the instruction's own predicate does to a block (08 R128). -/
theorem writePred_spec (b : Block) (o : EA) (w : Nat) (f : Nat → Bool) (hd : o.d.toNat ≠ 0) :
    writePred b o w f = { b with preds := (writePred b o w f).preds } ∧
    (∀ p, p ≠ o.d.toNat → (writePred b o w f).pred p = b.pred p) ∧
    ∀ j, j < 128 → ((writePred b o w f).pred o.d.toNat).getLsbD j =
      if decide (j < predBits w) && ((b.pred o.p.toNat).getLsbD j != decide (o.n = 1)) then lanesTest w f j
      else (b.pred o.d.toNat).getLsbD j := by
  refine ⟨b.setPred_frame _ _, fun p hp => b.pred_setPred_of_ne _ hp, fun j hj => ?_⟩
  rw [writePred, b.pred_setPred_self _ hd, getLsbD_setBits _ _ _ hj]
  by_cases hn : j < predBits w
  · rw [if_pos hn, decide_eq_true hn, Bool.true_and]
    split <;> rfl
  · rw [if_neg hn, decide_eq_false hn, Bool.false_and]
    rfl

end Sys2Proof.Machine
end

section
/-! The statement on CMP, from the rules above. -/
namespace Sys2Proof.Machine

/-- Settles O13: CMP is one write of a predicate, which changes exactly the bits that the instruction's predicate selects. -/
theorem cmpWritesSelectedBits : Obligations.CmpWritesSelectedBits := by
  unfold Obligations.CmpWritesSelectedBits
  intro s el b o c hb hd w A B test
  have hd' : o.d.toNat ≠ 0 := fun h => hd (BitVec.eq_of_toNat_eq h)
  obtain ⟨frame, others, bits⟩ := writePred_spec b o w (fun j => intCond c (A j) (B j)) hd'
  have events : (writePred b o w fun j => intCond c (A j) (B j)).events = b.events := by rw [frame]
  refine ⟨_, (exec_cmp c o s).trans (inLanes_next hb), ?_, others, bits, fun k => ?_⟩
  · rw [events]
    exact frame
  · rw [events, or_false]

end Sys2Proof.Machine
end

section
/-! SUPPORT. Floating-point values (04 R52 to R58; 09 R142): the pairs m × 2^e that finite encodings hold, one rounding of a
value that an encoding holds, widening to FP32, and the order of operands. -/
namespace Sys2Proof.Machine

/-- The exponent of the least subnormal of a format (04 R53). -/
def Fmt.emin (f : Fmt) : Int := 1 - f.bias - f.mb

/-- A pair m × 2^e as an encoding holds it: the fraction fits, and it has its leading one unless the exponent is the least. -/
structure Fmt.Canonical (f : Fmt) (m : Nat) (e : Int) : Prop where
  fits : m < 2 ^ (f.mb + 1)
  least : f.emin ≤ e
  leading : e ≠ f.emin → 2 ^ f.mb ≤ m

/-- The encoding of a canonical pair, without its sign. -/
def Fmt.magnitude (f : Fmt) (m : Nat) (e : Int) : Nat := (e - f.emin).toNat * 2 ^ f.mb + m

section
variable {f : Fmt} {m : Nat} {e : Int}

theorem Fmt.Canonical.exponent_eq (h : f.Canonical m e) (hm : m < 2 ^ f.mb) : e = f.emin := by
  by_contra he
  exact absurd (h.leading he) (Nat.not_le.mpr hm)

theorem Fmt.canonical_subnormal (f : Fmt) {fr : Nat} (hfr : fr < 2 ^ f.mb) : f.Canonical fr f.emin where
  fits := by rw [Nat.pow_succ]; omega
  least := le_rfl
  leading := fun h => absurd rfl h

theorem Fmt.canonical_normal (f : Fmt) {fr ex : Nat} (hfr : fr < 2 ^ f.mb) (hex : ex ≠ 0) :
    f.Canonical (2 ^ f.mb + fr) (ex - f.bias - f.mb) where
  fits := by rw [Nat.pow_succ]; omega
  least := by unfold Fmt.emin; omega
  leading := fun _ => Nat.le_add_right _ _

theorem Fmt.magnitude_subnormal (f : Fmt) (fr : Nat) : f.magnitude fr f.emin = fr := by simp [Fmt.magnitude]

theorem Fmt.magnitude_normal (f : Fmt) {ex : Nat} (fr : Nat) (hex : ex ≠ 0) :
    f.magnitude (2 ^ f.mb + fr) (ex - f.bias - f.mb) = ex * 2 ^ f.mb + fr := by
  obtain ⟨k, rfl⟩ := Nat.exists_eq_succ_of_ne_zero hex
  have field : (((k + 1 : Nat) : Int) - f.bias - f.mb - f.emin).toNat = k := by unfold Fmt.emin; omega
  rw [Fmt.magnitude, field, Nat.succ_mul, Nat.add_assoc]

/-- Every canonical pair is that of an exponent field and a fraction. -/
theorem Fmt.Canonical.parts (h : f.Canonical m e) : ∃ ex fr : Nat, fr < 2 ^ f.mb ∧
    f.magnitude m e = ex * 2 ^ f.mb + fr ∧
    (ex = 0 ∧ m = fr ∧ e = f.emin ∨ ex ≠ 0 ∧ m = 2 ^ f.mb + fr ∧ e = ex - f.bias - f.mb) := by
  have fits := h.fits
  rw [Nat.pow_succ] at fits
  by_cases hm : m < 2 ^ f.mb
  · obtain rfl := h.exponent_eq hm
    exact ⟨0, m, hm, by simp [f.magnitude_subnormal], .inl ⟨rfl, rfl, rfl⟩⟩
  · obtain ⟨fr, rfl⟩ := Nat.exists_eq_add_of_le (Nat.not_lt.mp hm)
    obtain ⟨k, rfl⟩ := Int.exists_add_of_le h.least
    have exponent : f.emin + k = ((k + 1 : Nat) : Int) - f.bias - f.mb := by unfold Fmt.emin; omega
    rw [exponent]
    exact ⟨k + 1, fr, by omega, f.magnitude_normal fr k.succ_ne_zero, .inr ⟨k.succ_ne_zero, rfl, rfl⟩⟩

/-! ## One rounding (04 R56) -/

/-- Where a finite value has its leading one decides its last place. -/
theorem Fmt.Canonical.last_place (h : f.Canonical m e) (hm : m ≠ 0) :
    max (e + (Nat.log2 m + 1 : Nat) - (f.mb + 1 : Nat)) f.emin = e := by
  obtain ⟨fits, least, leading⟩ := h
  have below : Nat.log2 m < f.mb + 1 := (Nat.log2_lt hm).mpr fits
  by_cases he : e = f.emin
  · omega
  · have : f.mb ≤ Nat.log2 m := (Nat.le_log2 hm).mpr (leading he)
    omega

theorem roundAt_self (rm : Rounding) (neg : Bool) : roundAt rm neg m e e = m := by simp [roundAt]

/-- A canonical pair within range rounds to its own encoding, in every mode and with no event (04 R56). -/
theorem Fmt.round_canonical (rm : Rounding) (neg : Bool) (h : f.Canonical m e) (hmax : f.magnitude m e ≤ f.largest) :
    f.round rm neg m e = (signOf f neg + f.magnitude m e, 0) := by
  by_cases hm : m = 0
  · have he : e = f.emin := h.exponent_eq (hm ▸ Nat.two_pow_pos f.mb)
    simp [Fmt.round, Fmt.magnitude, hm, he]
  · have place := h.last_place hm
    have bits : (if m < 2 ^ f.mb then m else (e - f.emin).toNat * 2 ^ f.mb + m) = f.magnitude m e := by
      split
      next hsub => simp [Fmt.magnitude, h.exponent_eq hsub]
      next => rfl
    unfold Fmt.emin at place bits
    simp only [Fmt.round, hm, if_false, place, roundAt_self, Nat.add_sub_cancel, bits, Nat.not_lt.mpr hmax]

theorem roundsUp_shift (rm : Rounding) (neg : Bool) (q r sh k : Nat) :
    roundsUp rm neg q (r * 2 ^ k) (sh + k) = roundsUp rm neg q r sh := by
  have pos := Nat.two_pow_pos k
  have half : 2 * (r * 2 ^ k) = 2 * r * 2 ^ k := (Nat.mul_assoc ..).symm
  cases rm with
  | rne => simp only [roundsUp, half, Nat.pow_add, Nat.mul_lt_mul_right pos, Nat.mul_left_inj pos.ne']
  | rz => rfl
  | rdn => simp [roundsUp]
  | rup => simp [roundsUp]

/-- What stands on a multiple of the last place stays there. -/
theorem roundsUp_exact (rm : Rounding) (neg : Bool) (q sh : Nat) : roundsUp rm neg q 0 sh = false := by
  have := Nat.two_pow_pos sh
  cases rm with
  | rne => simp [roundsUp, this.ne]
  | rz => rfl
  | rdn => simp [roundsUp]
  | rup => simp [roundsUp]

/-- Rounding at a place looks at the value only, not at the pair that stands for it. -/
theorem roundAt_shift (rm : Rounding) (neg : Bool) (m : Nat) (e u : Int) (k : Nat) :
    roundAt rm neg (m * 2 ^ k) (e - k) u = roundAt rm neg m e u := by
  have pos := Nat.two_pow_pos k
  unfold roundAt
  by_cases below : u ≤ e - k
  · have split : (e - u).toNat = k + (e - k - u).toNat := by omega
    rw [if_pos below, if_pos (by omega), split, Nat.pow_add, Nat.mul_assoc]
  · rw [if_neg below]
    by_cases within : u ≤ e
    · have split : k = (e - u).toNat + (u - (e - k)).toNat := by omega
      have exact : m * 2 ^ k = m * 2 ^ (e - u).toNat * 2 ^ (u - (e - k)).toNat := by
        rw [Nat.mul_assoc, ← Nat.pow_add, ← split]
      simp [within, exact, roundsUp_exact]
    · have split : (u - (e - k)).toNat = (u - e).toNat + k := by omega
      have quotient : m * 2 ^ k / 2 ^ ((u - e).toNat + k) = m / 2 ^ (u - e).toNat := by
        rw [Nat.pow_add, Nat.mul_div_mul_right _ _ pos]
      have remainder : m * 2 ^ k % 2 ^ ((u - e).toNat + k) = m % 2 ^ (u - e).toNat * 2 ^ k := by
        rw [Nat.pow_add, Nat.mul_mod_mul_right]
      simp only [if_neg within, split, quotient, remainder, roundsUp_shift]

theorem log2_mul_two_pow (hm : m ≠ 0) (k : Nat) : Nat.log2 (m * 2 ^ k) = Nat.log2 m + k := by
  induction k with
  | zero => simp
  | succ k ih =>
    have hmk : m * 2 ^ k ≠ 0 := Nat.mul_ne_zero hm (Nat.two_pow_pos k).ne'
    rw [Nat.pow_succ', Nat.mul_left_comm, Nat.log2_two_mul hmk, ih, Nat.add_assoc]

/-- Rounding to a format looks at the value only. -/
theorem Fmt.round_shift (f : Fmt) (rm : Rounding) (neg : Bool) (m : Nat) (e : Int) (k : Nat) :
    f.round rm neg (m * 2 ^ k) (e - k) = f.round rm neg m e := by
  by_cases hm : m = 0
  · simp [Fmt.round, hm]
  · have hmk : m * 2 ^ k ≠ 0 := Nat.mul_ne_zero hm (Nat.two_pow_pos k).ne'
    have top : e - k + (Nat.log2 (m * 2 ^ k) + 1 : Nat) = e + (Nat.log2 m + 1 : Nat) := by
      rw [log2_mul_two_pow hm]
      omega
    simp only [Fmt.round, hm, hmk, if_false, top, roundAt_shift]

/-- Every pair whose number fits has a canonical form: its number doubles until it has its leading one. -/
theorem Fmt.exists_canonical (fits : m < 2 ^ (f.mb + 1)) (least : f.emin ≤ e) :
    ∃ k : Nat, f.Canonical (m * 2 ^ k) (e - k) := by
  induction h : (e - f.emin).toNat generalizing m e with
  | zero => exact ⟨0, by simpa using ⟨fits, least, fun he => absurd (by omega) he⟩⟩
  | succ n ih =>
    by_cases leading : 2 ^ f.mb ≤ m
    · exact ⟨0, by simpa using ⟨fits, least, fun _ => leading⟩⟩
    · obtain ⟨k, hk⟩ := ih (m := m * 2) (e := e - 1) (by rw [Nat.pow_succ]; omega) (by omega) (by omega)
      refine ⟨k + 1, ?_⟩
      rwa [Nat.pow_succ', ← Nat.mul_assoc, Nat.cast_succ, add_comm, ← sub_sub]

/-! ## What an encoding holds (04 R52, R53) -/

/-- The fields of an encoding (04 R52). -/
def Fmt.negative (f : Fmt) (n : Nat) : Bool := n / f.signBit % 2 = 1
def Fmt.exponentField (f : Fmt) (n : Nat) : Nat := n / 2 ^ f.mb % 2 ^ f.eb
def Fmt.fraction (f : Fmt) (n : Nat) : Nat := n % 2 ^ f.mb

theorem Fmt.exponentField_lt (f : Fmt) (n : Nat) : f.exponentField n < 2 ^ f.eb := Nat.mod_lt _ (Nat.two_pow_pos _)
theorem Fmt.fraction_lt (f : Fmt) (n : Nat) : f.fraction n < 2 ^ f.mb := Nat.mod_lt _ (Nat.two_pow_pos _)

/-- An encoding is made of its fields. -/
theorem Fmt.eq_fields (f : Fmt) {n : Nat} (hn : n < 2 ^ f.width) :
    n = signOf f (f.negative n) + (f.exponentField n * 2 ^ f.mb + f.fraction n) := by
  have low : n / 2 ^ f.mb * 2 ^ f.mb + f.fraction n = n := Nat.div_add_mod' _ _
  have high : n / f.signBit * 2 ^ f.eb + f.exponentField n = n / 2 ^ f.mb := by
    rw [Fmt.signBit, Nat.add_comm f.eb, Nat.pow_add, ← Nat.div_div_eq_div_mul]
    exact Nat.div_add_mod' _ _
  have sign : signOf f (f.negative n) = n / f.signBit * 2 ^ f.eb * 2 ^ f.mb := by
    have top : n / f.signBit < 2 := 
      Nat.div_lt_of_lt_mul (by rwa [Fmt.signBit, ← Nat.pow_succ, ← Nat.add_one, Nat.add_comm, ← Nat.add_assoc])
    rw [Fmt.negative, Nat.mod_eq_of_lt top, Nat.mul_assoc, ← Nat.pow_add]
    rcases Nat.le_one_iff_eq_zero_or_eq_one.mp (Nat.le_of_lt_succ top) with h0 | h1
    · rw [h0, Nat.zero_mul]
      rfl
    · rw [h1, Nat.one_mul]
      rfl
  rw [sign, ← Nat.add_assoc, ← Nat.add_mul, high, low]

/-- The value that fields stand for, by the kinds of encodings of 04 R52. -/
theorem Fmt.value_eq_fields (f : Fmt) (n : Nat) :
    let ex := f.exponentField n
    let fr := f.fraction n
    let finite : FVal := if ex = 0 then .fin (f.negative n) fr f.emin
      else .fin (f.negative n) (2 ^ f.mb + fr) ((ex : Int) - f.bias - f.mb)
    f.value n = if f.e4m3 then if ex = 15 ∧ fr = 7 then .nan false else finite
      else if ex = 2 ^ f.eb - 1 then if fr = 0 then .inf (f.negative n) else .nan (fr < 2 ^ (f.mb - 1)) else finite := rfl

theorem Fmt.value_fin_fields {n : Nat} {neg : Bool} (hv : f.value n = .fin neg m e) :
    neg = f.negative n ∧
    (if f.e4m3 then ¬(f.exponentField n = 15 ∧ f.fraction n = 7) else f.exponentField n ≠ 2 ^ f.eb - 1) ∧
    (f.exponentField n = 0 ∧ m = f.fraction n ∧ e = f.emin ∨
      f.exponentField n ≠ 0 ∧ m = 2 ^ f.mb + f.fraction n ∧ e = f.exponentField n - f.bias - f.mb) := by
  rw [f.value_eq_fields] at hv
  split_ifs at hv with h4 hnan hsub hinf hfr hsub <;> cases hv
  · exact ⟨rfl, by simpa [h4] using hnan, .inl ⟨hsub, rfl, rfl⟩⟩
  · exact ⟨rfl, by simpa [h4] using hnan, .inr ⟨hsub, rfl, rfl⟩⟩
  · exact ⟨rfl, by simpa [h4] using hinf, .inl ⟨hsub, rfl, rfl⟩⟩
  · exact ⟨rfl, by simpa [h4] using hinf, .inr ⟨hsub, rfl, rfl⟩⟩

/-- The magnitudes of finite values end at the largest. -/
theorem Fmt.fields_le_largest (f : Fmt) {ex fr : Nat} (hex : ex < 2 ^ f.eb) (hfr : fr < 2 ^ f.mb)
    (h4 : f.e4m3 = true → f = fmtE4m3)
    (hfin : if f.e4m3 then ¬(ex = 15 ∧ fr = 7) else ex ≠ 2 ^ f.eb - 1) : ex * 2 ^ f.mb + fr ≤ f.largest := by
  by_cases he : f.e4m3 = true
  · obtain rfl := h4 he
    simp only [fmtE4m3, Fmt.largest, if_true] at *
    omega
  · have finite : ex ≠ 2 ^ f.eb - 1 := by simpa [he] using hfin
    have bound : (ex + 1) * 2 ^ f.mb ≤ f.infinity := Nat.mul_le_mul_right _ (by omega)
    have largest : f.largest = f.infinity - 1 := if_neg he
    rw [Nat.add_mul] at bound
    omega

/-- A finite encoding holds a canonical pair within range, and is its sign and the magnitude of the pair. -/
theorem Fmt.value_fin {n : Nat} {neg : Bool} (h4 : f.e4m3 = true → f = fmtE4m3) (hn : n < 2 ^ f.width)
    (hv : f.value n = .fin neg m e) :
    f.Canonical m e ∧ f.magnitude m e ≤ f.largest ∧ n = signOf f neg + f.magnitude m e := by
  obtain ⟨rfl, hfin, hcases⟩ := Fmt.value_fin_fields hv
  have hfr := f.fraction_lt n
  have max := f.fields_le_largest (f.exponentField_lt n) hfr h4 hfin
  have whole := f.eq_fields hn
  rcases hcases with ⟨hex, rfl, rfl⟩ | ⟨hex, rfl, rfl⟩
  · rw [hex, Nat.zero_mul, Nat.zero_add] at max whole
    exact ⟨f.canonical_subnormal hfr, by rwa [f.magnitude_subnormal], by rwa [f.magnitude_subnormal]⟩
  · exact ⟨f.canonical_normal hfr hex, by rwa [f.magnitude_normal _ hex], by rwa [f.magnitude_normal _ hex]⟩

/-- An infinity is its sign and the infinity of the format. -/
theorem Fmt.value_inf {n : Nat} {neg : Bool} (hn : n < 2 ^ f.width) (hv : f.value n = .inf neg) :
    f.e4m3 = false ∧ n = signOf f neg + f.infinity := by
  have whole := f.eq_fields hn
  rw [f.value_eq_fields] at hv
  split_ifs at hv with h4 hnan hsub hinf hfr hsub
  cases hv
  rw [hinf, hfr, Nat.add_zero] at whole
  exact ⟨Bool.eq_false_iff.mpr h4, whole⟩

end

/-! ## Widening to FP32 and narrowing again (04 R58) -/

section
variable {m : Nat} {e : Int}

theorem fmtF32_value_infinity (neg : Bool) : fmtF32.value (signOf fmtF32 neg + fmtF32.infinity) = .inf neg := by
  cases neg <;> rfl

theorem fmtF32_fields (neg : Bool) {ex fr : Nat} (hex : ex < 2 ^ fmtF32.eb) (hfr : fr < 2 ^ fmtF32.mb) :
    let n := signOf fmtF32 neg + (ex * 2 ^ fmtF32.mb + fr)
    fmtF32.negative n = neg ∧ fmtF32.exponentField n = ex ∧ fmtF32.fraction n = fr := by
  simp only [Fmt.negative, Fmt.exponentField, Fmt.fraction, Fmt.signBit, signOf, fmtF32] at hex hfr ⊢
  cases neg
  · simp only [Bool.false_eq_true, if_false, decide_eq_false_iff_not]
    omega
  · simp only [if_true, decide_eq_true_eq]
    omega

/-- The encoding of a canonical pair of FP32 reads back as that pair. -/
theorem fmtF32_value_magnitude (neg : Bool) (h : fmtF32.Canonical m e) (hmax : fmtF32.magnitude m e ≤ fmtF32.largest) :
    fmtF32.value (signOf fmtF32 neg + fmtF32.magnitude m e) = .fin neg m e := by
  obtain ⟨ex, fr, hfr, hmag, hparts⟩ := h.parts
  rw [hmag] at hmax ⊢
  have hex : ex < 2 ^ fmtF32.eb - 1 := by
    have hmax' : ex * 2 ^ 23 + fr ≤ 255 * 2 ^ 23 - 1 := hmax
    show ex < 255
    omega
  obtain ⟨sign, field, fraction⟩ := fmtF32_fields neg (hex.trans (by decide)) hfr
  simp only [fmtF32.value_eq_fields, sign, field, fraction, hex.ne, if_false]
  rcases hparts with ⟨h0, rfl, rfl⟩ | ⟨h0, rfl, rfl⟩
  · simp [h0, show fmtF32.e4m3 = false from rfl]
  · simp [h0, show fmtF32.e4m3 = false from rfl]

theorem FVal.isSignalling_of_number {v : FVal} (h : v.isNan = false) : v.isSignalling = false := by
  cases v with
  | nan _ => cases h
  | inf _ => rfl
  | fin _ _ _ => rfl

/-- Converting a number is one rounding of its value (04 R58). -/
theorem convertFloat_number {src : Fmt} {n : Nat} {v : FVal} (dst : Fmt) (rm : Rounding) (hv : src.value n = v)
    (hnum : v.isNan = false) : convertFloat src dst rm n = dst.encode rm v := by
  simp [convertFloat, hv, FVal.isSignalling_of_number hnum, nvIf]

/-- Finite values of the three narrow formats lie within the range and the precision of FP32. -/
theorem narrow_in_range {f : Fmt} (hf : f = fmtBf16 ∨ f = fmtE4m3 ∨ f = fmtE5m2) (h : f.Canonical m e)
    (hmax : f.magnitude m e ≤ f.largest) : f.mb ≤ 23 ∧ -149 ≤ e ∧ e + f.mb ≤ 127 := by
  obtain ⟨fits, least, leading⟩ := h
  unfold Fmt.magnitude Fmt.largest Fmt.infinity Fmt.emin at *
  rcases hf with rfl | rfl | rfl <;> norm_num [fmtBf16, fmtE4m3, fmtE5m2] at fits least leading hmax ⊢ <;> omega

/-- Such a value has an FP32 encoding. -/
theorem exists_wide {f : Fmt} (h : m < 2 ^ (f.mb + 1)) (hmb : f.mb ≤ 23) (least : -149 ≤ e) (greatest : e + f.mb ≤ 127) :
    ∃ k : Nat, fmtF32.Canonical (m * 2 ^ k) (e - k) ∧ fmtF32.magnitude (m * 2 ^ k) (e - k) ≤ fmtF32.largest := by
  have fits : m < 2 ^ (fmtF32.mb + 1) := h.trans_le (Nat.pow_le_pow_right (by decide) (Nat.succ_le_succ hmb))
  obtain ⟨k, hk⟩ := Fmt.exists_canonical (f := fmtF32) fits least
  refine ⟨k, hk, ?_⟩
  have room : e - k ≤ 104 := by
    by_contra high
    have leading : 2 ^ 23 ≤ m * 2 ^ k := hk.leading (by simp [Fmt.emin, fmtF32]; omega)
    have : m * 2 ^ k < 2 ^ (f.mb + 1 + k) := by
      rw [Nat.pow_add]
      exact Nat.mul_lt_mul_of_pos_right h (Nat.two_pow_pos k)
    have := (Nat.pow_lt_pow_iff_right (by decide)).mp (leading.trans_lt this)
    omega
  have digits : m * 2 ^ k < 2 ^ 24 := hk.fits
  have lowest : fmtF32.emin = -149 := rfl
  have top : fmtF32.largest = 253 * 2 ^ 23 + (2 ^ 24 - 1) := rfl
  rw [Fmt.magnitude, lowest, top]
  exact Nat.add_le_add (Nat.mul_le_mul_right _ (by omega)) (by omega)

/-- Widening rounds nothing away, and narrowing finds the same encoding. -/
theorem convertFloat_widen_narrow {f : Fmt} (rm : Rounding) {n : Nat} (hf : f = fmtBf16 ∨ f = fmtE4m3 ∨ f = fmtE5m2)
    (hn : n < 2 ^ f.width) (hnum : (f.value n).isNan = false) :
    (convertFloat f fmtF32 .rne n).2 = 0 ∧ convertFloat fmtF32 f rm (convertFloat f fmtF32 .rne n).1 = (n, 0) := by
  have h4 : f.e4m3 = true → f = fmtE4m3 := by
    rcases hf with rfl | rfl | rfl <;> decide
  cases hv : f.value n with
  | nan _ => simp [hv, FVal.isNan] at hnum
  | inf neg =>
    obtain ⟨he, whole⟩ := Fmt.value_inf hn hv
    have wide : convertFloat f fmtF32 .rne n = (signOf fmtF32 neg + fmtF32.infinity, 0) := convertFloat_number _ _ hv rfl
    rw [wide, convertFloat_number f rm (fmtF32_value_infinity neg) rfl]
    exact ⟨rfl, by simp [Fmt.encode, he, ← whole]⟩
  | fin neg m e =>
    obtain ⟨canonical, max, whole⟩ := Fmt.value_fin h4 hn hv
    obtain ⟨mb, least, greatest⟩ := narrow_in_range hf canonical max
    obtain ⟨k, hk, kmax⟩ := exists_wide canonical.fits mb least greatest
    have wide : convertFloat f fmtF32 .rne n = (signOf fmtF32 neg + fmtF32.magnitude (m * 2 ^ k) (e - k), 0) := by
      rw [convertFloat_number _ _ hv rfl, Fmt.encode, ← Fmt.round_shift _ _ _ _ _ k, Fmt.round_canonical _ _ hk kmax]
    have narrow : f.round rm neg (m * 2 ^ k) (e - k) = (n, 0) := by
      rw [Fmt.round_shift, Fmt.round_canonical rm neg canonical max, ← whole]
    rw [wide, convertFloat_number f rm (fmtF32_value_magnitude neg hk kmax) rfl]
    exact ⟨rfl, narrow⟩

end

/-! ## Sums and products in either order (09 R142) -/

theorem FVal.mul_comm (a b : FVal) : a.mul b = b.mul a := by
  cases a with
  | nan s => cases b <;> rfl
  | inf s =>
    cases b with
    | nan _ => rfl
    | inf t => simp [FVal.mul, Bool.xor_comm]
    | fin t m e => simp [FVal.mul, Bool.xor_comm]
  | fin s m e =>
    cases b with
    | nan _ => rfl
    | inf t => simp [FVal.mul, Bool.xor_comm]
    | fin t n d => simp [FVal.mul, Bool.xor_comm, Nat.mul_comm, Int.add_comm]

theorem sumVals_pair_comm (rm : Rounding) (a b : FVal) : sumVals rm [a, b] = sumVals rm [b, a] := by
  have least : min (expOf a) (expOf b) = min (expOf b) (expOf a) := min_comm _ _
  simp [sumVals, Bool.or_comm, Bool.and_comm, Int.add_comm, least]

theorem sumProducts_add_comm (f : Fmt) (rm : Rounding) (a b : Nat) :
    sumProducts f rm [] [(false, a), (false, b)] = sumProducts f rm [] [(false, b), (false, a)] := by
  simp [sumProducts, sumVals_pair_comm rm (f.value a), Bool.or_comm]

theorem sumProducts_mul_comm (f : Fmt) (rm : Rounding) (a b : Nat) :
    sumProducts f rm [(false, a, b)] [] = sumProducts f rm [(false, b, a)] [] := by
  simp [sumProducts, FVal.mul_comm (f.value a), Bool.or_comm]

end Sys2Proof.Machine
end

section
/-! The statement on widening, sums and products, from the rules above. -/
namespace Sys2Proof.Machine

/-- Settles O17: a narrow value is an FP32 value, and rounding a value that an encoding holds gives that encoding. -/
theorem wideningIsExactAndSumsCommute : Obligations.WideningIsExactAndSumsCommute := by
  unfold Obligations.WideningIsExactAndSumsCommute
  exact ⟨fun f rm n hf hn hnum => convertFloat_widen_narrow rm hf hn hnum,
    fun f rm a b => ⟨sumProducts_add_comm f rm a b, sumProducts_mul_comm f rm a b⟩⟩

end Sys2Proof.Machine
end

section
/-! SUPPORT. The words that the encoder writes, format by format: the fields of each word, and the decoder on it, whatever words
stand behind (05 R64 to R84). -/
namespace Sys2Proof

/-! ## Fields of a word -/

theorem extractLsb'_append_low {v w lo n : Nat} (x : BitVec v) (y : BitVec w) (h : lo + n ≤ w) :
    (x.append y).extractLsb' lo n = y.extractLsb' lo n := BitVec.extractLsb'_append_eq_of_add_le h

theorem extractLsb'_append_high {v w lo n : Nat} (x : BitVec v) (y : BitVec w) (h : w ≤ lo) :
    (x.append y).extractLsb' lo n = x.extractLsb' (lo - w) n := BitVec.extractLsb'_append_eq_of_le h

theorem encEAs_word (op : BitVec 6) (fn : BitVec 3) (o : EA) :
    ∃ w, encEAs op fn o = w :: ((if o.a = 15 then [o.extA] else []) ++ (if o.b = 15 then [o.extB] else [])) ∧
      bits w 26 6 = op ∧ bits w 6 3 = fn ∧ eaFields w o.extA o.extB = o := by
  refine ⟨_, rfl, ?_⟩
  simp (disch := decide) only [bits, eaFields, encEA, HAppend.hAppend, extractLsb'_append_low, extractLsb'_append_high,
    Nat.reduceSub, BitVec.extractLsb'_eq_self, and_self]

theorem encES_word (op : BitVec 6) (o : ES) :
    ∃ w, encES op o = w :: (if o.mode = 1 then [o.ext] else []) ∧ bits w 26 6 = op ∧ esFields w o.ext = o := by
  refine ⟨_, rfl, ?_⟩
  simp (disch := decide) only [bits, esFields, HAppend.hAppend, extractLsb'_append_low, extractLsb'_append_high,
    Nat.reduceSub, BitVec.extractLsb'_eq_self, and_self]

theorem encEM_word (op : BitVec 6) (o : EM) :
    ∃ w, encEM op o = w :: (if o.src = 15 then [o.ext] else []) ∧ bits w 26 6 = op ∧ emFields w o.ext = o := by
  refine ⟨_, rfl, ?_⟩
  simp (disch := decide) only [bits, emFields, HAppend.hAppend, extractLsb'_append_low, extractLsb'_append_high,
    Nat.reduceSub, BitVec.extractLsb'_eq_self, and_self]

theorem encEG_word (op : BitVec 6) (fn : BitVec 3) (o : EG) :
    ∃ w, encEG op fn o = [w] ∧ bits w 26 6 = op ∧ bits w 13 3 = fn ∧ egFields w = o := by
  refine ⟨_, rfl, ?_⟩
  simp (disch := decide) only [bits, egFields, HAppend.hAppend, extractLsb'_append_low, extractLsb'_append_high,
    Nat.reduceSub, BitVec.extractLsb'_eq_self, and_self]

theorem encQA_word (op fn : BitVec 6) (o : QA) :
    ∃ w, encQA op fn o = [w] ∧ bits w 26 6 = op ∧ bits w 8 6 = fn ∧ qaFields w = o := by
  refine ⟨_, rfl, ?_⟩
  simp (disch := decide) only [bits, qaFields, HAppend.hAppend, extractLsb'_append_low, extractLsb'_append_high,
    Nat.reduceSub, BitVec.extractLsb'_eq_self, and_self]

theorem encQI_word (op : BitVec 6) (fn : BitVec 4) (o : QI) :
    ∃ w, encQI op fn o = [w] ∧ bits w 26 6 = op ∧ bits w 0 4 = fn ∧ qiFields w = o := by
  refine ⟨_, rfl, ?_⟩
  simp (disch := decide) only [bits, qiFields, HAppend.hAppend, extractLsb'_append_low, extractLsb'_append_high,
    Nat.reduceSub, BitVec.extractLsb'_eq_self, and_self]

theorem encQB_word (op : BitVec 6) (cond : BitVec 4) (o : QB) :
    ∃ w, encQB op cond o = [w] ∧ bits w 26 6 = op ∧ bits w 22 4 = cond ∧ qbFields w = o := by
  refine ⟨_, rfl, ?_⟩
  simp (disch := decide) only [bits, qbFields, HAppend.hAppend, extractLsb'_append_low, extractLsb'_append_high,
    Nat.reduceSub, BitVec.extractLsb'_eq_self, and_self]

theorem encQE_word (op : BitVec 6) (fn : BitVec 4) (o : QE) :
    ∃ w, encQE op fn o = [w] ∧ bits w 26 6 = op ∧ bits w 10 4 = fn ∧ qeFields w = o := by
  refine ⟨_, rfl, ?_⟩
  simp (disch := decide) only [bits, qeFields, HAppend.hAppend, extractLsb'_append_low, extractLsb'_append_high,
    Nat.reduceSub, BitVec.extractLsb'_eq_self, and_self]

theorem encEI_word (op : BitVec 6) (d t : BitVec 3) (imm : BitVec 16) :
    ∃ w, encEI op d t imm = [w] ∧ bits w 26 6 = op ∧ bits w 23 3 = d ∧ bits w 19 4 = 0 ∧ bits w 16 3 = t ∧
      bits w 0 16 = imm := by
  refine ⟨_, rfl, ?_⟩
  simp (disch := decide) only [bits, HAppend.hAppend, extractLsb'_append_low, extractLsb'_append_high, Nat.reduceSub,
    BitVec.extractLsb'_eq_self, and_self]

/-! ## The decoder on them -/

theorem accept_some {i : Instr} (n : Nat) (h : i.check = none) : accept (some i) n = .ok (i, n) := by
  simp [accept, h]

theorem takeExt_append {sel : BitVec 4} {e : Word} (rest : List Word) (h : sel ≠ 15 → e = 0) :
    takeExt sel ((if sel = 15 then [e] else []) ++ rest) = some (e, rest) := by
  unfold takeExt
  by_cases h15 : sel = 15
  · rw [if_pos h15, if_pos h15]
    rfl
  · rw [if_neg h15, if_neg h15, h h15]
    rfl

section
variable {op : BitVec 6} {i : Instr} (rest : List Word)

theorem decode_encEAs {fn : BitVec 3} {o : EA} (hf : formatOf op.toNat = .ea) (hi : eaInstr op.toNat fn o = some i)
    (hA : o.a ≠ 15 → o.extA = 0) (hB : o.b ≠ 15 → o.extB = 0) (hc : i.check = none) :
    decode (encEAs op fn o ++ rest) = .ok (i, (encEAs op fn o).length) := by
  obtain ⟨w, hw, hop, hfn, ho⟩ := encEAs_word op fn o
  have ha : bits w 19 4 = o.a := congrArg EA.a ho
  have hb : bits w 15 4 = o.b := congrArg EA.b ho
  simp only [hw, decode, List.cons_append, decodeAt, hop, hf, eaDecode, ha, hb, hfn, List.append_assoc,
    takeExt_append _ hA, takeExt_append _ hB, ho, hi, accept_some _ hc, List.length_cons, List.length_append,
    List.length_nil, apply_ite List.length]
  rw [Nat.add_assoc, Nat.add_comm 1]

theorem decode_encES {o : ES} (hf : formatOf op.toNat = .es) (hi : esInstr op.toNat o = some i)
    (hx : o.mode ≠ 1 → o.ext = 0) (hc : i.check = none) :
    decode (encES op o ++ rest) = .ok (i, (encES op o).length) := by
  obtain ⟨w, hw, hop, ho⟩ := encES_word op o
  have hm : bits w 8 2 = o.mode := congrArg ES.mode ho
  simp only [hw, decode, List.cons_append, decodeAt, hop, hf, esDecode, hm]
  split
  case isTrue => simp [ho, hi, accept_some _ hc]
  case isFalse h1 =>
    rw [hx h1] at ho
    rw [ho, hi, accept_some _ hc]
    rfl

theorem decode_encEM {o : EM} (hf : formatOf op.toNat = .em) (hi : emInstr op.toNat o = some i)
    (hx : o.src ≠ 15 → o.ext = 0) (hc : i.check = none) :
    decode (encEM op o ++ rest) = .ok (i, (encEM op o).length) := by
  obtain ⟨w, hw, hop, ho⟩ := encEM_word op o
  have hs : bits w 19 4 = o.src := congrArg EM.src ho
  simp only [hw, decode, List.cons_append, decodeAt, hop, hf, emDecode, hs]
  split
  case isTrue => simp [ho, hi, accept_some _ hc]
  case isFalse h15 =>
    rw [hx h15] at ho
    rw [ho, hi, accept_some _ hc]
    rfl

theorem decode_encEG {fn : BitVec 3} {o : EG} (hf : formatOf op.toNat = .eg) (hi : egInstr op.toNat fn o = some i)
    (hc : i.check = none) : decode (encEG op fn o ++ rest) = .ok (i, (encEG op fn o).length) := by
  obtain ⟨w, hw, hop, hfn, ho⟩ := encEG_word op fn o
  simp [hw, decode, decodeAt, hop, hf, hfn, ho, hi, accept_some _ hc]

theorem decode_encQA {fn : BitVec 6} {o : QA} (hf : formatOf op.toNat = .qa) (hi : qaInstr op.toNat fn.toNat o = some i)
    (hc : i.check = none) : decode (encQA op fn o ++ rest) = .ok (i, (encQA op fn o).length) := by
  obtain ⟨w, hw, hop, hfn, ho⟩ := encQA_word op fn o
  simp [hw, decode, decodeAt, hop, hf, hfn, ho, hi, accept_some _ hc]

theorem decode_encQI {fn : BitVec 4} {o : QI} (hf : formatOf op.toNat = .qi) (hi : qiInstr op.toNat fn o = some i)
    (hc : i.check = none) : decode (encQI op fn o ++ rest) = .ok (i, (encQI op fn o).length) := by
  obtain ⟨w, hw, hop, hfn, ho⟩ := encQI_word op fn o
  simp [hw, decode, decodeAt, hop, hf, hfn, ho, hi, accept_some _ hc]

theorem decode_encQB {cond : BitVec 4} {o : QB} (hf : formatOf op.toNat = .qb) (hi : qbInstr cond o = some i)
    (hc : i.check = none) : decode (encQB op cond o ++ rest) = .ok (i, (encQB op cond o).length) := by
  obtain ⟨w, hw, hop, hcond, ho⟩ := encQB_word op cond o
  simp [hw, decode, decodeAt, hop, hf, hcond, ho, hi, accept_some _ hc]

theorem decode_encQE {fn : BitVec 4} {o : QE} (hf : formatOf op.toNat = .qe) (hi : qeInstr op.toNat fn.toNat o = some i)
    (hc : i.check = none) : decode (encQE op fn o ++ rest) = .ok (i, (encQE op fn o).length) := by
  obtain ⟨w, hw, hop, hfn, ho⟩ := encQE_word op fn o
  simp [hw, decode, decodeAt, hop, hf, hfn, ho, hi, accept_some _ hc]

theorem decode_encEI_sys {d : BitVec 3} {imm : BitVec 16} (hf : formatOf op.toNat = .sys)
    (hi : ∀ w, bits w 16 7 = 0 → bits w 23 3 = d → bits w 0 16 = imm → sysInstr w = .ok (i, 1)) :
    decode (encEI op d 0 imm ++ rest) = .ok (i, (encEI op d 0 imm).length) := by
  obtain ⟨w, hw, hop, hd, ha, ht, himm⟩ := encEI_word op d 0 imm
  have low : bits w 16 7 = bits w 19 4 ++ bits w 16 3 :=
    (BitVec.extractLsb'_append_extractLsb'_eq_extractLsb' (x := w) (start₁ := 16) (len₁ := 3) rfl).symm
  rw [ha, ht] at low
  simp only [hw, decode, List.cons_append, decodeAt, hop, hf]
  exact hi w low hd himm

theorem decode_encEI_li {d t : BitVec 3} {imm : BitVec 16} (hf : formatOf op.toNat = .li)
    (hc : (Instr.li d t imm).check = none) :
    decode (encEI op d t imm ++ rest) = .ok (.li d t imm, (encEI op d t imm).length) := by
  obtain ⟨w, hw, hop, hd, ha, ht, himm⟩ := encEI_word op d t imm
  simp [hw, decode, decodeAt, hop, hf, liInstr, hd, ha, ht, himm, accept_some _ hc]

end

end Sys2Proof
end

section
/-! SUPPORT. What the checks of an encoding leave of its fields: an extension word that no selector names is zero, and a variant, a
function or a flag is that of its instruction (05 R64, R75, R76, R83, R84; 13 R197). -/
namespace Sys2Proof

theorem firstFailing_eq_none_iff {l : List (Bool × IllFormed)} : firstFailing l = none ↔ ∀ p ∈ l, p.1 = true := by
  induction l with
  | nil => simp [firstFailing]
  | cons p l ih =>
    obtain ⟨c, e⟩ := p
    cases c <;> simp [firstFailing, ih]

theorem require_eq_none_iff {c : Bool} {e : IllFormed} : require c e = none ↔ c = true := by
  cases c <;> simp [require]

/-! ## Extension words -/

theorem ext_eq_zero_of_extGood {u : SelUse} {v : BitVec 4} {width : Nat} {ext : Word} (h : extGood u v width ext = true)
    (hv : v ≠ 15) : ext = 0 := by
  rw [extGood, if_neg fun hs => hv hs.2] at h
  exact of_decide_eq_true h

theorem checkEA_ext {uA uB : SelUse} {types sat rm pred xFree : Bool} {wA wB : Nat} {extra : Bool} {o : EA}
    (h : checkEA uA uB types sat rm pred xFree wA wB extra o = none) :
    (o.a ≠ 15 → o.extA = 0) ∧ (o.b ≠ 15 → o.extB = 0) := by
  have good := firstFailing_eq_none_iff.mp h (extGood uA o.a wA o.extA && extGood uB o.b wB o.extB, .extension) (by simp)
  obtain ⟨hA, hB⟩ := Bool.and_eq_true_iff.mp good
  exact ⟨ext_eq_zero_of_extGood hA, ext_eq_zero_of_extGood hB⟩

theorem ext_eq_zero_of_esExtGood {o : ES} (h : esExtGood o = true) (hm : o.mode ≠ 1) : o.ext = 0 := by
  rw [esExtGood, if_neg hm] at h
  exact of_decide_eq_true h

theorem checkSend_ext {o : ES} (h : checkSend o = none) : o.mode ≠ 1 → o.ext = 0 :=
  ext_eq_zero_of_esExtGood (firstFailing_eq_none_iff.mp h (esExtGood o, .extension) (by simp))

theorem checkSendr_ext {o : ES} (h : checkSendr o = none) : o.ext = 0 :=
  of_decide_eq_true (firstFailing_eq_none_iff.mp h (decide (o.ext = 0), .extension) (by simp))

theorem checkLast_spec {o : ES} (h : checkLast o = none) : (o.mode ≠ 1 → o.ext = 0) ∧ o.flags = 0 := by
  have all := firstFailing_eq_none_iff.mp h
  exact ⟨ext_eq_zero_of_esExtGood (all (esExtGood o, .extension) (by simp)),
    of_decide_eq_true (all (decide (o.flags = 0), .flagsField) (by simp))⟩

theorem checkRelease_spec {fn : BitVec 8} {o : ES} (h : checkRelease fn o = none) : o.ext = 0 ∧ o.flags = fn := by
  have all := firstFailing_eq_none_iff.mp h
  exact ⟨of_decide_eq_true (all (decide (o.ext = 0), .extension) (by simp)),
    of_decide_eq_true (all (decide (o.flags = fn), .flagsField) (by simp))⟩

theorem checkEM_spec {variant source size scope reply fields : Bool}
    (h : checkEM variant source size scope reply fields = none) : variant = true ∧ source = true := by
  have all := firstFailing_eq_none_iff.mp h
  exact ⟨all (variant, .variantField) (by simp), all (source, .sourceField) (by simp)⟩

theorem ext_eq_zero_of_noSource {o : EM} (h : noSource o = true) (_ : o.src ≠ 15) : o.ext = 0 := by
  obtain ⟨-, h0⟩ := Bool.and_eq_true_iff.mp h
  exact of_decide_eq_true h0

theorem ext_eq_zero_of_emSourceGood {o : EM} (h : emSourceGood o = true) (hs : o.src ≠ 15) : o.ext = 0 := by
  obtain ⟨-, h0⟩ := Bool.and_eq_true_iff.mp h
  rw [if_neg hs] at h0
  exact of_decide_eq_true h0

theorem decode_encEM_of_check {op : BitVec 6} {i : Instr} {o : EM} {variant source size scope reply fields : Bool}
    (rest : List Word) (hf : formatOf op.toNat = .em) (hcheck : i.check = checkEM variant source size scope reply fields)
    (hi : variant = true → emInstr op.toNat o = some i) (hx : source = true → o.src ≠ 15 → o.ext = 0)
    (hc : i.check = none) : decode (encEM op o ++ rest) = .ok (i, (encEM op o).length) := by
  obtain ⟨hv, hs⟩ := checkEM_spec (hcheck.symm.trans hc)
  exact decode_encEM rest hf (hi hv) (hx hs) hc

/-! ## The instruction of a variant, a function or a flag -/

theorem sysInstr_nop {w : Word} (h : bits w 16 7 = 0) (hd : bits w 23 3 = 0) (hi : bits w 0 16 = 0) :
    sysInstr w = .ok (.nop, 1) := by simp [sysInstr, h, hd, hi]
theorem sysInstr_brk {w : Word} {code : BitVec 16} (h : bits w 16 7 = 0) (hd : bits w 23 3 = 1) (hi : bits w 0 16 = code) :
    sysInstr w = .ok (.brk code, 1) := by simp [sysInstr, h, hd, hi]
theorem sysInstr_trap {w : Word} {code : BitVec 16} (h : bits w 16 7 = 0) (hd : bits w 23 3 = 2) (hi : bits w 0 16 = code) :
    sysInstr w = .ok (.trap code, 1) := by simp [sysInstr, h, hd, hi]

theorem esInstr_last {o : ES} (h : o.flags = 0) : esInstr 0x1D o = some (.last o) := by simp [esInstr, h]
theorem esInstr_drop {o : ES} (h : o.flags = 0x40) : esInstr 0x1D o = some (.drop o) := by simp [esInstr, h]
theorem esInstr_keep {o : ES} (h : o.flags = 0x80) : esInstr 0x1D o = some (.keep o) := by simp [esInstr, h]

theorem emInstr_mld {o : EM} (h : o.variant = 0 ∨ o.variant = 4) : emInstr 0x1E o = some (.mld o) := by
  rcases h with h | h <;> simp [emInstr, h]
theorem emInstr_mst {o : EM} (h : o.variant = 8 ∨ o.variant = 9) : emInstr 0x1E o = some (.mst o) := by
  rcases h with h | h <;> simp [emInstr, h]
theorem emInstr_mtake {o : EM} (h : o.variant = 16 ∨ o.variant = 20) : emInstr 0x1E o = some (.mtake o) := by
  rcases h with h | h <;> simp [emInstr, h]
theorem emInstr_mfill {o : EM} (h : o.variant = 24 ∨ o.variant = 25) : emInstr 0x1E o = some (.mfill o) := by
  rcases h with h | h <;> simp [emInstr, h]
theorem emInstr_matom {o : EM} (h : o.variant.extractLsb' 5 1 = 1) : emInstr 0x1E o = some (.matom o) := if_pos h
theorem emInstr_mfence {o : EM} (h : o.variant = 0 ∨ o.variant = 1) : emInstr 0x1F o = some (.mfence o) := by
  rcases h with h | h <;> simp [emInstr, h]
theorem emInstr_eyadd {o : EM} (h : o.variant = 8 ∨ o.variant = 9) : emInstr 0x1F o = some (.eyaddElement o) := by
  rcases h with h | h <;> simp [emInstr, h]
theorem emInstr_accout {o : EM} (h : o.variant = 0 ∨ o.variant = 4) : emInstr 0x24 o = some (.accout o) := by
  rcases h with h | h <;> simp [emInstr, h]
theorem emInstr_accclr {o : EM} (h : o.variant = 8) : emInstr 0x24 o = some (.accclr o) := by simp [emInstr, h]
theorem emInstr_accst {o : EM} (h : o.variant.extractLsb' 3 3 = 2) : emInstr 0x24 o = some (.accst o) := by
  simp [emInstr, h]

theorem qiInstr_sld {fn : BitVec 4} {o : QI} (h : fn.toNat ≤ 6) : qiInstr 0x33 fn o = some (.sld fn o) := if_pos h
theorem qiInstr_sst {fn : BitVec 4} {o : QI} (h8 : 8 ≤ fn.toNat) (h11 : fn.toNat ≤ 11) :
    qiInstr 0x33 fn o = some (.sst fn o) := by
  have h6 : ¬fn.toNat ≤ 6 := by omega
  have h7 : fn ≠ 7 := by rintro rfl; contradiction
  simp only [qiInstr, h6, h7, h11, if_true, if_false]
theorem qiInstr_satom {fn : BitVec 4} {o : QI} (h : 12 ≤ fn.toNat) : qiInstr 0x33 fn o = some (.satom fn o) := by
  have h6 : ¬fn.toNat ≤ 6 := by omega
  have h7 : fn ≠ 7 := by rintro rfl; contradiction
  have h11 : ¬fn.toNat ≤ 11 := by omega
  simp only [qiInstr, h6, h7, h11, if_false]

theorem qbInstr_br {cond : BitVec 4} {o : QB} (h : cond.toNat ≤ 5) : qbInstr cond o = some (.br cond o) := if_pos h

end Sys2Proof
end

section
/-! The statement on decoding what the encoder writes, format by format, from the rules above. -/
namespace Sys2Proof

/-- Settles O1: each format's words give back its fields, and these choose the instruction that was encoded. -/
theorem decodeEncodeRoundTrip : Obligations.DecodeEncodeRoundTrip := by
  unfold Obligations.DecodeEncodeRoundTrip
  intro i rest hw hc
  cases i with
  | mov o | add o | sub o | mul o | mulh o | mad o | min o | max o | abs o | neg o | and o | or o | xor o | andn o | orn o
  | xnor o | shl o | shr o | sar o | rol o | clz o | popc o | sel o | shuf o | bcast o | lrot o | pack o | unpackLo o
  | unpackHi o | pand o | por o | pnot o | pset o | fadd o | fsub o | fmul o | fma o | fms o | fnma o | fmin o | fmax o
  | fabs o | fneg o | frcp o | frsq o | fexp2 o | flog2 o | ftanh o | fcvt o | cmul o | cmad o | twr o | trd o | scl o
  | sclrd o | csum o | csver o =>
    exact decode_encEAs rest rfl rfl (checkEA_ext hc).1 (checkEA_ext hc).2 hc
  | cmp c o | cvt c o | red c o | scan c o | fcmp c o | fred c o =>
    exact decode_encEAs rest rfl rfl (checkEA_ext hc).1 (checkEA_ext hc).2 hc
  | nop => exact decode_encEI_sys rest rfl fun _ => sysInstr_nop
  | brk code => exact decode_encEI_sys rest rfl fun _ => sysInstr_brk
  | trap code => exact decode_encEI_sys rest rfl fun _ => sysInstr_trap
  | li d t imm => exact decode_encEI_li rest rfl hc
  | send o => exact decode_encES rest rfl rfl (checkSend_ext hc) hc
  | sendr o => exact decode_encES rest rfl rfl (fun _ => checkSendr_ext hc) hc
  | last o => exact decode_encES rest rfl (esInstr_last (checkLast_spec hc).2) (checkLast_spec hc).1 hc
  | drop o =>
    exact decode_encES rest rfl (esInstr_drop (checkRelease_spec hc).2) (fun _ => (checkRelease_spec hc).1) hc
  | keep o =>
    exact decode_encES rest rfl (esInstr_keep (checkRelease_spec hc).2) (fun _ => (checkRelease_spec hc).1) hc
  | mld o =>
    exact decode_encEM_of_check rest rfl rfl (fun hv => emInstr_mld (by simpa using hv)) ext_eq_zero_of_noSource hc
  | mst o =>
    exact decode_encEM_of_check rest rfl rfl (fun hv => emInstr_mst (by simpa using hv)) ext_eq_zero_of_emSourceGood hc
  | mtake o =>
    exact decode_encEM_of_check rest rfl rfl (fun hv => emInstr_mtake (by simpa using hv)) ext_eq_zero_of_noSource hc
  | mfill o =>
    exact decode_encEM_of_check rest rfl rfl (fun hv => emInstr_mfill (by simpa using hv)) ext_eq_zero_of_emSourceGood hc
  | matom o =>
    refine decode_encEM_of_check rest rfl rfl (fun hv => emInstr_matom ?_) ext_eq_zero_of_emSourceGood hc
    simp only [Bool.and_eq_true, decide_eq_true_eq] at hv
    exact hv.1.1
  | mfence o =>
    exact decode_encEM_of_check rest rfl rfl (fun hv => emInstr_mfence (by simpa using hv)) ext_eq_zero_of_noSource hc
  | eyaddElement o =>
    exact decode_encEM_of_check rest rfl rfl (fun hv => emInstr_eyadd (by simpa using hv)) ext_eq_zero_of_emSourceGood hc
  | accout o =>
    exact decode_encEM_of_check rest rfl rfl (fun hv => emInstr_accout (by simpa using hv)) ext_eq_zero_of_noSource hc
  | accclr o =>
    exact decode_encEM_of_check rest rfl rfl (fun hv => emInstr_accclr (by simpa using hv)) ext_eq_zero_of_noSource hc
  | accst o =>
    refine decode_encEM_of_check rest rfl rfl (fun hv => emInstr_accst ?_) ext_eq_zero_of_noSource hc
    simp only [Bool.and_eq_true, decide_eq_true_eq] at hv
    exact hv.1
  | segmac o | segden o | drow o | bwdot o | diff o | seggrad o => exact decode_encEG rest rfl rfl hc
  | sadd o | ssub o | smul o | sand o | sor o | sxor o | sshl o | sshr o | ssar o | smin o | smax o | smov o | cfg o
  | commit o | run o | waitq o | depth o | bank o | spawn o | decl o | done o | cancel o | split o | yield o | push o
  | accept o | agset o | permit o | unpermit o | tlbinv o | quar o | ctxsave o | ctxload o | mon o | bbnote o | sbrk o
  | step o => exact decode_encQA rest rfl rfl hc
  | sli o | saddi o | sandi o | slih o | eyadd o | eywait o | eyset o | sfence o => exact decode_encQI rest rfl rfl hc
  | sld fn o => exact decode_encQI rest rfl (qiInstr_sld (by simpa using require_eq_none_iff.mp hc)) hc
  | sst fn o =>
    have hfn : 8 ≤ fn.toNat ∧ fn.toNat ≤ 11 := by simpa using require_eq_none_iff.mp hc
    exact decode_encQI rest rfl (qiInstr_sst hfn.1 hfn.2) hc
  | satom fn o => exact decode_encQI rest rfl (qiInstr_satom (by simpa using require_eq_none_iff.mp hc)) hc
  | br cond o => exact decode_encQB rest rfl (qbInstr_br (by simpa using require_eq_none_iff.mp hc)) hc
  | jmp o | loop o => exact decode_encQB rest rfl rfl hc
  | copy o | gather o | scatter o | chain o | waitseq o | click o | tbuild o | tpatch o | scant o | expand o | epi o
  | pusht o | popt o | car o | crs o | cag o | ca2a o | cbcast o => exact decode_encQE rest rfl rfl hc
  | _ => cases hw

end Sys2Proof
end
section
/-! SUPPORT. What the decoder accepts: the words it takes, the instructions of each format, and the opcodes of the two spaces (05
R64, R65). -/
namespace Sys2Proof

theorem accept_ok {o : Option Instr} {i : Instr} {words n : Nat} (h : accept o words = .ok (i, n)) :
    o = some i ∧ i.check = none ∧ n = words := by
  unfold accept at h
  split at h
  · cases h
  · next j =>
    split at h
    · next hj =>
      cases h
      exact ⟨rfl, hj, rfl⟩
    · cases h

/-- An opcode that follows a format lies in one of the two spaces (05 R65). -/
theorem opcode_of_formatOf (op : BitVec 6) (h : formatOf op.toNat ≠ .reserved) :
    op.toNat ≤ 0x27 ∨ (0x30 ≤ op.toNat ∧ op.toNat ≤ 0x3E) := by
  revert op
  decide

/-! ## Instruction words -/

section
variable {op fn : Nat} {i : Instr}

theorem eaInstr_isWord {f : BitVec 3} {o : EA} (h : eaInstr op f o = some i) : i.isWord = true := by
  unfold eaInstr at h
  split at h <;> cases h <;> rfl

theorem egInstr_isWord {f : BitVec 3} {o : EG} (h : egInstr op f o = some i) : i.isWord = true := by
  unfold egInstr at h
  split at h <;> cases h <;> rfl

theorem esInstr_isWord {o : ES} (h : esInstr op o = some i) : i.isWord = true := by
  unfold esInstr at h
  repeat' split at h
  all_goals cases h <;> rfl

theorem emInstr_isWord {o : EM} (h : emInstr op o = some i) : i.isWord = true := by
  unfold emInstr at h
  repeat' split at h
  all_goals cases h <;> rfl

theorem qaInstr_isWord {o : QA} (h : qaInstr op fn o = some i) : i.isWord = true := by
  unfold qaInstr at h
  split at h <;> cases h <;> rfl

theorem qiInstr_isWord {f : BitVec 4} {o : QI} (h : qiInstr op f o = some i) : i.isWord = true := by
  unfold qiInstr at h
  repeat' split at h
  all_goals cases h <;> rfl

theorem qbInstr_isWord {f : BitVec 4} {o : QB} (h : qbInstr f o = some i) : i.isWord = true := by
  unfold qbInstr at h
  repeat' split at h
  all_goals cases h <;> rfl

theorem qeInstr_isWord {o : QE} (h : qeInstr op fn o = some i) : i.isWord = true := by
  unfold qeInstr at h
  split at h <;> cases h <;> rfl

end

/-! ## The instructions and words of each format -/

/-- A legal instruction word of one to three words. -/
def LegalWords (i : Instr) (n : Nat) : Prop := i.isWord = true ∧ i.check = none ∧ 1 ≤ n ∧ n ≤ 3

section
variable {w : Word} {rest : List Word} {op n words : Nat} {i : Instr} {o : Option Instr}

theorem accept_legal (hwords : 1 ≤ words ∧ words ≤ 3) (hw : ∀ {j}, o = some j → j.isWord = true)
    (h : accept o words = .ok (i, n)) : LegalWords i n := by
  obtain ⟨hi, hc, rfl⟩ := accept_ok h
  exact ⟨hw hi, hc, hwords⟩

theorem sysInstr_legal (h : sysInstr w = .ok (i, n)) : LegalWords i n := by
  unfold sysInstr at h
  repeat' split at h
  all_goals cases h
  all_goals exact ⟨rfl, rfl, by decide, by decide⟩

theorem liInstr_legal (h : liInstr w = .ok (i, n)) : LegalWords i n := by
  unfold liInstr at h
  split at h
  · cases h
  · refine accept_legal (by decide) (fun hj => ?_) h
    cases hj
    rfl

theorem eaDecode_legal (h : eaDecode op w rest = .ok (i, n)) : LegalWords i n := by
  unfold eaDecode at h
  split at h
  · cases h
  · split at h
    · cases h
    · exact accept_legal (by split_ifs <;> decide) eaInstr_isWord h

theorem esDecode_legal (h : esDecode op w rest = .ok (i, n)) : LegalWords i n := by
  unfold esDecode at h
  split at h
  · split at h
    · cases h
    · exact accept_legal (by decide) esInstr_isWord h
  · exact accept_legal (by decide) esInstr_isWord h

theorem emDecode_legal (h : emDecode op w rest = .ok (i, n)) : LegalWords i n := by
  unfold emDecode at h
  split at h
  · split at h
    · cases h
    · exact accept_legal (by decide) emInstr_isWord h
  · exact accept_legal (by decide) emInstr_isWord h

theorem decodeAt_legal (h : decodeAt w rest = .ok (i, n)) : LegalWords i n := by
  cases hf : formatOf (bits w 26 6).toNat <;> simp only [decodeAt, hf] at h
  case sys => exact sysInstr_legal h
  case li => exact liInstr_legal h
  case ea => exact eaDecode_legal h
  case es => exact esDecode_legal h
  case em => exact emDecode_legal h
  case eg => exact accept_legal (by decide) egInstr_isWord h
  case qa => exact accept_legal (by decide) qaInstr_isWord h
  case qi => exact accept_legal (by decide) qiInstr_isWord h
  case qb => exact accept_legal (by decide) qbInstr_isWord h
  case qe => exact accept_legal (by decide) qeInstr_isWord h
  case reserved => cases h

theorem formatOf_of_decodeAt (h : decodeAt w rest = .ok (i, n)) : formatOf (bits w 26 6).toNat ≠ .reserved := by
  intro hf
  simp only [decodeAt, hf] at h
  cases h

end

/-- Settles O2: each format accepts instruction words of its own alone, and opcodes outside the two spaces have no format. -/
theorem decodedInstructionsAreLegal : Obligations.DecodedInstructionsAreLegal := by
  unfold Obligations.DecodedInstructionsAreLegal
  intro w rest i n h
  obtain ⟨hword, hcheck, hn, hn'⟩ := decodeAt_legal h
  exact ⟨hword, hcheck, hn, hn', opcode_of_formatOf _ (formatOf_of_decodeAt h)⟩

end Sys2Proof
end
section
/-! The statements on the spec's own words, on what a step of the machine runs, and on s0. -/
namespace Sys2Proof.Machine

/-- Settles O3: the decoder computes each of the eight. -/
theorem specWordsDecode : Obligations.SpecWordsDecode := by
  unfold Obligations.SpecWordsDecode
  decide

/-! ## The instruction of the unit with the turn (07 R108; 13 R199, R200) -/

section
variable {s : State}

theorem step_turn (hh : s.halted = false) (ha : s.agenda = []) (hf : s.focus ≠ .none) : step s = passing (turn s) := by
  rw [step, if_neg (by simp [hh]), perform, ha]
  cases h : s.focus with
  | none => exact absurd h hf
  | element el => rfl
  | sequencer q => rfl

theorem turn_of_fetched {i : Instr} (h : fetched s = .instr i) : turn s = exec i s := by
  rw [turn, h]

theorem fetched_of_runsBlock {el : Nat} {b : Block} (h : RunsBlock s el b) : fetched s = fetchBlock (s.element el) := by
  rw [fetched, h.1]

theorem fetchBlock_decoded {x : Element} {b : Block} {i : Instr} {n : Nat} (hb : x.block = some b)
    (ho : blockOpen x b = true) (hn : b.asNop ≠ some b.word) (hd : decode (blockWords x b) = .ok (i, n)) :
    fetchBlock x = .instr i := by
  simp only [fetchBlock, hb, ho, hn, hd, Bool.true_eq_false, if_false]

theorem fetched_of_runsStep {q : SeqId} {a : Activation} {x : Sequencer} {r : StepRun} (h : RunsStep s q a x r) :
    fetched s = fetchStep q x := by
  obtain ⟨hf, -, hx, -⟩ := h
  rw [fetched, hf]
  simp only [hx]

section
variable {q : SeqId} {x : Sequencer} {r : StepRun} (hr : x.step = some r) (he : r.ended = none)
include hr he

theorem fetchStep_decoded {i : Instr} {n : Nat} (hw : r.word < x.entry.length)
    (hd : decode [x.program.code.getD (x.entry.first + r.word) 0] = .ok (i, n)) : fetchStep q x = .instr i := by
  simp only [fetchStep, hr, he, hw.not_ge, hd, Option.isSome_none, Bool.false_eq_true, if_false]

theorem fetchStep_undecodable {e : DecodeError} (hw : r.word < x.entry.length)
    (hd : decode [x.program.code.getD (x.entry.first + r.word) 0] = .error e) :
    fetchStep q x = .instr (.illegalInstruction q) := by
  simp only [fetchStep, hr, he, hw.not_ge, hd, Option.isSome_none, Bool.false_eq_true, if_false]

theorem illegalHere_of_undecodable {e : DecodeError}
    (hd : decode [x.program.code.getD (x.entry.first + r.word) 0] = .error e) : illegalHere x = true := by
  simp only [illegalHere, hr, he, hd, Except.toOption, Option.isSome_none, Bool.false_eq_true, if_false,
    Option.isNone_none, Bool.or_true, ite_self]

end

theorem exec_illegalInstruction_here {q : SeqId} {x : Sequencer} (hx : s.sequencer q = some x) (h : illegalHere x = true) :
    exec (.illegalInstruction q) s = .next (takeStepException s q (illegalInfo (privilegedHere s q x))) := by
  simp only [exec_illegalInstruction, execIllegalInstruction, hx, h, if_true]

end

/-- Settles O4: with no event due, a step is the turn of the unit in focus, which executes what stands there. -/
theorem stepRunsTheDecodedInstruction : Obligations.StepRunsTheDecodedInstruction := by
  unfold Obligations.StepRunsTheDecodedInstruction
  refine ⟨fun s el b i n hh ha hb ho hn hd => ?block, fun s q a x r hh ha hr he hw => ?step⟩
  case block =>
    have there : fetched s = .instr i := (fetched_of_runsBlock hb).trans (fetchBlock_decoded hb.2 ho hn hd)
    rw [step_turn hh ha (by simp [hb.1]), turn_of_fetched there]
  case step =>
    have turns : step s = passing (turn s) := step_turn hh ha (by simp [hr.1])
    have there := fetched_of_runsStep hr
    obtain ⟨-, -, hx, hstep⟩ := hr
    refine ⟨fun i n hd => ?_, fun e hd => ⟨privilegedHere s q x, ?_⟩⟩
    · rw [turns, turn_of_fetched (there.trans (fetchStep_decoded hstep he hw hd))]
    · rw [turns, turn_of_fetched (there.trans (fetchStep_undecodable hstep he hw hd)),
        exec_illegalInstruction_here hx (illegalHere_of_undecodable hstep he hd)]
      rfl

/-! ## Registers of a sequencer (13 R198) -/

theorem Sequencer.reg_zero (x : Sequencer) : x.reg 0 = 0 := rfl

theorem Sequencer.setReg_zero (x : Sequencer) (v : DWord) : x.setReg 0 v = x := rfl

theorem Sequencer.reg_setReg_self (x : Sequencer) {r : Nat} (v : DWord) (h : r ≠ 0) : (x.setReg r v).reg r = v := by
  simp [Sequencer.setReg, Sequencer.reg, h]

theorem Sequencer.reg_setReg_of_ne (x : Sequencer) {r k : Nat} (v : DWord) (h : k ≠ r) :
    (x.setReg r v).reg k = x.reg k := by
  unfold Sequencer.setReg
  by_cases hr : r = 0
  · rw [if_pos hr]
  · rw [if_neg hr]
    simp only [Sequencer.reg, Tab.getD_put_of_ne _ _ _ _ _ h]

theorem Sequencer.setReg_frame (x : Sequencer) (r : Nat) (v : DWord) :
    x.setReg r v = { x with regs := (x.setReg r v).regs } := by
  unfold Sequencer.setReg
  split <;> rfl

/-- Settles O30: a write of s0 is no write, and any other is a write of the register table alone. -/
theorem registerZeroIsHardWired : Obligations.RegisterZeroIsHardWired := by
  unfold Obligations.RegisterZeroIsHardWired
  exact fun x r k v => ⟨x.reg_zero, x.setReg_zero v, x.reg_setReg_self v, x.reg_setReg_of_ne v, x.setReg_frame r v⟩

end Sys2Proof.Machine
end
section
/-! The statement on QALU and QIMM, from the register rules of Laws/Ops (05 R82; 13 R202, R203). -/
namespace Sys2Proof.Machine

theorem shiftLeft_counted (a : DWord) (n : Nat) : (if 64 ≤ n then 0 else a <<< n) = a <<< n :=
  ite_eq_right_iff.mpr fun h => (BitVec.shiftLeft_eq_zero h).symm

theorem ushiftRight_counted (a : DWord) (n : Nat) : (if 64 ≤ n then 0 else a >>> n) = a >>> n :=
  ite_eq_right_iff.mpr fun h => (BitVec.ushiftRight_eq_zero h).symm

/-- A count of 64 or more fills every bit with the top one. -/
theorem sshiftRight_counted (a : DWord) (n : Nat) : a.sshiftRight (if 64 ≤ n then 63 else n) = a.sshiftRight n := by
  split
  case isFalse => rfl
  case isTrue h =>
    ext i hi
    have top : ¬n + i < 64 := by omega
    rw [BitVec.getElem_sshiftRight, BitVec.getElem_sshiftRight, dif_neg top, BitVec.msb_eq_getLsbD_last]
    split
    case isTrue h0 =>
      obtain rfl : i = 0 := by omega
      simp
    case isFalse => rfl

theorem ofInt_min_toInt (a b : DWord) : BitVec.ofInt 64 (min a.toInt b.toInt) = if a.toInt ≤ b.toInt then a else b := by
  rw [min_def]
  split <;> exact BitVec.ofInt_toInt

theorem ofInt_max_toInt (a b : DWord) : BitVec.ofInt 64 (max a.toInt b.toInt) = if a.toInt ≤ b.toInt then b else a := by
  rw [max_def]
  split <;> exact BitVec.ofInt_toInt

theorem mul_add_setWidth (a : DWord) (imm : BitVec 14) :
    a * 0x4000 + imm.setWidth 64 = BitVec.ofNat 64 (a.toNat * 2 ^ 14 + imm.toNat) := by
  apply BitVec.eq_of_toNat_eq
  simp [BitVec.toNat_add, BitVec.toNat_mul]

/-- Settles O31: each of the sixteen is one write of d, whose value is the table's. -/
theorem scalarResults : Obligations.ScalarResults := by
  unfold Obligations.ScalarResults
  intro s q a x r o m h A B M sets setsI
  have aluSets {i : Instr} {f : DWord → DWord → DWord} {v : DWord} (hi : exec i s = alu s o f) (hv : f A B = v) :
      sets i v := hi.trans (alu_next h hv)
  have immSets {i : Instr} {f : DWord → DWord} {v : DWord} (hi : exec i s = aluImm s m f) (hv : f M = v) :
      setsI i v := hi.trans (aluImm_next h hv)
  exact ⟨aluSets (exec_sadd o s) rfl, aluSets (exec_ssub o s) rfl, aluSets (exec_smul o s) rfl,
    aluSets (exec_sand o s) rfl, aluSets (exec_sor o s) rfl, aluSets (exec_sxor o s) rfl,
    aluSets (exec_sshl o s) (shiftLeft_counted A _), aluSets (exec_sshr o s) (ushiftRight_counted A _),
    aluSets (exec_ssar o s) (sshiftRight_counted A _), aluSets (exec_smin o s) (ofInt_min_toInt A B).symm,
    aluSets (exec_smax o s) (ofInt_max_toInt A B).symm, aluSets (exec_smov o s) rfl, immSets (exec_sli m s) rfl,
    immSets (exec_saddi m s) rfl, immSets (exec_sandi m s) rfl, immSets (exec_slih m s) (mul_add_setWidth M m.imm)⟩

end Sys2Proof.Machine
end
section
/-! SUPPORT. Where a branch goes (05 R84). -/
namespace Sys2Proof.Machine

theorem stepAt_eq_some {steps : List StepEntry} {place : Int} {k : Nat} (hk : k < steps.length)
    (hfirst : ((steps.getD k default).first : Int) = place)
    (hlowest : ∀ j, j < k → ((steps.getD j default).first : Int) ≠ place) : stepAt steps place = some k := by
  refine List.findIdx?_eq_some_iff_getElem.mpr ⟨hk, ?_, fun j hj => ?_⟩
  · simpa [hk] using hfirst
  · simpa [hj.trans hk] using hlowest j hj

theorem stepAt_eq_none {steps : List StepEntry} {place : Int} (h : ∀ e ∈ steps, (e.first : Int) ≠ place) :
    stepAt steps place = none := List.findIdx?_eq_none_iff.mpr fun e he => decide_eq_false (h e he)

@[simp] theorem Sequencer.setReg_program (x : Sequencer) (r : Nat) (v : DWord) : (x.setReg r v).program = x.program := by
  unfold Sequencer.setReg
  split <;> rfl

@[simp] theorem Sequencer.setReg_entry (x : Sequencer) (r : Nat) (v : DWord) : (x.setReg r v).entry = x.entry := by
  unfold Sequencer.setReg
  split <;> rfl

section
variable {s : State} {x : Sequencer} {r : StepRun} {off : BitVec 14} {e : StepEntry} {steps : List StepEntry}
  {target : Int} {k : Nat}

theorem branch_untaken : branch s x r off false = .ok s x r := rfl

variable (he : x.entry = e) (hat : (e.first : Int) + r.word + off.toInt = target)
include he hat

theorem branch_within (hk : k < e.length) (ht : target = e.first + k) :
    branch s x r off true = .jump s x { r with word := k } := by
  have inside : (e.first : Int) ≤ target ∧ target < (e.first + e.length : Nat) := by omega
  have place : (target - e.first).toNat = k := by omega
  simp only [branch, Bool.not_true, Bool.false_eq_true, if_false, he, hat, if_pos inside, place]

variable (hsteps : x.program.steps = steps) (hout : target < e.first ∨ (e.first + e.length : Nat) ≤ target)
include hsteps hout

theorem branch_to_step (hs : stepAt steps target = some k) : branch s x r off true = endStep s x r (.branch k) := by
  have outside : ¬((e.first : Int) ≤ target ∧ target < (e.first + e.length : Nat)) := by omega
  simp only [branch, Bool.not_true, Bool.false_eq_true, if_false, he, hat, if_neg outside, hsteps, hs]

theorem branch_nowhere (hs : stepAt steps target = none) : branch s x r off true = .exc s (illegalInfo false) := by
  have outside : ¬((e.first : Int) ≤ target ∧ target < (e.first + e.length : Nat)) := by omega
  simp only [branch, Bool.not_true, Bool.false_eq_true, if_false, he, hat, if_neg outside, hsteps, hs]

end

end Sys2Proof.Machine
end

section
/-! The statement on branches, from the rules above. -/
namespace Sys2Proof.Machine

/-- Settles O32: each of the three kinds is one branch, and where it goes is that of `branch`. -/
theorem branchesFollowTheirOffsets : Obligations.BranchesFollowTheirOffsets := by
  unfold Obligations.BranchesFollowTheirOffsets
  intro s q a x r o c h A B target goes
  have branches {i : Instr} {x' : Sequencer} {taken : Prop} {b : Bool}
      {f : State → SeqId → Activation → Sequencer → StepRun → StepResult} (hi : exec i s = inStep s f)
      (hf : f s q a x r = branch s x' r o.off b) (hb : b = true ↔ taken) (hprogram : x'.program = x.program)
      (hentry : x'.entry = x.entry) : goes i x' taken := by
    have hsteps : x'.program.steps = x.program.steps := by rw [hprogram]
    refine ⟨fun hn => ?untaken, fun k ht hk hin => ?within, fun ht hout => ⟨fun k hk hfirst hlowest => ?step, fun hno => ?no⟩⟩
    case untaken =>
      obtain rfl : b = false := Bool.eq_false_iff.mpr (mt hb.mp hn)
      exact hi.trans (inStep_ok h (hf.trans branch_untaken))
    all_goals obtain rfl := hb.mpr ht
    case within => exact hi.trans (inStep_jump h (hf.trans (branch_within hentry rfl hk hin)))
    case step =>
      have found := stepAt_eq_some hk hfirst hlowest
      exact hi.trans (inStep_ok h (hf.trans (branch_to_step hentry rfl hsteps hout found)))
    case no => exact hi.trans (inStep_exc h (hf.trans (branch_nowhere hentry rfl hsteps hout (stepAt_eq_none hno))))
  have br {taken : Prop} (hb : branchCond c A B = true ↔ taken) : goes (.br c o) x taken :=
    branches (exec_br c o s) rfl hb rfl rfl
  refine ⟨?eq, ?ne, ?lt, ?ge, ?ltu, ?geu, ?jmp, ?loop⟩
  case eq | ne | ltu | geu =>
    rintro rfl
    exact br decide_eq_true_iff
  case lt | ge =>
    rintro rfl
    exact br Iff.rfl
  case jmp => exact branches (exec_jmp o s) rfl (by simp) rfl rfl
  case loop =>
    refine branches (exec_loop o s) rfl ?_ (x.setReg_program _ _) (x.setReg_entry _ _)
    rw [decide_eq_true_iff, ne_eq, sub_eq_zero]

end Sys2Proof.Machine
end
section
/-! The statements on the memory instructions of the sequencers, from the rules on steps and on their reads (05 R83; 13 R199, R205;
21 R328). -/
namespace Sys2Proof.Machine

theorem checkQmem_misaligned {s : State} {a : Activation} {u : RecordUse} {va size align : Nat} (h : va % align ≠ 0) :
    checkQmem s a u va size align = .error { code := 0x21, flags := useFlags u, address := BitVec.ofNat 64 va } := if_pos h

/-! ## SLD -/

section
variable {s s' : State} {q : SeqId} {a : Activation} {x : Sequencer} {r : StepRun} {o : QI} {fn : BitVec 4}

theorem exec_sld_bytes {bs : List Byte} (h : RunsStep s q a x r)
    (hread : readStep s q a r (qmemAddress x o) (sldSize fn.toNat) (sldSize fn.toNat) = .bytes s' bs) :
    exec (.sld fn o) s = .next (stepMoves s' q (x.setReg o.d.toNat (sldValue fn.toNat (natOfBytes bs))) r) :=
  (exec_sld fn o s).trans (inStep_ok h (by simp only [hread]))

theorem exec_sld_waits (h : RunsStep s q a x r)
    (hread : readStep s q a r (qmemAddress x o) (sldSize fn.toNat) (sldSize fn.toNat) = .waits) :
    exec (.sld fn o) s = .next (stepWaits s q x r) :=
  (exec_sld fn o s).trans (inStep_waits h (by simp only [hread]))

theorem exec_sld_fault {f : FaultInfo} (h : RunsStep s q a x r)
    (hread : readStep s q a r (qmemAddress x o) (sldSize fn.toNat) (sldSize fn.toNat) = .fault s' f) :
    exec (.sld fn o) s = .next (takeStepException s' q f) :=
  (exec_sld fn o s).trans (inStep_exc h (by simp only [hread]))

end

/-- Settles O34: an SLD is one read of its step, which faults, waits or has its bytes. -/
theorem sldLoads : Obligations.SldLoads := by
  unfold Obligations.SldLoads
  intro s s' q a x r o fn l bs h va n t
  refine ⟨fun hmis => exec_sld_fault h (readStep_misaligned hmis), fun hal hcheck => ⟨fun hfe hnot => ?waits,
    fun hfull hread => ?loads⟩⟩
  case waits => exact exec_sld_waits h (readStep_waits hal hcheck hfe hnot)
  case loads => exact exec_sld_bytes h (readStep_bytes hal hcheck hfull hread)

/-! ## The staged accesses -/

section
variable {s : State} {q : SeqId} {a : Activation} {x : Sequencer} {r : StepRun} {o : QI} {fn : BitVec 4} {l : Leaf}

theorem exec_sst_stages (h : RunsStep s q a x r)
    (hc : checkQmem s a .write (qmemAddress x o) (2 ^ (fn.toNat % 4)) (2 ^ (fn.toNat % 4)) = .ok l) :
    exec (.sst fn o) s = .next (stepStages (s.cacheLeaf a.entry.asid (qmemAddress x o) l) q x r
      (.store (qmemAddress x o) l.home (2 ^ (fn.toNat % 4)) (x.reg o.d.toNat) r.word)) :=
  (exec_sst fn o s).trans (inStep_stage h (by simp only [hc]))

theorem exec_sst_fault {f : FaultInfo} (h : RunsStep s q a x r)
    (hc : checkQmem s a .write (qmemAddress x o) (2 ^ (fn.toNat % 4)) (2 ^ (fn.toNat % 4)) = .error f) :
    exec (.sst fn o) s = .next (takeStepException s q f) :=
  (exec_sst fn o s).trans (inStep_exc h (by simp only [hc]))

theorem exec_satom_stages (h : RunsStep s q a x r) (hc : checkQmem s a .atomic (qmemAddress x o) 8 8 = .ok l) :
    exec (.satom fn o) s = .next (stepStages (s.cacheLeaf a.entry.asid (qmemAddress x o) l) q x r
      (.atom (qmemAddress x o) l.home (fn.toNat % 4) o.d.toNat (x.reg o.d.toNat) r.word)) :=
  (exec_satom fn o s).trans (inStep_stage h (by simp only [hc]))

theorem exec_satom_fault {f : FaultInfo} (h : RunsStep s q a x r)
    (hc : checkQmem s a .atomic (qmemAddress x o) 8 8 = .error f) :
    exec (.satom fn o) s = .next (takeStepException s q f) :=
  (exec_satom fn o s).trans (inStep_exc h (by simp only [hc]))

theorem onEyelet_ok {u : RecordUse} {f : State → Nat → Home → Sequencer → StepRun → StepResult} {s' : State}
    {x' : Sequencer} {r' : StepRun} (h : RunsStep s q a x r) (hc : checkQmem s a u (x.reg o.a.toNat).toNat 16 16 = .ok l)
    (hf : f (s.cacheLeaf a.entry.asid (x.reg o.a.toNat).toNat l) (x.reg o.a.toNat).toNat l.home x r = .ok s' x' r') :
    onEyelet s o u f = .next (stepMoves s' q x' r') :=
  inStep_ok h (by simp only [hc, hf])

end

/-- Settles O36: each access is staged once its check answers a place, and its fault is that of the check. -/
theorem stepAccessesAreStaged : Obligations.StepAccessesAreStaged := by
  unfold Obligations.StepAccessesAreStaged
  intro s q a x r o fn l h va ey n g kept
  refine ⟨fun hal hcheck => ?sst, fun hal hcheck => ?satom, fun hal hcheck => ⟨?eyadd, ?eyset⟩, fun hal hcheck => ?eywait,
    (exec_sfence o s).trans (inStep_stage h rfl), fun hmis => exec_sst_fault h (checkQmem_misaligned hmis),
    fun hmis => exec_satom_fault h (checkQmem_misaligned hmis)⟩
  case sst => exact exec_sst_stages h ((checkQmem_aligned hal).trans hcheck)
  case satom => exact exec_satom_stages h ((checkQmem_aligned hal).trans hcheck)
  case eyadd => exact (exec_eyadd o s).trans (onEyelet_ok h ((checkQmem_aligned hal).trans hcheck) rfl)
  case eyset => exact (exec_eyset o s).trans (onEyelet_ok h ((checkQmem_aligned hal).trans hcheck) rfl)
  case eywait => exact (exec_eywait o s).trans (onEyelet_ok h ((checkQmem_aligned hal).trans hcheck) rfl)

end Sys2Proof.Machine
end

section
/-! The statement on privilege and on stream code, from the rules on exceptions of a step (05 R67; 13 R225; 21 R328). -/
namespace Sys2Proof.Machine

section
variable {s : State} {q : SeqId} {a : Activation} {x : Sequencer} {r : StepRun}

theorem inSupervisor_unprivileged {f : State → Activation → Sequencer → StepRun → StepResult} (h : RunsStep s q a x r)
    (ha : a.entry.asid ≠ 0) : inSupervisor s f = .next (takeStepException s q (illegalInfo true)) :=
  inStep_exc h (if_pos ha)

theorem inSupervisor_stream {t : Nat} {f : State → Activation → Sequencer → StepRun → StepResult}
    (h : RunsStep s (.stream t) a x r) (ha : a.entry.asid = 0) :
    inSupervisor s f = .next (takeStepException s (.stream t) (illegalInfo false)) :=
  inStep_exc h (if_neg (not_not.mpr ha))

theorem inRegionStep_stream {t : Nat} {f : State → Nat → Activation → Sequencer → StepRun → StepResult}
    (h : RunsStep s (.stream t) a x r) :
    inRegionStep s f = .next (takeStepException s (.stream t) (illegalInfo false)) :=
  inStep_exc h rfl

theorem appendCollective_stream {t fn : Nat} {o : QE} (h : RunsStep s (.stream t) a x r) :
    appendCollective s o fn = .next (takeStepException s (.stream t) (illegalInfo false)) := inRegionStep_stream h

theorem exec_spawn_stream {t : Nat} {o : QA} (h : RunsStep s (.stream t) a x r) :
    exec (.spawn o) s = .next (takeStepException s (.stream t) (illegalInfo false)) :=
  (exec_spawn o s).trans (inStep_exc h rfl)

end

/-- Settles O45: what outside ASID 0 or in stream code is refused, is refused before anything else of it is looked at. -/
theorem privilegeAndStreamCode : Obligations.PrivilegeAndStreamCode := by
  unfold Obligations.PrivilegeAndStreamCode
  intro s q a x r o e h illegal
  refine ⟨fun ha => ?outside, fun t ht => ?stream⟩
  case outside =>
    have refused {i : Instr} {f} (hi : exec i s = inSupervisor s f) : illegal i true :=
      hi.trans (inSupervisor_unprivileged h ha)
    exact ⟨refused (exec_tlbinv o s), refused (exec_quar o s), refused (exec_ctxsave o s), refused (exec_ctxload o s),
      refused (exec_mon o s), refused (exec_bbnote o s)⟩
  case stream =>
    subst ht
    have region {i : Instr} {f} (hi : exec i s = inRegionStep s f) : illegal i false := hi.trans (inRegionStep_stream h)
    have collective {i : Instr} {fn} (hi : exec i s = appendCollective s e fn) : illegal i false :=
      hi.trans (appendCollective_stream h)
    refine ⟨region (exec_cfg o s), region (exec_commit o s), region (exec_run o s), region (exec_depth o s),
      region (exec_bank o s), exec_spawn_stream h, region (exec_decl o s), region (exec_cancel o s),
      region (exec_split o s), region (exec_yield o s), region (exec_permit o s), region (exec_unpermit o s),
      collective (exec_car e s), collective (exec_crs e s), collective (exec_cag e s), collective (exec_ca2a e s),
      collective (exec_cbcast e s), region (exec_step o s), fun ha => ?_⟩
    have supervisor {i : Instr} {f} (hi : exec i s = inSupervisor s f) : illegal i false :=
      hi.trans (inSupervisor_stream h ha)
    exact ⟨supervisor (exec_tlbinv o s), supervisor (exec_quar o s), supervisor (exec_ctxsave o s),
      supervisor (exec_ctxload o s), supervisor (exec_mon o s), supervisor (exec_bbnote o s)⟩

end Sys2Proof.Machine
end
section
/-! The statement on the moves and conversions of lanes, from the rules on lanes (05 R74; 08 R121, R122, R130, R133, R134). -/
namespace Sys2Proof.Machine

/-! ## LI -/

/-- A lane of T keeps of the immediate's expansion what fits: 8-bit types its low byte (05 R74). -/
theorem liLane_mod (t : BitVec 3) (imm : BitVec 16) : liLane t imm % 2 ^ laneWidth t =
    (if t = 0 then (imm.signExtend 32).toNat else if t = 6 then imm.toNat * 2 ^ 16 else imm.toNat) % 2 ^ laneWidth t := by
  unfold liLane
  split
  case h_1 ht =>
    obtain rfl : t = 0 := BitVec.eq_of_toNat_eq ht
    rfl
  case h_2 ht =>
    obtain rfl : t = 6 := BitVec.eq_of_toNat_eq ht
    rfl
  case h_3 ht =>
    obtain rfl : t = 2 := BitVec.eq_of_toNat_eq ht
    exact Nat.mod_mod _ _
  case h_4 ht =>
    obtain rfl : t = 5 := BitVec.eq_of_toNat_eq ht
    exact Nat.mod_mod _ _
  case h_5 h0 h6 _ _ => rw [if_neg fun ht => h0 (congrArg BitVec.toNat ht), if_neg fun ht => h6 (congrArg BitVec.toNat ht)]

theorem exec_li_sets {s : State} {el : Nat} {b : Block} (h : RunsBlock s el b) (d t : BitVec 3) (imm : BitVec 16) {n : Nat}
    (hn : liLane t imm % 2 ^ laneWidth t = n % 2 ^ laneWidth t) :
    SetsTemp s el b (.li d t imm) 1 d.toNat (laneWidth t) (fun _ => true) (fun _ => (n, 0)) := by
  refine ⟨_, (exec_li d t imm s).trans (inBlock_ok 1 h rfl), rfl, fun u hu => b.temp_setTemp_of_ne _ u _ hu,
    fun j hj => ?_, fun k => ?_⟩
  · rw [b.temp_setTemp_self, laneNat_broadcast (laneWidth_dvd t) _ j hj, if_pos rfl, hn]
  · simp [Block.setTemp]

/-! ## PACK and UNPACK -/

theorem lanesOf_double (w : Nat) : lanesOf (2 * w) = lanesOf w / 2 := by
  rw [lanesOf, lanesOf, Nat.div_div_eq_div_mul, Nat.mul_comm]

theorem unpack_sets {s : State} {el : Nat} {b : Block} {o : EA} {i : Instr} {first : Nat} (h : RunsBlock s el b)
    (hi : exec i s = unpack s o first) :
    SetsLanes s el b o i fun j => ((laneInt (laneSigned o.t) (laneWidth o.t / 2)
      (srcA (s.element el) el b o { w := laneWidth o.t / 2 } (first + j)) % (2 ^ laneWidth o.t : Nat)).toNat, 0) :=
  lanewise_sets h hi fun _ _ => ⟨rfl, rfl⟩

/-! ## CVT -/

theorem laneFmt_eq_none {t : BitVec 3} (h : t.toNat < 6) : laneFmt t = none := by
  have h6 : t ≠ 6 := by rintro rfl; contradiction
  have h7 : t ≠ 7 := by rintro rfl; contradiction
  rw [laneFmt, if_neg h6, if_neg h7]

theorem laneFmt_eq_some {t : BitVec 3} (h : ¬t.toNat < 6) : laneFmt t = some (fmtOfType t) := by
  revert t
  decide

theorem cvtLane_eq (c : BitVec 3) (o : EA) (v : Nat) : cvtLane c o v =
    if c.toNat < 6 then
      if o.t.toNat < 6 then writtenInt o (laneInt (laneSigned c) (laneWidth c) v)
      else intToFloat (fmtOfType o.t) .rne (laneInt (laneSigned c) (laneWidth c) v)
    else floatToInt (fmtOfType c) (roundingOf o.rm) (laneSigned o.t) (laneWidth o.t) v := by
  unfold cvtLane
  by_cases hc : c.toNat < 6
  · rw [if_pos hc, laneFmt_eq_none hc]
    by_cases ht : o.t.toNat < 6
    · rw [if_pos ht, laneFmt_eq_none ht]
      exact narrow_written o _
    · rw [if_neg ht, laneFmt_eq_some ht]
  · rw [if_neg hc, laneFmt_eq_some hc]

/-- A lane-by-lane write of the lanes below `n`. -/
theorem writeLanes_sets {s : State} {el : Nat} {b : Block} {o : EA} {i : Instr} {n : Nat} {f g : Nat → Nat × Word}
    (hi : exec i s = .next (blockMoves s el (b.writeLanes o (laneWidth o.t) n f) (eaWords o))) (hg : ∀ j, f j = g j) :
    SetsTemp s el b i (eaWords o) o.d.toNat (laneWidth o.t) (fun j => decide (j < n) && b.active o (laneWidth o.t) j) g := by
  obtain rfl : f = g := funext hg
  exact ⟨_, hi, writeLanes_spec b o n f (laneWidth_dvd o.t)⟩

/-- Settles O11: each but LI is a lane-by-lane write, and LI writes every lane of its temporary. -/
theorem movesAndConversions : Obligations.MovesAndConversions := by
  unfold Obligations.MovesAndConversions
  intro s el b o c imm h x w n
  refine ⟨lanewise_sets h (exec_mov o s) fun _ _ => ⟨rfl, rfl⟩, exec_li_sets h o.d o.t imm (liLane_mod o.t imm), ?pack, ?lo,
    unpack_sets h (exec_unpackHi o s), ?cvt⟩
  case pack =>
    refine lanewise_sets h (exec_pack o s) fun j _ => ?_
    simp only [narrow_written, lanesOf_double]
    exact ⟨rfl, rfl⟩
  case lo => simpa only [Nat.zero_add] using unpack_sets h (exec_unpackLo o s)
  case cvt => exact writeLanes_sets ((exec_cvt c o s).trans (inLanes_next h)) fun j => cvtLane_eq c o _

end Sys2Proof.Machine
end

section
/-! The rows of the table store and the scale registers that a block reads and stages (10 R168, R169). -/
namespace Sys2Proof.Machine

/-- A source of i32 lanes as a whole vector reads back lane by lane. -/
theorem laneNat_wordsB (x : Element) (el : Nat) (b : Block) (o : EA) {j : Nat} (h : j < 64) :
    laneNat (wordsB x el b o) 32 j = srcB x el b o { w := 32 } j % 2 ^ 32 :=
  laneNat_packLanes (by decide) _ j h

/-- A scale register fills every word of a vector. -/
theorem laneNat_broadcast_word (v : Word) {j : Nat} (h : j < 64) : laneNat (broadcast 32 v.toNat) 32 j = v.toNat :=
  (laneNat_broadcast (w := 32) (by decide) v.toNat j h).trans (Nat.mod_eq_of_lt v.isLt)

/-- Settles O28: each of the four is one instruction over the lanes of its block, which reads its element as it stands. -/
theorem tableRowsAndScales : Obligations.TableRowsAndScales := by
  unfold Obligations.TableRowsAndScales
  intro s el b o h x lane0 k scale
  exact ⟨⟨wordsB x el b o, fun j hj => laneNat_wordsB x el b o hj, (exec_twr o s).trans (inLanes_next h)⟩,
    (exec_trd o s).trans (inLanes_next h), (exec_scl o s).trans (inLanes_next h),
    ⟨broadcast 32 scale.toNat, fun j hj => laneNat_broadcast_word scale hj, (exec_sclrd o s).trans (inLanes_next h)⟩⟩

end Sys2Proof.Machine
end

section
/-! The statement on the events of an element, which leaves out a condition of DEPTH_CHANGE: a depth that waits takes effect only
where the pool of its tile has the places (12 R186). -/
namespace Sys2Proof.Machine

/-- A port that waits for a depth of 513 flits, one more than the pool of its tile has places. -/
def overfullPort : Port := { newDepth := some 513 }

/-- A circuit without a flit on it that ends at port 0 of element 0. -/
def drainedCircuit : Circuit := { source := .out 0 0, ends := [.elementPort 0 0] }

/-- A package in which that circuit ends at that port. -/
def overfullPool : State :=
  { elements := [(0, { ports := [(0, overfullPort)] })], circuits := [(0, drainedCircuit)] }

theorem depthChange_overfullPool : exec (.depthChange 0 0) overfullPool = .fault .notEnabled := rfl

/-- Refutes O47: the clause on DEPTH_CHANGE asks for a drained circuit but not for places in the tile's pool, which has 512. -/
theorem not_elementEventsOccur : ¬ Obligations.ElementEventsOccur := by
  unfold Obligations.ElementEventsOccur
  intro h
  obtain ⟨-, -, -, -, -, -, depthChanges⟩ := h overfullPool 0 0
  have occurs := depthChanges 513 (0, drainedCircuit) rfl (by decide) (by decide)
  rw [depthChange_overfullPool] at occurs
  cases occurs

end Sys2Proof.Machine
end
section
/-! SUPPORT. The accesses of the hardware neither look at the translation cache nor change it: each gives the same with another one in
its place, so the walks of one translation commute with what another has kept (15 R242; 24 R373 to R376; 25 R391; 26 R406 to R409). -/
namespace Sys2Proof.Machine

/-- The state with another translation cache. -/
def State.withTlb (s : State) (tlb : List TlbEntry) : State := s.mapMemory fun m => { m with tlb := tlb }

variable (s : State) (c : List TlbEntry)

@[simp] theorem State.withTlb_host : (s.withTlb c).host = s.host := rfl
@[simp] theorem State.withTlb_halted : (s.withTlb c).halted = s.halted := rfl
@[simp] theorem State.withTlb_upsets : (s.withTlb c).upsets = s.upsets := rfl
@[simp] theorem State.withTlb_cycle : (s.withTlb c).cycle = s.cycle := rfl
@[simp] theorem State.withTlb_tick : (s.withTlb c).tick = s.tick := rfl
@[simp] theorem State.withTlb_sched : (s.withTlb c).sched = s.sched := rfl
@[simp] theorem State.withTlb_llc : (s.withTlb c).memory.llc = s.memory.llc := rfl
@[simp] theorem State.mapHost_withTlb (f : HostDie → HostDie) : (s.withTlb c).mapHost f = (s.mapHost f).withTlb c := rfl
@[simp] theorem State.mapSched_withTlb (f : Scheduler → Scheduler) : (s.withTlb c).mapSched f = (s.mapSched f).withTlb c := rfl

theorem State.mapMem_withTlb (f : Mem → Mem) : ((s.withTlb c).mapMemory fun m => { m with mem := f m.mem }) =
    (s.mapMemory fun m => { m with mem := f m.mem }).withTlb c := rfl

@[simp] theorem State.badPiece_withTlb (p : Nat) : (s.withTlb c).badPiece p = s.badPiece p := rfl
@[simp] theorem State.armedAt_withTlb (p : Nat) : (s.withTlb c).armedAt p = s.armedAt p := rfl
@[simp] theorem State.decodeLlc_withTlb (p : Nat) : (s.withTlb c).decodeLlc p = s.decodeLlc p := rfl
@[simp] theorem State.filled_withTlb (p : Nat) : (s.withTlb c).filled p = s.filled p := rfl
@[simp] theorem State.setFilled_withTlb (p : Nat) : (s.withTlb c).setFilled p = s.setFilled p := rfl
@[simp] theorem State.setOf_withTlb (p : Nat) : (s.withTlb c).setOf p = s.setOf p := rfl
@[simp] theorem State.hwFault_withTlb (p : Nat) : (s.withTlb c).hwFault p = s.hwFault p := rfl
@[simp] theorem State.retired_withTlb (p : Nat) : (s.withTlb c).retired p = s.retired p := rfl
@[simp] theorem State.holdsSector_withTlb (p : Nat) : (s.withTlb c).holdsSector p = s.holdsSector p := rfl
@[simp] theorem State.descAt_withTlb (p : Nat) : (s.withTlb c).descAt p = s.descAt p := rfl

@[simp] theorem State.physBytes_withTlb (pa n : Nat) : (s.withTlb c).physBytes pa n = s.physBytes pa n := by
  induction n generalizing pa with
  | zero => rfl
  | succ n ih => rw [State.physBytes, State.physBytes, ih]; rfl
@[simp] theorem State.physNat_withTlb (pa n : Nat) : (s.withTlb c).physNat pa n = s.physNat pa n :=
  congrArg natOfBytes (s.physBytes_withTlb c pa n)
@[simp] theorem State.descField_withTlb (asid off n : Nat) : (s.withTlb c).descField asid off n = s.descField asid off n :=
  s.physNat_withTlb c _ n
@[simp] theorem State.vfOf_withTlb (asid : Nat) : (s.withTlb c).vfOf asid = s.vfOf asid := by
  simp [State.vfOf]

theorem foldl_withTlb {α : Type} (f : State → α → State) (l : List α) (hf : ∀ s a, f (s.withTlb c) a = (f s a).withTlb c) :
    ∀ s : State, l.foldl f (s.withTlb c) = (l.foldl f s).withTlb c := by
  induction l with
  | nil => exact fun _ => rfl
  | cons a l ih => exact fun s => by rw [List.foldl_cons, hf, ih, List.foldl_cons]

@[simp] theorem State.blackBox_withTlb (k : Nat) (fs : List (Nat × Nat × Nat)) :
    (s.withTlb c).blackBox k fs = (s.blackBox k fs).withTlb c := by
  unfold State.blackBox
  rw [State.withTlb_host]
  split <;> rfl

@[simp] theorem State.fatal_withTlb (k : Nat) (fs : List (Nat × Nat × Nat)) :
    (s.withTlb c).fatal k fs = (s.fatal k fs).withTlb c := by
  unfold State.fatal
  rw [State.blackBox_withTlb]
  rfl

@[simp] theorem State.lowerCounters_withTlb (asid : Nat) (r : BitVec 512) :
    (s.withTlb c).lowerCounters asid r = (s.lowerCounters asid r).withTlb c := by
  unfold State.lowerCounters
  exact foldl_withTlb c _ _ (fun _ _ => rfl) s

@[simp] theorem State.retire_withTlb (pa : Nat) :
    (s.withTlb c).retire pa = ((s.retire pa).1.withTlb c, (s.retire pa).2) := by
  unfold State.retire
  rw [State.withTlb_host]
  split
  · rfl
  · by_cases h : s.host.rft.length < 1024
    · simp only [if_pos h]
      rfl
    · simp only [if_neg h]

@[simp] theorem State.enterErasure_withTlb (reg lo pos : Nat) :
    (s.withTlb c).enterErasure reg lo pos = (s.enterErasure reg lo pos).withTlb c := by
  unfold State.enterErasure
  rw [← State.blackBox_withTlb]
  rfl

theorem State.withTlb_ite {p : Prop} [Decidable p] (s t : State) (c : List TlbEntry) :
    (if p then s else t).withTlb c = if p then s.withTlb c else t.withTlb c := apply_ite (State.withTlb · c) p s t

@[simp] theorem State.hbmCorrected_withTlb (pa pos : Nat) :
    (s.withTlb c).hbmCorrected pa pos = (s.hbmCorrected pa pos).withTlb c := by
  unfold State.hbmCorrected
  simp only [State.withTlb_host, State.withTlb_cycle, State.mapHost_withTlb, State.enterErasure_withTlb, State.withTlb_ite]
  rfl

/-! A piece that a fill reads, by what the decoder makes of it (26 R406, R407, R409). -/

/-- The state in which the errors of a piece of the HBM have been met. -/
def State.metHbm (s : State) (pa : Nat) : State := { s with upsets := s.upsets.filter fun u => match u with
  | .hbm p _ => p ≠ pa / 32
  | _ => true }

@[simp] theorem State.metHbm_withTlb (pa : Nat) : (s.withTlb c).metHbm pa = (s.metHbm pa).withTlb c := rfl

/-- What the decoder makes of a piece of the HBM. -/
def State.decodeHbm (s : State) (pa : Nat) : Decoded :=
  decodeSymbols (BitVec.ofNat 256 (s.memory.mem.readNat (pa / 32 * 32) 32)) (s.hbmErrors (pa / 32))
    (erasedBy (s.host.hbmer.getD (erasureReg pa) 0))

/-- The state in which a piece of the HBM holds what its decoder took it for. -/
def State.mistaken (s : State) (pa : Nat) (v : BitVec 256) : State :=
  (s.metHbm pa).mapMemory fun m => { m with mem := m.mem.writeNat (pa / 32 * 32) 32 v.toNat }

@[simp] theorem State.mistaken_withTlb (pa : Nat) (v : BitVec 256) :
    (s.withTlb c).mistaken pa v = (s.mistaken pa v).withTlb c :=
  State.mapMem_withTlb (s.metHbm pa) c fun m => m.writeNat (pa / 32 * 32) 32 v.toNat

theorem State.decodeHbm_withTlb (pa : Nat) : (s.withTlb c).decodeHbm pa = s.decodeHbm pa := rfl

section
variable (h : Hardware) {pa : Nat} {ps : List Nat} {v : BitVec 256}

theorem State.meetHbmBy_clean (clean : (!isHbm pa || decide (s.hbmErrors (pa / 32) = 0)) = true) :
    s.meetHbmBy h pa = s.metHbm pa := if_pos clean

theorem State.meetHbmBy_corrected (clean : ¬(!isHbm pa || decide (s.hbmErrors (pa / 32) = 0)) = true)
    (hd : s.decodeHbm pa = .corrected ps) :
    s.meetHbmBy h pa = ps.foldl (fun s pos => s.hbmCorrected pa pos) (s.metHbm pa) := by
  unfold State.meetHbmBy
  refine (if_neg clean).trans ?_
  dsimp only
  rw [show decodeSymbols _ _ _ = _ from hd]
  rfl

theorem State.meetHbmBy_uncorrectable (clean : ¬(!isHbm pa || decide (s.hbmErrors (pa / 32) = 0)) = true)
    (hd : s.decodeHbm pa = .uncorrectable) :
    s.meetHbmBy h pa = (s.metHbm pa).hbmUncorrectableBy h pa := by
  unfold State.meetHbmBy
  refine (if_neg clean).trans ?_
  dsimp only
  rw [show decodeSymbols _ _ _ = _ from hd]
  rfl

theorem State.meetHbmBy_miscorrected (clean : ¬(!isHbm pa || decide (s.hbmErrors (pa / 32) = 0)) = true)
    (hd : s.decodeHbm pa = .miscorrected v ps) :
    s.meetHbmBy h pa = ps.foldl (fun s pos => s.hbmCorrected pa pos) (s.mistaken pa v) := by
  unfold State.meetHbmBy
  refine (if_neg clean).trans ?_
  dsimp only
  rw [show decodeSymbols _ _ _ = _ from hd]
  rfl

end

@[simp] theorem State.decodePiece_withTlb (pa : Nat) : (s.withTlb c).decodePiece pa = (s.decodePiece pa).withTlb c := by
  unfold State.decodePiece
  simp only [State.decodeLlc_withTlb, State.armedAt_withTlb]
  rcases s.decodeLlc (pa / 32) with ps | _ | ⟨v, ps⟩ <;>
    rcases hl : findLine s.memory.llc (pa / 256) with _ | l <;> by_cases armed : s.armedAt (pa / 32) = true <;>
    simp only [armed, if_true, if_false, State.mapHost_memory, State.withTlb_llc, hl, Bool.false_eq_true] <;> rfl

@[simp] theorem State.dropLine_withTlb (line : Nat) : (s.withTlb c).dropLine line = (s.dropLine line).withTlb c := by
  unfold State.dropLine
  rw [State.withTlb_llc]
  split <;> rfl

@[simp] theorem State.quarantineWay_withTlb (die group way : Nat) :
    (s.withTlb c).quarantineWay die group way = (s.quarantineWay die group way).withTlb c := by
  unfold State.quarantineWay
  simp only [State.mapHost_withTlb, State.withTlb_llc]
  refine foldl_withTlb c _ _ (fun t l => ?_) _
  simp only [State.badPiece_withTlb, State.withTlb_ite, ← State.dropLine_withTlb,
    foldl_withTlb c _ _ (fun t p => State.decodePiece_withTlb t c p)]

/-! An uncorrectable piece of a line, by what the cache die does with it (24 R375). -/

/-- The state with a sector of a line invalid. -/
def State.withoutSector (s : State) (l : LlcLine) (pa : Nat) : State :=
  s.mapMemory fun m => { m with llc := putLine m.llc { l with valid := l.valid &&& ~~~((1 : BitVec 2) <<< (pa / 128 % 2)) } }

/-- The state without a line. -/
def State.withoutLine (s : State) (line : Nat) : State :=
  s.mapMemory fun m => { m with llc := m.llc.filter fun x => x.line ≠ line }

@[simp] theorem State.withoutSector_withTlb (l : LlcLine) (pa : Nat) :
    (s.withTlb c).withoutSector l pa = (s.withoutSector l pa).withTlb c := rfl
@[simp] theorem State.withoutLine_withTlb (line : Nat) : (s.withTlb c).withoutLine line = (s.withoutLine line).withTlb c := rfl

/-- Nothing can be saved of a dirty line: it is the supervisor's, the retired-frame table is full, or no other way is open. -/
def State.lastResort (s : State) (l : LlcLine) (pa : Nat) : Prop :=
  l.owner = 0 ∨ 1024 ≤ s.host.rft.length ∨
    (s.host.llcq.getD (64 * l.die + setGroup pa) 0).toNat ||| 2 ^ l.way = 0xFFFF

/-- The state that the loss of such a line stops. -/
def State.lostLine (s : State) (h : Hardware) (l : LlcLine) (pa : Nat) : State :=
  let pieces := 2 ^ (pa / 32 % 8)
  let t := s.memoryErrorBy h l.line 3 l.owner l.die l.way pieces none
  t.fatal 1 [(16, 8, l.line * 256), (24, 8, packFields [(0, 1, 3), (1, 1, l.owner), (2, 1, l.die), (3, 1, setGroup pa),
    (4, 1, l.way), (5, 1, pieces), (6, 2, t.vfOf l.owner)])]

/-- A piece of a line of a quarantined way is read out, if its sector is still there. -/
def State.readOutPiece (h : Hardware) (fuel : Nat) (x : LlcLine) (s : State) (p : Nat) : State :=
  match findLine s.memory.llc x.line with
  | none => s
  | some y =>
    if s.halted || !y.valid.getLsbD (p / 128 % 2) then s
    else if s.badPiece (p / 32) then State.uncorrectableBy h fuel (s.decodePiece p) y p
    else s.decodePiece p

/-- A line of a quarantined way is read out and dropped. -/
def State.readOut (h : Hardware) (fuel : Nat) (s : State) (x : LlcLine) : State :=
  ((linePieces x.line x.valid.getLsbD).foldl (State.readOutPiece h fuel x) s).dropLine x.line

/-- The state in which the way of a bad dirty line is quarantined, its owner stopped and its frame retired. -/
def State.withoutWay (s : State) (h : Hardware) (l : LlcLine) (pa : Nat) : State :=
  let r := ((s.withoutLine l.line).terminateContextBy h l.owner).retire pa
  (r.1.quarantineWay l.die (setGroup pa) l.way).memoryErrorBy h l.line 1 l.owner l.die l.way (2 ^ (pa / 32 % 8)) r.2

section
variable (h : Hardware) (fuel : Nat) {l : LlcLine} {pa : Nat}

theorem State.uncorrectableBy_clean (clean : l.dirty.getLsbD (pa / 128 % 2) = false) :
    State.uncorrectableBy h (fuel + 1) s l pa =
      ((s.withoutSector l pa).memoryErrorBy h l.line 2 0 l.die l.way (2 ^ (pa / 32 % 8)) none).fetchSectorBy h pa :=
  if_pos clean

theorem State.uncorrectableBy_fatal (dirty : ¬l.dirty.getLsbD (pa / 128 % 2) = false) (last : s.lastResort l pa) :
    State.uncorrectableBy h (fuel + 1) s l pa = s.lostLine h l pa := (if_neg dirty).trans (if_pos last)

theorem State.uncorrectableBy_quarantines (dirty : ¬l.dirty.getLsbD (pa / 128 % 2) = false) (more : ¬s.lastResort l pa) :
    State.uncorrectableBy h (fuel + 1) s l pa =
      ((s.withoutWay h l pa).memory.llc.filter fun x => x.inWay l.die (setGroup pa) l.way).foldl (State.readOut h fuel)
        (s.withoutWay h l pa) :=
  (if_neg dirty).trans (if_neg more)

end

/-- The hardware's own accesses neither look at the translation cache nor change it. -/
def Hardware.SparesTlb (h : Hardware) : Prop :=
  (∀ (s : State) (c : List TlbEntry) (pa n : Nat), h.read (s.withTlb c) pa n = (h.read s pa n).withTlb c) ∧
  ∀ (s : State) (c : List TlbEntry) (pa : Nat) (bs : List Byte), h.write (s.withTlb c) pa bs = (h.write s pa bs).withTlb c

section
variable {h : Hardware} (hh : h.SparesTlb)
include hh

theorem State.enqueueBy_withTlb (q r : Nat) :
    (s.withTlb c).enqueueBy h q r = ((s.enqueueBy h q r).1.withTlb c, (s.enqueueBy h q r).2) := by
  unfold State.enqueueBy
  simp only [State.withTlb_host, State.withTlb_halted, State.mapHost_withTlb, hh.2, State.hwFault_withTlb]
  split
  · rfl
  · split <;> rfl

theorem State.recordBy_withTlb (q r : Nat) : (s.withTlb c).recordBy h q r = (s.recordBy h q r).withTlb c := by
  unfold State.recordBy
  rw [State.enqueueBy_withTlb s c hh]
  rcases s.enqueueBy h q r with ⟨t, _ | f⟩
  · rfl
  · simp only [State.enqueueZeroBy, State.withTlb_cycle, State.enqueueBy_withTlb _ c hh, State.withTlb_ite]

theorem State.deliverBy_withTlb (f : FaultSite) (i : FaultInfo) :
    (s.withTlb c).deliverBy h f i = (s.deliverBy h f i).withTlb c := by
  unfold State.deliverBy
  simp only [State.withTlb_cycle, State.vfOf_withTlb, State.recordBy_withTlb _ c hh, State.withTlb_ite]

theorem State.setDescBy_withTlb (asid off n v : Nat) :
    (s.withTlb c).setDescBy h asid off n v = (s.setDescBy h asid off n v).withTlb c := hh.2 s c _ _

theorem State.setEnabledBy_withTlb (asid : Nat) (on : Bool) :
    (s.withTlb c).setEnabledBy h asid on = (s.setEnabledBy h asid on).withTlb c := by
  unfold State.setEnabledBy
  rw [State.descField_withTlb, State.setDescBy_withTlb s c hh]

theorem State.meetDescBy_withTlb (asid : Nat) : (s.withTlb c).meetDescBy h asid = (s.meetDescBy h asid).withTlb c := by
  unfold State.meetDescBy
  simp only [State.descAt_withTlb, State.hwFault_withTlb, hh.1, ← State.withTlb_ite]
  split
  · exact State.deliverBy_withTlb _ c hh _ _
  · rfl

theorem State.terminateContextBy_withTlb (asid : Nat) :
    (s.withTlb c).terminateContextBy h asid = (s.terminateContextBy h asid).withTlb c := by
  unfold State.terminateContextBy
  simp only [State.meetDescBy_withTlb s c hh, State.setEnabledBy_withTlb _ c hh, State.withTlb_sched,
    foldl_withTlb c (fun s r => s.lowerCounters asid r) _ (fun t r => State.lowerCounters_withTlb t c asid r), State.descField_withTlb,
    State.setDescBy_withTlb _ c hh, State.mapSched_withTlb]
  rfl

theorem State.memoryErrorBy_withTlb (line kind owner die way pieces : Nat) (retired : Option Nat) :
    (s.withTlb c).memoryErrorBy h line kind owner die way pieces retired =
      (s.memoryErrorBy h line kind owner die way pieces retired).withTlb c := by
  unfold State.memoryErrorBy
  simp only [State.vfOf_withTlb, State.blackBox_withTlb, State.withTlb_cycle, State.recordBy_withTlb _ c hh,
    State.withTlb_ite]

theorem State.hbmUncorrectableBy_withTlb (pa : Nat) :
    (s.withTlb c).hbmUncorrectableBy h pa = (s.hbmUncorrectableBy h pa).withTlb c := by
  unfold State.hbmUncorrectableBy
  simp only [State.retire_withTlb, State.memoryErrorBy_withTlb _ c hh, State.fatal_withTlb]
  split <;> rfl

theorem State.meetHbmBy_withTlb (pa : Nat) : (s.withTlb c).meetHbmBy h pa = (s.meetHbmBy h pa).withTlb c := by
  have correct (t : State) (ps : List Nat) : ps.foldl (fun s pos => s.hbmCorrected pa pos) (t.withTlb c) =
      (ps.foldl (fun s pos => s.hbmCorrected pa pos) t).withTlb c :=
    foldl_withTlb c _ ps (fun t p => State.hbmCorrected_withTlb t c pa p) t
  by_cases clean : (!isHbm pa || decide (s.hbmErrors (pa / 32) = 0)) = true
  · rw [State.meetHbmBy_clean s h clean, State.meetHbmBy_clean (s.withTlb c) h clean, State.metHbm_withTlb]
  · have same := State.decodeHbm_withTlb s c pa
    rcases hd : s.decodeHbm pa with ps | _ | ⟨v, ps⟩ <;> rw [hd] at same
    · rw [State.meetHbmBy_corrected s h clean hd, State.meetHbmBy_corrected (s.withTlb c) h clean same,
        State.metHbm_withTlb, correct]
    · rw [State.meetHbmBy_uncorrectable s h clean hd, State.meetHbmBy_uncorrectable (s.withTlb c) h clean same,
        State.metHbm_withTlb, State.hbmUncorrectableBy_withTlb _ c hh]
    · rw [State.meetHbmBy_miscorrected s h clean hd, State.meetHbmBy_miscorrected (s.withTlb c) h clean same,
        State.mistaken_withTlb, correct]

theorem State.fetchSectorBy_withTlb (pa : Nat) : (s.withTlb c).fetchSectorBy h pa = (s.fetchSectorBy h pa).withTlb c := by
  unfold State.fetchSectorBy
  simp only [foldl_withTlb c (fun s p => s.meetHbmBy h p) _ (fun t p => State.meetHbmBy_withTlb t c hh p),
    State.retired_withTlb, State.withTlb_halted, State.withTlb_ite, State.filled_withTlb]
  rfl

theorem State.lostLine_withTlb (l : LlcLine) (pa : Nat) : (s.withTlb c).lostLine h l pa = (s.lostLine h l pa).withTlb c := by
  simp only [State.lostLine, State.memoryErrorBy_withTlb _ c hh, State.vfOf_withTlb, State.fatal_withTlb]

theorem State.withoutWay_withTlb (l : LlcLine) (pa : Nat) :
    (s.withTlb c).withoutWay h l pa = (s.withoutWay h l pa).withTlb c := by
  simp only [State.withoutWay, State.withoutLine_withTlb, State.terminateContextBy_withTlb _ c hh, State.retire_withTlb,
    State.quarantineWay_withTlb, State.memoryErrorBy_withTlb _ c hh]

omit hh in
theorem State.readOut_withTlb {fuel : Nat} (hu : ∀ (s : State) (l : LlcLine) (pa : Nat),
    State.uncorrectableBy h fuel (s.withTlb c) l pa = (State.uncorrectableBy h fuel s l pa).withTlb c) (s : State)
    (x : LlcLine) : State.readOut h fuel (s.withTlb c) x = (State.readOut h fuel s x).withTlb c := by
  have piece (t : State) (p : Nat) :
      State.readOutPiece h fuel x (t.withTlb c) p = (State.readOutPiece h fuel x t p).withTlb c := by
    unfold State.readOutPiece
    simp only [State.withTlb_llc, State.withTlb_halted, State.badPiece_withTlb, State.decodePiece_withTlb, hu]
    split
    · rfl
    · simp only [State.withTlb_ite]
  unfold State.readOut
  rw [foldl_withTlb c _ _ piece, State.dropLine_withTlb]

theorem State.uncorrectableBy_withTlb (fuel : Nat) : ∀ (s : State) (l : LlcLine) (pa : Nat),
    State.uncorrectableBy h fuel (s.withTlb c) l pa = (State.uncorrectableBy h fuel s l pa).withTlb c := by
  induction fuel with
  | zero => exact fun _ _ _ => rfl
  | succ fuel ih =>
    intro s l pa
    by_cases clean : l.dirty.getLsbD (pa / 128 % 2) = false
    · simp only [State.uncorrectableBy_clean _ h fuel clean, State.withoutSector_withTlb,
        State.memoryErrorBy_withTlb _ c hh, State.fetchSectorBy_withTlb _ c hh]
    · by_cases last : s.lastResort l pa
      · rw [State.uncorrectableBy_fatal s h fuel clean last, State.uncorrectableBy_fatal (s.withTlb c) h fuel clean last,
          State.lostLine_withTlb s c hh]
      · rw [State.uncorrectableBy_quarantines s h fuel clean last,
          State.uncorrectableBy_quarantines (s.withTlb c) h fuel clean last, State.withoutWay_withTlb s c hh,
          State.withTlb_llc, foldl_withTlb c _ _ fun t x => State.readOut_withTlb c ih t x]

theorem State.meetPieceBy_withTlb (pa : Nat) : (s.withTlb c).meetPieceBy h pa = (s.meetPieceBy h pa).withTlb c := by
  unfold State.meetPieceBy
  simp only [State.withTlb_llc, State.withTlb_halted, State.holdsSector_withTlb, State.badPiece_withTlb,
    State.decodePiece_withTlb, State.withTlb_upsets, State.uncorrectableBy_withTlb c hh]
  split
  · rfl
  · split
    · rfl
    · split <;> rfl

theorem State.writeBackBy_withTlb (line : Nat) : (s.withTlb c).writeBackBy h line = (s.writeBackBy h line).withTlb c := by
  unfold State.writeBackBy
  simp only [State.withTlb_llc, foldl_withTlb c (fun s p => s.meetPieceBy h p) _ (fun t p => State.meetPieceBy_withTlb t c hh p)]
  split
  · rfl
  · next l hl =>
    by_cases dirty : l.dirty = 0
    · simp only [if_pos dirty]
    · simp only [if_neg dirty]
      generalize (linePieces line l.valid.getLsbD).foldl (fun s p => s.meetPieceBy h p) s = t
      rcases findLine t.memory.llc line with _ | l
      · rfl
      · simp only [State.withTlb_ite]
        rfl

theorem State.makeRoomBy_withTlb (fuel : Nat) : ∀ (s : State) (line : Nat),
    State.makeRoomBy h fuel (s.withTlb c) line = (State.makeRoomBy h fuel s line).withTlb c := by
  induction fuel with
  | zero => exact fun _ _ => rfl
  | succ fuel ih =>
    intro s line
    unfold State.makeRoomBy
    simp only [State.withTlb_halted, State.withTlb_llc, State.setFilled_withTlb, State.setOf_withTlb, State.withTlb_tick,
      State.writeBackBy_withTlb _ c hh, State.dropLine_withTlb, ih]
    split
    · rfl
    · split <;> rfl

theorem State.ensureBy_withTlb (pa : Nat) : (s.withTlb c).ensureBy h pa = (s.ensureBy h pa).withTlb c := by
  unfold State.ensureBy
  simp only [State.holdsSector_withTlb, State.retired_withTlb, State.withTlb_halted, State.makeRoomBy_withTlb c hh,
    State.fetchSectorBy_withTlb _ c hh, State.withTlb_ite]

theorem State.readSectorBy_withTlb (pa n : Nat) : (s.withTlb c).readSectorBy h pa n = (s.readSectorBy h pa n).withTlb c := by
  unfold State.readSectorBy
  simp only [State.holdsSector_withTlb, State.ensureBy_withTlb s c hh, State.withTlb_ite,
    foldl_withTlb c (fun s i => s.meetPieceBy h (pa / 32 * 32 + 32 * i)) _ fun t i => State.meetPieceBy_withTlb t c hh _]

theorem State.meetRangeBy_withTlb (pa n : Nat) : (s.withTlb c).meetRangeBy h pa n = (s.meetRangeBy h pa n).withTlb c :=
  foldl_withTlb c _ _ (fun t p => State.readSectorBy_withTlb t c hh p.2.1 p.2.2) s

theorem State.settleBy_withTlb (asid pa : Nat) : (s.withTlb c).settleBy h asid pa = (s.settleBy h asid pa).withTlb c := by
  unfold State.settleBy
  simp only [State.ensureBy_withTlb _ c hh, State.withTlb_llc, State.writeBackBy_withTlb _ c hh]
  split
  · split <;> rfl
  · rfl

theorem State.writeSectorBy_withTlb (asid pa : Nat) (bs : List Byte) :
    (s.withTlb c).writeSectorBy h asid pa bs = (s.writeSectorBy h asid pa bs).withTlb c := by
  unfold State.writeSectorBy
  simp only [State.retired_withTlb, State.withTlb_halted, State.settleBy_withTlb s c hh, State.withTlb_llc]
  split
  · rfl
  · split
    · rfl
    · split
      · split <;> rfl
      · rfl

theorem State.llcPutBy_withTlb (asid pa : Nat) (bs : List Byte) :
    (s.withTlb c).llcPutBy h asid pa bs = (s.llcPutBy h asid pa bs).withTlb c :=
  foldl_withTlb c _ _ (fun t p => State.writeSectorBy_withTlb t c hh asid p.2.1 _) s

end

theorem hardwareAt_sparesTlb (n : Nat) : (hardwareAt n).SparesTlb := by
  induction n with
  | zero => exact ⟨fun _ _ _ _ => rfl, fun _ _ _ _ => rfl⟩
  | succ n ih =>
    refine ⟨fun s c pa k => State.meetRangeBy_withTlb s c ih pa k, fun s c pa bs => ?_⟩
    simp only [hardwareAt, State.hwFault_withTlb, State.llcPutBy_withTlb s c ih, State.withTlb_ite]

@[simp] theorem State.readSector_withTlb (pa n : Nat) : (s.withTlb c).readSector pa n = (s.readSector pa n).withTlb c :=
  State.readSectorBy_withTlb s c (hardwareAt_sparesTlb _) pa n

theorem State.readEntry_withTlb (f : FaultInfo) (pa : Nat) : (s.withTlb c).readEntry f pa = s.readEntry f pa := by
  unfold State.readEntry
  simp only [State.hwFault_withTlb, State.readSector_withTlb, State.retired_withTlb, State.withTlb_halted, State.physNat_withTlb]

theorem stage2_withTlb (v ipa : Nat) (n : Option Need) : stage2 (s.withTlb c) v ipa n = stage2 s v ipa n := by
  have e (f : FaultInfo) : (s.withTlb c).readEntry f = s.readEntry f := funext (State.readEntry_withTlb s c f)
  unfold stage2
  simp only [State.withTlb_host, e]

theorem State.readStage1_withTlb (v va ipa : Nat) : (s.withTlb c).readStage1 v va ipa = s.readStage1 v va ipa := by
  unfold State.readStage1
  simp only [stage2_withTlb, State.readEntry_withTlb]

theorem walkBoth_withTlb (asid va : Nat) (n : Option Need) : walkBoth (s.withTlb c) asid va n = walkBoth s asid va n := by
  have e (v : Nat) : (s.withTlb c).readStage1 v va = s.readStage1 v va := funext (State.readStage1_withTlb s c v va)
  unfold walkBoth
  simp only [State.withTlb_host, State.vfOf_withTlb, e, stage2_withTlb]

theorem State.meetEntries_withTlb (l : List Nat) : (s.withTlb c).meetEntries l = (s.meetEntries l).withTlb c := by
  refine foldl_withTlb c _ l (fun t pa => ?_) s
  simp only [State.retired_withTlb, State.readSector_withTlb, State.withTlb_ite]

theorem State.meetWalk_withTlb (asid va : Nat) : (s.withTlb c).meetWalk asid va = (s.meetWalk asid va).withTlb c := by
  unfold State.meetWalk State.entriesRead
  rw [walkBoth_withTlb, State.meetEntries_withTlb]

end Sys2Proof.Machine
end
section
/-! SUPPORT. What the accesses of the hardware leave: the elements, and of an activation its entry in the scheduler's queue, also where
the loss of a dirty line stops the activations of a context (24 R376). -/
namespace Sys2Proof.Machine

/-- The queue entry of the activation of a colour, and the elements. -/
def State.spared (s : State) (k : Nat) : Option Entry × Tab Element := ((s.activation k).map (·.entry), s.elements)

variable (s : State) (k : Nat)

theorem foldl_spared {α : Type} (f : State → α → State) (l : List α) (hf : ∀ s a, (f s a).spared k = s.spared k) :
    ∀ s : State, (l.foldl f s).spared k = s.spared k := by
  induction l with
  | nil => exact fun _ => rfl
  | cons a l ih => exact fun s => (ih _).trans (hf s a)

/-- A change of each activation that leaves its entry leaves the entries. -/
theorem Tab.find_map_entry (f : Nat × Activation → Nat × Activation) (hf : ∀ p, (f p).1 = p.1 ∧ (f p).2.entry = p.2.entry)
    (t : Tab Activation) : (Tab.find (t.map f) k).map (·.entry) = (t.find k).map (·.entry) := by
  induction t with
  | nil => rfl
  | cons p t ih =>
    obtain ⟨key, entry⟩ := hf p
    rw [List.map_cons, Tab.find, Tab.find, key, apply_ite (Option.map _), apply_ite (Option.map _), ih, Option.map_some,
      Option.map_some, entry]

theorem State.blackBox_spared (kind : Nat) (fs : List (Nat × Nat × Nat)) : (s.blackBox kind fs).spared k = s.spared k := by
  unfold State.blackBox
  split <;> rfl

theorem State.fatal_spared (cause : Nat) (fs : List (Nat × Nat × Nat)) : (s.fatal cause fs).spared k = s.spared k :=
  State.blackBox_spared s k _ _

theorem State.lowerCounters_spared (asid : Nat) (r : BitVec 512) : (s.lowerCounters asid r).spared k = s.spared k := by
  unfold State.lowerCounters
  refine foldl_spared k _ _ (fun t r => ?_) s
  rfl

theorem State.retire_spared (pa : Nat) : (s.retire pa).1.spared k = s.spared k := by
  unfold State.retire
  split
  · rfl
  · split <;> rfl

theorem State.enterErasure_spared (reg lo pos : Nat) : (s.enterErasure reg lo pos).spared k = s.spared k :=
  State.blackBox_spared _ k _ _

theorem State.hbmCorrected_spared (pa pos : Nat) : (s.hbmCorrected pa pos).spared k = s.spared k := by
  unfold State.hbmCorrected
  dsimp only
  split
  · rfl
  · split
    · exact State.enterErasure_spared _ k _ _ _
    · split
      · exact State.enterErasure_spared _ k _ _ _
      · rfl

theorem State.decodePiece_spared (pa : Nat) : (s.decodePiece pa).spared k = s.spared k := by
  unfold State.decodePiece
  dsimp only
  split <;> split <;> rfl

theorem State.dropLine_spared (line : Nat) : (s.dropLine line).spared k = s.spared k := by
  unfold State.dropLine
  split <;> rfl

theorem State.quarantineWay_spared (die group way : Nat) : (s.quarantineWay die group way).spared k = s.spared k := by
  unfold State.quarantineWay
  refine foldl_spared k _ _ (fun t l => ?_) _
  dsimp only
  generalize (if l.dirty = 0 then [] else linePieces l.line l.valid.getLsbD) = ps
  split
  · rfl
  · exact (State.dropLine_spared _ k _).trans (foldl_spared k _ _ (fun t p => State.decodePiece_spared t k p) t)

/-- The hardware's own accesses leave the elements and the entries of activations. -/
def Hardware.SparesRegions (h : Hardware) : Prop :=
  (∀ (s : State) (k pa n : Nat), (h.read s pa n).spared k = s.spared k) ∧
  ∀ (s : State) (k pa : Nat) (bs : List Byte), (h.write s pa bs).spared k = s.spared k

section
variable {h : Hardware} (hh : h.SparesRegions)
include hh

theorem State.enqueueBy_spared (q r : Nat) : (s.enqueueBy h q r).1.spared k = s.spared k := by
  unfold State.enqueueBy
  dsimp only
  split
  · rfl
  · split
    · rfl
    · exact hh.2 _ k _ _

theorem State.recordBy_spared (q r : Nat) : (s.recordBy h q r).spared k = s.spared k := by
  have first := State.enqueueBy_spared s k hh q r
  unfold State.recordBy
  rcases he : s.enqueueBy h q r with ⟨t, _ | f⟩ <;> rw [he] at first
  · exact first
  · dsimp only
    split
    · exact first
    · exact (State.enqueueBy_spared t k hh _ _).trans first

theorem State.deliverBy_spared (f : FaultSite) (i : FaultInfo) : (s.deliverBy h f i).spared k = s.spared k := by
  unfold State.deliverBy
  dsimp only
  split
  · exact (State.recordBy_spared _ k hh _ _).trans (State.recordBy_spared s k hh _ _)
  · exact State.recordBy_spared s k hh _ _

theorem State.meetDescBy_spared (asid : Nat) : (s.meetDescBy h asid).spared k = s.spared k := by
  have read : (if (s.hwFault (s.descAt asid)).isSome then s else h.read s (s.descAt asid) 64).spared k = s.spared k := by
    split
    · rfl
    · exact hh.1 s k _ _
  unfold State.meetDescBy
  dsimp only
  split
  · exact (State.deliverBy_spared _ k hh _ _).trans read
  · exact read

theorem State.terminateContextBy_spared (asid : Nat) : (s.terminateContextBy h asid).spared k = s.spared k := by
  unfold State.terminateContextBy
  have stopped (u : State) (f : Nat × Activation → Nat × Activation) (hf : ∀ p, (f p).1 = p.1 ∧ (f p).2.entry = p.2.entry) :
      { u with activations := u.activations.map f }.spared k = u.spared k :=
    Prod.ext (Tab.find_map_entry k f hf u.activations) rfl
  refine (stopped _ _ fun p => ?_).trans ?_
  · dsimp only
    split <;> exact ⟨rfl, rfl⟩
  · refine (hh.2 _ k _ _).trans ?_
    rw [foldl_spared k _ _ fun t r => State.lowerCounters_spared t k asid r]
    exact (hh.2 _ k _ _).trans (State.meetDescBy_spared s k hh asid)

theorem State.memoryErrorBy_spared (line kind owner die way pieces : Nat) (retired : Option Nat) :
    (s.memoryErrorBy h line kind owner die way pieces retired).spared k = s.spared k := by
  have both (t : State) (r q : Nat) :
      (if q ≠ 0 then (t.recordBy h 0 r).recordBy h q r else t.recordBy h 0 r).spared k = t.spared k := by
    split
    · rw [State.recordBy_spared _ k hh, State.recordBy_spared _ k hh]
    · rw [State.recordBy_spared _ k hh]
  unfold State.memoryErrorBy
  exact (both _ _ _).trans (State.blackBox_spared s k _ _)

theorem State.hbmUncorrectableBy_spared (pa : Nat) : (s.hbmUncorrectableBy h pa).spared k = s.spared k := by
  unfold State.hbmUncorrectableBy
  dsimp only
  split
  · exact (State.memoryErrorBy_spared _ k hh _ _ _ _ _ _ _).trans (State.retire_spared s k pa)
  · exact (State.fatal_spared _ k _ _).trans (State.memoryErrorBy_spared s k hh _ _ _ _ _ _ _)

theorem State.meetHbmBy_spared (pa : Nat) : (s.meetHbmBy h pa).spared k = s.spared k := by
  have correct (t : State) (ps : List Nat) : (ps.foldl (fun s pos => s.hbmCorrected pa pos) t).spared k = t.spared k :=
    foldl_spared k _ ps (fun t p => State.hbmCorrected_spared t k pa p) t
  by_cases clean : (!isHbm pa || decide (s.hbmErrors (pa / 32) = 0)) = true
  · rw [State.meetHbmBy_clean s h clean]
    rfl
  · rcases hd : s.decodeHbm pa with ps | _ | ⟨v, ps⟩
    · rw [State.meetHbmBy_corrected s h clean hd, correct]
      rfl
    · rw [State.meetHbmBy_uncorrectable s h clean hd, State.hbmUncorrectableBy_spared _ k hh]
      rfl
    · rw [State.meetHbmBy_miscorrected s h clean hd, correct]
      rfl

theorem State.fetchSectorBy_spared (pa : Nat) : (s.fetchSectorBy h pa).spared k = s.spared k := by
  have meets := foldl_spared k _ (sectorPieceAddrs pa) (fun t p => State.meetHbmBy_spared t k hh p) s
  unfold State.fetchSectorBy
  dsimp only
  split <;> exact meets

omit hh in
theorem State.readOut_spared {fuel : Nat} (hu : ∀ (s : State) (l : LlcLine) (pa : Nat),
    (State.uncorrectableBy h fuel s l pa).spared k = s.spared k) (s : State) (x : LlcLine) :
    (State.readOut h fuel s x).spared k = s.spared k := by
  refine (State.dropLine_spared _ k _).trans (foldl_spared k _ _ (fun t p => ?_) s)
  unfold State.readOutPiece
  split
  · rfl
  · split
    · rfl
    · split
      · exact (hu _ _ _).trans (State.decodePiece_spared t k p)
      · exact State.decodePiece_spared t k p

theorem State.uncorrectableBy_spared (fuel : Nat) : ∀ (s : State) (l : LlcLine) (pa : Nat),
    (State.uncorrectableBy h fuel s l pa).spared k = s.spared k := by
  induction fuel with
  | zero => exact fun _ _ _ => rfl
  | succ fuel ih =>
    intro s l pa
    by_cases clean : l.dirty.getLsbD (pa / 128 % 2) = false
    · rw [State.uncorrectableBy_clean s h fuel clean, State.fetchSectorBy_spared _ k hh, State.memoryErrorBy_spared _ k hh]
      rfl
    · by_cases last : s.lastResort l pa
      · rw [State.uncorrectableBy_fatal s h fuel clean last]
        exact (State.fatal_spared _ k _ _).trans (State.memoryErrorBy_spared s k hh _ _ _ _ _ _ _)
      · rw [State.uncorrectableBy_quarantines s h fuel clean last, foldl_spared k _ _ (State.readOut_spared k ih),
          State.withoutWay, State.memoryErrorBy_spared _ k hh, State.quarantineWay_spared, State.retire_spared,
          State.terminateContextBy_spared _ k hh]
        rfl

theorem State.meetPieceBy_spared (pa : Nat) : (s.meetPieceBy h pa).spared k = s.spared k := by
  unfold State.meetPieceBy
  split
  · rfl
  · split
    · rfl
    · dsimp only
      split
      · exact (State.uncorrectableBy_spared k hh _ _ _ _).trans (State.decodePiece_spared s k pa)
      · exact State.decodePiece_spared s k pa

theorem State.writeBackBy_spared (line : Nat) : (s.writeBackBy h line).spared k = s.spared k := by
  unfold State.writeBackBy
  split
  · rfl
  · next l _ =>
    have meets := foldl_spared k _ (linePieces line l.valid.getLsbD) (fun t p => State.meetPieceBy_spared t k hh p) s
    split
    · rfl
    · dsimp only
      split
      · exact meets
      · split <;> exact meets

theorem State.makeRoomBy_spared (fuel : Nat) : ∀ (s : State) (line : Nat),
    (State.makeRoomBy h fuel s line).spared k = s.spared k := by
  induction fuel with
  | zero => exact fun _ _ => rfl
  | succ fuel ih =>
    intro s line
    unfold State.makeRoomBy
    split
    · rfl
    · dsimp only
      split
      · rfl
      · exact (ih _ _).trans ((State.dropLine_spared _ k _).trans (State.writeBackBy_spared s k hh _))

theorem State.ensureBy_spared (pa : Nat) : (s.ensureBy h pa).spared k = s.spared k := by
  have room := State.makeRoomBy_spared k hh 17 s (pa / 256)
  unfold State.ensureBy
  split
  · rfl
  · dsimp only
    split
    · exact room
    · exact (State.fetchSectorBy_spared _ k hh pa).trans room

theorem State.readSectorBy_spared (pa n : Nat) : (s.readSectorBy h pa n).spared k = s.spared k := by
  unfold State.readSectorBy
  split
  · rfl
  · split
    · exact foldl_spared k _ _ (fun t i => State.meetPieceBy_spared t k hh _) s
    · exact State.ensureBy_spared s k hh pa

theorem State.meetRangeBy_spared (pa n : Nat) : (s.meetRangeBy h pa n).spared k = s.spared k :=
  foldl_spared k _ (sectorPieces pa n) (fun t p => State.readSectorBy_spared t k hh p.2.1 p.2.2) s

theorem State.settleBy_spared (asid pa : Nat) : (s.settleBy h asid pa).spared k = s.spared k := by
  have first := State.ensureBy_spared s k hh pa
  unfold State.settleBy
  dsimp only
  split
  · split
    · exact (State.ensureBy_spared _ k hh pa).trans ((State.writeBackBy_spared _ k hh _).trans first)
    · exact first
  · exact first

theorem State.writeSectorBy_spared (asid pa : Nat) (bs : List Byte) : (s.writeSectorBy h asid pa bs).spared k = s.spared k := by
  have settled := State.settleBy_spared s k hh asid pa
  unfold State.writeSectorBy
  split
  · rfl
  · split
    · rfl
    · dsimp only
      split
      · split <;> exact settled
      · exact settled

theorem State.llcPutBy_spared (asid pa : Nat) (bs : List Byte) : (s.llcPutBy h asid pa bs).spared k = s.spared k :=
  foldl_spared k _ _ (fun t _ => State.writeSectorBy_spared t k hh asid _ _) s

end

theorem hardwareAt_sparesRegions (n : Nat) : (hardwareAt n).SparesRegions := by
  induction n with
  | zero => exact ⟨fun _ _ _ _ => rfl, fun _ _ _ _ => rfl⟩
  | succ n ih =>
    refine ⟨fun s k pa m => State.meetRangeBy_spared s k ih pa m, fun s k pa bs => ?_⟩
    simp only [hardwareAt]
    split
    · rfl
    · exact State.llcPutBy_spared s k ih 0 pa bs

theorem State.meetEntries_spared (l : List Nat) : (s.meetEntries l).spared k = s.spared k := by
  refine foldl_spared k _ l (fun t pa => ?_) s
  split
  · rfl
  · exact State.readSectorBy_spared t k (hardwareAt_sparesRegions _) pa 8

theorem State.meetWalk_spared (asid va : Nat) : (s.meetWalk asid va).spared k = s.spared k :=
  State.meetEntries_spared s k _

end Sys2Proof.Machine
end
section
/-! SUPPORT. The bytes of fields, of lines of the LLC and of memory, where one is made from the other (15 R242). -/
namespace Sys2Proof.Machine

/-! ## Bits and bytes -/

/-- A field set in a number: what lies below it, the field, and what lies above. -/
theorem setField_eq (v lo w x : Nat) :
    setField v lo w x = 2 ^ lo * (2 ^ w * (v / 2 ^ lo / 2 ^ w) + x % 2 ^ w) + v % 2 ^ lo := by
  have parts : v = 2 ^ lo * (2 ^ w * (v / 2 ^ lo / 2 ^ w) + v / 2 ^ lo % 2 ^ w) + v % 2 ^ lo := by
    rw [Nat.div_add_mod, Nat.div_add_mod]
  unfold setField
  rw [Nat.mul_add, Nat.mul_comm (2 ^ lo) (x % 2 ^ w)]
  rw [Nat.mul_add, Nat.mul_comm (2 ^ lo) (v / 2 ^ lo % 2 ^ w)] at parts
  omega

theorem testBit_setField (v lo w x i : Nat) :
    (setField v lo w x).testBit i = if lo ≤ i ∧ i < lo + w then x.testBit (i - lo) else v.testBit i := by
  rw [setField_eq, Nat.testBit_two_pow_mul_add _ (Nat.mod_lt _ (Nat.two_pow_pos lo)),
    Nat.testBit_two_pow_mul_add _ (Nat.mod_lt _ (Nat.two_pow_pos w)), Nat.testBit_mod_two_pow, Nat.testBit_mod_two_pow,
    Nat.testBit_div_two_pow, Nat.testBit_div_two_pow]
  by_cases below : i < lo
  · simp [below, below.not_ge]
  · by_cases inside : i - lo < w
    · simp [below, inside, show lo ≤ i ∧ i < lo + w by omega]
    · simp [below, inside, show ¬(i < lo + w) by omega, show i - lo - w + w + lo = i by omega]

theorem getLsbD_vecByte (v : Vec) (i : Nat) {b : Nat} (hb : b < 8) : (vecByte v i).getLsbD b = v.getLsbD (8 * i + b) := by
  simp [vecByte, hb]

theorem leBytes_length (n v : Nat) : (leBytes n v).length = n := by
  induction n generalizing v with
  | zero => rfl
  | succ n ih => rw [leBytes, List.length_cons, ih]

theorem getLsbD_leBytes {n j : Nat} (h : j < n) (v : Nat) {b : Nat} (hb : b < 8) :
    ((leBytes n v).getD j 0).getLsbD b = v.testBit (8 * j + b) := by
  induction n generalizing v j with
  | zero => omega
  | succ n ih =>
    rw [leBytes]
    cases j with
    | zero => rw [List.getD_cons_zero, BitVec.getLsbD_ofNat, Nat.mul_zero, Nat.zero_add, decide_eq_true hb, Bool.true_and]
    | succ j =>
      rw [List.getD_cons_succ, ih (by omega), show 256 = 2 ^ 8 from rfl, Nat.testBit_div_two_pow]
      congr 1
      omega

theorem testBit_readNat (m : Mem) (a : Nat) {n j : Nat} (h : j < n) {b : Nat} (hb : b < 8) :
    (m.readNat a n).testBit (8 * j + b) = (m.read (a + j)).getLsbD b := by
  induction n generalizing a j with
  | zero => omega
  | succ n ih =>
    have low : (m.read a).toNat < 2 ^ 8 := (m.read a).isLt
    rw [Mem.readNat, Nat.add_comm, show 256 = 2 ^ 8 from rfl, Nat.testBit_two_pow_mul_add _ low]
    cases j with
    | zero =>
      rw [if_pos (by omega), Nat.mul_zero, Nat.zero_add]
      rfl
    | succ j =>
      rw [if_neg (by omega), show 8 * (j + 1) + b - 8 = 8 * j + b by omega, ih (a + 1) (by omega)]
      congr 2
      omega

/-! ## The sectors of a line -/

/-- Bytes of half a line are written to memory as the line holds them. -/
theorem leBytes_half (data : Vec) {q : Nat} :
    (leBytes 128 (data.toNat / 2 ^ (1024 * (q / 128 % 2)))).getD (q % 128) 0 = vecByte data (q % 256) := by
  refine BitVec.eq_of_getLsbD_eq fun b hb => ?_
  rw [getLsbD_leBytes (Nat.mod_lt q (by decide)) _ hb, getLsbD_vecByte _ _ hb, Nat.testBit_div_two_pow, BitVec.getLsbD]
  congr 1
  omega

/-- Half a line filled from memory holds what memory holds, and the other half what it held. -/
theorem vecByte_fill (data : Vec) (m : Mem) (pa : Nat) {q : Nat} (h : q / 256 = pa / 256) :
    vecByte (BitVec.ofNat 2048 (setField data.toNat (1024 * (pa / 128 % 2)) 1024 (m.readNat (pa / 128 * 128) 128))) (q % 256) =
      if q / 128 % 2 = pa / 128 % 2 then m.read q else vecByte data (q % 256) := by
  refine BitVec.eq_of_getLsbD_eq fun b hb => ?_
  rw [getLsbD_vecByte _ _ hb, BitVec.getLsbD_ofNat, testBit_setField]
  by_cases same : q / 128 % 2 = pa / 128 % 2
  · rw [if_pos same, if_pos (by omega), show 8 * (q % 256) + b - 1024 * (pa / 128 % 2) = 8 * (q % 128) + b by omega,
      testBit_readNat _ _ (Nat.mod_lt q (by decide)) hb, show pa / 128 * 128 + q % 128 = q by omega]
    simp [show 8 * (q % 256) + b < 2048 by omega]
  · rw [if_neg same, if_neg (by omega), getLsbD_vecByte _ _ hb, BitVec.getLsbD]
    simp [show 8 * (q % 256) + b < 2048 by omega]

/-- Memory with a sector of a line written back, if it is dirty. -/
def writeBackSector (l : LlcLine) (m : Mem) (k : Nat) : Mem :=
  if l.dirty.getLsbD k && l.valid.getLsbD k then
    m.writeBytes (l.line * 256 + 128 * k) (leBytes 128 (l.data.toNat / 2 ^ (1024 * k)))
  else m

theorem writeBackLine_eq (m : Mem) (l : LlcLine) :
    writeBackLine m l = writeBackSector l (writeBackSector l m 0) 1 := rfl

theorem writeBackSector_wf {m : Mem} (hm : m.wf = true) (l : LlcLine) (k : Nat) : (writeBackSector l m k).wf = true := by
  unfold writeBackSector
  split
  · exact Mem.writeBytes_wf hm _ _
  · exact hm

theorem read_writeBackSector {m : Mem} (hm : m.wf = true) (l : LlcLine) {k : Nat} (hk : k < 2) (q : Nat) :
    (writeBackSector l m k).read q =
      if q / 256 = l.line ∧ q / 128 % 2 = k ∧ l.dirty.getLsbD k = true ∧ l.valid.getLsbD k = true then
        vecByte l.data (q % 256)
      else m.read q := by
  unfold writeBackSector
  by_cases dirty : l.dirty.getLsbD k = true ∧ l.valid.getLsbD k = true
  · rw [if_pos (by simpa using dirty), Mem.read_writeBytes m hm, leBytes_length]
    by_cases inside : q / 256 = l.line ∧ q / 128 % 2 = k
    · obtain ⟨hline, rfl⟩ := inside
      rw [if_pos (by omega), if_pos ⟨hline, rfl, dirty⟩,
        show q - (l.line * 256 + 128 * (q / 128 % 2)) = q % 128 by omega, leBytes_half]
    · rw [if_neg (by omega), if_neg fun h => inside ⟨h.1, h.2.1⟩]
  · rw [if_neg (by simpa using dirty), if_neg fun h => dirty h.2.2]

/-- Memory behind the write-back of a line. -/
theorem read_writeBackLine {m : Mem} (hm : m.wf = true) (l : LlcLine) (q : Nat) :
    (writeBackLine m l).read q =
      if q / 256 = l.line ∧ l.dirty.getLsbD (q / 128 % 2) = true ∧ l.valid.getLsbD (q / 128 % 2) = true then
        vecByte l.data (q % 256)
      else m.read q := by
  rw [writeBackLine_eq, read_writeBackSector (writeBackSector_wf hm l 0) l (by decide),
    read_writeBackSector hm l (by decide)]
  rcases Nat.mod_two_eq_zero_or_one (q / 128) with sector | sector <;> simp [sector]

/-! ## Lines by their number -/

theorem line_of_findLine {ls : List LlcLine} {n : Nat} {l : LlcLine} (h : findLine ls n = some l) : l.line = n := by
  simpa using List.find?_some h

theorem findLine_filter (ls : List LlcLine) (line n : Nat) :
    findLine (ls.filter fun x => x.line ≠ line) n = if n = line then none else findLine ls n := by
  unfold findLine
  rw [List.find?_filter]
  split
  · next h =>
    refine List.find?_eq_none.mpr fun x _ => ?_
    simp [h]
  · next h =>
    congr 1
    funext x
    grind

theorem findLine_putLine (ls : List LlcLine) (l : LlcLine) (n : Nat) :
    findLine (putLine ls l) n = if n = l.line then some l else findLine ls n := by
  have others := findLine_filter ls l.line n
  unfold putLine findLine at *
  rw [List.find?_cons, others]
  by_cases h : n = l.line
  · simp [h]
  · simp [h, Ne.symm h]

end Sys2Proof.Machine
end
section
/-! SUPPORT. Where no physical error is pending and none has changed a clean sector, a read through the LLC only fills and writes back
lines, and every byte reads as before (15 R242; 24 R373, R375; 26 R406). -/
namespace Sys2Proof.Machine

/-- No physical error is pending, none has changed a clean sector, and memory is in its form. -/
structure State.Undisturbed (s : State) : Prop where
  quiet : s.upsets = []
  unarmed : s.host.llcinj.getLsbD 63 = false
  form : s.memory.mem.wf = true
  agrees : s.cleanAgrees

/-- From an undisturbed state, only memory and the lines of the LLC have changed, no byte reads differently, and nothing is
disturbed. -/
structure State.Refilled (s t : State) : Prop where
  undisturbed : t.Undisturbed
  only : t = { s with memory := { s.memory with mem := t.memory.mem, llc := t.memory.llc } }
  bytes : ∀ pa, t.physByte pa = s.physByte pa

variable {s t u : State}

theorem State.Undisturbed.refl (hs : s.Undisturbed) : s.Refilled s := ⟨hs, rfl, fun _ => rfl⟩

theorem State.Refilled.trans (h : s.Refilled t) (h' : t.Refilled u) : s.Refilled u where
  undisturbed := h'.undisturbed
  only := by
    have first := h.only
    have second := h'.only
    rw [first] at second
    exact second
  bytes pa := (h'.bytes pa).trans (h.bytes pa)

/-- Steps that refill, one after another. -/
theorem State.Undisturbed.foldl {α : Type} (f : State → α → State) (hf : ∀ (s : State) (a : α), s.Undisturbed → s.Refilled (f s a))
    (l : List α) : ∀ s : State, s.Undisturbed → s.Refilled (l.foldl f s) := by
  induction l with
  | nil => exact fun s hs => hs.refl
  | cons a l ih => exact fun s hs => (hf s a hs).trans (ih _ (hf s a hs).undisturbed)

/-- The state with other memory and lines. -/
def State.withLines (s : State) (mem : Mem) (llc : List LlcLine) : State :=
  { s with memory := { s.memory with mem := mem, llc := llc } }

theorem State.Undisturbed.withLines (hs : s.Undisturbed) {mem : Mem} {llc : List LlcLine} (form : mem.wf = true)
    (agrees : (s.withLines mem llc).cleanAgrees) (bytes : ∀ pa, (s.withLines mem llc).physByte pa = s.physByte pa) :
    s.Refilled (s.withLines mem llc) :=
  ⟨⟨hs.quiet, hs.unarmed, form, agrees⟩, rfl, bytes⟩

/-! ## What the decoders find: nothing -/

theorem State.Undisturbed.decodeLlc (hs : s.Undisturbed) (piece : Nat) : s.decodeLlc piece = .corrected [] := by
  unfold State.decodeLlc
  rw [hs.quiet, List.foldl_nil]
  exact if_pos rfl

theorem State.Undisturbed.armedAt (hs : s.Undisturbed) (piece : Nat) : s.armedAt piece = false := by
  have bit := hs.unarmed
  rw [BitVec.getLsbD, Nat.testBit_eq_decide_div_mod_eq, decide_eq_false_iff_not] at bit
  have off : ¬s.host.llcinj.toNat / 2 ^ 63 = 1 := fun h => bit (by rw [h])
  rw [State.armedAt, decide_eq_false off, Bool.false_and]

theorem State.Undisturbed.badPiece (hs : s.Undisturbed) (piece : Nat) : s.badPiece piece = false := by
  simp [State.badPiece, hs.armedAt, hs.decodeLlc]

theorem State.Undisturbed.upsets_filter (hs : s.Undisturbed) (p : Upset → Bool) :
    { s with upsets := s.upsets.filter p } = s := by
  rw [hs.quiet, List.filter_nil, ← hs.quiet]

theorem State.Undisturbed.decodePiece (hs : s.Undisturbed) (pa : Nat) : s.decodePiece pa = s := by
  unfold State.decodePiece
  simp only [hs.decodeLlc, hs.armedAt, Bool.false_eq_true, if_false]
  exact hs.upsets_filter _

theorem State.Undisturbed.meetPieceBy (hs : s.Undisturbed) (h : Hardware) (pa : Nat) : s.meetPieceBy h pa = s := by
  unfold State.meetPieceBy
  simp only [hs.badPiece, hs.decodePiece]
  split
  · rfl
  · split <;> rfl

theorem State.Undisturbed.meetPieces (hs : s.Undisturbed) (h : Hardware) (ps : List Nat) :
    ps.foldl (fun s p => s.meetPieceBy h p) s = s := by
  induction ps with
  | nil => rfl
  | cons p ps ih => rw [List.foldl_cons, hs.meetPieceBy, ih]

theorem State.Undisturbed.meetHbmBy (hs : s.Undisturbed) (h : Hardware) (pa : Nat) : s.meetHbmBy h pa = s := by
  have none : s.hbmErrors (pa / 32) = 0 := by
    unfold State.hbmErrors
    rw [hs.quiet]
    rfl
  rw [State.meetHbmBy_clean s h (by simp [none])]
  exact hs.upsets_filter _

/-! ## Lines that come and go -/

theorem State.physByte_of_line {l : LlcLine} {pa : Nat} (h : findLine s.memory.llc (pa / 256) = some l) :
    s.physByte pa = if l.valid.getLsbD (pa / 128 % 2) = true then vecByte l.data (pa % 256) else s.memory.mem.read pa := by
  unfold State.physByte
  rw [h]

theorem State.physByte_of_none {pa : Nat} (h : findLine s.memory.llc (pa / 256) = none) :
    s.physByte pa = s.memory.mem.read pa := by
  unfold State.physByte
  rw [h]

/-- A byte in a line that both states hold alike, and in memory, reads alike. -/
theorem State.physByte_congr {pa : Nat} (hl : findLine t.memory.llc (pa / 256) = findLine s.memory.llc (pa / 256))
    (hm : t.memory.mem.read pa = s.memory.mem.read pa) : t.physByte pa = s.physByte pa := by
  unfold State.physByte
  rw [hl, hm]

/-- A line written back is clean. -/
theorem State.Undisturbed.writesBack (hs : s.Undisturbed) {line : Nat} {l : LlcLine} (hl : findLine s.memory.llc line = some l) :
    s.Refilled (s.withLines (writeBackLine s.memory.mem l) (putLine s.memory.llc { l with dirty := 0 })) := by
  obtain rfl := line_of_findLine hl
  have reads := read_writeBackLine hs.form l
  have lines := findLine_putLine s.memory.llc { l with dirty := 0 }
  refine hs.withLines (writeBackLine_wf hs.form l) (fun pa m hm valid clean => ?_) fun pa => ?_
  · refine Eq.trans ?_ (reads pa).symm
    replace hm := (lines (pa / 256)).symm.trans hm
    by_cases here : pa / 256 = l.line
    · rw [if_pos here, Option.some.injEq] at hm
      subst hm
      by_cases dirty : l.dirty.getLsbD (pa / 128 % 2) = true
      · rw [if_pos ⟨here, dirty, valid⟩]
      · rw [if_neg fun h => dirty h.2.1]
        exact hs.agrees pa l (here ▸ hl) valid (Bool.eq_false_iff.mpr dirty)
    · rw [if_neg here] at hm
      rw [if_neg fun h => here h.1]
      exact hs.agrees pa m hm valid clean
  · by_cases here : pa / 256 = l.line
    · rw [State.physByte_of_line ((lines _).trans (if_pos here)), State.physByte_of_line (here ▸ hl)]
      by_cases valid : l.valid.getLsbD (pa / 128 % 2) = true
      · rw [if_pos valid, if_pos valid]
      · rw [if_neg valid, if_neg valid]
        exact (reads pa).trans (if_neg fun h => valid h.2.2)
    · exact State.physByte_congr ((lines _).trans (if_neg here)) ((reads pa).trans (if_neg fun h => here h.1))

theorem State.dropLine_of_line {l : LlcLine} {line : Nat} (hl : findLine s.memory.llc line = some l) :
    s.dropLine line = s.withLines (writeBackLine s.memory.mem l) (s.memory.llc.filter fun x => x.line ≠ line) := by
  unfold State.dropLine
  rw [hl]
  rfl

/-- A line is written back and dropped. -/
theorem State.Undisturbed.dropLine (hs : s.Undisturbed) (line : Nat) : s.Refilled (s.dropLine line) := by
  rcases hl : findLine s.memory.llc line with _ | l
  · have same : s.dropLine line = s := by
      unfold State.dropLine
      rw [hl]
    rw [same]
    exact hs.refl
  · rw [State.dropLine_of_line hl]
    obtain rfl := line_of_findLine hl
    have reads := read_writeBackLine hs.form l
    have lines := findLine_filter s.memory.llc l.line
    refine hs.withLines (writeBackLine_wf hs.form l) (fun pa m hm valid clean => ?_) fun pa => ?_
    · refine Eq.trans ?_ (reads pa).symm
      replace hm := (lines (pa / 256)).symm.trans hm
      by_cases here : pa / 256 = l.line
      · rw [if_pos here] at hm
        cases hm
      · rw [if_neg here] at hm
        rw [if_neg fun h => here h.1]
        exact hs.agrees pa m hm valid clean
    · by_cases here : pa / 256 = l.line
      · rw [State.physByte_of_none ((lines _).trans (if_pos here)), State.physByte_of_line (here ▸ hl)]
        refine (reads pa).trans ?_
        by_cases valid : l.valid.getLsbD (pa / 128 % 2) = true
        · rw [if_pos valid]
          by_cases dirty : l.dirty.getLsbD (pa / 128 % 2) = true
          · rw [if_pos ⟨here, dirty, valid⟩]
          · rw [if_neg fun h => dirty h.2.1]
            exact (hs.agrees pa l (here ▸ hl) valid (Bool.eq_false_iff.mpr dirty)).symm
        · rw [if_neg valid, if_neg fun h => valid h.2.2]
      · exact State.physByte_congr ((lines _).trans (if_neg here)) ((reads pa).trans (if_neg fun h => here h.1))

/-- The line of an address as the LLC holds it, or a new one with nothing in it. -/
def State.heldLine (s : State) (pa : Nat) : LlcLine :=
  (findLine s.memory.llc (pa / 256)).getD
    { line := pa / 256, die := cacheDie pa, way := s.allocWay (pa / 256), data := 0, valid := 0, dirty := 0, owner := 0 }

theorem State.filled_of_valid {pa : Nat} (h : (s.heldLine pa).valid.getLsbD (pa / 128 % 2) = true) :
    s.filled pa = s.heldLine pa := if_pos h

theorem State.filled_of_invalid {pa : Nat} (h : ¬(s.heldLine pa).valid.getLsbD (pa / 128 % 2) = true) :
    s.filled pa = { s.heldLine pa with
      valid := (s.heldLine pa).valid ||| ((1 <<< (pa / 128 % 2) : Nat) : BitVec 2),
      data := BitVec.ofNat 2048 (setField (s.heldLine pa).data.toNat (1024 * (pa / 128 % 2)) 1024
        (s.memory.mem.readNat (pa / 128 * 128) 128)) } := if_neg h

/-- A valid sector of it is a sector that the LLC holds. -/
theorem State.heldLine_valid {pa k : Nat} (h : (s.heldLine pa).valid.getLsbD k = true) :
    findLine s.memory.llc (pa / 256) = some (s.heldLine pa) := by
  rcases hl : findLine s.memory.llc (pa / 256) with _ | l
  · simp [State.heldLine, hl] at h
  · rw [State.heldLine, hl]
    rfl

theorem State.heldLine_line (pa : Nat) : (s.heldLine pa).line = pa / 256 := by
  unfold State.heldLine
  rcases hl : findLine s.memory.llc (pa / 256) with _ | l
  · rfl
  · exact line_of_findLine hl

theorem State.filled_line (pa : Nat) : (s.filled pa).line = pa / 256 := by
  rw [← s.heldLine_line pa]
  by_cases h : (s.heldLine pa).valid.getLsbD (pa / 128 % 2) = true
  · rw [State.filled_of_valid h]
  · rw [State.filled_of_invalid h]

theorem getLsbD_or_one_shiftLeft (v : BitVec 2) {j : Nat} (hj : j < 2) (k : Nat) :
    (v ||| ((1 <<< k : Nat) : BitVec 2)).getLsbD j = (v.getLsbD j || decide (j = k)) := by
  rw [BitVec.getLsbD_or, BitVec.natCast_eq_ofNat, BitVec.getLsbD_ofNat, Nat.one_shiftLeft, Nat.testBit_two_pow,
    decide_eq_true hj, Bool.true_and, decide_eq_decide.mpr eq_comm]

/-- A byte of the line of an address, as that line holds it. -/
theorem State.physByte_of_heldLine {pa q : Nat} (h : q / 256 = pa / 256) :
    s.physByte q = if (s.heldLine pa).valid.getLsbD (q / 128 % 2) = true then vecByte (s.heldLine pa).data (q % 256)
      else s.memory.mem.read q := by
  unfold State.heldLine
  rcases hl : findLine s.memory.llc (pa / 256) with _ | l
  · rw [State.physByte_of_none (h ▸ hl)]
    simp
  · exact State.physByte_of_line (h ▸ hl)

/-- A byte of the line of an address, once the address's sector is filled: valid bytes are those of the line or of memory. -/
theorem State.filled_byte {pa q : Nat} (h : q / 256 = pa / 256) (valid : (s.filled pa).valid.getLsbD (q / 128 % 2) = true) :
    vecByte (s.filled pa).data (q % 256) =
      if (s.heldLine pa).valid.getLsbD (q / 128 % 2) = true then vecByte (s.heldLine pa).data (q % 256)
      else s.memory.mem.read q := by
  by_cases held : (s.heldLine pa).valid.getLsbD (pa / 128 % 2) = true
  · rw [State.filled_of_valid held] at valid ⊢
    rw [if_pos valid]
  · rw [State.filled_of_invalid held] at valid ⊢
    dsimp only at valid
    refine (vecByte_fill _ _ pa h).trans ?_
    by_cases same : q / 128 % 2 = pa / 128 % 2
    · rw [if_pos same, same, if_neg held]
    · rw [getLsbD_or_one_shiftLeft _ (Nat.mod_lt _ (by decide)) _, decide_eq_false same, Bool.or_false] at valid
      rw [if_neg same, if_pos valid]

theorem State.filled_invalid {pa q : Nat} (invalid : ¬(s.filled pa).valid.getLsbD (q / 128 % 2) = true) :
    ¬(s.heldLine pa).valid.getLsbD (q / 128 % 2) = true := by
  by_cases held : (s.heldLine pa).valid.getLsbD (pa / 128 % 2) = true
  · rwa [State.filled_of_valid held] at invalid
  · rw [State.filled_of_invalid held] at invalid
    dsimp only at invalid
    rw [getLsbD_or_one_shiftLeft _ (Nat.mod_lt _ (by decide)), Bool.or_eq_true] at invalid
    exact fun h => invalid (.inl h)

theorem State.filled_dirty (pa : Nat) : (s.filled pa).dirty = (s.heldLine pa).dirty := by
  by_cases h : (s.heldLine pa).valid.getLsbD (pa / 128 % 2) = true
  · rw [State.filled_of_valid h]
  · rw [State.filled_of_invalid h]

theorem State.Undisturbed.fills (hs : s.Undisturbed) (pa : Nat) :
    s.Refilled (s.withLines s.memory.mem (putLine s.memory.llc (s.filled pa))) := by
  have lines := findLine_putLine s.memory.llc (s.filled pa)
  rw [State.filled_line] at lines
  refine hs.withLines hs.form (fun q m hm valid clean => ?_) fun q => ?_
  · replace hm := (lines (q / 256)).symm.trans hm
    by_cases here : q / 256 = pa / 256
    · rw [if_pos here, Option.some.injEq] at hm
      subst hm
      refine (State.filled_byte here valid).trans ?_
      by_cases held : (s.heldLine pa).valid.getLsbD (q / 128 % 2) = true
      · rw [if_pos held]
        rw [State.filled_dirty] at clean
        exact hs.agrees q _ (here ▸ State.heldLine_valid held) held clean
      · rw [if_neg held]
        rfl
    · rw [if_neg here] at hm
      exact hs.agrees q m hm valid clean
  · by_cases here : q / 256 = pa / 256
    · rw [State.physByte_of_line ((lines _).trans (if_pos here)), State.physByte_of_heldLine here]
      by_cases valid : (s.filled pa).valid.getLsbD (q / 128 % 2) = true
      · rw [if_pos valid, State.filled_byte here valid]
      · rw [if_neg valid, if_neg (State.filled_invalid valid)]
        rfl
    · exact State.physByte_congr ((lines _).trans (if_neg here)) rfl

/-- A line put into the LLC. -/
theorem State.putLine_eq (s : State) (l : LlcLine) :
    (s.mapMemory fun m => { m with llc := putLine m.llc l }) = s.withLines s.memory.mem (putLine s.memory.llc l) := rfl

/-! ## Accesses -/

theorem State.Undisturbed.fetchSectorBy (hs : s.Undisturbed) (h : Hardware) (pa : Nat) : s.Refilled (s.fetchSectorBy h pa) := by
  have meets (ps : List Nat) : ps.foldl (fun s p => s.meetHbmBy h p) s = s := by
    induction ps with
    | nil => rfl
    | cons p ps ih => rw [List.foldl_cons, hs.meetHbmBy, ih]
  unfold State.fetchSectorBy
  simp only [meets]
  split
  · exact hs.refl
  · rw [State.putLine_eq]
    exact hs.fills pa

theorem State.Undisturbed.writeBackBy (hs : s.Undisturbed) (h : Hardware) (line : Nat) : s.Refilled (s.writeBackBy h line) := by
  unfold State.writeBackBy
  simp only [hs.meetPieces]
  rcases hl : findLine s.memory.llc line with _ | l
  · exact hs.refl
  · dsimp only
    split
    · exact hs.refl
    · split
      · exact hs.refl
      · exact hs.writesBack hl

theorem State.Undisturbed.makeRoomBy (h : Hardware) (fuel : Nat) :
    ∀ (s : State) (line : Nat), s.Undisturbed → s.Refilled (State.makeRoomBy h fuel s line) := by
  induction fuel with
  | zero => exact fun s _ hs => hs.refl
  | succ fuel ih =>
    intro s line hs
    unfold State.makeRoomBy
    split
    · exact hs.refl
    · dsimp only
      split
      · exact hs.refl
      · next v _ =>
        have dropped := (hs.writeBackBy h v.line).trans ((hs.writeBackBy h v.line).undisturbed.dropLine v.line)
        exact dropped.trans (ih _ line dropped.undisturbed)

theorem State.Undisturbed.ensureBy (hs : s.Undisturbed) (h : Hardware) (pa : Nat) : s.Refilled (s.ensureBy h pa) := by
  have room := State.Undisturbed.makeRoomBy h 17 s (pa / 256) hs
  unfold State.ensureBy
  split
  · exact hs.refl
  · dsimp only
    split
    · exact room
    · exact room.trans (room.undisturbed.fetchSectorBy h pa)

theorem State.Undisturbed.readSectorBy (hs : s.Undisturbed) (h : Hardware) (pa n : Nat) : s.Refilled (s.readSectorBy h pa n) := by
  unfold State.readSectorBy
  split
  · exact hs.refl
  · split
    · exact State.Undisturbed.foldl _ (fun t i ht => by rw [ht.meetPieceBy]; exact ht.refl) _ s hs
    · exact hs.ensureBy h pa

theorem State.Undisturbed.meetWalk (hs : s.Undisturbed) (asid va : Nat) : s.Refilled (s.meetWalk asid va) := by
  refine State.Undisturbed.foldl _ (fun t pa ht => ?_) _ s hs
  split
  · exact ht.refl
  · exact ht.readSectorBy _ pa 8

theorem State.Undisturbed.afterWalks (hs : s.Undisturbed) (asid : Nat) (vas : List Nat) : s.Refilled (s.afterWalks asid vas) :=
  State.Undisturbed.foldl _ (fun _ va ht => ht.meetWalk asid va) vas s hs

end Sys2Proof.Machine
end
section
/-! SUPPORT. What an element instruction leaves behind: its block is gone, or goes on behind what it has staged, and its translations
have walked only for addresses at which it has staged requests (07 R108, R111, R112; 25 R391, R392). -/
namespace Sys2Proof.Machine

variable {s s' t u : State} {el : Nat} {b b' d : Block}

/-! ## Staging -/

/-- The context for which a block translates. -/
def State.asidOf (s : State) (b : Block) : Nat := ((s.activation b.colour.toNat).map (·.entry.asid)).getD 0

/-- A block has gone from one state to another by staging: effects behind those before, and for some of the requests among them a
walk of their address; the translation cache may hold something else. -/
def Stages (asid : Nat) (s : State) (b : Block) (s' : State) (b' : Block) : Prop :=
  ∃ es walked c, b'.effects = b.effects ++ es ∧ (∀ va ∈ walked, StagesAt es va) ∧ s' = (s.afterWalks asid walked).withTlb c

theorem Stages.of_prefix (asid : Nat) (s : State) (h : b.effects <+: b'.effects) : Stages asid s b s b' := by
  obtain ⟨es, h⟩ := h
  exact ⟨es, [], s.memory.tlb, h.symm, fun _ hva => absurd hva List.not_mem_nil, rfl⟩

theorem Stages.of_effects {asid : Nat} (h : Stages asid s b s' b') (he : d.effects = b'.effects) : Stages asid s b s' d := by
  obtain ⟨es, walked, c, effects, placed, moved⟩ := h
  exact ⟨es, walked, c, he.trans effects, placed, moved⟩

theorem StagesAt.append_left {es : List BlockEffect} {va : Nat} (h : StagesAt es va) (es' : List BlockEffect) :
    StagesAt (es ++ es') va := by
  obtain ⟨r, hr, placed⟩ := h
  exact ⟨r, List.mem_append_left _ hr, placed⟩

theorem StagesAt.append_right {es : List BlockEffect} {va : Nat} (h : StagesAt es va) (es' : List BlockEffect) :
    StagesAt (es' ++ es) va := by
  obtain ⟨r, hr, placed⟩ := h
  exact ⟨r, List.mem_append_right _ hr, placed⟩

theorem State.afterWalks_withTlb (s : State) (c : List TlbEntry) (asid : Nat) (vas : List Nat) :
    (s.withTlb c).afterWalks asid vas = (s.afterWalks asid vas).withTlb c :=
  foldl_withTlb c _ vas (fun t va => State.meetWalk_withTlb t c asid va) s

theorem Stages.trans {asid : Nat} (h : Stages asid s b t b') (h' : Stages asid t b' u d) : Stages asid s b u d := by
  obtain ⟨es, vas, c, effects, at_, rfl⟩ := h
  obtain ⟨es', vas', c', effects', at', rfl⟩ := h'
  refine ⟨es ++ es', vas ++ vas', c', ?_, fun va hva => ?_, ?_⟩
  · rw [effects', effects, List.append_assoc]
  · rcases List.mem_append.mp hva with hva | hva
    · exact (at_ va hva).append_left es'
    · exact (at' va hva).append_right es
  · rw [State.afterWalks_withTlb, State.afterWalks, State.afterWalks, State.afterWalks, List.foldl_append]
    rfl

theorem Stages.asidOf {asid : Nat} (h : Stages asid s b s' b') (k : Block) : s'.asidOf k = s.asidOf k := by
  obtain ⟨es, vas, c, -, -, rfl⟩ := h
  have kept := foldl_spared k.colour.toNat _ vas (fun t va => State.meetWalk_spared t _ asid va) s
  have same : ∀ u : State, u.asidOf k = ((u.spared k.colour.toNat).1.map (·.asid)).getD 0 := fun u => by
    rw [State.asidOf, State.spared, Option.map_map]
    rfl
  rw [same, same]
  exact congrArg (fun e => (Option.map (·.asid) e.1).getD 0) kept

/-! ## Requests (16 R247 to R249) -/

/-- Keeping a translation walks its address, unless the translation cache gave it. -/
theorem State.cacheLeaf_cases (s : State) (asid va : Nat) (l : Leaf) :
    ∃ c, s.cacheLeaf asid va l = s.withTlb c ∨ s.cacheLeaf asid va l = (s.meetWalk asid va).withTlb c := by
  unfold State.cacheLeaf State.entriesFor
  split
  · exact ⟨_, .inl rfl⟩
  · exact ⟨_, .inr rfl⟩

theorem checkPiece_stages {b0 : Block} {use : RecordUse} {needs scratch : Bool} {a : Nat} {r r' : MemRequest}
    (hr : r.scratch = false) (h : checkPiece s b0 use needs scratch a r = .ok (s', r')) :
    Stages (s.asidOf b0) s b s' (b.stage (.request r')) := by
  unfold checkPiece at h
  split at h
  · cases h
  · next act hact =>
    have asid : s.asidOf b0 = act.entry.asid := by rw [State.asidOf, hact]; rfl
    split at h
    · split at h
      · cases h
      · split at h
        · cases h
        · cases h
          exact Stages.of_prefix _ s (List.prefix_append _ _)
    · split at h
      · cases h
      · next l hl =>
        split at h
        · cases h
        · rw [Except.ok.injEq, Prod.mk.injEq] at h
          obtain ⟨rfl, rfl⟩ := h
          rw [asid]
          obtain ⟨c, hc | hc⟩ := s.cacheLeaf_cases act.entry.asid a l
          · exact ⟨_, [], c, rfl, fun _ hva => absurd hva List.not_mem_nil, hc⟩
          · refine ⟨_, [a], c, rfl, fun va hva => ?_, hc⟩
            rw [List.mem_singleton.mp hva]
            exact ⟨_, List.mem_singleton_self _, hr, rfl⟩

theorem stagePieces_stages {b0 : Block} {use : RecordUse} {scratch : Bool} {pieces : List (Nat × MemRequest)}
    (hp : ∀ p ∈ pieces, p.2.scratch = false) (h : stagePieces b0 use scratch s b pieces = .ok (s', b')) :
    Stages (s.asidOf b0) s b s' b' := by
  induction pieces generalizing s b with
  | nil =>
    rw [stagePieces, Except.ok.injEq, Prod.mk.injEq] at h
    obtain ⟨rfl, rfl⟩ := h
    exact Stages.of_prefix _ s (List.prefix_refl _)
  | cons p pieces ih =>
    obtain ⟨a, r⟩ := p
    rw [stagePieces] at h
    split at h
    · cases h
    · next s1 r1 h1 =>
      have first := checkPiece_stages (b := b) (hp _ List.mem_cons_self) h1
      have rest := ih (fun p hm => hp p (List.mem_cons_of_mem _ hm)) h
      rw [first.asidOf] at rest
      exact first.trans rest

/-! ## Outcomes -/

/-- The block of an element is gone, or it goes on by staging. -/
def BlockOutcome (s : State) (el : Nat) (b : Block) (t : State) : Prop :=
  (t.element el).block = none ∨ ∃ s' b' words, Stages (s.asidOf b) s b s' b' ∧ t = blockMoves s' el b' words

/-- Every state that follows is such an outcome. -/
def Leaves (s : State) (el : Nat) (b : Block) (r : Result) : Prop := ∀ t, r = .next t → BlockOutcome s el b t

/-- What an instruction makes of its block only adds effects. -/
def BlockResult.Extends (b : Block) : BlockResult → Prop
  | .ok b' => b.effects <+: b'.effects
  | .exc _ => True

theorem RunsBlock.unique {el' : Nat} (h : RunsBlock s el b) (h' : RunsBlock s el' b') : el' = el ∧ b' = b := by
  obtain ⟨focus, block⟩ := h
  obtain ⟨focus', block'⟩ := h'
  rw [focus, Focus.element.injEq] at focus'
  subst focus'
  rw [block, Option.some.injEq] at block'
  exact ⟨rfl, block'.symm⟩

/-! An exception ends the block. -/

theorem State.blackBox_elements (s : State) (kind : Nat) (fs : List (Nat × Nat × Nat)) :
    (s.blackBox kind fs).elements = s.elements := by
  unfold State.blackBox
  split <;> rfl

theorem State.setQuarantine_elements (s : State) (e : Nat) (on : Bool) : (s.setQuarantine e on).elements = s.elements := by
  unfold State.setQuarantine
  dsimp only
  split
  · exact List.foldlRecOn (motive := fun t : State => t.elements = s.elements) _ _ rfl fun t ht n _ => ht
  · rfl

theorem State.settleQuarantine_block (s : State) (e : Nat) :
    ((s.settleQuarantine e).element e).block = (s.element e).block := by
  unfold State.settleQuarantine
  dsimp only
  split
  · split
    · rw [State.element_putElement_self]
    · rw [State.element, State.blackBox_elements, State.setQuarantine_elements, ← State.element,
        State.element_putElement_self]
  · rfl

theorem holdBlock_block (s : State) (el : Nat) (b : Block) (i : FaultInfo) : ((holdBlock s el b i).element el).block = none := by
  refine (State.settleQuarantine_block _ el).trans ?_
  rw [State.element_putElement_self]
  rfl

theorem State.hwPut_elements (s : State) (f : FaultSite) (pa : Nat) (bs : List Byte) : (s.hwPut f pa bs).elements = s.elements := by
  have spares (u : State) : u.hardware.SparesRegions := hardwareAt_sparesRegions _
  have written : (s.hwWrite pa bs).elements = s.elements := congrArg Prod.snd ((spares s).2 s 0 pa bs)
  unfold State.hwPut
  dsimp only
  split
  · exact (congrArg Prod.snd (State.deliverBy_spared _ 0 (spares _) _ _)).trans written
  · exact written

theorem State.putCompletion_elements (s : State) (asid r : Nat) : (s.putCompletion asid r).elements = s.elements := by
  unfold State.putCompletion
  dsimp only
  split
  · rfl
  · split
    · rfl
    · split <;> exact State.hwPut_elements _ _ _ _

theorem State.dropRecord_elements (s : State) (e : Entry) (code : Nat) : (s.dropRecord e code).elements = s.elements := by
  have lowered := congrArg Prod.snd (State.lowerCounters_spared s 0 e.asid e.record)
  unfold State.dropRecord
  split
  · exact (State.putCompletion_elements _ _ _).trans lowered
  · exact lowered

theorem State.cancelId_elements (s : State) (asid job level id code : Nat) :
    (s.cancelId asid job level id code).elements = s.elements := by
  unfold State.cancelId
  dsimp only
  generalize ((asid, if level = 4 then id else job, level, id) : Nat × Nat × Nat × Nat) = key
  split
  · rfl
  · exact List.foldlRecOn (motive := fun t : State => t.elements = s.elements) _ _ rfl
      fun t ht e _ => (State.dropRecord_elements t e code).trans ht

theorem State.killByColour_elements (s : State) (c : Nat) : (s.killByColour c).elements = s.elements := by
  unfold State.killByColour
  split
  · rfl
  · dsimp only
    split
    · rfl
    · split
      · rfl
      · exact State.cancelId_elements _ _ _ _ _ _

theorem State.blockMismatch_block (s : State) (el : Nat) (b : Block) : ((s.blockMismatch el b).element el).block = none := by
  unfold State.blockMismatch
  dsimp only
  split
  · rw [State.element_putElement_self]
    rfl
  · rw [State.settleQuarantine_block, State.element, State.killByColour_elements, ← State.element, State.element_putElement_self]

theorem takeBlockException_block (s : State) (el : Nat) (b : Block) (i : FaultInfo) :
    ((takeBlockException s el b i).element el).block = none := by
  unfold takeBlockException
  split
  · exact s.blockMismatch_block el b
  · exact holdBlock_block s el b i

end Sys2Proof.Machine
end
section
/-! SUPPORT. What each word leaves where a block executes it: it ends the block, or moves it on behind effects that it stages (07 R108,
R111; 08 R120 to R137; 10 R152 to R169; 16 R247 to R254). A word of the sequencers does not execute in a handler (05 R65). -/
namespace Sys2Proof.Machine

variable {s s' t : State} {el : Nat} {b b' : Block}

/-! ## The frames that instructions run in -/

theorem leaves_inStep (h : RunsBlock s el b) (f : State → SeqId → Activation → Sequencer → StepRun → StepResult) :
    Leaves s el b (inStep s f) := by
  intro t ht
  rw [inStep, h.1] at ht
  cases ht

theorem leaves_inBlock {f : State → Nat → Block → BlockResult} (h : RunsBlock s el b) (words : Nat)
    (extends_ : (f s el b).Extends b) : Leaves s el b (inBlock s words f) := by
  intro t ht
  obtain ⟨el', d, b', hd, hf, rfl⟩ | ⟨el', d, i, hd, -, rfl⟩ | ⟨q, hq, -⟩ := inBlock_cases ht
  · obtain ⟨rfl, rfl⟩ := h.unique hd
    rw [hf] at extends_
    exact .inr ⟨s, b', words, Stages.of_prefix _ s extends_, rfl⟩
  · obtain ⟨rfl, rfl⟩ := h.unique hd
    exact .inl (takeBlockException_block s el' d i)
  · rw [h.1] at hq
    cases hq

theorem leaves_inBlockWith {f : State → Nat → Block → Except FaultInfo (State × Block)} (h : RunsBlock s el b) (words : Nat)
    (stages : ∀ s' b', f s el b = .ok (s', b') → Stages (s.asidOf b) s b s' b') : Leaves s el b (inBlockWith s words f) := by
  intro t ht
  obtain ⟨el', d, s', b', hd, hf, rfl⟩ | ⟨el', d, i, hd, -, rfl⟩ | ⟨q, hq, -⟩ := inBlockWith_cases ht
  · obtain ⟨rfl, rfl⟩ := h.unique hd
    exact .inr ⟨s', b', words, stages s' b' hf, rfl⟩
  · obtain ⟨rfl, rfl⟩ := h.unique hd
    exact .inl (takeBlockException_block s el' d i)
  · rw [h.1] at hq
    cases hq

theorem leaves_inLanes {f : Element → Nat → Block → Block} (h : RunsBlock s el b) (o : EA)
    (extends_ : b.effects <+: (f (s.element el) el b).effects) : Leaves s el b (inLanes s o f) :=
  leaves_inBlock h (eaWords o) extends_

theorem leaves_lanewise (h : RunsBlock s el b) (o : EA) (f : Element → Nat → Block → Nat → Nat × Word) :
    Leaves s el b (lanewise s o f) :=
  leaves_inLanes h o (List.prefix_refl _)

theorem leaves_stageAccess (h : RunsBlock s el b) (o : EM) (op : MemOp) (u : RecordUse) (size align : Nat)
    (needs replies : Bool) : Leaves s el b (stageAccess s o op u size align needs replies) := by
  refine leaves_inBlockWith h _ fun s' b' hf => ?_
  split at hf
  · cases hf
  · dsimp only at hf
    generalize (if replies then some o.chan else none) = reply at hf
    split at hf
    · cases hf
    · next hc =>
      cases hf
      exact checkPiece_stages rfl hc

/-! ## What the instructions make of a block's effects -/

theorem BlockResult.Extends.ite {p : Prop} [Decidable p] {x y : BlockResult} (hx : x.Extends b) (hy : y.Extends b) :
    (if p then x else y).Extends b := by
  split
  · exact hx
  · exact hy

theorem Block.prefix_setPred (b : Block) (p : Nat) (v : Pred) : b.effects <+: (b.setPred p v).effects := by
  unfold Block.setPred
  split <;> exact List.prefix_refl _

theorem Block.prefix_stage (b : Block) (e : BlockEffect) : b.effects <+: (b.stage e).effects := List.prefix_append _ _

theorem Block.prefix_foldl_stage {α : Type} (e : α → Block → BlockEffect) (l : List α) :
    ∀ b : Block, b.effects <+: (l.foldl (fun b a => b.stage (e a b)) b).effects := by
  induction l with
  | nil => exact fun _ => List.prefix_refl _
  | cons a l ih => exact fun b => (b.prefix_stage _).trans (ih _)

theorem Block.keepSource_effects (b : Block) (o : ES) : (b.keepSource o).effects = b.effects := by
  unfold Block.keepSource
  split <;> rfl

theorem Block.prefix_stage_keepSource (b : Block) (e : BlockEffect) (o : ES) :
    b.effects <+: ((b.stage e).keepSource o).effects := by
  rw [Block.keepSource_effects]
  exact b.prefix_stage e

theorem Block.prefix_withAccs (b : Block) (a : Accs) (c : Cursor) : b.effects <+: (b.withAccs a c).effects :=
  List.prefix_refl _

theorem chainNote_effects (b : Block) (o : EG) (fpForm closed : Bool) : (chainNote b o fpForm closed).effects = b.effects := by
  unfold chainNote
  split <;> rfl

/-! ## Instructions with effects or faults of their own -/

theorem execSend_leaves (h : RunsBlock s el b) (o : ES) : Leaves s el b (execSend o s) :=
  leaves_inBlock h (esWords o) (b.prefix_stage_keepSource _ o)

theorem execSendr_leaves (h : RunsBlock s el b) (o : ES) : Leaves s el b (execSendr o s) :=
  leaves_inBlock h 1 (.ite trivial (.ite trivial (b.prefix_stage_keepSource _ o)))

theorem execSegmac_leaves (h : RunsBlock s el b) (o : EG) : Leaves s el b (execSegmac o s) := by
  refine leaves_inBlock h 1 (.ite trivial ?_)
  dsimp only
  split
  · trivial
  · trivial
  · next a _ _ =>
    dsimp only [BlockResult.Extends]
    rw [chainNote_effects]
    exact b.prefix_withAccs a _

theorem execSegden_leaves (h : RunsBlock s el b) (o : EG) : Leaves s el b (execSegden o s) := by
  refine leaves_inBlock h 1 (.ite trivial ?_)
  dsimp only
  split
  · trivial
  · exact b.prefix_withAccs _ _

theorem execDrow_leaves (h : RunsBlock s el b) (o : EG) : Leaves s el b (execDrow o s) := by
  refine leaves_inBlock h 1 (.ite trivial (.ite trivial (.ite (b.prefix_withAccs _ _) (.ite ?_ (b.prefix_withAccs _ _)))))
  split
  · trivial
  · exact b.prefix_withAccs _ _

theorem execBwdot_leaves (h : RunsBlock s el b) (o : EG) : Leaves s el b (execBwdot o s) :=
  leaves_inBlock h 1 (.ite trivial (b.prefix_withAccs _ _))

theorem execDiff_leaves (h : RunsBlock s el b) (o : EG) : Leaves s el b (execDiff o s) :=
  leaves_inBlock h 1 (.ite trivial (.ite (b.prefix_withAccs _ _) (b.prefix_withAccs _ _)))

theorem execAccout_leaves (h : RunsBlock s el b) (o : EM) : Leaves s el b (execAccout o s) :=
  leaves_inBlock h 1 (Block.prefix_foldl_stage _ _ b)

/-- The pieces of a row add name no scratch of their own: their address decides. -/
theorem rowPieces_scratch {g : Vec} {mport rowAt n : Nat} {wide : Bool} {v : Int} {p : Nat × MemRequest}
    (hp : p ∈ rowPieces b g mport rowAt n wide v) : p.2.scratch = false := by
  obtain ⟨k, -, rfl⟩ := List.mem_map.mp hp
  rfl

theorem execSeggrad_leaves (h : RunsBlock s el b) (o : EG) : Leaves s el b (execSeggrad o s) := by
  refine leaves_inBlockWith h 1 fun s' b' hf => ?_
  split at hf
  · cases hf
  · split at hf
    · cases hf
    · dsimp only at hf
      split at hf
      · cases hf
      · cases hf
      · next hs _ =>
        cases hf
        refine (stagePieces_stages (fun p hp => ?_) hs).of_effects rfl
        obtain ⟨r, -, hp⟩ := List.mem_flatMap.mp hp
        exact rowPieces_scratch hp

theorem execAccst_leaves (h : RunsBlock s el b) (o : EM) : Leaves s el b (execAccst o s) := by
  refine leaves_inBlockWith h 1 fun s' b' hf => ?_
  dsimp only at hf
  split at hf
  · cases hf
  · split at hf
    · cases hf
    · next hs =>
      cases hf
      refine (stagePieces_stages (fun p hp => ?_) hs).of_effects rfl
      obtain ⟨j, -, rfl⟩ := List.mem_map.mp hp
      rfl

/-! ## Every word -/

/-- By the format of the word: the lane instructions write temporaries, predicates and events; sends, requests, table rows and scales
are staged; the segment instructions and those of the accumulators by their own lemmas; a word of the sequencers faults. -/
theorem exec_leaves {i : Instr} (h : RunsBlock s el b) (hw : i.isWord = true) : Leaves s el b (exec i s) := by
  cases i
  case brk code | trap code =>
    dsimp only [exec, execBrk, execTrap]
    exact leaves_inBlock h 1 trivial
  case nop | li d t imm | drop o | keep o | accclr o =>
    dsimp only [exec, execNop, execLi, execDrop, execKeep, execAccclr]
    exact leaves_inBlock h 1 (List.prefix_refl _)
  case pand o | por o | pnot o =>
    dsimp only [exec, execPand, execPor, execPnot]
    exact leaves_inBlock h 1 (b.prefix_setPred _ _)
  case fcvt o =>
    dsimp only [exec, execFcvt]
    exact leaves_inBlock h _ (List.prefix_refl _)
  case mov o | mulh o | min o | max o | shuf o | bcast o | lrot o | pack o | scan c o =>
    dsimp only [exec, execMov, execMulh, execMin, execMax, execShuf, execBcast, execLrot, execPack, execScan]
    exact leaves_lanewise h o _
  case unpackLo o | unpackHi o =>
    dsimp only [exec, execUnpackLo, execUnpackHi, unpack]
    exact leaves_lanewise h o _
  case add o | sub o | mul o | mad o | abs o | neg o =>
    dsimp only [exec, execAdd, execSub, execMul, execMad, execAbs, execNeg, arith]
    exact leaves_lanewise h o _
  case and o | or o | xor o | andn o | orn o | xnor o | shl o | shr o | sar o | rol o | clz o | popc o =>
    dsimp only [exec, execAnd, execOr, execXor, execAndn, execOrn, execXnor, execShl, execShr, execSar, execRol, execClz,
      execPopc, bitwise]
    exact leaves_lanewise h o _
  case fadd o | fsub o | fmul o | fma o | fms o | fnma o | fmin o | fmax o | fabs o | fneg o =>
    dsimp only [exec, execFadd, execFsub, execFmul, execFma, execFms, execFnma, execFmin, execFmax, execFabs, execFneg,
      floatLanes]
    exact leaves_lanewise h o _
  case frcp o | frsq o | fexp2 o | flog2 o | ftanh o =>
    dsimp only [exec, execFrcp, execFrsq, execFexp2, execFlog2, execFtanh, specialLanes, floatLanes]
    exact leaves_lanewise h o _
  case sel o | cvt c o | red c o | fred c o | cmul o | cmad o | trd o | sclrd o | csum o | csver o =>
    dsimp only [exec, execSel, execCvt, execRed, execFred, execCmul, execCmad, complexLanes, execTrd, execSclrd, execCsum,
      execCsver, checksumInto]
    exact leaves_inLanes h o (List.prefix_refl _)
  case cmp c o | fcmp c o | pset o =>
    dsimp only [exec, execCmp, execFcmp, execPset, writePred]
    exact leaves_inLanes h o (b.prefix_setPred _ _)
  case twr o | scl o =>
    dsimp only [exec, execTwr, execScl]
    exact leaves_inLanes h o (b.prefix_stage _)
  case last o | mfence o =>
    dsimp only [exec, execLast, execMfence]
    exact leaves_inBlock h _ (b.prefix_stage _)
  case mld o | mst o | mtake o | mfill o | matom o | eyaddElement o =>
    dsimp only [exec, execMld, execMst, execMtake, execMfill, execMatom, execEyaddElement]
    exact leaves_stageAccess h o _ _ _ _ _ _
  case send o => exact execSend_leaves h o
  case sendr o => exact execSendr_leaves h o
  case segmac o => exact execSegmac_leaves h o
  case segden o => exact execSegden_leaves h o
  case drow o => exact execDrow_leaves h o
  case bwdot o => exact execBwdot_leaves h o
  case diff o => exact execDiff_leaves h o
  case seggrad o => exact execSeggrad_leaves h o
  case accout o => exact execAccout_leaves h o
  case accst o => exact execAccst_leaves h o
  case sadd o | ssub o | smul o | sand o | sor o | sxor o | sshl o | sshr o | ssar o | smin o | smax o | smov o =>
    dsimp only [exec, execSadd, execSsub, execSmul, execSand, execSor, execSxor, execSshl, execSshr, execSsar, execSmin,
      execSmax, execSmov, alu, inStepRegs]
    exact leaves_inStep h _
  case sli o | saddi o | sandi o | slih o =>
    dsimp only [exec, execSli, execSaddi, execSandi, execSlih, aluImm, inStepRegs]
    exact leaves_inStep h _
  case br c o | jmp o | loop o | sld fn o | sst fn o | satom fn o | eyadd o | eywait o | eyset o | sfence o =>
    dsimp only [exec, execBr, execJmp, execLoop, execSld, execSst, execSatom, execEyadd, execEywait, execEyset, execSfence,
      onEyelet]
    exact leaves_inStep h _
  case cfg o | commit o | run o | waitq o | depth o | bank o | push o | accept o | agset o =>
    dsimp only [exec, execCfg, execCommit, execRun, execWaitq, execDepth, execBank, execPush, execAccept, execAgset,
      onGenerator, inRegionStep]
    exact leaves_inStep h _
  case copy o | gather o | scatter o | chain o | waitseq o | click o | tbuild o | tpatch o | scant o | expand o | epi o |
      pusht o | popt o =>
    dsimp only [exec, execCopy, execGather, execScatter, execChain, execWaitseq, execClick, execTbuild, execTpatch, execScant,
      execExpand, execEpi, execPusht, execPopt, appendAct, appendAux, appendStack]
    exact leaves_inStep h _
  case car o | crs o | cag o | ca2a o | cbcast o =>
    dsimp only [exec, execCar, execCrs, execCag, execCa2a, execCbcast, appendCollective, inRegionStep]
    exact leaves_inStep h _
  case spawn o | decl o | done o | cancel o | split o | yield o | permit o | unpermit o | sbrk o | step o =>
    dsimp only [exec, execSpawn, execDecl, execDone, execCancel, execSplit, execYield, execPermit, execUnpermit, execSbrk,
      execStep, inRegionStep]
    exact leaves_inStep h _
  case tlbinv o | quar o | ctxsave o | ctxload o | mon o | bbnote o =>
    dsimp only [exec, execTlbinv, execQuar, execCtxsave, execCtxload, execMon, execBbnote, inSupervisor]
    exact leaves_inStep h _
  all_goals exact absurd hw Bool.false_ne_true

end Sys2Proof.Machine
end
section
/-! The statement on what the instructions of a block leave alone (07 R108, R111). -/
namespace Sys2Proof.Machine

variable {s s' t : State} {el : Nat} {b b' : Block}

/-- What stands where a block is, is a word of an instruction. -/
theorem isWord_of_fetchBlock {x : Element} {i : Instr} (h : fetchBlock x = .instr i) : i.isWord = true := by
  unfold fetchBlock at h
  split at h
  · cases h
  · split at h
    · cases h
    · split at h
      · cases h
        rfl
      · split at h
        · next hd =>
          cases h
          exact (decodedInstructionsAreLegal _ _ _ _ hd).1
        · cases h

/-- A step at a block executes a word of an instruction, and time passes. -/
theorem step_of_runsBlock (hh : s.halted = false) (ha : s.agenda = []) (hb : RunsBlock s el b) (h : step s = .next t) :
    ∃ i u, i.isWord = true ∧ exec i s = .next u ∧ t = u.pass := by
  rw [step_turn hh ha (by simp [hb.1]), turn, fetched_of_runsBlock hb] at h
  split at h
  · next i hi =>
    cases he : exec i s with
    | next u =>
      rw [he] at h
      cases h
      exact ⟨i, u, isWord_of_fetchBlock hi, he, rfl⟩
    | fault f =>
      rw [he] at h
      cases h
    | refused r =>
      rw [he] at h
      cases h
  · cases h
  · cases h

/-- A block that moves on changes its element and the turn, and what its translations keep is in the translation cache. -/
theorem onlyElement_blockMoves (s : State) (c : List TlbEntry) (el : Nat) (b : Block) (words : Nat) :
    OnlyElement s (blockMoves (s.withTlb c) el b words) el :=
  ⟨fun e he => State.element_putElement_of_ne _ el e _ he, rfl, rfl, rfl, rfl, rfl, rfl, rfl, rfl, rfl, rfl, rfl, rfl, rfl, rfl,
    rfl, rfl, rfl, rfl, rfl⟩

theorem blockMoves_effects {words : Nat} (h : ((blockMoves s el b words).element el).block = some b') :
    b'.effects = b.effects := by
  have moved : ((blockMoves s el b words).element el).block = some { b with done := b.done + 1, word := b.word + words } :=
    congrArg Element.block (State.element_putElement_self _ el _)
  rw [moved, Option.some.injEq] at h
  rw [← h]

/-- Settles O59: every word that a block executes ends it or stages (`exec_leaves`), and what the walks of the translations of a
stage do where no error is pending is to refill lines (`State.Undisturbed.afterWalks`). -/
theorem blocksTouchOnlyTheirElement : Obligations.BlocksTouchOnlyTheirElement := by
  unfold Obligations.BlocksTouchOnlyTheirElement
  intro s t el b b' hh ha hb hs hb' asid
  obtain ⟨i, u, hword, hexec, rfl⟩ := step_of_runsBlock hh ha hb hs
  have goes : (u.element el).block = some b' := hb'
  obtain gone | ⟨s', d, words, ⟨es, walked, c, effects, placed, rfl⟩, rfl⟩ := exec_leaves hb hword u hexec
  · rw [gone] at goes
    cases goes
  · refine ⟨es, walked, _, (blockMoves_effects goes).trans effects, placed, rfl, onlyElement_blockMoves _ c el d words, ?_⟩
    intro quiet unarmed good agrees
    have refilled := State.Undisturbed.afterWalks ⟨quiet, unarmed, good.1, agrees⟩ asid walked
    exact ⟨refilled.only, refilled.bytes⟩

end Sys2Proof.Machine
end

section
/-! The statements on integer arithmetic and on the instructions that copy lanes, from the rules on lanes (04 R49; 08 R117, R123,
R124, R129, R131, R132). -/
namespace Sys2Proof.Machine

variable {s : State} {el : Nat} {b : Block} {o : EA} {i : Instr}

/-- An exact integer result is written wrapped or clamped, lane by lane. -/
theorem arith_sets (f : Int → Int → Int → Int) (h : RunsBlock s el b) (hi : exec i s = arith s o f) :
    SetsLanes s el b o i fun j => writtenInt o (f (intA (s.element el) el b o j) (intB (s.element el) el b o j) (intD b o j)) :=
  lanewise_sets h hi fun j _ => by simp only [narrow_written, and_self]

/-- An instruction that gives a temporary a new vector and raises no event writes every lane of it. -/
theorem setTemp_sets {words d w : Nat} {v : Vec} {f : Nat → Nat}
    (hi : exec i s = .next (blockMoves s el (b.setTemp d v) words))
    (hv : ∀ j, j < lanesOf w → laneNat v w j = f j % 2 ^ w) :
    SetsTemp s el b i words d w (fun _ => true) fun j => (f j, 0) := by
  refine ⟨_, hi, rfl, fun u hu => b.temp_setTemp_of_ne _ u _ hu, fun j hj => ?_, fun k => ?_⟩
  · rw [b.temp_setTemp_self, hv j hj, if_pos rfl]
  · simp [Block.setTemp]

/-- Settles O5: each is a lane-by-lane write of an exact result, narrowed by S but for MULH, MIN and MAX. -/
theorem integerLaneResults : Obligations.IntegerLaneResults := by
  unfold Obligations.IntegerLaneResults
  intro s el b o h A B D w
  refine ⟨arith_sets (fun a b _ => a + b) h (exec_add o s), arith_sets (fun a b _ => a - b) h (exec_sub o s),
    arith_sets (fun a b _ => a * b) h (exec_mul o s), arith_sets (fun a b d => a * b + d) h (exec_mad o s),
    lanewise_sets h (exec_mulh o s) fun _ _ => ⟨rfl, rfl⟩, lanewise_sets h (exec_min o s) fun _ _ => ⟨rfl, rfl⟩,
    lanewise_sets h (exec_max o s) fun _ _ => ⟨rfl, rfl⟩, ?abs, arith_sets (fun a _ _ => -a) h (exec_neg o s)⟩
  case abs => simpa only [Int.natCast_natAbs] using arith_sets (fun a _ _ => (a.natAbs : Int)) h (exec_abs o s)

/-- Settles O9: SEL gives D a new vector, each lane of it from A or from B. -/
theorem selWritesEveryLane : Obligations.SelWritesEveryLane := by
  unfold Obligations.SelWritesEveryLane
  intro s el b o h w
  exact setTemp_sets ((exec_sel o s).trans (inLanes_next h)) fun j hj => laneNat_setLanes (laneWidth_dvd o.t) 0 _ j hj

/-- Settles O10: each copies one lane of A into every active lane of D. -/
theorem shufBcastAndLrotMoveLanes : Obligations.ShufBcastAndLrotMoveLanes := by
  unfold Obligations.ShufBcastAndLrotMoveLanes
  exact ⟨fun s el b o h => lanewise_sets h (exec_shuf o s) fun _ _ => ⟨rfl, rfl⟩, fun s el b o h =>
    ⟨lanewise_sets h (exec_bcast o s) fun _ _ => ⟨rfl, rfl⟩, lanewise_sets h (exec_lrot o s) fun _ _ => ⟨rfl, rfl⟩⟩⟩

end Sys2Proof.Machine
end

section
/-! SUPPORT. The bits of a lane as a word of its width: logic, shifts, rotation and counts (08 R125 to R127). -/
namespace Sys2Proof.Machine

/-! ## Operands -/

/-- A lane of a source fits the width of an integer layout. -/
theorem sourceLane_lt (x : Element) (el : Nat) (b : Block) (sel : BitVec 4) (k : BitVec 3) (ext : Word) {l : Layout}
    (hl : l.fmt = none) (j : Nat) : sourceLane x el b sel k ext l j < 2 ^ l.w := by
  have hp := Nat.two_pow_pos l.w
  unfold sourceLane specialLane
  simp only [hl]
  split_ifs
  · exact laneNat_lt _ _ _
  · exact laneNat_lt _ _ _
  · exact Nat.mod_lt _ hp
  · exact hp
  · exact Nat.mod_lt _ hp
  · exact Nat.mod_lt _ hp

section
variable {s : State} {el : Nat} {b : Block} {o : EA} {i : Instr} {f : Nat → Nat → Nat → Nat}

theorem srcA_lt (x : Element) (ht : o.t.toNat < 6) (j : Nat) : srcA x el b o (layoutOf o.t) j < 2 ^ laneWidth o.t :=
  sourceLane_lt x el b o.a o.x o.extA (laneFmt_eq_none ht) j

theorem srcB_lt (x : Element) (ht : o.t.toNat < 6) (j : Nat) : srcB x el b o (layoutOf o.t) j < 2 ^ laneWidth o.t :=
  sourceLane_lt x el b o.b o.x o.extB (laneFmt_eq_none ht) j

/-- An instruction on the lanes of A and B as numbers. -/
theorem bitwise_sets_nat (f : Nat → Nat → Nat → Nat) (h : RunsBlock s el b) (hi : exec i s = bitwise s o f) :
    SetsLanes s el b o i fun j => (f (laneWidth o.t) (srcA (s.element el) el b o (layoutOf o.t) j)
      (srcB (s.element el) el b o (layoutOf o.t) j), 0) :=
  lanewise_sets h hi fun _ _ => ⟨Nat.mod_mod _ _, rfl⟩

/-- An instruction on the bits of a lane of A, and a lane of B read as a number. -/
theorem bitwise_sets (h : RunsBlock s el b) (ht : o.t.toNat < 6) (hi : exec i s = bitwise s o f)
    (F : BitVec (laneWidth o.t) → Nat → BitVec (laneWidth o.t))
    (hF : ∀ x c, f (laneWidth o.t) x.toNat c % 2 ^ laneWidth o.t = (F x c).toNat) :
    SetsLanes s el b o i fun j => ((F (BitVec.ofNat _ (srcA (s.element el) el b o (layoutOf o.t) j))
      (srcB (s.element el) el b o (layoutOf o.t) j)).toNat, 0) := by
  refine lanewise_sets h hi fun j _ => ⟨?_, rfl⟩
  rw [← hF, BitVec.toNat_ofNat, Nat.mod_eq_of_lt (srcA_lt _ ht j)]

/-- An instruction on the bits of a lane of A and a lane of B. -/
theorem logic_sets (h : RunsBlock s el b) (ht : o.t.toNat < 6) (hi : exec i s = bitwise s o f)
    (F : BitVec (laneWidth o.t) → BitVec (laneWidth o.t) → BitVec (laneWidth o.t))
    (hF : ∀ x y, f (laneWidth o.t) x.toNat y.toNat = (F x y).toNat) :
    SetsLanes s el b o i fun j => ((F (BitVec.ofNat _ (srcA (s.element el) el b o (layoutOf o.t) j))
      (BitVec.ofNat _ (srcB (s.element el) el b o (layoutOf o.t) j))).toNat, 0) := by
  refine lanewise_sets h hi fun j _ => ⟨?_, rfl⟩
  rw [← hF, BitVec.toNat_ofNat, BitVec.toNat_ofNat, Nat.mod_eq_of_lt (srcA_lt _ ht j), Nat.mod_eq_of_lt (srcB_lt _ ht j),
    Nat.mod_mod]

end

/-! ## Shifts and rotation -/

variable {w : Nat}

theorem notBits_toNat (x : BitVec w) : notBits w x.toNat = (~~~x).toNat := BitVec.toNat_not.symm

theorem shl_toNat (x : BitVec w) (c : Nat) : (if w ≤ c then 0 else x.toNat * 2 ^ c) % 2 ^ w = (x <<< c).toNat := by
  rw [BitVec.toNat_shiftLeft, Nat.shiftLeft_eq]
  split
  next hc => rw [Nat.zero_mod, Nat.mod_eq_zero_of_dvd (Dvd.dvd.mul_left (pow_dvd_pow 2 hc) _)]
  next => rfl

theorem shr_toNat (x : BitVec w) (c : Nat) : (if w ≤ c then 0 else x.toNat / 2 ^ c) % 2 ^ w = (x >>> c).toNat := by
  have whole : (if w ≤ c then 0 else x.toNat / 2 ^ c) = (x >>> c).toNat := by
    rw [BitVec.toNat_ushiftRight, Nat.shiftRight_eq_div_pow]
    split
    next hc => exact (Nat.div_eq_of_lt (x.isLt.trans_le (Nat.pow_le_pow_right Nat.two_pos hc))).symm
    next => rfl
  rw [whole, Nat.mod_eq_of_lt (x >>> c).isLt]

theorem signedOf_toNat (hw : 0 < w) (x : BitVec w) : signedOf w x.toNat = x.toInt := by
  have half : 2 ^ w = 2 * 2 ^ (w - 1) := (Nat.two_pow_pred_mul_two hw).symm.trans (Nat.mul_comm _ _)
  rw [signedOf, Nat.mod_eq_of_lt x.isLt, BitVec.toInt_eq_toNat_cond]
  exact if_congr (by omega) rfl rfl

/-- Behind the width of a word only its sign is left to divide. -/
theorem toInt_div_two_pow (x : BitVec w) {c : Nat} (hc : w ≤ c) :
    x.toInt / (2 ^ c : Nat) = x.toInt / (2 ^ w : Nat) := by
  have sign {k : Nat} (hk : w ≤ k) : x.toInt / (2 ^ k : Nat) = if x.toInt < 0 then -1 else 0 := by
    have hle := Nat.pow_le_pow_right Nat.two_pos hk
    have hlo := x.le_two_mul_toInt
    have hhi := x.two_mul_toInt_lt
    rw [← Nat.cast_ofNat, ← Nat.cast_pow] at hlo hhi
    split
    next hn => exact Int.ediv_eq_neg_one_of_neg_of_le hn (by omega)
    next hn => exact Int.ediv_eq_zero_of_lt (by omega) (by omega)
  rw [sign hc, sign le_rfl]

theorem sar_toNat (hw : 0 < w) (x : BitVec w) (c : Nat) :
    wrapTo w (signedOf w x.toNat / (2 ^ (if w ≤ c then w else c) : Nat)) % 2 ^ w = (x.sshiftRight c).toNat := by
  have whole : x.toInt / (2 ^ (if w ≤ c then w else c) : Nat) = x.toInt >>> c := by
    rw [Int.shiftRight_eq_div_pow]
    split
    next hc => exact (toInt_div_two_pow x hc).symm
    next => rfl
  rw [signedOf_toNat hw, whole]
  exact Nat.mod_eq_of_lt (x.sshiftRight c).isLt

/-- The parts that a rotation moves up and down do not overlap. -/
theorem rol_toNat (hw : 0 < w) (x : BitVec w) (c : Nat) :
    (x.toNat * 2 ^ (c % w) % 2 ^ w + x.toNat / 2 ^ (w - c % w)) % 2 ^ w = (x.rotateLeft c).toNat := by
  have hr : c % w ≤ w := (Nat.mod_lt c hw).le
  have split : 2 ^ w = 2 ^ (c % w) * 2 ^ (w - c % w) := by rw [← Nat.pow_add, Nat.add_sub_cancel' hr]
  have down : x.toNat / 2 ^ (w - c % w) < 2 ^ (c % w) := Nat.div_lt_of_lt_mul (by rw [Nat.mul_comm, ← split]; exact x.isLt)
  have up : x.toNat * 2 ^ (c % w) % 2 ^ w = 2 ^ (c % w) * (x.toNat % 2 ^ (w - c % w)) := by
    rw [Nat.mul_comm, split, Nat.mul_mod_mul_left]
  have whole : x.toNat * 2 ^ (c % w) % 2 ^ w + x.toNat / 2 ^ (w - c % w) = (x.rotateLeft c).toNat := by
    rw [BitVec.toNat_rotateLeft, Nat.shiftLeft_eq, Nat.shiftRight_eq_div_pow, up, Nat.two_pow_add_eq_or_of_lt down]
  rw [whole, Nat.mod_eq_of_lt (x.rotateLeft c).isLt]

/-! ## Counts -/

/-- The leading zeros of a lane are the bits above its highest set one. -/
theorem clzNat_spec {a : Nat} (ha : a < 2 ^ w) : (a = 0 → clzNat w a = w) ∧
    (a ≠ 0 → clzNat w a < w ∧ 2 ^ (w - 1 - clzNat w a) ≤ a ∧ a < 2 ^ (w - clzNat w a)) := by
  refine ⟨fun h0 => if_pos h0, fun h0 => ?_⟩
  have top : Nat.log2 a < w := (Nat.log2_lt h0).mpr ha
  rw [clzNat, if_neg h0, show w - 1 - (w - 1 - a.log2) = a.log2 by omega, show w - (w - 1 - a.log2) = a.log2 + 1 by omega]
  exact ⟨by omega, Nat.log2_self_le h0, Nat.lt_log2_self⟩

theorem popcNat_eq (w a : Nat) : popcNat w a = ((List.range w).filter a.testBit).length := by
  induction w generalizing a with
  | zero => rfl
  | succ w ih =>
    have higher : a.testBit ∘ Nat.succ = (a / 2).testBit := funext fun k => Nat.testBit_succ a k
    rw [popcNat, ih, List.range_succ_eq_map, List.filter_cons, List.filter_map, higher, Nat.testBit_zero]
    rcases Nat.mod_two_eq_zero_or_one a with h | h
    · simp [h]
    · simp [h, Nat.add_comm]

end Sys2Proof.Machine
end

section
/-! The statements on logic, shifts and counts, from the rules above. -/
namespace Sys2Proof.Machine

/-- Settles O6: each is its word operation on a lane of A and a lane of B. -/
theorem logicLaneResults : Obligations.LogicLaneResults := by
  unfold Obligations.LogicLaneResults
  intro s el b o h ht w A B
  refine ⟨logic_sets h ht (exec_and o s) (· &&& ·) fun x y => (BitVec.toNat_and x y).symm,
    logic_sets h ht (exec_or o s) (· ||| ·) fun x y => (BitVec.toNat_or x y).symm,
    logic_sets h ht (exec_xor o s) (· ^^^ ·) fun x y => (BitVec.toNat_xor x y).symm,
    logic_sets h ht (exec_andn o s) (· &&& ~~~·) fun x y => ?andn, logic_sets h ht (exec_orn o s) (· ||| ~~~·) fun x y => ?orn,
    logic_sets h ht (exec_xnor o s) (fun x y => ~~~(x ^^^ y)) fun x y => ?xnor⟩
  case andn => rw [notBits_toNat, ← BitVec.toNat_and]
  case orn => rw [notBits_toNat, ← BitVec.toNat_or]
  case xnor => rw [← BitVec.toNat_xor, notBits_toNat]

/-- Settles O7: each is its word operation on a lane of A, with the lane of B as the count. -/
theorem shiftLaneResults : Obligations.ShiftLaneResults := by
  unfold Obligations.ShiftLaneResults
  intro s el b o h ht w A c
  exact ⟨bitwise_sets h ht (exec_shl o s) _ shl_toNat, bitwise_sets h ht (exec_shr o s) _ shr_toNat,
    bitwise_sets h ht (exec_sar o s) _ (sar_toNat (laneWidth_pos o.t)),
    bitwise_sets h ht (exec_rol o s) _ (rol_toNat (laneWidth_pos o.t))⟩

/-- Settles O8: a lane of an integer type fits its width, so that its highest set bit gives its leading zeros. -/
theorem countLaneResults : Obligations.CountLaneResults := by
  unfold Obligations.CountLaneResults
  intro s el b o h ht w A
  refine ⟨⟨_, bitwise_sets_nat (fun w a _ => clzNat w a) h (exec_clz o s), fun j => clzNat_spec (srcA_lt _ ht j)⟩, ?_⟩
  simpa only [popcNat_eq] using bitwise_sets_nat (fun w a _ => popcNat w a) h (exec_popc o s)

end Sys2Proof.Machine
end

section
/-! The statement on RED and SCAN: what their values are of the active lanes (08 R135, R136). -/
namespace Sys2Proof.Machine

/-! ## The least and the greatest -/

theorem leastOf_eq_min {xs : List Int} (h : xs ≠ []) : leastOf xs = xs.min h := by
  obtain ⟨x, r, rfl⟩ := List.exists_cons_of_ne_nil h
  show r.foldl min (min x x) = _
  rw [min_self]
  rfl

theorem greatestOf_eq_max {xs : List Int} (h : xs ≠ []) : greatestOf xs = xs.max h := by
  obtain ⟨x, r, rfl⟩ := List.exists_cons_of_ne_nil h
  show r.foldl max (max x x) = _
  rw [max_self]
  rfl

theorem leastOf_spec {xs : List Int} (h : xs ≠ []) : leastOf xs ∈ xs ∧ ∀ x ∈ xs, leastOf xs ≤ x := by
  rw [leastOf_eq_min h]
  exact ⟨List.min_mem h, fun x hx => List.min_le_of_mem hx⟩

theorem greatestOf_spec {xs : List Int} (h : xs ≠ []) : greatestOf xs ∈ xs ∧ ∀ x ∈ xs, x ≤ greatestOf xs := by
  rw [greatestOf_eq_max h]
  exact ⟨List.max_mem h, fun x hx => List.le_max_of_mem hx⟩

/-- The least and the greatest of a list, as they are written to a lane. -/
theorem exists_extremes {xs : List Int} (h : xs ≠ []) (w : Nat) :
    (∃ m ∈ xs, (∀ x ∈ xs, m ≤ x) ∧ (wrapTo w (leastOf xs), (0 : Word)) = ((m % (2 ^ w : Nat)).toNat, 0)) ∧
      ∃ m ∈ xs, (∀ x ∈ xs, x ≤ m) ∧ (wrapTo w (greatestOf xs), (0 : Word)) = ((m % (2 ^ w : Nat)).toNat, 0) := by
  obtain ⟨least, below⟩ := leastOf_spec h
  obtain ⟨greatest, above⟩ := greatestOf_spec h
  exact ⟨⟨_, least, below, rfl⟩, _, greatest, above, rfl⟩

/-! ## Bit by bit -/

variable {w : Nat} {f : Nat → Nat → Nat}

theorem wrapTo_lt (w : Nat) (x : Int) : wrapTo w x < 2 ^ w := (BitVec.ofInt w x).isLt

theorem foldBits_cons (w : Nat) (f : Nat → Nat → Nat) (x : Int) (r : List Int) :
    foldBits w f (x :: r) = r.foldl (fun a y => f a (wrapTo w y)) (wrapTo w x) := List.foldl_map

theorem foldBits_lt (hf : ∀ {a c}, a < 2 ^ w → c < 2 ^ w → f a c < 2 ^ w) (x : Int) (r : List Int) :
    foldBits w f (x :: r) < 2 ^ w := by
  rw [foldBits_cons]
  exact List.foldlRecOn (motive := (· < 2 ^ w)) r _ (wrapTo_lt w x) fun a ha y _ => hf ha (wrapTo_lt w y)

/-- A fold of an operation on bits folds each bit by itself. -/
theorem testBit_foldBits {op : Bool → Bool → Bool} (hf : ∀ a c k, (f a c).testBit k = op (a.testBit k) (c.testBit k))
    (x : Int) (r : List Int) (k : Nat) :
    (foldBits w f (x :: r)).testBit k = r.foldl (fun v y => op v ((wrapTo w y).testBit k)) ((wrapTo w x).testBit k) := by
  rw [foldBits_cons]
  exact (List.foldl_hom (Nat.testBit · k) (g₁ := fun a y => f a (wrapTo w y)) fun a y => (hf a (wrapTo w y) k).symm).symm

theorem testBit_foldBits_and (w : Nat) (x : Int) (r : List Int) (k : Nat) :
    (foldBits w (· &&& ·) (x :: r)).testBit k = (x :: r).all fun y => (wrapTo w y).testBit k := by
  have fold (v : Bool) : r.foldl (fun v y => v && (wrapTo w y).testBit k) v = (v && r.all fun y => (wrapTo w y).testBit k) := by
    induction r generalizing v with
    | nil => rw [List.foldl_nil, List.all_nil, Bool.and_true]
    | cons y r ih => rw [List.foldl_cons, ih, List.all_cons, Bool.and_assoc]
  rw [testBit_foldBits Nat.testBit_and, fold, List.all_cons]

theorem testBit_foldBits_or (w : Nat) (x : Int) (r : List Int) (k : Nat) :
    (foldBits w (· ||| ·) (x :: r)).testBit k = (x :: r).any fun y => (wrapTo w y).testBit k := by
  have fold (v : Bool) : r.foldl (fun v y => v || (wrapTo w y).testBit k) v = (v || r.any fun y => (wrapTo w y).testBit k) := by
    induction r generalizing v with
    | nil => rw [List.foldl_nil, List.any_nil, Bool.or_false]
    | cons y r ih => rw [List.foldl_cons, ih, List.any_cons, Bool.or_assoc]
  rw [testBit_foldBits Nat.testBit_or, fold, List.any_cons]

/-- Exclusive or is the parity of the set bits. -/
theorem testBit_foldBits_xor (w : Nat) (x : Int) (r : List Int) (k : Nat) :
    (foldBits w (· ^^^ ·) (x :: r)).testBit k =
      decide (((x :: r).filter fun y => (wrapTo w y).testBit k).length % 2 = 1) := by
  have parity (v : Bool) : r.foldl (fun v y => v ^^ (wrapTo w y).testBit k) v =
      decide ((v.toNat + (r.filter fun y => (wrapTo w y).testBit k).length) % 2 = 1) := by
    induction r generalizing v with
    | nil => cases v <;> rfl
    | cons y r ih =>
      rw [List.foldl_cons, ih, List.filter_cons]
      cases (wrapTo w y).testBit k with
      | false => rw [Bool.xor_false, if_neg Bool.false_ne_true]
      | true =>
        rw [if_pos rfl, List.length_cons]
        cases v <;> simp <;> omega
  rw [testBit_foldBits Nat.testBit_xor, parity, List.filter_cons]
  cases (wrapTo w x).testBit k with
  | false => rw [if_neg Bool.false_ne_true, Bool.toNat_false, Nat.zero_add]
  | true => rw [if_pos rfl, List.length_cons, Bool.toNat_true, Nat.add_comm]

/-! ## RED and SCAN -/

theorem scanValue_isum (o : EA) (below upTo : List Int) : scanValue 0 o below upTo = writtenInt o upTo.sum :=
  narrow_written o _

theorem scanValue_xsum (o : EA) (below upTo : List Int) : scanValue 1 o below upTo = writtenInt o below.sum :=
  narrow_written o _

/-- Settles O12: both write lane by lane, and their values are folds over the active lanes. -/
theorem reductionsAndPrefixScans : Obligations.ReductionsAndPrefixScans := by
  unfold Obligations.ReductionsAndPrefixScans
  refine ⟨fun s el b o c h => ?lanes, fun o xs => ⟨narrow_written o xs.sum, fun hx => ?minmax, fun hx => ?bits,
    fun below hx => ?scan⟩⟩
  case lanes =>
    exact ⟨lanewise_sets h (exec_red c o s) fun _ _ => ⟨rfl, rfl⟩,
      lanewise_sets h (exec_scan 0 o s) fun j _ => by rw [scanValue_isum]; exact ⟨rfl, rfl⟩,
      lanewise_sets h (exec_scan 1 o s) fun j _ => by rw [scanValue_xsum]; exact ⟨rfl, rfl⟩,
      lanewise_sets h (exec_scan c o s) fun _ _ => ⟨rfl, rfl⟩⟩
  case minmax => exact exists_extremes hx (laneWidth o.t)
  case bits =>
    obtain ⟨x, r, rfl⟩ := List.exists_cons_of_ne_nil hx
    exact ⟨⟨foldBits_lt (fun _ hc => Nat.and_lt_two_pow _ hc) x r, rfl, fun k _ => testBit_foldBits_and _ x r k⟩,
      ⟨foldBits_lt Nat.or_lt_two_pow x r, rfl, fun k _ => testBit_foldBits_or _ x r k⟩,
      ⟨foldBits_lt Nat.xor_lt_two_pow x r, rfl, fun k _ => testBit_foldBits_xor _ x r k⟩⟩
  case scan => exact exists_extremes hx (laneWidth o.t)

end Sys2Proof.Machine
end

section
/-! The statement on the predicate instructions, from the rules on predicates (08 R137). -/
namespace Sys2Proof.Machine

variable {s : State} {el : Nat} {b : Block} {i : Instr}

/-- An instruction that gives a predicate other than p0 a new value, and raises no event. -/
theorem setPred_sets {words d : Nat} {v : Pred} {act f : Nat → Bool} (hd : d ≠ 0)
    (hi : exec i s = .next (blockMoves s el (b.setPred d v) words))
    (hv : ∀ j, j < 128 → v.getLsbD j = if act j then f j else (b.pred d).getLsbD j) :
    SetsPred s el b i words d act f fun _ => False := by
  have events : (b.setPred d v).events = b.events := by rw [b.setPred_frame]
  refine ⟨_, hi, ?_, fun p hp => b.pred_setPred_of_ne v hp, fun j hj => ?_, fun k => ?_⟩
  · rw [events]
    exact b.setPred_frame d v
  · rw [b.pred_setPred_self v hd, hv j hj]
  · rw [events, or_false]

/-- Settles O14: each gives its predicate a new value, PSET one that keeps the bits that govern no lane of T. -/
theorem predicateInstructions : Obligations.PredicateInstructions := by
  unfold Obligations.PredicateInstructions
  intro s el b o h hd A B w nz
  have hd' : o.d.toNat ≠ 0 := fun h0 => hd (BitVec.eq_of_toNat_eq h0)
  refine ⟨setPred_sets hd' ((exec_pand o s).trans (inBlock_ok 1 h rfl)) fun j _ => BitVec.getLsbD_and,
    setPred_sets hd' ((exec_por o s).trans (inBlock_ok 1 h rfl)) fun j _ => BitVec.getLsbD_or,
    setPred_sets hd' ((exec_pnot o s).trans (inBlock_ok 1 h rfl)) fun j hj => ?pnot,
    setPred_sets hd' ((exec_pset o s).trans (inLanes_next h)) fun j hj => ?pset⟩
  case pnot => simp [A, hj]
  case pset =>
    rw [getLsbD_setBits _ _ _ hj]
    simp only [decide_eq_true_eq]
    rfl

end Sys2Proof.Machine
end

section
/-! The statement on NOP, BRK and TRAP and on the tokens that a block sends and keeps (08 R120; 13 R192, R196, R197). -/
namespace Sys2Proof.Machine

/-- The colour of a token: the low half of the extension word is its truncation. -/
theorem esColour_eq (o : ES) (b : Block) : esColour o b = if o.mode = 1 then o.ext.setWidth 16 else b.colour := by
  rw [esColour, BitVec.setWidth_eq_extractLsb' (by decide)]

theorem exec_send_next {s : State} {el : Nat} {b : Block} (h : RunsBlock s el b) (o : ES) :
    exec (.send o) s = .next (blockMoves s el ((b.stage (.send o.port.toNat (sentToken o b (esKind o) (o.flags.getLsbD 0)
      (if o.flags.getLsbD 0 then lowBytes (esSource o b) 32 else esSource o b)))).keepSource o) (esWords o)) := by
  rw [exec_send, execSend, inBlock_ok _ h rfl, sentToken, esColour_eq]

/-- Settles O18: each moves its block on with its effect or decision, or takes its exception. -/
theorem sysAndTokenInstructions : Obligations.SysAndTokenInstructions := by
  unfold Obligations.SysAndTokenInstructions
  refine ⟨fun s el b code h => ⟨?nop, ?brk, ?trap⟩, fun s el b o h => ?_⟩
  case nop => exact (exec_nop s).trans (inBlock_ok 1 h rfl)
  case brk => exact (exec_brk code s).trans (inBlock_exc 1 h rfl)
  case trap => exact (exec_trap code s).trans (inBlock_exc 1 h rfl)
  intro words scalar v data kind keeps
  refine ⟨?send, ?last, (exec_drop o s).trans (inBlock_ok 1 h rfl), (exec_keep o s).trans (inBlock_ok 1 h rfl)⟩
  case send =>
    rw [exec_send_next h]
    by_cases hk : o.keep = 1
    · simp only [hk, Block.keepSource, if_true]
      rfl
    · simp only [hk, Block.keepSource, if_false]
      rfl
  case last =>
    rw [exec_last, execLast, inBlock_ok _ h rfl, esColour_eq]
    rfl

end Sys2Proof.Machine
end

section
/-! SUPPORT. What the floating-point lane instructions write, and the pairs of lanes of the complex ones (09 R139, R145 to
R148, R150). -/
namespace Sys2Proof.Machine

variable {s : State} {el : Nat} {b : Block} {o : EA} {i : Instr}

/-! ## Lanes of T -/

/-- A floating instruction writes its value of the encodings in A, B and D, lane by lane. -/
theorem floatLanes_sets {f : Fmt → Nat → Nat → Nat → Nat × Word} (h : RunsBlock s el b) (hi : exec i s = floatLanes s o f) :
    SetsLanes s el b o i fun j => f (fmtOfType o.t) (srcA (s.element el) el b o (layoutOf o.t) j)
      (srcB (s.element el) el b o (layoutOf o.t) j) (laneNat (b.temp o.d.toNat) (laneWidth o.t) j) :=
  lanewise_sets h hi fun _ _ => ⟨rfl, rfl⟩

/-- A special function writes its FP32 value; in bf16 its lane is widened first and the result rounded once more (09 R146). -/
theorem specialLanes_sets {n : Nat} (h : RunsBlock s el b) (hi : exec i s = specialLanes s o n) :
    SetsLanes s el b o i fun j =>
      if fmtOfType o.t = fmtF32 then specialFn n (srcA (s.element el) el b o (layoutOf o.t) j)
      else
        let wide := convertFloat fmtBf16 fmtF32 .rne (srcA (s.element el) el b o (layoutOf o.t) j)
        let r := specialFn n wide.1
        let out := convertFloat fmtF32 fmtBf16 .rne r.1
        (out.1, wide.2 ||| r.2 ||| out.2) := by
  unfold specialLanes at hi
  exact floatLanes_sets h hi

/-! ## FCMP -/

/-- The events raised of those lanes of a list that meet a condition. -/
theorem getLsbD_raise_foldOr (b : Block) (l : List Nat) (act : Nat → Bool) (e : Nat → Word) (k : Nat) :
    (b.raise (l.foldl (fun acc j => if act j then acc ||| e j else acc) 0)).events.getLsbD k = true ↔
      b.events.getLsbD k = true ∨ ∃ j ∈ l, act j = true ∧ (e j).getLsbD k = true := by
  rw [Block.raise, BitVec.getLsbD_or, Bool.or_eq_true, foldOr_bit]
  simp

/-- A test of lanes wider than 8 bits writes its predicate bit by bit, and raises the events of the active lanes. -/
theorem lanesTest_sets {words w : Nat} {r : Nat → Bool × Word} (hd : o.d.toNat ≠ 0) (hw : w ≠ 8)
    (hi : exec i s = .next (blockMoves s el ((writePred b o w fun j => (r j).1).raise
      ((List.range (lanesOf w)).foldl (fun e j => if b.active o w j then e ||| (r j).2 else e) 0)) words)) :
    SetsPred s el b i words o.d.toNat
      (fun j => decide (j < 2048 / w) && ((b.pred o.p.toNat).getLsbD j != decide (o.n = 1))) (fun j => (r j).1)
      fun k => ∃ j, j < lanesOf w ∧ b.active o w j = true ∧ (r j).2.getLsbD k = true := by
  obtain ⟨frame, others, bits⟩ := writePred_spec b o w (fun j => (r j).1) hd
  have events : (writePred b o w fun j => (r j).1).events = b.events := by rw [frame]
  refine ⟨_, hi, ?frame, others, fun j hj => ?bit, fun k => ?event⟩
  case frame => rw [frame]; rfl
  case bit =>
    have bit := bits j hj
    rwa [predBits, if_neg hw, lanesTest, if_neg hw] at bit
  case event => simp only [getLsbD_raise_foldOr, events, List.mem_range]

/-! ## FCVT -/

theorem fmtOfCode_width_dvd (c : Nat) : (fmtOfCode c).width ∣ 2048 := by
  unfold fmtOfCode
  split <;> decide

/-! ## Complex pairs -/

/-- What a complex instruction makes of the lanes of pair `j` in A, B and D. -/
def pairResult (f : Nat × Nat → Nat × Nat → Nat × Nat → (Nat × Word) × (Nat × Word)) (x : Element) (el : Nat) (b : Block)
    (o : EA) (j : Nat) : (Nat × Word) × (Nat × Word) :=
  let A := srcA x el b o (layoutOf o.t)
  let B := srcB x el b o (layoutOf o.t)
  let D := laneNat (b.temp o.d.toNat) 32
  f (A (2 * j), A (2 * j + 1)) (B (2 * j), B (2 * j + 1)) (D (2 * j), D (2 * j + 1))

/-- The lane of a pair of results that stands at index `j`: the first at an even index. -/
def pairLane (r : Nat → (Nat × Word) × (Nat × Word)) (j : Nat) : Nat × Word :=
  if j % 2 = 0 then (r (j / 2)).1 else (r (j / 2)).2

/-- A bit of both lanes of some active pair is a bit of some lane of them. -/
theorem exists_pair_iff_exists_lane (r : Nat → (Nat × Word) × (Nat × Word)) (act : Nat → Bool) (n k : Nat) :
    (∃ j < n, act j = true ∧ ((r j).1.2 ||| (r j).2.2).getLsbD k = true) ↔
      ∃ j < 2 * n, act (j / 2) = true ∧ (pairLane r j).2.getLsbD k = true := by
  simp only [BitVec.getLsbD_or, Bool.or_eq_true]
  constructor
  · rintro ⟨j, hj, ha, hk | hk⟩
    · exact ⟨2 * j, by omega, by simpa using ha, by simpa [pairLane] using hk⟩
    · have half : (2 * j + 1) / 2 = j := by omega
      exact ⟨2 * j + 1, by omega, by rwa [half], by simpa [pairLane, half, Nat.add_mod] using hk⟩
  · rintro ⟨j, hj, ha, hk⟩
    refine ⟨j / 2, by omega, ha, ?_⟩
    unfold pairLane at hk
    split at hk
    · exact .inl hk
    · exact .inr hk

/-- Writing both lanes of the active pairs of a temporary, with the events of both. -/
theorem setPairs_sets {words d : Nat} {act : Nat → Bool} {r : Nat → (Nat × Word) × (Nat × Word)}
    (hi : exec i s = .next (blockMoves s el ((b.setTemp d (setLanes (b.temp d) 32 fun j =>
        if act (j / 2) then some (if j % 2 = 0 then (r (j / 2)).1.1 else (r (j / 2)).2.1) else none)).raise
      ((List.range 32).foldl (fun e j => if act j then e ||| (r j).1.2 ||| (r j).2.2 else e) 0)) words)) :
    SetsTemp s el b i words d 32 (fun j => act (j / 2)) (pairLane r) := by
  refine ⟨_, hi, rfl, fun t ht => b.temp_setTemp_of_ne _ t _ ht, fun j hj => ?lane, fun k => ?event⟩
  case lane =>
    refine (congrArg (laneNat · 32 j) (b.temp_setTemp_self _ _)).trans ((laneNat_setLanes (by decide) _ _ j hj).trans ?_)
    show _ = if act (j / 2) then _ else _
    cases act (j / 2) with
    | false => rfl
    | true => rw [pairLane, apply_ite Prod.fst]; rfl
  case event =>
    simp only [BitVec.or_assoc, getLsbD_raise_foldOr, List.mem_range, exists_pair_iff_exists_lane]
    rfl

/-- A complex instruction writes the lanes of its active pairs. -/
theorem complexLanes_sets {f : Nat × Nat → Nat × Nat → Nat × Nat → (Nat × Word) × (Nat × Word)} {g : Nat → Nat × Word}
    (h : RunsBlock s el b) (hi : exec i s = complexLanes s o f)
    (hg : ∀ j, pairLane (pairResult f (s.element el) el b o) j = g j) :
    SetsTemp s el b i (eaWords o) o.d.toNat 32 (fun j => b.active o 32 (2 * (j / 2))) g := by
  obtain rfl := funext hg
  exact setPairs_sets (act := fun j => b.active o 32 (2 * j)) (hi.trans (inLanes_next h))

end Sys2Proof.Machine
end

section
/-! The statements on the floating-point instructions, from the rules above (09 R139, R142 to R150; 05 R80). -/
namespace Sys2Proof.Machine

/-- Settles O15: each is a floating instruction whose value of a lane is the one stated. -/
theorem floatLaneResults : Obligations.FloatLaneResults := by
  unfold Obligations.FloatLaneResults
  intro s el b o h f rm A B D sign
  exact ⟨floatLanes_sets h (exec_fadd o s), floatLanes_sets h (exec_fsub o s), floatLanes_sets h (exec_fmul o s),
    floatLanes_sets h (exec_fma o s), floatLanes_sets h (exec_fms o s), floatLanes_sets h (exec_fnma o s),
    floatLanes_sets h (exec_fmin o s), floatLanes_sets h (exec_fmax o s), floatLanes_sets h (exec_fabs o s),
    floatLanes_sets h (exec_fneg o s)⟩

/-- Settles O16: FCMP writes a predicate with the events of its lanes, CMUL and CMAD write pairs of lanes, and the others write
lane by lane. -/
theorem floatComparisonsAndFunctions : Obligations.FloatComparisonsAndFunctions := by
  unfold Obligations.FloatComparisonsAndFunctions
  intro s el b o c h f w x A B D fn src wd re
  refine ⟨fun hd hw => ?fcmp, specialLanes_sets h (exec_frcp o s), specialLanes_sets h (exec_frsq o s),
    specialLanes_sets h (exec_fexp2 o s), specialLanes_sets h (exec_flog2 o s), specialLanes_sets h (exec_ftanh o s),
    ?fcvt, lanewise_sets h (exec_fred c o s) fun _ _ => ⟨rfl, rfl⟩, ?cmul, ?cmad⟩
  case fcmp =>
    have next := (exec_fcmp c o s).trans (inLanes_next h)
    exact lanesTest_sets (r := fun j => floatCond f c (A j) (B j)) (fun h0 => hd (BitVec.eq_of_toNat_eq h0)) hw next
  case fcvt =>
    exact ⟨_, (exec_fcvt o s).trans (inBlock_ok _ h rfl), writeLanes_spec b o _ _ (fmtOfCode_width_dvd _)⟩
  case cmul =>
    refine complexLanes_sets h (exec_cmul o s) fun j => ?_
    by_cases hj : j % 2 = 0 <;> simp [pairLane, pairResult, re, A, B, x, hj]
  case cmad =>
    refine complexLanes_sets h (exec_cmad o s) fun j => ?_
    by_cases hj : j % 2 = 0
    · have even : 2 * (j / 2) = j := by omega
      simp [pairLane, pairResult, re, A, B, D, x, hj, even]
    · have odd : 2 * (j / 2) + 1 = j := by omega
      simp [pairLane, pairResult, re, A, B, D, x, hj, odd]

end Sys2Proof.Machine
end

section
/-! SUPPORT. The accumulators in work: what an addition and a floating result leave in each cell, and how the cells stand in a block
(04 R50; 10 R153, R156). -/
namespace Sys2Proof.Machine

/-! ## Words of an accumulator, as integers modulo their width -/

theorem wrapTo_modEq (w : Nat) (x : Int) : (wrapTo w x : Int) ≡ x [ZMOD (2 ^ w : Nat)] := by
  rw [wrapTo, Int.toNat_of_nonneg (Int.emod_nonneg _ (by positivity))]
  exact Int.mod_modEq _ _

theorem wrapTo_congr {w : Nat} {x y : Int} (h : x ≡ y [ZMOD (2 ^ w : Nat)]) : wrapTo w x = wrapTo w y := congrArg Int.toNat h

theorem signedOf_modEq (w v : Nat) : signedOf w v ≡ v [ZMOD (2 ^ w : Nat)] := by
  have low : ((v % 2 ^ w : Nat) : Int) ≡ v [ZMOD (2 ^ w : Nat)] := by
    rw [Int.natCast_mod]
    exact Int.mod_modEq _ _
  rw [signedOf]
  split
  · exact low
  · exact (Int.modEq_sub_modulus_iff.mpr low.symm).symm

theorem cellOf_lt (w n : Nat) : cellOf w n < 2 ^ 64 := wrapTo_lt 64 _

/-- A cell keeps the word that it extends. -/
theorem cellOf_modEq {w : Nat} (hw : w ≤ 64) (n : Nat) : (cellOf w n : Int) ≡ n [ZMOD (2 ^ w : Nat)] :=
  ((wrapTo_modEq 64 _).of_dvd (Int.natCast_dvd_natCast.mpr (pow_dvd_pow 2 hw))).trans (signedOf_modEq w n)

/-- An exact sum as it stands in a cell: wrapped to the accumulator's width, then sign-extended. -/
def sumCell (w : Nat) (z : Int) : Nat := cellOf w (wrapTo w z)

theorem sumCell_lt (w : Nat) (z : Int) : sumCell w z < 2 ^ 64 := cellOf_lt w _

/-- What is read back of a sum is the sum modulo 2^w. -/
theorem signedOf_sumCell {w : Nat} (hw : w ≤ 64) (z : Int) : signedOf w (sumCell w z) ≡ z [ZMOD (2 ^ w : Nat)] :=
  (signedOf_modEq w _).trans ((cellOf_modEq hw _).trans (wrapTo_modEq w z))

theorem sumCell_congr {w : Nat} {x y : Int} (h : x ≡ y [ZMOD (2 ^ w : Nat)]) : sumCell w x = sumCell w y :=
  congrArg (cellOf w) (wrapTo_congr h)

/-- Sums may be wrapped at each addition or once at the end. -/
theorem sumCell_signedOf_add {w : Nat} (hw : w ≤ 64) (y z : Int) : sumCell w (signedOf w (sumCell w y) + z) = sumCell w (y + z) :=
  sumCell_congr ((signedOf_sumCell hw y).add_right z)

theorem accWidth_le (lanes : Nat) : accWidth lanes ≤ 64 := by
  unfold accWidth
  split <;> decide

theorem columnsOf_le (lanes : Nat) : columnsOf lanes ≤ 128 := by
  unfold columnsOf
  split <;> decide

/-! ## Writing the covered columns -/

theorem getD_map_range_append_drop (cells : List Nat) (n : Nat) (f : Nat → Nat) (i : Nat) :
    ((List.range n).map f ++ cells.drop n).getD i 0 = if i < n then f i else cells.getD i 0 := by
  split
  next h => rw [List.getD_append _ _ _ _ (by simpa using h)]; simp [List.getD, h]
  next h =>
    rw [List.getD_append_right _ _ _ _ (by simpa using h)]
    simp [List.getD, Nat.add_sub_cancel' (Nat.le_of_not_lt h)]

namespace Accs

variable (a : Accs) {lanes : Nat} (f : Nat → Int)

@[simp] theorem addInts_fp : (a.addInts lanes f).fp = a.fp := rfl

theorem addInts_cell (n : Nat) : (a.addInts lanes f).cells.getD n 0 =
    if n < columnsOf lanes then sumCell (accWidth lanes) (signedOf (accWidth lanes) (a.cells.getD n 0) + f n)
    else a.cells.getD n 0 := by
  rw [addInts, List.map_map]
  exact getD_map_range_append_drop _ _ _ n

theorem addInts_length (h : a.cells.length = 128) : (a.addInts lanes f).cells.length = 128 := by
  have := columnsOf_le lanes
  simp only [addInts, List.length_append, List.length_map, List.length_range, List.length_drop, h]
  omega

theorem writeFloats_cell (m : Nat) (g : Nat → Nat × Word) (n : Nat) :
    (a.writeFloats m g).cells.getD n 0 = if n < m then (g n).1 else a.cells.getD n 0 := by
  rw [writeFloats, List.map_map]
  exact getD_map_range_append_drop _ _ _ n

theorem writeFloats_length {m : Nat} (hm : m ≤ 128) (g : Nat → Nat × Word) (h : a.cells.length = 128) :
    (a.writeFloats m g).cells.length = 128 := by
  simp only [writeFloats, List.length_append, List.length_map, List.length_range, List.length_drop, h]
  omega

end Accs

/-! ## Accumulators in a block -/

/-- Cell `n` of the accumulators. -/
def Block.cell (b : Block) (n : Nat) : Nat := b.acc.toNat / 2 ^ (64 * n) % 2 ^ 64

theorem Block.accs_length (b : Block) : b.accs.cells.length = 128 := by
  simp [Block.accs, accCells]

theorem Block.accs_cell (b : Block) {n : Nat} (h : n < 128) : b.accs.cells.getD n 0 = b.cell n := by
  simp [Block.accs, accCells, List.getD, h, Block.cell]

/-- The block holds what the accumulators in work hold. -/
theorem Block.cell_withAccs (b : Block) {a : Accs} (c : Cursor) (h : a.cells.length = 128) {n z : Nat}
    (hz : a.cells.getD n 0 = z) (hlt : z < 2 ^ 64) : (b.withAccs a c).cell n = z := by
  show (BitVec.ofNat 8192 (packLanes 64 a.cells)).toNat / 2 ^ (64 * n) % 2 ^ 64 = z
  rw [BitVec.toNat_ofNat, show 8192 = 64 * 128 from rfl, ← h, Nat.mod_eq_of_lt (packLanes_lt 64 _), packLanes_lane, hz,
    Nat.mod_eq_of_lt hlt]

end Sys2Proof.Machine
end

section
/-! The statement on a step of a train, from the rules on accumulators (03 R29; 04 R50; 10 R156). -/
namespace Sys2Proof.Machine

/-- Into integer accumulators a step adds v times the table difference, column by column. -/
theorem Accs.step_of_integer {a : Accs} (h : a.fp = false) (x : Element) (mode lanes : Nat) (v : Int) (p len : Nat) :
    a.step x mode lanes v p len =
      .ok (a.addInts lanes fun n => v * (tableEntry x mode (p + len) n - tableEntry x mode p n)) := by
  rw [Accs.step, if_neg (by simp [h])]

/-- Settles O24: a step is one addition to every covered column. -/
theorem segmentStepAddsTableDifference : Obligations.SegmentStepAddsTableDifference := by
  unfold Obligations.SegmentStepAddsTableDifference
  intro a x mode lanes v p len hfp hlen
  exact ⟨_, a.step_of_integer hfp x mode lanes v p len, hfp, a.addInts_length _ hlen, fun n _ => a.addInts_cell _ n⟩

end Sys2Proof.Machine
end

section
/-! The statement on SEGMAC and SEGDEN, from the rules on blocks and on the items of a train (10 R156 to R160). -/
namespace Sys2Proof.Machine

/-! ## Items that accumulators of FP32 kind refuse -/

section
variable {a : Accs} {x : Element} {b : Block} {o : EG} {mode lanes : Nat} {rest : List TrainItem}

theorem Accs.items_step_of_fp (h : a.fp = true) (v : Int) (p len : Nat) :
    a.items x b o mode lanes (.step v p len :: rest) = .error kindFault := by
  rw [Accs.items, Accs.step, if_pos h]

theorem Accs.combine_of_fp (h : a.fp = true) (sums : mode = 2 ∨ mode = 4 ∨ mode = 5) :
    a.combine x b o mode lanes = .error kindFault := by
  rcases sums with rfl | rfl | rfl <;> simp [Accs.combine, h]

theorem Accs.items_close_of_fp (h : a.fp = true) (sums : o.accMode = 1 ∧ (mode = 2 ∨ mode = 4 ∨ mode = 5)) :
    a.items x b o mode lanes (.close :: rest) = .error kindFault := by
  rw [Accs.items, if_pos sums.1, Accs.combine_of_fp h sums.2]

end

/-! ## SEGMAC -/

section
variable {s : State} {el : Nat} {b : Block} {o : EG}

/-- The items, the cursor and the fault of the token that a SEGMAC consumes. -/
def segmacTrain (b : Block) (o : EG) : List TrainItem × Cursor × Option (Nat × Nat) :=
  trainWords .segmac b 0 (operandWords b o.port.toNat) b.cursor false

/-- What the items of a SEGMAC or a SEGDEN make of the accumulators of its block. -/
def segmentItems (x : Element) (b : Block) (o : EG) (items : List TrainItem) : Except FaultInfo Accs :=
  b.accs.items x b o (egMode x b o) (lanesMode x b.ctx.toNat) items

theorem exec_segmac_taken (h : RunsBlock s el b) (taken : cursorTaken b.cursor .segmac b = true) :
    exec (.segmac o) s = .next (takeBlockException s el b (segmentFault 9 0)) :=
  (exec_segmac o s).trans (inBlock_exc 1 h (if_pos taken))

theorem exec_segmac_error {f : FaultInfo} (h : RunsBlock s el b) (free : cursorTaken b.cursor .segmac b = false)
    (hf : segmentItems (s.element el) b o (segmacTrain b o).1 = .error f) :
    exec (.segmac o) s = .next (takeBlockException s el b f) := by
  refine (exec_segmac o s).trans (inBlock_exc 1 h ((if_neg (Bool.eq_false_iff.mp free)).trans ?_))
  dsimp only [segmentItems, segmacTrain] at hf ⊢
  rw [hf]

theorem exec_segmac_badWord {a : Accs} {reason w : Nat} (h : RunsBlock s el b) (free : cursorTaken b.cursor .segmac b = false)
    (ha : segmentItems (s.element el) b o (segmacTrain b o).1 = .ok a) (hw : (segmacTrain b o).2.2 = some (reason, w)) :
    exec (.segmac o) s = .next (takeBlockException s el b (segmentFault reason w)) := by
  refine (exec_segmac o s).trans (inBlock_exc 1 h ((if_neg (Bool.eq_false_iff.mp free)).trans ?_))
  dsimp only [segmentItems, segmacTrain] at ha hw ⊢
  rw [ha, hw]

theorem exec_segmac_next {a : Accs} (h : RunsBlock s el b) (free : cursorTaken b.cursor .segmac b = false)
    (ha : segmentItems (s.element el) b o (segmacTrain b o).1 = .ok a) (hw : (segmacTrain b o).2.2 = none) :
    exec (.segmac o) s = .next (blockMoves s el (chainNote (b.withAccs a (segmacTrain b o).2.1) o
      (egMode (s.element el) b o = 5) ((segmacTrain b o).1.contains .close)) 1) := by
  refine (exec_segmac o s).trans (inBlock_ok 1 h ((if_neg (Bool.eq_false_iff.mp free)).trans ?_))
  dsimp only [segmentItems, segmacTrain] at ha hw ⊢
  rw [ha, hw]

/-! ## SEGDEN -/

/-- The values of a SEGDEN that step: one at each position whose byte is not 0. -/
def segdenSteps (b : Block) (o : EG) : List TrainItem :=
  let v (p : Nat) : Int := signedOf 8 (vecByte (b.operand o.port.toNat) p).toNat
  ((List.range 256).filter fun p => v p ≠ 0).map fun p => .step (v p) p 1

theorem exec_segden_taken (h : RunsBlock s el b) (taken : b.cursor.isOpen = true) :
    exec (.segden o) s = .next (takeBlockException s el b (segmentFault 9 0)) :=
  (exec_segden o s).trans (inBlock_exc 1 h (if_pos taken))

theorem exec_segden_error {f : FaultInfo} (h : RunsBlock s el b) (free : b.cursor.isOpen = false)
    (hf : segmentItems (s.element el) b o (segdenSteps b o ++ [.close]) = .error f) :
    exec (.segden o) s = .next (takeBlockException s el b f) := by
  refine (exec_segden o s).trans (inBlock_exc 1 h ((if_neg (Bool.eq_false_iff.mp free)).trans ?_))
  dsimp only [segmentItems, segdenSteps] at hf ⊢
  rw [hf]

theorem exec_segden_next {a : Accs} (h : RunsBlock s el b) (free : b.cursor.isOpen = false)
    (ha : segmentItems (s.element el) b o (segdenSteps b o ++ [.close]) = .ok a) :
    exec (.segden o) s = .next (blockMoves s el (b.withAccs a { b.cursor with isOpen := false }) 1) := by
  refine (exec_segden o s).trans (inBlock_ok 1 h ((if_neg (Bool.eq_false_iff.mp free)).trans ?_))
  dsimp only [segmentItems, segdenSteps] at ha ⊢
  rw [ha]

/-- A SEGDEN begins with a step unless every one of its values is 0. -/
theorem segdenSteps_cases (b : Block) (o : EG) :
    (segdenSteps b o = [] ∧ ∀ p < 256, signedOf 8 (vecByte (b.operand o.port.toNat) p).toNat = 0) ∨
      ∃ v p len rest, segdenSteps b o = .step v p len :: rest := by
  rcases hs : segdenSteps b o with _ | ⟨i, rest⟩
  · refine .inl ⟨rfl, fun p hp => ?_⟩
    have none := List.filter_eq_nil_iff.mp (List.map_eq_nil_iff.mp hs) p (List.mem_range.mpr hp)
    simpa using none
  · obtain ⟨p, -, rfl⟩ := List.mem_map.mp (hs ▸ List.mem_cons_self)
    exact .inr ⟨_, _, _, rest, rfl⟩

end

/-- Settles O25: the first of the cursor, the items and the words that is at fault decides; else the items give the accumulators. -/
theorem segmacAndSegden : Obligations.SegmacAndSegden := by
  unfold Obligations.SegmacAndSegden
  intro s el b o h x mode lanes t v items
  refine ⟨fun a free ha ht => exec_segmac_next h free ha ht, fun a free ha => exec_segden_next h free ha, exec_segmac_taken h,
    fun a reason w free ha ht => exec_segmac_badWord h free ha ht, exec_segden_taken h, ?_⟩
  intro hfp kind sums
  refine ⟨fun v' p n rest free ht => ?_, fun rest free ht hsums => ?_, fun free why => ?_⟩
  · exact exec_segmac_error h free ((congrArg _ ht).trans (Accs.items_step_of_fp hfp _ _ _))
  · exact exec_segmac_error h free ((congrArg _ ht).trans (Accs.items_close_of_fp hfp hsums))
  · refine exec_segden_error h free ?_
    obtain ⟨nil, zero⟩ | ⟨v', p, len, rest, cons⟩ := segdenSteps_cases b o
    · obtain ⟨p, hp, hv⟩ | hsums := why
      · exact absurd (zero p hp) hv
      · rw [nil]
        exact Accs.items_close_of_fp hfp hsums
    · rw [cons]
      exact Accs.items_step_of_fp hfp _ _ _

end Sys2Proof.Machine
end

section
/-! SUPPORT. What DROW, BWDOT and DIFF put into the accumulators, and how their cursor moves from token to token and from window to
window (10 R158, R162 to R164; 04 R63). -/
namespace Sys2Proof.Machine

/-! ## FP32 results fit their cell -/

theorem signOf_fmtF32_le (neg : Bool) : signOf fmtF32 neg ≤ 2 ^ 31 := by
  cases neg <;> decide

theorem overflowBits_le (f : Fmt) (rm : Rounding) (neg : Bool) (h : f.largest ≤ f.infinity) :
    overflowBits f rm neg ≤ f.infinity := by
  cases rm <;> cases neg <;> simp [overflowBits, h]

theorem round_fmtF32_lt (rm : Rounding) (neg : Bool) (m : Nat) (e : Int) : (fmtF32.round rm neg m e).1 < 2 ^ 32 := by
  have sign := signOf_fmtF32_le neg
  have beyond := overflowBits_le fmtF32 rm neg (by decide)
  have inf : fmtF32.infinity < 2 ^ 31 := by decide
  have largest : fmtF32.largest < 2 ^ 31 := by decide
  unfold Fmt.round
  split
  · dsimp only
    omega
  · dsimp only
    generalize (if _ < 2 ^ fmtF32.mb then _ else _) = bits
    rw [if_neg (by decide : ¬fmtF32.e4m3 = true)]
    split <;> dsimp only <;> omega

theorem encode_fmtF32_lt (rm : Rounding) (v : FVal) : (fmtF32.encode rm v).1 < 2 ^ 32 := by
  cases v with
  | nan s => exact (by decide : fmtF32.nan < 2 ^ 32)
  | inf neg =>
    have sign := signOf_fmtF32_le neg
    have inf : fmtF32.infinity < 2 ^ 31 := by decide
    rw [Fmt.encode, if_neg (by decide)]
    dsimp only
    omega
  | fin neg m e => exact round_fmtF32_lt rm neg m e

theorem macF32_lt (f : Fmt) (acc a w : Nat) : (macF32 f acc a w).1 < 2 ^ 32 := encode_fmtF32_lt _ _
theorem addF32_lt (a b : Nat) : (addF32 a b).1 < 2 ^ 32 := encode_fmtF32_lt _ _
theorem scaleInt_lt (x : Int) (g : Nat) : (scaleInt x g).1 < 2 ^ 32 := encode_fmtF32_lt _ _

/-! ## One addition after another -/

namespace Accs

variable {lanes n : Nat} {l : List Nat}

theorem foldl_addInts_fp (g : Nat → Nat → Int) (l : List Nat) (a : Accs) :
    (l.foldl (fun a i => a.addInts lanes (g i)) a).fp = a.fp :=
  List.foldlRecOn (motive := fun c : Accs => c.fp = a.fp) l _ rfl fun _ hc _ _ => hc

theorem foldl_addInts_length (g : Nat → Nat → Int) (l : List Nat) {a : Accs} (h : a.cells.length = 128) :
    (l.foldl (fun a i => a.addInts lanes (g i)) a).cells.length = 128 :=
  List.foldlRecOn (motive := fun c : Accs => c.cells.length = 128) l _ h fun c hc i _ => c.addInts_length (g i) hc

/-- Integers added one after another leave their sum. -/
theorem foldl_addInts_cell (g : Nat → Nat → Int) (hl : l ≠ []) (hn : n < columnsOf lanes) (a : Accs) :
    (l.foldl (fun a i => a.addInts lanes (g i)) a).cells.getD n 0 =
      sumCell (accWidth lanes) (signedOf (accWidth lanes) (a.cells.getD n 0) + (l.map fun i => g i n).sum) := by
  obtain ⟨i, l, rfl⟩ := List.exists_cons_of_ne_nil hl
  clear hl
  induction l generalizing i a with
  | nil => rw [List.foldl_cons, List.foldl_nil, addInts_cell, if_pos hn, List.map_singleton, List.sum_singleton]
  | cons j l ih =>
    rw [List.foldl_cons, ih, addInts_cell, if_pos hn, sumCell_signedOf_add (accWidth_le lanes), List.map_cons (l := j :: l),
      List.sum_cons, add_assoc]

theorem foldl_writeFloats_length (m : Nat → Nat → Nat → Nat × Word) (l : List Nat) {a : Accs} (h : a.cells.length = 128) :
    (l.foldl (fun a i => a.writeFloats 64 fun n => m i (a.cells.getD n 0 % 2 ^ 32) n) a).cells.length = 128 :=
  List.foldlRecOn (motive := fun c : Accs => c.cells.length = 128) l _ h fun c hc _ _ => c.writeFloats_length (by decide) _ hc

/-- FP32 additions one after another, each from the result of the one before, leave the last result. -/
theorem foldl_writeFloats_cell (m : Nat → Nat → Nat → Nat × Word) (fits : ∀ i acc n, (m i acc n).1 < 2 ^ 32) (hl : l ≠ [])
    (hn : n < 64) (a : Accs) :
    let b := l.foldl (fun a i => a.writeFloats 64 fun n => m i (a.cells.getD n 0 % 2 ^ 32) n) a
    b.fp = true ∧ b.cells.getD n 0 = l.foldl (fun acc i => (m i acc n).1) (a.cells.getD n 0 % 2 ^ 32) := by
  obtain ⟨i, l, rfl⟩ := List.exists_cons_of_ne_nil hl
  clear hl
  induction l generalizing i a with
  | nil => exact ⟨rfl, (writeFloats_cell a 64 _ n).trans (if_pos hn)⟩
  | cons j l ih =>
    obtain ⟨fp, cell⟩ := ih (a.writeFloats 64 fun n => m i (a.cells.getD n 0 % 2 ^ 32) n) j
    refine ⟨fp, cell.trans ?_⟩
    rw [writeFloats_cell, if_pos hn, Nat.mod_eq_of_lt (fits _ _ _)]
    rfl

end Accs

/-! ## Tokens and windows -/

/-- The index of the token or window that stands next. -/
def windowIndex (b : Block) : Nat := if b.cursor.isOpen then b.cursor.left else 0

/-- A cursor goes on behind token or window `k`, the last of which closes it. -/
def MovesOn (k last : Nat) (c : Cursor) : Prop :=
  (k < last → c.isOpen = true ∧ c.left = k + 1) ∧ (last ≤ k → c.isOpen = false)

theorem movesOn_ite {k last : Nat} {c d : Cursor} (hc : c.isOpen = true ∧ c.left = k + 1) (hd : d.isOpen = false) :
    MovesOn k last (if k < last then c else d) :=
  ⟨fun h => by rwa [if_pos h], fun h => by rwa [if_neg h.not_gt]⟩

theorem nextWindow_moves (owner : CursorOwner) (b : Block) (k : Nat) {wd : Nat} (h : 0 < 256 / wd) (pprev : DWord) :
    MovesOn k (256 / wd - 1) (nextWindow owner b k wd pprev) := by
  have before : k + 1 < 256 / wd ↔ k < 256 / wd - 1 := by omega
  simp only [nextWindow, before]
  exact movesOn_ite ⟨rfl, rfl⟩ rfl

theorem nextWindow_pprev (owner : CursorOwner) (b : Block) (k wd : Nat) (pprev : DWord) :
    (nextWindow owner b k wd pprev).pprev = pprev := by
  unfold nextWindow
  split <;> rfl

theorem windowOf_cases (mode lanes : Nat) : windowOf mode lanes = 128 ∨ windowOf mode lanes = 64 := by
  unfold windowOf
  split
  · exact .inl rfl
  · exact .inr rfl

theorem windowOf_le (mode lanes : Nat) : windowOf mode lanes ≤ 128 := by
  rcases windowOf_cases mode lanes with h | h <;> omega

theorem windows_pos (mode lanes : Nat) : 0 < 256 / windowOf mode lanes := by
  rcases windowOf_cases mode lanes with h | h <;> rw [h] <;> decide

section
variable {s : State} {el : Nat} {b : Block} {o : EG} {x : Element} {mode lanes n : Nat}

/-! ## DROW (10 R161, R162) -/

/-- The rows of DROW's token added to the accumulators of its block. -/
def denseSums (x : Element) (b : Block) (o : EG) (mode lanes : Nat) : Accs :=
  (List.range (if mode = 1 then 128 else 256)).foldl (denseRow x b o.port.toNat mode lanes (windowIndex b)) b.accs

/-- The last token of a dense table. -/
def drowLast (mode : Nat) : Nat := if mode = 2 then 1 else 3

/-- The accumulators behind a DROW: the last token of a table adds the partial in CHAIN mode. -/
def drowAccs (x : Element) (b : Block) (o : EG) (mode lanes : Nat) : Except FaultInfo Accs :=
  if o.accMode = 1 ∧ drowLast mode ≤ windowIndex b then (denseSums x b o mode lanes).combine x b o mode lanes
  else .ok (denseSums x b o mode lanes)

/-- The cursor behind a DROW. -/
def drowCursor (b : Block) (mode : Nat) : Cursor :=
  if windowIndex b < drowLast mode then { openCursor .drow b with left := windowIndex b + 1, pprev := b.cursor.pprev }
  else { b.cursor with isOpen := false }

theorem drowCursor_moves (b : Block) (mode : Nat) : MovesOn (windowIndex b) (drowLast mode) (drowCursor b mode) :=
  movesOn_ite ⟨rfl, rfl⟩ rfl

theorem exec_drow_next {a : Accs} (h : RunsBlock s el b) (free : cursorTaken b.cursor .drow b = false)
    (kind : ¬(egMode (s.element el) b o = 2 ∧ b.accFp = true))
    (ha : drowAccs (s.element el) b o (egMode (s.element el) b o) (lanesMode (s.element el) b.ctx.toNat) = .ok a) :
    exec (.drow o) s = .next (blockMoves s el (b.withAccs a (drowCursor b (egMode (s.element el) b o))) 1) := by
  refine (exec_drow o s).trans (inBlock_ok 1 h ((if_neg (Bool.eq_false_iff.mp free)).trans ((if_neg kind).trans ?_)))
  unfold drowAccs at ha
  by_cases last : windowIndex b < drowLast (egMode (s.element el) b o)
  · rw [if_neg fun hc => hc.2.not_gt last, Except.ok.injEq] at ha
    rw [drowCursor, if_pos last, ← ha]
    exact if_pos last
  · rw [drowCursor, if_neg last]
    refine (if_neg last).trans ?_
    by_cases hc : o.accMode = 1
    · rw [if_pos ⟨hc, Nat.le_of_not_lt last⟩] at ha
      refine (if_pos hc).trans ?_
      dsimp only [denseSums, windowIndex] at ha ⊢
      rw [ha]
    · rw [if_neg fun h => hc h.1, Except.ok.injEq] at ha
      rw [← ha]
      exact if_neg hc

theorem exec_drow_taken (h : RunsBlock s el b) (taken : cursorTaken b.cursor .drow b = true) :
    exec (.drow o) s = .next (takeBlockException s el b (segmentFault 9 0)) :=
  (exec_drow o s).trans (inBlock_exc 1 h (if_pos taken))

theorem exec_drow_kind (h : RunsBlock s el b) (free : cursorTaken b.cursor .drow b = false)
    (kind : egMode (s.element el) b o = 2 ∧ b.accFp = true) :
    exec (.drow o) s = .next (takeBlockException s el b kindFault) :=
  (exec_drow o s).trans (inBlock_exc 1 h ((if_neg (Bool.eq_false_iff.mp free)).trans (if_pos kind)))

/-- What a row of int8 weights adds to a column. -/
def intProduct (x : Element) (b : Block) (o : EG) (i n : Nat) : Int :=
  signedOf 8 (laneNat (b.operand o.port.toNat) 8 i) * signedOf 8 (denseWeight x 2 (256 * windowIndex b + i) n)

theorem denseSums_int (x : Element) (b : Block) (o : EG) (lanes : Nat) : denseSums x b o 2 lanes =
    (List.range 256).foldl (fun a i => a.addInts lanes (intProduct x b o i)) b.accs := rfl

/-- DROW of int8 leaves in each covered column what was there, the products of its token, and the partial that it adds. -/
theorem drowAccs_int (x : Element) (o : EG) (lanes : Nat) (h : b.accFp = false) :
    ∃ a, drowAccs x b o 2 lanes = .ok a ∧ a.fp = false ∧ a.cells.length = 128 ∧ ∀ n, n < columnsOf lanes →
      a.cells.getD n 0 = sumCell (accWidth lanes) (signedOf (accWidth lanes) (b.cell n) +
        ((List.range 256).map fun i => intProduct x b o i n).sum +
        if o.accMode = 1 ∧ 1 ≤ windowIndex b then intPartial b o.oport.toNat lanes n else 0) := by
  have fp : (denseSums x b o 2 lanes).fp = false := (Accs.foldl_addInts_fp _ _ _).trans h
  have length : (denseSums x b o 2 lanes).cells.length = 128 := Accs.foldl_addInts_length _ _ b.accs_length
  have cell (n : Nat) (hn : n < columnsOf lanes) : (denseSums x b o 2 lanes).cells.getD n 0 = sumCell (accWidth lanes)
      (signedOf (accWidth lanes) (b.cell n) + ((List.range 256).map fun i => intProduct x b o i n).sum) := by
    rw [denseSums_int, Accs.foldl_addInts_cell _ (by simp) hn, b.accs_cell (hn.trans_le (columnsOf_le lanes))]
  by_cases hc : o.accMode = 1 ∧ 1 ≤ windowIndex b
  · refine ⟨(denseSums x b o 2 lanes).addInts lanes (intPartial b o.oport.toNat lanes), ?_,
      (Accs.addInts_fp _ _).trans fp,      Accs.addInts_length _ _ length, fun n hn => ?_⟩
    · rw [drowAccs, drowLast, if_pos rfl, if_pos hc, Accs.combine, if_pos (.inr rfl), if_neg (Bool.eq_false_iff.mp fp)]
    · rw [Accs.addInts_cell, if_pos hn, cell n hn, sumCell_signedOf_add (accWidth_le lanes), if_pos hc]
  · refine ⟨_, if_neg hc, fp, length, fun n hn => ?_⟩
    rw [if_neg hc, add_zero, cell n hn]

/-- The format of the weights of a floating dense table. -/
def denseFmt (mode : Nat) : Fmt := if mode = 1 then fmtBf16 else fmtE4m3

/-- The rows that one token of it holds. -/
def denseRows (mode : Nat) : Nat := if mode = 1 then 128 else 256

/-- An accumulator of column `n` with the product of row `i` added. -/
def floatProduct (x : Element) (b : Block) (o : EG) (mode i acc n : Nat) : Nat × Word :=
  macF32 (denseFmt mode) acc (laneNat (b.operand o.port.toNat) (if mode = 1 then 16 else 8) i)
    (denseWeight x mode (denseRows mode * windowIndex b + i) n)

theorem denseSums_float (x : Element) (b : Block) (o : EG) (lanes : Nat) (h : mode ≠ 2) : denseSums x b o mode lanes =
    (List.range (denseRows mode)).foldl
      (fun a i => a.writeFloats 64 fun n => floatProduct x b o mode i (a.cells.getD n 0 % 2 ^ 32) n) b.accs := by
  refine congrArg (List.foldl · b.accs _) ?_
  funext a i
  exact if_neg h

/-- The last token of bf16 and e4m3 weights adds the FP32 partial. -/
theorem combine_float (a : Accs) (h : mode = 1 ∨ mode = 3) : a.combine x b o mode lanes =
    .ok (a.writeFloats 64 fun n => addF32 (floatPartial b o.oport.toNat n) (a.cells.getD n 0)) := by
  rcases h with rfl | rfl <;> rfl

/-- The sum of a column's rows in FP32, one rounding for each row in ascending order. -/
def floatSum (x : Element) (b : Block) (o : EG) (mode n : Nat) : Nat :=
  (List.range (denseRows mode)).foldl (fun acc i => (floatProduct x b o mode i acc n).1) (b.cell n % 2 ^ 32)

theorem floatSum_lt (x : Element) (b : Block) (o : EG) (mode n : Nat) : floatSum x b o mode n < 2 ^ 32 :=
  List.foldlRecOn (motive := (· < 2 ^ 32)) _ _ (Nat.mod_lt _ (by decide)) fun _ _ _ _ => macF32_lt _ _ _ _

/-- What bf16 or e4m3 DROW leaves in a column: the sum of its rows, to which the last token adds the partial in CHAIN mode. -/
def floatColumn (x : Element) (b : Block) (o : EG) (mode n : Nat) : Nat :=
  if o.accMode = 1 ∧ 3 ≤ windowIndex b then (addF32 (floatPartial b o.oport.toNat n) (floatSum x b o mode n)).1
  else floatSum x b o mode n

theorem floatColumn_lt (x : Element) (b : Block) (o : EG) (mode n : Nat) : floatColumn x b o mode n < 2 ^ 64 := by
  have sum := floatSum_lt x b o mode n
  have added := addF32_lt (floatPartial b o.oport.toNat n) (floatSum x b o mode n)
  unfold floatColumn
  split <;> omega

/-- DROW of bf16 or e4m3 leaves FP32 accumulators that hold those columns. -/
theorem drowAccs_float (x : Element) (b : Block) (o : EG) (lanes : Nat) (h : mode = 1 ∨ mode = 3) :
    ∃ a, drowAccs x b o mode lanes = .ok a ∧ a.fp = true ∧ a.cells.length = 128 ∧
      ∀ n, n < 64 → a.cells.getD n 0 = floatColumn x b o mode n := by
  have last : drowLast mode = 3 := if_neg (by omega)
  have rows : List.range (denseRows mode) ≠ [] := by
    unfold denseRows
    split <;> simp
  have sums := denseSums_float x b o lanes (mode := mode) (by omega)
  have length : (denseSums x b o mode lanes).cells.length = 128 :=
    sums ▸ Accs.foldl_writeFloats_length (floatProduct x b o mode) _ b.accs_length
  have after (n : Nat) (hn : n < 64) :
      (denseSums x b o mode lanes).fp = true ∧ (denseSums x b o mode lanes).cells.getD n 0 = floatSum x b o mode n := by
    rw [sums, floatSum, ← b.accs_cell (by omega)]
    exact Accs.foldl_writeFloats_cell (floatProduct x b o mode) (fun _ _ _ => macF32_lt _ _ _ _) rows hn b.accs
  unfold drowAccs floatColumn
  rw [last]
  by_cases hc : o.accMode = 1 ∧ 3 ≤ windowIndex b
  · simp only [if_pos hc]
    refine ⟨_, combine_float _ h, rfl, Accs.writeFloats_length _ (by decide) _ length, fun n hn => ?_⟩
    rw [Accs.writeFloats_cell, if_pos hn, (after n hn).2]
  · simp only [if_neg hc]
    exact ⟨_, rfl, (after 0 (by decide)).1, length, fun n hn => (after n hn).2⟩

/-! ## BWDOT (10 R163) -/

theorem getD_mapIdx (f : Nat → Nat → Nat) (l : List Nat) {i : Nat} (h : i < l.length) :
    (l.mapIdx f).getD i 0 = f i (l.getD i 0) := by
  simp [List.getD, h]

/-- The accumulators with the columns of a window rewritten. -/
def Block.rewritten (b : Block) (wd : Nat) (f : Nat → Nat) : Accs :=
  { cells := b.accs.cells.mapIdx fun i c => if i < wd then f i else c, fp := false }

theorem Block.rewritten_length (b : Block) (wd : Nat) (f : Nat → Nat) : (b.rewritten wd f).cells.length = 128 := by
  rw [Block.rewritten, List.length_mapIdx, Block.accs_length]

theorem Block.rewritten_cell (b : Block) {wd : Nat} (f : Nat → Nat) (hn : n < wd) (hwd : wd ≤ 128) :
    (b.rewritten wd f).cells.getD n 0 = f n := by
  rw [Block.rewritten, getD_mapIdx _ _ (by rw [Block.accs_length]; omega), if_pos hn]

/-- The dot product of BWDOT's token with a row of its window. -/
def windowDot (x : Element) (b : Block) (o : EG) (mode lanes l : Nat) : Int :=
  ((List.range (columnsOf lanes)).map fun n => signedOf 8 (vecByte (b.operand o.port.toNat) n).toNat *
    tableEntry x mode (windowOf mode lanes * windowIndex b + 1 + l) n).sum

/-- The accumulators behind a BWDOT. -/
def bwdotAccs (x : Element) (b : Block) (o : EG) (mode lanes : Nat) : Accs :=
  let wd := windowOf mode lanes
  let zero := b.rewritten wd fun _ => 0
  let first := if o.accMode = 1 then zero.addInts lanes (fun l => if l < wd then intPartial b o.oport.toNat lanes l else 0)
    else zero
  first.addInts lanes fun l => if l < wd then windowDot x b o mode lanes l else 0

theorem exec_bwdot_next (h : RunsBlock s el b) (free : cursorTaken b.cursor .bwdot b = false) :
    let mode := egMode (s.element el) b o
    let lanes := lanesMode (s.element el) b.ctx.toNat
    exec (.bwdot o) s = .next (blockMoves s el (b.withAccs (bwdotAccs (s.element el) b o mode lanes)
      (nextWindow .bwdot b (windowIndex b) (windowOf mode lanes) b.cursor.pprev)) 1) :=
  (exec_bwdot o s).trans (inBlock_ok 1 h (if_neg (Bool.eq_false_iff.mp free)))

theorem exec_bwdot_taken (h : RunsBlock s el b) (taken : cursorTaken b.cursor .bwdot b = true) :
    exec (.bwdot o) s = .next (takeBlockException s el b (segmentFault 9 0)) :=
  (exec_bwdot o s).trans (inBlock_exc 1 h (if_pos taken))

theorem bwdotAccs_fp (x : Element) (b : Block) (o : EG) (mode lanes : Nat) : (bwdotAccs x b o mode lanes).fp = false := by
  unfold bwdotAccs
  split <;> rfl

theorem bwdotAccs_length (x : Element) (b : Block) (o : EG) (mode lanes : Nat) :
    (bwdotAccs x b o mode lanes).cells.length = 128 := by
  have zero := b.rewritten_length (windowOf mode lanes) fun _ => 0
  unfold bwdotAccs
  split
  · exact Accs.addInts_length _ _ (Accs.addInts_length _ _ zero)
  · exact Accs.addInts_length _ _ zero

theorem signedOf_zero (w : Nat) : signedOf w 0 = 0 := by
  simp [signedOf]

/-- A column of the window holds its dot product, on top of the partial in CHAIN mode. -/
theorem bwdotAccs_cell (x : Element) (b : Block) (o : EG) {l : Nat} (hw : l < windowOf mode lanes) (hc : l < columnsOf lanes) :
    (bwdotAccs x b o mode lanes).cells.getD l 0 = sumCell (accWidth lanes)
      ((if o.accMode = 1 then intPartial b o.oport.toNat lanes l else 0) + windowDot x b o mode lanes l) := by
  have zero := b.rewritten_cell (fun _ => 0) hw (windowOf_le mode lanes)
  unfold bwdotAccs
  rw [Accs.addInts_cell, if_pos hc, if_pos hw]
  split
  · rw [Accs.addInts_cell, if_pos hc, if_pos hw, zero, signedOf_zero, zero_add, sumCell_signedOf_add (accWidth_le lanes)]
  · rw [zero, signedOf_zero]

/-! ## DIFF (10 R164) -/

/-- The difference of two neighbours of DIFF's partial; before the first of a window stands the last of the window before. -/
def windowDiff (b : Block) (o : EG) (lanes l : Nat) : Int :=
  let p := intPartial b o.port.toNat lanes
  p l - (if l = 0 then (if windowIndex b = 0 then 0 else b.cursor.pprev.toInt) else p (l - 1))

/-- The accumulators behind a DIFF: integers for an ST16 table, else scaled to FP32. -/
def diffAccs (x : Element) (b : Block) (o : EG) (mode lanes : Nat) : Accs :=
  if mode = 4 then b.rewritten (windowOf mode lanes) fun l => sumCell 32 (windowDiff b o lanes l)
  else b.accs.writeFloats 64 fun l =>
    scaleInt (signedOf 64 (wrapTo 64 (windowDiff b o lanes l))) (scaleReg x b.ctx.toNat o.g.toNat).toNat

theorem exec_diff_next (h : RunsBlock s el b) (free : cursorTaken b.cursor .diff b = false) :
    let mode := egMode (s.element el) b o
    let lanes := lanesMode (s.element el) b.ctx.toNat
    exec (.diff o) s = .next (blockMoves s el (b.withAccs (diffAccs (s.element el) b o mode lanes)
      (nextWindow .diff b (windowIndex b) (windowOf mode lanes)
        (BitVec.ofInt 64 (intPartial b o.port.toNat lanes (windowOf mode lanes - 1))))) 1) := by
  refine (exec_diff o s).trans (inBlock_ok 1 h ((if_neg (Bool.eq_false_iff.mp free)).trans ?_))
  unfold diffAccs
  by_cases st16 : egMode (s.element el) b o = 4
  · refine (if_pos st16).trans ?_
    rw [if_pos st16]
    rfl
  · refine (if_neg st16).trans ?_
    rw [if_neg st16]
    rfl

theorem exec_diff_taken (h : RunsBlock s el b) (taken : cursorTaken b.cursor .diff b = true) :
    exec (.diff o) s = .next (takeBlockException s el b (segmentFault 9 0)) :=
  (exec_diff o s).trans (inBlock_exc 1 h (if_pos taken))

theorem diffAccs_st16 (x : Element) (b : Block) (o : EG) (h : mode = 4) : (diffAccs x b o mode lanes).fp = false ∧
    (diffAccs x b o mode lanes).cells.length = 128 ∧ ∀ l, l < windowOf mode lanes →
      (diffAccs x b o mode lanes).cells.getD l 0 = sumCell 32 (windowDiff b o lanes l) := by
  rw [diffAccs, if_pos h]
  exact ⟨rfl, b.rewritten_length _ _, fun l hl => b.rewritten_cell _ hl (windowOf_le mode lanes)⟩

theorem diffAccs_st32 (x : Element) (b : Block) (o : EG) (h : mode ≠ 4) : (diffAccs x b o mode lanes).fp = true ∧
    (diffAccs x b o mode lanes).cells.length = 128 ∧ ∀ l, l < 64 → (diffAccs x b o mode lanes).cells.getD l 0 =
      (scaleInt (signedOf 64 (wrapTo 64 (windowDiff b o lanes l))) (scaleReg x b.ctx.toNat o.g.toNat).toNat).1 := by
  rw [diffAccs, if_neg h]
  exact ⟨rfl, Accs.writeFloats_length _ (by decide) _ b.accs_length, fun l hl =>
    (Accs.writeFloats_cell _ _ _ _).trans (if_pos hl)⟩

end
end Sys2Proof.Machine
end

section
/-! The statement on DROW, BWDOT and DIFF, from the rules above (10 R156, R158, R162 to R164). -/
namespace Sys2Proof.Machine

/-- Settles O26: each, where the cursor is free for it, puts its accumulators and its cursor into the block. -/
theorem denseWindowInstructions : Obligations.DenseWindowInstructions := by
  unfold Obligations.DenseWindowInstructions
  intro s el b o h x mode lanes w cell wrapped partial_ chain k token lanesOfWindow runs moves traps
  refine ⟨fun free int unchained => ?unchained, fun free int8 int => ?int8, fun free float => ?float, fun free => ?bwdot,
    fun free => ?diff, fun free int8 fp => exec_drow_kind h free ⟨int8, fp⟩, ?taken⟩
  case unchained =>
    exact ⟨_, exec_drow_next h free (fun hc => Bool.eq_false_iff.mp int hc.2) (if_neg fun hc => unchained hc.1), rfl, trivial⟩
  case int8 =>
    obtain ⟨a, ha, fp, length, sums⟩ := drowAccs_int x o lanes int
    refine ⟨_, exec_drow_next h free (fun hc => Bool.eq_false_iff.mp int hc.2) ?_, rfl, fp, ?_, fun n hn => ?_⟩
    · exact (congrArg (drowAccs x b o · lanes) int8).trans ha
    · have last : drowLast mode = 1 := if_pos int8
      exact (show MovesOn (windowIndex b) 1 (drowCursor b mode) from last ▸ drowCursor_moves b mode)
    · exact b.cell_withAccs _ length (sums n hn) (sumCell_lt _ _)
  case float =>
    obtain ⟨a, ha, fp, length, sums⟩ := drowAccs_float x b o lanes float
    have last : drowLast mode = 3 := if_neg (by omega)
    refine ⟨_, exec_drow_next h free (fun hc : mode = 2 ∧ _ => by omega) ha, rfl, fp, ?_, fun n hn => ?_⟩
    · exact (show MovesOn (windowIndex b) 3 (drowCursor b mode) from last ▸ drowCursor_moves b mode)
    · exact b.cell_withAccs _ length (sums n hn) (floatColumn_lt _ _ _ _ _)
  case bwdot =>
    refine ⟨_, exec_bwdot_next h free, rfl, bwdotAccs_fp x b o mode lanes, nextWindow_moves _ _ _ (windows_pos mode lanes) _,
      fun l hw hc => ?_⟩
    exact b.cell_withAccs _ (bwdotAccs_length x b o mode lanes) (bwdotAccs_cell x b o hw hc) (sumCell_lt _ _)
  case diff =>
    refine ⟨_, exec_diff_next h free, rfl, nextWindow_pprev .diff b _ _ _, nextWindow_moves _ _ _ (windows_pos mode lanes) _,
      fun st16 => ?_, fun st32 => ?_⟩
    · obtain ⟨fp, length, differences⟩ := diffAccs_st16 (lanes := lanes) x b o st16
      exact ⟨fp, fun l hl => b.cell_withAccs _ length (differences l hl) (sumCell_lt _ _)⟩
    · obtain ⟨fp, length, scaled⟩ := diffAccs_st32 (lanes := lanes) x b o st32
      exact ⟨fp, fun l hl => b.cell_withAccs _ length (scaled l hl) ((scaleInt_lt _ _).trans (by decide))⟩
  case taken =>
    rintro taken rfl
    exact ⟨exec_drow_taken h, exec_bwdot_taken h, exec_diff_taken h⟩

end Sys2Proof.Machine
end

section
/-! The statement on what the accumulators give out, which takes the requests of one ACCST for alike: each counts the pieces that
stand before it (10 R165, R167; 16 R249). -/
namespace Sys2Proof.Machine

variable {s s' : State} {el : Nat} {b b' : Block} {act : Activation}

/-! ## Pieces in scratch -/

/-- A piece in scratch as its request is staged (16 R247). -/
def scratchRequest (p : Nat × MemRequest) : BlockEffect := .request { p.2 with scratch := true, va := p.1, address := p.1 }

/-- Pieces that lie in the SCRATCH banks of the region are staged, each at its own offset (15 R240; 16 R247). -/
theorem stagePieces_scratch {u : RecordUse} {b0 : Block} (ha : s.activation b0.colour.toNat = some act)
    {pieces : List (Nat × MemRequest)} (good : ∀ p ∈ pieces, s.scratchGood act p.1 p.2.size = true) (b : Block) :
    stagePieces b0 u true s b pieces = .ok (s, { b with effects := b.effects ++ pieces.map scratchRequest }) := by
  induction pieces generalizing b with
  | nil => simp [stagePieces]
  | cons p pieces ih =>
    obtain ⟨a, r⟩ := p
    obtain ⟨first, rest⟩ := List.forall_mem_cons.mp good
    have checked : checkPiece s b0 u false true a r = .ok (s, { r with scratch := true, va := a, address := a }) := by
      simp [checkPiece, ha, first]
    simp [stagePieces, checked, ih rest, Block.stage, scratchRequest]

/-! ## The stores of ACCST -/

/-- The pieces of an ACCST from an address, where each names the pieces before it by a function of its place. -/
def accstPieces (x : Element) (b : Block) (o : EM) (a : Nat) (before : Nat → Nat) : List (Nat × MemRequest) :=
  let r := accOutput x b o.size.toNat (o.variant.getLsbD 2)
  let n := (r.2.1 + 255) / 256
  (List.range n).map fun j =>
    (a + 256 * j, { b.request .store o.mport.toNat (min 256 (r.2.1 - 256 * j)) o.scope.toNat
      (BitVec.ofNat 2048 (r.1 / 2 ^ (2048 * j))) (if o.variant.getLsbD 0 && j + 1 = n then some o.chan else none) with
      pieces := before j })

/-- ACCST stages its pieces, each with the number of those before it. -/
theorem exec_accst_next {o : EM} {scratch : Bool} {a : Nat} (h : RunsBlock s el b)
    (ha : elementAddress (b.addressTemp o.addr.toNat)
      (min (accOutput (s.element el) b o.size.toNat (o.variant.getLsbD 2)).2.1 256) .write = .ok (scratch, a))
    (hs : stagePieces b .write scratch s b (accstPieces (s.element el) b o a id) = .ok (s', b')) :
    exec (.accst o) s = .next
      (blockMoves s' el (b'.raise (accOutput (s.element el) b o.size.toNat (o.variant.getLsbD 2)).2.2) 1) := by
  rw [exec_accst]
  refine inBlockWith_ok 1 h ?_
  simp only [accstPieces, id_eq] at hs
  simp only [ha, hs]

/-- What a block has staged stands in the state behind it. -/
theorem effects_of_blockMoves_eq {words : Nat} (h : blockMoves s el b words = blockMoves s' el b' words) :
    b.effects = b'.effects := by
  have moved : ((blockMoves s' el b' words).element el).block = some { b' with done := b'.done + 1, word := b'.word + words } :=
    congrArg Element.block (State.element_putElement_self _ el _)
  rw [← h] at moved
  exact (blockMoves_effects moved).symm

/-! ## A store of two pieces -/

/-- A package in which element 0 executes a block whose accumulators are clear, and whose region has SCRATCH banks. -/
def clearedPackage : State :=
  { focus := .element 0, elements := [(0, { block := some {} })], activations := [(0, {})] }

/-- ACCST of 128 accumulators as i32 to scratch offset 0, without a reply: 512 bytes, and so two pieces. -/
def storesWords : EM :=
  { addr := 0, src := 13, size := 0, mport := 0, chan := 0, scope := 0, variant := 16, ext := 0 }

theorem clearedPackage_runs : RunsBlock clearedPackage 0 {} := ⟨rfl, rfl⟩

theorem storesWords_bytes :
    (accOutput (clearedPackage.element 0) {} storesWords.size.toNat (storesWords.variant.getLsbD 2)).2.1 = 512 := rfl

theorem storesWords_address : elementAddress (({} : Block).addressTemp storesWords.addr.toNat)
    (min (accOutput (clearedPackage.element 0) {} storesWords.size.toNat (storesWords.variant.getLsbD 2)).2.1 256) .write =
      .ok (true, 0) := by
  have origin : ({} : Block).addressTemp storesWords.addr.toNat = 0 := by
    simp only [Block.addressTemp, Block.temp, Tab.getD, Tab.find, Option.getD_none, BitVec.ofNat_eq_ofNat, BitVec.toNat_zero,
      Nat.zero_mod]
  rw [origin, storesWords_bytes]
  rfl

/-- Both pieces lie in a SCRATCH bank. -/
theorem storesWords_good (before : Nat → Nat) : ∀ p ∈ accstPieces (clearedPackage.element 0) {} storesWords 0 before,
    clearedPackage.scratchGood {} p.1 p.2.size = true := by
  refine List.forall_mem_map.mpr ?_
  show ∀ j ∈ List.range 2, clearedPackage.scratchGood {} (0 + 256 * j) (min 256 (512 - 256 * j)) = true
  decide

/-- The pieces that a staged effect counts before it. -/
def BlockEffect.before : BlockEffect → Nat
  | .request r => r.pieces
  | _ => 0

theorem before_accstPieces (x : Element) (b : Block) (o : EM) (a : Nat) (before : Nat → Nat) :
    ((accstPieces x b o a before).map scratchRequest).map BlockEffect.before =
      (List.range (((accOutput x b o.size.toNat (o.variant.getLsbD 2)).2.1 + 255) / 256)).map before := by
  rw [List.map_map, accstPieces, List.map_map]
  rfl

/-- Refutes O27: its stores count no pieces before them, but the second request of an ACCST counts one. -/
theorem not_accumulatorOutputs : ¬ Obligations.AccumulatorOutputs := by
  unfold Obligations.AccumulatorOutputs
  intro h
  have staged (before : Nat → Nat) := stagePieces_scratch (u := .write) (b0 := {}) (act := {}) rfl (storesWords_good before) {}
  obtain ⟨-, stores, -⟩ := h clearedPackage clearedPackage 0 {} _ default storesWords true 0 clearedPackage_runs
  have unnumbered := stores storesWords_address (staged fun _ => 0)
  have numbered := exec_accst_next clearedPackage_runs storesWords_address (staged id)
  have effects := congrArg (List.map BlockEffect.before)
    (effects_of_blockMoves_eq (Host.Outcome.next.inj (unnumbered.symm.trans numbered)))
  change ((accstPieces _ _ _ _ _).map scratchRequest).map _ = ((accstPieces _ _ _ _ _).map scratchRequest).map _ at effects
  rw [before_accstPieces, before_accstPieces] at effects
  exact absurd effects (by decide)

end Sys2Proof.Machine
end

section
/-! SUPPORT. The events of the fabric (12 R181 to R185) and of the memories (15 R238, R246; 16 R249 to R252; 25 R393), one rule
for each. -/
namespace Sys2Proof.Machine

variable {s t u : State} {a : Activation} {el mport : Nat} {r : MemRequest}

/-! ## The first of a list that passes a test -/

theorem findIdx?_append_cons {α : Type} {p : α → Bool} {before : List α} {x : α} (hb : ∀ y ∈ before, p y = false)
    (hx : p x = true) (after : List α) : (before ++ x :: after).findIdx? p = some before.length := by
  simp [List.findIdx?_append, List.findIdx?_eq_none_iff.mpr hb, List.findIdx?_cons, hx]

/-! ## Flits (12 R177, R181, R182) -/

section
variable {k node : Nat} {c : Circuit} {f : Flit} {rest : List Flit}

theorem exec_flitHop_leaves (hc : s.circuits.find k = some c) (hf : (c.node node).flits = f :: rest)
    (ready : s.nodeReady c node = true) (turn : s.longestUnserved k node = true) :
    let c' := c.setNode node { c.node node with flits := rest, served := s.tick + 1 }
    let t := { s with circuits := s.circuits.put k c' }
    exec (.flitHop k node false) s = .next ((c.node node).targets.foldl (fun s t => s.putWire k t f)
      (if node = 0 then t.noteLeft c' f else t)) := by
  simp [execFlitHop, hc, hf, ready, turn]

/-- An element with the oldest flit of a port's wire in that port's FIFO, as `g`; `rest` stays on the wire. -/
def Element.landed (x : Element) (p : Nat) (rest : List Flit) (g : Flit) : Element :=
  let q := x.ports.getD p {}
  { x with ports := x.ports.put p { q with
    wire := rest, circuit := q.circuit ++ [g], order := if g.isEnd then q.order ++ [.circuit] else q.order } }

theorem State.land_elementPort {p : Nat} (hc : s.circuits.find k = some c)
    (hw : ((s.element el).ports.getD p {}).wire = f :: rest) :
    let g := s.arriving c (tileOf el) f
    s.land k (.elementPort el p) = (s.putElement el ((s.element el).landed p rest g), some g) := by
  simp only [State.land, hc, hw]
  rfl

theorem exec_flitHop_lands {p : Nat} (hc : s.circuits.find k = some c) (ht : (c.node node).targets = [.elementPort el p])
    (hw : ((s.element el).ports.getD p {}).wire = f :: rest) (par : f.par = parityOf f)
    (unstruck : Upset.flit k node 0 ∉ s.upsets) :
    exec (.flitHop k node true) s =
      .next (s.putElement el ((s.element el).landed p rest (s.arriving c (tileOf el) f))) := by
  have goodPar : (s.arriving c (tileOf el) f).par = parityOf (s.arriving c (tileOf el) f) := arriving_par par
  simp [execFlitHop, hc, ht, State.land_elementPort hc hw, unstruck, goodPar]

end

/-! ## Banks (15 R238) -/

theorem exec_bankSwitch_done {tile bank : Nat} {w : BankSwitch} (hw : (s.tile tile).switching.find bank = some w)
    (requests : ∀ r ∈ w.requests, s.requestOpen r.1 r.2 = false) (additions : ∀ i ∈ w.additions, s.memory.additions.find i = none) :
    let t := s.switchBank tile bank w.mode
    exec (.bankSwitch tile bank) s =
      .next (t.putTile tile { t.tile tile with switching := (t.tile tile).switching.drop bank }) := by
  have noRequest : w.requests.any (fun r => s.requestOpen r.1 r.2) = false :=
    List.any_eq_false.mpr fun r hr => by simp [requests r hr]
  have noAddition : w.additions.any (fun i => (s.memory.additions.find i).isSome) = false :=
    List.any_eq_false.mpr fun i hi => by simp [additions i hi]
  simp [execBankSwitch, hw, noRequest, noAddition]

/-! ## Requests at their bank or tile (15 R246; 16 R249, R250) -/

theorem exec_memoryRequestPerform_of_pick {rest : List MemRequest} (hp : s.pickRequest el mport = some (r, rest))
    (ha : s.activation r.colour.toNat = some a) (may : s.mayPerform a r = true) :
    let x := s.element el
    exec (.memoryRequestPerform el mport) s =
      occursIf (((s.putElement el { x with requests := x.requests.put mport rest }).takeFromSink el r).perform a el r) := by
  simp [execMemoryRequestPerform, hp, ha, may]

theorem MemTile.admits_of_not_switching {x : MemTile} {bank : Nat} (h : x.switching.find bank = none) (p : BankSwitch → Bool) :
    x.admits bank p = true := by
  simp [MemTile.admits, h]

section
variable {tile byte : Nat} (scratch : r.scratch = true) (place : a.scratchPlace r.address = some (tile, byte))
  (still : (s.tile tile).switching.find (byte / 65536) = none) (good : s.scratchGood a r.address r.size = true)
include scratch place still good

theorem State.perform_scratch_store (hop : r.op = .store) :
    s.perform a el r = some ((s.scratchWrite a r.address (vecBytes r.data r.size)).addReply el r []) := by
  simp [State.perform, performScratch, hop, scratch, place, MemTile.admits_of_not_switching still, good]

/-- A load of scope 0 observes no eyelet (20 R325). -/
theorem State.perform_scratch_load {signed : Bool} (hop : r.op = .load signed) (scope : r.scope = 0) :
    s.perform a el r = some (s.addReply el r (s.scratchBytes a r.address r.size)) := by
  simp [State.perform, performScratch, hop, scratch, place, MemTile.admits_of_not_switching still, good, scope, State.observedBy]

end

theorem exec_replyArrival_first {token : Token} {before after : List (Nat × Token)}
    (hr : (s.element el).replies = before ++ (mport, token) :: after) (hb : ∀ r ∈ before, r.1 ≠ mport) :
    let x := s.element el
    let q := x.ports.getD mport {}
    exec (.replyArrival el mport) s = .next (s.putElement el { x with
      replies := before ++ after,
      ports := x.ports.put mport { q with reply := q.reply ++ flitsOf token, order := q.order ++ [.reply] } }) := by
  have first : (s.element el).replies.findIdx? (fun r => decide (r.1 = mport)) = some before.length :=
    hr ▸ findIdx?_append_cons (by simpa using hb) (by simp) after
  have reply : (s.element el).replies[before.length]? = some (mport, token) := by simp [hr]
  have erased : (s.element el).replies.eraseIdx before.length = before ++ after := by
    simp [hr, List.eraseIdx_append_of_length_le]
  simp [execReplyArrival, first, reply, erased]

theorem exec_fullEmptyWake_performed {n : Nat} (hd : s.memory.deferred.find n = some (el, r))
    (ha : s.activation r.colour.toNat = some a) (free : r.isHeld = false) (may : s.mayPerform a r = true)
    (allowed : ∀ s' rest, performDevice s a el r ≠ .waits s' rest)
    (ht : (s.mapMemory fun m => { m with deferred := m.deferred.drop n }).perform a el r = some t) :
    exec (.fullEmptyWake n) s = .next t := by
  simp only [exec_fullEmptyWake, execFullEmptyWake, hd, ha, free, may, ht]
  cases hp : performDevice s a el r with
  | waits s' rest => exact absurd hp (allowed s' rest)
  | done | later | fails => rfl

/-! ## Eyelets (16 R252; 20 R325; 21 R336) -/

section
variable {w : EyeletWords} {n : Nat}

theorem addTo_target : (addTo w n).target = w.target := by
  unfold addTo
  split <;> rfl

theorem addTo_of_no_target (h : w.target = 0) :
    (addTo w n).count = (w.count + n) % 2 ^ 32 ∧ (addTo w n).generation = w.generation := by
  simp [addTo, h]

theorem addTo_of_target (h : w.target ≠ 0) : (addTo w n).count = (w.count + n) % w.target ∧
    (addTo w n).generation = (w.generation + (w.count + n) / w.target) % 2 ^ 32 := by
  simp [addTo, h]

theorem eyeletBad_eq_false (h : w.flags < 2) : eyeletBad w = false := by
  simp [eyeletBad, Nat.div_eq_of_lt h]

end

/-- Two states hold the same in device memory, in the LLC and in their tiles. -/
structure State.SameStores (t u : State) : Prop where
  mem : t.memory.mem = u.memory.mem
  llc : t.memory.llc = u.memory.llc
  tiles : t.tiles = u.tiles

theorem State.SameStores.trans (h : s.SameStores t) (h' : t.SameStores u) : s.SameStores u :=
  ⟨h.mem.trans h'.mem, h.llc.trans h'.llc, h.tiles.trans h'.tiles⟩

theorem State.addReply_sameStores (el : Nat) (r : MemRequest) (bs : List Byte) : (s.addReply el r bs).SameStores s := by
  unfold State.addReply
  split <;> exact ⟨rfl, rfl, rfl⟩

/-- The state with the note that an eyelet has advanced, where its generation has. -/
def State.noteAdvance (s : State) (key : Nat) (w w' : EyeletWords) : State :=
  if w'.generation = w.generation then s
  else s.mapMemory fun m => { m with advanced := key :: m.advanced.filter (· ≠ key) }

theorem State.noteAdvance_sameStores (key : Nat) (w w' : EyeletWords) : (s.noteAdvance key w w').SameStores s := by
  unfold State.noteAdvance
  split <;> exact ⟨rfl, rfl, rfl⟩

/-- The state with the reply to the element whose request an addition was. -/
def State.answerAdder (s : State) (e : EyeletAddition) : State :=
  match e.adder with
  | .element el r => s.addReply el r []
  | _ => s

theorem State.answerAdder_sameStores (e : EyeletAddition) : (s.answerAdder e).SameStores s := by
  unfold State.answerAdder
  split
  · exact State.addReply_sameStores ..
  · exact ⟨rfl, rfl, rfl⟩

theorem exec_eyeletAddition_performed {n : Nat} {e : EyeletAddition} {w : EyeletWords}
    (he : s.memory.additions.find n = some e) (ready : s.additionReady n e = true) (home : s.homeFault e = none)
    (hw : ((s.mapMemory fun m => { m with additions := m.additions.drop n }).flushEyelet e.colour e.scratchTile
      e.address).readEyelet e.scratchTile e.address = (t, some w)) (clean : w.flags < 2)
    (kept : (t.writeEyelet e.scratchTile e.asid e.address (addTo w e.n)).eyeletLost e.scratchTile e.address = false) :
    exec (.eyeletAddition n) s = .next (((t.writeEyelet e.scratchTile e.asid e.address (addTo w e.n)).noteAdvance
      (eyeletKey e.scratchTile e.address) w (addTo w e.n)).answerAdder e) := by
  have home' : (s.mapMemory fun m => { m with additions := m.additions.drop n }).homeFault e = none := home
  simp only [exec_eyeletAddition, execEyeletAddition, he, ready, home', hw, eyeletBad_eq_false clean, kept]
  rfl

/-! ## Held requests (25 R393) -/

theorem State.retranslate_ok {l : Leaf} (hl : s.reach a r.op.use r.va = .ok l)
    (full : (∃ w, r.op = .take w) ∨ r.op = .fill → l.fullEmpty = true) :
    s.retranslate a r = .ok { r with held := false, address := l.pa, mtype := l.mtype, fullEmpty := l.fullEmpty } := by
  simp only [State.retranslate, hl]
  cases hop : r.op with
  | take w => simp [full (.inl ⟨w, hop⟩)]
  | fill => simp [full (.inr hop)]
  | _ => rfl

theorem exec_retranslation_queued {before after : List MemRequest} {r' : MemRequest}
    (hq : (s.element el).requests.getD mport [] = before ++ r :: after) (hb : ∀ q ∈ before, q.held = false)
    (held : r.held = true) (ha : s.activation r.colour.toNat = some a) (hr : s.retranslate a r = .ok r') :
    exec (.retranslation el mport) s = .next (s.putElement el { s.element el with
      requests := (s.element el).requests.put mport (before ++ r' :: after) }) := by
  have first : (before ++ r :: after).findIdx? (·.held) = some before.length := findIdx?_append_cons hb held after
  simp [execRetranslation, hq, first, ha, hr]

end Sys2Proof.Machine
end

section
/-! The statement on the events of the fabric and of the memories, from the rules above. -/
namespace Sys2Proof.Machine

/-- Settles O48: each clause is the rule of its event; what an eyelet's home holds after an addition is what the addition wrote. -/
theorem fabricAndMemoryEventsOccur : Obligations.FabricAndMemoryEventsOccur := by
  unfold Obligations.FabricAndMemoryEventsOccur
  intro s
  refine ⟨fun k c node f rest => exec_flitHop_leaves, fun k c node el p f rest => exec_flitHop_lands,
    fun tile bank w => exec_bankSwitch_done, fun el mport r rest a pick ha may => ?requests,
    fun el mport t before after => exec_replyArrival_first, fun n el r a t => exec_fullEmptyWake_performed,
    ?additions, fun el mport before r after a l hq hb held ha hl full =>
      exec_retranslation_queued hq hb held ha (State.retranslate_ok hl full)⟩
  case requests =>
    have performed := exec_memoryRequestPerform_of_pick pick ha may
    exact ⟨fun t ht => performed.trans (congrArg occursIf ht), fun tile byte scratch place still good =>
      ⟨fun store => performed.trans (congrArg occursIf (State.perform_scratch_store scratch place still good store)),
        fun signed load scope =>
          performed.trans (congrArg occursIf (State.perform_scratch_load scratch place still good load scope))⟩⟩
  case additions =>
    intro n e t w he ready home hw clean w' kept
    have stores := (State.answerAdder_sameStores e).trans
      (State.noteAdvance_sameStores (s := t.writeEyelet e.scratchTile e.asid e.address w') (eyeletKey e.scratchTile e.address) w w')
    exact ⟨_, exec_eyeletAddition_performed he ready home hw clean kept, addTo_target, addTo_of_no_target, addTo_of_target,
      stores.mem, stores.llc, stores.tiles⟩

end Sys2Proof.Machine
end

section
/-! The statement on SENDR (05 R79; 13 R194; 26 R415). -/
namespace Sys2Proof.Machine

/-- A field of a word, cut out as a bit vector of its width. -/
theorem ofNat_slice (v lo w : Nat) : BitVec.ofNat (w + 1) (slice v (lo + w) lo) = BitVec.ofNat (w + 1) (v / 2 ^ lo) := by
  apply BitVec.eq_of_toNat_eq
  rw [slice, show lo + w + 1 - lo = w + 1 by omega, BitVec.toNat_ofNat, BitVec.toNat_ofNat, Nat.mod_mod]

/-- The reserved bits of a destination word are clear below 2^44. -/
theorem destination_reserved_iff {dest : Nat} (h : dest < 2 ^ 64) : slice dest 63 44 ≠ 0 ↔ 2 ^ 44 ≤ dest := by
  unfold slice
  omega

theorem Block.keepSource_stage (b : Block) (o : ES) (e : BlockEffect) :
    (b.stage e).keepSource o = { b with
      effects := b.effects ++ [e], keeps := if o.keep = 1 then b.keeps.put (o.src.toNat - 8) true else b.keeps } := by
  unfold Block.keepSource
  split <;> rfl

/-- The message of a SENDR to a destination, of so many flits (13 R194). -/
def sendrToken (b : Block) (o : ES) (dest flits : Nat) : Token :=
  { kind := if o.last = 1 then .last else .data, vector := 1 < flits, chan := BitVec.ofNat 5 (dest / 2 ^ 19),
    ctx := BitVec.ofNat 3 (dest / 2 ^ 16), colour := BitVec.ofNat 16 dest, iter := b.iter,
    data := BitVec.ofNat 2048 ((sourceVec b o.src 0 32).toNat % 2 ^ (256 * flits)) }

/-- What SENDR makes of a block that belongs to a copy of a redundant pair, or does not. -/
def sendrResult (pair : Bool) (b : Block) (o : ES) : BlockResult :=
  let dest := (b.temp o.ctx.toNat).toNat % 2 ^ 64
  let flits := o.flags.toNat % 8 + 1
  if pair then .exc (pairFault .write (BitVec.ofNat 64 dest) (32 * flits))
  else if 2 ^ 44 ≤ dest then .exc { code := 0x42, address := BitVec.ofNat 64 dest }
  else .ok { b with
    effects := b.effects ++ [.message (BitVec.ofNat 64 dest) flits (sendrToken b o dest flits)],
    keeps := if o.keep = 1 then b.keeps.put (o.src.toNat - 8) true else b.keeps }

theorem exec_sendr_eq (o : ES) (s : State) : exec (.sendr o) s = inBlock s 1 fun s _ b =>
    sendrResult ((s.activation b.colour.toNat).elim false (·.isPair)) b o := by
  rw [exec_sendr, execSendr]
  congr 1
  funext s el b
  have chan (dest : Nat) : BitVec.ofNat 5 (slice dest 23 19) = BitVec.ofNat 5 (dest / 2 ^ 19) := ofNat_slice dest 19 4
  have ctx (dest : Nat) : BitVec.ofNat 3 (slice dest 18 16) = BitVec.ofNat 3 (dest / 2 ^ 16) := ofNat_slice dest 16 2
  simp only [sendrResult, sendrToken, destination_reserved_iff (Nat.mod_lt _ (Nat.two_pow_pos 64)), Block.keepSource_stage,
    chan, ctx, lowBytes, esSource, ← Nat.mul_assoc, Nat.reduceMul]
  cases s.activation b.colour.toNat <;> rfl

/-- Settles O20: the pair is looked at first, then the reserved bits, and what passes both is staged. -/
theorem sendrStagesAMessage : Obligations.SendrStagesAMessage := by
  unfold Obligations.SendrStagesAMessage
  intro s el b o h dest f pair t
  rw [exec_sendr_eq]
  refine ⟨fun hp legal => inBlock_ok 1 h ?staged, fun hp reserved => inBlock_exc 1 h ?reserved,
    fun hp => inBlock_exc 1 h (if_pos hp)⟩
  case staged => exact (if_neg (Bool.eq_false_iff.mp hp)).trans (if_neg legal.not_ge)
  case reserved => exact (if_neg (Bool.eq_false_iff.mp hp)).trans (if_pos reserved)

end Sys2Proof.Machine
end

section
/-! The statement on LOOP at zero (13 R204). -/
namespace Sys2Proof.Machine

/-- Settles O33: a LOOP whose register is not 1 is a taken branch, with the register one less. -/
theorem loopAtZeroWrapsAndIsTaken : Obligations.LoopAtZeroWrapsAndIsTaken := by
  unfold Obligations.LoopAtZeroWrapsAndIsTaken
  intro s q a x r o h zero target
  obtain ⟨-, -, -, -, -, -, -, -, within, elsewhere⟩ := branchesFollowTheirOffsets s q a x r o 0 h
  have taken : x.reg o.a.toNat ≠ 1 := by
    rw [zero]
    decide
  refine ⟨x.setReg o.a.toNat (x.reg o.a.toNat - 1), fun ha => ?wraps, fun j hj => ?others, x.setReg_frame _ _,
    fun k => within k taken, elsewhere taken⟩
  case wraps =>
    rw [Sequencer.reg_setReg_self _ _ (mt (BitVec.eq_of_toNat_eq (y := 0)) ha), zero]
    rfl
  case others =>
    rcases hj with hj | ha
    · exact x.reg_setReg_of_ne _ hj
    · rw [ha]
      rfl

end Sys2Proof.Machine
end

section
/-! The statement on an SLD behind an SST of its step (13 R199). -/
namespace Sys2Proof.Machine

theorem natOfBytes_leBytes (n v : Nat) : natOfBytes (leBytes n v) = v % 2 ^ (8 * n) := by
  induction n generalizing v with
  | zero => rw [Nat.mul_zero, Nat.pow_zero, Nat.mod_one, leBytes, natOfBytes]
  | succ n ih =>
    rw [leBytes, natOfBytes, ih, BitVec.toNat_ofNat, Nat.mul_succ, Nat.add_comm (8 * n), Nat.pow_add, Nat.mod_mul]

/-- The last store of a step gives the bytes that it covers. -/
theorem stagedByte_append_store (es : List StepEffect) (va : Nat) (h : Home) (n : Nat) (v : DWord) (w p : Nat) :
    stagedByte (es ++ [.store va h n v w]) p =
      if va ≤ p ∧ p < va + n then some (v.extractLsb' (8 * (p - va)) 8) else stagedByte es p := by
  rw [stagedByte, List.foldl_append]
  rfl

/-- A read of the range of the last store sees its bytes alone. -/
theorem overlay_append_store (es : List StepEffect) (va : Nat) (h : Home) (v : DWord) (w : Nat) (bs : List Byte) :
    overlay (es ++ [.store va h bs.length v w]) va bs = leBytes bs.length v.toNat := by
  refine List.ext_getElem (by rw [overlay, List.length_mapIdx, leBytes_length]) fun i hi hi' => ?_
  rw [leBytes_length] at hi'
  simp only [overlay, List.getElem_mapIdx, stagedByte_append_store]
  rw [if_pos (by omega), Option.getD_some, Nat.add_sub_cancel_left]
  refine BitVec.eq_of_getLsbD_eq fun k hk => ?_
  rw [← List.getD_eq_getElem (d := 0), getLsbD_leBytes hi' _ hk, BitVec.getLsbD_extractLsb', decide_eq_true hk, Bool.true_and]
  rfl

/-- Settles O35: the bytes of the read are those of the store, and they make its value. -/
theorem sldReadsTheStepsOwnStores : Obligations.SldReadsTheStepsOwnStores := by
  unfold Obligations.SldReadsTheStepsOwnStores
  rintro es va n w h v bs - rfl
  rw [overlay_append_store, natOfBytes_leBytes]

end Sys2Proof.Machine
end

section
/-! The statements on what ends a step and on what stages configurations (13 R200, R211, R216 to R218; 16 R260; 21 R329, R342). -/
namespace Sys2Proof.Machine

/-- Settles O37: WAITQ ends its step in any code, and what it waits for is told by the kind of its sequencer. -/
theorem waitqWaitsForQuiet : Obligations.WaitqWaitsForQuiet := by
  unfold Obligations.WaitqWaitsForQuiet
  intro s q a x r o h
  refine ⟨(exec_waitq o s).trans (inStep_ends h rfl), fun c hq => ?region, fun t hq => ?stream⟩
  case region =>
    rw [hq]
    rfl
  case stream =>
    rw [hq]
    exact List.isEmpty_iff

/-! ## RUN -/

section
variable {s : State} {c : Nat} {a : Activation} {x : Sequencer} {r : StepRun} {o : QA}

/-- A RUN asks for class 4, which takes 400 milliwatts for each tile that is charged. -/
theorem overBudget_run_iff : overBudget s a 4 = true ↔ s.host.budget < 400 * chargedTiles a := decide_eq_true_iff

theorem exec_run_unbound (h : RunsRegion s c a x r) (hp : s.portSends a.anchor o.d.toNat = false)
    (hc : stagedCommit r.effects = false) : exec (.run o) s = .next (takeStepException s (.region c) unboundPort) :=
  (exec_run o s).trans (inRegionStep_exc h (if_pos ⟨hp, hc⟩))

theorem not_unbound {sends commits : Bool} (h : sends = true ∨ commits = true) : ¬(sends = false ∧ commits = false) := by
  rintro ⟨rfl, rfl⟩
  simp at h

variable (h : RunsRegion s c a x r) (bound : s.portSends a.anchor o.d.toNat = true ∨ stagedCommit r.effects = true)
include h bound

theorem exec_run_overBudget (base : stagedBase a r.effects = true) (beyond : s.host.budget < 400 * chargedTiles a) :
    exec (.run o) s = .next (takeStepException s (.region c) { code := 0x64 }) :=
  (exec_run o s).trans (inRegionStep_exc h ((if_neg (not_unbound bound)).trans
    (if_pos (Bool.and_eq_true_iff.mpr ⟨base, overBudget_run_iff.mpr beyond⟩))))

theorem exec_run_places (free : ¬(stagedBase a r.effects = true ∧ s.host.budget < 400 * chargedTiles a)) :
    exec (.run o) s = .next (stepEnds s (.region c) x { r with effects := r.effects ++
      [.run o.d.toNat (x.reg o.a.toNat) (o.flags.extractLsb' 0 5) (o.flags.extractLsb' 5 3) r.word] } .run) :=
  (exec_run o s).trans (inRegionStep_ok h ((if_neg (not_unbound bound)).trans
    (if_neg fun both => free ((Bool.and_eq_true_iff.mp both).imp_right overBudget_run_iff.mp))))

end

/-- Settles O38: DONE and WAITSEQ end a step of any code, CFG and COMMIT stage, and a RUN passes its two checks or faults. -/
theorem terminatorsEndTheirStep : Obligations.TerminatorsEndTheirStep := by
  unfold Obligations.TerminatorsEndTheirStep
  intro s q c a x r o e
  refine ⟨fun h => ⟨(exec_done o s).trans (inStep_ends h rfl), (exec_waitseq e s).trans (inStep_ends h rfl)⟩, fun h => ?_⟩
  exact ⟨(exec_cfg o s).trans (inRegionStep_stage h rfl), (exec_commit o s).trans (inRegionStep_stage h rfl),
    exec_run_places h, exec_run_unbound h, exec_run_overBudget h⟩

end Sys2Proof.Machine
end

section
/-! The statement on the generators, from one rule on an instruction that names a generator (13 R221, R224). -/
namespace Sys2Proof.Machine

section
variable {s : State} {q : SeqId} {a : Activation} {x : Sequencer} {r : StepRun} {ag : Nat}
  {bound : State → Nat → Nest → Bool} {e : Sequencer → StepRun → StepEffect}

theorem onGenerator_behind_commit (h : RunsStep s q a x r) (hc : stagedCommit r.effects = true) :
    onGenerator s ag bound e = .next (stepStages s q x r (e x r)) :=
  inStep_stage h (if_pos (Bool.or_eq_true_iff.mpr (.inr hc)))

theorem onGenerator_bound {n : Nest} (h : RunsStep s q a x r) (hn : (s.tile (seqTile a q)).nests.find ag = some n)
    (hb : bound s (seqTile a q) n = true) : onGenerator s ag bound e = .next (stepStages s q x r (e x r)) :=
  inStep_stage h (by simp only [hn, hb, Bool.true_or, if_true])

theorem onGenerator_unbound {n : Nest} (h : RunsStep s q a x r) (hn : (s.tile (seqTile a q)).nests.find ag = some n)
    (hb : bound s (seqTile a q) n = false) (hc : ¬stagedCommit r.effects = true) :
    onGenerator s ag bound e = .next (takeStepException s q unboundPort) :=
  inStep_exc h (by simp only [hn, hb, hc, Bool.false_or, Bool.false_eq_true, if_false])

theorem onGenerator_absent (h : RunsStep s q a x r) (hn : (s.tile (seqTile a q)).nests.find ag = none)
    (hc : ¬stagedCommit r.effects = true) : onGenerator s ag bound e = .next (takeStepException s q unboundPort) :=
  inStep_exc h (by simp only [hn, hc, Bool.false_or, Bool.false_eq_true, if_false])

end

/-- Settles O39: the three differ in what their port must be bound as, which AGSET does not ask. -/
theorem generatorInstructions : Obligations.GeneratorInstructions := by
  unfold Obligations.GeneratorInstructions
  intro s q a x r o h t later unbound sets pushes accepts
  have agset := exec_agset o s
  have push := exec_push o s
  have accept := exec_accept o s
  refine ⟨fun hc => ?behind, fun n hn => ?bound, fun hn hc => ?absent⟩
  case behind =>
    exact ⟨agset.trans (onGenerator_behind_commit h hc), push.trans (onGenerator_behind_commit h hc),
      accept.trans (onGenerator_behind_commit h hc)⟩
  case bound =>
    exact ⟨agset.trans (onGenerator_bound h hn rfl), fun hb => push.trans (onGenerator_bound h hn hb),
      fun hb => accept.trans (onGenerator_bound h hn hb), fun hb hc => push.trans (onGenerator_unbound h hn hb hc),
      fun hb hc => accept.trans (onGenerator_unbound h hn hb hc)⟩
  case absent =>
    exact ⟨agset.trans (onGenerator_absent h hn hc), push.trans (onGenerator_absent h hn hc),
      accept.trans (onGenerator_absent h hn hc)⟩

end Sys2Proof.Machine
end

section
/-! The statement on DEPTH and BANK (12 R186, R189; 13 R219, R220). -/
namespace Sys2Proof.Machine

/-! ## What their operands name -/

section
variable {a : Activation} {v el tile : Nat}

/-- An operand of DEPTH beyond its 18 bits, with a reserved bit, or outside the region. -/
theorem depthPort_illFormed (h : 2 ^ 18 ≤ v ∨ slice v 15 14 ≠ 0 ∨ a.absolute (v % 2 ^ 14) = none) :
    depthPort a v = none := by
  unfold depthPort
  split
  · rfl
  · next well =>
    have outside : a.absolute (v % 2 ^ 14) = none := by
      rcases h with big | reserved | outside
      · exact absurd (.inl (by omega)) well
      · exact absurd (.inr reserved) well
      · exact outside
    rw [outside]

theorem depthPort_eq (hv : v < 2 ^ 18) (reserved : slice v 15 14 = 0) (hel : a.absolute (v % 2 ^ 14) = some el) :
    depthPort a v = if isComputeTile el then some (el, slice v 17 16) else none := by
  have well : ¬(v / 2 ^ 18 ≠ 0 ∨ slice v 15 14 ≠ 0) := by
    rw [Nat.div_eq_of_lt hv, reserved]
    simp
  rw [depthPort, if_neg well, hel]

/-- An operand of BANK beyond its 14 bits, or outside the region. -/
theorem bankNamed_illFormed (h : 2 ^ 14 ≤ v ∨ a.absolute (v / 16 * 16) = none) : bankNamed a v = none := by
  unfold bankNamed
  split
  · rfl
  · next well =>
    have outside : a.absolute (v / 16 * 16) = none := h.resolve_left (by omega)
    rw [outside]

theorem bankNamed_eq (hv : v < 2 ^ 14) (htile : a.absolute (v / 16 * 16) = some tile) :
    bankNamed a v = if isComputeTile tile then none else some (tile, v % 16) := by
  rw [bankNamed, if_neg (not_not.mpr (Nat.div_eq_of_lt hv)), htile]

end

/-! ## DEPTH -/

section
variable {s : State} {c : Nat} {a : Activation} {x : Sequencer} {r : StepRun} {o : QA} {el port tile bank : Nat}
  (h : RunsRegion s c a x r)
include h

theorem exec_depth_unnamed (hn : depthPort a (x.reg o.a.toNat).toNat = none) :
    exec (.depth o) s = .next (takeStepException s (.region c)
      { code := 0x14, address := BitVec.ofNat 64 (x.reg o.a.toNat).toNat }) :=
  (exec_depth o s).trans (inRegionStep_exc h (by simp only [hn]))

theorem exec_depth_named (hn : depthPort a (x.reg o.a.toNat).toNat = some (el, port)) :
    let d := (x.reg o.b.toNat).toNat
    let good := (d % 8 = 0 ∧ 8 ≤ d ∧ d ≤ 256) ∧
      (s.depthFits r.effects el port d = true ∨ stagedCommit r.effects = true)
    (good → exec (.depth o) s = .next (stepStages s (.region c) x r (.depth el port d r.word))) ∧
    (¬good → exec (.depth o) s = .next (takeStepException s (.region c)
      { code := 0x14, address := BitVec.ofNat 64 (x.reg o.a.toNat).toNat })) := by
  intro d good
  have checked : d % 8 ≠ 0 ∨ d < 8 ∨ 256 < d ∨
      (s.depthFits r.effects el port d = false ∧ stagedCommit r.effects = false) ↔ ¬good := by
    simp only [good, not_and_or, not_or, not_le, Bool.not_eq_true]
    tauto
  refine ⟨fun hg => ?_, fun hb => ?_⟩
  · refine (exec_depth o s).trans (inRegionStep_stage h ?_)
    simp only [hn]
    exact if_neg (mt checked.mp (not_not.mpr hg))
  · refine (exec_depth o s).trans (inRegionStep_exc h ?_)
    simp only [hn]
    exact if_pos (checked.mpr hb)

/-! ## BANK -/

theorem exec_bank_unnamed (hn : bankNamed a (x.reg o.a.toNat).toNat = none) :
    exec (.bank o) s = .next (takeStepException s (.region c)
      { code := 0x15, address := BitVec.ofNat 64 (x.reg o.a.toNat).toNat }) :=
  (exec_bank o s).trans (inRegionStep_exc h (by simp only [hn]))

theorem exec_bank_free (hn : bankNamed a (x.reg o.a.toNat).toNat = some (tile, bank))
    (free : s.bankBusy a r.effects tile bank = false ∨ stagedCommit r.effects = true) :
    exec (.bank o) s = .next (stepStages s (.region c) x r (.bank tile bank (bankMode o.flags) r.word)) := by
  refine (exec_bank o s).trans (inRegionStep_stage h ?_)
  simp only [hn]
  refine if_neg fun ⟨busy, early⟩ => ?_
  simp [busy, early] at free

theorem exec_bank_busy (hn : bankNamed a (x.reg o.a.toNat).toNat = some (tile, bank))
    (busy : s.bankBusy a r.effects tile bank = true) (early : ¬stagedCommit r.effects = true) :
    exec (.bank o) s = .next (takeStepException s (.region c)
      { code := 0x16, address := BitVec.ofNat 64 (x.reg o.a.toNat).toNat }) := by
  refine (exec_bank o s).trans (inRegionStep_exc h ?_)
  simp only [hn]
  exact if_pos ⟨busy, Bool.eq_false_iff.mpr early⟩

end

/-- Settles O40: the operand names a port or a bank or faults, and what it names passes its check or faults. -/
theorem depthAndBank : Obligations.DepthAndBank := by
  unfold Obligations.DepthAndBank
  intro s c a x r o el port tile bank h v d traps later legal room
  have fits : s.depthFits r.effects el port d = true ↔ room := by
    simp only [State.depthFits, Bool.and_eq_true, decide_eq_true_eq, room]
  refine ⟨fun hv reserved hel => ⟨fun compute hport => ?port, fun memory => ?notElement⟩,
    fun ill => exec_depth_unnamed h (depthPort_illFormed ill),
    fun hv htile => ⟨fun memory hbank => ?bank, fun compute => ?notBank⟩,
    fun ill => exec_bank_unnamed h (bankNamed_illFormed ill)⟩
  case port =>
    have named : depthPort a v = some (el, port) := by rw [depthPort_eq hv reserved hel, if_pos compute, hport]
    obtain ⟨stages, faults⟩ := exec_depth_named h named
    rw [fits] at stages faults
    exact ⟨fun hl hr => stages ⟨hl, hr⟩, fun hl => faults fun good => hl good.1,
      fun hr hc => faults fun good => good.2.elim hr hc⟩
  case notElement =>
    refine exec_depth_unnamed h ?_
    rw [depthPort_eq hv reserved hel, if_neg (Bool.eq_false_iff.mp memory)]
  case bank =>
    have named : bankNamed a v = some (tile, bank) := by
      rw [bankNamed_eq hv htile, if_neg (Bool.eq_false_iff.mp memory), hbank]
    exact ⟨exec_bank_free h named, exec_bank_busy h named⟩
  case notBank =>
    refine exec_bank_unnamed h ?_
    rw [bankNamed_eq hv htile, if_pos compute]

end Sys2Proof.Machine
end

section
/-! The statement on the exception of a step, which leaves out that the table of activations lists each under its own colour: the
exception puts the held sequencer back with its activation, so under the colour that the activation names. -/
namespace Sys2Proof.Machine

/-- A sequencer at the first word of a step. -/
def atFirstWord : Sequencer := { step := some {} }

/-- A package that lists an activation of colour 0 under colour 1, where its region sequencer executes a step. -/
def listedElsewhere : State :=
  { focus := .sequencer (.region 1), activations := [(1, { colour := 0, seq := atFirstWord })] }

theorem runsStep_listedElsewhere :
    RunsStep listedElsewhere (.region 1) { colour := 0, seq := atFirstWord } atFirstWord {} := ⟨rfl, rfl, rfl, rfl⟩

/-- The sequencer under colour 1 still stands in its step; the held one is under colour 0. -/
theorem sequencers_takeStepException_listedElsewhere :
    let t := takeStepException listedElsewhere (.region 1) (illegalInfo false)
    t.sequencer (.region 1) = some atFirstWord ∧
      t.sequencer (.region 0) = some { atFirstWord with step := none, held := some { info := illegalInfo false } } :=
  ⟨rfl, rfl⟩

/-- Refutes O46: where an activation is listed under another colour than its own, the sequencer of the colour that it is listed
under is not the one that is held. -/
theorem not_stepExceptionUndoesTheStep : ¬ Obligations.StepExceptionUndoesTheStep := by
  unfold Obligations.StepExceptionUndoesTheStep
  intro h
  obtain ⟨undone, -⟩ := h listedElsewhere _ _ _ _ (illegalInfo false) runsStep_listedElsewhere
  obtain ⟨-, -, -, -, -, -, -, held, -⟩ := undone List.not_mem_nil
  obtain ⟨stands, -⟩ := sequencers_takeStepException_listedElsewhere
  cases stands.symm.trans (held ⟨rfl, rfl⟩)

end Sys2Proof.Machine
end

section
/-! SUPPORT. The events of a sequencer: a step starts and commits, and waits end (13 R199 to R201; 16 R260; 20 R325). -/
namespace Sys2Proof.Machine

section
variable {s : State} {q : SeqId} {a : Activation} {x : Sequencer} (ha : s.seqActivation q = some a)
  (hx : s.sequencer q = some x)
include ha hx

/-! ## The start of a step -/

theorem exec_stepStart_starts (run : x.running = true) (idle : x.step = none) (free : x.held = none)
    (landed : x.lateAccess = []) (ready : x.wait = .none) (may : s.mayStart a = true) (steps : a.stepMode = false)
    (phase : isStreamSeq q = true ∨ a.phase = .running) :
    exec (.stepStart q) s = .next (s.putSequencer q { x with step := some { saved := x.regs } }) := by
  have starts : (isStreamSeq q || (a.phase = .running && (!a.stepMode || a.stepGrants = 2))) = true := by
    simp [steps, phase]
  rw [exec_stepStart, execStepStart, ha, hx]
  exact (if_pos (by simp [run, idle, free, landed, ready, may, starts])).trans (if_pos (by simp [steps]))

/-! ## STEP_COMMIT -/

section
variable {r : StepRun} {e : StepEnd} (step : x.step = some r) (ended : r.ended = some e) (fresh : r.released = false)
  (live : a.cancelled = false) (force : a.inForce = true) (free : x.held = none)
  (fires : Upset.stepFiring q ∉ s.upsets) (still : isStreamSeq q = false ∨ a.sweep = false)
include step ended fresh live force free fires still

theorem exec_stepCommit_released {t : State} {x' : Sequencer} {b : Bool}
    (checked : s.checkStep q (releaseOrder r.effects) = .ok ())
    (releases : (s.putSequencer q { x with
      step := some { r with effects := releaseOrder r.effects, released := true } }).releaseAll
      q x.cc (releaseOrder r.effects) = (t, [], b)) (hx' : t.sequencer q = some x') :
    exec (.stepCommit q) s = .next ((t.putSequencer q (x'.finishStep e)).afterStep q e) := by
  have discards (k : Bool) : a.discards k = false := by rw [Activation.discards, live, Bool.false_and]
  have sweeps : (isStreamSeq q && a.sweep) = false := Bool.and_eq_false_iff.mpr still
  rw [ended, free] at releases
  simp [execStepCommit, ha, hx, step, ended, fresh, discards, force, free, fires, sweeps, checked, releases, hx']

theorem exec_stepCommit_fails {f : FaultInfo} {w : Nat} (checked : s.checkStep q (releaseOrder r.effects) = .error (f, w)) :
    exec (.stepCommit q) s = .next (takeStepException
      (s.putSequencer q { x with step := some { r with effects := releaseOrder r.effects, word := w } }) q f) := by
  have discards (k : Bool) : a.discards k = false := by rw [Activation.discards, live, Bool.false_and]
  have sweeps : (isStreamSeq q && a.sweep) = false := Bool.and_eq_false_iff.mpr still
  simp [execStepCommit, ha, hx, step, ended, fresh, discards, force, free, fires, sweeps, checked]

end

/-! ## Waits -/

omit ha hx in
theorem hasReached_of_lt {v w : Word} (h : (v - w).toNat < 2 ^ 31) : hasReached v w = true := decide_eq_true h

section
variable (run : x.running = true) (idle : x.step = none) (free : x.held = none) (force : a.inForce = true)
include run idle free force

theorem exec_waitSatisfied_quiet (hw : x.wait = .quiet) (quiet : s.quietFor q a = true) :
    exec (.waitSatisfied q) s = .next (s.endWait q x) := by
  simp [execWaitSatisfied, ha, hx, run, idle, free, force, hw, quiet, occurs]

theorem exec_waitSatisfied_sequence {engine : Nat} {v : Word} (hw : x.wait = .sequence engine v)
    (reached : ((s.chain (chainIdOf a (seqTile a q) engine)).seq - v).toNat < 2 ^ 31)
    (plain : v.toNat ∉ (s.chain (chainIdOf a (seqTile a q) engine)).eyelets) :
    exec (.waitSatisfied q) s = .next (s.endWait q x) := by
  simp [execWaitSatisfied, ha, hx, run, idle, free, force, hw, hasReached_of_lt reached, plain]

theorem exec_waitSatisfied_eyelet {va : DWord} {g : Word} {l : Leaf} {t : State} {w : EyeletWords} {x' : Sequencer}
    (hw : x.wait = .eyelet va g) (hl : s.reach a .wait va.toNat = .ok l)
    (read : (s.cacheLeaf a.entry.asid va.toNat l).readEyelet none l.pa = (t, some w)) (clean : w.flags < 2)
    (reached : (BitVec.ofNat 32 w.generation - g).toNat < 2 ^ 31) (hx' : (t.observeAll a).sequencer q = some x') :
    exec (.waitSatisfied q) s = .next ((t.observeAll a).endWait q x') := by
  simp [execWaitSatisfied, ha, hx, run, idle, free, force, hw, hl, read, eyeletBad_eq_false clean,
    hasReached_of_lt reached, hx']

end

end

end Sys2Proof.Machine
end

section
/-! SUPPORT. Configurations that are loaded and swept into force, and start tokens (13 R211 to R218). -/
namespace Sys2Proof.Machine

variable {s : State} {a : Activation} {c : Nat}

theorem Activation.inForce_iff : a.inForce = true ↔ a.phase = .running ∨ a.phase = .finishing := by
  simp [Activation.inForce]

/-- A change of an activation that keeps its colour: an activation that then stands under its own colour is the changed one. -/
theorem State.activation_mapActivation {f : Activation → Activation} {b : Activation}
    (hb : (s.mapActivation c f).activation c = some b) (hc : b.colour = c) (hf : ∀ a, (f a).colour = a.colour) :
    ∃ a, b = f a := by
  unfold State.mapActivation at hb
  rcases ha : s.activation c with _ | a <;> rw [ha] at hb <;> dsimp only at hb
  · cases ha.symm.trans hb
  · refine ⟨a, ?_⟩
    by_cases own : a.colour = c
    · have put := State.activation_putActivation_self (s := s) (f a)
      rw [hf, own, hb] at put
      exact Option.some.inj put
    · have kept := State.activation_putActivation_of_ne (s := s) (f a) c (by rw [hf]; exact Ne.symm own)
      rw [hb, ha] at kept
      exact absurd (Option.some.inj kept ▸ hc) own

/-- The activation behind `k` of the `want` start tokens that its oldest RUN is still to place. -/
def Activation.afterStart (a : Activation) (s : State) (r : RunProgress) (rest : List RunProgress) (want k : Nat) : Activation :=
  { a with
    isc := a.isc + k,
    placed := (a.placed.filter fun p => s.oldest a ≤ p.iteration) ++ ((List.range k).map (a.isc + ·)).map fun m =>
      { iteration := m, mport := r.mport, chan := r.chan, ctx := r.ctx },
    runs := if want - k = 0 then rest else { r with remaining := r.remaining.map (· - k) } :: rest }

section
variable (ha : s.activation c = some a)
include ha

theorem exec_cfgLoad_loads {l : PendingLoad} {t : State} {k : LoadedConfig} (hl : a.load = some l) (phase : l.phase = .loading)
    (force : a.inForce = true) (keeps : l.discard = false) (loads : s.loadFor a l.image = (t, .ok k)) :
    exec (.cfgLoad c) s = .next (((t.meetNests a (k.nests.map (·.2.2))).install a l.image k).mapActivation c fun b =>
      { b with load := some { l with phase := .loaded, config := k } }) := by
  simp [execCfgLoad, ha, hl, phase, force, keeps, loads]

theorem exec_commitSweep_sweeps {l : PendingLoad} (hl : a.load = some l) (sweep : a.sweep = true) (phase : l.phase = .loaded)
    (force : a.inForce = true) (stays : s.givesWay a = false) (still : s.isStill a = true) (added : s.stepAdds a = false)
    (idle : ∀ e ∈ a.elements, (s.element e).block = none) :
    exec (.commitSweep c) s = .next ((s.meetNests a (l.config.nests.map (·.2.2))).sweepTo a l) := by
  have blocks : a.elements.all (fun e => (s.element e).block.isNone) = true := by simpa using idle
  simp only [exec_commitSweep, execCommitSweep, ha, hl, sweep, phase, force, stays, still, added, blocks]
  rfl

omit ha in
/-- The activation behind a sweep has the configuration of the load, but for its region program. -/
theorem State.activation_sweepTo {l : PendingLoad} {b : Activation} (hb : (s.sweepTo a l).activation a.colour = some b)
    (own : b.colour = a.colour) :
    (∃ p, b.config = { l.config with program := p }) ∧ b.image = l.image ∧ b.load = none ∧ b.sweep = false := by
  rw [State.sweepTo] at hb
  obtain ⟨old, rfl⟩ := State.activation_mapActivation hb own fun _ => rfl
  exact ⟨⟨_, rfl⟩, rfl, rfl, rfl⟩

theorem exec_runStartTokens_places {r : RunProgress} {rest : List RunProgress} (hr : a.runs = r :: rest)
    (granted : r.needs = false) (may : s.mayStart a = true) :
    let want := min (r.remaining.getD (a.extent - a.isc)) (a.extent - a.isc)
    let k := min want (s.oldest a + 64 - a.isc)
    (k ≠ 0 ∨ want = 0) →
    ∃ (t : State) (a' : Activation), exec (.runStartTokens c) s = .next (t.putActivation a') ∧ a'.isc = a.isc + k ∧
      t = s.emit (.tileMem a.anchor r.mport) ((List.range k).map fun i => startToken a r.chan r.ctx (a.isc + i)) ∧
      (k < want → ∃ r', a'.runs = r' :: rest) ∧ (want = k → a'.runs = rest) := by
  intro want k places
  have goes : ¬((k = 0 && want - k ≠ 0) = true) := by
    rw [Bool.and_eq_true, decide_eq_true_eq, decide_eq_true_eq]
    omega
  have placed : exec (.runStartTokens c) s = .next ((s.emit (.tileMem a.anchor r.mport)
      (((List.range k).map (a.isc + ·)).map (startToken a r.chan r.ctx))).putActivation (a.afterStart s r rest want k)) := by
    rw [exec_runStartTokens, execRunStartTokens, ha]
    dsimp only
    rw [hr]
    exact (if_neg (by simp [granted, may])).trans (if_neg goes)
  refine ⟨_, _, placed, rfl, ?tokens, fun less => ⟨_, if_neg (by omega)⟩, fun all => if_pos (by omega)⟩
  case tokens =>
    rw [List.map_map]
    rfl

end

end Sys2Proof.Machine
end

section
/-! SUPPORT. The next token of a PUSH and of an ACCEPT (13 R222, R223; 16 R271). -/
namespace Sys2Proof.Machine

variable {s t : State} {a : Activation} {tile mport i : Nat} {st : Stream}

/-- The extents of a stream that no invalidation has covered stay as they are. -/
theorem State.repatch_fresh (fresh : st.stale = false) : s.repatch a tile i st = (s, some st) := by
  unfold State.repatch
  rw [fresh]
  rfl

section
variable (hst : (s.tile tile).streams[i]? = some st) (ha : s.activation st.colour.toNat = some a) (free : st.held = none)
  (may : s.mayStart a = true)
include hst ha free may

theorem exec_pushStream_emits (first : portStream (s.tile tile) true mport = some i)
    (turn : ∀ k ∈ (s.tile tile).streams.take i, ¬(k.isPush = true ∧ k.ag = st.ag)) {ws : List Word}
    (fresh : st.stale = false) (reads : s.readNest a tile st st.next (min 64 (st.nest.words - st.next)) = (t, .ok ws)) :
    let n := min 64 (st.nest.words - st.next)
    let t' := t.emit (.tileMem tile mport) [{ kind := .data, vector := decide (8 < n), chan := st.chan, ctx := st.ctx,
                                              colour := st.colour, iter := st.iter, data := vecOfWords ws }]
    exec (.pushStream tile mport) s = .next (t'.putTile tile { t'.tile tile with
      streams := if st.nest.words ≤ st.next + n then (t'.tile tile).streams.eraseIdx i
        else (t'.tile tile).streams.set i { st with next := st.next + n } }) := by
  have ahead : ((s.tile tile).streams.take i).any (fun k => k.isPush && k.ag = st.ag) = false := by
    simpa using turn
  simp only [exec_pushStream, execPushStream, first, hst, ha, free, may, ahead, State.repatch_fresh fresh, reads]
  rfl

section
variable {k : Token} {rest : List Flit} (first : portStream (s.tile tile) false mport = some i)
  (head : headToken ((s.tile tile).fifos.getD mport []) = some (k, rest))
include first head

theorem exec_acceptStream_foreign (chan : k.chan ≠ st.chan) :
    exec (.acceptStream tile mport) s =
      .next ((s.putTile tile { s.tile tile with fifos := (s.tile tile).fifos.put mport rest }).report (s.streamSite a tile st)
        { code := 0x18 }) := by
  simp [execAcceptStream, first, head, hst, ha, free, may, chan]

theorem exec_acceptStream_takes (chan : k.chan = st.chan) (colour : k.colour = st.colour) (data : k.kind = .data)
    (fresh : st.stale = false) {m : Nat} {half : Option Word} (accepts : s.acceptWords a tile st st.next st.half
      ((List.range (if k.vector then 64 else 8)).map (vecWord k.data)) = (t, m, half, none)) (more : m < st.nest.words) :
    let u := if st.nest.adds then t.handBits tile mport else t
    exec (.acceptStream tile mport) s = .next (u.putTile tile { u.tile tile with
      fifos := (u.tile tile).fifos.put mport rest,
      streams := (u.tile tile).streams.set i { st with next := m, half := half } }) := by
  simp [execAcceptStream, first, head, hst, ha, free, may, chan, colour, data, State.repatch_fresh fresh, accepts, more.not_ge]

end

end

end Sys2Proof.Machine
end

section
/-! The statement on the events of the sequencers, from the rules above. -/
namespace Sys2Proof.Machine

/-- Settles O49: each clause is the rule of its event. -/
theorem sequencerEventsOccur : Obligations.SequencerEventsOccur := by
  unfold Obligations.SequencerEventsOccur
  intro s q a x c
  refine ⟨fun ha hx => ⟨exec_stepStart_starts ha hx, ?commits, ?waits⟩,
    fun ha => ⟨?loads, ?sweeps, fun r rest => exec_runStartTokens_places ha⟩, ?pushes, ?accepts⟩
  case commits =>
    intro r e step ended fresh live force free fires still
    exact ⟨fun t x' b => exec_stepCommit_released ha hx step ended fresh live force free fires still,
      fun f w => exec_stepCommit_fails ha hx step ended fresh live force free fires still⟩
  case waits =>
    intro run idle free force
    exact ⟨exec_waitSatisfied_quiet ha hx run idle free force,
      fun engine v => exec_waitSatisfied_sequence ha hx run idle free force,
      fun va g l t w x' => exec_waitSatisfied_eyelet ha hx run idle free force⟩
  case loads =>
    exact fun l t k hl phase force => exec_cfgLoad_loads ha hl phase (Activation.inForce_iff.mpr force)
  case sweeps =>
    intro l hl sweep phase force stays still added idle met
    exact ⟨exec_commitSweep_sweeps ha hl sweep phase (Activation.inForce_iff.mpr force) stays still added idle,
      fun b => State.activation_sweepTo⟩
  case pushes =>
    exact fun tile mport i st ws t first hst ha free may turn => exec_pushStream_emits hst ha free may first turn
  case accepts =>
    exact fun tile mport i st k rest first head hst ha free may =>
      ⟨exec_acceptStream_foreign hst ha free may first head,
       fun t m half chan colour data fresh => exec_acceptStream_takes hst ha free may first head chan colour data fresh⟩

end Sys2Proof.Machine
end

section
/-! SUPPORT. The stacks of the contexts: no access of the hardware moves their entries, whatever error it meets on its way (15 R244;
24 R373 to R379). -/
namespace Sys2Proof.Machine

variable (s : State)

theorem foldl_stackOf {α : Type} {f : State → α → State} (hf : ∀ s a, (f s a).stackOf = s.stackOf)
    (l : List α) (s : State) : (l.foldl f s).stackOf = s.stackOf :=
  List.foldlRecOn (motive := fun t : State => t.stackOf = s.stackOf) l f rfl fun t ht a _ => (hf t a).trans ht

/-! ## Records, counters and corrected errors -/

@[simp] theorem State.blackBox_stackOf (kind : Nat) (fs : List (Nat × Nat × Nat)) : (s.blackBox kind fs).stackOf = s.stackOf := by
  unfold State.blackBox
  split <;> rfl

@[simp] theorem State.fatal_stackOf (cause : Nat) (fs : List (Nat × Nat × Nat)) : (s.fatal cause fs).stackOf = s.stackOf :=
  State.blackBox_stackOf s _ _

@[simp] theorem State.lowerCounters_stackOf (asid : Nat) (r : BitVec 512) : (s.lowerCounters asid r).stackOf = s.stackOf := by
  refine foldl_stackOf (fun _ _ => ?_) _ s
  rfl

@[simp] theorem State.retire_stackOf (pa : Nat) : (s.retire pa).1.stackOf = s.stackOf := by
  unfold State.retire
  split
  · rfl
  · split <;> rfl

@[simp] theorem State.enterErasure_stackOf (reg lo pos : Nat) : (s.enterErasure reg lo pos).stackOf = s.stackOf :=
  State.blackBox_stackOf _ _ _

@[simp] theorem State.hbmCorrected_stackOf (pa pos : Nat) : (s.hbmCorrected pa pos).stackOf = s.stackOf := by
  unfold State.hbmCorrected
  simp [apply_ite State.stackOf]

@[simp] theorem State.decodePiece_stackOf (pa : Nat) : (s.decodePiece pa).stackOf = s.stackOf := by
  unfold State.decodePiece
  dsimp only
  split <;> simp [apply_ite State.stackOf]

@[simp] theorem State.dropLine_stackOf (line : Nat) : (s.dropLine line).stackOf = s.stackOf := by
  unfold State.dropLine
  split <;> rfl

@[simp] theorem State.quarantineWay_stackOf (die group way : Nat) : (s.quarantineWay die group way).stackOf = s.stackOf := by
  refine foldl_stackOf (fun t l => ?_) _ _
  simp [apply_ite State.stackOf, foldl_stackOf fun t p => State.decodePiece_stackOf t p]

/-! ## Faults, descriptors and errors of the memory -/

/-- The hardware's own accesses leave the stacks. -/
def Hardware.SparesStacks (h : Hardware) : Prop :=
  (∀ s pa n, (h.read s pa n).stackOf = s.stackOf) ∧ ∀ s pa bs, (h.write s pa bs).stackOf = s.stackOf

section
variable {h : Hardware} (hh : h.SparesStacks)
include hh

theorem State.enqueueBy_stackOf (q r : Nat) : (s.enqueueBy h q r).1.stackOf = s.stackOf := by
  unfold State.enqueueBy
  simp [apply_ite Prod.fst, apply_ite State.stackOf, hh.2]

theorem State.recordBy_stackOf (q r : Nat) : (s.recordBy h q r).stackOf = s.stackOf := by
  have first := State.enqueueBy_stackOf s hh q r
  unfold State.recordBy
  rcases he : s.enqueueBy h q r with ⟨t, _ | f⟩ <;> rw [he] at first
  · exact first
  · simpa [apply_ite State.stackOf, State.enqueueZeroBy, State.enqueueBy_stackOf _ hh] using first

theorem State.deliverBy_stackOf (f : FaultSite) (i : FaultInfo) : (s.deliverBy h f i).stackOf = s.stackOf := by
  unfold State.deliverBy
  simp [apply_ite State.stackOf, State.recordBy_stackOf _ hh]

theorem State.meetDescBy_stackOf (asid : Nat) : (s.meetDescBy h asid).stackOf = s.stackOf := by
  unfold State.meetDescBy
  dsimp only
  split <;> simp [apply_ite State.stackOf, State.deliverBy_stackOf _ hh, hh.1]

theorem State.terminateContextBy_stackOf (asid : Nat) : (s.terminateContextBy h asid).stackOf = s.stackOf := by
  simp [State.terminateContextBy, State.setDescBy, State.setEnabledBy, hh.2, State.meetDescBy_stackOf _ hh,
    foldl_stackOf fun t r => State.lowerCounters_stackOf t asid r]

theorem State.memoryErrorBy_stackOf (line kind owner die way pieces : Nat) (retired : Option Nat) :
    (s.memoryErrorBy h line kind owner die way pieces retired).stackOf = s.stackOf := by
  simp [State.memoryErrorBy, apply_ite State.stackOf, State.recordBy_stackOf _ hh]

theorem State.hbmUncorrectableBy_stackOf (pa : Nat) : (s.hbmUncorrectableBy h pa).stackOf = s.stackOf := by
  unfold State.hbmUncorrectableBy
  dsimp only
  split <;> simp [State.memoryErrorBy_stackOf _ hh]

theorem State.meetHbmBy_stackOf (pa : Nat) : (s.meetHbmBy h pa).stackOf = s.stackOf := by
  have correct (t : State) (ps : List Nat) : (ps.foldl (fun s pos => s.hbmCorrected pa pos) t).stackOf = t.stackOf :=
    foldl_stackOf (fun t p => State.hbmCorrected_stackOf t pa p) ps t
  unfold State.meetHbmBy
  dsimp only
  split
  · rfl
  · split <;> simp [correct, State.hbmUncorrectableBy_stackOf _ hh]

/-! ## Sectors and lines -/

theorem State.fetchSectorBy_stackOf (pa : Nat) : (s.fetchSectorBy h pa).stackOf = s.stackOf := by
  simp [State.fetchSectorBy, apply_ite State.stackOf, foldl_stackOf fun t p => State.meetHbmBy_stackOf t hh p]

omit hh in
theorem State.readOut_stackOf {fuel : Nat} (hu : ∀ (s : State) (l : LlcLine) (pa : Nat),
    (State.uncorrectableBy h fuel s l pa).stackOf = s.stackOf) (x : LlcLine) : (State.readOut h fuel s x).stackOf = s.stackOf := by
  refine (State.dropLine_stackOf _ _).trans (foldl_stackOf (fun t p => ?_) _ s)
  unfold State.readOutPiece
  split <;> simp [apply_ite State.stackOf, hu]

theorem State.uncorrectableBy_stackOf (fuel : Nat) : ∀ (s : State) (l : LlcLine) (pa : Nat),
    (State.uncorrectableBy h fuel s l pa).stackOf = s.stackOf := by
  induction fuel with
  | zero => exact fun _ _ _ => rfl
  | succ fuel ih =>
    intro s l pa
    by_cases clean : l.dirty.getLsbD (pa / 128 % 2) = false
    · simp [State.uncorrectableBy_clean s h fuel clean, State.withoutSector, State.fetchSectorBy_stackOf _ hh,
        State.memoryErrorBy_stackOf _ hh]
    · by_cases last : s.lastResort l pa
      · simp [State.uncorrectableBy_fatal s h fuel clean last, State.lostLine, State.memoryErrorBy_stackOf _ hh]
      · simp [State.uncorrectableBy_quarantines s h fuel clean last, foldl_stackOf fun t x => State.readOut_stackOf t ih x,
          State.withoutWay, State.withoutLine, State.memoryErrorBy_stackOf _ hh, State.terminateContextBy_stackOf _ hh]

theorem State.meetPieceBy_stackOf (pa : Nat) : (s.meetPieceBy h pa).stackOf = s.stackOf := by
  unfold State.meetPieceBy
  split
  · rfl
  · split
    · rfl
    · dsimp only
      split <;> simp [State.uncorrectableBy_stackOf hh]

theorem State.writeBackBy_stackOf (line : Nat) : (s.writeBackBy h line).stackOf = s.stackOf := by
  have meets := foldl_stackOf fun t p => State.meetPieceBy_stackOf t hh p
  unfold State.writeBackBy
  split
  · rfl
  · split
    · rfl
    · dsimp only
      split <;> simp [apply_ite State.stackOf, meets]

theorem State.makeRoomBy_stackOf (fuel : Nat) : ∀ (s : State) (line : Nat),
    (State.makeRoomBy h fuel s line).stackOf = s.stackOf := by
  induction fuel with
  | zero => exact fun _ _ => rfl
  | succ fuel ih =>
    intro s line
    unfold State.makeRoomBy
    split
    · rfl
    · dsimp only
      split <;> simp [ih, State.writeBackBy_stackOf _ hh]

theorem State.ensureBy_stackOf (pa : Nat) : (s.ensureBy h pa).stackOf = s.stackOf := by
  simp [State.ensureBy, apply_ite State.stackOf, State.makeRoomBy_stackOf hh, State.fetchSectorBy_stackOf _ hh]

theorem State.readSectorBy_stackOf (pa n : Nat) : (s.readSectorBy h pa n).stackOf = s.stackOf := by
  simp [State.readSectorBy, apply_ite State.stackOf, State.ensureBy_stackOf _ hh,
    foldl_stackOf fun t (i : Nat) => State.meetPieceBy_stackOf t hh (pa / 32 * 32 + 32 * i)]

theorem State.meetRangeBy_stackOf (pa n : Nat) : (s.meetRangeBy h pa n).stackOf = s.stackOf :=
  foldl_stackOf (fun t (p : Nat × Nat × Nat) => State.readSectorBy_stackOf t hh p.2.1 p.2.2) _ s

theorem State.settleBy_stackOf (asid pa : Nat) : (s.settleBy h asid pa).stackOf = s.stackOf := by
  unfold State.settleBy
  dsimp only
  split <;> simp [apply_ite State.stackOf, State.ensureBy_stackOf _ hh, State.writeBackBy_stackOf _ hh]

theorem State.writeSectorBy_stackOf (asid pa : Nat) (bs : List Byte) : (s.writeSectorBy h asid pa bs).stackOf = s.stackOf := by
  unfold State.writeSectorBy
  split
  · rfl
  · split
    · rfl
    · dsimp only
      split <;> simp [apply_ite State.stackOf, State.settleBy_stackOf _ hh]

theorem State.llcPutBy_stackOf (asid pa : Nat) (bs : List Byte) : (s.llcPutBy h asid pa bs).stackOf = s.stackOf :=
  foldl_stackOf (fun t _ => State.writeSectorBy_stackOf t hh asid _ _) _ s

end

theorem hardwareAt_sparesStacks (n : Nat) : (hardwareAt n).SparesStacks := by
  induction n with
  | zero => exact ⟨fun _ _ _ => rfl, fun _ _ _ => rfl⟩
  | succ n ih =>
    refine ⟨fun s pa m => State.meetRangeBy_stackOf s ih pa m, fun s pa bs => ?_⟩
    simp [hardwareAt, apply_ite State.stackOf, State.llcPutBy_stackOf _ ih]

theorem State.meetRange_stackOf (pa n : Nat) : (s.meetRange pa n).stackOf = s.stackOf :=
  State.meetRangeBy_stackOf s (hardwareAt_sparesStacks _) pa n

/-- What the spill engine meets as it reads a descriptor leaves every stack. -/
theorem State.meetStack_stack (asid k : Nat) : (s.meetStack asid).1.stack k = s.stack k := by
  unfold State.meetStack State.stack
  simp [apply_ite Prod.fst, apply_ite State.stackOf, State.meetRange_stackOf]

end Sys2Proof.Machine
end

section
/-! SUPPORT. The events of the engines: how a command starts and completes, what one unit of work makes of it, and the rows of the copy
engine and the chunks of the clicker (14 R228, R230; 16 R258, R261 to R263). -/
namespace Sys2Proof.Machine

variable {s t u v : State} {c : ChainId} {place : Nat} {a : Activation} {k k' : Command}

/-! ## Results -/

@[simp] theorem andThen_ok {α β : Type} (s : State) (x : α) (f : State → α → Tried β) : andThen (s, .ok x) f = f s x := rfl
@[simp] theorem onRow_ok {α : Type} (row : Nat) (s : State) (x : α) : onRow row (s, .ok x) = (s, .ok x) := rfl

/-! ## The start and the completion of a command (16 R258) -/

theorem exec_engineCommandStart_starts {x : Chain} {bs : List Byte} (hx : s.chains.find? (fun y => y.id = c) = some x)
    (next : x.nextCommand = some k) (ha : s.activation k.colour = some a) (live : x.stopped = false) (may : s.mayStart a = true)
    (still : s.switching a = false) (engine : c.engine ≠ 5) (ready : s.tileReady c.tile = true) (names : pairNames a k = none)
    (reads : s.engineRead a c.engine k.record.parameter.toNat 64 = (t, .ok bs))
    (starts : startCommand t a c.tile { k with block := BitVec.ofNat 512 (natOfBytes bs) } = (u, .ok k')) :
    exec (.engineCommandStart c) s = .next (u.setCommand c { k' with phase := .running }) := by
  simp [execEngineCommandStart, hx, next, ha, live, may, still, engine, ready, names, reads, starts]

theorem exec_engineCommandStart_stops {x : Chain} {f : FaultInfo} (hx : s.chains.find? (fun y => y.id = c) = some x)
    (next : x.nextCommand = some k) (ha : s.activation k.colour = some a) (live : x.stopped = false) (may : s.mayStart a = true)
    (still : s.switching a = false) (engine : c.engine ≠ 5) (ready : s.tileReady c.tile = true) (names : pairNames a k = some f) :
    exec (.engineCommandStart c) s = .next (s.stopChain c k.place f) := by
  simp [execEngineCommandStart, hx, next, ha, live, may, still, engine, ready, names]

theorem pairNames_none (h : a.isPair = false ∨ (k.record.eyelet = 0 ∧ k.record.activation = 0)) : pairNames a k = none := by
  unfold pairNames
  rcases h with single | ⟨eyelet, activation⟩
  · simp [single]
  · simp [eyelet, activation]

theorem pairNames_eyelet (pair : a.isPair = true) (eyelet : k.record.eyelet ≠ 0) :
    pairNames a k = some { code := 0x23, flags := 16, address := k.record.eyelet, position := 16 } := by
  rw [pairNames, if_neg (by simp [pair]), if_pos eyelet]
  rfl

theorem pairNames_activation (pair : a.isPair = true) (eyelet : k.record.eyelet = 0) (activation : k.record.activation ≠ 0) :
    pairNames a k = some { code := 0x23, address := k.record.activation, position := 64 } := by
  rw [pairNames, if_neg (by simp [pair]), if_neg (not_not.mpr eyelet), if_pos activation]
  rfl

section
variable {x : Chain} (hx : s.chains.find? (fun y => y.id = c) = some x) (hk : x.command place = some k)
  (ha : s.activation k.colour = some a) (live : x.stopped = false)
  (may : (if c.engine = 5 then a.mayServe else s.mayStart a) = true)
include hx hk ha live may

theorem exec_engineCommandComplete_moved (phase : k.phase = .moved) :
    exec (.engineCommandComplete c place) s = .next ((s.setCommand c { k with
      phase := .adding, owed := k.owed + (if c.engine = 5 then 0 else k.eyeletBytes) }).issueOwed c place) := by
  simp [execEngineCommandComplete, hx, hk, ha, live, may, phase]

theorem exec_engineCommandComplete_added (phase : k.phase = .adding) (owes : k.owed = 0) (added : s.adding c place = false)
    (pushed : s.pushWaits a k.record.activation.toNat k.at_ = false) :
    exec (.engineCommandComplete c place) s = .next (s.finishCommand a c k) := by
  simp [execEngineCommandComplete, hx, hk, ha, live, may, phase, owes, added, pushed, occurs]

end

/-! ## One unit of work -/

section
variable {is_ : CommandRecord → Bool} {work : State → Activation → Command → Tried Command}

theorem onCommand_done (hw : s.working c place = some (a, k)) (still : s.switching a = false)
    (sound : c.engine = 5 ∨ Upset.engineFiring c ∉ s.upsets) (live : a.cancelled = false) (is : is_ k.record = true)
    (done : work s a k = (t, .ok k')) : onCommand c place s is_ work = .next (unitDone t c place k') := by
  have free : ¬(c.engine ≠ 5 ∧ Upset.engineFiring c ∈ s.upsets) := by tauto
  simp [onCommand, hw, is, still, free, done, live, unitDone]

theorem Works.onCommand_done (w : Works s c place a k) (is : is_ k.record = true) (done : work s a k = (t, .ok k')) :
    onCommand c place s is_ work = .next (unitDone t c place k') := by
  obtain ⟨hw, still, sound, live⟩ := w
  exact Machine.onCommand_done hw still (.inr sound) live is done

theorem Works.onCommand_stops {f : FaultInfo} (w : Works s c place a k) (is : is_ k.record = true)
    (stops : work s a k = (t, .error f)) : onCommand c place s is_ work = .next (t.stopChain c place f) := by
  obtain ⟨hw, still, sound, live⟩ := w
  simp [onCommand, hw, is, still, sound, stops]

end

section
variable (w : Works s c place a k)
include w

/-! ## Rows of the copy engine (14 R228; 16 R261) -/

theorem Works.copyRow (engine : k.record.engine = 0) (fn : k.record.fn = 0) :
    let n := k.extentOf 0
    let bytes := n * k.conv.ed
    let p := k.tuple k.row
    let dst := if k.transposes then (List.range n).map fun i => (k.destAt p i, k.conv.ed) else [(k.destAt p 0, bytes)]
    s.moveRow a c.tile k n (k.insideCount p.1) (k.sourceAt p) dst = (t, .ok ()) →
    exec (.copyRow c place) s = .next (unitDone t c place (k.rowDone k.copyRows bytes)) := by
  intro n bytes p dst moves
  rw [exec_copyRow]
  refine w.onCommand_done (by simp [engine, fn]) ?_
  dsimp only
  rw [moves]
  rfl

section
variable {ib : List Byte} (engine : k.record.engine = 0)
  (index : s.sideRead a 0 k.indexScratch ((k.indexList : Int) + 4 * k.row) 4 = (u, .ok ib))
include engine index

theorem Works.gatherRow (fn : k.record.fn = 1)
    (moves : u.moveRow a c.tile k (k.extentOf 0) (if k.bound ≠ 0 ∧ k.bound ≤ natOfBytes ib then 0 else k.extentOf 0)
      (k.source + natOfBytes ib * k.rowStride true)
      [((k.dest : Int) + k.row * k.rowStride false, k.extentOf 0 * k.conv.ed)] = (t, .ok ())) :
    exec (.gatherScatterRow c place) s =
      .next (unitDone t c place (k.rowDone k.rowCount (k.extentOf 0 * k.conv.ed))) := by
  rw [exec_gatherScatterRow]
  refine w.onCommand_done (by simp [engine, fn]) ?_
  simp only [index, onRow_ok, andThen_ok, fn, if_true, decide_eq_true_eq, moves]

theorem Works.scatterRow_beyond (fn : k.record.fn = 2) (bounded : k.bound ≠ 0) (beyond : k.bound ≤ natOfBytes ib) :
    exec (.gatherScatterRow c place) s = .next (unitDone u c place (k.rowDone k.rowCount 0)) := by
  rw [exec_gatherScatterRow]
  refine w.onCommand_done (by simp [engine, fn]) ?_
  simp [index, fn, bounded, beyond]

theorem Works.scatterRow_within (fn : k.record.fn = 2) (within : k.bound = 0 ∨ natOfBytes ib < k.bound)
    (moves : u.moveRow a c.tile k (k.extentOf 0) (k.extentOf 0) ((k.source : Int) + k.row * k.rowStride true)
      [((k.dest : Int) + natOfBytes ib * k.rowStride false, k.extentOf 0 * k.conv.ed)] = (t, .ok ())) :
    exec (.gatherScatterRow c place) s =
      .next (unitDone t c place (k.rowDone k.rowCount (k.extentOf 0 * k.conv.ed))) := by
  have inside : ¬(k.bound ≠ 0 ∧ k.bound ≤ natOfBytes ib) := by omega
  rw [exec_gatherScatterRow]
  refine w.onCommand_done (by simp [engine, fn]) ?_
  simp [index, fn, inside, moves]

end

/-! ## Chunks of the clicker (16 R263) -/

theorem Works.clickChunk (engine : k.record.engine = 1) (clicks : clickStep s a k = (t, .ok k')) :
    exec (.clickChunk c place) s = .next (unitDone t c place k') := by
  rw [exec_clickChunk]
  exact w.onCommand_done (by simp [engine]) clicks

end
end Sys2Proof.Machine
end

section
/-! SUPPORT. TBUILD and TPATCH: the table write that each queues, and the build that is refused (03 R28; 16 R265, R266). -/
namespace Sys2Proof.Machine

variable {s t u v : State} {c : ChainId} {place : Nat} {a : Activation} {k k' : Command}

/-! ## Bytes of scratch -/

@[simp] theorem State.scratchBytes_length (off n : Nat) : (s.scratchBytes a off n).length = n := by
  induction n generalizing off with
  | zero => rfl
  | succ n ih => rw [State.scratchBytes, List.length_cons, ih]

theorem State.drop_scratchBytes (off m n : Nat) : (s.scratchBytes a off (m + n)).drop m = s.scratchBytes a (off + m) n := by
  induction m generalizing off with
  | zero => rw [Nat.zero_add, List.drop_zero, Nat.add_zero]
  | succ m ih => rw [Nat.add_right_comm, State.scratchBytes, List.drop_succ_cons, ih, Nat.add_right_comm, Nat.add_assoc]

/-- The superscale of a group in scratch is its last word (03 R28). -/
theorem cb4Superscale_scratchBytes (off : Nat) : cb4Superscale (s.scratchBytes a off 136) = s.scratchNat a (off + 132) 4 := by
  rw [cb4Superscale, State.drop_scratchBytes off 132 4, List.take_of_length_le (by simp), State.scratchNat]

/-- The superscale of the group that column i of a TBUILD reads (03 R28; 16 R265). -/
def State.superscale (s : State) (a : Activation) (k : Command) (i : Nat) : Nat :=
  s.scratchNat a (k.field 4 4 + k.field 0x10 4 * i + 132) 4

theorem superscales (s : State) (a : Activation) (k : Command) (n : Nat) :
    ((List.range n).map fun i => cb4Superscale (s.scratchBytes a (k.field 4 4 + k.field 0x10 4 * i) 136)) =
      (List.range n).map (s.superscale a k) :=
  List.map_congr_left fun _ _ => cb4Superscale_scratchBytes _

/-- An ST32 build whose groups and G word lie in scratch has no bank fault. -/
theorem not_buildFaults (good : ∀ i, i < k.field 0x0C 4 → s.scratchGood a (k.field 4 4 + k.field 0x10 4 * i) 136 = true)
    (word : k.field 0x20 4 ≠ 0xFFFFFFFF → s.scratchGood a (k.field 0x20 4) 4 = true) :
    ¬((∃ i < k.field 0x0C 4, s.scratchGood a (k.field 4 4 + k.field 0x10 4 * i) 136 = false) ∨
      ¬k.field 0x20 4 = 0xFFFFFFFF ∧ s.scratchGood a (k.field 0x20 4) 4 = false) := by
  rintro (⟨i, hi, bad⟩ | ⟨named, bad⟩)
  · simp [good i hi] at bad
  · simp [word named] at bad

section
variable (w : Works s c place a k)
include w

/-! ## TABLE_BUILD and TABLE_PATCH -/

section
variable {el : Nat} (engine : k.record.engine = 2) (named : k.tableElement a = some el)
include engine named

theorem Works.tableBuild_st16 (fn : k.record.fn = 0) (form : k.isSt32 = false)
    (good : ∀ i, i < k.field 8 4 → s.scratchGood a (k.field 4 4 + k.field 0x10 4 * i) (k.field 0x0C 4) = true) :
    let r := s.queueTable c el k (.build (tableRows 16 (buildColumns s a k)) k.block none)
    exec (.tableBuild c place) s = .next (unitDone r.1 c place r.2) := by
  rw [exec_tableBuild]
  refine w.onCommand_done (by simp [engine, fn]) ?_
  simpa [named, form, tableWidth] using good

section
variable (fn : k.record.fn = 0) (form : k.isSt32 = true) (cols : 0 < k.field 0x0C 4)
  (good : ∀ i, i < k.field 0x0C 4 → s.scratchGood a (k.field 4 4 + k.field 0x10 4 * i) 136 = true)
  (word : k.field 0x20 4 ≠ 0xFFFFFFFF → s.scratchGood a (k.field 0x20 4) 4 = true)
include fn form cols good word

theorem Works.tableBuild_st32 (alike : ∀ i, i < k.field 0x0C 4 → s.superscale a k i = s.superscale a k 0)
    (finite : isFinite32 (s.superscale a k 0) = true) :
    let g := k.field 0x20 4
    let r := s.queueTable c el k (.build (tableRows 32 (buildColumns s a k)) k.block
      (if g = 0xFFFFFFFF then none else some (g, BitVec.ofNat 32 (superscaleG (s.superscale a k 0)))))
    exec (.tableBuild c place) s = .next (unitDone r.1 c place r.2) := by
  rw [exec_tableBuild]
  refine w.onCommand_done (by simp [engine, fn]) ?_
  have same : ¬∃ i < k.field 0x0C 4, ¬s.superscale a k i = s.superscale a k 0 := by simpa using alike
  simp [named, form, tableWidth, superscales, not_buildFaults good word, finite, cols, same]

theorem Works.tableBuild_st32_stops
    (apart : isFinite32 (s.superscale a k 0) = false ∨ ∃ i, i < k.field 0x0C 4 ∧ s.superscale a k i ≠ s.superscale a k 0) :
    exec (.tableBuild c place) s = .next (s.stopChain c place (k.tableFault a 0x53)) := by
  rw [exec_tableBuild]
  refine w.onCommand_stops (by simp [engine, fn]) ?_
  simp [named, form, superscales, not_buildFaults good word, cols, apart.symm]

end

theorem Works.tablePatch (fn : k.record.fn = 1) :
    let cols := k.field 8 4
    let count := if k.field 0 4 < 2 then cols else 256 * cols
    let size := if k.field 0 4 = 0 then 1 else 4
    s.scratchGood a (k.field 4 4) (count * size) = true →
    let r := s.queueTable c el k (.patch (k.field 0 4 % 2 = 1) (2 ≤ k.field 0 4) (k.record.auxiliary.toNat % 256) cols
      ((List.range count).map fun i => signedOf (8 * size) (s.scratchNat a (k.field 4 4 + size * i) size)))
    exec (.tablePatch c place) s = .next (unitDone r.1 c place r.2) := by
  intro cols count size good r
  have delta : (if decide (2 ≤ k.field 0 4) = true then 256 * cols else cols) = count := by
    simp only [count, decide_eq_true_eq]
    split <;> split <;> omega
  have bytes : (if (decide (2 ≤ k.field 0 4) || k.isSt32) = true then 4 else 1) = size := by
    simp only [size, Command.isSt32, Bool.or_eq_true, decide_eq_true_eq]
    split <;> split <;> omega
  rw [exec_tablePatch]
  refine w.onCommand_done (by simp [engine, fn]) ?_
  dsimp only
  rw [delta, bytes]
  simp only [named, good, Bool.true_eq_false, if_false]
  rfl

end

end
end Sys2Proof.Machine
end

section
/-! SUPPORT. SCANT: the running sums of a column, and where its bytes stand (16 R267). -/
namespace Sys2Proof.Machine

/-! ## Running sums -/

section
variable {add : Nat → Nat → Nat × Word}

@[simp] theorem runningSums_length (acc : Nat) (xs : List Nat) : (runningSums add acc xs).1.length = xs.length + 1 := by
  induction xs generalizing acc with
  | nil => rfl
  | cons x xs ih => simp [runningSums, ih]

theorem runningSums_zero (acc : Nat) (xs : List Nat) : (runningSums add acc xs).1.getD 0 0 = acc := by
  cases xs <;> rfl

theorem runningSums_succ {xs : List Nat} {j : Nat} (h : j < xs.length) (acc : Nat) :
    (runningSums add acc xs).1.getD (j + 1) 0 = (add ((runningSums add acc xs).1.getD j 0) (xs.getD j 0)).1 := by
  induction xs generalizing acc j with
  | nil => simp at h
  | cons x xs ih =>
    rw [runningSums, List.getD_cons_succ]
    cases j with
    | zero => exact runningSums_zero _ _
    | succ j => exact ih (by simpa using h) _

theorem runningSums_events (quiet : ∀ x y, (add x y).2 = 0) (acc : Nat) (xs : List Nat) : (runningSums add acc xs).2 = 0 := by
  induction xs generalizing acc with
  | nil => rfl
  | cons x xs ih => simp [runningSums, quiet, ih]

/-- The first `rows` values of `out` are the sums of those of `inp`, each formed from the one before it; exclusive ones begin with a
zero and copy the first value. -/
def IsScan (plus : Nat → Nat → Nat) (rows : Nat) (exclusive : Bool) (inp out : Nat → Nat) : Prop :=
  if exclusive then
    (0 < rows → out 0 = 0) ∧ (1 < rows → out 1 = inp 0) ∧ ∀ j, j + 2 < rows → out (j + 2) = plus (out (j + 1)) (inp (j + 1))
  else (0 < rows → out 0 = inp 0) ∧ ∀ j, j + 1 < rows → out (j + 1) = plus (out j) (inp (j + 1))

theorem IsScan.congr_input {plus : Nat → Nat → Nat} {rows : Nat} {exclusive : Bool} {inp inp' out : Nat → Nat}
    (h : IsScan plus rows exclusive inp out) (same : ∀ j, j < rows → inp j = inp' j) : IsScan plus rows exclusive inp' out := by
  cases exclusive with
  | false =>
    obtain ⟨first, later⟩ := h
    exact ⟨fun h => (first h).trans (same 0 h), fun j hj => same _ hj ▸ later j hj⟩
  | true =>
    obtain ⟨zero, first, later⟩ := h
    exact ⟨zero, fun h => (first h).trans (same 0 (by omega)), fun j hj => same (j + 1) (by omega) ▸ later j hj⟩

theorem scanColumn_cons (x : Nat) (xs : List Nat) : scanColumn add false (x :: xs) = runningSums add x xs := rfl

theorem scanColumn_exclusive (xs : List Nat) :
    scanColumn add true xs = (0 :: (scanColumn add false xs.dropLast).1, (scanColumn add false xs.dropLast).2) := rfl

theorem scanColumn_inclusive_length (xs : List Nat) : (scanColumn add false xs).1.length = xs.length := by
  cases xs with
  | nil => rfl
  | cons x xs => rw [scanColumn_cons, runningSums_length, List.length_cons]

theorem scanColumn_length (exclusive : Bool) (xs : List Nat) : xs.length ≤ (scanColumn add exclusive xs).1.length := by
  cases exclusive with
  | false => rw [scanColumn_inclusive_length]
  | true =>
    rw [scanColumn_exclusive, List.length_cons, scanColumn_inclusive_length, List.length_dropLast]
    omega

theorem scanColumn_inclusive_isScan (xs : List Nat) :
    IsScan (fun x y => (add x y).1) xs.length false (xs.getD · 0) ((scanColumn add false xs).1.getD · 0) := by
  cases xs with
  | nil => exact ⟨fun h => absurd h (Nat.lt_irrefl 0), fun j h => absurd h (Nat.not_lt_zero _)⟩
  | cons x xs =>
    refine ⟨fun _ => runningSums_zero x xs, fun j h => ?_⟩
    exact runningSums_succ (by simpa using h) x

theorem scanColumn_isScan (exclusive : Bool) {xs : List Nat} {rows : Nat} (h : rows ≤ xs.length) :
    IsScan (fun x y => (add x y).1) rows exclusive (xs.getD · 0) ((scanColumn add exclusive xs).1.getD · 0) := by
  cases exclusive with
  | false =>
    obtain ⟨first, later⟩ := scanColumn_inclusive_isScan (add := add) xs
    exact ⟨fun _ => first (by omega), fun j _ => later j (by omega)⟩
  | true =>
    have kept (j : Nat) (hj : j + 1 < rows) : xs.dropLast.getD j 0 = xs.getD j 0 := by
      rw [List.getD_eq_getElem?_getD, List.getElem?_dropLast, if_pos (by omega), List.getD_eq_getElem?_getD]
    obtain ⟨first, later⟩ := scanColumn_inclusive_isScan (add := add) xs.dropLast
    rw [List.length_dropLast] at first later
    rw [scanColumn_exclusive]
    refine ⟨fun _ => rfl, fun one => ?_, fun j two => ?_⟩
    · exact (first (by omega)).trans (kept 0 one)
    · exact (later j (by omega)).trans (congrArg (fun x => (add _ x).1) (kept (j + 1) two))

theorem scanColumn_events (quiet : ∀ x y, (add x y).2 = 0) (exclusive : Bool) (xs : List Nat) :
    (scanColumn add exclusive xs).2 = 0 := by
  have inclusive (xs : List Nat) : (scanColumn add false xs).2 = 0 := by
    cases xs with
    | nil => rfl
    | cons x xs => exact runningSums_events quiet x xs
  cases exclusive with
  | false => exact inclusive xs
  | true => exact inclusive xs.dropLast

end

/-! ## Blocks of one size in a list of bytes -/

section
variable {α β : Type} {f : α → List β} {n : Nat}

theorem length_flatMap_of_forall (hf : ∀ x, (f x).length = n) (l : List α) : (l.flatMap f).length = l.length * n := by
  simp [List.length_flatMap, hf]

theorem flatMap_block (hf : ∀ x, (f x).length = n) {l : List α} {i : Nat} (h : i < l.length) :
    ((l.flatMap f).drop (i * n)).take n = f l[i] := by
  induction l generalizing i with
  | nil => simp at h
  | cons x l ih =>
    rw [List.flatMap_cons]
    cases i with
    | zero => simp [← hf x]
    | succ i =>
      have next : (i + 1) * n = (f x).length + i * n := by rw [hf, Nat.succ_mul, Nat.add_comm]
      rw [next, List.drop_length_add_append]
      exact ih (by simpa using h)

/-- Block (j, n) of `size` bytes of a table of rows. -/
theorem flatMap_flatMap_block {g : Nat → Nat → List β} {rows cols size : Nat} (hg : ∀ j n, (g j n).length = size) {j n : Nat}
    (hj : j < rows) (hn : n < cols) :
    ((((List.range rows).flatMap fun j => (List.range cols).flatMap (g j)).drop ((j * cols + n) * size)).take size) = g j n := by
  have row := flatMap_block (f := fun j => (List.range cols).flatMap (g j)) (n := cols * size) (l := List.range rows) (i := j)
    (fun j => by rw [length_flatMap_of_forall (hg j), List.length_range]) (by simpa using hj)
  have cell := flatMap_block (hg j) (l := List.range cols) (i := n) (by simpa using hn)
  have within : size ≤ cols * size - n * size := by
    rw [← Nat.sub_mul]
    exact Nat.le_mul_of_pos_left size (by omega)
  simp only [List.getElem_range] at row cell
  rw [← cell, ← row, List.drop_take, List.take_take, List.drop_drop, Nat.min_eq_left within, Nat.add_mul, Nat.mul_assoc]

end

/-! ## SCAN_PASS -/

section
variable (s : State) (a : Activation) (k : Command)

/-- One addition of a SCANT, with its events. -/
def scanAdd (x y : Nat) : Nat × Word :=
  if k.field 0 4 % 4 = 2 then addF32 x y else ((x + y) % 2 ^ (8 * scanSize k), 0)

/-- The values of column n, as they stand in scratch. -/
def scanInput (n : Nat) : List Nat :=
  (List.range (k.field 0x0C 4)).map fun j => s.scratchNat a (k.field 4 4 + (j * k.field 0x10 4 + n) * scanSize k) (scanSize k)

/-- The first pass over column n, and what the passes of the command leave of it. -/
def scanFirst (n : Nat) : List Nat × Word := scanColumn (scanAdd k) (k.field 0 4 / 4 % 2 = 1) (scanInput s a k n)
def scanLast (n : Nat) : List Nat × Word :=
  if k.field 0 4 / 8 % 2 = 1 then
    let q := scanColumn (scanAdd k) (k.field 0 4 / 16 % 2 = 1) (scanFirst s a k n).1
    (q.1, (scanFirst s a k n).2 ||| q.2)
  else scanFirst s a k n

/-- The bytes that a SCANT writes, and its events. -/
def scanOutput : List Byte :=
  (List.range (k.field 0x0C 4)).flatMap fun j =>
    (List.range (k.field 0x10 4)).flatMap fun n => leBytes (scanSize k) ((scanLast s a k n).1.getD j 0)
def scanEvents : Word := ((List.range (k.field 0x10 4)).map (scanLast s a k)).foldl (fun e r => e ||| r.2) 0

theorem scanOutput_length : (scanOutput s a k).length = k.field 0x0C 4 * k.field 0x10 4 * scanSize k := by
  rw [scanOutput, length_flatMap_of_forall (n := k.field 0x10 4 * scanSize k), List.length_range, Nat.mul_assoc]
  intro j
  rw [length_flatMap_of_forall (n := scanSize k) fun n => leBytes_length _ _, List.length_range]

theorem scanOutput_word {j n : Nat} (hj : j < k.field 0x0C 4) (hn : n < k.field 0x10 4) :
    natOfBytes (((scanOutput s a k).drop ((j * k.field 0x10 4 + n) * scanSize k)).take (scanSize k)) =
      (scanLast s a k n).1.getD j 0 % 2 ^ (8 * scanSize k) := by
  rw [scanOutput, flatMap_flatMap_block (fun j n => leBytes_length _ _) hj hn, natOfBytes_leBytes]

/-- Integer additions raise no event. -/
theorem scanEvents_integer (h : k.field 0 4 % 4 ≠ 2) : scanEvents s a k = 0 := by
  have quiet (x y : Nat) : (scanAdd k x y).2 = 0 := by rw [scanAdd, if_neg h]
  have column (n : Nat) : (scanLast s a k n).2 = 0 := by
    unfold scanLast scanFirst
    split <;> simp [scanColumn_events quiet]
  rw [scanEvents, List.foldl_map]
  exact List.foldlRecOn (motive := fun e => e = 0) _ _ rfl fun e he n _ => by rw [he, column]; rfl

theorem scanAdd_fst (x y : Nat) :
    (scanAdd k x y).1 = if k.field 0 4 % 4 = 2 then (addF32 x y).1 else (x + y) % 2 ^ (8 * scanSize k) := by
  unfold scanAdd
  split <;> rfl

theorem scanInput_length (n : Nat) : (scanInput s a k n).length = k.field 0x0C 4 := by simp [scanInput]

theorem scanInput_getD {n j : Nat} (hj : j < k.field 0x0C 4) : (scanInput s a k n).getD j 0 =
    s.scratchNat a (k.field 4 4 + (j * k.field 0x10 4 + n) * scanSize k) (scanSize k) := by
  simp [scanInput, List.getD, hj]

/-- The passes over a column form its sums, the second from those of the first. -/
theorem scan_columns (n : Nat) :
    let plus (x y : Nat) : Nat := if k.field 0 4 % 4 = 2 then (addF32 x y).1 else (x + y) % 2 ^ (8 * scanSize k)
    let first (j : Nat) : Nat := (scanFirst s a k n).1.getD j 0
    let last (j : Nat) : Nat := (scanLast s a k n).1.getD j 0
    IsScan plus (k.field 0x0C 4) (k.field 0 4 / 4 % 2 = 1)
        (fun j => s.scratchNat a (k.field 4 4 + (j * k.field 0x10 4 + n) * scanSize k) (scanSize k)) first ∧
      (if k.field 0 4 / 8 % 2 = 1 then IsScan plus (k.field 0x0C 4) (k.field 0 4 / 16 % 2 = 1) first last else last = first) := by
  intro plus first last
  have adds : (fun x y => (scanAdd k x y).1) = plus := funext fun x => funext fun y => scanAdd_fst k x y
  have once := scanColumn_isScan (add := scanAdd k) (k.field 0 4 / 4 % 2 = 1) (scanInput_length s a k n).ge
  have values : k.field 0x0C 4 ≤ (scanFirst s a k n).1.length :=
    (scanInput_length s a k n).ge.trans (scanColumn_length _ _)
  have twice := scanColumn_isScan (add := scanAdd k) (k.field 0 4 / 16 % 2 = 1) values
  rw [adds] at once twice
  refine ⟨once.congr_input fun j hj => scanInput_getD s a k hj, ?_⟩
  by_cases second : k.field 0 4 / 8 % 2 = 1
  · simpa only [second, if_true, last, scanLast] using twice
  · simp only [second, if_false, last, first, scanLast]

end

theorem Works.scanPass {s : State} {c : ChainId} {place : Nat} {a : Activation} {k : Command} (w : Works s c place a k)
    (engine : k.record.engine = 2) (fn : k.record.fn = 2) (reads : s.scratchGood a (k.field 4 4) (scanBytes k) = true)
    (writes : s.scratchGood a (k.field 8 4) (scanBytes k) = true) :
    exec (.scanPass c place) s = .next (unitDone
      ((s.scratchWrite a (k.field 8 4) (scanOutput s a k)).raiseEvents k.colour c.tile (scanEvents s a k).toNat) c place
      { k with row := k.field 0x0C 4, phase := .moved,
               owed := if k.eyeletBytes = 0 then k.owed + (scanOutput s a k).length else k.owed }) := by
  have bytes : scanOutput s a k = (List.range (k.field 0x0C 4)).flatMap fun j =>
      ((List.range (k.field 0x10 4)).map (scanLast s a k)).flatMap fun r => leBytes (scanSize k) (r.1.getD j 0) := by
    simp only [List.flatMap_map]
    rfl
  rw [exec_scanPass]
  refine w.onCommand_done (by simp [engine, fn]) ?_
  simp only [reads, writes, Bool.true_eq_false, if_false, bytes]
  rfl

end Sys2Proof.Machine
end

section
/-! SUPPORT. The blocks of an EXPAND (15 R245; 16 R268 to R270). -/
namespace Sys2Proof.Machine

variable {s t u v : State} {c : ChainId} {place : Nat} {a : Activation} {k : Command}

theorem Works.expandBlock_ends (w : Works s c place a k) (engine : k.record.engine = 3) (last : k.blocks ≤ k.row) :
    exec (.expandBlock c place) s = .next (unitDone s c place { k with phase := .moved }) := by
  rw [exec_expandBlock]
  refine w.onCommand_done (by simp [engine]) ?_
  simp [last]

section
variable {eb bs : List Byte} (w : Works s c place a k) (engine : k.record.engine = 3) (more : k.row < k.blocks)
  (entry : s.engineRead a 3 (k.entryVa k.row) 8 = (u, .ok eb)) (sized : (k.blockOf (natOfBytes eb)).2 ≠ 0)
  (fetched : u.engineRead a 3 (k.blockOf (natOfBytes eb)).1 (k.blockOf (natOfBytes eb)).2 = (v, .ok bs))
  (aligned : natOfBytes eb % 4 = 0) (parsed : parsedSize bs = some (k.blockOf (natOfBytes eb)).2)
  (sum : crc32c (bs.take ((k.blockOf (natOfBytes eb)).2 - 4)) = natOfBytes (bs.drop ((k.blockOf (natOfBytes eb)).2 - 4)))
include w engine more entry sized fetched aligned parsed sum

/-- A block that passes its checks is delivered, once its stall counter can be reached. -/
theorem Works.expandBlock_delivers {x y : State} {ps : List Piece}
    (reach : (if k.stallVa = 0 then (v, .ok []) else v.engineReach a 3 .atomic k.stallVa 8) = (x, .ok ps))
    (delivers : x.deliverRows a c.tile k k.row (expandRows bs).1 = (y, .ok ()))
    (counts : y.addStall a k ps (stallCycles k.streams (bs.getD 0 0).toNat) = (t, .ok ())) :
    exec (.expandBlock c place) s = .next (unitDone (t.raiseEvents k.colour c.tile (expandRows bs).2.toNat) c place
      (k.rowDone k.blocks 65536)) := by
  rw [exec_expandBlock]
  refine w.onCommand_done (by simp [engine]) ?_
  simp only [more.not_ge, if_false, entry, andThen_ok, sized, fetched, aligned, parsed, sum, ne_eq, not_true, or_self, reach,
    delivers, counts, onRow_ok]

theorem Works.expandBlock_unstalled (free : k.stallVa = 0)
    (delivers : v.deliverRows a c.tile k k.row (expandRows bs).1 = (t, .ok ())) :
    exec (.expandBlock c place) s = .next (unitDone (t.raiseEvents k.colour c.tile (expandRows bs).2.toNat) c place
      (k.rowDone k.blocks 65536)) :=
  w.expandBlock_delivers engine more entry sized fetched aligned parsed sum (if_pos free) delivers (if_pos free)

theorem Works.expandBlock_stalled {x y z : State} {ps : List Piece} {old : List Byte} (counter : k.stallVa ≠ 0)
    (reach : v.engineReach a 3 .atomic k.stallVa 8 = (x, .ok ps))
    (delivers : x.deliverRows a c.tile k k.row (expandRows bs).1 = (y, .ok ()))
    (loads : y.loadPieces a k.stallVa ps = (z, .ok old))
    (stores : z.storePieces a k.stallVa
      (leBytes 8 ((natOfBytes old + stallCycles k.streams (bs.getD 0 0).toNat) % 2 ^ 64)) ps = (t, .ok ())) :
    exec (.expandBlock c place) s = .next (unitDone (t.raiseEvents k.colour c.tile (expandRows bs).2.toNat) c place
      (k.rowDone k.blocks 65536)) := by
  refine w.expandBlock_delivers engine more entry sized fetched aligned parsed sum ((if_neg counter).trans reach) delivers ?_
  rw [State.addStall, if_neg counter, loads]
  exact stores

end
end Sys2Proof.Machine
end

section
/-! SUPPORT. The spill engines: PUSHT and POPT as they are served, spills and returns (15 R244; 16 R274, R275). -/
namespace Sys2Proof.Machine

variable {s t u : State} {c : ChainId} {place : Nat} {a : Activation} {k k' : Command}

@[simp] theorem State.stack_putStack_self (asid : Nat) (l : List StackEntry) : (s.putStack asid l).stack asid = l :=
  Tab.getD_put_self _ _ _ _

theorem andThen_eq_ok {α β : Type} {r : Tried α} {f : State → α → Tried β} {y : β} (h : andThen r f = (t, .ok y)) :
    ∃ u x, r = (u, .ok x) ∧ f u x = (t, .ok y) := by
  obtain ⟨u, e | x⟩ := r
  · simp [andThen] at h
  · exact ⟨u, x, rfl, h⟩

/-! ## PUSHT and POPT -/

theorem pushStack_stack (h : pushStack s a k = (t, .ok k')) : ∃ blocks,
    t.stack a.entry.asid = s.stack a.entry.asid ++ [{ length := k.record.auxiliary.toNat, ring := blocks }] := by
  have met := State.meetStack_stack s a.entry.asid a.entry.asid
  unfold pushStack at h
  dsimp only at h
  split at h
  · simp at h
  · next m hm =>
    rw [hm] at met
    obtain ⟨u, bs, -, h⟩ := andThen_eq_ok h
    split at h
    · simp at h
    · obtain ⟨rfl, -⟩ := Prod.mk.inj h
      exact ⟨_, by rw [State.stack_putStack_self, met]⟩

theorem popStack_stack {e : StackEntry} (h : popStack s a k e = (t, .ok k')) :
    t.stack a.entry.asid = (s.stack a.entry.asid).dropLast := by
  have met := State.meetStack_stack s a.entry.asid a.entry.asid
  unfold popStack at h
  dsimp only at h
  split at h
  · simp at h
  · next m hm =>
    rw [hm] at met
    split at h
    · simp at h
    · obtain ⟨u, ps, -, h⟩ := andThen_eq_ok h
      split at h
      · simp at h
      · split at h
        · simp at h
        · obtain ⟨v, -, -, h⟩ := andThen_eq_ok h
          obtain ⟨rfl, -⟩ := Prod.mk.inj h
          rw [State.stack_putStack_self, met]

section
variable (hw : s.working c place = some (a, k)) (served : servedBefore (s.chain c) place = true) (spill : c.engine = 5)
include hw served spill

section
variable (engine : k.record.engine = 5) (still : s.switching a = false) (live : a.cancelled = false)
include engine still live

theorem exec_stackCommand_pushes (fn : k.record.fn = 0)
    (room : ringHasRoom (s.stackDesc a.entry.asid) (s.stack a.entry.asid) k.record.auxiliary.toNat = true)
    (pushes : pushStack s a k = (t, .ok k')) :
    exec (.stackCommand c place) s = .next (unitDone t c place k') := by
  have done := onCommand_done (is_ := fun r => r.engine = 5) hw still (.inl spill) live (by simp [engine]) pushes
  simp [execStackCommand, hw, served, fn, room, done]

theorem exec_stackCommand_pops {e : StackEntry} (fn : k.record.fn = 1) (top : (s.stack a.entry.asid).getLast? = some e)
    (here : e.state = .resident ∨ e.state = .spilling) (pops : popStack s a k e = (t, .ok k')) :
    exec (.stackCommand c place) s = .next (unitDone t c place k') := by
  have done := onCommand_done (is_ := fun r => r.engine = 5) (work := fun s a k => popStack s a k e) hw still (.inl spill) live
    (by simp [engine]) pops
  rcases here with resident | spilling
  · simp [execStackCommand, hw, served, fn, top, resident, done]
  · simp [execStackCommand, hw, served, fn, top, spilling, done]

end

theorem exec_stackCommand_returns {e : StackEntry} (fn : k.record.fn = 1) (top : (s.stack a.entry.asid).getLast? = some e)
    (out : e.state = .spilled) :
    exec (.stackCommand c place) s = .next
      (s.putStack a.entry.asid ((s.stack a.entry.asid).dropLast ++ [{ e with state := .returning }])) := by
  simp [execStackCommand, hw, served, fn, top, out, spill, occurs]

end

/-! ## Spills and returns (15 R244) -/

theorem setStackState_eq {l : List StackEntry} {i : Nat} {e : StackEntry} (he : l[i]? = some e) (st : StackState) :
    setStackState l i st = l.set i { e with state := st } := by
  rw [setStackState, he]

/-- A search from above finds the greatest number that passes a test. -/
theorem find?_reverse_range {p : Nat → Bool} {n i : Nat} (hi : i < n) (passes : p i = true)
    (later : ∀ j, i < j → j < n → p j = false) : (List.range n).reverse.find? p = some i := by
  induction n with
  | zero => omega
  | succ n ih =>
    rw [List.range_succ, List.reverse_append, List.reverse_singleton, List.singleton_append]
    rcases Nat.lt_succ_iff_lt_or_eq.mp hi with below | rfl
    · rw [List.find?_cons_of_neg (by simp [later n below (Nat.lt_succ_self n)])]
      exact ih below fun j hj hn => later j hj (by omega)
    · exact List.find?_cons_of_pos passes

theorem enough_of_length {bs : List Nat} {len : Nat} (h : bs.length = (len + 255) / 256) : enough bs len = true := by
  simp [enough, occupied, h]

section
variable {asid i : Nat} {e : StackEntry} (he : (s.stack asid)[i]? = some e)
include he

theorem exec_spill_starts (area : (s.stackDesc asid).lsize ≠ 0) (above : (s.stackDesc asid).high < ringBytes (s.stack asid))
    (none_spills : ∀ f ∈ s.stack asid, f.state ≠ .spilling) (first : spillCandidate (s.stack asid) = some i) :
    exec (.spill asid) s = .next (s.putStack asid ((s.stack asid).set i { e with state := .spilling })) := by
  have idle : (s.stack asid).any (fun e => e.state = .spilling) = false := by simpa using none_spills
  simp [execSpill, area, above, idle, first, occursIf, setStackState_eq he]

/-- An entry that has reached the spill area; what then starts to spill is the next candidate, while the ring is above LOW. -/
theorem exec_spillCompletion_spills {bs : List Byte} (spills : (s.stack asid).findIdx? (fun f => f.state = .spilling) = some i)
    (ready : s.tierReady (s.stackDesc asid).lbase = true) :
    let d := s.stackDesc asid
    let blocks := freeBlocks (·.spill) (s.stack asid) d.lsize e.length
    let l' := (s.stack asid).set i { e with state := .spilled, ring := [], spill := blocks }
    blocks.length = (e.length + 255) / 256 → s.areaRead d.hbase e.ring e.length = (t, .ok bs) →
    t.areaMove asid d.lbase blocks bs = (u, none) →
    (ringBytes l' ≤ d.low → exec (.spillCompletion asid) s = .next (u.putStack asid l')) ∧
      ∀ j f, d.low < ringBytes l' → spillCandidate l' = some j → l'[j]? = some f →
        exec (.spillCompletion asid) s = .next (u.putStack asid (l'.set j { f with state := .spilling })) := by
  intro d blocks l' fits reads moves
  have free := enough_of_length fits
  have copied : exec (.spillCompletion asid) s = .next (u.putStack asid
      (((if d.low < ringBytes l' then spillCandidate l' else none).map fun j => setStackState l' j .spilling).getD l')) := by
    simp only [exec_spillCompletion, execSpillCompletion, spills, he, ready, free, reads, moves, blocks, d, Bool.true_eq_false,
      Bool.not_true, decide_false, Bool.or_false, Bool.false_eq_true, if_false]
    split <;> next heq => rw [heq]; rfl
  refine ⟨fun low => ?_, fun j f above next hf => ?_⟩
  · rw [copied, if_neg low.not_gt]
    rfl
  · rw [copied, if_pos above, next, Option.map_some, setStackState_eq hf]
    rfl

theorem exec_stackReturn_starts (out : e.state = .spilled) (near : aboveEntry (s.stack asid) i < (s.stackDesc asid).near)
    (room : s.ringPeak asid + occupied e.length ≤ (s.stackDesc asid).hsize)
    (top : ∀ j, i < j → ∀ f, (s.stack asid)[j]? = some f → f.state ≠ .spilled) :
    exec (.stackReturn asid) s = .next (s.putStack asid ((s.stack asid).set i { e with state := .returning })) := by
  obtain ⟨hi, -⟩ := List.getElem?_eq_some_iff.mp he
  rw [exec_stackReturn, execStackReturn, find?_reverse_range hi]
  · rw [Option.map_some, setStackState_eq he]
    rfl
  · simp [he, out, near, room]
  · intro j hj hn
    simp [hn, top j hj _ (List.getElem?_eq_getElem hn)]

theorem exec_stackReturnCompletion_returns {bs : List Byte} (back : e.state = .returning)
    (top : ∀ j, i < j → ∀ f, (s.stack asid)[j]? = some f → f.state ≠ .returning) :
    let d := s.stackDesc asid
    let blocks := freeBlocks (·.ring) (s.stack asid) d.hsize e.length
    blocks.length = (e.length + 255) / 256 → s.areaRead d.lbase e.spill e.length = (t, .ok bs) →
    t.areaMove asid d.hbase blocks bs = (u, none) → exec (.stackReturnCompletion asid) s =
      .next (u.putStack asid ((s.stack asid).set i { e with state := .resident, ring := blocks, spill := [] })) := by
  intro d blocks fits reads moves
  have free := enough_of_length fits
  obtain ⟨hi, -⟩ := List.getElem?_eq_some_iff.mp he
  rw [exec_stackReturnCompletion, execStackReturnCompletion]
  dsimp only
  rw [find?_reverse_range hi]
  · simp [he, free, reads, moves, blocks, d]
  · simp [he, back]
  · intro j hj hn
    simp [hn, top j hj _ (List.getElem?_eq_getElem hn)]

end
end Sys2Proof.Machine
end

section
/-! SUPPORT. The rows of the epilogue engine (16 R272, R273). -/
namespace Sys2Proof.Machine

/-! ## Values -/

@[simp] theorem Noted.then_fst (x : Noted) (f : Nat → Noted) : (x.then f).1 = (f x.1).1 := rfl

theorem relu_eq (y : Nat) : relu y = if !(fmtF32.value y).isNan && (fmtF32.value y).isNeg then 0 else y := by
  unfold relu
  split
  · next h => simp [h, FVal.isNan]
  · next h => cases hv : fmtF32.value y with
    | nan n => exact absurd hv (h n)
    | inf n => simp [FVal.isNan]
    | fin n m e => simp [FVal.isNan]

/-- GELU without its events: the steps of 16 R273. -/
theorem gelu_fst (y : Nat) :
    let times (x y : Nat) : Nat := (sumProducts fmtF32 .rne [(false, x, y)] []).1
    let b := (sumProducts fmtF32 .rne [(false, 0x3D372713, times (times y y) y)] [(false, y)]).1
    (gelu y).1 = (halfProduct y (addF32 0x3F800000 (specialFn 4 (times 0x3F4C422A b)).1).1).1 := by
  simp only [gelu, Noted.then_fst, mulF32]

/-- An element without its events: the scales that are on multiply it, and the activation is applied. -/
theorem epilogueValue_fst (k : Command) (raw cs rs : Nat) :
    let times (x y : Nat) : Nat := (sumProducts fmtF32 .rne [(false, x, y)] []).1
    let input := if k.field 0 4 % 4 = 2 then raw else (intToFloat fmtF32 .rne (signedOf (8 * k.epiSize) raw)).1
    let x := if k.columnScales then times input cs else input
    let y := if k.rowScales then times x rs else x
    let gelu (y : Nat) : Nat :=
      let b := (sumProducts fmtF32 .rne [(false, 0x3D372713, times (times y y) y)] [(false, y)]).1
      (halfProduct y (addF32 0x3F800000 (specialFn 4 (times 0x3F4C422A b)).1).1).1
    (epilogueValue k raw cs rs).1 =
      if slice (k.field 0 4) 3 2 = 1 then (if !(fmtF32.value y).isNan && (fmtF32.value y).isNeg then 0 else y)
      else if slice (k.field 0 4) 3 2 = 2 then gelu y else y := by
  intro times input x y gelu
  have scaled : (
      let y : Noted := if k.field 0 4 % 4 = 2 then (raw, 0) else intToFloat fmtF32 .rne (signedOf (8 * k.epiSize) raw)
      let y := if k.columnScales then y.then fun x => mulF32 x cs else y
      if k.rowScales then y.then fun x => mulF32 x rs else y).1 = y := by
    simp only [y, x, input, times, apply_ite Prod.fst, Noted.then_fst, mulF32]
  simp only [← scaled, ← relu_eq]
  unfold epilogueValue
  dsimp only
  split
  · next h => simp [h]
  · next h =>
    simp only [h, OfNat.ofNat_ne_one, if_false, if_true, Noted.then_fst]
    exact gelu_fst _
  · next h1 h2 => rw [if_neg h1, if_neg h2]

/-! ## The largest magnitude of a row -/

/-- An FP32 encoding of a number. -/
def isNumber (y : Nat) : Bool := !(fmtF32.value y).isNan

theorem foldl_magnitude (ys : List Nat) (m : Nat) :
    let f (m y : Nat) : Nat := if (fmtF32.value y).isNan then m else max m (y % 2 ^ 31)
    m ≤ ys.foldl f m ∧ (∀ y ∈ ys, isNumber y = true → y % 2 ^ 31 ≤ ys.foldl f m) ∧
      (ys.foldl f m = m ∨ ∃ y ∈ ys, isNumber y = true ∧ y % 2 ^ 31 = ys.foldl f m) := by
  intro f
  induction ys generalizing m with
  | nil => simp
  | cons y ys ih =>
    obtain ⟨above, bounds, reached⟩ := ih (f m y)
    rw [List.foldl_cons]
    have step : m ≤ f m y ∧ (isNumber y = true → y % 2 ^ 31 ≤ f m y) ∧
        (f m y = m ∨ isNumber y = true ∧ y % 2 ^ 31 = f m y) := by
      by_cases nan : (fmtF32.value y).isNan = true
      · simp [f, isNumber, nan]
      · simp only [f, isNumber, nan, Bool.false_eq_true, if_false, Bool.not_false, true_imp_iff, true_and]
        omega
    obtain ⟨grows, covers, attains⟩ := step
    refine ⟨grows.trans above, ?_, ?_⟩
    · intro z hz number
      rcases List.mem_cons.mp hz with rfl | hz
      · exact (covers number).trans above
      · exact bounds z hz number
    · rcases reached with same | ⟨z, hz, number, eq⟩
      · rw [same]
        exact attains.imp id fun ⟨number, eq⟩ => ⟨y, List.mem_cons_self, number, eq⟩
      · exact .inr ⟨z, List.mem_cons_of_mem _ hz, number, eq⟩

theorem rowMagnitude_eq {ys : List Nat} {top : Nat} (bounds : ∀ y ∈ ys, isNumber y = true → y % 2 ^ 31 ≤ top)
    (reached : top = 0 ∨ ∃ y ∈ ys, isNumber y = true ∧ y % 2 ^ 31 = top) : rowMagnitude ys = top := by
  obtain ⟨-, covers, attained⟩ := foldl_magnitude ys 0
  apply Nat.le_antisymm
  · rcases attained with zero | ⟨y, hy, number, eq⟩
    · exact zero.trans_le (Nat.zero_le top)
    · exact eq.symm.trans_le (bounds y hy number)
  · rcases reached with rfl | ⟨y, hy, number, rfl⟩
    · exact Nat.zero_le _
    · exact covers y hy number

/-! ## EPILOGUE_ROW -/

section
variable (s : State) (a : Activation) (tile : Nat) (k : Command)

/-- Element n of the row that is due, scaled and activated, with its events. -/
def epilogueElement (n : Nat) : Noted :=
  epilogueValue k ((s.tile tile).bank.readNat (k.field 4 4 + k.row * k.epiCols * k.epiSize + n * k.epiSize) k.epiSize)
    (s.scratchNat a (k.field 0x10 4 + 4 * n) 4) (s.scratchNat a (k.field 0x14 4 + 4 * k.row) 4)

/-- The bytes of the row, its scale, if it has one, and the events of their rounding; and all its events. -/
def epilogueOut : List Byte × Option Nat × Word :=
  epilogueRow k (((List.range k.epiCols).map (epilogueElement s a tile k)).map (·.1))
def epilogueEvents : Word :=
  asAccEvents (((List.range k.epiCols).map (epilogueElement s a tile k)).foldl (fun e y => e ||| y.2)
    (epilogueOut s a tile k).2.2)

def epilogueDest : Nat := k.field 0x18 4 + k.row * k.field 0x20 4
def epilogueScaleAt : Nat := k.field 0x24 4 + 4 * k.row

/-- The scale of a row in scratch. -/
def State.putScale (scale : Option Nat) : State :=
  match scale with
  | some v => s.scratchWriteNat a (epilogueScaleAt k) 4 v
  | none => s

section
variable {s a tile k} {out : Nat → Nat} (outs : ∀ n, (epilogueElement s a tile k n).1 = out n)
include outs

theorem epilogueElements_fst :
    ((List.range k.epiCols).map (epilogueElement s a tile k)).map (·.1) = (List.range k.epiCols).map out := by
  rw [List.map_map]
  exact List.map_congr_left fun n _ => outs n

theorem epilogueOut_f32 (h : k.epiOut = 0) :
    (epilogueOut s a tile k).1 = (List.range k.epiCols).flatMap (fun n => leBytes 4 (out n)) ∧
    (epilogueOut s a tile k).2.1 = none := by
  rw [epilogueOut, epilogueElements_fst outs, epilogueRow, h]
  simp only [List.flatMap_map, and_self]

theorem epilogueOut_bf16 (h : k.epiOut = 1) :
    (epilogueOut s a tile k).1 =
      (List.range k.epiCols).flatMap (fun n => leBytes 2 (convertFloat fmtF32 fmtBf16 .rne (out n)).1) ∧
    (epilogueOut s a tile k).2.1 = none := by
  rw [epilogueOut, epilogueElements_fst outs, epilogueRow, h]
  simp only [List.flatMap_map, and_self]

theorem epilogueOut_i8 (h : k.epiOut = 2) {top : Nat}
    (bounds : ∀ n, n < k.epiCols → isNumber (out n) = true → out n % 2 ^ 31 ≤ top)
    (reached : top = 0 ∨ ∃ n, n < k.epiCols ∧ isNumber (out n) = true ∧ out n % 2 ^ 31 = top) :
    (epilogueOut s a tile k).1 = (List.range k.epiCols).flatMap (fun n => leBytes 1 (quantised top (out n)).1) ∧
    (epilogueOut s a tile k).2.1 = some (rowScale top).1 := by
  have magnitude : rowMagnitude ((List.range k.epiCols).map out) = top :=
    rowMagnitude_eq (by simpa using bounds) (by simpa using reached)
  rw [epilogueOut, epilogueElements_fst outs, epilogueRow, h]
  simp only [magnitude, List.flatMap_map, and_self]

end
end

/-- A row whose elements take `es` bytes each is written, with its scale if it has one. -/
theorem Works.epilogueRow_writes {s : State} {c : ChainId} {place : Nat} {a : Activation} {k : Command} (w : Works s c place a k)
    (engine : k.record.engine = 4)
    (columns : k.columnScales = true → s.scratchGood a (k.field 0x10 4) (4 * k.epiCols) = true)
    (rows : k.rowScales = true → s.scratchGood a (k.field 0x14 4 + 4 * k.row) 4 = true)
    {es : Nat} {put : Nat → List Byte} {scale : Option Nat}
    (bytes : (epilogueOut s a c.tile k).1 = (List.range k.epiCols).flatMap put) (sizes : ∀ n, (put n).length = es)
    (scales : (epilogueOut s a c.tile k).2.1 = scale) {scaled : State → State}
    (puts : ∀ u : State, u.putScale a k scale = scaled u)
    (word : scale ≠ none → s.scratchGood a (epilogueScaleAt k) 4 = true)
    (good : s.scratchGood a (epilogueDest k) (k.epiCols * es) = true) :
    ∃ events, exec (.epilogueRow c place) s =
      let at_ := k.field 4 4 + k.row * k.epiCols * k.epiSize
      let u := (scaled (s.scratchWrite a (epilogueDest k) ((List.range k.epiCols).flatMap put))).bankEvents c.tile events
      let x := u.tile c.tile
      let cleared := u.putTile c.tile { x with bank := x.bank.writeNat at_ (k.epiCols * k.epiSize) 0 }
      .next (unitDone (if k.field 0 4 / 256 % 2 = 1 then cleared else u) c place
        (k.rowDone k.epiRows (k.epiCols * es))) := by
  have length : (epilogueOut s a c.tile k).1.length = k.epiCols * es := by
    rw [bytes, length_flatMap_of_forall sizes, List.length_range]
  subst scales
  rw [← length] at good
  refine ⟨epilogueEvents s a c.tile k, ?_⟩
  rw [← puts, ← bytes, ← length]
  have noted : ((epilogueOut s a c.tile k).2.1.isNone || s.scratchGood a (epilogueScaleAt k) 4) = true := by
    cases hs : (epilogueOut s a c.tile k).2.1 with
    | none => rfl
    | some v => rw [Option.isNone_some, Bool.false_or, word (by simp [hs])]
  have flag {b x : Bool} (h : b = true → x = true) : (!b || x) = true := by
    cases b with
    | false => rfl
    | true => exact h rfl
  have ok : (s.scratchGood a (epilogueDest k) (epilogueOut s a c.tile k).1.length &&
      ((epilogueOut s a c.tile k).2.1.isNone || s.scratchGood a (epilogueScaleAt k) 4) &&
      (!k.columnScales || s.scratchGood a (k.field 0x10 4) (4 * k.epiCols)) &&
      (!k.rowScales || s.scratchGood a (k.field 0x14 4 + 4 * k.row) 4)) = true := by
    rw [good, noted, flag columns, flag rows]
    rfl
  rw [exec_epilogueRow]
  refine w.onCommand_done (by simp [engine]) ?_
  exact (if_neg (ne_false_of_eq_true ok)).trans rfl

end Sys2Proof.Machine
end

section
/-! The statement on the events of the engines and of the stacks, from the rules above. -/
namespace Sys2Proof.Machine

/-- Settles O50: each clause is the rule of its event. That a stack is its old entries with one more or one less rests on the
spill engine's reading of its descriptor, which moves no entry whatever error it meets (`State.meetStack_stack`). -/
theorem engineEventsOccur : Obligations.EngineEventsOccur := by
  unfold Obligations.EngineEventsOccur
  intro s t c place a k
  refine ⟨?starts, ?completes, ?works, ?served, ?areas⟩
  case starts =>
    intro x bs k' hx next ha live may still engine ready
    exact ⟨fun names reads t' =>
        exec_engineCommandStart_starts hx next ha live may still engine ready (pairNames_none names) reads,
      fun pair eyelet => exec_engineCommandStart_stops hx next ha live may still engine ready (pairNames_eyelet pair eyelet),
      fun pair eyelet activation =>
        exec_engineCommandStart_stops hx next ha live may still engine ready (pairNames_activation pair eyelet activation)⟩
  case completes =>
    exact fun x hx hk ha live may => ⟨exec_engineCommandComplete_moved hx hk ha live may,
      exec_engineCommandComplete_added hx hk ha live may⟩
  case works =>
    intro w
    refine ⟨w.copyRow, ?gathers, ?scatters, fun engine _ => w.clickChunk engine, ?builds, ?wide,
      fun engine fn _ named => w.tablePatch engine named fn, ?scans, fun engine last => w.expandBlock_ends engine last, ?expands,
      ?epilogue⟩
    case gathers =>
      exact fun engine fn u ib index => w.gatherRow engine index fn
    case scatters =>
      exact fun engine fn u ib index => ⟨w.scatterRow_beyond engine index fn, w.scatterRow_within engine index fn⟩
    case builds =>
      exact fun engine fn form el named => w.tableBuild_st16 engine named fn form
    case wide =>
      exact fun engine fn form cols el named good word =>
        ⟨w.tableBuild_st32 engine named fn form cols good word, w.tableBuild_st32_stops engine named fn form cols good word⟩
    case scans =>
      intro engine fn reads writes
      exact ⟨scanOutput s a k, (scanEvents s a k).toNat, w.scanPass engine fn reads writes, scanOutput_length s a k,
        fun integer => congrArg BitVec.toNat (scanEvents_integer s a k integer),
        fun n hn => ⟨fun j => (scanFirst s a k n).1.getD j 0, fun j => (scanLast s a k n).1.getD j 0,
          (scan_columns s a k n).1, (scan_columns s a k n).2, fun j hj => scanOutput_word s a k hj hn⟩⟩
    case expands =>
      exact fun engine more u v eb bs entry sized fetched aligned parsed sum =>
        ⟨w.expandBlock_unstalled engine more entry sized fetched aligned parsed sum,
         fun x y z ps old counter => w.expandBlock_stalled engine more entry sized fetched aligned parsed sum counter⟩
    case epilogue =>
      intro engine columns rows size at_ bank times input scaled gelu out dst writes
      have outs (n : Nat) : (epilogueElement s a c.tile k n).1 = out n := epilogueValue_fst k _ _ _
      refine ⟨fun form => ?f32, fun form => ?bf16, fun form top bounds reached word => ?i8⟩
      case f32 =>
        obtain ⟨bytes, unscaled⟩ := epilogueOut_f32 outs form
        exact w.epilogueRow_writes engine columns rows bytes (fun _ => leBytes_length _ _) unscaled (fun _ => rfl)
          (absurd rfl)
      case bf16 =>
        obtain ⟨bytes, unscaled⟩ := epilogueOut_bf16 outs form
        exact w.epilogueRow_writes engine columns rows bytes (fun _ => leBytes_length _ _) unscaled (fun _ => rfl)
          (absurd rfl)
      case i8 =>
        obtain ⟨bytes, scale⟩ := epilogueOut_i8 outs form bounds reached
        exact w.epilogueRow_writes engine columns rows bytes (fun _ => leBytes_length _ _) scale
          (scaled := fun u => u.scratchWriteNat a (epilogueScaleAt k) 4 (rowScale top).1) (fun _ => rfl) (fun _ => word)
  case served =>
    intro hw served spill engine
    exact ⟨fun fn still room k' pushes live =>
        ⟨exec_stackCommand_pushes hw served spill engine still live fn room pushes, pushStack_stack pushes⟩,
      fun fn e top => ⟨exec_stackCommand_returns hw served spill fn top, fun here still live k' pops =>
        ⟨exec_stackCommand_pops hw served spill engine still live fn top here pops, popStack_stack pops⟩⟩⟩
  case areas =>
    exact fun asid i e => ⟨fun area above idle first he => exec_spill_starts he area above idle first,
      fun bs u spills he ready => exec_spillCompletion_spills he spills ready,
      fun he => exec_stackReturn_starts he, fun bs u he => exec_stackReturnCompletion_returns he⟩

end Sys2Proof.Machine
end
section
/-! The statements on the memory instructions of the elements, from one rule for each outcome of a staged access (15 R240; 16 R247 to
R254; 19 R303). -/
namespace Sys2Proof.Machine

/-! ## Addresses (16 R247) -/

section
variable {raw align : Nat} {u : RecordUse}

theorem elementAddress_reserved (h : slice raw 62 48 ≠ 0 ∨ (raw < 2 ^ 63 ∧ 2 ^ 40 ≤ raw % 2 ^ 48)) :
    elementAddress raw align u = .error { code := 0x20, flags := useFlags u, address := BitVec.ofNat 64 raw } :=
  if_pos (h.imp_right fun ⟨scratch, far⟩ => ⟨Nat.div_eq_of_lt scratch, far⟩)

theorem elementAddress_passes (h : slice raw 62 48 = 0) (hs : 2 ^ 63 ≤ raw ∨ raw % 2 ^ 48 < 2 ^ 40) :
    ¬(slice raw 62 48 ≠ 0 ∨ (raw / 2 ^ 63 = 0 ∧ 2 ^ 40 ≤ raw % 2 ^ 48)) := by
  rintro (reserved | ⟨scratch, far⟩)
  · exact reserved h
  · rcases hs with device | near
    · exact absurd ((Nat.div_pos device (by decide)).ne' scratch) id
    · exact absurd far (not_le.mpr near)

theorem elementAddress_misaligned (h : slice raw 62 48 = 0) (hs : 2 ^ 63 ≤ raw ∨ raw % 2 ^ 48 < 2 ^ 40)
    (ha : raw % 2 ^ 48 % align ≠ 0) :
    elementAddress raw align u = .error { code := 0x21, flags := useFlags u, address := BitVec.ofNat 64 (raw % 2 ^ 48) } :=
  (if_neg (elementAddress_passes h hs)).trans (if_pos ha)

theorem elementAddress_ok (h : slice raw 62 48 = 0) (hs : 2 ^ 63 ≤ raw ∨ raw % 2 ^ 48 < 2 ^ 40)
    (ha : raw % 2 ^ 48 % align = 0) :
    elementAddress raw align u = .ok (decide (raw / 2 ^ 63 = 0), raw % 2 ^ 48) :=
  (if_neg (elementAddress_passes h hs)).trans (if_neg (not_not.mpr ha))

theorem elementAddress_scratch (h : raw < 2 ^ 40) (ha : raw % align = 0) : elementAddress raw align u = .ok (true, raw) := by
  have low : raw % 2 ^ 48 = raw := Nat.mod_eq_of_lt (h.trans (by decide))
  have scratch : raw / 2 ^ 63 = 0 := Nat.div_eq_of_lt (h.trans (by decide))
  have clear : slice raw 62 48 = 0 := by
    rw [slice, Nat.div_eq_of_lt (h.trans (by decide)), Nat.zero_mod]
  rw [elementAddress_ok clear (.inr (low.symm ▸ h)) (low.symm ▸ ha), low, decide_eq_true scratch]

/-- Bit 63 set and bits 62 to 48 clear name device memory. -/
theorem elementAddress_device {a : Nat} (h : raw = 2 ^ 63 + a) (ha : a < 2 ^ 48) (hal : a % align = 0) :
    elementAddress raw align u = .ok (false, a) := by
  have low : raw % 2 ^ 48 = a := by omega
  have device : raw / 2 ^ 63 ≠ 0 := by omega
  have clear : slice raw 62 48 = 0 := by
    rw [slice]
    omega
  rw [elementAddress_ok clear (.inl (by omega)) (low.symm ▸ hal), low, decide_eq_false device]

end

/-! ## The outcomes of a staged access (16 R248, R249; 25 R392) -/

section
variable {s : State} {el : Nat} {b : Block} {o : EM} {act : Activation} {op : MemOp} {u : RecordUse} {size align a : Nat}
  {needs replies : Bool}

theorem stageAccess_address {f : FaultInfo} (h : RunsBlock s el b)
    (ha : elementAddress (b.addressTemp o.addr.toNat) align u = .error f) :
    stageAccess s o op u size align needs replies = .next (takeBlockException s el b f) :=
  inBlockWith_error _ h (by simp only [ha])

theorem checkPiece_scratch {r : MemRequest} (hact : s.activation b.colour.toNat = some act) (hg : s.scratchGood act a r.size = true) :
    checkPiece s b u false true a r = .ok (s, { r with scratch := true, va := a, address := a }) := by
  simp [checkPiece, hact, hg]

theorem checkPiece_scratch_outside {r : MemRequest} (hact : s.activation b.colour.toNat = some act)
    (hg : s.scratchGood act a r.size = false) : checkPiece s b u needs true a r =
      .error { code := 0x22, flags := useFlags u, address := BitVec.ofNat 64 a } := by
  simp [checkPiece, hact, hg]

theorem checkPiece_device {r : MemRequest} {l : Leaf} (hact : s.activation b.colour.toNat = some act)
    (hl : checkAccess s act u a r.size = .ok l) (hf : needs = true → l.fullEmpty = true) : checkPiece s b u needs false a r =
      .ok (s.cacheLeaf act.entry.asid a l, { r with va := a, address := l.pa, mtype := l.mtype, fullEmpty := l.fullEmpty }) := by
  cases needs
  case false => simp [checkPiece, hact, hl]
  case true => simp [checkPiece, hact, hl, hf rfl]

theorem checkPiece_device_refused {r : MemRequest} {f : FaultInfo} (hact : s.activation b.colour.toNat = some act)
    (hl : checkAccess s act u a r.size = .error f) : checkPiece s b u needs false a r = .error f := by
  simp [checkPiece, hact, hl]

theorem stageAccess_scratch (h : RunsBlock s el b) (hact : s.activation b.colour.toNat = some act)
    (ha : elementAddress (b.addressTemp o.addr.toNat) align u = .ok (true, a)) (hg : s.scratchGood act a size = true) :
    stageAccess s o op u size align false replies = .next (blockMoves s el
      (stagesRequest b op o size (if replies then some o.chan else none) true a a .cached false) (emWords o)) :=
  inBlockWith_ok _ h (by
    simp only [ha]
    rw [checkPiece_scratch hact hg]
    rfl)

theorem stageAccess_scratch_outside (h : RunsBlock s el b) (hact : s.activation b.colour.toNat = some act)
    (ha : elementAddress (b.addressTemp o.addr.toNat) align u = .ok (true, a)) (hg : s.scratchGood act a size = false) :
    stageAccess s o op u size align needs replies = .next (takeBlockException s el b
      { code := 0x22, flags := useFlags u, address := BitVec.ofNat 64 a }) :=
  inBlockWith_error _ h (by
    simp only [ha]
    rw [checkPiece_scratch_outside hact hg])

theorem stageAccess_device {l : Leaf} (h : RunsBlock s el b) (hact : s.activation b.colour.toNat = some act)
    (ha : elementAddress (b.addressTemp o.addr.toNat) align u = .ok (false, a)) (hl : checkAccess s act u a size = .ok l)
    (hf : needs = true → l.fullEmpty = true) :
    stageAccess s o op u size align needs replies = .next (blockMoves (s.cacheLeaf act.entry.asid a l) el
      (stagesRequest b op o size (if replies then some o.chan else none) false a l.pa l.mtype l.fullEmpty) (emWords o)) :=
  inBlockWith_ok _ h (by
    simp only [ha]
    rw [checkPiece_device hact hl hf]
    rfl)

theorem stageAccess_device_refused {f : FaultInfo} (h : RunsBlock s el b) (hact : s.activation b.colour.toNat = some act)
    (ha : elementAddress (b.addressTemp o.addr.toNat) align u = .ok (false, a)) (hl : checkAccess s act u a size = .error f) :
    stageAccess s o op u size align needs replies = .next (takeBlockException s el b f) :=
  inBlockWith_error _ h (by
    simp only [ha]
    rw [checkPiece_device_refused hact hl])

end

theorem checkAccess_undeclared {s : State} {a : Activation} {u : RecordUse} {va n : Nat}
    (h : recordsAllow a.records u va n = false) : checkAccess s a u va n = .error
      { code := 0x23, flags := useFlags u, address := BitVec.ofNat 64 va, position := BitVec.ofNat 32 n } := by
  unfold checkAccess
  exact if_pos (by simp [h])

/-! ## The statements -/

/-- Settles O21: an aligned offset is a scratch address, and what passes the bank's check is staged. -/
theorem scratchAccessesAreStaged : Obligations.ScratchAccessesAreStaged := by
  unfold Obligations.ScratchAccessesAreStaged
  intro s el b o act a h hact raw near n words done st
  have address {align : Nat} {u : RecordUse} (hal : a % align = 0) :
      elementAddress (b.addressTemp o.addr.toNat) align u = .ok (true, a) := by
    rw [Block.addressTemp, raw]
    exact elementAddress_scratch near hal
  exact ⟨fun hal good => ⟨stageAccess_scratch h hact (address hal) good, stageAccess_scratch h hact (address hal) good,
    stageAccess_scratch h hact (address hal) good⟩, fun hal good => stageAccess_scratch h hact (address hal) good⟩

/-- Settles O22: an aligned address of device memory that its check admits is staged at the place that the check answers. -/
theorem deviceAccessesAndFencesAreStaged : Obligations.DeviceAccessesAndFencesAreStaged := by
  unfold Obligations.DeviceAccessesAndFencesAreStaged
  refine ⟨fun s el b o act a l h hact raw near => ?accesses, fun s el b o h => (exec_mfence o s).trans (inBlock_ok _ h rfl)⟩
  intro n words done s' st
  have address {align : Nat} {u : RecordUse} (hal : a % align = 0) :
      elementAddress (b.addressTemp o.addr.toNat) align u = .ok (false, a) := elementAddress_device raw near hal
  have plain : false = true → l.fullEmpty = true := fun h => Bool.noConfusion h
  exact ⟨fun hal hl => stageAccess_device h hact (address hal) hl plain,
    fun hal hl => stageAccess_device h hact (address hal) hl plain,
    fun hal hl => stageAccess_device h hact (address hal) hl plain,
    fun hal hl => stageAccess_device h hact (address hal) hl plain,
    fun hal full hl => stageAccess_device h hact (address hal) hl fun _ => full,
    fun hal full hl => stageAccess_device h hact (address hal) hl fun _ => full⟩

/-- Settles O23: the address is looked at first, then its alignment, and then the bank or the records of its region. -/
theorem memoryFaultsAreExact : Obligations.MemoryFaultsAreExact := by
  unfold Obligations.MemoryFaultsAreExact
  intro s el b o act h hact raw a n traps
  refine ⟨fun reserved => ?reserved, fun clear space mis => ?misaligned, fun near hal bad => ?outside,
    fun clear device hal => ?undeclared⟩
  case reserved =>
    exact ⟨stageAccess_address h (elementAddress_reserved reserved), stageAccess_address h (elementAddress_reserved reserved),
      stageAccess_address h (elementAddress_reserved reserved)⟩
  case misaligned =>
    exact ⟨stageAccess_address h (elementAddress_misaligned clear space mis),
      stageAccess_address h (elementAddress_misaligned clear space mis),
      stageAccess_address h (elementAddress_misaligned clear space mis)⟩
  case outside =>
    exact ⟨stageAccess_scratch_outside h hact (elementAddress_scratch near hal) bad,
      stageAccess_scratch_outside h hact (elementAddress_scratch near hal) bad,
      stageAccess_scratch_outside h hact (elementAddress_scratch near hal) bad⟩
  case undeclared =>
    have address {u : RecordUse} : elementAddress (b.addressTemp o.addr.toNat) n u = .ok (false, a) := by
      refine (elementAddress_ok clear (.inl device) hal).trans ?_
      rw [decide_eq_false (Nat.div_pos device (by decide)).ne']
    exact ⟨fun denied => stageAccess_device_refused h hact address (checkAccess_undeclared denied),
      fun denied => stageAccess_device_refused h hact address (checkAccess_undeclared denied)⟩

end Sys2Proof.Machine
end
section
/-! The statement on the commands of engines and link regions, from the rules on steps (05 R67; 16 R257, R259; 22 R344; 23 R361; 26
R415). -/
namespace Sys2Proof.Machine

variable {s : State} {q : SeqId} {a : Activation} {x : Sequencer} {r : StepRun} {o : QE} {fn : Nat}

/-- The record of a command, with its flags as the number that they are. -/
theorem recordOf_eq (x : Sequencer) (o : QE) (engine fn : Nat) (aux activation : DWord) :
    recordOf x o engine fn aux activation =
      { engine := engine, fn := fn, flags := BitVec.ofNat 16 o.flags.toNat, parameter := x.reg o.sA.toNat,
        eyelet := x.reg o.sB.toNat, auxiliary := aux, activation := activation } := by
  rw [BitVec.ofNat_toNat]
  rfl

theorem appendAct_stages {engine : Nat} (h : RunsStep s q a x r) : appendAct s o engine fn =
    .next (stepStages s q x r (.append (recordOf x o engine fn 0 (actField x o)) r.word)) := inStep_stage h rfl

theorem appendAux_stages {engine : Nat} (h : RunsStep s q a x r) : appendAux s o engine fn =
    .next (stepStages s q x r (.append (recordOf x o engine fn (x.reg o.sC.toNat) 0) r.word)) := inStep_stage h rfl

theorem appendCollective_stages {c : Nat} (h : RunsRegion s c a x r) (single : a.isPair = false) : appendCollective s o fn =
    .next (stepStages s (.region c) x r (.collective fn (recordOf x o 6 fn 0 (actField x o)))) :=
  inRegionStep_stage h (by simp only [single]; rfl)

theorem appendCollective_pair {c : Nat} (h : RunsRegion s c a x r) (pair : a.isPair = true) : appendCollective s o fn =
    .next (takeStepException s (.region c) { code := 0x23, address := x.reg o.sA.toNat, position := 64 }) :=
  inRegionStep_exc h (by simp only [pair]; rfl)

/-! ## TPATCH -/

theorem exec_tpatch_plain (h : RunsStep s q a x r) (hc : o.sC = 0) : exec (.tpatch o) s =
    .next (stepStages s q x r (.append (recordOf x o 2 1 (x.reg o.sC.toNat) 0) r.word)) :=
  (exec_tpatch o s).trans (inStep_stage h (by simp only [if_pos hc, reduceCtorEq, or_self, if_false]))

theorem exec_tpatch_stages (h : RunsStep s q a x r) (hc : o.sC ≠ 0)
    (h2 : (s.patchFormat q a r.effects (x.reg o.sA.toNat).toNat).2 ≠ some 2)
    (h3 : (s.patchFormat q a r.effects (x.reg o.sA.toNat).toNat).2 ≠ some 3) : exec (.tpatch o) s =
      .next (stepStages (s.patchFormat q a r.effects (x.reg o.sA.toNat).toNat).1 q x r
        (.append (recordOf x o 2 1 (x.reg o.sC.toNat) 0) r.word)) := by
  refine (exec_tpatch o s).trans (inStep_stage h ?_)
  simp only [if_neg hc, if_neg (not_or.mpr ⟨h2, h3⟩)]

theorem exec_tpatch_delta (h : RunsStep s q a x r) (hc : o.sC ≠ 0)
    (hd : (s.patchFormat q a r.effects (x.reg o.sA.toNat).toNat).2 = some 2 ∨
      (s.patchFormat q a r.effects (x.reg o.sA.toNat).toNat).2 = some 3) : exec (.tpatch o) s =
      .next (takeStepException (s.patchFormat q a r.effects (x.reg o.sA.toNat).toNat).1 q (illegalInfo false)) := by
  refine (exec_tpatch o s).trans (inStep_exc h ?_)
  simp only [if_neg hc, if_pos hd]

/-- Settles O41: an engine's instruction stages its record, a TPATCH after a look at its block, and a collective outside a pair. -/
theorem engineCommandsAreAppended : Obligations.EngineCommandsAreAppended := by
  unfold Obligations.EngineCommandsAreAppended
  intro s q a x r o h act rec_ appendsAt appends collective format
  have withAct {i : Instr} {engine fn : Nat} (hi : exec i s = appendAct s o engine fn) : appends i engine fn 0 act := by
    refine hi.trans ((appendAct_stages h).trans ?_)
    rw [recordOf_eq]
    rfl
  have linked {i : Instr} {fn : Nat} (hi : exec i s = appendCollective s o fn) : collective i fn := by
    rintro c rfl
    refine ⟨fun single => ?_, fun pair => hi.trans (appendCollective_pair h pair)⟩
    refine hi.trans ((appendCollective_stages h single).trans ?_)
    rw [recordOf_eq]
    rfl
  refine ⟨withAct (exec_copy o s), withAct (exec_gather o s), withAct (exec_scatter o s), ?click, withAct (exec_tbuild o s),
    fun hc => ?plain, fun hc h2 h3 => ?patch, fun hc hd => exec_tpatch_delta h hc hd, withAct (exec_scant o s),
    withAct (exec_expand o s), withAct (exec_epi o s), linked (exec_car o s), linked (exec_crs o s), linked (exec_cag o s),
    linked (exec_ca2a o s), linked (exec_cbcast o s)⟩
  case click => exact (appendAux_stages h).trans (by rw [recordOf_eq])
  case plain => exact (exec_tpatch_plain h hc).trans (by rw [recordOf_eq])
  case patch => exact (exec_tpatch_stages h hc h2 h3).trans (by rw [recordOf_eq])

end Sys2Proof.Machine
end
section
/-! The statement on PUSHT, POPT and CHAIN, from the rules of Laws/Commands (15 R243, R244; 16 R257, R259, R260, R274, R275; 19 R304;
26 R415). -/
namespace Sys2Proof.Machine

variable {s s' : State} {q : SeqId} {a : Activation} {x : Sequencer} {r : StepRun} {o : QE}

/-- The first byte of a range, and the first of each page behind it, begin its part of their page. -/
theorem mem_pageStarts {va n w : Nat} (lo : va ≤ w) (hi : w < va + n) (hw : w = va ∨ w % 65536 = 0) : w ∈ pageStarts va n := by
  refine List.mem_filter.mpr ⟨List.mem_map.mpr ⟨w / 65536 - va / 65536, List.mem_range.mpr ?_, ?_⟩, decide_eq_true hi⟩
  · omega
  · omega

/-- A POPT whose destination leads outside HBM on one of its pages reaches a tier that it may not. -/
theorem checkStack_pop_tier {c : CommandRecord} {es : List StepEffect} {e : StackEntry} {w : Nat} {t : Leaf} (hf : c.fn ≠ 0)
    (hl : (s.stackAhead a.entry.asid es).getLast? = some e) (h : ¬(c.auxiliary ≠ 0 ∧ c.auxiliary.toNat ≠ e.length))
    (hr : recordsAllow a.records .write c.parameter.toNat e.length = true) (hw : w ∈ pageStarts c.parameter.toNat e.length)
    (ht : translate s a.entry.asid w .write = .ok t) (hbm : isHbm t.pa = false) :
    checkStack s a es c = .error { code := 0x24, flags := useFlags .write, address := c.parameter } := by
  unfold checkStack
  rw [if_neg hf, hl]
  refine (if_neg h).trans ((if_neg (by simp [hr])).trans (if_neg fun all => ?_))
  have at_w := List.all_eq_true.mp all w hw
  rw [ht] at at_w
  exact Bool.noConfusion (hbm.symm.trans at_w)

/-! ## CHAIN -/

theorem exec_chain_pair (h : RunsStep s q a x r) (pair : a.isPair = true) : exec (.chain o) s =
    .next (takeStepException s q { code := 0x23, address := x.reg o.sA.toNat, position := 64 }) :=
  (exec_chain o s).trans (inStep_exc h (by simp only [pair]; rfl))

section
variable (h : RunsStep s q a x r) (single : a.isPair = false)
include h single

theorem exec_chain_waits (hread : readStep s q a r (x.reg o.sA.toNat).toNat 64 64 = .waits) :
    exec (.chain o) s = .next (stepWaits s q x r) :=
  (exec_chain o s).trans (inStep_waits h (by simp only [single, hread]; rfl))

theorem exec_chain_fault {f : FaultInfo} (hread : readStep s q a r (x.reg o.sA.toNat).toNat 64 64 = .fault s' f) :
    exec (.chain o) s = .next (takeStepException s' q f) :=
  (exec_chain o s).trans (inStep_exc h (by simp only [single, hread]; rfl))

section
variable {bs : List Byte} {v : BitVec 512} (hread : readStep s q a r (x.reg o.sA.toNat).toNat 64 64 = .bytes s' bs)
  (hv : BitVec.ofNat 512 (natOfBytes bs) = v)
include hread hv

theorem exec_chain_illegal (hl : ¬(recordLegal (commandOfBytes v).engine (commandOfBytes v).fn (commandOfBytes v).flags.toNat = true ∧
      field v 4 4 = 0 ∧ field v 40 24 = 0)) : exec (.chain o) s =
    .next (takeStepException s' q { code := 0x58, address := x.reg o.sA.toNat }) := by
  subst hv
  refine (exec_chain o s).trans (inStep_exc h ?_)
  have bad : recordLegal (commandOfBytes (BitVec.ofNat 512 (natOfBytes bs))).engine
      (commandOfBytes (BitVec.ofNat 512 (natOfBytes bs))).fn (commandOfBytes (BitVec.ofNat 512 (natOfBytes bs))).flags.toNat = false ∨
      field (BitVec.ofNat 512 (natOfBytes bs)) 4 4 ≠ 0 ∨ field (BitVec.ofNat 512 (natOfBytes bs)) 40 24 ≠ 0 := by
    rw [← Bool.not_eq_true, ← not_and_or, ← not_and_or]
    exact hl
  simp only [single, hread, if_pos bad, BitVec.ofNat_toNat, BitVec.setWidth_eq]
  rfl

section
variable (hl : recordLegal (commandOfBytes v).engine (commandOfBytes v).fn (commandOfBytes v).flags.toNat = true ∧
  field v 4 4 = 0 ∧ field v 40 24 = 0)
include hl

theorem exec_chain_stages (hc : (commandOfBytes v).engine = 5 → checkStack s' a r.effects (commandOfBytes v) = .ok ()) :
    exec (.chain o) s = .next (stepStages s' q x r (.append (commandOfBytes v) r.word)) := by
  subst hv
  refine (exec_chain o s).trans (inStep_stage h ?_)
  obtain ⟨legal, zero4, zero40⟩ := hl
  simp only [single, hread, legal, zero4, zero40]
  split
  case isTrue bad => exact absurd bad Bool.false_ne_true
  case isFalse =>
    split
    case isTrue bad => simp at bad
    case isFalse =>
      split
      case isTrue spill => simp only [hc spill]
      case isFalse => rfl

theorem exec_chain_refused {f : FaultInfo} (spill : (commandOfBytes v).engine = 5)
    (hc : checkStack s' a r.effects (commandOfBytes v) = .error f) :
    exec (.chain o) s = .next (takeStepException s' q f) := by
  subst hv
  refine (exec_chain o s).trans (inStep_exc h ?_)
  obtain ⟨legal, zero4, zero40⟩ := hl
  simp only [single, hread, legal, zero4, zero40]
  split
  case isTrue bad => exact absurd bad Bool.false_ne_true
  case isFalse =>
    split
    case isTrue bad => simp at bad
    case isFalse => simp only [hc]

end
end
end

/-- Settles O42: PUSHT and POPT do what their check answers, and CHAIN what the check of the record that it reads answers. -/
theorem stackAndChainInstructions : Obligations.StackAndChainInstructions := by
  unfold Obligations.StackAndChainInstructions
  intro s q a x r o h va takes traps undeclared
  refine ⟨fun pair => ⟨appendStack_pair h pair, appendStack_pair h pair, exec_chain_pair h pair⟩, fun single => ?_⟩
  intro len n eyelet named stack stages d foot fits checked reached
  let c (fn : Nat) : CommandRecord := recordOf x o 5 fn len 0
  have pop : (c 1).fn ≠ 0 := Nat.one_ne_zero
  -- What the check of one of the two answers is what its instruction does.
  have staged {i : Instr} {fn : Nat} (hi : exec i s = appendStack s o fn) (hc : checkStack s a r.effects (c fn) = .ok ()) :
      stages i fn := hi.trans ((appendStack_ok h single hc).trans (by rw [recordOf_eq]))
  have refused {i : Instr} {fn : Nat} {f : FaultInfo} (hi : exec i s = appendStack s o fn)
      (hc : checkStack s a r.effects (c fn) = .error f) : takes s i f := hi.trans (appendStack_error h single hc)
  have eyelets {i : Instr} {fn : Nat} (hi : exec i s = appendStack s o fn)
      (hc : checkStack s a r.effects (c fn) = checkEyelet a (c fn)) : checked i fn := by
    refine ⟨fun hn => staged hi (hc.trans (checkEyelet_ok hn)), fun hn => refused hi (hc.trans ?_)⟩
    rw [not_or, Bool.not_eq_true] at hn
    exact checkEyelet_undeclared hn.1 hn.2
  have pages {i : Instr} {fn k : Nat} {u : RecordUse} (hi : exec i s = appendStack s o fn)
      (hc : checkStack s a r.effects (c fn) = match s.pagesReachable a.entry.asid u va.toNat k with
        | .error f => .error f
        | .ok () => checkEyelet a (c fn)) : reached i fn u k := by
    refine ⟨fun ok => eyelets hi ?_, fun f error => refused hi ?_⟩
    · rw [hc, ok]
    · rw [hc, error]
  refine ⟨fun bad => refused (exec_pusht o s) (checkStack_push_length rfl bad), fun pos small => ?push,
    fun empty => refused (exec_popt o s) (checkStack_pop_empty pop empty), fun e top => ?pop,
    fun mis => ?misaligned, fun l hal hcheck => ?chain⟩
  case push =>
    have push := checkStack_push (s := s) (a := a) (es := r.effects) (c := c 0) rfl (show ¬(n = 0 ∨ 2 ^ 32 ≤ n) by omega)
    have overflows : stackOverflows (s.stackDesc a.entry.asid) (s.stackAhead a.entry.asid r.effects) n = true ↔ ¬fits :=
      stackOverflows_iff d stack n
    have flag : (c 0).flags.getLsbD 0 = o.flags.getLsbD 0 := by simp [c, recordOf]
    refine ⟨fun full => refused (exec_pusht o s) (push.trans (if_pos (overflows.mpr full))), fun room device => ?_,
      fun room scratch => ?_⟩
    · have memory := (push.trans (if_neg (mt overflows.mp (not_not.mpr room)))).trans
        (if_neg (Bool.eq_false_iff.mp (flag.trans device)))
      refine ⟨fun allowed => pages (exec_pusht o s) (memory.trans (if_neg ?_)), fun denied =>
        refused (exec_pusht o s) (memory.trans (if_pos denied))⟩
      exact fun denied => Bool.noConfusion (allowed.symm.trans denied)
    · have bank := (push.trans (if_neg (mt overflows.mp (not_not.mpr room)))).trans (if_pos (flag.trans scratch))
      exact ⟨fun good => eyelets (exec_pusht o s) (bank.trans (if_pos good)),
        fun bad => refused (exec_pusht o s) (bank.trans (if_neg (Bool.eq_false_iff.mp bad)))⟩
  case pop =>
    have zero : len ≠ 0 ↔ n ≠ 0 := not_congr (BitVec.toNat_inj (y := 0)).symm
    refine ⟨fun some_ differs => refused (exec_popt o s) (checkStack_pop_length pop top ⟨zero.mpr some_, differs⟩),
      fun fitting => ?_⟩
    have length : ¬((c 1).auxiliary ≠ 0 ∧ (c 1).auxiliary.toNat ≠ e.length) := fun ⟨some_, differs⟩ =>
      fitting.elim (zero.mp some_) differs
    refine ⟨fun denied => refused (exec_popt o s) (checkStack_pop_undeclared pop top length denied), fun allowed =>
      ⟨fun hbm => pages (exec_popt o s) (checkStack_pop pop top length allowed hbm), fun w t lo hi starts ht outside => ?_⟩⟩
    exact refused (exec_popt o s)
      (checkStack_pop_tier pop top length allowed (mem_pageStarts lo hi starts) ht outside)
  case misaligned =>
    refine (exec_chain_fault h single (readStep_misaligned mis)).trans ?_
    rw [BitVec.ofNat_toNat, BitVec.setWidth_eq]
  case chain =>
    intro t
    refine ⟨fun fe empty => exec_chain_waits h single (readStep_waits hal hcheck fe empty), fun full s' bs hread => ?_⟩
    intro v c legal
    have bytes := readStep_bytes (r := r) hal hcheck full hread
    exact ⟨fun hl hc => exec_chain_stages h single bytes rfl hl hc,
      fun f hl spill hc => exec_chain_refused h single bytes rfl hl spill hc,
      fun hl => exec_chain_illegal h single bytes rfl hl⟩

end Sys2Proof.Machine
end
section
/-! The statements on tasks, permits, supervision and debug, from the rules on steps (17 R279; 21 R328 to R335, R342; 25 R398 to
R405). -/
namespace Sys2Proof.Machine

variable {s s' : State} {q : SeqId} {c : Nat} {a : Activation} {x : Sequencer} {r : StepRun} {o : QA}

/-! ## SPAWN and DECL -/

theorem exec_spawn_stages {bs : List Byte} (h : RunsRegion s c a x r) (single : a.isPair = false)
    (hread : readStep s (.region c) a r (x.reg o.a.toNat).toNat 64 64 = .bytes s' bs) :
    exec (.spawn o) s = .next (stepStages s' (.region c) x r
      (.spawn (BitVec.ofNat 512 (natOfBytes bs)) (x.reg o.a.toNat).toNat r.word)) :=
  (exec_spawn o s).trans (inStep_stage h (by simp only [single, hread]; rfl))

theorem exec_spawn_pair (h : RunsRegion s c a x r) (pair : a.isPair = true) : exec (.spawn o) s =
    .next (takeStepException s (.region c) { code := 0x23, address := x.reg o.a.toNat, position := 64 }) :=
  (exec_spawn o s).trans (inStep_exc h (by simp only [pair]; rfl))

/-- What R330 allows: no bit above the mode, a mode of R303, and of a range that is not empty that it lies in the old one, with its
mode or out of a mode that allows all (21 R330). -/
theorem declAllowed_iff (old : RegionRecord) (base ext : Nat) :
    declAllowed old base ext = true ↔ ext < 2 ^ 52 ∧ slice ext 51 48 ≤ 3 ∧ (ext % 2 ^ 48 = 0 ∨
      (old.base ≤ base ∧ base + ext % 2 ^ 48 ≤ old.base + old.extent ∧ (slice ext 51 48 = old.mode ∨ old.mode = 2))) := by
  have narrows (new : Nat) (hn : new ≤ 3) : modeNarrows old.mode new = true ↔ new = old.mode ∨ old.mode = 2 := by
    unfold modeNarrows
    split
    case isTrue free => exact iff_of_true (decide_eq_true hn) (.inr free)
    case isFalse bound => simp [bound]
  have low : ext / 2 ^ 52 = 0 ↔ ext < 2 ^ 52 := by omega
  by_cases hm : slice ext 51 48 ≤ 3
  · simp only [declAllowed, Bool.and_eq_true, Bool.or_eq_true, decide_eq_true_eq, low, narrows _ hm, hm, and_true, true_and,
      and_assoc]
  · simp only [declAllowed, Bool.and_eq_true, decide_eq_true_eq, hm, and_false, false_and]

theorem exec_decl_stages {old : RegionRecord} (h : RunsRegion s c a x r)
    (hold : (stagedRecords r.effects a.records)[(x.reg o.d.toNat).toNat]? = some old)
    (hd : declAllowed old (x.reg o.a.toNat).toNat (x.reg o.b.toNat).toNat = true) :
    exec (.decl o) s = .next (stepStages s (.region c) x r (.decl (x.reg o.d.toNat).toNat (x.reg o.a.toNat) (x.reg o.b.toNat))) :=
  (exec_decl o s).trans (inRegionStep_stage h (by simp only [hold, if_pos hd]))

theorem exec_decl_refused {old : RegionRecord} (h : RunsRegion s c a x r)
    (hold : (stagedRecords r.effects a.records)[(x.reg o.d.toNat).toNat]? = some old)
    (hd : ¬declAllowed old (x.reg o.a.toNat).toNat (x.reg o.b.toNat).toNat = true) :
    exec (.decl o) s = .next (takeStepException s (.region c) { code := 0x27, address := x.reg o.a.toNat }) :=
  (exec_decl o s).trans (inRegionStep_exc h (by simp only [hold, if_neg hd]))

theorem exec_decl_absent (h : RunsRegion s c a x r)
    (hold : (stagedRecords r.effects a.records)[(x.reg o.d.toNat).toNat]? = none) :
    exec (.decl o) s = .next (takeStepException s (.region c) { code := 0x27 }) :=
  (exec_decl o s).trans (inRegionStep_exc h (by simp only [hold]))

/-- Settles O43: a SPAWN stages what it read, a DECL what it may, and of the others two look at their operand. -/
theorem taskInstructionsAreStaged : Obligations.TaskInstructionsAreStaged := by
  unfold Obligations.TaskInstructionsAreStaged
  intro s s' c a x r o bs old h A B D now traps n mode narrows charge
  have plain {i : Instr} {e : StepEffect} (hi : exec i s = inRegionStep s fun s _ _ x r => stage s x r e) : now i e :=
    hi.trans (inRegionStep_stage h rfl)
  refine ⟨fun single hread => exec_spawn_stages h single hread, fun pair => exec_spawn_pair h pair, fun hold => ⟨fun hn =>
    exec_decl_stages h hold ((declAllowed_iff _ _ _).mpr hn), fun hn => exec_decl_refused h hold (mt (declAllowed_iff _ _ _).mp hn)⟩,
    fun hold => exec_decl_absent h hold, fun small => ?cancel, fun large => ?cancelFault, (exec_split o s).trans
    (inRegionStep_stage h rfl), plain (exec_yield o s), plain (exec_unpermit o s), fun known fits => ?permit, fun bad => ?permitFault⟩
  case cancel => exact (exec_cancel o s).trans (inRegionStep_stage h (if_neg (not_le.mpr small)))
  case cancelFault =>
    refine (exec_cancel o s).trans (inRegionStep_exc h ((if_pos large).trans ?_))
    rw [BitVec.ofNat_toNat, BitVec.setWidth_eq]
  case permit =>
    refine (exec_permit o s).trans (inRegionStep_stage h (if_neg ?_))
    rintro (unknown | passes)
    · exact absurd known (not_le.mpr unknown)
    · exact absurd fits (not_le.mpr (of_decide_eq_true passes))
  case permitFault =>
    exact (exec_permit o s).trans (inRegionStep_exc h (if_pos (bad.imp_right decide_eq_true)))

/-! ## QSYS -/

section
variable {f : State → Activation → Sequencer → StepRun → StepResult} (h : RunsRegion s c a x r) (ha : a.entry.asid = 0)
include h ha

theorem inSupervisor_stage {e : StepEffect} (hf : f s a x r = stage s' x r e) :
    inSupervisor s f = .next (stepStages s' (.region c) x r e) := inStep_stage h ((if_neg (not_not.mpr ha)).trans hf)

theorem inSupervisor_exc {i : FaultInfo} (hf : f s a x r = .exc s' i) :
    inSupervisor s f = .next (takeStepException s' (.region c) i) := inStep_exc h ((if_neg (not_not.mpr ha)).trans hf)

end

/-- Reading a monitor restarts the lowest voltage of a droop monitor and changes nothing else (25 R402). -/
theorem State.readMonitor_state (s : State) (die kind index : Nat) : (s.readMonitor die kind index).1 =
    { s with host := { s.host with monitorRead :=
      if kind = 1 then s.host.monitorRead.put (1024 * die + 256 * kind + index) s.tick else s.host.monitorRead } } := by
  unfold State.readMonitor
  by_cases hk : kind = 1
  · simp only [if_pos hk]
    rfl
  · simp only [if_neg hk]

/-- Settles O44: each QSYS instruction of ASID 0 looks at its operand and stages, and so do those of debug. -/
theorem supervisorAndDebugInstructions : Obligations.SupervisorAndDebugInstructions := by
  unfold Obligations.SupervisorAndDebugInstructions
  intro s o
  refine ⟨fun q a x r h => (exec_sbrk o s).trans (inStep_stage h rfl), fun c a x r h => ?_⟩
  intro A B k now traps die kind index count key
  refine ⟨fun ha => ?supervisor, fun known => ?step, fun unknown => ?stepFault⟩
  case supervisor =>
    refine ⟨fun small vf => ?tlbinv, fun bad => ?tlbinvFault, fun small names tile => ?quar, fun bad => ?quarFault,
      fun some_ => ⟨?ctxsave, ?ctxload⟩, fun zero => ⟨?ctxsaveFault, ?ctxloadFault⟩, fun there => ?mon, fun absent => ?monFault,
      (exec_bbnote o s).trans (inSupervisor_stage h ha rfl)⟩
    case tlbinv =>
      refine (exec_tlbinv o s).trans (inSupervisor_stage h ha (if_neg ?_))
      rintro (large | ⟨stage2, high⟩)
      · exact absurd small (not_lt.mpr large)
      · exact vf.elim (not_lt.mpr stage2) (not_le.mpr high)
    case tlbinvFault => exact (exec_tlbinv o s).trans (inSupervisor_exc h ha (if_pos bad))
    case quar =>
      refine (exec_quar o s).trans (inSupervisor_stage h ha (if_neg ?_))
      rintro (large | nothing | other)
      · exact absurd small (not_lt.mpr large)
      · exact Bool.noConfusion (names.symm.trans nothing)
      · exact Bool.noConfusion (tile.symm.trans other)
    case quarFault => exact (exec_quar o s).trans (inSupervisor_exc h ha (if_pos bad))
    case ctxsave => exact (exec_ctxsave o s).trans (inSupervisor_stage h ha (if_neg some_))
    case ctxload => exact (exec_ctxload o s).trans (inSupervisor_stage h ha (if_neg some_))
    case ctxsaveFault => exact (exec_ctxsave o s).trans (inSupervisor_exc h ha (if_pos zero))
    case ctxloadFault => exact (exec_ctxload o s).trans (inSupervisor_exc h ha (if_pos zero))
    case mon =>
      exact ⟨_, (exec_mon o s).trans (inSupervisor_stage h ha (if_neg (not_le.mpr there))), s.readMonitor_state die kind index⟩
    case monFault => exact (exec_mon o s).trans (inSupervisor_exc h ha (if_pos absent))
  case step => exact (exec_step o s).trans (inRegionStep_stage h (if_pos known))
  case stepFault => exact (exec_step o s).trans (inRegionStep_exc h (if_neg (Bool.eq_false_iff.mp unknown)))

end Sys2Proof.Machine
end
section
/-! The statement on CSUM and CSVER, from the rules on lanes and on sums modulo a width (23 R370). -/
namespace Sys2Proof.Machine

/-! ## The running pair -/

/-- Adding to a wrapped sum wraps the whole sum. -/
theorem wrapTo_wrapTo_add (w : Nat) (x y : Int) : wrapTo w ((wrapTo w x : Int) + y) = wrapTo w (x + y) :=
  wrapTo_congr ((wrapTo_modEq w x).add_right y)

theorem wrapTo_of_lt {w n : Nat} (h : n < 2 ^ w) : wrapTo w (n : Int) = n := by
  rw [wrapTo, ← Int.natCast_mod, Int.toNat_natCast, Nat.mod_eq_of_lt h]

/-- A fold that adds to two wrapped sums gives the two whole sums, wrapped. -/
theorem foldl_wrapTo_add (f g : Nat → Int) (l : List Nat) (x y : Int) :
    l.foldl (fun (p : Nat × Nat) i => (wrapTo 64 (p.1 + f i), wrapTo 64 (p.2 + g i))) (wrapTo 64 x, wrapTo 64 y) =
      (wrapTo 64 (x + (l.map f).sum), wrapTo 64 (y + (l.map g).sum)) := by
  induction l generalizing x y with
  | nil => simp
  | cons i l ih =>
    rw [List.foldl_cons, wrapTo_wrapTo_add, wrapTo_wrapTo_add, ih, List.map_cons, List.map_cons, List.sum_cons, List.sum_cons,
      add_assoc, add_assoc]

theorem checksum_eq (w : Nat) (lane : Nat → Nat) {a b : Nat} (i0 : Nat) (ha : a < 2 ^ 64) (hb : b < 2 ^ 64) :
    checksum w lane a b i0 =
      (wrapTo 64 (a + ((List.range (lanesOf w)).map fun i => signedOf w (lane i)).sum),
       wrapTo 64 (b + ((List.range (lanesOf w)).map fun i => ((i0 + i + 1 : Nat) : Int) * signedOf w (lane i)).sum)) := by
  have sums := foldl_wrapTo_add (fun i => signedOf w (lane i)) (fun i => ((i0 + i + 1 : Nat) : Int) * signedOf w (lane i))
    (List.range (lanesOf w)) a b
  rwa [wrapTo_of_lt ha, wrapTo_of_lt hb] at sums

/-! ## The running state as bytes -/

/-- A running state: the pair, the count, the verdict and the expected pair, one behind the other. -/
def checksumState (sa sb count verdict expected : Nat) : Vec :=
  BitVec.ofNat 2048 (sa + sb * 2 ^ 64 + count * 2 ^ 128 + verdict * 2 ^ 160 + expected * 2 ^ 256)

theorem vecNat_checksumState {sa sb count verdict expected : Nat} (ha : sa < 2 ^ 64) (hb : sb < 2 ^ 64) (hc : count < 2 ^ 32)
    (hv : verdict < 2 ^ 32) (he : expected < 2 ^ 128) :
    let v := checksumState sa sb count verdict expected
    vecNat v 0 8 = sa ∧ vecNat v 8 8 = sb ∧ vecNat v 16 4 = count ∧ vecNat v 20 4 = verdict ∧ vecNat v 24 8 = 0 ∧
      vecNat v 32 16 = expected ∧ vecNat v 48 208 = 0 := by
  intro v
  have small : sa + sb * 2 ^ 64 + count * 2 ^ 128 + verdict * 2 ^ 160 + expected * 2 ^ 256 < 2 ^ 384 := by omega
  have value : v.toNat = sa + sb * 2 ^ 64 + count * 2 ^ 128 + verdict * 2 ^ 160 + expected * 2 ^ 256 := by
    refine (BitVec.toNat_ofNat _ _).trans (Nat.mod_eq_of_lt (small.trans ?_))
    exact Nat.pow_lt_pow_right (by decide) (by decide)
  have beyond : vecNat v 48 208 = 0 := by
    rw [vecNat, value, Nat.div_eq_of_lt (by simpa using small), Nat.zero_mod]
  simp only [vecNat, value] at beyond ⊢
  refine ⟨?_, ?_, ?_, ?_, ?_, ?_, beyond⟩ <;> omega

/-- The lanes of B as the vector that holds the state to go on from. -/
def checksumSource (x : Element) (el : Nat) (b : Block) (o : EA) : Vec :=
  BitVec.ofNat 2048 (packLanes (laneWidth o.t) ((List.range (lanesOf (laneWidth o.t))).map fun i => srcB x el b o (layoutOf o.t) i))

theorem checksumInto_next {s : State} {el : Nat} {b : Block} {o : EA} {sa sb : Nat} (verify : Bool) (h : RunsBlock s el b)
    (pair : let B := checksumSource (s.element el) el b o
      checksum (laneWidth o.t) (srcA (s.element el) el b o (layoutOf o.t)) (vecNat B 0 8) (vecNat B 8 8) (vecNat B 16 4) = (sa, sb)) :
    let B := checksumSource (s.element el) el b o
    checksumInto s o verify = .next (blockMoves s el (b.setTemp o.d.toNat
      (checksumState sa sb ((vecNat B 16 4 + lanesOf (laneWidth o.t)) % 2 ^ 32)
        (if (verify && decide (sa = vecNat B 32 8 ∧ sb = vecNat B 40 8)) = true then 1 else 0) (vecNat B 32 16))) (eaWords o)) := by
  refine (inLanes_next h).trans ?_
  dsimp only [checksumSource] at pair
  simp only [pair, Bool.decide_and, Bool.and_assoc]
  rfl

/-- Settles O29: the two sums are folds over the lanes, and the state that is written shows them in its fields. -/
theorem checksumPairs : Obligations.ChecksumPairs := by
  unfold Obligations.ChecksumPairs
  intro s el b o h ht x w n A
  let B : Vec := checksumSource x el b o
  refine ⟨B, fun j hj => ?lanes, ?_⟩
  case lanes =>
    exact (laneNat_packLanes (laneWidth_dvd o.t) _ j hj).trans (Nat.mod_eq_of_lt (srcB_lt x (by omega) j))
  intro i0 sa sb out
  have pair : checksum w (srcA x el b o (layoutOf o.t)) (vecNat B 0 8) (vecNat B 8 8) i0 = (sa, sb) :=
    checksum_eq w _ i0 (Nat.mod_lt _ (Nat.two_pow_pos _)) (Nat.mod_lt _ (Nat.two_pow_pos _))
  have fields (good : Bool) :
      out (checksumState sa sb ((i0 + n) % 2 ^ 32) (if good = true then 1 else 0) (vecNat B 32 16)) good :=
    vecNat_checksumState (wrapTo_lt 64 _) (wrapTo_lt 64 _) (Nat.mod_lt _ (Nat.two_pow_pos _)) (by split <;> decide)
      (Nat.mod_lt _ (Nat.two_pow_pos _))
  exact ⟨⟨_, fields false, (exec_csum o s).trans (checksumInto_next false h pair)⟩,
    ⟨_, fields _, (exec_csver o s).trans (checksumInto_next true h pair)⟩⟩

end Sys2Proof.Machine
end
section
/-! The statements on the state right after reset and on a package that a fatal error has stopped (16 R264; 26 R417, R419, R420). -/
namespace Sys2Proof.Machine

/-- The memories right after reset list nothing, and there is no tile and no activation that would hold another. -/
theorem State.reset_memoryGood : State.reset.memoryGood :=
  ⟨rfl, fun _ tile => absurd tile List.not_mem_nil, fun _ activation => absurd activation List.not_mem_nil⟩

/-- Settles O56: every field of the state right after reset has its default. -/
theorem resetState : Obligations.ResetState :=
  ⟨State.reset_memoryGood, rfl, rfl, rfl, rfl, rfl, rfl, rfl, rfl, rfl, rfl, rfl, rfl, rfl, fun _ => rfl⟩

/-! ## Steps of a stopped package (26 R417) -/

theorem passing_eq_next {r : Result} {t : State} (h : passing r = .next t) : ∃ u, r = .next u ∧ t = u.pass := by
  cases r with
  | next u => exact ⟨u, rfl, (Host.Outcome.next.inj h).symm⟩
  | fault f => cases h
  | refused r => cases h

theorem staysHalted_eq_next {r : Result} {u : State} (h : staysHalted r = .next u) : u.halted = true := by
  cases r with
  | next v => exact (Host.Outcome.next.inj h) ▸ rfl
  | fault f => cases h
  | refused r => cases h

/-- A reset comes next only where the agenda begins with one, or where it is empty and the schedule names one. -/
theorem hostWork_reset {s : State} (h : hostWork s = some .reset) :
    s.agenda.head? = some .reset ∨ (s.agenda = [] ∧ Config.schedule s.tick = .event .reset) := by
  unfold hostWork at h
  split at h
  case h_1 i rest agenda =>
    split at h
    · exact .inl (by rw [agenda]; exact h)
    · cases h
  case h_2 empty =>
    split at h
    case h_1 i scheduled =>
      split at h
      · exact .inr ⟨empty, scheduled.trans (congrArg _ (Option.some.inj h))⟩
      · cases h
    case h_2 => cases h

/-- Settles O60: a stopped package lets time pass, resets, or does work behind which it is stopped again. -/
theorem onlyResetEndsAFatalError : Obligations.OnlyResetEndsAFatalError := by
  unfold Obligations.OnlyResetEndsAFatalError
  intro s t halted noReset unscheduled h
  rw [step, if_pos halted, haltedStep] at h
  split at h
  case h_1 => exact (Host.Outcome.next.inj h) ▸ halted
  case h_2 reset =>
    rcases hostWork_reset reset with next | ⟨empty, scheduled⟩
    · exact absurd next noReset
    · exact absurd scheduled (unscheduled empty)
  case h_3 =>
    obtain ⟨u, hu, rfl⟩ := passing_eq_next h
    show u.halted = true
    exact staysHalted_eq_next hu

end Sys2Proof.Machine
end
section
/-! The statement on appends, cancels, answers and invalidations of the host (18 R288, R298; 25 R385, R393, R399). -/
namespace Sys2Proof.Machine

theorem Tab.mem_of_find {α : Type} {t : Tab α} {n : Nat} {v : α} (h : t.find n = some v) : (n, v) ∈ t := by
  induction t with
  | nil => cases h
  | cons p t ih =>
    obtain ⟨k, w⟩ := p
    rw [Tab.find] at h
    split at h
    case isTrue hk => exact List.mem_cons.mpr (.inl (Prod.ext hk.symm (Option.some.inj h).symm))
    case isFalse => exact List.mem_cons_of_mem _ (ih h)

section
variable {s : State} {q asid c : Nat} {a : Activation}

/-! ## Appends and cancels -/

theorem State.hostAppend_eq (s : State) (asid : Nat) (record : BitVec 512) :
    let last (t : State) (r : BitVec 2) : State := t.mapHost fun h => { h with
      lastAppend := h.lastAppend.put asid r, windowStores := h.windowStores.drop asid }
    s.hostAppend asid record = if s.chainEnabled asid = false then last s 2
      else if s.chainFull asid then last s 1 else last (s.appendRecord asid record []) 0 := by
  unfold State.hostAppend
  cases s.chainEnabled asid <;> rfl

theorem State.cancelId_unused {job level id code : Nat} (h : counterOf s (asid, if level = 4 then id else job, level, id) = 0) :
    s.cancelId asid job level id code = s := if_pos h

/-! ## Answers (25 R385) -/

theorem State.respond_none (action : Action) (h : s.respondTo q asid c = none) : s.respond q asid c action = s := by
  unfold State.respond
  rw [h]

theorem State.respond_answers {action : Action} (h : s.respondTo q asid c = some a) (kill : action ≠ .kill)
    (skip : action = .skip → s.skipKills a = false) : s.respond q asid c action =
      s.inFrame a fun s => s.answerUnits a (action = .skip) (action = .cont) := by
  unfold State.respond
  rw [h]
  refine if_neg ?_
  rw [Bool.or_eq_true, Bool.and_eq_true, decide_eq_true_eq, decide_eq_true_eq]
  rintro (killed | ⟨skipped, kills⟩)
  · exact kill killed
  · exact Bool.noConfusion (kills.symm.trans (skip skipped))

theorem State.respond_kills (h : s.respondTo q asid c = some a) :
    ∃ code, s.respond q asid c .kill = s.putActivation { a.cancel code with restarts := false } := by
  unfold State.respond
  rw [h]
  exact ⟨_, rfl⟩

/-! ## Invalidations (25 R393, R399) -/

/-- Where no stream waits to be patched, patching leaves everything. -/
theorem State.repatchAll_fresh (h : s.streamsStale = false) : s.repatchAll = s := by
  have fresh {t : Nat × MemTile} {st : Stream} (ht : t ∈ s.tiles) (hst : st ∈ t.2.streams) :
      ¬(st.waitsPatch = true ∧ (s.activation st.colour.toNat).isSome = true) := by
    rw [← Bool.and_eq_true]
    exact List.any_eq_false.mp (Bool.eq_false_iff.mpr (List.any_eq_false.mp h t ht)) st hst
  unfold State.repatchAll
  refine List.foldlRecOn (motive := fun u : State => u = s) _ _ rfl fun u hu t _ =>
    List.foldlRecOn (motive := fun u : State => u = s) _ _ hu fun v hv i _ => ?_
  subst hv
  split
  case h_1 => rfl
  case h_2 st hst =>
    split
    case h_1 b hb =>
      refine if_neg fun waits => ?_
      rw [State.tile, Tab.getD] at hst
      cases hfound : v.tiles.find t.1 with
      | none =>
        rw [hfound] at hst
        cases hst
      | some x =>
        rw [hfound] at hst
        exact fresh (Tab.mem_of_find hfound) (List.mem_of_getElem? hst) ⟨waits, by rw [hb]; rfl⟩
    case h_2 => rfl

theorem State.invalidate_frame (s : State) (kind address target : Nat) :
    let u := s.invalidate kind address target
    u.memory.tlb = s.memory.tlb.filter (fun k => !s.invalidates kind address target k) ∧ u.memory.mem = s.memory.mem ∧
      u.memory.llc = s.memory.llc ∧ u.host = s.host := ⟨rfl, rfl, rfl, rfl⟩

/-- The value that a write leaves in TLBINVH has bit 61 clear: it lies between the target and the kind. -/
theorem tlbinvh_busy_clear (kind target address : Nat) :
    (BitVec.ofNat 64 (kind % 4 * 2 ^ 62 + target % 256 * 2 ^ 48 + address % 2 ^ 48 / 65536 * 65536)).getLsbD 61 = false := by
  rw [BitVec.getLsbD_ofNat, Nat.testBit_eq_decide_div_mod_eq]
  simp only [Nat.reduceLT, decide_true, Bool.true_and, decide_eq_false_iff_not]
  omega

/-- What an invalidation leaves: its translations are gone and the streams under it patched, and bit 61 reads 0 once nothing that it
waits for is on its way. -/
def State.Invalidates (s t : State) (q kind target address : Nat) : Prop :=
  let u := s.invalidate kind address target
  OnlyHost u.repatchAll t ∧ (u.streamsStale = false → u.repatchAll = u) ∧
  u.memory.tlb = s.memory.tlb.filter (fun k => !s.invalidates kind address target k) ∧ u.memory.mem = s.memory.mem ∧
  u.memory.llc = s.memory.llc ∧ u.host = s.host ∧
  ((∀ i ∈ s.additionsUnder kind address target, t.memory.additions.find i = none) → (t.tlbinvhValue q).getLsbD 61 = false)

theorem State.tlbinvh_invalidates {kind target address : Nat}
    (allowed : ¬((q ≠ 0 ∧ (2 ≤ kind ∨ s.vfOf target ≠ q)) ∨ (2 ≤ kind ∧ 128 < target))) :
    s.Invalidates (s.tlbinvh q kind target address) q kind target address := by
  rw [State.tlbinvh, if_neg allowed]
  refine ⟨rfl, State.repatchAll_fresh, rfl, rfl, rfl, rfl, fun performed => ?_⟩
  have idle : ((s.additionsUnder kind address target).any fun i =>
      (((s.invalidate kind address target).repatchAll).memory.additions.find i).isSome) = false :=
    List.any_eq_false.mpr fun i hi => Bool.eq_false_iff.mp (congrArg Option.isSome (performed i hi))
  rw [State.tlbinvhValue]
  simp only [State.mapHost_host, State.mapHost_memory, Tab.getD_put_self, idle, Bool.false_eq_true, if_false, BitVec.getLsbD_or,
    tlbinvh_busy_clear kind target address]
  rfl

end

/-- Settles O53: an append looks at its chain, an answer at the fault that it names, and an invalidation at its function's contexts. -/
theorem hostAppendsAnswersAndInvalidates : Obligations.HostAppendsAnswersAndInvalidates := by
  unfold Obligations.HostAppendsAnswersAndInvalidates
  intro s asid q c record last writes
  refine ⟨fun small => ?append, fun level job id small lo hi hj hid => ⟨?cancel, State.cancelId_unused⟩, fun none_ => ?unheld,
    fun a held => ?held, fun address small own => ?stage1, fun vf address zero small => ?stage2⟩
  case append =>
    rw [exec_hostAppend, execHostAppend, if_pos small, State.hostAppend_eq]
  case cancel =>
    rw [exec_hostCancel, execHostCancel, decide_eq_true small, decide_eq_true lo, decide_eq_true hi, decide_eq_true hj,
      decide_eq_true hid]
    rfl
  case unheld =>
    have same (action : Action) : (.next (s.respond q asid c action) : Result) = .next s :=
      congrArg _ (State.respond_none action none_)
    exact ⟨same .retry, same .skip, same .kill, same .cont⟩
  case held =>
    obtain ⟨code, killed⟩ := State.respond_kills held
    have other {action : Action} (h : action ≠ .skip) (h' : action = .skip) : s.skipKills a = false := absurd h' h
    refine ⟨congrArg _ (State.respond_answers held (by decide) (other (by decide))), congrArg _ (State.respond_answers held
      (by decide) (other (by decide))), fun spares => congrArg _ (State.respond_answers held (by decide) fun _ => spares), _, congrArg _ killed, rfl, rfl⟩
  case stage1 =>
    have context : asid % 256 = asid := Nat.mod_eq_of_lt small
    have allowed {kind : Nat} (hk : kind < 2) : ¬((q ≠ 0 ∧ (2 ≤ kind ∨ s.vfOf asid ≠ q)) ∨ (2 ≤ kind ∧ 128 < asid)) := by
      rintro (⟨foreign, wide | other⟩ | ⟨wide, -⟩)
      · omega
      · exact own.elim foreign other
      · omega
    exact ⟨⟨_, by rw [exec_tlbinvhPage, execTlbinvhPage, context], State.tlbinvh_invalidates (allowed (by decide))⟩,
      ⟨_, by rw [exec_tlbinvhAsid, execTlbinvhAsid, context], State.tlbinvh_invalidates (allowed (by decide))⟩⟩
  case stage2 =>
    have vfs : vf % 256 = vf := Nat.mod_eq_of_lt (by omega)
    have allowed {kind : Nat} : ¬((q ≠ 0 ∧ (2 ≤ kind ∨ s.vfOf vf ≠ q)) ∨ (2 ≤ kind ∧ 128 < vf)) := by omega
    exact ⟨⟨_, by rw [exec_tlbinvhIpa, execTlbinvhIpa, vfs], State.tlbinvh_invalidates allowed⟩,
      ⟨_, by rw [exec_tlbinvhVf, execTlbinvhVf, vfs], State.tlbinvh_invalidates allowed⟩⟩

end Sys2Proof.Machine
end
section
/-! The statement on power, readiness and reset (26 R408, R417 to R423). -/
namespace Sys2Proof.Machine

/-! ## Events and fatal errors (26 R416, R417) -/

section
variable (s : State) (kind cause : Nat) (fs : List (Nat × Nat × Nat))

/-- An event goes into the black box and leaves everything else. -/
theorem State.blackBox_log : ∃ box at_, s.blackBox kind fs =
    { s with host := { s.host with blackBox := box, bbidx := at_ } } := by
  unfold State.blackBox
  split
  · exact ⟨s.host.blackBox, s.host.bbidx, rfl⟩
  · exact ⟨_, _, rfl⟩

/-- A fatal error stops the package, freezes the black box and leaves everything else. -/
theorem State.fatal_log : ∃ box at_ copy, s.fatal cause fs = { s with
    halted := true, host := { s.host with blackBox := box, bbidx := at_, frozen := true, flashCopy := copy } } := by
  obtain ⟨box, at_, logged⟩ := s.blackBox_log 0x08 ((9, 1, cause) :: fs)
  unfold State.fatal
  rw [logged]
  exact ⟨_, _, _, rfl⟩

end

/-! ## Power and temperature (26 R417, R418) -/

theorem mem_allMonitors (m : Nat × Nat) : m ∈ allMonitors ↔ m.1 < 4 ∧ m.2 < 64 := by
  obtain ⟨d, i⟩ := m
  simp [allMonitors]

/-- A monitor of the package passes a test. -/
theorem any_allMonitors (p : Nat × Nat → Bool) : allMonitors.any p = true ↔ ∃ d i, d < 4 ∧ i < 64 ∧ p (d, i) = true := by
  simp only [List.any_eq_true, mem_allMonitors, Prod.exists, and_assoc]

/-- The package with its throttle as the power and the temperatures of a sample ask it. -/
def State.throttles (s : State) (milliwatts : Nat) : State :=
  let above := decide (s.host.budget < milliwatts)
  let hot := allMonitors.any fun m => decide (1680 ≤ s.temperature m.1 m.2)
  if (above || hot) = s.host.throttled then s
  else (s.blackBox 0x07 [(9, 1, (Config.throttleCause above hot).toNat), (10, 1, if above || hot then 1 else 0)]).mapHost fun h =>
    { h with throttled := above || hot }

theorem State.throttles_iff (s : State) (milliwatts : Nat) : (s.throttles milliwatts).host.throttled = true ↔
    s.host.budget < milliwatts ∨ ∃ d i, d < 4 ∧ i < 64 ∧ 1680 ≤ s.temperature d i := by
  have asked : (decide (s.host.budget < milliwatts) || allMonitors.any fun m => decide (1680 ≤ s.temperature m.1 m.2)) = true ↔
      s.host.budget < milliwatts ∨ ∃ d i, d < 4 ∧ i < 64 ∧ 1680 ≤ s.temperature d i := by
    simp only [Bool.or_eq_true, decide_eq_true_eq, any_allMonitors]
  rw [← asked, State.throttles]
  split
  case isTrue same => rw [same]
  case isFalse => rfl

theorem execPowerSample_cool {s : State} {milliwatts : Nat}
    (h : (allMonitors.find? fun m => decide (1840 ≤ s.temperature m.1 m.2)) = none) :
    execPowerSample milliwatts s = .next (s.throttles milliwatts) := by
  unfold execPowerSample
  simp only [h]
  rfl

theorem execPowerSample_hot {s : State} {milliwatts : Nat} {m : Nat × Nat}
    (h : (allMonitors.find? fun m => decide (1840 ≤ s.temperature m.1 m.2)) = some m) :
    execPowerSample milliwatts s = .next ((s.throttles milliwatts).fatal 3
      [(16, 1, m.1), (17, 1, m.2), (18, 2, (s.temperature m.1 m.2 % 65536).toNat)]) := by
  unfold execPowerSample
  simp only [h]
  rfl

/-- What a power sample leaves: the throttle as it asks, and at 115 °C a stopped package. -/
theorem exec_powerSample_throttles (s : State) (milliwatts : Nat) : ∃ t, exec (.powerSample milliwatts) s = .next t ∧
    (t.host.throttled = true ↔ s.host.budget < milliwatts ∨ ∃ d i, d < 4 ∧ i < 64 ∧ 1680 ≤ s.temperature d i) ∧
    ((∃ d i, d < 4 ∧ i < 64 ∧ 1840 ≤ s.temperature d i) → t.halted = true ∧ t.host.frozen = true) := by
  rw [exec_powerSample]
  cases h : allMonitors.find? fun m => decide (1840 ≤ s.temperature m.1 m.2) with
  | none =>
    refine ⟨_, execPowerSample_cool h, s.throttles_iff milliwatts, fun ⟨d, i, hd, hi, hot⟩ => ?_⟩
    exact absurd (decide_eq_true hot) (List.find?_eq_none.mp h (d, i) ((mem_allMonitors (d, i)).mpr ⟨hd, hi⟩))
  | some m =>
    obtain ⟨box, at_, copy, stopped⟩ := (s.throttles milliwatts).fatal_log 3
      [(16, 1, m.1), (17, 1, m.2), (18, 2, (s.temperature m.1 m.2 % 65536).toNat)]
    refine ⟨_, execPowerSample_hot h, ?_, fun _ => ?_⟩
    · rw [stopped]
      exact s.throttles_iff milliwatts
    · rw [stopped]
      exact ⟨rfl, rfl⟩

/-! ## Readiness (26 R419) -/

theorem getLsbD_or_shift {w : Nat} (v : BitVec w) {b k : Nat} (hb : b < w) :
    (v ||| 1#w <<< b).getLsbD k = (decide (k = b) || v.getLsbD k) := by
  rw [BitVec.getLsbD_or, BitVec.getLsbD_shiftLeft, BitVec.getLsbD_one]
  by_cases hk : k = b
  · subst hk
    simp [hb]
    omega
  · have other : ¬(b ≤ k ∧ k - b = 0) := by omega
    have bit : (decide (k < w) && !decide (k < b) && (decide (0 < w) && decide (k - b = 0))) = false := by
      simp
      omega
    rw [bit]
    simp [hk]

theorem idX_lt (id : Nat) : idX id < 32 := Nat.mod_lt _ (by decide)

theorem State.tileReady_setTileReady (s : State) (id : Nat) : (s.setTileReady id true).tileReady id = true := by
  unfold State.setTileReady State.tileReady
  simp only [State.mapHost_host, Tab.getD_put_self, if_true, getLsbD_or_shift _ (idX_lt id), decide_true, Bool.true_or]

theorem State.setRdys_on {s : State} {b : Nat} (h : b < 64) (k : Nat) :
    (s.setRdys b true).host.rdys.getLsbD k = (decide (k = b) || s.host.rdys.getLsbD k) := getLsbD_or_shift _ h

theorem rdysBit_lt {f : ReadyFunction} {b : Nat} (h : rdysBit f = some b) : b < 64 := by
  have within {n k m : Nat} (h : (if n < k then some (m + n) else none) = some b) (hm : m + k ≤ 64) : b < 64 := by
    split at h
    case isTrue small =>
      have value := Option.some.inj h
      omega
    case isFalse => cases h
  cases f with
  | tile die y x => cases h
  | welt k => exact within h (by decide)
  | hbm k => exact within h (by decide)
  | llc k => exact within h (by decide)
  | spillEngine k => exact within h (by decide)
  | port k => exact within (m := 0) (by rw [Nat.zero_add]; exact h) (by decide)

theorem exec_selfTestPass_tile {s : State} {die y x : Nat} (hd : die < 4) (hy : y < 28) (hx : x < 28)
    (there : tileId die x y ∉ s.host.withdrawn) (link : s.linkQuarantined (tileId die x y) = false) :
    exec (.selfTestPass (.tile die y x)) s = .next (s.setTileReady (tileId die x y) true) := by
  refine (exec_selfTestPass _ s).trans (if_pos ?_)
  simp [hd, hy, hx, there, link]

theorem exec_selfTestPass_function {s : State} {f : ReadyFunction} {b : Nat} (h : rdysBit f = some b) :
    exec (.selfTestPass f) s = .next (s.setRdys b true) := by
  cases f with
  | tile die y x => cases h
  | welt k | hbm k | llc k | spillEngine k | port k =>
    rw [exec_selfTestPass]
    simp only [execSelfTestPass, h]
    rfl

/-! ## Reset (26 R408, R420 to R422) -/

/-- What `n` stages of boot leave of a package: the cold start but for registers of the host die, with nothing ready, withdrawn or
frozen, the erasure maps of flash before the last stage, and the digests of the later images behind the fourth. -/
structure Booted (s : State) (n : Nat) (t : State) : Prop where
  frame : OnlyHost s.coldStart t
  rdys : t.host.rdys = 0
  rdyt : t.host.rdyt = []
  rft : t.host.rft = []
  withdrawn : t.host.withdrawn = []
  throttled : t.host.throttled = false
  frozen : t.host.frozen = false
  erasures : n < 5 → t.host.hbmer = s.host.flashErasures
  measured : 4 ≤ n → t.host.measurements = (Config.laterImages s.tick).flatMap sha512

section
variable {s t : State} {n : Nat}

theorem Booted.start (s : State) : Booted s 0 s.coldStart :=
  ⟨rfl, rfl, rfl, rfl, rfl, rfl, rfl, fun _ => rfl, fun h => absurd h (by decide)⟩

theorem State.stageDone_onlyHost (t : State) (tick stage : Nat) : OnlyHost t (t.stageDone tick stage) := by
  unfold State.stageDone
  split <;> rfl

/-- The record of a stage changes the black box alone. -/
theorem Booted.stage (h : Booted s n t) (stage : Nat) : Booted s n (t.bootStage s.tick stage) := by
  obtain ⟨box, at_, logged⟩ := t.blackBox_log 0x11 [(9, 1, stage), (10, 1, (Config.bootResult s.tick stage).toNat)]
  obtain ⟨frame, rdys, rdyt, rft, withdrawn, throttled, frozen, erasures, measured⟩ := h
  rw [State.bootStage, logged]
  refine ⟨?_, rdys, rdyt, rft, withdrawn, throttled, frozen, erasures, measured⟩
  rw [OnlyHost, frame]

theorem Booted.done (h : Booted s n t) (hn : n < 5) : Booted s (n + 1) (t.stageDone s.tick (n + 1)) := by
  obtain ⟨frame, rdys, rdyt, rft, withdrawn, throttled, frozen, erasures, measured⟩ := h
  have only : OnlyHost s.coldStart (t.stageDone s.tick (n + 1)) := by
    rw [OnlyHost, frame]
    exact State.stageDone_onlyHost _ _ _
  have early : n + 1 < 5 → t.host.hbmer = s.host.flashErasures := fun _ => erasures hn
  match n, hn with
  | 0, _ => exact ⟨frame, rdys, rdyt, rft, withdrawn, throttled, frozen, early, fun h => absurd h (by decide)⟩
  | 1, _ => exact ⟨only, rdys, rdyt, rft, withdrawn, throttled, frozen, early, fun h => absurd h (by decide)⟩
  | 2, _ => exact ⟨only, rdys, rdyt, rft, withdrawn, throttled, frozen, early, fun h => absurd h (by decide)⟩
  | 3, _ => exact ⟨only, rdys, rdyt, rft, withdrawn, throttled, frozen, early, fun _ => rfl⟩
  | 4, _ => exact ⟨only, rdys, rdyt, rft, withdrawn, throttled, frozen, fun h => absurd h (by decide), fun _ => measured le_rfl⟩

theorem Booted.of_stages (s : State) (hn : n ≤ 5) : Booted s n
    ((List.range n).foldl (fun t i => (t.bootStage s.tick (i + 1)).stageDone s.tick (i + 1)) s.coldStart) := by
  induction n with
  | zero => exact Booted.start s
  | succ n ih =>
    rw [List.range_succ, List.foldl_append]
    exact ((ih (by omega)).stage (n + 1)).done hn

end

theorem bootPassed_le (tick : Nat) : bootPassed tick ≤ 5 := by
  unfold bootPassed
  dsimp only
  split
  · omega
  · split <;> omega

theorem bootPassed_unsigned {tick : Nat}
    (h : edVerifies Config.romKey (Config.firstStageSignature tick) (sha512 (Config.firstStage tick)) = false) :
    bootPassed tick = 0 := by
  unfold bootPassed firstStageGood
  rw [h]
  rfl

theorem bootPassed_old {tick : Nat} (h : Config.firmwareVersion tick < Config.rollbackCounter tick) : bootPassed tick ≤ 2 := by
  unfold bootPassed
  dsimp only
  split
  · omega
  · omega

/-- What reset leaves: what its stages leave, stopped unless all of them pass, and frozen where one behind the second fails. -/
structure Restarted (s t : State) : Prop where
  memory : t.memory = { mem := s.memory.mem, full := s.memory.full }
  elements : t.elements = []
  tiles : t.tiles = []
  circuits : t.circuits = []
  activations : t.activations = []
  chains : t.chains = []
  sched : t.sched = State.reset.sched
  rdys : t.host.rdys = 0
  rdyt : t.host.rdyt = []
  rft : t.host.rft = []
  withdrawn : t.host.withdrawn = []
  throttled : t.host.throttled = false
  halted : t.halted = true ↔ bootPassed s.tick < 5
  frozen : t.host.frozen = true ↔ 2 ≤ bootPassed s.tick ∧ bootPassed s.tick < 5
  erasures : bootPassed s.tick < 5 → t.host.hbmer = s.host.flashErasures
  measured : 4 ≤ bootPassed s.tick → t.host.measurements = (Config.laterImages s.tick).flatMap sha512

theorem exec_reset_restarts (s : State) : ∃ t, exec .reset s = .next t ∧ Restarted s t := by
  have stages := Booted.of_stages s (bootPassed_le s.tick)
  rw [exec_reset, execReset]
  generalize (List.range (bootPassed s.tick)).foldl (fun t i => (t.bootStage s.tick (i + 1)).stageDone s.tick (i + 1))
    s.coldStart = t at stages ⊢
  refine ⟨_, rfl, ?_⟩
  split
  case isTrue all =>
    obtain ⟨frame, rdys, rdyt, rft, withdrawn, throttled, frozen, erasures, measured⟩ := stages
    rw [OnlyHost] at frame
    rw [frame]
    exact ⟨rfl, rfl, rfl, rfl, rfl, rfl, rfl, rdys, rdyt, rft, withdrawn, throttled,
      iff_of_false Bool.false_ne_true (not_lt.mpr all), iff_of_false (by simp [frozen]) (by omega), erasures, measured⟩
  case isFalse failed =>
    obtain ⟨frame, rdys, rdyt, rft, withdrawn, throttled, frozen, erasures, measured⟩ := stages.stage (bootPassed s.tick + 1)
    rw [OnlyHost] at frame
    split
    case isTrue early =>
      rw [frame]
      exact ⟨rfl, rfl, rfl, rfl, rfl, rfl, rfl, rdys, rdyt, rft, withdrawn, throttled,
        iff_of_true rfl (by omega), iff_of_false (by simp [frozen]) (by omega), erasures, measured⟩
    case isFalse late =>
      obtain ⟨box, at_, copy, stopped⟩ := (t.bootStage s.tick (bootPassed s.tick + 1)).fatal_log 5
        [(16, 1, bootPassed s.tick + 1), (17, 1, (Config.bootResult s.tick (bootPassed s.tick + 1)).toNat)]
      rw [stopped, frame]
      exact ⟨rfl, rfl, rfl, rfl, rfl, rfl, rfl, rdys, rdyt, rft, withdrawn, throttled,
        iff_of_true rfl (by omega), iff_of_true rfl (by omega), erasures, measured⟩

theorem exec_functionLevelReset_empties {s : State} {v : Nat} (lo : 1 ≤ v) (hi : v ≤ 128) :
    ∃ t, exec (.functionLevelReset v) s = .next t ∧ (t.host.queues.getD v {}).head = (t.host.queues.getD v {}).tail := by
  rw [exec_functionLevelReset, execFunctionLevelReset, if_neg (by omega)]
  refine ⟨_, rfl, ?_⟩
  rw [State.mapHost_host, Tab.getD_put_self]

/-- Settles O55: each clause is the rule of its event, and that of reset is what the stages of boot leave. -/
theorem powerReadinessAndReset : Obligations.PowerReadinessAndReset := by
  unfold Obligations.PowerReadinessAndReset
  intro s
  refine ⟨exec_powerSample_throttles s, fun die index mv hd hi low => ?droop, fun die y x hd hy hx there link => ?tile,
    fun f b hb => ?function, fun v lo hi => exec_functionLevelReset_empties lo hi, ?reset⟩
  case droop =>
    obtain ⟨box, at_, copy, stopped⟩ := s.fatal_log 4 [(16, 1, die), (17, 1, index), (18, 2, mv)]
    refine ⟨_, (exec_supplyDroopFatal die index mv s).trans (if_pos (by simp [hd, hi, low])), ?_⟩
    rw [stopped]
    exact ⟨rfl, rfl, rfl⟩
  case tile => exact ⟨_, exec_selfTestPass_tile hd hy hx there link, s.tileReady_setTileReady _, rfl⟩
  case function =>
    have bit := State.setRdys_on (s := s) (rdysBit_lt hb)
    refine ⟨_, exec_selfTestPass_function hb, by rw [bit, decide_eq_true rfl, Bool.true_or], fun k hk => ?_, rfl⟩
    rw [bit, decide_eq_false hk, Bool.false_or]
  case reset =>
    obtain ⟨t, reset, ⟨memory, elements, tiles, circuits, activations, chains, sched, rdys, rdyt, rft, withdrawn, throttled, halted,
      frozen, erasures, measured⟩⟩ := exec_reset_restarts s
    refine ⟨t, reset, memory, elements, tiles, circuits, activations, chains, sched, rdys, rdyt, rft, withdrawn, throttled, halted,
      frozen, fun unsigned => halted.mpr ?_, fun old => halted.mpr ?_, erasures, measured⟩
    · rw [bootPassed_unsigned unsigned]
      decide
    · exact (bootPassed_old old).trans_lt (by decide)

end Sys2Proof.Machine
end
section
/-! SUPPORT. The registers of BAR0: which one stands at an offset, and what a read or a write of it does (26 R425, R426). -/
namespace Sys2Proof.Machine

/-! ## Where registers stand -/

theorem regAt_function {q off : Nat} (hq : q ≤ 128) (ho : off < 65536) :
    regAt (0x400000 + 0x10000 * q + off) = functionReg q off := by
  have page : (0x400000 + 0x10000 * q + off - 0x400000) / 65536 = q := by omega
  have byte : (0x400000 + 0x10000 * q + off) % 65536 = off := by omega
  rw [regAt, if_neg (by omega), if_pos (by omega), if_pos (by omega), page, byte]

/-- Below the pages of functions and outside the monitors, a register is a plain one or one of an array. -/
theorem regAt_low {off : Nat} (h : off < 0xC000) :
    regAt off = match plainRegs.find? fun r => decide (r.1 ≤ off ∧ off < r.1 + r.2.2) with
      | some (base, r, n) => some (r, n, off - base)
      | none => regArrays.findSome? fun r => (arrayIndex off r.1 r.2.1 r.2.2.1).map fun p => (r.2.2.2 p.1, r.2.2.1, p.2) := by
  unfold regAt
  exact (if_neg (by omega)).trans ((if_neg (by omega)).trans (if_neg (by omega)))

theorem plainRegs_above {off : Nat} (h : 0x48 ≤ off) :
    (plainRegs.find? fun r => decide (r.1 ≤ off ∧ off < r.1 + r.2.2)) = none := by
  simp only [List.find?_eq_none, plainRegs, List.forall_mem_cons, decide_eq_true_eq]
  refine ⟨?_, ?_, ?_, ?_, ?_, ?_, ?_, ?_, ?_, ?_, ?_, ?_, fun _ h => absurd h List.not_mem_nil⟩ <;> omega

theorem arrayIndex_outside {off base count size : Nat} (h : off < base ∨ base + count * size ≤ off) :
    arrayIndex off base count size = none := if_neg (by omega)

theorem regAt_gap {off : Nat} (lo : 0x48 ≤ off) (hi : off < 0x1000) : regAt off = none := by
  rw [regAt_low (by omega), plainRegs_above lo]
  refine List.findSome?_eq_none_iff.mpr fun r hr => ?_
  simp only [regArrays, List.mem_cons, List.not_mem_nil, or_false] at hr
  have below : off < r.1 := by
    rcases hr with rfl | rfl | rfl | rfl | rfl | rfl | rfl | rfl | rfl <;> exact hi.trans_le (by decide)
  rw [arrayIndex_outside (.inl below)]
  rfl

theorem regAt_hbmer {i : Nat} (h : i < 2048) : regAt (0x5000 + 4 * i) = some (.hbmer i, 4, 0) := by
  have here : arrayIndex (0x5000 + 4 * i) 0x5000 2048 4 = some (i, 0) := by
    refine (if_pos (by omega)).trans ?_
    rw [show (0x5000 + 4 * i - 0x5000) / 4 = i by omega, show (0x5000 + 4 * i - 0x5000) % 4 = 0 by omega]
  rw [regAt_low (by omega), plainRegs_above (by omega)]
  simp only [regArrays, List.findSome?_cons, here, arrayIndex_outside (.inr (show 0x1000 + 1024 * 2 ≤ 0x5000 + 4 * i by omega)),
    arrayIndex_outside (.inr (show 0x2000 + 1024 * 8 ≤ 0x5000 + 4 * i by omega)),
    arrayIndex_outside (.inr (show 0x4000 + 256 * 4 ≤ 0x5000 + 4 * i by omega)), Option.map_none, Option.map_some]

theorem regAt_monitor {die kind index : Nat} (hd : die < 4) (hi : index < monitorsOf kind) :
    regAt (0xC000 + 4 * (256 * die + 64 * kind + index)) = some (.monitor die kind index, 4, 0) := by
  have bounds : kind < 3 ∧ index < 64 := by
    unfold monitorsOf at hi
    split at hi
    · omega
    · split at hi
      · omega
      · split at hi <;> omega
  obtain ⟨hk, hi64⟩ := bounds
  have word : (0xC000 + 4 * (256 * die + 64 * kind + index) - 0xC000) / 4 = 256 * die + 64 * kind + index := by omega
  rw [regAt, if_neg (by omega), if_neg (by omega), if_pos (by omega)]
  simp only [word, show (256 * die + 64 * kind + index) % 64 = index by omega,
    show (256 * die + 64 * kind + index) / 64 % 4 = kind by omega, show (256 * die + 64 * kind + index) / 256 = die by omega,
    show (0xC000 + 4 * (256 * die + 64 * kind + index)) % 4 = 0 by omega, if_pos hi]

section
variable {s : State} {v offset size n at_ : Nat} {r : HostReg} {value : DWord}

theorem physicalOffset_zero : (s.physicalOffset 0 offset).bind regAt = regAt offset := rfl

/-- A VF's own page is that of its number. -/
theorem physicalOffset_own (hv : v ≠ 0) (ho : offset < 0x10000) (hi : v ≤ 128) :
    (s.physicalOffset v offset).bind regAt = functionReg v offset := by
  rw [State.physicalOffset, if_neg hv, if_pos ho]
  exact regAt_function hi ho

theorem physicalOffset_beyond (hv : v ≠ 0) (ho : 0x20000 ≤ offset) : s.physicalOffset v offset = none := by
  rw [State.physicalOffset, if_neg hv, if_neg (by omega), if_neg (by omega)]

/-! ## Writes -/

theorem exec_registerWrite_occurs (hv : v ≤ 128) : ∃ t, exec (.registerWrite v offset size value) s = .next t := by
  rw [exec_registerWrite, execRegisterWrite, if_neg (by omega)]
  split
  · exact ⟨_, rfl⟩
  · split
    · exact ⟨_, rfl⟩
    · split
      · dsimp only
        split <;> exact ⟨_, rfl⟩
      · exact ⟨_, rfl⟩

/-- A register takes a write of its own width. -/
theorem exec_registerWrite_whole (hv : v ≤ 128) (hr : (s.physicalOffset v offset).bind regAt = some (r, n, 0)) :
    exec (.registerWrite v offset n value) s = .next (s.setReg v r none (keep (2 ^ (8 * n) - 1) value)) := by
  rw [exec_registerWrite, execRegisterWrite, if_neg (by omega), hr]
  exact if_pos ⟨rfl, rfl⟩

theorem keep_all (value : DWord) : keep (2 ^ (8 * 8) - 1) value = value := by
  have ones : BitVec.ofNat 64 (2 ^ (8 * 8) - 1) = BitVec.allOnes 64 := rfl
  rw [keep, ones, BitVec.and_allOnes]

/-- Eight bytes go into a register of eight bytes as they are. -/
theorem exec_registerWrite_eight (hv : v ≤ 128) (hr : (s.physicalOffset v offset).bind regAt = some (r, 8, 0)) :
    exec (.registerWrite v offset 8 value) s = .next (s.setReg v r none value) := by
  rw [exec_registerWrite_whole hv hr, keep_all]

theorem State.setReg_reserved (hv : v ≠ 0) (hr : reservedToAsid0 r = true) (half : Option Bool) :
    s.setReg v r half value = s := if_pos (by simp [hv, hr])

/-! ## Reads -/

theorem exec_monitorRead_next (hv : v ≤ 128) : exec (.monitorRead v offset size) s =
    .next ((s.barRead v offset size).1.mapHost fun h => { h with hostRead := (s.barRead v offset size).2 }) :=
  (exec_monitorRead v offset size s).trans (if_pos (decide_eq_true hv))

theorem State.barRead_none (h : (s.physicalOffset v offset).bind regAt = none) : s.barRead v offset size = (s, 0) := by
  unfold State.barRead
  rw [h]

/-- A register that is no monitor reads as its value, at its own width or as an aligned half. -/
theorem State.barRead_some (h : (s.physicalOffset v offset).bind regAt = some (r, n, at_))
    (width : (size = n ∧ at_ = 0) ∨ (n = 8 ∧ size = 4 ∧ at_ % 4 = 0)) (plain : ∀ die kind index, r ≠ .monitor die kind index) :
    s.barRead v offset size = (s, BitVec.ofNat 64 ((s.regValue r).toNat / 2 ^ (8 * at_) % 2 ^ (8 * size))) := by
  unfold State.barRead
  rw [h]
  simp only [if_pos width]

theorem State.barRead_width (h : (s.physicalOffset v offset).bind regAt = some (r, n, at_))
    (width : ¬((size = n ∧ at_ = 0) ∨ (n = 8 ∧ size = 4 ∧ at_ % 4 = 0))) : s.barRead v offset size = (s, 0) := by
  unfold State.barRead
  rw [h]
  exact if_neg width

theorem State.barRead_monitor {die kind index : Nat}
    (h : (s.physicalOffset v offset).bind regAt = some (.monitor die kind index, 4, 0)) :
    s.barRead v offset 4 = ((s.readMonitor die kind index).1,
      BitVec.ofNat 64 ((s.regValue (.monitor die kind index)).toNat / 2 ^ (8 * 0) % 2 ^ (8 * 4))) := by
  unfold State.barRead
  rw [h]
  exact if_pos (.inl ⟨rfl, rfl⟩)

/-- A read changes what the host has read, and where it is one of a monitor when that was read. -/
theorem State.barRead_onlyHost (s : State) (v offset size : Nat) : OnlyHost s (s.barRead v offset size).1 := by
  unfold State.barRead
  split
  · rfl
  · split
    · dsimp only
      split
      · rw [State.readMonitor_state]
        rfl
      · rfl
    · rfl

end

end Sys2Proof.Machine
end
section
/-! The statement on the registers of the host die, the mailboxes and the accesses of the host cores, from the rules on BAR0 (24 R373,
R374; 25 R384, R402; 26 R407, R408, R422 to R427). -/
namespace Sys2Proof.Machine

section
variable {s : State}

/-! ## Reads of registers -/

theorem ofNat_low (n : Nat) (value : DWord) : BitVec.ofNat 64 (value.toNat / 2 ^ (8 * 0) % 2 ^ (8 * n)) =
    BitVec.ofNat 64 (value.toNat % 2 ^ (8 * n)) := by rw [Nat.mul_zero, Nat.pow_zero, Nat.div_one]

theorem ofNat_low_of_lt {n : Nat} {value : DWord} (h : value.toNat < 2 ^ (8 * n)) :
    BitVec.ofNat 64 (value.toNat / 2 ^ (8 * 0) % 2 ^ (8 * n)) = value := by
  rw [ofNat_low, Nat.mod_eq_of_lt h, BitVec.ofNat_toNat, BitVec.setWidth_eq]

/-- Reading a monitor answers the low half of its reading, and restarts a droop monitor (25 R402). -/
theorem exec_monitorRead_monitor {die kind index : Nat} (hd : die < 4) (hi : index < monitorsOf kind) :
    ∃ t, exec (.monitorRead 0 (0xC000 + 4 * (256 * die + 64 * kind + index)) 4) s = .next t ∧
      t.host.hostRead.toNat = (Config.monitor die kind index
        (s.host.monitorRead.getD (1024 * die + 256 * kind + index) 0) s.tick).toNat % 2 ^ 32 ∧
      t.host.monitorRead =
        if kind = 1 then s.host.monitorRead.put (1024 * die + 256 * kind + index) s.tick else s.host.monitorRead := by
  refine ⟨_, exec_monitorRead_next (by decide), ?_, ?_⟩
  · rw [State.mapHost_host, State.barRead_monitor (physicalOffset_zero.trans (regAt_monitor hd hi))]
    simp only [ofNat_low, State.regValue, State.readMonitor, keep]
    rw [BitVec.toNat_ofNat, BitVec.toNat_and]
    simp only [BitVec.toNat_ofNat]
    rw [show (0xFFFFFFFF : Nat) % 2 ^ 64 = 2 ^ 32 - 1 from rfl, Nat.and_two_pow_sub_one_eq_mod]
    omega
  · rw [State.mapHost_host, State.barRead_monitor (physicalOffset_zero.trans (regAt_monitor hd hi)), State.readMonitor_state]

theorem exec_monitorRead_reads {r : HostReg} {v offset n size at_ : Nat} {value : DWord} (hv : v ≤ 128)
    (h : (s.physicalOffset v offset).bind regAt = some (r, n, at_))
    (width : (size = n ∧ at_ = 0) ∨ (n = 8 ∧ size = 4 ∧ at_ % 4 = 0)) (plain : ∀ die kind index, r ≠ .monitor die kind index)
    (hvalue : BitVec.ofNat 64 ((s.regValue r).toNat / 2 ^ (8 * at_) % 2 ^ (8 * size)) = value) :
    exec (.monitorRead v offset size) s = .next (s.mapHost fun h => { h with hostRead := value }) := by
  rw [exec_monitorRead_next hv, State.barRead_some h width plain, hvalue]

theorem exec_monitorRead_width {r : HostReg} {v offset n size at_ : Nat} (hv : v ≤ 128)
    (h : (s.physicalOffset v offset).bind regAt = some (r, n, at_))
    (width : ¬((size = n ∧ at_ = 0) ∨ (n = 8 ∧ size = 4 ∧ at_ % 4 = 0))) :
    exec (.monitorRead v offset size) s = .next (s.mapHost fun h => { h with hostRead := 0 }) := by
  rw [exec_monitorRead_next hv, State.barRead_width h width]

/-! ## Erasure maps (26 R407, R408) -/

/-- A write whose two positions are in range enters both halves. -/
theorem hbmerWritten_good {old v : Word} (lo : slice v.toNat 5 0 < 36) (hi : slice v.toNat 13 8 < 36) :
    hbmerWritten old v = v &&& 0xBFBF := by
  rw [hbmerWritten, if_neg (by omega), if_neg (by omega), ← BitVec.and_or_distrib_left]
  rfl

/-- Under the bits that a write enters, flash holds what was written. -/
theorem flash_entered {f w m k : Word} (h : m &&& k = k) : ((f &&& ~~~m) ||| (w &&& m)) &&& k = w &&& k := by
  refine BitVec.eq_of_getLsbD_eq fun i hi => ?_
  have bit := congrArg (fun v => v.getLsbD i) h
  simp only [BitVec.getLsbD_and, BitVec.getLsbD_or, BitVec.getLsbD_not, hi, decide_true, Bool.true_and] at bit ⊢
  cases hm : m.getLsbD i
  case false =>
    rw [hm, Bool.false_and] at bit
    rw [← bit, Bool.and_false, Bool.and_false]
  case true => simp

/-- A half of an erasure map that a write changes is entered: its bits are under the mask. -/
theorem hbmerEntered_low {old w : Word} (valid : w.getLsbD 7 = true) (differs : w &&& 0xBF ≠ old &&& 0xBF) :
    hbmerEntered old w &&& 0xBF = 0xBF := by
  rw [hbmerEntered, if_pos (by rw [valid, Bool.true_and, decide_eq_true differs])]
  split <;> rfl

theorem hbmerEntered_high {old w : Word} (valid : w.getLsbD 15 = true) (differs : w &&& 0xBF00 ≠ old &&& 0xBF00) :
    hbmerEntered old w &&& 0xBF00 = 0xBF00 := by
  rw [hbmerEntered, if_pos (c := (w.getLsbD 15 && _) = true) (by rw [valid, Bool.true_and, decide_eq_true differs])]
  split <;> rfl

/-- What a write of an erasure-map register leaves: the register, and in flash the bits that it enters. -/
theorem State.writeHbmer_erasures {i : Nat} {value k : Word} (hk : k ≠ 0)
    (h : hbmerEntered (s.host.hbmer.getD i 0) (hbmerWritten (s.host.hbmer.getD i 0) value) &&& k = k) :
    (s.writeHbmer i value).host.flashErasures.getD i 0 &&& k = hbmerWritten (s.host.hbmer.getD i 0) value &&& k := by
  unfold State.writeHbmer
  simp only [State.mapHost_host]
  split
  case isTrue none_ =>
    rw [none_] at h
    exact absurd (h.symm.trans BitVec.zero_and) hk
  case isFalse => rw [Tab.getD_put_self, flash_entered h]

theorem State.writeHbmer_hbmer (i : Nat) (value : Word) :
    (s.writeHbmer i value).host.hbmer.getD i 0 = hbmerWritten (s.host.hbmer.getD i 0) value := by
  unfold State.writeHbmer
  rw [State.mapHost_host, Tab.getD_put_self]

theorem exec_registerWrite_hbmer {i : Nat} {value : DWord} (hi : i < 2048) :
    exec (.registerWrite 0 (0x5000 + 4 * i) 4 value) s = .next (s.writeHbmer i (value.setWidth 32)) := by
  have low : (keep (2 ^ (8 * 4) - 1) value).setWidth 32 = value.setWidth 32 := by
    refine BitVec.eq_of_toNat_eq ?_
    rw [keep, BitVec.toNat_setWidth, BitVec.toNat_setWidth, BitVec.toNat_and, BitVec.toNat_ofNat,
      show (2 ^ (8 * 4) - 1) % 2 ^ 64 = 2 ^ 32 - 1 from rfl, Nat.and_two_pow_sub_one_eq_mod, Nat.mod_mod]
  rw [exec_registerWrite_whole (by decide) (physicalOffset_zero.trans (regAt_hbmer hi))]
  show (.next (s.writeHbmer i ((keep (2 ^ (8 * 4) - 1) value).setWidth 32)) : Result) = _
  rw [low]

/-! ## LLCOP (24 R373, R374) -/

/-- GO reads 0 behind a write of LLCOP by function 0. -/
theorem State.writeLlcop_done (s : State) (value : DWord) : (s.writeLlcop 0 value).host.llcop.getLsbD 63 = false := by
  have below {n : Nat} (h : n < 2 ^ 63) : (BitVec.ofNat 64 n).getLsbD 63 = false := by
    rw [BitVec.getLsbD_ofNat, Nat.testBit_lt_two_pow h, Bool.and_false]
  rw [State.writeLlcop, if_neg (by simp)]
  split
  case isTrue => exact below (Nat.mod_lt _ (by decide))
  case isFalse =>
    refine below ?_
    split <;> omega

section
variable (quiet : s.upsets = []) (unarmed : s.host.llcinj.getLsbD 63 = false)
include quiet unarmed

/-- Where no error is pending, a package that holds nothing is undisturbed. -/
theorem State.undisturbed_empty : (s.withLines [] []).Undisturbed :=
  ⟨quiet, unarmed, rfl, fun _ _ found => by cases found⟩

theorem State.meetPieceBy_quiet (h : Hardware) (pa : Nat) : s.meetPieceBy h pa = s := by
  have decodes : s.decodeLlc (pa / 32) = .corrected [] := by
    unfold State.decodeLlc
    rw [quiet, List.foldl_nil]
    exact if_pos rfl
  have off : s.armedAt (pa / 32) = false := (State.undisturbed_empty quiet unarmed).armedAt (pa / 32)
  have good : s.badPiece (pa / 32) = false := by simp [State.badPiece, off, decodes]
  have same : s.decodePiece pa = s := by
    unfold State.decodePiece
    simp only [decodes, off, quiet, List.filter_nil, Bool.false_eq_true, if_false]
    rw [← quiet]
  unfold State.meetPieceBy
  simp only [good, same]
  split
  · rfl
  · split <;> rfl

theorem State.writeBack_halted (line : Nat) : (s.writeBack line).halted = s.halted := by
  have same (h : Hardware) (ps : List Nat) : ps.foldl (fun s p => s.meetPieceBy h p) s = s := by
    induction ps with
    | nil => rfl
    | cons p ps ih => rw [List.foldl_cons, State.meetPieceBy_quiet quiet unarmed, ih]
  unfold State.writeBack State.writeBackBy
  simp only [same]
  split
  · rfl
  · split
    · rfl
    · split
      · rfl
      · split <;> rfl

/-- A line that LLCOP invalidates is gone. -/
theorem State.writeLlcop_gone {value : DWord} (good : llcopGood value = true) (invalidates : slice value.toNat 49 48 = 2)
    (running : s.halted = false) :
    findLine (s.writeLlcop 0 value).memory.llc (slice value.toNat 47 8) = none := by
  have dropped (u : State) (line : Nat) : findLine (u.dropLine line).memory.llc line = none := by
    unfold State.dropLine
    split
    case h_1 absent => exact absent
    case h_2 => exact (findLine_filter _ _ _).trans (if_pos rfl)
  rw [State.writeLlcop, if_neg (by simp), if_neg (by simp [good])]
  simp only [State.mapHost_memory, State.maintain]
  split
  case h_1 absent => exact absent
  case h_2 =>
    rw [if_pos (by simp [invalidates, State.writeBack_halted quiet unarmed, running])]
    exact dropped _ _

end

/-! ## Accesses of the host cores (15 R242; 24 R377; 26 R419) -/

section
variable {address size : Nat} {value : DWord} {writes : Bool}
  (width : size = 1 ∨ size = 2 ∨ size = 4 ∨ size = 8) (aligned : address % size = 0)
include width aligned

theorem hostAccess_named : ¬(!([1, 2, 4, 8].contains size) || address % size ≠ 0) = true := by
  rcases width with rfl | rfl | rfl | rfl <;> simp [aligned]

theorem exec_hostMemoryAccess_nowhere (nowhere : (isHbm address || isCxl address) = false) :
    exec (.hostMemoryAccess writes address size value) s = .next (s.mapHost fun h => { h with hostFault := true }) := by
  rw [exec_hostMemoryAccess, execHostMemoryAccess, if_neg (hostAccess_named width aligned)]
  exact if_pos (by simp [nowhere])

section
variable (there : (isHbm address || isCxl address) = true) (ready : s.tierReady address = true) (kept : s.retired address = false)
include there ready kept

omit width aligned in
theorem hostAccess_reaches : ¬(!(isHbm address || isCxl address) || !s.tierReady address || s.retired address) = true := by
  simp [there, ready, kept]

theorem exec_hostMemoryAccess_loads {t : State} {bs : List Byte} (hread : s.llcRead address size = (t, some bs)) :
    exec (.hostMemoryAccess false address size value) s =
      .next (t.mapHost fun h => { h with hostFault := false, hostRead := BitVec.ofNat 64 (natOfBytes bs) }) := by
  rw [exec_hostMemoryAccess, execHostMemoryAccess, if_neg (hostAccess_named width aligned)]
  refine (if_neg (hostAccess_reaches there ready kept)).trans ?_
  simp only [hread, Bool.false_eq_true, if_false]

theorem exec_hostMemoryAccess_stores
    (still : (s.llcWrite 0 0 address (leBytes size value.toNat)).retired address = false) :
    exec (.hostMemoryAccess true address size value) s =
      .next ((s.llcWrite 0 0 address (leBytes size value.toNat)).mapHost fun h => { h with hostFault := false }) := by
  rw [exec_hostMemoryAccess, execHostMemoryAccess, if_neg (hostAccess_named width aligned)]
  refine (if_neg (hostAccess_reaches there ready kept)).trans ?_
  simp only [still, Bool.false_eq_true, if_false, if_true]
  rfl

end
end
end

theorem exec_attestationReportDone_busy {s : State} {v : Nat} (good : Bool) (busy : (s.mailbox v).busy = true) :
    let r := attestationReport s.host.measurements s.host.deviceKey (s.mailbox v).nonce
    exec (.attestationReportDone v good) s = .next (s.putMailbox v (
      if (s.mailbox v).len.toNat < r.length then { s.mailbox v with ctl := 6, out := BitVec.ofNat 32 r.length }
      else if good then { s.mailbox v with ctl := 2, out := BitVec.ofNat 32 r.length, sent := r }
      else { s.mailbox v with ctl := 6, out := 0 })) := by
  intro r
  rw [exec_attestationReportDone, execAttestationReportDone, if_neg (by simp [busy])]
  by_cases fits : (s.mailbox v).len.toNat < r.length
  · exact (if_pos fits).trans (by rw [if_pos fits])
  · refine (if_neg fits).trans ?_
    rw [if_neg fits]
    cases good <;> rfl

theorem OnlyHost.mapHost {s t : State} (h : OnlyHost s t) (f : HostDie → HostDie) : OnlyHost s (t.mapHost f) := by
  rw [OnlyHost] at h ⊢
  rw [h]
  rfl

/-- Settles O54: each register is found at its offset, and what a write, a read or an access does is the rule of its event. -/
theorem hostRegistersAndAccesses : Obligations.HostRegistersAndAccesses := by
  unfold Obligations.HostRegistersAndAccesses
  intro s v value reads
  have queue {q : Nat} (hq : q ≤ 128) : regAt (0x400000 + 0x10000 * q) = some (.fqbase q, 8, 0) :=
    regAt_function (off := 0) hq (by decide)
  have own {u : Nat} (hu : u ≠ 0) (hi : u ≤ 128) : (s.physicalOffset u 0).bind regAt = some (.fqbase u, 8, 0) :=
    physicalOffset_own hu (by decide) hi
  refine ⟨fun hv offset size => exec_registerWrite_occurs hv, exec_registerWrite_eight (r := .schdbase) (Nat.zero_le _) rfl,
    exec_registerWrite_eight (r := .stkbase) (Nat.zero_le _) rfl, fun q hq => exec_registerWrite_eight (Nat.zero_le _) (physicalOffset_zero.trans (queue hq)), fun hv hi => ?foreign,
    fun armed bad => ?llcinjBad, fun armed clear4 clear0 => ?llcinj, fun go op => ?clean, fun go op => ?invalidate,
    fun hv go idle => ?mailbox, fun i hi lo high => ?hbmer, fun good busy => exec_attestationReportDone_busy good busy,
    fun hv offset size => ?read, ?_⟩
  case foreign =>
    rw [exec_registerWrite_eight hi (own hv hi), State.setReg_reserved hv rfl]
  case llcinjBad =>
    rw [exec_llcinjArm, execLlcinjArm, if_pos armed, State.writeLlcinj, if_pos bad]
  case llcinj =>
    rw [exec_llcinjArm, execLlcinjArm, if_pos armed, State.writeLlcinj, if_neg (by simp [clear4, clear0])]
  case clean =>
    exact ⟨_, (exec_llcopClean 0 value s).trans (if_pos (by simp [go, op])), s.writeLlcop_done value⟩
  case invalidate =>
    exact ⟨_, (exec_llcopCleanInvalidate 0 value s).trans (if_pos (by simp [go, op])), s.writeLlcop_done value,
      fun good quiet unarmed running => State.writeLlcop_gone quiet unarmed good op running⟩
  case mailbox =>
    refine (exec_mailboxGo v value s).trans ((if_pos (by simp [hv, go])).trans ?_)
    rw [State.writeMbctl]
    exact congrArg _ (if_neg (by simp [idle, go]))
  case hbmer =>
    have written : hbmerWritten (s.host.hbmer.getD i 0) (value.setWidth 32) = value.setWidth 32 &&& 0xBFBF := by
      refine hbmerWritten_good ?_ ?_
      · simp only [slice, BitVec.toNat_setWidth] at lo ⊢
        omega
      · simp only [slice, BitVec.toNat_setWidth] at high ⊢
        omega
    intro old w
    have low (valid : w.getLsbD 7 = true) (differs : w &&& 0xBF ≠ old &&& 0xBF) := State.writeHbmer_erasures (s := s) (i := i)
      (value := value.setWidth 32) (k := 0xBF) (by decide) (written ▸ hbmerEntered_low valid differs)
    have top (valid : w.getLsbD 15 = true) (differs : w &&& 0xBF00 ≠ old &&& 0xBF00) := State.writeHbmer_erasures (s := s) (i := i)
      (value := value.setWidth 32) (k := 0xBF00) (by decide) (written ▸ hbmerEntered_high valid differs)
    rw [written] at low top
    exact ⟨_, exec_registerWrite_hbmer hi, rfl, (State.writeHbmer_hbmer i _).trans written, low, top⟩
  case read =>
    refine ⟨_, exec_monitorRead_next hv, ?_, fun vf beyond => ?_, fun zero lo hi => ?_⟩
    · exact (s.barRead_onlyHost v offset size).mapHost _
    · rw [State.barRead_none (by rw [physicalOffset_beyond vf beyond]; rfl)]
      rfl
    · subst zero
      rw [State.barRead_none (physicalOffset_zero.trans (regAt_gap lo hi))]
      rfl
  refine ⟨exec_monitorRead_reads (by decide) rfl (by decide) nofun (ofNat_low_of_lt (BitVec.isLt _)),
    exec_monitorRead_reads (by decide) rfl (by decide) nofun (ofNat_low 4 _),
    exec_monitorRead_reads (by decide) rfl (by decide) nofun ?high, exec_monitorRead_width (by decide) rfl (by decide),
    exec_monitorRead_reads (by decide) rfl (by decide) nofun ?domid, exec_monitorRead_width (by decide) rfl (by decide),
    fun lo hi => exec_monitorRead_reads hi (own (by omega) hi) (by decide) nofun (ofNat_low_of_lt (BitVec.isLt _)),
    fun die kind index hd hi => exec_monitorRead_monitor hd hi, fun q hq => ⟨?fqovf, fun hv => ?fqovfKept⟩,
    fun asid small reaches => ?ovlcnt, fun address size width aligned => ⟨fun nowhere =>
      ⟨_, exec_hostMemoryAccess_nowhere width aligned nowhere, rfl, rfl⟩, fun there ready kept =>
      ⟨fun t bs hread => exec_hostMemoryAccess_loads width aligned there ready kept hread,
       fun still => exec_hostMemoryAccess_stores width aligned there ready kept still⟩⟩⟩
  case high =>
    show BitVec.ofNat 64 (s.host.schdbase.toNat / 2 ^ (8 * 4) % 2 ^ (8 * 4)) = _
    have bound := s.host.schdbase.isLt
    rw [Nat.mod_eq_of_lt (by omega)]
  case domid =>
    refine ofNat_low_of_lt ?_
    show (s.host.domid.setWidth 64).toNat < 2 ^ (8 * 4)
    rw [BitVec.toNat_setWidth]
    exact (Nat.mod_le _ _).trans_lt (BitVec.isLt _)
  case fqovf => rw [exec_fqovfClear, execFqovfClear, if_neg (by omega), if_pos rfl]; rfl
  case fqovfKept => rw [exec_fqovfClear, execFqovfClear, if_neg (by omega), if_neg hv]
  case ovlcnt => rw [exec_ovlcntClear, execOvlcntClear, if_neg (by omega), if_pos reaches]

end Sys2Proof.Machine
end
section
/-! The statement on the events of the die schedulers, which takes the die of a reservation from the record that FORWARD_RESERVATION
names where the model takes it from the entry that it changes: with two entries of one id on different dies the two differ (19 R309). -/
namespace Sys2Proof.Machine

/-- A record that waits for its phase, with a region that a pre-emption has freed for it. -/
def pendingRecord : Entry := { id := 1, pending := true, claim := some (0, 4, 0) }

/-- The last activation of that phase, which walks. -/
def lastOfPhase : Activation := { colour := 1, phase := .walking }

/-- A package that lists the record twice under its id, the second time on die 1, and in which its image is resident. -/
def listedTwice : State :=
  { activations := [(1, lastOfPhase)], host := { rdyt := [(0, 0xFFF), (1, 0xFFF)] },
    sched := { entries := [pendingRecord, { pendingRecord with die := 1 }], counters := [((0, 0, 3, 0), 1)],
               residents := [{ die := 0, x0 := 4, y0 := 0, image := 0, asid := 0 }] } }

/-- The activation that the reservation loads for. -/
def reservedFor : Activation := newActivation listedTwice 0 pendingRecord (4, 0) 0

/-- The image is there, so that the load succeeds. -/
theorem configFor_listedTwice :
    ∃ t k r, (listedTwice.acquire reservedFor).configFor reservedFor noWays = (t, .ok (k, r)) := by
  have loads : ((listedTwice.acquire reservedFor).configFor reservedFor noWays).2.isOk = true := by decide +kernel
  rcases hload : (listedTwice.acquire reservedFor).configFor reservedFor noWays with ⟨t, _ | ⟨k, r⟩⟩
  · rw [hload] at loads
    cases loads
  · exact ⟨t, k, r, rfl⟩

/-- What follows lists an entry of id 1 with a region on die 1. -/
def reservesOnDieOne : Result → Bool
  | .next t => t.sched.entries.any fun f => f.id = 1 && f.reserved = some (1, 4, 0)
  | _ => false

/-- The second entry is reserved a region on its own die, which is not the die of the record. -/
theorem exec_forwardReservation_listedTwice : reservesOnDieOne (exec (.forwardReservation 1) listedTwice) = true := by
  decide +kernel

/-- What the clause gives every entry of the id. -/
theorem not_reservesOnDieOne (s : State) :
    reservesOnDieOne (.next (s.mapEntry 1 fun f => { f with reserved := some (0, 4, 0) })) = false := by
  refine List.any_eq_false.mpr fun f hf => ?_
  obtain ⟨g, -, rfl⟩ := List.mem_map.mp hf
  by_cases hid : g.id = 1
  · simp [hid]
  · simp [hid]

/-- Refutes O52: where an id is listed twice, FORWARD_RESERVATION reserves for the second entry on the die of that entry. -/
theorem not_schedulerEventsOccur : ¬ Obligations.SchedulerEventsOccur := by
  unfold Obligations.SchedulerEventsOccur
  intro h
  obtain ⟨-, -, waits, -⟩ := h listedTwice 0 1 0 pendingRecord lastOfPhase
  obtain ⟨-, -, -, reserves⟩ := waits rfl
  obtain ⟨t, k, r, loads⟩ := configFor_listedTwice
  have clause := reserves (1, lastOfPhase) (4, 0) t k r rfl rfl rfl rfl (by decide +kernel) (by decide +kernel)
    List.not_mem_nil (by decide +kernel) (List.mem_singleton_self _) rfl rfl rfl rfl (by decide +kernel) (by decide +kernel) loads
  have twice := exec_forwardReservation_listedTwice
  rw [clause] at twice
  exact Bool.noConfusion (twice.symm.trans (not_reservesOnDieOne _))

end Sys2Proof.Machine
end
section
/-! SUPPORT. The canonical form of every memory of the package, and what each access to a part of the state and each of the
hardware's own accesses makes of it (15 R242; 25 R384). -/
namespace Sys2Proof.Machine

/-! ## The memories of a state -/

/-- The memories of every tile of a table are in their canonical form. -/
def TilesGood (ts : Tab MemTile) : Prop := ∀ p ∈ ts, p.2.memoryGood

/-- The memories that a frame saves, if there is one, are in their canonical form. -/
def FrameGood (o : Option SavedFrame) : Prop := ∀ f, o = some f → TilesGood f.tiles

/-- The memories that the frames of every activation of a table save are. -/
def FramesGood (l : Tab Activation) : Prop := ∀ p ∈ l, FrameGood p.2.frame

theorem State.memoryGood_iff (s : State) :
    s.memoryGood ↔ s.memory.mem.wf = true ∧ TilesGood s.tiles ∧ FramesGood s.activations := Iff.rfl

theorem MemTile.memoryGood_iff (x : MemTile) : x.memoryGood ↔ x.sram.wf = true ∧ x.bank.wf = true := Iff.rfl

theorem MemTile.memoryGood_empty : ({} : MemTile).memoryGood := ⟨rfl, rfl⟩

theorem TilesGood.nil : TilesGood [] := fun _ h => absurd h List.not_mem_nil

theorem FrameGood.none : FrameGood none := fun _ h => nomatch h

theorem frameGood_some (f : SavedFrame) : FrameGood (some f) ↔ TilesGood f.tiles :=
  ⟨fun h => h f rfl, fun h _ hf => Option.some.inj hf ▸ h⟩

theorem Tab.mem_put {α : Type} {ts : Tab α} {n : Nat} {v : α} {p : Nat × α} (h : p ∈ ts.put n v) : p ∈ ts ∨ p.2 = v := by
  induction ts with
  | nil =>
    obtain rfl := List.mem_singleton.1 h
    exact .inr rfl
  | cons c ts ih =>
    rw [Tab.put] at h
    split at h
    · rcases List.mem_cons.1 h with rfl | h
      · exact .inr rfl
      · exact .inl (List.mem_cons_of_mem _ h)
    · split at h
      · rcases List.mem_cons.1 h with rfl | h
        · exact .inr rfl
        · exact .inl h
      · rcases List.mem_cons.1 h with rfl | h
        · exact .inl List.mem_cons_self
        · exact (ih h).imp_left (List.mem_cons_of_mem _)

theorem Tab.mem_of_mem_drop {α : Type} {ts : Tab α} {n : Nat} {p : Nat × α} (h : p ∈ ts.drop n) : p ∈ ts := by
  induction ts with
  | nil => exact h
  | cons c ts ih =>
    rw [Tab.drop] at h
    split at h
    · exact List.mem_cons_of_mem _ (ih h)
    · rcases List.mem_cons.1 h with rfl | h
      · exact List.mem_cons_self
      · exact List.mem_cons_of_mem _ (ih h)

theorem TilesGood.put {ts : Tab MemTile} (h : TilesGood ts) (n : Nat) {x : MemTile} (hx : x.memoryGood) :
    TilesGood (ts.put n x) := by
  intro p hp
  rcases Tab.mem_put hp with hp | hp
  · exact h p hp
  · exact hp ▸ hx

theorem TilesGood.getD {ts : Tab MemTile} (h : TilesGood ts) (n : Nat) : (ts.getD n {}).memoryGood := by
  unfold Tab.getD
  cases hf : ts.find n with
  | none => exact MemTile.memoryGood_empty
  | some x => exact h _ (Tab.mem_of_find hf)

theorem FramesGood.put {l : Tab Activation} (h : FramesGood l) (n : Nat) {a : Activation} (ha : FrameGood a.frame) :
    FramesGood (l.put n a) := by
  intro p hp
  rcases Tab.mem_put hp with hp | hp
  · exact h p hp
  · exact hp ▸ ha

theorem FramesGood.drop {l : Tab Activation} (h : FramesGood l) (n : Nat) : FramesGood (l.drop n) :=
  fun p hp => h p (Tab.mem_of_mem_drop hp)

theorem FramesGood.find {l : Tab Activation} (h : FramesGood l) {n : Nat} {a : Activation} (ha : l.find n = some a) :
    FrameGood a.frame := h _ (Tab.mem_of_find ha)

/-- A change of each activation that leaves its frame good leaves the frames good. -/
theorem FramesGood.map {l : Tab Activation} (h : FramesGood l) {f : Nat × Activation → Nat × Activation}
    (hf : ∀ p, FrameGood p.2.frame → FrameGood (f p).2.frame) : FramesGood (l.map f) := by
  intro p hp
  obtain ⟨q, hq, rfl⟩ := List.mem_map.1 hp
  exact hf q (h q hq)

theorem memoryGood_ite {c : Prop} [Decidable c] {s t : State} (hs : s.memoryGood) (ht : t.memoryGood) :
    (if c then s else t).memoryGood := by
  split
  · exact hs
  · exact ht

theorem fst_memoryGood_ite {β : Type} {c : Prop} [Decidable c] {r q : State × β} (hr : r.1.memoryGood) (hq : q.1.memoryGood) :
    (if c then r else q).1.memoryGood := by
  split
  · exact hr
  · exact hq

/-- A pair with a state whose memories are good. Said of the pair itself, so that the kernel compares no other pair with it. -/
theorem memoryGood_pair {β : Type} {t : State} (ht : t.memoryGood) (b : β) : (t, b).1.memoryGood := ht

/-- A pair's state keeps the memories where what gave the pair does. -/
theorem memoryGood_of_fst {β : Type} {r : State × β} {t : State} {b : β} (hr : r.1.memoryGood) (h : r = (t, b)) :
    t.memoryGood := by
  rw [h] at hr
  exact hr

/-- Steps that keep the memories keep them one after another. -/
theorem foldl_memoryGood {α : Type} {f : State → α → State} (hf : ∀ s a, s.memoryGood → (f s a).memoryGood) (l : List α) :
    ∀ {s : State}, s.memoryGood → (l.foldl f s).memoryGood := by
  induction l with
  | nil => exact fun hs => hs
  | cons a l ih => exact fun hs => ih (hf _ a hs)

/-! ## The parts of a state -/

section
variable {s : State} (hs : s.memoryGood)
include hs

/-- What keeps device memory, the tiles and the activations keeps every memory. -/
theorem State.memoryGood_of_parts {t : State} (hm : t.memory.mem = s.memory.mem) (ht : t.tiles = s.tiles)
    (ha : t.activations = s.activations) : t.memoryGood := by
  rw [State.memoryGood_iff, hm, ht, ha]
  exact hs

theorem State.mapHost_memoryGood (f : HostDie → HostDie) : (s.mapHost f).memoryGood := hs
theorem State.mapSched_memoryGood (f : Scheduler → Scheduler) : (s.mapSched f).memoryGood := hs
theorem State.putElement_memoryGood (e : Nat) (x : Element) : (s.putElement e x).memoryGood := hs

theorem State.mapMemory_memoryGood {f : MemorySystem → MemorySystem} (hm : (f s.memory).mem.wf = true) :
    (s.mapMemory f).memoryGood := ⟨hm, hs.2⟩

theorem State.tile_memoryGood (n : Nat) : (s.tile n).memoryGood := TilesGood.getD hs.2.1 n

theorem State.putTile_memoryGood (n : Nat) {x : MemTile} (hx : x.memoryGood) : (s.putTile n x).memoryGood :=
  ⟨hs.1, TilesGood.put hs.2.1 n hx, hs.2.2⟩

theorem State.activation_frameGood {c : Nat} {a : Activation} (ha : s.activation c = some a) :
    FrameGood a.frame :=
  FramesGood.find hs.2.2 ha

theorem State.activationAt_frameGood {id : Nat} {a : Activation} (ha : s.activationAt id = some a) :
    FrameGood a.frame := by
  obtain ⟨p, hp, rfl⟩ := Option.map_eq_some_iff.1 ha
  exact hs.2.2 p (List.mem_of_find?_eq_some hp)

theorem State.putActivation_memoryGood {a : Activation} (ha : FrameGood a.frame) : (s.putActivation a).memoryGood :=
  ⟨hs.1, hs.2.1, FramesGood.put hs.2.2 _ ha⟩

/-- An activation with its frame as it is. -/
theorem State.keepActivation_memoryGood {c : Nat} {a a' : Activation} (ha : s.activation c = some a) (hf : a'.frame = a.frame) :
    (s.putActivation a').memoryGood :=
  State.putActivation_memoryGood hs (hf ▸ State.activation_frameGood hs ha)

theorem State.keepFrame_memoryGood {a a' : Activation} (ha : FrameGood a.frame) (hf : a'.frame = a.frame) :
    (s.putActivation a').memoryGood :=
  State.putActivation_memoryGood hs (hf ▸ ha)

/-- A tile with its memories as they are. -/
theorem State.keepTile_memoryGood (n : Nat) {x : MemTile} (hx : x.sram = (s.tile n).sram) (hb : x.bank = (s.tile n).bank) :
    (s.putTile n x).memoryGood := by
  refine State.putTile_memoryGood hs n ?_
  rw [MemTile.memoryGood_iff, hx, hb]
  exact State.tile_memoryGood hs n

/-- A tile with its SRAM changed. -/
theorem State.putSram_memoryGood (n : Nat) {x : MemTile} (hx : x.sram.wf = true) (hb : x.bank = (s.tile n).bank) :
    (s.putTile n x).memoryGood := by
  refine State.putTile_memoryGood hs n ⟨hx, ?_⟩
  rw [hb]
  exact (State.tile_memoryGood hs n).2

/-- A tile with its accumulator bank changed. -/
theorem State.putBank_memoryGood (n : Nat) {x : MemTile} (hx : x.sram = (s.tile n).sram) (hb : x.bank.wf = true) :
    (s.putTile n x).memoryGood := by
  refine State.putTile_memoryGood hs n ⟨?_, hb⟩
  rw [hx]
  exact (State.tile_memoryGood hs n).1

theorem State.mapActivation_memoryGood (c : Nat) {f : Activation → Activation}
    (hf : ∀ a, FrameGood a.frame → FrameGood (f a).frame) : (s.mapActivation c f).memoryGood := by
  unfold State.mapActivation
  split
  · exact hs
  · next a ha => exact State.putActivation_memoryGood hs (hf a (State.activation_frameGood hs ha))

theorem State.setTileReady_memoryGood (id : Nat) (on : Bool) : (s.setTileReady id on).memoryGood := hs
theorem State.withdrawTile_memoryGood (id : Nat) : (s.withdrawTile id).memoryGood := hs
theorem State.raiseCounters_memoryGood (asid : Nat) (record : BitVec 512) : (s.raiseCounters asid record).memoryGood := by
  unfold State.raiseCounters
  exact foldl_memoryGood (fun _ _ ht => State.mapSched_memoryGood ht _) _ hs
theorem State.lowerCounters_memoryGood (asid : Nat) (record : BitVec 512) : (s.lowerCounters asid record).memoryGood := by
  unfold State.lowerCounters
  exact foldl_memoryGood (fun _ _ ht => State.mapSched_memoryGood ht _) _ hs

theorem State.blackBox_memoryGood (kind : Nat) (fs : List (Nat × Nat × Nat)) : (s.blackBox kind fs).memoryGood := by
  unfold State.blackBox
  split <;> exact hs

theorem State.fatal_memoryGood (cause : Nat) (fs : List (Nat × Nat × Nat)) : (s.fatal cause fs).memoryGood :=
  State.blackBox_memoryGood hs 0x08 _

theorem State.dropMessage_memoryGood : s.dropMessage.memoryGood := hs

theorem State.sendFrame_memoryGood (package : Nat) (c : WeltCargo) : (s.sendFrame package c).memoryGood := by
  unfold State.sendFrame
  split
  · exact hs
  · split <;> exact hs

theorem State.sendWelt_memoryGood (l : List WeltSend) : (s.sendWelt l).memoryGood :=
  foldl_memoryGood (fun _ _ ht => State.sendFrame_memoryGood ht _ _) _ hs

theorem State.retire_memoryGood (pa : Nat) : (s.retire pa).1.memoryGood := by
  unfold State.retire
  split
  · exact hs
  · split <;> exact hs

theorem State.enterErasure_memoryGood (reg lo pos : Nat) : (s.enterErasure reg lo pos).memoryGood :=
  State.blackBox_memoryGood (State.mapHost_memoryGood hs _) _ _

theorem State.hbmCorrected_memoryGood (pa pos : Nat) : (s.hbmCorrected pa pos).memoryGood := by
  unfold State.hbmCorrected
  dsimp only
  split
  · exact hs
  · split
    · exact State.enterErasure_memoryGood (State.mapHost_memoryGood hs _) _ _ _
    · split
      · exact State.enterErasure_memoryGood (State.mapHost_memoryGood hs _) _ _ _
      · exact hs

theorem State.decodePiece_memoryGood (pa : Nat) : (s.decodePiece pa).memoryGood := by
  unfold State.decodePiece
  grind [State.memoryGood_iff, State.mapMemory, State.mapHost]

theorem State.mistaken_memoryGood (pa : Nat) (v : BitVec 256) : (s.mistaken pa v).memoryGood := by
  refine ⟨?_, hs.2⟩
  simp only [State.mistaken, State.mapMemory]
  exact Mem.writeNat_wf hs.1 _ _ _

theorem State.dropLine_memoryGood (line : Nat) : (s.dropLine line).memoryGood := by
  unfold State.dropLine
  split
  · exact hs
  · exact State.mapMemory_memoryGood hs (writeBackLine_wf hs.1 _)

theorem State.quarantineWay_memoryGood (die group way : Nat) : (s.quarantineWay die group way).memoryGood := by
  refine foldl_memoryGood (fun t l ht => ?_) _ (State.mapHost_memoryGood hs _)
  dsimp only
  generalize (if l.dirty = 0 then [] else linePieces l.line l.valid.getLsbD) = ps
  split
  · exact ht
  · exact State.dropLine_memoryGood (foldl_memoryGood (fun _ _ h => State.decodePiece_memoryGood h _) _ ht) _

end

/-! ## The hardware's own accesses -/

/-- The hardware's own accesses keep the memories. -/
def Hardware.KeepsMemories (h : Hardware) : Prop :=
  (∀ s : State, s.memoryGood → ∀ pa n, (h.read s pa n).memoryGood) ∧
  ∀ s : State, s.memoryGood → ∀ pa bs, (h.write s pa bs).memoryGood

section
variable {h : Hardware} (hh : h.KeepsMemories) {s : State} (hs : s.memoryGood)
include hh hs

theorem State.setDescBy_memoryGood (asid off n v : Nat) : (s.setDescBy h asid off n v).memoryGood := hh.2 _ hs _ _
theorem State.setEnabledBy_memoryGood (asid : Nat) (on : Bool) : (s.setEnabledBy h asid on).memoryGood := hh.2 _ hs _ _

theorem State.enqueueBy_memoryGood (q r : Nat) : (s.enqueueBy h q r).1.memoryGood := by
  unfold State.enqueueBy
  dsimp only
  split
  · exact hs
  · split
    · exact hs
    · exact hh.2 _ (State.mapHost_memoryGood hs _) _ _

theorem State.recordBy_memoryGood (q r : Nat) : (s.recordBy h q r).memoryGood := by
  unfold State.recordBy
  grind [State.enqueueBy_memoryGood, State.enqueueZeroBy]

theorem State.deliverBy_memoryGood (f : FaultSite) (i : FaultInfo) : (s.deliverBy h f i).memoryGood := by
  unfold State.deliverBy
  grind [State.recordBy_memoryGood]

theorem State.meetDescBy_memoryGood (asid : Nat) : (s.meetDescBy h asid).memoryGood := by
  unfold State.meetDescBy
  grind [State.deliverBy_memoryGood, Hardware.KeepsMemories]

theorem State.terminateContextBy_memoryGood (asid : Nat) : (s.terminateContextBy h asid).memoryGood := by
  have lowered (l : List (BitVec 512)) {t : State} (ht : t.memoryGood) :
      (l.foldl (fun s r => s.lowerCounters asid r) t).memoryGood :=
    foldl_memoryGood (fun _ _ h => State.lowerCounters_memoryGood h _ _) l ht
  obtain ⟨mem, tiles, frames⟩ := State.setDescBy_memoryGood hh
    (lowered _ (State.setEnabledBy_memoryGood hh (State.meetDescBy_memoryGood hh hs asid) asid false)) asid 0x0C 4 _
  refine ⟨mem, tiles, FramesGood.map frames fun p hp => ?_⟩
  split <;> exact hp

theorem State.memoryErrorBy_memoryGood (line kind owner die way pieces : Nat) (retired : Option Nat) :
    (s.memoryErrorBy h line kind owner die way pieces retired).memoryGood := by
  unfold State.memoryErrorBy
  grind [State.recordBy_memoryGood, State.blackBox_memoryGood]

theorem State.hbmUncorrectableBy_memoryGood (pa : Nat) : (s.hbmUncorrectableBy h pa).memoryGood := by
  unfold State.hbmUncorrectableBy
  grind [State.memoryErrorBy_memoryGood, State.retire_memoryGood, State.fatal_memoryGood]

theorem State.meetHbmBy_memoryGood (pa : Nat) : (s.meetHbmBy h pa).memoryGood := by
  have corrected (ps : List Nat) {t : State} (ht : t.memoryGood) : (ps.foldl (fun s pos => s.hbmCorrected pa pos) t).memoryGood :=
    foldl_memoryGood (fun _ _ h => State.hbmCorrected_memoryGood h _ _) ps ht
  by_cases clean : (!isHbm pa || decide (s.hbmErrors (pa / 32) = 0)) = true
  · rw [State.meetHbmBy_clean s h clean]
    exact hs
  · cases hd : s.decodeHbm pa with
    | corrected ps =>
      rw [State.meetHbmBy_corrected s h clean hd]
      exact corrected ps hs
    | uncorrectable =>
      rw [State.meetHbmBy_uncorrectable s h clean hd]
      exact State.hbmUncorrectableBy_memoryGood hh (s := s.metHbm pa) hs pa
    | miscorrected v ps =>
      rw [State.meetHbmBy_miscorrected s h clean hd]
      exact corrected ps (State.mistaken_memoryGood hs pa v)

theorem State.fetchSectorBy_memoryGood (pa : Nat) : (s.fetchSectorBy h pa).memoryGood := by
  have met := foldl_memoryGood (fun _ p ht => State.meetHbmBy_memoryGood hh ht p) (sectorPieceAddrs pa) hs
  unfold State.fetchSectorBy
  dsimp only
  split <;> exact met

omit hs in
theorem State.uncorrectableBy_memoryGood (fuel : Nat) :
    ∀ {s : State}, s.memoryGood → ∀ (l : LlcLine) (pa : Nat), (State.uncorrectableBy h fuel s l pa).memoryGood := by
  induction fuel with
  | zero => exact fun hs _ _ => hs
  | succ fuel ih =>
    intro s hs l pa
    unfold State.uncorrectableBy
    dsimp only
    split
    · exact State.fetchSectorBy_memoryGood hh (State.memoryErrorBy_memoryGood hh (State.mapMemory_memoryGood hs hs.1) ..) _
    · split
      · exact State.fatal_memoryGood (State.memoryErrorBy_memoryGood hh hs ..) _ _
      · refine foldl_memoryGood (fun t x ht => State.dropLine_memoryGood (foldl_memoryGood (fun u p hu => ?_) _ ht) _) _
          (State.memoryErrorBy_memoryGood hh (State.quarantineWay_memoryGood (State.retire_memoryGood
            (State.terminateContextBy_memoryGood hh (State.mapMemory_memoryGood hs hs.1) _) _) ..) ..)
        grind [State.decodePiece_memoryGood]

theorem State.meetPieceBy_memoryGood (pa : Nat) : (s.meetPieceBy h pa).memoryGood := by
  unfold State.meetPieceBy
  grind [State.decodePiece_memoryGood, State.uncorrectableBy_memoryGood]

theorem State.writeBackBy_memoryGood (line : Nat) : (s.writeBackBy h line).memoryGood := by
  unfold State.writeBackBy
  split
  · exact hs
  · split
    · exact hs
    · dsimp only
      generalize linePieces line _ = ps
      have met := foldl_memoryGood (fun _ p ht => State.meetPieceBy_memoryGood hh ht p) ps hs
      split
      · exact met
      · split
        · exact met
        · exact State.mapMemory_memoryGood met (writeBackLine_wf met.1 _)

omit hs in
theorem State.makeRoomBy_memoryGood (fuel : Nat) :
    ∀ {s : State}, s.memoryGood → ∀ line : Nat, (State.makeRoomBy h fuel s line).memoryGood := by
  induction fuel with
  | zero => exact fun hs _ => hs
  | succ fuel ih =>
    intro s hs line
    unfold State.makeRoomBy
    grind [State.writeBackBy_memoryGood, State.dropLine_memoryGood]

theorem State.ensureBy_memoryGood (pa : Nat) : (s.ensureBy h pa).memoryGood := by
  unfold State.ensureBy
  grind [State.makeRoomBy_memoryGood, State.fetchSectorBy_memoryGood]

theorem State.readSectorBy_memoryGood (pa n : Nat) : (s.readSectorBy h pa n).memoryGood := by
  unfold State.readSectorBy
  split
  · exact hs
  · split
    · exact foldl_memoryGood (fun _ _ ht => State.meetPieceBy_memoryGood hh ht _) _ hs
    · exact State.ensureBy_memoryGood hh hs pa

theorem State.meetRangeBy_memoryGood (pa n : Nat) : (s.meetRangeBy h pa n).memoryGood :=
  foldl_memoryGood (fun _ p ht => State.readSectorBy_memoryGood hh ht p.2.1 p.2.2) _ hs

theorem State.settleBy_memoryGood (asid pa : Nat) : (s.settleBy h asid pa).memoryGood := by
  unfold State.settleBy
  grind [State.ensureBy_memoryGood, State.writeBackBy_memoryGood]

theorem State.writeSectorBy_memoryGood (asid pa : Nat) (bs : List Byte) : (s.writeSectorBy h asid pa bs).memoryGood := by
  have settled := State.settleBy_memoryGood hh hs asid pa
  unfold State.writeSectorBy
  split
  · exact hs
  · split
    · exact State.mapMemory_memoryGood hs (Mem.writeBytes_wf hs.1 _ _)
    · dsimp only
      split
      · split <;> exact settled
      · exact settled

theorem State.llcPutBy_memoryGood (asid pa : Nat) (bs : List Byte) : (s.llcPutBy h asid pa bs).memoryGood :=
  foldl_memoryGood (fun _ _ ht => State.writeSectorBy_memoryGood hh ht _ _ _) _ hs

end

theorem hardwareAt_keepsMemories (n : Nat) : (hardwareAt n).KeepsMemories := by
  induction n with
  | zero => exact ⟨fun _ hs _ _ => hs, fun _ hs _ _ => hs⟩
  | succ n ih =>
    refine ⟨fun s hs pa k => State.meetRangeBy_memoryGood ih hs pa k, fun s hs pa bs => ?_⟩
    show (if (s.hwFault pa).isSome then s else s.llcPutBy (hardwareAt n) 0 pa bs).memoryGood
    split
    · exact hs
    · exact State.llcPutBy_memoryGood ih hs 0 pa bs

section
variable {s : State} (hs : s.memoryGood)
include hs

theorem State.meetPiece_memoryGood (pa : Nat) : (s.meetPiece pa).memoryGood :=
  State.meetPieceBy_memoryGood (hardwareAt_keepsMemories _) hs pa
theorem State.writeBack_memoryGood (line : Nat) : (s.writeBack line).memoryGood :=
  State.writeBackBy_memoryGood (hardwareAt_keepsMemories _) hs line
theorem State.ensure_memoryGood (pa : Nat) : (s.ensure pa).memoryGood :=
  State.ensureBy_memoryGood (hardwareAt_keepsMemories _) hs pa
theorem State.readSector_memoryGood (pa n : Nat) : (s.readSector pa n).memoryGood :=
  State.readSectorBy_memoryGood (hardwareAt_keepsMemories _) hs pa n
theorem State.meetRange_memoryGood (pa n : Nat) : (s.meetRange pa n).memoryGood :=
  State.meetRangeBy_memoryGood (hardwareAt_keepsMemories _) hs pa n
theorem State.writeSector_memoryGood (asid pa : Nat) (bs : List Byte) : (s.writeSector asid pa bs).memoryGood :=
  State.writeSectorBy_memoryGood (hardwareAt_keepsMemories _) hs asid pa bs
theorem State.llcPut_memoryGood (asid pa : Nat) (bs : List Byte) : (s.llcPut asid pa bs).memoryGood :=
  State.llcPutBy_memoryGood (hardwareAt_keepsMemories _) hs asid pa bs
theorem State.deliver_memoryGood (f : FaultSite) (i : FaultInfo) : (s.deliver f i).memoryGood :=
  State.deliverBy_memoryGood (hardwareAt_keepsMemories _) hs f i
theorem State.terminateContext_memoryGood (asid : Nat) : (s.terminateContext asid).memoryGood :=
  State.terminateContextBy_memoryGood (hardwareAt_keepsMemories _) hs asid
theorem State.meetDesc_memoryGood (asid : Nat) : (s.meetDesc asid).memoryGood :=
  State.meetDescBy_memoryGood (hardwareAt_keepsMemories _) hs asid
theorem State.hwWrite_memoryGood (pa : Nat) (bs : List Byte) : (s.hwWrite pa bs).memoryGood :=
  (hardwareAt_keepsMemories _).2 s hs pa bs
theorem State.putDesc_memoryGood (asid off n v : Nat) : (s.putDesc asid off n v).memoryGood :=
  State.setDescBy_memoryGood (hardwareAt_keepsMemories _) hs asid off n v
theorem State.setEnabled_memoryGood (asid : Nat) (on : Bool) : (s.setEnabled asid on).memoryGood :=
  State.setEnabledBy_memoryGood (hardwareAt_keepsMemories _) hs asid on

theorem State.settle_memoryGood (asid pa n : Nat) : (s.settle asid pa n).memoryGood := by
  refine foldl_memoryGood (fun t p ht => ?_) _ hs
  split
  · exact ht
  · exact State.settleBy_memoryGood (hardwareAt_keepsMemories _) ht _ _

theorem State.llcRead_memoryGood (pa n : Nat) : (s.llcRead pa n).1.memoryGood := by
  unfold State.llcRead
  grind [State.meetRange_memoryGood]

theorem State.hwPut_memoryGood (f : FaultSite) (pa : Nat) (bs : List Byte) : (s.hwPut f pa bs).memoryGood := by
  unfold State.hwPut
  grind [State.deliver_memoryGood, State.hwWrite_memoryGood]

end

end Sys2Proof.Machine
end
section
/-! SUPPORT. Translation, scratch memory and tile caches keep every memory in its canonical form (15 R238, R239; 19 R305 to R307;
25 R391). -/
namespace Sys2Proof.Machine

variable {s : State} (hs : s.memoryGood)
include hs

theorem State.meetEntries_memoryGood (l : List Nat) : (s.meetEntries l).memoryGood := by
  refine foldl_memoryGood (fun t pa ht => ?_) l hs
  split
  · exact ht
  · exact State.readSector_memoryGood ht _ _

theorem State.meetWalk_memoryGood (asid va : Nat) : (s.meetWalk asid va).memoryGood := State.meetEntries_memoryGood hs _

theorem State.report_memoryGood (f : FaultSite) (i : FaultInfo) : (s.report f i).memoryGood :=
  State.deliver_memoryGood (State.meetEntries_memoryGood hs _) f i

theorem State.cacheLeaf_memoryGood (asid va : Nat) (l : Leaf) : (s.cacheLeaf asid va l).memoryGood :=
  State.meetEntries_memoryGood hs (s.entriesFor asid va l)

/-! ## Tiles -/

theorem State.scratchWriteByte_memoryGood (a : Activation) (off : Nat) (v : Byte) : (s.scratchWriteByte a off v).memoryGood := by
  unfold State.scratchWriteByte
  split
  · next t b _ =>
    exact State.putSram_memoryGood hs t (Mem.write_wf (State.tile_memoryGood hs t).1 b v) rfl
  · exact hs

omit hs in
theorem State.scratchWrite_memoryGood (a : Activation) (bs : List Byte) :
    ∀ {s : State}, s.memoryGood → ∀ off : Nat, (s.scratchWrite a off bs).memoryGood := by
  induction bs with
  | nil => exact fun hs _ => hs
  | cons b bs ih => exact fun hs off => ih (State.scratchWriteByte_memoryGood hs a off b) (off + 1)

theorem State.scratchWriteNat_memoryGood (a : Activation) (off n v : Nat) : (s.scratchWriteNat a off n v).memoryGood :=
  State.scratchWrite_memoryGood a _ hs off

/-! ## Tile caches -/

theorem State.llcWrite_memoryGood (asid colour pa : Nat) (bs : List Byte) : (s.llcWrite asid colour pa bs).memoryGood := by
  unfold State.llcWrite
  split
  · exact hs
  · exact State.llcPut_memoryGood hs _ _ _

theorem State.lostWriteBack_memoryGood (x : Sector) : (s.lostWriteBack x).memoryGood := by
  unfold State.lostWriteBack
  split
  · exact hs
  · next ha =>
    refine State.report_memoryGood ?_ _ _
    exact State.keepActivation_memoryGood hs ha rfl

theorem writeMasked_memoryGood (x : Sector) : (writeMasked s x).memoryGood := by
  unfold writeMasked
  grind [State.writeSector_memoryGood, State.ensure_memoryGood, State.lostWriteBack_memoryGood]

theorem cleanSector_memoryGood (tile : Nat) (x : Sector) : (cleanSector s tile x).memoryGood :=
  State.keepTile_memoryGood (writeMasked_memoryGood hs x) tile rfl rfl

theorem dropSector_memoryGood (tile : Nat) (x : Sector) : (dropSector s tile x).memoryGood :=
  State.keepTile_memoryGood (writeMasked_memoryGood hs x) tile rfl rfl

theorem State.dropSectors_memoryGood (tile : Nat) (l : List Sector) :
    (l.foldl (fun s x => dropSector s tile x) s).memoryGood :=
  foldl_memoryGood (fun _ x ht => dropSector_memoryGood ht tile x) l hs

theorem State.flushRange_memoryGood (tile pa n : Nat) : (s.flushRange tile pa n).memoryGood :=
  State.dropSectors_memoryGood hs tile _

theorem State.leaveBank_memoryGood (tile number : Nat) : (s.leaveBank tile number).memoryGood := by
  unfold State.leaveBank
  grind [dropSector_memoryGood]

theorem State.allocate_memoryGood (tile number asid colour : Nat) : (s.allocate tile number asid colour).1.memoryGood := by
  have read := State.llcRead_memoryGood (State.leaveBank_memoryGood hs tile (number / 2 * 2 + (1 - number % 2))) (number * 128) 128
  unfold State.allocate
  split
  · exact hs
  · dsimp only
    split
    · exact read
    · refine State.keepTile_memoryGood ?_ tile rfl rfl
      split
      · exact read
      · exact State.dropSectors_memoryGood read tile _

theorem State.tileRead_memoryGood (tile asid colour pa n : Nat) (mt : MemType) :
    (s.tileRead tile asid colour pa n mt).1.memoryGood := by
  have left := State.leaveBank_memoryGood hs tile (pa / 128)
  unfold State.tileRead
  dsimp only
  split
  · exact State.llcRead_memoryGood left _ _
  · split
    · exact State.keepTile_memoryGood left tile rfl rfl
    · split
      · exact State.allocate_memoryGood left _ _ _ _
      · exact State.llcRead_memoryGood left _ _

theorem State.tileWrite_memoryGood (tile asid colour writer pa : Nat) (mt : MemType) (bs : List Byte) :
    (s.tileWrite tile asid colour writer pa mt bs).memoryGood := by
  have left := State.leaveBank_memoryGood hs tile (pa / 128)
  have brought := State.allocate_memoryGood left tile (pa / 128) asid colour
  unfold State.tileWrite
  dsimp only
  split
  · exact State.llcWrite_memoryGood left _ _ _ _
  · split
    · exact State.keepTile_memoryGood left tile rfl rfl
    · split
      · split
        · exact State.keepTile_memoryGood brought tile rfl rfl
        · exact brought
      · exact State.llcWrite_memoryGood left _ _ _ _

/-- Changes of tiles that keep their memories, one after another. -/
theorem State.keepTiles_memoryGood {α : Type} {n : State → α → Nat} {f : State → α → MemTile} (l : List α)
    (hf : ∀ s a, (f s a).sram = (s.tile (n s a)).sram ∧ (f s a).bank = (s.tile (n s a)).bank) :
    (l.foldl (fun s a => s.putTile (n s a) (f s a)) s).memoryGood :=
  foldl_memoryGood (fun t a ht => State.keepTile_memoryGood ht _ (hf t a).1 (hf t a).2) l hs

theorem State.dropClean_memoryGood (a : Activation) (p : Sector → Bool) : (s.dropClean a p).memoryGood :=
  State.keepTiles_memoryGood hs a.memTiles fun _ _ => ⟨rfl, rfl⟩

theorem State.acquire_memoryGood (a : Activation) : (s.acquire a).memoryGood := State.dropClean_memoryGood hs a _

theorem State.observe_memoryGood (a : Activation) (tiles : List Nat) : (s.observe a tiles).memoryGood :=
  State.keepTiles_memoryGood hs tiles fun _ _ => ⟨rfl, rfl⟩

theorem State.releaseWhere_memoryGood (a : Activation) (p : Sector → Bool) : (s.releaseWhere a p).memoryGood :=
  foldl_memoryGood (fun _ _ ht => foldl_memoryGood (fun _ _ hu => cleanSector_memoryGood hu _ _) _ ht) _ hs

theorem State.releaseFor_memoryGood (a : Activation) (rs : List RegionRecord) : (s.releaseFor a rs).memoryGood :=
  State.releaseWhere_memoryGood hs a _

theorem State.engineFlush_memoryGood (a : Activation) (pa n : Nat) (writes : Bool) :
    (s.engineFlush a pa n writes).memoryGood := by
  unfold State.engineFlush
  split
  · exact foldl_memoryGood (fun _ _ ht => State.flushRange_memoryGood ht _ _ _) _ hs
  · refine foldl_memoryGood (fun _ _ ht => foldl_memoryGood (fun _ _ hu => ?_) _ ht) _ hs
    split
    · exact cleanSector_memoryGood hu _ _
    · exact hu

theorem State.setFull_memoryGood (pa n : Nat) (on : Bool) : (s.setFull pa n on).memoryGood := hs

end Sys2Proof.Machine
end
section
/-! SUPPORT. The operations that the meanings share keep every memory in its canonical form (07 R112; 13 R199; 18 R285, R298;
25 R386; 26 R411, R412). -/
namespace Sys2Proof.Machine

/-- An event that can occur, or not, in states whose memories are good, leaves one whose memories are. -/
def Result.EndsGood (r : Result) : Prop := ∀ t, r = .next t → t.memoryGood

theorem endsGood_next {s : State} (hs : s.memoryGood) : Result.EndsGood (.next s) := fun _ h => by cases h; exact hs
theorem endsGood_fault (f : Fault) : Result.EndsGood (.fault f) := fun _ h => nomatch h
theorem endsGood_refused (f : Refusal) : Result.EndsGood (.refused f) := fun _ h => nomatch h

/-- Whatever state there is has good memories. -/
def AllGood (o : Option State) : Prop := ∀ t, o = some t → t.memoryGood

theorem allGood_none : AllGood none := fun _ h => nomatch h
theorem allGood_some {s : State} (hs : s.memoryGood) : AllGood (some s) := fun _ h => Option.some.inj h ▸ hs
theorem allGood_ite {c : Prop} [Decidable c] {o p : Option State} (ho : AllGood o) (hp : AllGood p) :
    AllGood (if c then o else p) := by
  split
  · exact ho
  · exact hp

theorem endsGood_ite {c : Prop} [Decidable c] {r q : Result} (hr : r.EndsGood) (hq : q.EndsGood) :
    Result.EndsGood (if c then r else q) := by
  split
  · exact hr
  · exact hq

theorem TilesGood.map {ts : Tab MemTile} (h : TilesGood ts) {f : Nat × MemTile → Nat × MemTile}
    (hf : ∀ p, (f p).2.sram = p.2.sram ∧ (f p).2.bank = p.2.bank) : TilesGood (ts.map f) := by
  intro p hp
  obtain ⟨q, hq, rfl⟩ := List.mem_map.1 hp
  rw [MemTile.memoryGood_iff, (hf q).1, (hf q).2]
  exact h q hq

theorem FrameGood.purge {o : Option SavedFrame} (h : FrameGood o) (c now : Nat) : FrameGood (o.map fun f => f.purge c now) := by
  cases o with
  | none => exact FrameGood.none
  | some f => exact (frameGood_some _).2 (TilesGood.map ((frameGood_some f).1 h) fun _ => ⟨rfl, rfl⟩)

variable {s : State} (hs : s.memoryGood)
include hs

theorem occurs_endsGood (c : Bool) : (occurs c s).EndsGood := by
  unfold occurs
  split
  · exact endsGood_next hs
  · exact endsGood_fault _

omit hs in
theorem occursIf_endsGood {o : Option State} (h : AllGood o) : (occursIf o).EndsGood := by
  cases o with
  | none => exact endsGood_fault _
  | some t => exact endsGood_next (h t rfl)

theorem State.putSequencer_memoryGood (q : SeqId) (x : Sequencer) : (s.putSequencer q x).memoryGood := by
  unfold State.putSequencer
  split
  · split
    · next ha => exact State.keepActivation_memoryGood hs ha rfl
    · exact hs
  · exact State.keepTile_memoryGood hs _ rfl rfl

theorem State.purge_memoryGood (c : Nat) : (s.purge c).memoryGood :=
  ⟨hs.1, TilesGood.map hs.2.1 fun _ => ⟨rfl, rfl⟩, FramesGood.map hs.2.2 fun _ h => FrameGood.purge h _ _⟩

theorem State.cancelActivation_memoryGood (c code : Nat) : (s.cancelActivation c code).memoryGood := by
  unfold State.cancelActivation
  split
  · next ha => exact State.keepActivation_memoryGood hs ha rfl
  · exact hs

theorem State.putCompletion_memoryGood (asid rec_ : Nat) : (s.putCompletion asid rec_).memoryGood := by
  unfold State.putCompletion
  grind [State.hwPut_memoryGood, State.mapHost_memoryGood, State.mapSched_memoryGood]

theorem State.payOwed_memoryGood (asid : Nat) : (s.payOwed asid).memoryGood :=
  foldl_memoryGood (fun _ _ ht => State.putCompletion_memoryGood ht _ _) _ (State.mapSched_memoryGood hs _)

theorem State.completeEntry_memoryGood (e : Entry) (code : Nat) : (s.completeEntry e code).memoryGood :=
  State.putCompletion_memoryGood (State.lowerCounters_memoryGood hs _ _) _ _

theorem State.dropRecord_memoryGood (e : Entry) (code : Nat) : (s.dropRecord e code).memoryGood := by
  unfold State.dropRecord
  split
  · exact State.completeEntry_memoryGood hs e code
  · exact State.lowerCounters_memoryGood hs _ _

theorem State.cancelId_memoryGood (asid job level id code : Nat) : (s.cancelId asid job level id code).memoryGood := by
  unfold State.cancelId
  generalize (asid, if level = 4 then id else job, level, id) = key
  dsimp only
  split
  · exact hs
  · have dropped (l : List Entry) {t : State} (ht : t.memoryGood) : (l.foldl (fun s e => s.dropRecord e code) t).memoryGood :=
      foldl_memoryGood (fun _ e h => State.dropRecord_memoryGood h e code) l ht
    obtain ⟨mem, tiles, frames⟩ := dropped _ (State.mapSched_memoryGood hs _)
    refine ⟨mem, tiles, FramesGood.map frames fun p hp => ?_⟩
    split <;> exact hp

theorem State.killByColour_memoryGood (c : Nat) : (s.killByColour c).memoryGood := by
  unfold State.killByColour
  split
  · exact hs
  · next a ha =>
    split
    · exact hs
    · dsimp only
      split
      · exact State.keepActivation_memoryGood hs ha rfl
      · refine State.cancelId_memoryGood ?_ _ _ _ _ _
        exact State.keepActivation_memoryGood hs ha rfl

theorem State.mismatchEvent_memoryGood (identifier unit colour place attempt : Nat) :
    (s.mismatchEvent identifier unit colour place attempt).memoryGood := State.blackBox_memoryGood hs _ _

theorem State.tileMismatch_memoryGood (tile unit colour place attempt : Nat) :
    (s.tileMismatch tile unit colour place attempt).memoryGood := by
  have told := State.mismatchEvent_memoryGood hs tile unit colour place attempt
  unfold State.tileMismatch
  dsimp only
  split
  · exact State.putTile_memoryGood (State.withdrawTile_memoryGood told tile) tile (State.tile_memoryGood hs tile)
  · exact State.putTile_memoryGood told tile (State.tile_memoryGood hs tile)

theorem State.setQuarantine_memoryGood (el : Nat) (on : Bool) : (s.setQuarantine el on).memoryGood := by
  unfold State.setQuarantine
  dsimp only
  split
  · exact foldl_memoryGood (fun _ _ ht => State.setTileReady_memoryGood ht _ _) _ (State.mapHost_memoryGood hs _)
  · exact hs

theorem State.elementMismatch_memoryGood (el : Nat) (b : Block) : (s.elementMismatch el b).memoryGood :=
  State.mismatchEvent_memoryGood hs el 0 b.colour.toNat b.entry b.attempt

theorem State.settleQuarantine_memoryGood (el : Nat) : (s.settleQuarantine el).memoryGood := by
  unfold State.settleQuarantine
  grind [State.blackBox_memoryGood, State.setQuarantine_memoryGood, State.putElement_memoryGood]

theorem State.blockMismatch_memoryGood (el : Nat) (b : Block) : (s.blockMismatch el b).memoryGood := by
  have told : ({ s with upsets := s.upsets.erase (.elementFiring el) }.elementMismatch el b).memoryGood :=
    State.elementMismatch_memoryGood (s := { s with upsets := s.upsets.erase (.elementFiring el) }) hs el b
  unfold State.blockMismatch
  dsimp only
  split
  · exact told
  · exact State.settleQuarantine_memoryGood (State.killByColour_memoryGood (State.putElement_memoryGood told _ _) _) _

theorem State.stepMismatch_memoryGood (q : SeqId) (a : Activation) (x : Sequencer) (r : StepRun) :
    (s.stepMismatch q a x r).memoryGood := by
  have told := State.mismatchEvent_memoryGood (s := { s with upsets := s.upsets.erase (.stepFiring q) }) hs
    (seqTile a q) (if isStreamSeq q then 2 else 1) a.colour x.cc r.attempt
  unfold State.stepMismatch
  dsimp only
  split
  · exact State.putSequencer_memoryGood told _ _
  · exact State.killByColour_memoryGood (State.putSequencer_memoryGood told _ _) _

theorem holdBlock_memoryGood (el : Nat) (b : Block) (i : FaultInfo) : (holdBlock s el b i).memoryGood :=
  State.settleQuarantine_memoryGood (State.putElement_memoryGood (State.report_memoryGood hs (s.blockSite el b) i) _ _) el

theorem takeBlockException_memoryGood (el : Nat) (b : Block) (i : FaultInfo) : (takeBlockException s el b i).memoryGood := by
  unfold takeBlockException
  split
  · exact State.blockMismatch_memoryGood hs el b
  · exact holdBlock_memoryGood hs el b i

theorem holdStep_memoryGood (q : SeqId) (i : FaultInfo) : (holdStep s q i).memoryGood := by
  unfold holdStep
  split
  · exact hs
  · exact State.putSequencer_memoryGood (State.report_memoryGood hs _ i) q _

theorem takeStepException_memoryGood (q : SeqId) (i : FaultInfo) : (takeStepException s q i).memoryGood := by
  unfold takeStepException
  split
  · split
    · exact State.stepMismatch_memoryGood hs q _ _ _
    · exact holdStep_memoryGood hs q i
  · exact holdStep_memoryGood hs q i

theorem answerElement_memoryGood (el ctx : Nat) (skip cont : Bool) : (answerElement s el ctx skip cont).memoryGood := by
  unfold answerElement
  dsimp only
  split
  · exact hs
  · exact State.putElement_memoryGood hs el _

/-! ## Executing inside a block or a step -/

theorem blockMoves_memoryGood (el : Nat) (b : Block) (words : Nat) : (blockMoves s el b words).memoryGood := hs

theorem inBlock_endsGood (words : Nat) (f : State → Nat → Block → BlockResult) : (inBlock s words f).EndsGood := by
  intro t ht
  obtain ⟨el, b, b', -, -, rfl⟩ | ⟨el, b, i, -, -, rfl⟩ | ⟨q, -, rfl⟩ := inBlock_cases ht
  · exact blockMoves_memoryGood hs el b' words
  · exact takeBlockException_memoryGood hs el b i
  · exact takeStepException_memoryGood hs q _

/-- An instruction that touches the package beside its block, where what it makes of the package keeps the memories. -/
theorem inBlockWith_endsGood (words : Nat) {f : State → Nat → Block → Except FaultInfo (State × Block)}
    (hf : ∀ el b s' b', f s el b = .ok (s', b') → s'.memoryGood) : (inBlockWith s words f).EndsGood := by
  intro t ht
  obtain ⟨el, b, s', b', -, he, rfl⟩ | ⟨el, b, i, -, -, rfl⟩ | ⟨q, -, rfl⟩ := inBlockWith_cases ht
  · exact blockMoves_memoryGood (hf el b s' b' he) el b' words
  · exact takeBlockException_memoryGood hs el b i
  · exact takeStepException_memoryGood hs q _

omit hs in
/-- What an instruction makes of its step keeps the memories. -/
def StepResult.Good : StepResult → Prop
  | .ok s _ _ | .jump s _ _ | .exc s _ => s.memoryGood
  | .waits => True

omit hs in
theorem StepResult.good_ite {c : Prop} [Decidable c] {r q : StepResult} (hr : r.Good) (hq : q.Good) :
    StepResult.Good (if c then r else q) := by
  split
  · exact hr
  · exact hq

theorem inStep_endsGood {f : State → SeqId → Activation → Sequencer → StepRun → StepResult}
    (hf : ∀ q a x r, (f s q a x r).Good) : (inStep s f).EndsGood := by
  intro t ht
  obtain ⟨q, a, x, r, -, ⟨s', x', r', he, rfl⟩ | ⟨s', x', r', he, rfl⟩ | ⟨-, rfl⟩ | ⟨s', i, he, rfl⟩⟩ := inStep_cases ht
  all_goals have good := hf q a x r
  · rw [he] at good
    exact State.putSequencer_memoryGood good _ _
  · rw [he] at good
    exact State.putSequencer_memoryGood good _ _
  · exact State.putSequencer_memoryGood hs _ _
  · rw [he] at good
    exact takeStepException_memoryGood good q i

theorem inStepRegs_endsGood (f : Sequencer → Sequencer) : (inStepRegs s f).EndsGood :=
  inStep_endsGood hs fun _ _ _ _ => hs

end Sys2Proof.Machine
end
section
/-! SUPPORT. What flits, blocks and the events of elements do keeps every memory in its canonical form (07 R101 to R112; 12 R181 to
R190). -/
namespace Sys2Proof.Machine

variable {s : State} (hs : s.memoryGood)
include hs

/-! ## Flits -/

theorem State.emit_memoryGood (p : SourcePort) (ts : List Token) : (s.emit p ts).memoryGood := by
  unfold State.emit
  split <;> exact hs

theorem State.putWire_memoryGood (k : Nat) (t : HopTarget) (f : Flit) : (s.putWire k t f).memoryGood := by
  unfold State.putWire
  split
  · exact hs
  · split
    · exact hs
    · exact hs
    · exact State.keepTile_memoryGood hs _ rfl rfl
    · split
      · exact hs
      · exact State.keepTile_memoryGood hs _ rfl rfl
    · split <;> exact hs

theorem State.land_memoryGood (k : Nat) (t : HopTarget) : (s.land k t).1.memoryGood := by
  unfold State.land
  split
  · exact hs
  · split
    · dsimp only
      split <;> exact hs
    · dsimp only
      split <;> exact hs
    · dsimp only
      split
      · exact hs
      · exact State.keepTile_memoryGood hs _ rfl rfl
    · split
      · exact hs
      · dsimp only
        split
        · exact hs
        · exact State.keepTile_memoryGood hs _ rfl rfl
    · split
      · dsimp only
        split <;> exact hs
      · exact hs

theorem State.cutTarget_memoryGood (lo hi off : Int) (k : Nat) (c : Circuit) (t : HopTarget) :
    (s.cutTarget lo hi off k c t).1.memoryGood := by
  unfold State.cutTarget
  split
  · exact hs
  · exact hs
  · exact State.keepTile_memoryGood hs _ rfl rfl
  · split
    · exact hs
    · exact State.keepTile_memoryGood hs _ rfl rfl
  · split <;> exact hs

omit hs in
theorem State.dropBelow_memoryGood (lo hi : Int) (fuel : Nat) :
    ∀ {s : State}, s.memoryGood → ∀ (k node : Nat) (off : Int), (State.dropBelow lo hi fuel s k node off).memoryGood := by
  induction fuel with
  | zero => exact fun hs _ _ _ => hs
  | succ fuel ih =>
    intro s hs k node off
    unfold State.dropBelow
    split
    · exact hs
    · refine foldl_memoryGood (fun t x ht => ?_) _ hs
      split
      · exact ht
      · have cut := State.cutTarget_memoryGood ht lo hi off k
        dsimp only
        split
        · exact ih (cut _ _) _ _ _
        · exact cut _ _

theorem State.dropRequest_memoryGood (c : Circuit) (f : Flit) : (s.dropRequest c f).memoryGood := by
  unfold State.dropRequest
  split <;> exact hs

theorem State.dropUnsent_memoryGood (k node n : Nat) : (s.dropUnsent k node n).memoryGood := by
  unfold State.dropUnsent
  split <;> exact hs

theorem State.dropToken_memoryGood (k node branch : Nat) (f : Flit) : (s.dropToken k node branch f).memoryGood := by
  unfold State.dropToken
  split
  · exact hs
  · exact State.report_memoryGood (State.dropRequest_memoryGood (State.dropBelow_memoryGood _ _ _
      (State.dropUnsent_memoryGood hs _ _ _) _ _ _) _ _) _ _

theorem State.noteLeft_memoryGood (c : Circuit) (f : Flit) : (s.noteLeft c f).memoryGood := by
  unfold State.noteLeft
  split <;> exact hs

omit hs in
/-- Steps of a state with something beside it keep the memories one after another. -/
theorem foldl_fst_memoryGood {α β : Type} {f : State × β → α → State × β}
    (hf : ∀ r a, r.1.memoryGood → (f r a).1.memoryGood) (l : List α) :
    ∀ {r : State × β}, r.1.memoryGood → (l.foldl f r).1.memoryGood := by
  induction l with
  | nil => exact fun hr => hr
  | cons a l ih => exact fun hr => ih (hf _ a hr)

theorem execFlitHop_endsGood (circuit node : Nat) (lands : Bool) : (execFlitHop circuit node lands s).EndsGood := by
  unfold execFlitHop
  split
  · exact endsGood_fault _
  · next c _ =>
    dsimp only
    split
    · have landed := foldl_fst_memoryGood (β := Option Flit) (fun r t (hr : r.1.memoryGood) =>
        State.land_memoryGood hr circuit t) (f := fun r t => ((r.1.land circuit t).1, (r.1.land circuit t).2.or r.2))
        (c.node node).targets (r := (s, none)) hs
      split
      · exact endsGood_fault _
      · split
        · refine endsGood_next (State.dropToken_memoryGood ?_ _ _ _ _)
          exact landed
        · exact endsGood_next landed
    · split
      · exact endsGood_fault _
      · split
        · refine endsGood_next (foldl_memoryGood (fun _ _ ht => State.putWire_memoryGood ht _ _ _) _ ?_)
          split
          · refine State.noteLeft_memoryGood ?_ _ _
            exact hs
          · exact hs
        · exact endsGood_fault _

theorem execDepthChange_endsGood (el port : Nat) : (execDepthChange el port s).EndsGood := by
  unfold execDepthChange
  dsimp only
  split
  · split
    · exact endsGood_next hs
    · exact endsGood_fault _
  · exact endsGood_fault _

/-! ## Time -/

theorem State.pass_memoryGood : s.pass.memoryGood := hs

omit hs in
theorem passing_endsGood {r : Result} (hr : r.EndsGood) : (passing r).EndsGood := by
  cases r with
  | next t => exact endsGood_next (State.pass_memoryGood (hr t rfl))
  | fault f => exact hr
  | refused f => exact hr

theorem lenient_endsGood {r : Result} (hr : r.EndsGood) : (lenient s r).EndsGood := by
  unfold lenient
  split
  · exact endsGood_next hs
  · exact endsGood_next hs
  · exact hr

omit hs in
theorem staysHalted_endsGood {r : Result} (hr : r.EndsGood) : (staysHalted r).EndsGood := by
  unfold staysHalted
  split
  · next t =>
    have ht := hr t rfl
    exact endsGood_next ht
  · exact hr

/-! ## Elements -/

theorem State.recordAtElement_memoryGood (el : Nat) (t : Token) (code : BitVec 8) : (s.recordAtElement el t code).memoryGood := by
  unfold State.recordAtElement
  split <;> exact State.report_memoryGood hs _ _

omit hs in
theorem onHead_endsGood (el port : Nat) {f : State → Element → Token → Option State}
    (hf : ∀ x t u, f s x t = some u → u.memoryGood) : (onHead s el port f).EndsGood := by
  unfold onHead
  dsimp only
  split
  · exact endsGood_fault _
  · exact occursIf_endsGood (hf _ _)

theorem execTokenArrival_endsGood (el port : Nat) : (execTokenArrival el port s).EndsGood := by
  refine onHead_endsGood el port fun x t u hu => ?_
  grind [State.recordAtElement_memoryGood, State.putElement_memoryGood]

theorem execConfToken_endsGood (el port : Nat) : (execConfToken el port s).EndsGood := by
  refine onHead_endsGood el port fun x t u hu => ?_
  grind [State.recordAtElement_memoryGood, State.putElement_memoryGood]

theorem execCtrlToken_endsGood (el port : Nat) : (execCtrlToken el port s).EndsGood := by
  refine onHead_endsGood el port fun x t u hu => ?_
  grind [State.recordAtElement_memoryGood, State.putElement_memoryGood]

theorem execPromotion_endsGood (el cand : Nat) : (execPromotion el cand s).EndsGood := by
  unfold execPromotion
  dsimp only
  split
  · exact occurs_endsGood (State.putElement_memoryGood hs _ _) _
  · exact endsGood_fault _

theorem execBlockSelect_endsGood (el : Nat) : (execBlockSelect el s).EndsGood := by
  unfold execBlockSelect
  dsimp only
  split
  · exact endsGood_fault _
  · split
    · exact endsGood_fault _
    · exact endsGood_next hs

theorem execTagStoreDeadlock_endsGood (el : Nat) : (execTagStoreDeadlock el s).EndsGood :=
  occurs_endsGood (foldl_memoryGood (fun _ _ ht => State.cancelActivation_memoryGood
    (State.recordAtElement_memoryGood ht _ _ _) _ _) _ (State.putElement_memoryGood hs _ _)) _

theorem State.endEdgeBuffer_memoryGood (el : Nat) (t : Token) : (s.endEdgeBuffer el t).memoryGood := by
  unfold State.endEdgeBuffer
  split
  · exact hs
  · split
    · next ha => exact State.keepFrame_memoryGood hs (State.activationAt_frameGood hs ha) rfl
    · exact hs

theorem commitEffect_memoryGood (el : Nat) (e : BlockEffect) : (commitEffect el s e).memoryGood := by
  cases e with
  | send out t => exact State.endEdgeBuffer_memoryGood (State.emit_memoryGood hs _ _) el t
  | message dest flits t =>
    refine State.endEdgeBuffer_memoryGood ?_ el t
    exact hs
  | request r => exact State.emit_memoryGood (State.putElement_memoryGood hs _ _) _ _
  | scale k v => exact hs
  | tableRow row v => exact hs

theorem commitBlock_memoryGood (el : Nat) (b : Block) : (commitBlock s el b).memoryGood :=
  State.settleQuarantine_memoryGood (foldl_memoryGood (fun _ e ht => commitEffect_memoryGood ht el e) _
    (State.putElement_memoryGood hs _ _)) el

theorem State.closeGrant_memoryGood (colour : Nat) : (s.closeGrant colour).memoryGood := by
  unfold State.closeGrant
  split
  · exact hs
  · split
    · refine State.report_memoryGood ?_ _ _
      refine State.mapActivation_memoryGood ?_ colour fun _ ha => ha
      exact foldl_memoryGood (fun _ _ ht => State.putElement_memoryGood ht _ _) _ hs
    · exact hs

theorem execBlockCommit_endsGood (el : Nat) : (execBlockCommit el s).EndsGood := by
  unfold execBlockCommit
  dsimp only
  split
  · exact endsGood_fault _
  · split
    · exact endsGood_fault _
    · split
      · exact endsGood_next (State.settleQuarantine_memoryGood (State.putElement_memoryGood hs _ _) el)
      · split
        · exact endsGood_next (State.blockMismatch_memoryGood hs el _)
        · exact endsGood_next (State.closeGrant_memoryGood (commitBlock_memoryGood hs el _) _)

end Sys2Proof.Machine
end
section
/-! SUPPORT. The instructions of a step that read memory or configure keep every memory in its canonical form (13 R197 to R225; 16
R271). -/
namespace Sys2Proof.Machine

variable {s : State} (hs : s.memoryGood)
include hs

theorem alu_endsGood (o : QA) (f : DWord → DWord → DWord) : (alu s o f).EndsGood := inStepRegs_endsGood hs _
theorem aluImm_endsGood (o : QI) (f : DWord → DWord) : (aluImm s o f).EndsGood := inStepRegs_endsGood hs _

theorem StepResult.good_stage (x : Sequencer) (r : StepRun) (e : StepEffect) : (stage s x r e).Good := hs
theorem StepResult.good_endStep (x : Sequencer) (r : StepRun) (e : StepEnd) : (endStep s x r e).Good := hs

theorem branch_good (x : Sequencer) (r : StepRun) (off : BitVec 14) (taken : Bool) : (branch s x r off taken).Good := by
  unfold branch
  dsimp only
  split
  · exact hs
  · split
    · exact hs
    · split <;> exact hs

theorem execBr_endsGood (c : BitVec 4) (o : QB) : (execBr c o s).EndsGood :=
  inStep_endsGood hs fun _ _ _ _ => branch_good hs _ _ _ _
theorem execJmp_endsGood (o : QB) : (execJmp o s).EndsGood := inStep_endsGood hs fun _ _ _ _ => branch_good hs _ _ _ _
theorem execLoop_endsGood (o : QB) : (execLoop o s).EndsGood := inStep_endsGood hs fun _ _ _ _ => branch_good hs _ _ _ _

omit hs in
theorem readSectors_memoryGood (tile asid colour : Nat) (mt : MemType) (fuel : Nat) :
    ∀ {s : State}, s.memoryGood → ∀ (pa n : Nat) (acc : List Byte),
      (readSectors tile asid colour mt fuel s pa n acc).1.memoryGood := by
  induction fuel with
  | zero => exact fun hs _ _ _ => hs
  | succ fuel ih =>
    intro s hs pa n acc
    have read := State.tileRead_memoryGood hs tile asid colour pa (min n (128 - pa % 128)) mt
    unfold readSectors
    split
    · exact hs
    · dsimp only
      split
      · next h => exact memoryGood_of_fst read h
      · next h => exact ih (memoryGood_of_fst read h) _ _ _

omit hs in
/-- The state that a read of a step leaves keeps the memories. -/
def ReadOutcome.Good : ReadOutcome → Prop
  | .bytes s _ | .fault s _ => s.memoryGood
  | .waits => True

theorem readStep_good (q : SeqId) (a : Activation) (r : StepRun) (va size align : Nat) :
    (readStep s q a r va size align).Good := by
  unfold readStep
  split
  · exact hs
  · next l _ =>
    have kept := State.cacheLeaf_memoryGood hs a.entry.asid va l
    dsimp only
    split
    · trivial
    · split
      · next h => exact memoryGood_of_fst (readSectors_memoryGood _ _ _ _ _ kept _ _ _) h
      · next h => exact memoryGood_of_fst (readSectors_memoryGood _ _ _ _ _ kept _ _ _) h

theorem execSld_endsGood (fn : BitVec 4) (o : QI) : (execSld fn o s).EndsGood := by
  refine inStep_endsGood hs fun q a x r => ?_
  have good := readStep_good hs q a r (qmemAddress x o) (sldSize fn.toNat) (sldSize fn.toNat)
  dsimp only
  split
  · next h =>
    rw [h] at good
    exact good
  · trivial
  · next h =>
    rw [h] at good
    exact good

theorem execSst_endsGood (fn : BitVec 4) (o : QI) : (execSst fn o s).EndsGood := by
  refine inStep_endsGood hs fun q a x r => ?_
  dsimp only
  split
  · exact hs
  · exact State.cacheLeaf_memoryGood hs _ _ _

theorem execSatom_endsGood (fn : BitVec 4) (o : QI) : (execSatom fn o s).EndsGood := by
  refine inStep_endsGood hs fun q a x r => ?_
  split
  · exact hs
  · exact State.cacheLeaf_memoryGood hs _ _ _

/-! ## Region code -/

theorem inRegionStep_endsGood {f : State → Nat → Activation → Sequencer → StepRun → StepResult}
    (hf : ∀ c a x r, (f s c a x r).Good) : (inRegionStep s f).EndsGood := by
  refine inStep_endsGood hs fun q a x r => ?_
  cases q with
  | region c => exact hf c a x r
  | stream t => exact hs

theorem onGenerator_endsGood (ag : Nat) (bound : State → Nat → Nest → Bool) (e : Sequencer → StepRun → StepEffect) :
    (onGenerator s ag bound e).EndsGood :=
  inStep_endsGood hs fun _ _ x r => StepResult.good_ite (StepResult.good_stage hs x r (e x r)) hs

theorem execCfg_endsGood (o : QA) : (execCfg o s).EndsGood := inRegionStep_endsGood hs fun _ _ _ _ => hs
theorem execCommit_endsGood (o : QA) : (execCommit o s).EndsGood := inRegionStep_endsGood hs fun _ _ _ _ => hs
theorem execWaitq_endsGood (o : QA) : (execWaitq o s).EndsGood := inStep_endsGood hs fun _ _ _ _ => hs

theorem execRun_endsGood (o : QA) : (execRun o s).EndsGood := by
  refine inRegionStep_endsGood hs fun c a x r => ?_
  split
  · exact hs
  · split <;> exact hs

theorem execDepth_endsGood (o : QA) : (execDepth o s).EndsGood := by
  refine inRegionStep_endsGood hs fun c a x r => ?_
  dsimp only
  split
  · exact hs
  · split <;> exact hs

theorem execBank_endsGood (o : QA) : (execBank o s).EndsGood := by
  refine inRegionStep_endsGood hs fun c a x r => ?_
  dsimp only
  split
  · exact hs
  · split <;> exact hs

end Sys2Proof.Machine
end
section
/-! SUPPORT. Configuration and launch records keep every memory in its canonical form (16 R261 to R270; 17 R272 to R279; 18 R287). -/
namespace Sys2Proof.Machine

variable {s : State} (hs : s.memoryGood)
include hs

omit hs in
theorem State.readRange_memoryGood (asid : Nat) (need : Need) (lpddr : Bool) (fuel : Nat) :
    ∀ {s : State}, s.memoryGood → ∀ va n : Nat, (s.readRange asid need lpddr fuel va n).1.memoryGood := by
  induction fuel with
  | zero => exact fun hs _ _ => hs
  | succ fuel ih =>
    intro s hs va n
    unfold State.readRange
    split
    · exact hs
    · dsimp only
      split
      · exact State.meetEntries_memoryGood hs _
      · next l _ =>
        have kept := State.cacheLeaf_memoryGood hs asid va l
        split
        · exact kept
        · split
          · next h => exact memoryGood_of_fst (State.llcRead_memoryGood kept _ _) h
          · next t bs h =>
            have read := memoryGood_of_fst (State.llcRead_memoryGood kept _ _) h
            split
            · next h' => exact memoryGood_of_fst (ih read _ _) h'
            · next h' => exact memoryGood_of_fst (ih read _ _) h'

theorem State.readBytes_memoryGood (asid : Nat) (need : Need) (lpddr : Bool) (va n : Nat) :
    (s.readBytes asid need lpddr va n).1.memoryGood := State.readRange_memoryGood asid need lpddr _ hs va n

theorem State.readImage_memoryGood (asid va : Nat) : (s.readImage asid va).1.memoryGood := by
  unfold State.readImage
  grind [State.readBytes_memoryGood]

theorem State.loadImage_memoryGood (asid va : Nat) (placed : Bool) : (s.loadImage asid va placed).1.memoryGood := by
  unfold State.loadImage
  grind [State.readImage_memoryGood]

theorem State.reportLoad_memoryGood (a : Activation) (unit : Nat) (e : LoadError) : (s.reportLoad a unit e).memoryGood :=
  State.report_memoryGood hs _ _

omit hs in
/-- Changes of elements keep the memories one after another. -/
theorem State.putElements_memoryGood {α : Type} {n : State → α → Nat} {f : State → α → Element} (l : List α) {s : State}
    (hs : s.memoryGood) : (l.foldl (fun s a => s.putElement (n s a) (f s a)) s).memoryGood :=
  foldl_memoryGood (fun _ _ ht => State.putElement_memoryGood ht _ _) l hs

theorem State.writeContexts_memoryGood (a : Activation) (c : LoadedConfig) : (s.writeContexts a c).memoryGood :=
  State.putElements_memoryGood c.ctxs hs

theorem State.writeStores_memoryGood (a : Activation) (c : LoadedConfig) (resident : Bool) :
    (s.writeStores a c resident).memoryGood :=
  State.putElements_memoryGood c.code (State.putElements_memoryGood c.ctxs hs)

theorem State.enableConfig_memoryGood (a : Activation) (c : LoadedConfig) (on : Bool) : (s.enableConfig a c on).memoryGood :=
  State.putElements_memoryGood c.ctxs hs

theorem State.bindConfig_memoryGood (a : Activation) (c : LoadedConfig) (ways : EdgeWays) : (s.bindConfig a c ways).memoryGood := by
  refine foldl_memoryGood (fun t b ht => ?_) _ (State.putElements_memoryGood _ (State.putElements_memoryGood _ ?_))
  · exact ht
  · exact hs

theorem State.startStreams_memoryGood (a : Activation) (c : LoadedConfig) : (s.startStreams a c).memoryGood :=
  State.keepTiles_memoryGood hs a.memTiles fun _ _ => ⟨rfl, rfl⟩

theorem State.setBanks_memoryGood (a : Activation) (c : LoadedConfig) {f : State → Nat → Nat → BankMode → State}
    (hf : ∀ s t b m, s.memoryGood → (f s t b m).memoryGood) : (s.setBanks a c f).memoryGood :=
  foldl_memoryGood (fun _ _ ht => foldl_memoryGood (fun _ _ hu => hf _ _ _ _ hu) _ ht) _ hs

/-! ## Launch records -/

theorem State.putSlot_memoryGood (asid va : Nat) (record : BitVec 512) : (s.putSlot asid va record).memoryGood := by
  unfold State.putSlot
  dsimp only
  split
  · exact State.report_memoryGood hs _ _
  · next l _ =>
    have put := State.llcPut_memoryGood (State.cacheLeaf_memoryGood hs asid va l) 0 l.pa (leBytes 64 record.toNat)
    split
    · exact State.report_memoryGood put _ _
    · exact put

theorem State.appendRecord_memoryGood (asid : Nat) (record : BitVec 512) (parents : List Nat) :
    (s.appendRecord asid record parents).memoryGood := by
  have met := State.meetDesc_memoryGood hs asid
  unfold State.appendRecord
  dsimp only
  generalize s.meetDesc asid = t at met ⊢
  have put := memoryGood_ite (c := (s.chainEnabled asid && !t.chainEnabled asid) = true) met
    (State.putSlot_memoryGood met asid (t.slotVa asid (t.chainTail asid)) record)
  exact memoryGood_ite put (State.raiseCounters_memoryGood (State.mapSched_memoryGood
    (State.putDesc_memoryGood put _ _ _ _) _) _ _)

theorem State.tableOf_memoryGood (asid : Nat) (record : BitVec 512) : (s.tableOf asid record).1.memoryGood := by
  unfold State.tableOf
  grind [State.readBytes_memoryGood]

theorem State.inspect_memoryGood (asid die va : Nat) (record : BitVec 512) (order : Nat) (parents : List Nat) :
    (s.inspect asid die va record order parents).1.memoryGood := by
  unfold State.inspect
  split
  · exact hs
  · dsimp only
    split
    · next h => exact memoryGood_of_fst (State.readBytes_memoryGood hs _ _ _ _ _) h
    · next h =>
      have table := memoryGood_of_fst (State.readBytes_memoryGood hs _ _ _ _ _) h
      split
      · exact table
      · split
        · next h => exact memoryGood_of_fst (State.readBytes_memoryGood table _ _ _ _ _) h
        · next h =>
          have head := memoryGood_of_fst (State.readBytes_memoryGood table _ _ _ _ _) h
          split
          · exact head
          · exact State.readImage_memoryGood head _ _

theorem State.reportRecord_memoryGood (asid die va : Nat) (code : BitVec 8) : (s.reportRecord asid die va code).memoryGood :=
  State.report_memoryGood hs _ _

theorem State.refuseRecord_memoryGood (asid die va : Nat) (code : BitVec 8) (record : BitVec 512) :
    (s.refuseRecord asid die va code record).memoryGood :=
  State.completeEntry_memoryGood (State.reportRecord_memoryGood hs _ _ _ _) _ _

theorem State.acceptRecord_memoryGood (asid die va : Nat) (record : BitVec 512) (order : Nat) (parents : List Nat) :
    (s.acceptRecord asid die va record order parents).memoryGood := by
  have inspected := State.inspect_memoryGood hs asid die va record order parents
  unfold State.acceptRecord
  split
  · exact State.dropRecord_memoryGood hs _ _
  · split
    next t r h =>
    have good := memoryGood_of_fst inspected h
    split
    · exact State.dropRecord_memoryGood good _ _
    · split
      · exact good
      · exact State.refuseRecord_memoryGood good _ _ _ _ _

theorem State.releaseRange_memoryGood (a : Activation) (va n : Nat) : (s.releaseRange a va n).memoryGood :=
  foldl_memoryGood (fun _ _ ht => State.engineFlush_memoryGood ht _ _ _ _) _ hs

theorem State.tableFrom_memoryGood (a : Activation) (record : BitVec 512) : (s.tableFrom a record).1.memoryGood :=
  State.tableOf_memoryGood (State.releaseRange_memoryGood hs _ _ _) _ _

theorem State.pushedRecord_memoryGood (a : Activation) (va : Nat) : (s.pushedRecord a va).1.memoryGood :=
  State.readBytes_memoryGood (State.releaseRange_memoryGood hs _ _ _) _ _ _ _ _

theorem State.pushRecord_memoryGood (a : Activation) (va : Nat) : (s.pushRecord a va).memoryGood := by
  have pushed := State.pushedRecord_memoryGood hs a va
  unfold State.pushRecord
  split
  · exact State.reportRecord_memoryGood hs _ _ _ _
  · split
    · next h => exact State.reportRecord_memoryGood (memoryGood_of_fst pushed h) _ _ _ _
    · next h =>
      have table := State.tableFrom_memoryGood (memoryGood_of_fst pushed h) a
      generalize BitVec.ofNat 512 _ = record
      exact State.acceptRecord_memoryGood (State.mapSched_memoryGood (State.raiseCounters_memoryGood
        (State.releaseFor_memoryGood (table record) _ _) _ _) _) _ _ _ _ _ _

theorem State.spawnRecord_memoryGood (a : Activation) (record : BitVec 512) : (s.spawnRecord a record).memoryGood := by
  refine State.appendRecord_memoryGood (State.releaseFor_memoryGood ?_ _ _) _ _ _
  exact State.tableFrom_memoryGood hs _ _

theorem State.splitAt_memoryGood {a : Activation} (ha : FrameGood a.frame) (k : Nat) : (s.splitAt a k).1.memoryGood := by
  unfold State.splitAt
  split
  · exact hs
  · refine State.keepFrame_memoryGood (State.raiseCounters_memoryGood (State.mapSched_memoryGood hs _) _ _) ha rfl

end Sys2Proof.Machine
end
section
/-! SUPPORT. Requests of elements and additions to eyelets keep every memory in its canonical form (15 R246; 16 R247 to R255; 20 R318 to
R326). -/
namespace Sys2Proof.Machine

variable {s : State} (hs : s.memoryGood)
include hs

/-! ## Device memory and scratch memory -/

omit hs in
theorem foldDigest_frame (bs : List Byte) : ∀ (a : Activation) (pa : Nat), (foldDigest a pa bs).frame = a.frame := by
  induction bs with
  | nil => exact fun _ _ => rfl
  | cons b bs ih => exact fun a pa => ih _ _

theorem State.deviceWrite_memoryGood (a : Activation) (tile writer pa scope : Nat) (mt : MemType) (fe : Bool) (bs : List Byte) :
    (s.deviceWrite a tile writer pa scope mt fe bs).1.memoryGood := by
  have folded : (match s.activation a.colour with
      | some b => if b.isPair then s.putActivation (foldDigest b pa bs) else s
      | none => s).memoryGood := by
    split
    · next ha =>
      split
      · exact State.keepActivation_memoryGood hs ha (foldDigest_frame _ _ _)
      · exact hs
    · exact hs
  unfold State.deviceWrite
  dsimp only
  generalize hw : List.foldl _ _ _ = w
  have written : w.memoryGood := by
    rw [← hw]
    refine foldl_memoryGood (fun u x hu => ?_) _ folded
    obtain ⟨off, at_, k⟩ := x
    exact memoryGood_ite (State.llcWrite_memoryGood hu _ _ _ _) (memoryGood_ite
      (State.llcWrite_memoryGood (State.flushRange_memoryGood hu _ _ _) _ _ _ _) (State.tileWrite_memoryGood hu _ _ _ _ _ _ _))
  exact fst_memoryGood_ite written (memoryGood_ite (State.setFull_memoryGood written _ _ _) written)

theorem State.deviceRead_memoryGood (a : Activation) (tile pa n scope : Nat) (mt : MemType) (fe : Bool) :
    (s.deviceRead a tile pa n scope mt fe).1.memoryGood := by
  refine foldl_fst_memoryGood (fun r x hr => ?_) _ hs
  dsimp only
  split
  · exact hr
  · have flushed := memoryGood_ite (c := 1 ≤ scope) (State.flushRange_memoryGood hr tile x.2.1 x.2.2) hr
    have read := State.llcRead_memoryGood flushed x.2.1 x.2.2
    have tileRead := State.tileRead_memoryGood flushed tile a.entry.asid a.colour x.2.1 x.2.2 mt
    exact fst_memoryGood_ite read (fst_memoryGood_ite (fst_memoryGood_ite tileRead read) tileRead)

theorem State.releaseWriter_memoryGood (tiles : List Nat) (writer : Nat) : (s.releaseWriter tiles writer).memoryGood :=
  foldl_memoryGood (fun _ _ ht => foldl_memoryGood (fun _ _ hu => cleanSector_memoryGood hu _ _) _ ht) _ hs

theorem State.takeFromSink_memoryGood (el : Nat) (r : MemRequest) : (s.takeFromSink el r).memoryGood :=
  State.keepTile_memoryGood hs _ rfl rfl

theorem State.observedBy_memoryGood (a : Activation) (tile key n scope : Nat) : (s.observedBy a tile key n scope).memoryGood :=
  memoryGood_ite (State.observe_memoryGood hs _ _) hs

/-! ## Performing a request -/

omit hs in
/-- What performing a request leaves keeps the memories. -/
def Performed.Good : Performed → Prop
  | .done s _ | .waits s _ | .fails s _ => s.memoryGood
  | .later => True

theorem performScratch_good (a : Activation) (el : Nat) (r : MemRequest) : (performScratch s a el r).Good := by
  unfold performScratch
  split
  · exact hs
  · split
    · trivial
    · split
      · exact hs
      · dsimp only
        split
        · exact State.observedBy_memoryGood hs _ _ _ _ _
        · exact State.scratchWrite_memoryGood _ _ hs _
        · exact State.scratchWriteNat_memoryGood hs _ _ _ _
        · exact State.scratchWrite_memoryGood _ _ hs _
        · exact hs

omit hs in
/-- A store is performed, or its frame was retired. -/
theorem Performed.good_stored {r : State × Bool} (hr : r.1.memoryGood) (i : FaultInfo) :
    Performed.Good (if r.2 then .done r.1 [] else .fails r.1 i) := by
  split <;> exact hr

omit hs in
theorem Performed.good_ite {c : Prop} [Decidable c] {r q : Performed} (hr : r.Good) (hq : q.Good) :
    Performed.Good (if c then r else q) := by
  split
  · exact hr
  · exact hq

theorem performDevice_good (a : Activation) (el : Nat) (r : MemRequest) : (performDevice s a el r).Good := by
  have flushed := State.flushRange_memoryGood hs (s.portTile el r.mport) r.address r.size
  unfold performDevice
  dsimp only
  split
  · exact hs
  · split
    · exact hs
    · split
      · trivial
      · split
        · split
          · exact hs
          · split
            · next h => exact State.observedBy_memoryGood (memoryGood_of_fst (State.deviceRead_memoryGood hs _ _ _ _ _ _ _) h) _ _ _ _ _
            · next h => exact memoryGood_of_fst (State.deviceRead_memoryGood hs _ _ _ _ _ _ _) h
        · split
          · exact hs
          · split
            · next h => exact State.setFull_memoryGood (memoryGood_of_fst (State.deviceRead_memoryGood hs _ _ _ _ _ _ _) h) _ _ _
            · next h => exact memoryGood_of_fst (State.deviceRead_memoryGood hs _ _ _ _ _ _ _) h
        · exact Performed.good_stored (State.deviceWrite_memoryGood hs _ _ _ _ _ _ _ _) _
        · split
          · exact hs
          · exact Performed.good_stored (State.deviceWrite_memoryGood hs _ _ _ _ _ _ _ _) _
        · split
          · exact hs
          · split
            · next h =>
              have put := State.llcWrite_memoryGood (memoryGood_of_fst (State.llcRead_memoryGood flushed _ _) h) a.entry.asid a.colour
                r.address
              split
              · exact put _
              · exact put _
            · next h => exact memoryGood_of_fst (State.llcRead_memoryGood flushed _ _) h
        · split
          · next h =>
            have read := memoryGood_of_fst (State.llcRead_memoryGood flushed _ _) h
            have added {c : Prop} [Decidable c] (bs : List Byte) (l : List MemRequest) (g : MemRequest → List Byte) :=
              memoryGood_ite (c := c) (State.llcWrite_memoryGood read a.entry.asid a.colour r.address bs)
                (foldl_memoryGood (fun t (c : MemRequest) ht =>
                  State.llcWrite_memoryGood ht a.entry.asid a.colour c.address (g c)) l read)
            exact Performed.good_ite (added _ _ _) (Performed.good_ite (added _ _ _) (added _ _ _))
          · next h => exact memoryGood_of_fst (State.llcRead_memoryGood flushed _ _) h
        · exact hs

theorem State.meetLate_memoryGood (a : Activation) (el : Nat) (r : MemRequest) (i : FaultInfo) : (s.meetLate a el r i).memoryGood := by
  unfold State.meetLate
  dsimp only
  split
  · exact hs
  · next ha => exact State.keepActivation_memoryGood hs ha rfl

theorem State.deliverLate_memoryGood {colour : Nat} {t : State} (h : s.deliverLate colour = some t) : t.memoryGood := by
  unfold State.deliverLate at h
  split at h
  · cases h
  · split at h
    · cases h
    · split at h
      · cases h
      · cases h
        refine State.mapActivation_memoryGood (State.report_memoryGood ?_ _ _) colour fun _ ha => ha
        exact State.keepTiles_memoryGood (State.putElements_memoryGood _ hs) _ fun _ _ => ⟨rfl, rfl⟩

theorem State.addReply_memoryGood (el : Nat) (r : MemRequest) (bs : List Byte) : (s.addReply el r bs).memoryGood := by
  unfold State.addReply
  split <;> exact hs

theorem State.defer_memoryGood (el : Nat) (rs : List MemRequest) : (s.defer el rs).memoryGood := by
  unfold State.defer
  exact foldl_memoryGood (fun _ _ ht => State.mapMemory_memoryGood ht ht.1) rs hs

theorem State.addAddition_memoryGood (e : EyeletAddition) : (s.addAddition e).memoryGood := hs

theorem State.failRequest_memoryGood (a : Activation) (el : Nat) (r : MemRequest) (i : FaultInfo) :
    (s.failRequest a el r i).memoryGood := State.meetLate_memoryGood (State.putElement_memoryGood hs _ _) a el r i

theorem State.perform_memoryGood {a : Activation} {el : Nat} {r : MemRequest} {t : State} (h : s.perform a el r = some t) :
    t.memoryGood := by
  have released := memoryGood_ite (c := 1 ≤ r.scope) (State.releaseWriter_memoryGood hs a.memTiles el) hs
  unfold State.perform at h
  dsimp only at h
  split at h
  · split at h
    · cases h
      exact State.addReply_memoryGood released el r []
    · cases h
  · split at h
    · cases h
      exact State.addAddition_memoryGood released _
    · cases h
  · have good : Performed.Good (if r.scratch then performScratch s a el r else performDevice s a el r) := by
      split
      · exact performScratch_good hs a el r
      · exact performDevice_good hs a el r
    split at h
    · next he =>
      rw [he] at good
      cases h
      exact State.addReply_memoryGood good el r _
    · next he =>
      rw [he] at good
      cases h
      exact State.defer_memoryGood good el _
    · cases h
    · next he =>
      rw [he] at good
      cases h
      exact State.failRequest_memoryGood good a el r _

theorem execMemoryRequestPerform_endsGood (el mport : Nat) : (execMemoryRequestPerform el mport s).EndsGood := by
  unfold execMemoryRequestPerform
  split
  · split
    · exact endsGood_fault _
    · refine endsGood_ite (occursIf_endsGood fun t ht => ?_) (endsGood_fault _)
      exact State.perform_memoryGood (State.takeFromSink_memoryGood (State.putElement_memoryGood hs _ _) _ _) ht
  · split
    · exact occursIf_endsGood fun t ht => State.deliverLate_memoryGood hs ht
    · exact endsGood_fault _

theorem execReplyArrival_endsGood (el mport : Nat) : (execReplyArrival el mport s).EndsGood := by
  unfold execReplyArrival
  dsimp only
  split
  · exact endsGood_fault _
  · split
    · exact endsGood_fault _
    · exact endsGood_next hs

theorem execFullEmptyWake_endsGood (request : Nat) : (execFullEmptyWake request s).EndsGood := by
  unfold execFullEmptyWake
  split
  · exact endsGood_fault _
  · split
    · exact endsGood_fault _
    · refine endsGood_ite (endsGood_fault _) ?_
      split
      · exact endsGood_fault _
      · refine occursIf_endsGood fun t ht => State.perform_memoryGood ?_ ht
        exact hs

omit hs in
/-- A request that is translated again goes on, or fails. -/
theorem retranslated_endsGood (el : Nat) (r : MemRequest) {put : MemRequest → State} {out : State}
    (hp : ∀ r', (put r').memoryGood) (ho : out.memoryGood) :
    Result.EndsGood (match s.activation r.colour.toNat with
      | none => .fault .notEnabled
      | some a => match s.retranslate a r with
        | .ok r' => .next (put r')
        | .error f => .next (out.failRequest a el r f)) := by
  split
  · exact endsGood_fault _
  · split
    · exact endsGood_next (hp _)
    · exact endsGood_next (State.failRequest_memoryGood ho _ _ _ _)

theorem execRetranslation_endsGood (el mport : Nat) : (execRetranslation el mport s).EndsGood := by
  unfold execRetranslation
  dsimp only
  split
  · exact retranslated_endsGood el _ (fun _ => hs) hs
  · exact retranslated_endsGood el _ (fun _ => hs) hs
  · exact retranslated_endsGood el _ (fun _ => hs) hs
  · split
    · exact occursIf_endsGood fun t ht => State.deliverLate_memoryGood hs ht
    · exact endsGood_fault _

/-! ## Eyelets -/

theorem State.readEyelet_memoryGood (scratchTile : Option Nat) (address : Nat) : (s.readEyelet scratchTile address).1.memoryGood := by
  unfold State.readEyelet
  split
  · exact hs
  · exact State.llcRead_memoryGood hs _ _

theorem State.writeEyelet_memoryGood (scratchTile : Option Nat) (asid address : Nat) (e : EyeletWords) :
    (s.writeEyelet scratchTile asid address e).memoryGood := by
  unfold State.writeEyelet
  split
  · next t => exact State.putSram_memoryGood hs t (Mem.writeBytes_wf (State.tile_memoryGood hs t).1 _ _) rfl
  · exact State.llcPut_memoryGood hs _ _ _

theorem State.flushEyelet_memoryGood (colour : Nat) (scratchTile : Option Nat) (address : Nat) :
    (s.flushEyelet colour scratchTile address).memoryGood := by
  unfold State.flushEyelet
  split
  · exact foldl_memoryGood (fun _ _ ht => State.flushRange_memoryGood ht _ _ _) _ hs
  · exact hs

theorem State.holdLate_memoryGood (q : SeqId) (e : StepEffect) (place word : Nat) (i : FaultInfo) :
    (s.holdLate q e place word i).memoryGood := by
  unfold State.holdLate
  split
  · exact hs
  · split
    · exact State.putSequencer_memoryGood (State.meetEntries_memoryGood hs _) _ _
    · dsimp only
      split
      · exact State.report_memoryGood hs _ _
      · exact State.putSequencer_memoryGood (State.report_memoryGood hs _ _) _ _

theorem State.stopChain_memoryGood (c : ChainId) (place : Nat) (i : FaultInfo) : (s.stopChain c place i).memoryGood := by
  unfold State.stopChain
  split
  · exact hs
  · refine memoryGood_ite ?_ (State.cancelActivation_memoryGood ?_ _ _)
    · exact State.report_memoryGood hs _ _
    · exact State.report_memoryGood hs _ _

theorem State.failAddition_memoryGood (e : EyeletAddition) (i : FaultInfo) : (s.failAddition e i).memoryGood := by
  unfold State.failAddition
  split
  · split
    · exact hs
    · exact State.failRequest_memoryGood hs _ _ _ _
  · exact State.holdLate_memoryGood hs _ _ _ _ _
  · exact State.stopChain_memoryGood hs _ _ _
  · exact State.cancelActivation_memoryGood (State.report_memoryGood hs _ _) _ _

theorem execEyeletAddition_endsGood (addition : Nat) : (execEyeletAddition addition s).EndsGood := by
  unfold execEyeletAddition
  split
  · exact endsGood_fault _
  · next e _ =>
    refine endsGood_ite (endsGood_fault _) ?_
    have taken : (s.mapMemory fun m => { m with additions := m.additions.drop addition }).memoryGood := hs
    generalize s.mapMemory (fun m => { m with additions := m.additions.drop addition }) = t at taken ⊢
    have fails {u : State} (hu : u.memoryGood) (i : FaultInfo) (c : Bool) : (occurs c (u.failAddition e i)).EndsGood :=
      occurs_endsGood (State.failAddition_memoryGood hu e i) c
    dsimp only
    split
    · exact fails taken _ _
    · have flushed := State.flushEyelet_memoryGood taken e.colour e.scratchTile e.address
      split
      · next h => exact fails (memoryGood_of_fst (State.readEyelet_memoryGood flushed _ _) h) _ _
      · next h =>
        have read := memoryGood_of_fst (State.readEyelet_memoryGood flushed _ _) h
        refine endsGood_ite (fails read _ _) ?_
        have put := State.writeEyelet_memoryGood read e.scratchTile e.asid e.address
        refine endsGood_ite (fails (put _) _ _) (endsGood_next ?_)
        have noted (w : EyeletWords) {c : Prop} [Decidable c] (keys : List Nat) :=
          memoryGood_ite (c := c) (put w) (State.mapMemory_memoryGood (f := fun m => { m with advanced := keys }) (put w) (put w).1)
        split
        · exact State.addReply_memoryGood (noted _ _) _ _ _
        · exact noted _ _

/-! ## Banks -/

omit hs in
theorem freshBank_wf (s : State) (tile bank : Nat) {m : Mem} (hm : m.wf = true) : (freshBank s tile bank m).wf = true := by
  unfold freshBank
  generalize List.range 65536 = l
  have cleared := Mem.clear_wf hm (65536 * bank) 65536
  generalize m.clear (65536 * bank) 65536 = c at cleared
  induction l generalizing c with
  | nil => exact cleared
  | cons i l ih => exact ih _ (Mem.write_wf cleared _ _)

theorem State.switchBank_memoryGood (tile bank : Nat) (m : BankMode) : (s.switchBank tile bank m).memoryGood := by
  unfold State.switchBank
  refine memoryGood_ite hs ?_
  have left (l : List Sector) (c : Prop) [Decidable c] : (if c then l.foldl (fun s x => dropSector s tile x) s else s).memoryGood :=
    memoryGood_ite (State.dropSectors_memoryGood hs tile l) hs
  have dropped := left ((s.tile tile).cache.filter fun x => x.bank = bank) ((s.tile tile).mode bank = .cache)
  dsimp only
  generalize (if (s.tile tile).mode bank = .cache then _ else s) = t at dropped ⊢
  have good := (State.tile_memoryGood dropped tile).1
  refine State.putSram_memoryGood dropped tile ?_ rfl
  dsimp only
  split
  · exact freshBank_wf t tile bank good
  · exact Mem.clear_wf good _ _

theorem execBankSwitch_endsGood (tile bank : Nat) : (execBankSwitch tile bank s).EndsGood := by
  unfold execBankSwitch
  split
  · exact endsGood_fault _
  · refine endsGood_ite (endsGood_fault _) (endsGood_next ?_)
    exact State.keepTile_memoryGood (State.switchBank_memoryGood hs _ _ _) tile rfl rfl

/-! ## Loading a configuration -/

theorem State.meetNests_memoryGood (a : Activation) (ns : List Nest) : (s.meetNests a ns).memoryGood := by
  refine foldl_memoryGood (fun _ _ ht => foldl_memoryGood (fun _ _ hu => ?_) _ ht) _ hs
  split
  · exact State.cacheLeaf_memoryGood hu _ _ _
  · exact State.cacheLeaf_memoryGood hu _ _ _
  · exact hu

theorem State.evictResidents_memoryGood (a : Activation) (slots : Nat) : (s.evictResidents a slots).memoryGood := hs
theorem State.addResident_memoryGood (a : Activation) (image : DWord) (c : LoadedConfig) : (s.addResident a image c).memoryGood := hs

theorem State.install_memoryGood (a : Activation) (image : DWord) (c : LoadedConfig) : (s.install a image c).memoryGood :=
  State.addResident_memoryGood (State.writeContexts_memoryGood (State.evictResidents_memoryGood hs _ _) _ _) _ _ _

theorem State.discardSlots_memoryGood (a : Activation) (slots : Nat) : (s.discardSlots a slots).memoryGood :=
  State.putElements_memoryGood a.elements hs

theorem State.loadFor_memoryGood (a : Activation) (image : DWord) : (s.loadFor a image).1.memoryGood := by
  unfold State.loadFor
  grind [State.loadImage_memoryGood]

theorem execCfgLoad_endsGood (colour : Nat) : (execCfgLoad colour s).EndsGood := by
  unfold execCfgLoad
  split
  · exact endsGood_fault _
  · split
    · exact endsGood_fault _
    · refine endsGood_ite (endsGood_fault _) ?_
      split
      · next h =>
        have loaded := memoryGood_of_fst (State.loadFor_memoryGood hs _ _) h
        refine endsGood_next (State.reportLoad_memoryGood ?_ _ _ _)
        exact State.mapActivation_memoryGood loaded _ fun _ ha => ha
      · next h =>
        have loaded := memoryGood_of_fst (State.loadFor_memoryGood hs _ _) h
        refine endsGood_next (State.mapActivation_memoryGood (State.install_memoryGood ?_ _ _ _) _ fun _ ha => ha)
        have met := State.meetNests_memoryGood loaded
        exact memoryGood_ite (State.discardSlots_memoryGood (met _ _) _ _) (met _ _)

theorem State.sweepTo_memoryGood (a : Activation) (l : PendingLoad) : (s.sweepTo a l).memoryGood := by
  refine State.mapActivation_memoryGood (State.setBanks_memoryGood (State.startStreams_memoryGood (State.bindConfig_memoryGood
    (State.enableConfig_memoryGood (State.writeStores_memoryGood (State.enableConfig_memoryGood hs _ _ _) _ _ _) _ _ _) _ _ _) _ _)
    _ _ ?_) _ fun _ ha => ha
  exact fun _ _ _ _ ht => State.switchBank_memoryGood ht _ _ _

theorem execCommitSweep_endsGood (colour : Nat) : (execCommitSweep colour s).EndsGood := by
  unfold execCommitSweep
  split
  · exact endsGood_fault _
  · split
    · exact endsGood_fault _
    · exact endsGood_ite (endsGood_next (State.sweepTo_memoryGood (State.meetNests_memoryGood hs _ _) _ _)) (endsGood_fault _)

end Sys2Proof.Machine
end
section
/-! SUPPORT. The instructions of a step that command engines, eyelets and tasks keep every memory in its canonical form (16 R257 to R260;
20 R318 to R326; 21 R328 to R343; 25 R398 to R405). -/
namespace Sys2Proof.Machine

variable {s : State} (hs : s.memoryGood)
include hs

/-! ## Engine commands -/

theorem appendAct_endsGood (o : QE) (engine fn : Nat) : (appendAct s o engine fn).EndsGood := inStep_endsGood hs fun _ _ _ _ => hs
theorem appendAux_endsGood (o : QE) (engine fn : Nat) : (appendAux s o engine fn).EndsGood := inStep_endsGood hs fun _ _ _ _ => hs
theorem execWaitseq_endsGood (o : QE) : (execWaitseq o s).EndsGood := inStep_endsGood hs fun _ _ _ _ => hs

theorem State.patchFormat_memoryGood (q : SeqId) (a : Activation) (es : List StepEffect) (va : Nat) :
    (s.patchFormat q a es va).1.memoryGood := by
  unfold State.patchFormat
  split
  · exact State.meetEntries_memoryGood hs _
  · exact readSectors_memoryGood _ _ _ _ _ (State.cacheLeaf_memoryGood hs _ _ _) _ _ _

theorem execTpatch_endsGood (o : QE) : (execTpatch o s).EndsGood := by
  refine inStep_endsGood hs fun q a x r => ?_
  have found := fst_memoryGood_ite (c := o.sC = 0) (r := (s, none)) hs
    (State.patchFormat_memoryGood hs q a r.effects (x.reg o.sA.toNat).toNat)
  split
  next h =>
  have good := memoryGood_of_fst found h
  exact StepResult.good_ite good good

theorem appendStack_endsGood (o : QE) (fn : Nat) : (appendStack s o fn).EndsGood := by
  refine inStep_endsGood hs fun q a x r => ?_
  refine StepResult.good_ite hs ?_
  split <;> exact hs

theorem execChain_endsGood (o : QE) : (execChain o s).EndsGood := by
  refine inStep_endsGood hs fun q a x r => ?_
  refine StepResult.good_ite hs ?_
  have good := readStep_good hs q a r (x.reg o.sA.toNat).toNat 64 64
  split
  · trivial
  · next h =>
    rw [h] at good
    exact good
  · next h =>
    rw [h] at good
    refine StepResult.good_ite good (StepResult.good_ite ?_ good)
    split <;> exact good

theorem appendCollective_endsGood (o : QE) (fn : Nat) : (appendCollective s o fn).EndsGood :=
  inRegionStep_endsGood hs fun _ _ _ _ => StepResult.good_ite hs hs

/-! ## Tasks and eyelets -/

theorem execSpawn_endsGood (o : QA) : (execSpawn o s).EndsGood := by
  refine inStep_endsGood hs fun q a x r => ?_
  have good := readStep_good hs q a r (x.reg o.a.toNat).toNat 64 64
  split
  · exact hs
  · refine StepResult.good_ite hs ?_
    split
    · trivial
    · next h =>
      rw [h] at good
      exact good
    · next h =>
      rw [h] at good
      exact good

theorem execDecl_endsGood (o : QA) : (execDecl o s).EndsGood := by
  refine inRegionStep_endsGood hs fun c a x r => ?_
  dsimp only
  split
  · exact hs
  · exact StepResult.good_ite hs hs

theorem execDone_endsGood (o : QA) : (execDone o s).EndsGood := inStep_endsGood hs fun _ _ _ _ => hs
theorem execCancel_endsGood (o : QA) : (execCancel o s).EndsGood :=
  inRegionStep_endsGood hs fun _ _ _ _ => StepResult.good_ite hs hs
theorem execSplit_endsGood (o : QA) : (execSplit o s).EndsGood := inRegionStep_endsGood hs fun _ _ _ _ => hs
theorem execYield_endsGood (o : QA) : (execYield o s).EndsGood := inRegionStep_endsGood hs fun _ _ _ _ => hs
theorem execSfence_endsGood (o : QI) : (execSfence o s).EndsGood := inStep_endsGood hs fun _ _ _ _ => hs
theorem execPermit_endsGood (o : QA) : (execPermit o s).EndsGood :=
  inRegionStep_endsGood hs fun _ _ _ _ => StepResult.good_ite hs hs
theorem execUnpermit_endsGood (o : QA) : (execUnpermit o s).EndsGood := inRegionStep_endsGood hs fun _ _ _ _ => hs

theorem onEyelet_endsGood (o : QI) (u : RecordUse) {f : State → Nat → Home → Sequencer → StepRun → StepResult}
    (hf : ∀ t, t.memoryGood → ∀ va h x r, (f t va h x r).Good) : (onEyelet s o u f).EndsGood := by
  refine inStep_endsGood hs fun q a x r => ?_
  dsimp only
  split
  · exact hs
  · exact hf _ (State.cacheLeaf_memoryGood hs _ _ _) _ _ _ _

/-! ## The supervisor and debugging -/

theorem inSupervisor_endsGood {f : State → Activation → Sequencer → StepRun → StepResult} (hf : ∀ a x r, (f s a x r).Good) :
    (inSupervisor s f).EndsGood := by
  refine inStep_endsGood hs fun q a x r => StepResult.good_ite hs ?_
  split
  · exact hs
  · exact hf a x r

theorem execTlbinv_endsGood (o : QA) : (execTlbinv o s).EndsGood := inSupervisor_endsGood hs fun _ _ _ => StepResult.good_ite hs hs
theorem execQuar_endsGood (o : QA) : (execQuar o s).EndsGood := inSupervisor_endsGood hs fun _ _ _ => StepResult.good_ite hs hs
theorem execCtxsave_endsGood (o : QA) : (execCtxsave o s).EndsGood := inSupervisor_endsGood hs fun _ _ _ => StepResult.good_ite hs hs
theorem execCtxload_endsGood (o : QA) : (execCtxload o s).EndsGood := inSupervisor_endsGood hs fun _ _ _ => StepResult.good_ite hs hs
theorem execBbnote_endsGood (o : QA) : (execBbnote o s).EndsGood := inSupervisor_endsGood hs fun _ _ _ => hs
theorem execSbrk_endsGood (o : QA) : (execSbrk o s).EndsGood := inStep_endsGood hs fun _ _ _ _ => hs
theorem execStep_endsGood (o : QA) : (execStep o s).EndsGood :=
  inRegionStep_endsGood hs fun _ _ _ _ => StepResult.good_ite hs hs

theorem State.readMonitor_memoryGood (die kind index : Nat) : (s.readMonitor die kind index).1.memoryGood := memoryGood_ite hs hs

theorem execMon_endsGood (o : QA) : (execMon o s).EndsGood :=
  inSupervisor_endsGood hs fun _ _ _ => StepResult.good_ite hs (State.readMonitor_memoryGood hs _ _ _)

theorem execIllegalInstruction_endsGood (q : SeqId) : (execIllegalInstruction q s).EndsGood := by
  unfold execIllegalInstruction
  split
  · exact endsGood_ite (endsGood_next (takeStepException_memoryGood hs q _)) (endsGood_fault _)
  · exact endsGood_fault _

end Sys2Proof.Machine
end
section
/-! SUPPORT. What the effects of a step do as they are released keeps every memory in its canonical form (13 R199, R214; 16 R257; 21 R328
to R343; 25 R398 to R405). -/
namespace Sys2Proof.Machine

variable {s : State} (hs : s.memoryGood)
include hs

theorem State.seqActivation_frameGood {q : SeqId} {a : Activation} (ha : s.seqActivation q = some a) : FrameGood a.frame := by
  cases q with
  | region c => exact State.activation_frameGood hs ha
  | stream t => exact State.activationAt_frameGood hs ha

theorem State.setSeqReg_memoryGood (q : SeqId) (d : Nat) (v : DWord) : (s.setSeqReg q d v).memoryGood := by
  unfold State.setSeqReg
  split
  · exact State.putSequencer_memoryGood hs _ _
  · exact hs

theorem State.performAt_memoryGood {q : SeqId} {a : Activation} {place : Nat} {e : StepEffect} {t : State}
    (h : s.performAt q a place e = some t) : t.memoryGood := by
  unfold State.performAt at h
  dsimp only at h
  split at h
  · split at h
    · cases h
      exact State.holdLate_memoryGood hs _ _ _ _ _
    · split at h
      · next he =>
        cases h
        exact memoryGood_of_fst (State.deviceWrite_memoryGood hs _ _ _ _ _ _ _ _) he
      · next he =>
        cases h
        exact State.holdLate_memoryGood (memoryGood_of_fst (State.deviceWrite_memoryGood hs _ _ _ _ _ _ _ _) he) _ _ _ _ _
  · split at h
    · cases h
      exact State.holdLate_memoryGood hs _ _ _ _ _
    · split at h
      · cases h
      · split at h
        · next he =>
          have put := State.llcWrite_memoryGood (memoryGood_of_fst (State.llcRead_memoryGood
            (State.flushRange_memoryGood hs _ _ _) _ _) he)
          cases h
          exact memoryGood_ite (State.holdLate_memoryGood (put _ _ _ _) _ _ _ _ _) (State.setSeqReg_memoryGood (put _ _ _ _) _ _ _)
        · next he =>
          cases h
          exact State.holdLate_memoryGood (memoryGood_of_fst (State.llcRead_memoryGood
            (State.flushRange_memoryGood hs _ _ _) _ _) he) _ _ _ _ _
  · split at h
    · cases h
      exact State.holdLate_memoryGood hs _ _ _ _ _
    · split at h
      · split at h
        · next he =>
          cases h
          exact State.holdLate_memoryGood (memoryGood_of_fst (State.readEyelet_memoryGood
            (State.flushEyelet_memoryGood hs _ _ _) _ _) he) _ _ _ _ _
        · next he =>
          have put := State.writeEyelet_memoryGood (memoryGood_of_fst (State.readEyelet_memoryGood
            (State.flushEyelet_memoryGood hs _ _ _) _ _) he)
          cases h
          exact memoryGood_ite (State.holdLate_memoryGood (put _ _ _ _) _ _ _ _ _) (put _ _ _ _)
      · split at h
        · cases h
          exact State.addAddition_memoryGood (State.releaseWriter_memoryGood hs _ _) _
        · cases h
  · cases h
    exact hs

/-- An access that is tried again, once its address translates again. -/
theorem State.performedAgain_memoryGood {q : SeqId} {a : Activation} {place va word : Nat} {e : StepEffect} {put : Home → StepEffect}
    {t : State} (h : (match s.reach a e.use va with
      | .error f => some (s.holdLate q e place word f)
      | .ok l => (s.cacheLeaf a.entry.asid va l).performAt q a place (put l.home)) = some t) : t.memoryGood := by
  split at h
  · cases h
    exact State.holdLate_memoryGood hs _ _ _ _ _
  · exact State.performAt_memoryGood (State.cacheLeaf_memoryGood hs _ _ _) h

theorem State.retryAccess_memoryGood {q : SeqId} {a : Activation} {place : Nat} {e : StepEffect} {t : State}
    (h : s.retryAccess q a place e = some t) : t.memoryGood := by
  unfold State.retryAccess at h
  dsimp only at h
  split at h
  · next va _ n v word => exact State.performedAgain_memoryGood hs (put := fun h => .store va h n v word) h
  · next va _ op d v word => exact State.performedAgain_memoryGood hs (put := fun h => .atom va h op d v word) h
  · next va _ sets g word => exact State.performedAgain_memoryGood hs (put := fun h => .eyelet va h sets g word) h
  · cases h
    exact hs

theorem State.performAccess_memoryGood {q : SeqId} {a : Activation} {place : Nat} {e : StepEffect} {t : State}
    (h : s.performAccess q a place e = some t) : t.memoryGood := by
  unfold State.performAccess at h
  split at h
  · exact State.retryAccess_memoryGood hs h
  · exact State.performAt_memoryGood hs h

theorem State.putChain_memoryGood (c : Chain) : (s.putChain c).memoryGood := hs
theorem State.putStack_memoryGood (asid : Nat) (l : List StackEntry) : (s.putStack asid l).memoryGood := hs

theorem State.appendCommand_memoryGood {a : Activation} {tile : Nat} {r : CommandRecord} {t : State}
    (h : s.appendCommand a tile r = some t) : t.memoryGood := by
  unfold State.appendCommand at h
  dsimp only at h
  split at h
  · cases h
  · cases h
    exact hs

theorem State.releaseDropped_memoryGood (a : Activation) (old : RegionRecord) (new : Option RegionRecord) :
    (s.releaseDropped a old new).memoryGood := by
  refine foldl_memoryGood (fun _ _ ht => foldl_memoryGood (fun _ _ hu => memoryGood_ite hu ?_) _ ht) _ hs
  exact State.keepTile_memoryGood (writeMasked_memoryGood hu _) _ rfl rfl

omit hs in
theorem FrameGood.map {o : Option SavedFrame} (h : FrameGood o) {f : SavedFrame → SavedFrame}
    (hf : ∀ x, TilesGood x.tiles → TilesGood (f x).tiles) : FrameGood (o.map f) := by
  cases o with
  | none => exact FrameGood.none
  | some x => exact (frameGood_some _).2 (hf x ((frameGood_some x).1 h))

theorem State.holdRequests_memoryGood (covers : Nat → Nat → Bool) : (s.holdRequests covers).memoryGood := by
  refine ⟨hs.1, TilesGood.map hs.2.1 fun _ => ⟨rfl, rfl⟩, FramesGood.map hs.2.2 fun _ h => FrameGood.map h fun _ hx => ?_⟩
  exact TilesGood.map hx fun _ => ⟨rfl, rfl⟩

theorem State.invalidate_memoryGood (kind address target : Nat) : (s.invalidate kind address target).memoryGood :=
  State.holdRequests_memoryGood hs _

theorem State.beginSave_memoryGood (asid : Nat) : (s.beginSave asid).memoryGood := by
  obtain ⟨mem, tiles, frames⟩ := State.sendWelt_memoryGood (State.setEnabled_memoryGood hs asid false)
    ((s.setEnabled asid false).links.flatMap fun p => (p.2.commands.filter fun c => c.asid = asid).flatMap abortsOf)
  refine ⟨mem, tiles, FramesGood.map frames fun p hp => ?_⟩
  split <;> exact hp

theorem State.loadContext_memoryGood (asid : Nat) : (s.loadContext asid).memoryGood :=
  State.mapSched_memoryGood (State.setEnabled_memoryGood (State.meetDesc_memoryGood hs asid) asid true) _

theorem State.stepModeSet_memoryGood (issuer mode record : Nat) : (s.stepModeSet issuer mode record).memoryGood := by
  unfold State.stepModeSet
  refine memoryGood_ite hs (foldl_memoryGood (fun t a ht => memoryGood_ite (State.closeGrant_memoryGood ?_ _) ?_) _ hs)
  · exact State.mapActivation_memoryGood (State.putElements_memoryGood a.elements ht) _ fun _ ha => ha
  · exact State.mapActivation_memoryGood ht _ fun _ ha => ha

theorem State.appendRead_memoryGood (a : Activation) (va n : Nat) : (s.appendRead a va n).1.memoryGood := by
  have read := State.readBytes_memoryGood (State.releaseRange_memoryGood hs a va n) a.entry.asid .read false va n
  unfold State.appendRead
  split
  · next h => exact memoryGood_of_fst read h
  · next h => exact memoryGood_of_fst read h

/-- A command is noted in a link's chain and in its activation. -/
theorem State.noteAppend_memoryGood {c : Nat} {a : Activation} (ha : s.activation c = some a) (links : Tab LinkChain)
    (appends : Tab Nat) : ({ s with links := links }.putActivation { a with linkAppends := appends }).memoryGood :=
  State.keepActivation_memoryGood hs ha rfl

theorem State.appendCollective_allGood (a : Activation) (fn : Nat) (r : CommandRecord) :
    AllGood (s.appendCollective a fn r) := by
  have first := State.appendRead_memoryGood hs a r.parameter.toNat 64
  unfold State.appendCollective
  generalize s.appendRead a r.parameter.toNat 64 = b at first ⊢
  have second (va n : Nat) {c : Prop} [Decidable c] : (if c then b.1.appendRead a va n else (b.1, none)).1.memoryGood :=
    fst_memoryGood_ite (State.appendRead_memoryGood first a va n) (memoryGood_pair first none)
  refine allGood_ite allGood_none ?_
  dsimp only
  split
  · exact allGood_none
  · next ha => exact allGood_some (State.noteAppend_memoryGood (second _ _) ha _ _)

theorem State.extentsOf_memoryGood (asid : Nat) (n : Nest) (isPush : Bool) : (s.extentsOf asid n isPush).1.memoryGood := by
  refine foldl_fst_memoryGood (fun r p hr => ?_) _ hs
  split
  · exact hr
  · dsimp only
    split
    · exact hr
    · exact State.cacheLeaf_memoryGood hr _ _ _

theorem State.startStream_memoryGood (q : SeqId) (a : Activation) (isPush : Bool) (ag : Nat) (chan : BitVec 5) (ctx : BitVec 3) :
    (s.startStream q a isPush ag chan ctx).memoryGood := by
  unfold State.startStream
  dsimp only
  split
  · exact hs
  · next n _ =>
    have extents := fst_memoryGood_ite (c := n.space = .memory) (q := (s, .ok []))
      (State.extentsOf_memoryGood hs a.entry.asid n isPush) hs
    refine memoryGood_ite ?_ (State.mapActivation_memoryGood ?_ _ fun _ ha => ha)
    · exact State.keepTile_memoryGood extents _ rfl rfl
    · exact State.keepTile_memoryGood extents _ rfl rfl

theorem State.holdStream_memoryGood (a : Activation) (tile i : Nat) (st : Stream) (f : FaultInfo) :
    (s.holdStream a tile i st f).memoryGood :=
  State.keepTile_memoryGood (State.report_memoryGood hs (s.streamSite a tile st) f) tile rfl rfl

theorem State.repatch_memoryGood (a : Activation) (tile i : Nat) (st : Stream) : (s.repatch a tile i st).1.memoryGood := by
  have extents := State.extentsOf_memoryGood hs a.entry.asid st.nest st.isPush
  unfold State.repatch
  split
  · exact hs
  · split
    · next h => exact State.holdStream_memoryGood (memoryGood_of_fst extents h) _ _ _ _ _
    · next h => exact State.keepTile_memoryGood (memoryGood_of_fst extents h) _ rfl rfl

theorem State.repatchAll_memoryGood : s.repatchAll.memoryGood := by
  refine foldl_memoryGood (fun _ _ ht => foldl_memoryGood (fun u i hu => ?_) _ ht) _ hs
  split
  · exact hu
  · split
    · exact memoryGood_ite (State.repatch_memoryGood hu _ _ _ _) hu
    · exact hu

theorem State.setBase_memoryGood (tile ag : Nat) (base : DWord) : (s.setBase tile ag base).memoryGood := by
  unfold State.setBase
  dsimp only
  split
  · exact State.keepTile_memoryGood hs tile rfl rfl
  · exact hs

theorem State.setDepth_memoryGood (el port d : Nat) : (s.setDepth el port d).memoryGood := hs

theorem State.startSwitch_memoryGood (tile bank : Nat) (m : BankMode) : (s.startSwitch tile bank m).memoryGood :=
  memoryGood_ite hs (State.keepTile_memoryGood hs tile rfl rfl)

end Sys2Proof.Machine
end
section
/-! SUPPORT. The release of a step's effects and the events of sequencers keep every memory in its canonical form (13 R199 to R220). -/
namespace Sys2Proof.Machine

variable {s : State} (hs : s.memoryGood)
include hs

/-! ## Release -/

omit hs in
/-- What the release of an effect leaves keeps the memories. -/
def Released.Good : Released → Prop
  | .done s | .stays s _ => s.memoryGood
  | .waits => True

omit hs in
theorem Released.good_ite {c : Prop} [Decidable c] {r q : Released} (hr : r.Good) (hq : q.Good) :
    Released.Good (if c then r else q) := by
  split
  · exact hr
  · exact hq

omit hs in
/-- An effect that is done, or waits. -/
theorem Released.good_orWaits {o : Option State} : AllGood o → Released.Good (match o with
    | some s => .done s
    | none => .waits) := by
  cases o with
  | none => exact fun _ => trivial
  | some t => exact fun h => h t rfl

theorem State.releaseSplit_good {a : Activation} (ha : FrameGood a.frame) (q : SeqId) (d k : Nat) :
    Released.Good (.done ((s.splitAt a k).1.setSeqReg q d (BitVec.ofNat 64 (s.splitAt a k).2))) :=
  State.setSeqReg_memoryGood (State.splitAt_memoryGood hs ha k) _ _ _

theorem State.releaseCommit_good {a : Activation} (ha : FrameGood a.frame) (e : StepEffect) : Released.Good (match a.load with
    | none => .done (s.putActivation { a with sweep := false })
    | some l =>
      if l.phase = .failed then .done (s.putActivation { a with sweep := false })
      else if a.sweep then .waits
      else .stays (s.putActivation { a with sweep := true }) e) := by
  have put (on : Bool) : (s.putActivation { a with sweep := on }).memoryGood := State.keepFrame_memoryGood hs ha rfl
  split
  · exact put false
  · exact Released.good_ite (put false) (Released.good_ite trivial (put true))

theorem State.releaseSave_good (q : SeqId) (d : Nat) (asid : Nat) (saving : Option (List Nat)) : Released.Good (match saving with
    | none =>
      let s := s.meetDesc asid
      if s.descField asid 0x20 8 < s.saveNeed asid then .done (s.setSeqReg q d (BitVec.ofInt 64 (-1)))
      else .stays (s.beginSave asid) (.ctxsave d asid (some ((s.runningOf asid).map (·.colour))))
    | some colours =>
      let r := s.saving colours
      if r.1.isEmpty then .done (s.setSeqReg q d (BitVec.ofNat 64 r.2)) else .waits) := by
  have met := State.meetDesc_memoryGood hs asid
  split
  · exact Released.good_ite (State.setSeqReg_memoryGood met _ _ _) (State.beginSave_memoryGood met _)
  · exact Released.good_ite (State.setSeqReg_memoryGood hs _ _ _) trivial

theorem State.releaseEffect_good {a : Activation} (ha : FrameGood a.frame) (q : SeqId) (place : Nat) (e : StepEffect) :
    (s.releaseEffect q a place e).Good := by
  have put {b : Activation} (hb : b.frame = a.frame) : (s.putActivation b).memoryGood := State.keepFrame_memoryGood hs ha hb
  cases e with
  | store va h n v word => exact Released.good_orWaits fun _ h => State.performAccess_memoryGood hs h
  | atom va h op d v word => exact Released.good_orWaits fun _ h => State.performAccess_memoryGood hs h
  | eyelet va h sets g word => exact Released.good_orWaits fun _ h => State.performAccess_memoryGood hs h
  | append r word => exact Released.good_orWaits fun _ h => State.appendCommand_memoryGood hs h
  | collective fn r =>
    rw [State.releaseEffect]
    cases h : s.appendCollective a fn r with
    | none => trivial
    | some t => exact State.appendCollective_allGood hs a fn r t h
  | agset ag base word => exact State.setBase_memoryGood hs _ _ _
  | push ag chan ctx word => exact State.startStream_memoryGood hs _ _ _ _ _ _
  | accept ag chan word => exact State.startStream_memoryGood hs _ _ _ _ _ _
  | run mport count chan ctx word =>
    exact State.mapActivation_memoryGood (State.meetNests_memoryGood hs a _) a.colour fun _ h => h
  | cfg image discard word => exact Released.good_ite trivial (put rfl)
  | commit word => exact State.releaseCommit_good hs ha _
  | depth el port d word => exact State.setDepth_memoryGood hs _ _ _
  | bank t b m word => exact State.startSwitch_memoryGood hs _ _ _
  | spawn record va word => exact Released.good_ite trivial (State.spawnRecord_memoryGood hs _ _)
  | decl i base ext =>
    refine Released.good_ite trivial ?_
    split
    · exact hs
    · exact State.mapActivation_memoryGood (State.releaseDropped_memoryGood hs _ _ _) _ fun _ h => h
  | cancel level id => exact State.cancelId_memoryGood hs _ _ _ _ _
  | split d k => exact Released.good_ite (State.releaseSplit_good hs ha q d _) trivial
  | yield => exact memoryGood_ite (put rfl) hs
  | sfence scope => exact Released.good_ite (memoryGood_ite (State.releaseWriter_memoryGood hs _ _) hs) trivial
  | permit c => exact Released.good_ite (put rfl) (Released.good_ite trivial (put rfl))
  | unpermit => exact put rfl
  | tlbinv kind address target =>
    exact Released.good_ite (State.invalidate_memoryGood hs _ _ _) (State.invalidate_memoryGood hs _ _ _)
  | untilAdded ids => exact Released.good_ite (State.repatchAll_memoryGood hs) (Released.good_ite trivial hs)
  | mon d v => exact State.setSeqReg_memoryGood hs _ _ _
  | quar d el sets => exact State.setSeqReg_memoryGood (State.setQuarantine_memoryGood hs _ _) _ _ _
  | ctxsave d asid saving => exact State.releaseSave_good hs q d asid saving
  | ctxload d asid => exact State.setSeqReg_memoryGood (State.loadContext_memoryGood hs _) _ _ _
  | bbnote x y => exact State.blackBox_memoryGood hs _ _
  | sbrk code =>
    show State.memoryGood _
    split
    · exact State.putSequencer_memoryGood (State.report_memoryGood hs _ _) _ _
    · exact State.report_memoryGood hs _ _
  | stepMode mode record => exact State.stepModeSet_memoryGood hs _ _ _

omit hs in
theorem State.releaseFrom_memoryGood (q : SeqId) (place : Nat) (es : List StepEffect) :
    ∀ {s : State}, s.memoryGood → ∀ covers : Nat → Bool, (s.releaseFrom q place covers es).1.memoryGood := by
  induction es with
  | nil => exact fun hs _ => hs
  | cons e es ih =>
    intro s hs covers
    unfold State.releaseFrom
    split
    · exact hs
    · next a ha =>
      refine fst_memoryGood_ite hs ?_
      have good := State.releaseEffect_good hs (State.seqActivation_frameGood hs ha) q place (e.hold covers)
      dsimp only
      split
      · next h =>
        rw [h] at good
        exact ih good _
      · next h =>
        rw [h] at good
        exact good
      · exact hs

theorem State.releaseAll_memoryGood (q : SeqId) (place : Nat) (es : List StepEffect) : (s.releaseAll q place es).1.memoryGood :=
  State.releaseFrom_memoryGood q place es hs _

/-! ## The events of sequencers -/

theorem State.observeAll_memoryGood (a : Activation) : (s.observeAll a).memoryGood := State.observe_memoryGood hs _ _

theorem State.endWait_memoryGood (q : SeqId) (x : Sequencer) : (s.endWait q x).memoryGood := State.putSequencer_memoryGood hs _ _

theorem State.holdWait_memoryGood (q : SeqId) (x : Sequencer) (i : FaultInfo) : (s.holdWait q x i).memoryGood :=
  State.putSequencer_memoryGood (State.report_memoryGood hs _ _) _ _

/-- A wait that ends as its sequencer now stands. -/
theorem State.endsWait_endsGood (q : SeqId) : Result.EndsGood (match s.sequencer q with
    | some x => .next (s.endWait q x)
    | none => .fault .notEnabled) := by
  split
  · exact endsGood_next (State.endWait_memoryGood hs _ _)
  · exact endsGood_fault _

theorem execWaitSatisfied_endsGood (q : SeqId) : (execWaitSatisfied q s).EndsGood := by
  unfold execWaitSatisfied
  split
  · next a x _ _ =>
    refine endsGood_ite (endsGood_fault _) ?_
    split
    · exact endsGood_fault _
    · exact occurs_endsGood (State.endWait_memoryGood hs q x) _
    · exact endsGood_ite (State.endsWait_endsGood (memoryGood_ite (State.observeAll_memoryGood hs a) hs) q) (endsGood_fault _)
    · next va g _ =>
      split
      · exact endsGood_next (State.holdWait_memoryGood hs q x _)
      · next l _ =>
        have read := State.readEyelet_memoryGood (State.cacheLeaf_memoryGood hs a.entry.asid va.toNat l) none l.pa
        dsimp only
        split
        · next h => exact endsGood_next (State.holdWait_memoryGood (memoryGood_of_fst read h) q x _)
        · next h =>
          have good := memoryGood_of_fst read h
          have put (w : EyeletWords) := State.writeEyelet_memoryGood good none a.entry.asid l.pa w
          exact endsGood_ite (endsGood_next (State.holdWait_memoryGood good q x _)) (endsGood_ite
            (State.endsWait_endsGood (State.observeAll_memoryGood good a) q)
            (occurs_endsGood (memoryGood_ite (State.holdWait_memoryGood (put _) q x _) (put _)) _))
  · exact endsGood_fault _

theorem execStepStart_endsGood (q : SeqId) : (execStepStart q s).EndsGood := by
  unfold execStepStart
  split
  · refine endsGood_ite ?_ (endsGood_fault _)
    have started := State.putSequencer_memoryGood hs q
    refine endsGood_ite (endsGood_next (started _)) ?_
    split
    · next ha => exact endsGood_next (State.keepActivation_memoryGood (started _) ha rfl)
    · exact endsGood_fault _
  · exact endsGood_fault _

theorem State.afterStep_memoryGood (q : SeqId) (e : StepEnd) : (s.afterStep q e).memoryGood := by
  unfold State.afterStep
  split
  · exact hs
  · refine State.closeGrant_memoryGood (memoryGood_ite ?_ hs) _
    split
    · next ha => exact State.keepActivation_memoryGood hs ha rfl
    · exact hs

theorem execStepCommit_endsGood (q : SeqId) : (execStepCommit q s).EndsGood := by
  unfold execStepCommit
  split
  · next a x _ _ =>
    have put (y : Sequencer) := State.putSequencer_memoryGood hs q y
    split
    · split
      · exact occurs_endsGood (State.closeGrant_memoryGood hs _) _
      · exact endsGood_ite (endsGood_fault _) (occursIf_endsGood fun _ h => State.retryAccess_memoryGood (put _) h)
    · split
      · exact occurs_endsGood (put _) _
      · refine endsGood_ite (endsGood_next (put _)) (endsGood_ite (endsGood_fault _) (endsGood_ite
          (endsGood_next (State.stepMismatch_memoryGood hs q a x _)) (endsGood_ite (endsGood_fault _) ?_)))
        dsimp only
        split
        · exact endsGood_next (takeStepException_memoryGood (put _) q _)
        · have released (y : Sequencer) := State.releaseAll_memoryGood (put y) q
          split
          · exact endsGood_next (released _ _ _)
          · exact endsGood_ite (endsGood_next (State.afterStep_memoryGood (State.putSequencer_memoryGood (released _ _ _) _ _) _ _))
              (endsGood_ite (endsGood_next (State.putSequencer_memoryGood (released _ _ _) _ _)) (endsGood_fault _))
  · exact endsGood_fault _

end Sys2Proof.Machine
end
section
/-! SUPPORT. The canonical form of every memory through the stream engines and the engines of the fabric (15 R242; 16 R257 to R276). -/
namespace Sys2Proof.Machine

/-! ## Streams (13 R217 to R225) -/

section
variable {s : State} (hs : s.memoryGood)
include hs

theorem execRunStartTokens_endsGood (colour : Nat) : (execRunStartTokens colour s).EndsGood := by
  unfold execRunStartTokens
  split
  · exact endsGood_fault _
  · next a ha =>
    split
    · exact endsGood_fault _
    · refine endsGood_ite (endsGood_fault _) (endsGood_ite (endsGood_fault _) (endsGood_next ?_))
      exact State.keepFrame_memoryGood (State.emit_memoryGood hs _ _) (State.activation_frameGood hs ha) rfl

theorem State.readNestWord_memoryGood (a : Activation) (tile : Nat) (st : Stream) (m : Nat) :
    (s.readNestWord a tile st m).1.memoryGood := by
  unfold State.readNestWord
  grind [State.deviceRead_memoryGood]

omit hs in
theorem State.readNest_memoryGood (a : Activation) (tile : Nat) (st : Stream) (k : Nat) :
    ∀ {s : State}, s.memoryGood → ∀ m, (s.readNest a tile st m k).1.memoryGood := by
  induction k with
  | zero => exact fun hs _ => hs
  | succ k ih =>
    intro s hs m
    have word := State.readNestWord_memoryGood hs a tile st m
    unfold State.readNest
    grind

theorem execPushStream_endsGood (tile mport : Nat) : (execPushStream tile mport s).EndsGood := by
  unfold execPushStream
  dsimp only
  split
  · exact endsGood_fault _
  · next i _ =>
    split
    · exact endsGood_fault _
    · next st _ =>
      split
      · exact endsGood_fault _
      · next a _ =>
        have patched := State.repatch_memoryGood hs a tile i st
        refine endsGood_ite (endsGood_fault _) ?_
        split
        · next h => exact endsGood_next (memoryGood_of_fst patched h)
        · next h =>
          have read (x : Stream) :=
            State.readNest_memoryGood a tile x (min 64 (st.nest.words - st.next)) (memoryGood_of_fst patched h)
          split
          · next h => exact endsGood_next (State.holdStream_memoryGood (memoryGood_of_fst (read _ _) h) a tile i _ _)
          · next h =>
            refine endsGood_next ?_
            exact State.keepTile_memoryGood (State.emit_memoryGood (memoryGood_of_fst (read _ _) h) _ _) tile rfl rfl

theorem State.raiseEvents_memoryGood (colour source events : Nat) : (s.raiseEvents colour source events).memoryGood := by
  unfold State.raiseEvents
  split
  · exact hs
  · next ha => exact State.keepActivation_memoryGood hs ha rfl

theorem State.bankEvents_memoryGood (tile : Nat) (events : Word) : (s.bankEvents tile events).memoryGood :=
  State.keepTile_memoryGood hs tile rfl rfl

theorem State.handBits_memoryGood (tile mport : Nat) : (s.handBits tile mport).memoryGood := by
  unfold State.handBits
  split
  · exact State.bankEvents_memoryGood hs _ _
  · exact hs

/-- A word of the accumulator bank written. -/
theorem State.writeBank_memoryGood (tile at_ n v : Nat) :
    (s.putTile tile { s.tile tile with bank := (s.tile tile).bank.writeNat at_ n v }).memoryGood :=
  State.putBank_memoryGood hs tile rfl (Mem.writeNat_wf (State.tile_memoryGood hs tile).2 _ _ _)

theorem State.bankAdd64_memoryGood (tile at_ v : Nat) : (s.bankAdd64 tile at_ v).memoryGood := by
  unfold State.bankAdd64
  have wrote (r : Nat) := State.writeBank_memoryGood hs tile at_ 8 r
  exact memoryGood_ite (wrote _) (State.bankEvents_memoryGood (wrote _) _ _)

theorem State.bankAdd32_memoryGood (tile at_ : Nat) (float : Bool) (w : Word) : (s.bankAdd32 tile at_ float w).memoryGood := by
  unfold State.bankAdd32
  have wrote (r : Nat) := State.writeBank_memoryGood hs tile at_ 4 r
  exact memoryGood_ite (State.bankEvents_memoryGood (wrote _) _ _)
    (memoryGood_ite (wrote _) (State.bankEvents_memoryGood (wrote _) _ _))

theorem State.acceptWord_memoryGood (a : Activation) (tile : Nat) (st : Stream) (m : Nat) (half : Option Word) (w : Word) :
    (s.acceptWord a tile st m half w).1.memoryGood := by
  unfold State.acceptWord
  grind [State.deviceWrite_memoryGood, State.scratchWriteNat_memoryGood, State.bankAdd32_memoryGood, State.bankAdd64_memoryGood]

omit hs in
theorem State.acceptWords_memoryGood (a : Activation) (tile : Nat) (st : Stream) (ws : List Word) :
    ∀ {s : State}, s.memoryGood → ∀ m half, (s.acceptWords a tile st m half ws).1.memoryGood := by
  induction ws with
  | nil => exact fun hs _ _ => hs
  | cons w ws ih =>
    intro s hs m half
    have word := State.acceptWord_memoryGood hs a tile st m half w
    unfold State.acceptWords
    grind

theorem execAcceptStream_endsGood (tile mport : Nat) : (execAcceptStream tile mport s).EndsGood := by
  unfold execAcceptStream
  dsimp only
  split
  · next i t rest _ _ =>
    split
    · exact endsGood_fault _
    · next st _ =>
      split
      · exact endsGood_fault _
      · next a _ =>
        have patched := State.repatch_memoryGood hs a tile i st
        refine endsGood_ite (endsGood_fault _) (endsGood_ite (endsGood_next ?_) ?_)
        · refine State.report_memoryGood ?_ _ _
          exact State.keepTile_memoryGood hs tile rfl rfl
        split
        · next h => exact endsGood_next (memoryGood_of_fst patched h)
        · next _ st h =>
          have accepted (ws : List Word) :=
            State.acceptWords_memoryGood a tile st ws (memoryGood_of_fst patched h) st.next st.half
          split
          · exact endsGood_next (State.holdStream_memoryGood (accepted _) a tile i st _)
          · refine endsGood_next ?_
            refine State.keepTile_memoryGood ?_ tile rfl rfl
            refine memoryGood_ite (State.handBits_memoryGood ?_ _ _) ?_
            all_goals
              split
              · exact State.bankAdd64_memoryGood (accepted _) _ _ _
              · exact accepted _
  · exact endsGood_fault _

end

/-! ## Work that may fail (16 R260) -/

theorem andThen_memoryGood {α β : Type} {r : Tried α} {f : State → α → Tried β} (hr : r.1.memoryGood)
    (hf : ∀ t a, t.memoryGood → (f t a).1.memoryGood) : (andThen r f).1.memoryGood := by
  obtain ⟨t, e | a⟩ := r
  · exact hr
  · exact hf t a hr

theorem onRow_memoryGood {α : Type} {row : Nat} {r : Tried α} (hr : r.1.memoryGood) : (onRow row r).1.memoryGood := by
  obtain ⟨t, e | a⟩ := r <;> exact hr

section
variable {s : State} (hs : s.memoryGood)
include hs

theorem State.setCommand_memoryGood (id : ChainId) (k : Command) : (s.setCommand id k).memoryGood :=
  State.putChain_memoryGood hs _

omit hs in
theorem State.translatePieces_memoryGood (a : Activation) (engine : Nat) (u : RecordUse) (ps : List (Nat × Nat × Nat)) :
    ∀ {s : State}, s.memoryGood → (s.translatePieces a engine u ps).1.memoryGood := by
  induction ps with
  | nil => exact fun hs => hs
  | cons p ps ih =>
    intro s hs
    obtain ⟨off, va, n⟩ := p
    unfold State.translatePieces
    split
    · exact hs
    · exact andThen_memoryGood (ih (State.cacheLeaf_memoryGood hs _ _ _)) fun _ _ ht => ht

theorem State.engineReach_memoryGood (a : Activation) (engine : Nat) (u : RecordUse) (va n : Nat) :
    (s.engineReach a engine u va n).1.memoryGood :=
  fst_memoryGood_ite (State.translatePieces_memoryGood a engine u _ hs) hs

omit hs in
theorem State.loadPieces_memoryGood (a : Activation) (va : Nat) (ps : List Piece) :
    ∀ {s : State}, s.memoryGood → (s.loadPieces a va ps).1.memoryGood := by
  induction ps with
  | nil => exact fun hs => hs
  | cons p ps ih =>
    intro s hs
    obtain ⟨off, l, n⟩ := p
    have read := State.llcRead_memoryGood (State.engineFlush_memoryGood hs a l.pa n false) l.pa n
    unfold State.loadPieces
    split
    · next h => exact memoryGood_of_fst read h
    · next h => exact andThen_memoryGood (ih (memoryGood_of_fst read h)) fun _ _ ht => ht

theorem State.foldPair_memoryGood (c pa : Nat) (bs : List Byte) : State.memoryGood (match s.activation c with
    | some b => if b.isPair then s.putActivation (foldDigest b pa bs) else s
    | none => s) := by
  split
  · next b hb => exact memoryGood_ite (State.keepActivation_memoryGood hs hb (foldDigest_frame bs b pa)) hs
  · exact hs

theorem State.enginePut_memoryGood (a : Activation) (l : Leaf) (bs : List Byte) : (s.enginePut a l bs).memoryGood := by
  unfold State.enginePut
  have flushed := State.engineFlush_memoryGood (State.foldPair_memoryGood hs a.colour l.pa bs) a l.pa bs.length true
  exact State.llcWrite_memoryGood (memoryGood_ite (State.setFull_memoryGood flushed _ _ _) flushed) _ _ _ _

theorem State.settlePieces_memoryGood (a : Activation) (va : Nat) (ps : List Piece) :
    (s.settlePieces a va ps).1.memoryGood := by
  have settled : (ps.foldl (fun s p => (s.engineFlush a p.2.1.pa p.2.2 true).settle a.entry.asid p.2.1.pa p.2.2) s).memoryGood :=
    foldl_memoryGood (fun _ _ ht => State.settle_memoryGood (State.engineFlush_memoryGood ht _ _ _ _) _ _ _) ps hs
  unfold State.settlePieces
  dsimp only
  split <;> exact memoryGood_ite hs settled

omit hs in
theorem State.putPieces_memoryGood (a : Activation) (va : Nat) (bs : List Byte) (ps : List Piece) :
    ∀ {s : State}, s.memoryGood → (s.putPieces a va bs ps).1.memoryGood := by
  induction ps with
  | nil => exact fun hs => hs
  | cons p ps ih =>
    intro s hs
    obtain ⟨off, l, n⟩ := p
    have wrote := State.enginePut_memoryGood hs a l ((bs.drop off).take n)
    exact fst_memoryGood_ite wrote (ih wrote)

theorem State.storePieces_memoryGood (a : Activation) (va : Nat) (bs : List Byte) (ps : List Piece) :
    (s.storePieces a va bs ps).1.memoryGood :=
  andThen_memoryGood (State.settlePieces_memoryGood hs a va ps) fun _ _ ht => State.putPieces_memoryGood a va bs ps ht

theorem State.engineRead_memoryGood (a : Activation) (engine va n : Nat) : (s.engineRead a engine va n).1.memoryGood :=
  andThen_memoryGood (State.engineReach_memoryGood hs a engine .read va n) fun _ ps ht => State.loadPieces_memoryGood a va ps ht

theorem State.engineWrite_memoryGood (a : Activation) (engine va : Nat) (bs : List Byte) :
    (s.engineWrite a engine va bs).1.memoryGood :=
  andThen_memoryGood (State.engineReach_memoryGood hs a engine .write va _) fun _ ps ht =>
    State.storePieces_memoryGood ht a va bs ps

theorem State.sideReach_memoryGood (a : Activation) (engine : Nat) (scratch : Bool) (u : RecordUse) (at_ : Int) (n : Nat) :
    (s.sideReach a engine scratch u at_ n).1.memoryGood :=
  fst_memoryGood_ite (fst_memoryGood_ite hs hs) (State.engineReach_memoryGood hs a engine u _ n)

theorem State.sideLoad_memoryGood (a : Activation) (scratch : Bool) (at_ : Int) (n : Nat) (ps : List Piece) :
    (s.sideLoad a scratch at_ n ps).1.memoryGood :=
  fst_memoryGood_ite hs (State.loadPieces_memoryGood a _ ps hs)

theorem State.sideStore_memoryGood (a : Activation) (scratch : Bool) (at_ : Int) (bs : List Byte) (ps : List Piece) :
    (s.sideStore a scratch at_ bs ps).1.memoryGood :=
  fst_memoryGood_ite (State.scratchWrite_memoryGood a bs hs _) (State.storePieces_memoryGood hs a _ bs ps)

theorem State.sideRead_memoryGood (a : Activation) (engine : Nat) (scratch : Bool) (at_ : Int) (n : Nat) :
    (s.sideRead a engine scratch at_ n).1.memoryGood :=
  andThen_memoryGood (State.sideReach_memoryGood hs a engine scratch .read at_ n) fun _ ps ht =>
    State.sideLoad_memoryGood ht a scratch at_ n ps

theorem State.issueOwed_memoryGood (c : ChainId) (place : Nat) : (s.issueOwed c place).memoryGood := by
  unfold State.issueOwed
  split
  · exact hs
  · next k _ =>
    refine memoryGood_ite hs (memoryGood_ite (State.setCommand_memoryGood hs c _) ?_)
    split
    · exact hs
    · next a _ =>
      refine memoryGood_ite (State.stopChain_memoryGood hs c place _) ?_
      split
      · exact State.stopChain_memoryGood hs c place _
      · exact State.addAddition_memoryGood (State.setCommand_memoryGood (State.cacheLeaf_memoryGood hs _ _ _) c _) _

theorem State.engineMismatch_memoryGood (c : ChainId) (k : Command) : (s.engineMismatch c k).memoryGood :=
  State.tileMismatch_memoryGood hs _ _ _ _ _

/-- The step of a command keeps the memories where its work does. -/
theorem onCommand_endsGood (c : ChainId) (place : Nat) {is_ : CommandRecord → Bool}
    {work : State → Activation → Command → Tried Command} (hw : ∀ a k, (work s a k).1.memoryGood) :
    (onCommand c place s is_ work).EndsGood := by
  unfold onCommand
  split
  · exact endsGood_fault _
  · next a k _ =>
    refine endsGood_ite (endsGood_fault _) (endsGood_ite (endsGood_next ?_) ?_)
    · have upset := State.engineMismatch_memoryGood (s := { s with upsets := s.upsets.erase (.engineFiring c) }) hs c k
      exact memoryGood_ite (State.setCommand_memoryGood upset c _) (State.killByColour_memoryGood upset _)
    · have worked := hw a k
      split
      · next h => exact endsGood_next (State.stopChain_memoryGood (memoryGood_of_fst worked h) c place _)
      · next h =>
        have set (k : Command) := State.setCommand_memoryGood (memoryGood_of_fst worked h) c k
        exact endsGood_ite (endsGood_next (set _)) (endsGood_next (State.issueOwed_memoryGood (set _) c place))

/-! ## The click engine and the table engine (12; 16 R265 to R268) -/

theorem startClick_memoryGood (tile : Nat) (k : Command) : (startClick s tile k).1.memoryGood :=
  memoryGood_ite (State.keepTile_memoryGood hs tile rfl rfl) hs

theorem clickStep_memoryGood (a : Activation) (k : Command) : (clickStep s a k).1.memoryGood := by
  unfold clickStep
  refine fst_memoryGood_ite hs (fst_memoryGood_ite hs (fst_memoryGood_ite hs ?_))
  have wrote (bs : List Byte) (at_ : Nat) := State.scratchWrite_memoryGood a bs hs at_
  exact memoryGood_ite (State.scratchWrite_memoryGood a _ (wrote _ _) _) (wrote _ _)

theorem execClickChunk_endsGood (c : ChainId) (place : Nat) : (execClickChunk c place s).EndsGood :=
  onCommand_endsGood hs c place fun a k => clickStep_memoryGood hs a k

theorem State.queueTable_memoryGood (c : ChainId) (el : Nat) (k : Command) (w : TableWriteKind) :
    (s.queueTable c el k w).1.memoryGood := State.putElement_memoryGood hs el _

theorem execTableBuild_endsGood (c : ChainId) (place : Nat) : (execTableBuild c place s).EndsGood := by
  unfold execTableBuild
  refine onCommand_endsGood hs c place fun a k => ?_
  dsimp only
  split
  · exact hs
  · exact fst_memoryGood_ite hs (fst_memoryGood_ite hs (State.queueTable_memoryGood hs c _ k _))

theorem execTablePatch_endsGood (c : ChainId) (place : Nat) : (execTablePatch c place s).EndsGood := by
  unfold execTablePatch
  refine onCommand_endsGood hs c place fun a k => ?_
  dsimp only
  split
  · exact hs
  · exact fst_memoryGood_ite hs (State.queueTable_memoryGood hs c _ k _)

theorem State.tableApplied_memoryGood (w : TableWrite) : (s.tableApplied w).memoryGood := by
  unfold State.tableApplied
  split
  · exact hs
  · exact State.issueOwed_memoryGood (State.setCommand_memoryGood hs _ _) _ _

theorem execTableWriteApply_endsGood (el : Nat) : (execTableWriteApply el s).EndsGood := by
  have put (x : Element) := State.putElement_memoryGood hs el x
  unfold execTableWriteApply
  dsimp only
  split
  · exact endsGood_fault _
  · refine endsGood_ite (endsGood_fault _) ?_
    split
    · split
      · exact endsGood_next (State.tableApplied_memoryGood (put _) _)
      · exact endsGood_ite (endsGood_fault _) (endsGood_ite
          (endsGood_next (State.tableApplied_memoryGood (State.scratchWriteNat_memoryGood (put _) _ _ _ _) _))
          (endsGood_next (State.stopChain_memoryGood (put _) _ _ _)))
    · split
      · exact endsGood_next (State.stopChain_memoryGood (put _) _ _ _)
      · exact endsGood_next (State.tableApplied_memoryGood (put _) _)

theorem execScanPass_endsGood (c : ChainId) (place : Nat) : (execScanPass c place s).EndsGood := by
  unfold execScanPass
  refine onCommand_endsGood hs c place fun a k => fst_memoryGood_ite hs (fst_memoryGood_ite hs ?_)
  exact State.raiseEvents_memoryGood (State.scratchWrite_memoryGood a _ hs _) _ _ _

end

end Sys2Proof.Machine
end
section
/-! SUPPORT. The canonical form of every memory through the events of the schedulers and the end of activations (17; 18 R285 to R301;
19 R306 to R317). -/
namespace Sys2Proof.Machine

/-! ## Placement (18 R289 to R293; 19 R309) -/

section
variable {s : State} (hs : s.memoryGood)
include hs

theorem State.noteTried_memoryGood (tried : List (Entry × Verdict)) : (s.noteTried tried).memoryGood := by
  refine foldl_memoryGood (fun t p ht => ?_) tried hs
  split
  · exact ht
  · exact memoryGood_ite ht ht
  · exact ht

theorem State.vacate_memoryGood (a : Activation) : (s.vacate a).memoryGood := by
  have cleared := foldl_memoryGood (f := fun s e => (s.putElement e (clearElement (s.element e) s.cycle)).settleQuarantine e)
    (fun t e ht => State.settleQuarantine_memoryGood (State.putElement_memoryGood ht e _) e) a.elements hs
  exact State.keepTiles_memoryGood cleared a.memTiles fun _ _ => ⟨rfl, rfl⟩

theorem State.clearTenant_memoryGood (asid tile : Nat) :
    (s.putTile tile (if (s.tile tile).tenant = some asid then s.tile tile
      else { s.tile tile with sram := [], cache := [], tenant := some asid })).memoryGood := by
  have good := State.tile_memoryGood hs tile
  refine State.putTile_memoryGood hs tile ?_
  split
  · exact good
  · exact ⟨rfl, good.2⟩

theorem State.tenant_memoryGood (a : Activation) : (s.tenant a).memoryGood :=
  foldl_memoryGood (fun _ t ht => State.clearTenant_memoryGood ht a.entry.asid t) a.memTiles
    (State.putElements_memoryGood a.elements hs)

theorem State.freshState_memoryGood (a : Activation) (c : LoadedConfig) : (s.freshState a c).memoryGood := by
  unfold State.freshState
  refine foldl_memoryGood (fun u t hu => ?_) a.memTiles (State.putElements_memoryGood c.ctxs (State.putElements_memoryGood _ hs))
  exact State.putBank_memoryGood hu t rfl rfl

theorem State.configFor_memoryGood (a : Activation) (ways : EdgeWays) : (s.configFor a ways).1.memoryGood := by
  unfold State.configFor
  grind [State.loadImage_memoryGood]

theorem State.restartSpillChain_memoryGood (a : Activation) : (s.restartSpillChain a).memoryGood := by
  unfold State.restartSpillChain
  split <;> exact hs

theorem State.enter_memoryGood {a : Activation} (ha : FrameGood a.frame) : (s.enter a).memoryGood := by
  unfold State.enter
  have entered := State.restartSpillChain_memoryGood hs a
  refine State.keepFrame_memoryGood ?_ ha rfl
  exact State.mapSched_memoryGood entered _

/-- The configuration of an activation that is put on its region. -/
theorem State.placeConfig_memoryGood (a : Activation) (c : LoadedConfig) (resident : Bool) (ways : EdgeWays) (foreign : List Nat) :
    (((foreign.foldl (fun s t => s.putTile t { s.tile t with sram := [] }) (((((s.install a a.image c).freshState a
      c).writeStores a c resident).enableConfig a c true).setBanks a c State.switchBank)).bindConfig a c
      ways).startStreams a c).memoryGood := by
  refine State.startStreams_memoryGood (State.bindConfig_memoryGood (foldl_memoryGood (fun u t hu => ?_) foreign
    (State.setBanks_memoryGood ?_ a c fun _ _ _ _ ht => State.switchBank_memoryGood ht _ _ _)) a c ways) a c
  · exact State.putSram_memoryGood hu t rfl rfl
  · exact State.enableConfig_memoryGood (State.writeStores_memoryGood (State.freshState_memoryGood
      (State.install_memoryGood hs a _ c) a c) a c resident) a c true

theorem State.putOn_memoryGood (a : Activation) (ways : EdgeWays) : (s.putOn a ways).memoryGood := by
  have cleared (b : Activation) := State.tenant_memoryGood (State.vacate_memoryGood hs b) b
  have config (b : Activation) := State.configFor_memoryGood
    (memoryGood_ite (c := a.entry.reserved.isNone = true) (State.acquire_memoryGood (cleared b) b) (cleared b)) b ways
  unfold State.putOn
  dsimp only
  split
  · next h =>
    refine State.reportLoad_memoryGood ?_ _ _ _
    exact State.mapActivation_memoryGood (memoryGood_of_fst (config _) h) _ fun _ hf => hf
  · next h =>
    refine State.mapActivation_memoryGood ?_ _ fun _ hf => hf
    exact State.placeConfig_memoryGood (memoryGood_of_fst (config _) h) _ _ _ ways _

theorem State.placeAll_memoryGood {g : List Activation} (hg : ∀ a ∈ g, a.frame = none) (ways : EdgeWays) :
    (s.placeAll g ways).memoryGood := by
  refine foldl_memoryGood (fun _ a ht => State.putOn_memoryGood ht a ways) g ?_
  induction g generalizing s with
  | nil => exact hs
  | cons a g ih =>
    refine ih (State.enter_memoryGood hs ?_) fun b hb => hg b (List.mem_cons_of_mem a hb)
    rw [hg a List.mem_cons_self]
    exact FrameGood.none

theorem State.dropReservation_memoryGood (f : Entry) : (s.dropReservation f).memoryGood := by
  unfold State.dropReservation
  split
  · exact hs
  · exact State.mapSched_memoryGood (State.dropClean_memoryGood hs _ _) _

theorem State.dropReservations_memoryGood (e : Entry) : (s.dropReservations e).memoryGood :=
  foldl_memoryGood (fun _ f ht => State.dropReservation_memoryGood ht f) _ hs

theorem State.takeTurn_memoryGood (die : Nat) (e : Entry) : (s.takeTurn die e).memoryGood := State.mapSched_memoryGood hs _

theorem State.completeUnplaced_memoryGood (e : Entry) (code : Nat) : (s.completeUnplaced e code).memoryGood :=
  State.completeEntry_memoryGood (State.report_memoryGood (State.mapSched_memoryGood hs _) _ _) e code

theorem State.placeRecord_allGood (die : Nat) (e : Entry) (p : Nat × Nat) (shadow : Option (Nat × Nat)) :
    AllGood (s.placeRecord die e p shadow) := by
  have turned := State.dropReservations_memoryGood (State.takeTurn_memoryGood hs die e) e
  unfold State.placeRecord
  dsimp only
  split
  · intro t ht
    obtain ⟨cs, _, hc⟩ := Option.bind_eq_some_iff.1 ht
    obtain ⟨c, _, rfl⟩ := Option.map_eq_some_iff.1 hc
    exact State.placeAll_memoryGood turned (fun a h => List.mem_singleton.1 h ▸ rfl) noWays
  · split
    · refine allGood_some (State.placeAll_memoryGood turned (fun a h => ?_) noWays)
      obtain h | h := List.mem_pair.1 h <;> exact h ▸ rfl
    · exact allGood_none

theorem State.placeGang_allGood (die : Nat) (ps : List Seat) : AllGood (s.placeGang die ps) := by
  unfold State.placeGang
  split
  · exact allGood_none
  · dsimp only
    refine allGood_some (State.placeAll_memoryGood ?_ (fun a h => ?_) _)
    · exact foldl_memoryGood (fun _ m ht =>
        State.dropReservations_memoryGood (State.takeTurn_memoryGood ht die m.entry) m.entry) _ hs
    · obtain ⟨m, _, rfl⟩ := List.mem_map.1 h
      rfl

theorem execRecordFetch_endsGood (asid : Nat) : (execRecordFetch asid s).EndsGood := by
  have met := State.meetDesc_memoryGood hs asid
  unfold execRecordFetch
  refine endsGood_ite (endsGood_fault _) ?_
  dsimp only
  generalize s.meetDesc asid = t at met ⊢
  refine endsGood_ite (endsGood_next met) ?_
  have read := State.readBytes_memoryGood met asid .read false (t.slotVa asid (t.chainHead asid)) 64
  generalize t.readBytes asid .read false (t.slotVa asid (t.chainHead asid)) 64 = r at read ⊢
  have advanced (n v : Nat) (f : Scheduler → Scheduler) : ((r.1.putDesc asid n 4 v).mapSched f).memoryGood :=
    State.mapSched_memoryGood (State.putDesc_memoryGood read asid n 4 v) f
  refine endsGood_ite (endsGood_next read) ?_
  split
  · refine endsGood_next ?_
    split
    · exact State.refuseRecord_memoryGood (advanced _ _ _) _ _ _ _ _
    · exact State.reportRecord_memoryGood (advanced _ _ _) _ _ _ _
  · exact endsGood_next (State.acceptRecord_memoryGood (advanced _ _ _) _ _ _ _ _ _)

theorem execPlacement_endsGood (die : Nat) : (execPlacement die s).EndsGood := by
  unfold execPlacement
  refine endsGood_ite (endsGood_fault _) ?_
  dsimp only
  have noted := State.noteTried_memoryGood hs (s.scanDie die).1
  split
  · exact occursIf_endsGood (State.placeRecord_allGood noted _ _ _ _)
  · exact occurs_endsGood (foldl_memoryGood (fun _ e ht => State.completeUnplaced_memoryGood ht e _) _ noted) _
  · exact endsGood_fault _
  · exact occurs_endsGood noted _

theorem execGangPlacement_endsGood (die entry : Nat) : (execGangPlacement die entry s).EndsGood := by
  unfold execGangPlacement
  dsimp only
  split
  · exact endsGood_ite (endsGood_fault _) (occursIf_endsGood (State.placeGang_allGood (State.noteTried_memoryGood hs _) _ _))
  · exact endsGood_fault _

theorem execSteal_endsGood (die : Nat) : (execSteal die s).EndsGood := by
  unfold execSteal
  refine endsGood_ite (endsGood_fault _) ?_
  split
  · exact occursIf_endsGood (State.placeRecord_allGood hs _ _ _ _)
  · exact occursIf_endsGood (State.placeGang_allGood hs _ _)
  · exact endsGood_fault _

theorem State.mapEntry_memoryGood (id : Nat) (f : Entry → Entry) : (s.mapEntry id f).memoryGood := State.mapSched_memoryGood hs _

theorem execQueueAging_endsGood (entry : Nat) : (execQueueAging entry s).EndsGood := by
  unfold execQueueAging
  split
  · exact endsGood_fault _
  · exact occurs_endsGood (State.mapEntry_memoryGood hs _ _) _

theorem execPlacementStarvation_endsGood (entry : Nat) : (execPlacementStarvation entry s).EndsGood := by
  unfold execPlacementStarvation
  split
  · exact endsGood_fault _
  · exact occurs_endsGood (State.mapEntry_memoryGood hs _ _) _

theorem execColourReturn_endsGood (colour : Nat) : (execColourReturn colour s).EndsGood := by
  unfold execColourReturn
  split
  · exact endsGood_fault _
  · exact occurs_endsGood (State.mapSched_memoryGood hs _) _

theorem execForwardReservation_endsGood (entry : Nat) : (execForwardReservation entry s).EndsGood := by
  unfold execForwardReservation
  split
  · exact endsGood_fault _
  · next e _ =>
    refine endsGood_ite (endsGood_fault _) ?_
    split
    · exact endsGood_fault _
    · next p _ =>
      have config := State.configFor_memoryGood (State.acquire_memoryGood hs (newActivation s e.die e p 0))
        (newActivation s e.die e p 0) noWays
      dsimp only
      split
      · next h => exact occurs_endsGood (memoryGood_of_fst config h) _
      · next h =>
        exact endsGood_next (State.mapEntry_memoryGood (State.install_memoryGood (memoryGood_of_fst config h) _ _ _) _ _)

/-! ## Pre-emption (18 R300, R301) -/

/-- An activation of the table, however it was picked. -/
theorem State.mem_activations_frameGood {a : Activation} (ha : a ∈ s.activations.map (·.2)) : FrameGood a.frame := by
  obtain ⟨p, hp, rfl⟩ := List.mem_map.1 ha
  exact hs.2.2 p hp

/-- Changes of activations that leave their frames as they are. -/
theorem State.keepFrames_memoryGood {f : Activation → Activation} {l : List Activation} (hl : ∀ a ∈ l, FrameGood a.frame)
    (hf : ∀ a, (f a).frame = a.frame) : (l.foldl (fun s a => s.putActivation (f a)) s).memoryGood := by
  induction l generalizing s with
  | nil => exact hs
  | cons a l ih =>
    exact ih (State.keepFrame_memoryGood hs (hl a List.mem_cons_self) (hf a)) fun b hb => hl b (List.mem_cons_of_mem a hb)

theorem execPreemptionTimeout_endsGood (entry : Nat) : (execPreemptionTimeout entry s).EndsGood := by
  unfold execPreemptionTimeout
  split
  · exact endsGood_fault _
  · next e _ =>
    refine endsGood_ite (endsGood_fault _) ?_
    dsimp only
    split
    · exact endsGood_next (State.dropReservation_memoryGood hs _)
    · split
      · exact endsGood_fault _
      · next a _ =>
        refine endsGood_next (State.mapEntry_memoryGood ?_ _ _)
        exact State.keepFrames_memoryGood hs
          (fun b hb => State.mem_activations_frameGood hs (List.mem_of_mem_filter hb)) fun _ => rfl

theorem State.writeSave_memoryGood (asid : Nat) (part : Nat × Nat) : (s.writeSave asid part).memoryGood := by
  have wrote (l : List (Nat × Byte)) (f : Nat × Byte → Nat) {t : State} (ht : t.memoryGood) :
      (l.foldl (fun s w => s.hwWrite (f w) [w.2]) t).memoryGood :=
    foldl_memoryGood (fun _ _ hu => State.hwWrite_memoryGood hu _ _) l ht
  unfold State.writeSave
  dsimp only
  split
  · exact State.deliver_memoryGood (wrote _ _ (State.meetDesc_memoryGood hs asid)) _ _
  · exact wrote _ _ (State.meetDesc_memoryGood hs asid)

/-- The memories of the tiles that a frame saves are those that stand. -/
theorem State.frameOf_tilesGood (a : Activation) : TilesGood (s.frameOf a).tiles := by
  intro p hp
  obtain ⟨t, _, rfl⟩ := List.mem_map.1 hp
  exact State.tile_memoryGood hs t

theorem execPreemptionSave_endsGood (colour : Nat) : (execPreemptionSave colour s).EndsGood := by
  unfold execPreemptionSave
  split
  · exact endsGood_fault _
  · next a _ =>
    split
    · exact endsGood_fault _
    · refine endsGood_ite (endsGood_fault _) ?_
      dsimp only
      have saved (part : Nat × Nat) := State.writeSave_memoryGood (foldl_memoryGood
        (f := fun s t => (s.tile t).cache.foldl (fun s x => dropSector s t x) s)
        (fun _ t ht => State.dropSectors_memoryGood ht t _) a.memTiles hs) a.entry.asid part
      split
      · exact endsGood_fault _
      · next b _ =>
        refine endsGood_ite (endsGood_next (saved _)) (endsGood_next (State.putActivation_memoryGood ?_ ?_))
        · exact State.vacate_memoryGood (saved _) b
        · exact (frameGood_some _).2 (State.frameOf_tilesGood (saved _) b)

theorem State.rebuildTable_memoryGood (a : Activation) (el : Nat) : (s.rebuildTable a el).memoryGood := by
  unfold State.rebuildTable
  dsimp only
  split
  · exact hs
  · exact State.putElement_memoryGood hs el _

theorem State.evictMeeting_memoryGood (r : Rect) : (s.evictMeeting r).memoryGood := State.mapSched_memoryGood hs _

/-- Tiles put back whose memories are good. -/
theorem State.putTiles_memoryGood {ts : Tab MemTile} (hts : TilesGood ts) {n : Nat → Nat} {f : State → Nat × MemTile → MemTile}
    (hf : ∀ s t, (f s t).sram = t.2.sram ∧ (f s t).bank = t.2.bank) :
    (ts.foldl (fun s t => s.putTile (n t.1) (f s t)) s).memoryGood := by
  induction ts generalizing s with
  | nil => exact hs
  | cons t ts ih =>
    refine ih (State.putTile_memoryGood hs _ ?_) fun p hp => hts p (List.mem_cons_of_mem t hp)
    obtain ⟨sram, bank⟩ := hf s t
    rw [MemTile.memoryGood_iff, sram, bank]
    exact hts t List.mem_cons_self

theorem State.withWelt_memoryGood (w : Welt) : ({ s with welt := w } : State).memoryGood := hs

theorem State.withCircuits_memoryGood (c : Tab Circuit) (l : List Chain) :
    ({ s with circuits := c, chains := l } : State).memoryGood := hs

theorem State.restore_memoryGood (g : List Activation) (p : Nat × Nat) {a : Activation} (ha : FrameGood a.frame) :
    (s.restore g p a).memoryGood := by
  unfold State.restore
  split
  · exact hs
  · next f hf =>
    refine State.putActivation_memoryGood (State.addResident_memoryGood (foldl_memoryGood
      (fun _ e ht => State.rebuildTable_memoryGood ht _ e) _ (foldl_memoryGood (fun _ r ht => ?_) f.deferred ?_)) _ _ _) FrameGood.none
    · exact State.mapMemory_memoryGood ht ht.1
    · refine State.withCircuits_memoryGood (State.withWelt_memoryGood ?_ _) _ _
      refine State.putTiles_memoryGood (State.putElements_memoryGood f.elements ?_) (ha f hf) fun _ _ => ⟨rfl, rfl⟩
      exact State.tenant_memoryGood (State.vacate_memoryGood (State.evictMeeting_memoryGood (State.mapSched_memoryGood hs _) _) _) _

/-- The activations that come back together. -/
theorem State.restoreAll_memoryGood (g : List Activation) {l : List (Activation × Nat × Nat)}
    (hl : ∀ m ∈ l, FrameGood m.1.frame) : (l.foldl (fun s m => s.restore g m.2 m.1) s).memoryGood := by
  induction l generalizing s with
  | nil => exact hs
  | cons m l ih =>
    exact ih (State.restore_memoryGood hs g m.2 (hl m List.mem_cons_self)) fun k hk => hl k (List.mem_cons_of_mem m hk)

theorem State.placedAgain_frameGood (at_ : List (Nat × Nat × Nat)) : ∀ m ∈ s.placedAgain at_, FrameGood m.1.frame := by
  intro m hm
  obtain ⟨p, _, hp⟩ := List.mem_filterMap.1 hm
  obtain ⟨a, ha, rfl⟩ := Option.map_eq_some_iff.1 hp
  exact State.activation_frameGood hs ha

theorem execResumption_endsGood (colour : Nat) : (execResumption colour s).EndsGood := by
  unfold execResumption
  split
  · exact endsGood_fault _
  · next a _ =>
    dsimp only
    split
    · next at_ _ =>
      refine endsGood_ite (endsGood_next (State.restoreAll_memoryGood ?_ _ (State.placedAgain_frameGood hs at_))) (endsGood_fault _)
      exact State.takeTurn_memoryGood (State.noteTried_memoryGood hs _) _ _
    · exact endsGood_fault _

/-! ## Permits (26 R418) -/

/-- Of two requests the one that is met first, as the scheduler compares them. -/
def earlierRequest (m : Option Activation) (a : Activation) : Option Activation :=
  match m with
  | none => some a
  | some b =>
    let pa := recordPriority a.entry.record
    let pb := recordPriority b.entry.record
    if pb < pa || (pa = pb && a.askedAt < b.askedAt) then some a else some b

omit hs in
theorem earlierRequest_some {m : Option Activation} {a b : Activation} (h : earlierRequest m a = some b) : b = a ∨ m = some b := by
  unfold earlierRequest at h
  grind

theorem State.nextRequest_frameGood {a : Activation} (h : s.nextRequest = some a) : FrameGood a.frame := by
  suffices pick : ∀ l : List Activation, (∀ b ∈ l, FrameGood b.frame) → ∀ m : Option Activation, (∀ b, m = some b → FrameGood b.frame) →
      ∀ b, l.foldl earlierRequest m = some b → FrameGood b.frame from
    pick _ (fun b hb => State.mem_activations_frameGood hs (List.mem_of_mem_filter hb)) none (fun _ h => nomatch h) a h
  intro l
  induction l with
  | nil => exact fun _ m hm b hb => hm b hb
  | cons c l ih =>
    refine fun hl m hm b hb => ih (fun d hd => hl d (List.mem_cons_of_mem c hd)) _ (fun d hd => ?_) b hb
    obtain rfl | hd := earlierRequest_some hd
    · exact hl _ List.mem_cons_self
    · exact hm d hd

theorem execPermitGrant_endsGood (colour : Nat) : (execPermitGrant colour s).EndsGood := by
  unfold execPermitGrant
  split
  · exact endsGood_fault _
  · next a h =>
    split
    · exact endsGood_fault _
    · refine occurs_endsGood ?_ _
      exact State.keepFrame_memoryGood hs (State.nextRequest_frameGood hs h) rfl

/-! ## The end of an activation (18 R297, R298; 19 R310 to R312) -/

theorem State.recordCompletion_memoryGood (a : Activation) (code : Nat) : (s.recordCompletion a code).memoryGood :=
  State.putCompletion_memoryGood hs _ _

theorem State.leave_memoryGood (a : Activation) : (s.leave a).memoryGood := by
  have left := memoryGood_ite (c := a.phase = .saved) hs (State.vacate_memoryGood hs a)
  have purged := State.purge_memoryGood (s := { (if a.phase = .saved then s else s.vacate a) with
    chains := (if a.phase = .saved then s else s.vacate a).chains.filter fun c => !(c.id.engine ≠ 5 && c.id.owner = a.colour) })
    left a.colour
  exact ⟨purged.1, purged.2.1, FramesGood.drop purged.2.2 _⟩

theorem State.invalidateCaches_memoryGood (a : Activation) : (s.invalidateCaches a).memoryGood :=
  State.keepTiles_memoryGood hs a.memTiles fun _ _ => ⟨rfl, rfl⟩

theorem State.forward_memoryGood (a : Activation) (number : Nat) : (s.forward a number).memoryGood := by
  refine foldl_memoryGood (fun t f ht => ?_) _ hs
  split
  · exact ht
  · dsimp only
    split
    · exact ht
    · refine memoryGood_ite ht (State.allocate_memoryGood ?_ _ _ _ _)
      exact State.keepTile_memoryGood ht _ rfl rfl

theorem State.walkOn_allGood {a : Activation} (ha : FrameGood a.frame) : AllGood (s.walkOn a) := by
  unfold State.walkOn
  refine allGood_ite allGood_none ?_
  split
  · refine allGood_some (State.lowerCounters_memoryGood ?_ _ _)
    exact State.keepFrame_memoryGood hs ha rfl
  · next r _ =>
    have put (i j : Nat) : (s.putActivation { a with walkRecord := i, walkSector := j }).memoryGood :=
      State.keepFrame_memoryGood hs ha rfl
    refine allGood_ite (allGood_some (put _ _)) ?_
    split
    · exact allGood_some (put _ _)
    · refine allGood_some (State.forward_memoryGood (foldl_memoryGood (fun t n ht => ?_) a.memTiles (put _ _)) a _)
      split
      · exact memoryGood_ite ht (cleanSector_memoryGood ht _ _)
      · exact ht

theorem State.abortCollectives_memoryGood (colour : Nat) : (s.abortCollectives colour).memoryGood := State.sendWelt_memoryGood hs _

theorem State.dropCommands_memoryGood (colour : Nat) : (s.dropCommands colour).memoryGood :=
  State.abortCollectives_memoryGood hs colour

theorem State.endCancelled_allGood (a : Activation) : AllGood (s.endCancelled a) := by
  unfold State.endCancelled
  refine allGood_ite allGood_none ?_
  have dropped (c : Prop) [Decidable c] (code : Nat) :=
    State.dropCommands_memoryGood (memoryGood_ite (c := c) (State.recordCompletion_memoryGood hs a code) hs) a.colour
  have left (c : Prop) [Decidable c] (code : Nat) (f : Scheduler → Scheduler) :=
    State.leave_memoryGood (memoryGood_ite (c := a.phase = .saved) (State.mapSched_memoryGood (dropped c code) f)
      (State.invalidateCaches_memoryGood (dropped c code) a)) a
  exact allGood_ite (allGood_some (left _ _ _)) (allGood_ite (allGood_some (State.mapSched_memoryGood (left _ _ _) _))
    (allGood_some (State.lowerCounters_memoryGood (left _ _ _) _ _)))

theorem State.pairToStop_frameGood {a b : Activation} (h : s.pairToStop a = some b) : FrameGood b.frame := by
  unfold State.pairToStop at h
  split at h
  · obtain ⟨c, found, hc⟩ := Option.bind_eq_some_iff.1 h
    split at hc
    · exact nomatch hc
    · exact Option.some.inj hc ▸ State.activation_frameGood hs found
  · exact nomatch h

theorem execActivationCompletion_endsGood (colour : Nat) : (execActivationCompletion colour s).EndsGood := by
  unfold execActivationCompletion
  split
  · exact endsGood_fault _
  · next a ha =>
    refine endsGood_ite (occurs_endsGood (State.leave_memoryGood (State.recordCompletion_memoryGood hs a _) a) _)
      (endsGood_ite ?_ ?_)
    · split
      · next b hb => exact endsGood_next (State.keepFrame_memoryGood hs (State.pairToStop_frameGood hs hb) rfl)
      · exact endsGood_ite (endsGood_next (State.abortCollectives_memoryGood hs colour))
          (endsGood_ite (occursIf_endsGood (State.endCancelled_allGood hs a)) (endsGood_fault _))
    · split
      · refine occurs_endsGood ?_ _
        exact State.keepActivation_memoryGood hs ha rfl
      · exact occursIf_endsGood (State.walkOn_allGood hs (State.activation_frameGood hs ha))
      · exact endsGood_fault _

theorem execRedundantComparison_endsGood (colour : Nat) : (execRedundantComparison colour s).EndsGood := by
  unfold execRedundantComparison
  split
  · exact endsGood_fault _
  · next a ha =>
    split
    · exact endsGood_fault _
    · next b _ =>
      refine endsGood_ite (endsGood_fault _) (endsGood_ite (endsGood_next ?_) (endsGood_next ?_))
      · refine State.leave_memoryGood (State.invalidateCaches_memoryGood ?_ b) b
        exact State.keepActivation_memoryGood hs ha rfl
      · exact State.killByColour_memoryGood (State.killByColour_memoryGood (State.blackBox_memoryGood hs _ _) _) _

end

end Sys2Proof.Machine
end
section
/-! SUPPORT. The canonical form of every memory through the copy, stack, expansion and epilogue engines and through what elements
stage (16 R247 to R279). -/
namespace Sys2Proof.Machine

section
variable {s : State} (hs : s.memoryGood)
include hs

/-! ## The copy engine (16 R261 to R264) -/

omit hs in
theorem State.reachAll_memoryGood (a : Activation) (scratch : Bool) (l : List (Int × Nat)) :
    ∀ {s : State}, s.memoryGood → (s.reachAll a scratch l).1.memoryGood := by
  induction l with
  | nil => exact fun hs => hs
  | cons p l ih =>
    intro s hs
    obtain ⟨at_, n⟩ := p
    exact andThen_memoryGood (State.sideReach_memoryGood hs a 0 scratch .write at_ n) fun _ _ ht =>
      andThen_memoryGood (ih ht) fun _ _ hu => hu

omit hs in
theorem State.settleAll_memoryGood (a : Activation) (l : List (Int × Nat × List Piece)) :
    ∀ {s : State}, s.memoryGood → (s.settleAll a l).1.memoryGood := by
  induction l with
  | nil => exact fun hs => hs
  | cons p l ih =>
    intro s hs
    obtain ⟨at_, n, ps⟩ := p
    exact andThen_memoryGood (State.settlePieces_memoryGood hs a _ ps) fun _ _ ht => ih ht

omit hs in
theorem State.storeAll_memoryGood (a : Activation) (scratch : Bool) (l : List (Int × Nat × List Piece)) :
    ∀ {s : State}, s.memoryGood → ∀ bs, (s.storeAll a scratch l bs).1.memoryGood := by
  induction l with
  | nil => exact fun hs _ => hs
  | cons p l ih =>
    intro s hs bs
    obtain ⟨at_, n, ps⟩ := p
    exact andThen_memoryGood (State.sideStore_memoryGood hs a scratch at_ _ ps) fun _ _ ht => ih ht _

theorem State.moveRow_memoryGood (a : Activation) (tile : Nat) (k : Command) (n inside : Nat) (src : Int)
    (dst : List (Int × Nat)) : (s.moveRow a tile k n inside src dst).1.memoryGood :=
  andThen_memoryGood (fst_memoryGood_ite hs (State.sideReach_memoryGood hs a 0 _ .read src _)) fun _ from_ ht =>
    andThen_memoryGood (State.reachAll_memoryGood a _ dst ht) fun _ to_ hu =>
    andThen_memoryGood (fst_memoryGood_ite hu (State.sideLoad_memoryGood hu a _ src _ from_)) fun _ _ hv =>
    andThen_memoryGood (State.settleAll_memoryGood a to_ hv) fun _ _ hw =>
    andThen_memoryGood (State.storeAll_memoryGood a _ to_ hw _) fun _ _ hx => State.raiseEvents_memoryGood hx _ _ _

theorem execCopyRow_endsGood (c : ChainId) (place : Nat) : (execCopyRow c place s).EndsGood := by
  refine onCommand_endsGood hs c place fun a k => andThen_memoryGood (onRow_memoryGood ?_) fun _ _ ht => ht
  exact State.moveRow_memoryGood hs a _ k _ _ _ _

theorem execGatherScatterRow_endsGood (c : ChainId) (place : Nat) : (execGatherScatterRow c place s).EndsGood := by
  refine onCommand_endsGood hs c place fun a k => andThen_memoryGood (onRow_memoryGood ?_) fun t ib ht => ?_
  · exact State.sideRead_memoryGood hs a 0 _ _ _
  · have moved (inside : Nat) (src : Int) (dst : List (Int × Nat)) :=
      onRow_memoryGood (row := k.row) (State.moveRow_memoryGood ht a c.tile k (k.extentOf 0) inside src dst)
    exact fst_memoryGood_ite (andThen_memoryGood (moved _ _ _) fun _ _ hu => hu)
      (fst_memoryGood_ite ht (andThen_memoryGood (moved _ _ _) fun _ _ hu => hu))

/-! ## The stack engine (16 R274 to R276) -/

theorem State.areaRead_memoryGood (base : Nat) (blocks : List Nat) (n : Nat) : (s.areaRead base blocks n).1.memoryGood := by
  have read := foldl_memoryGood (f := fun s (r : Nat × Nat × Nat) => (s.llcRead r.2.1 r.2.2).1)
    (fun _ r ht => State.llcRead_memoryGood ht r.2.1 r.2.2) (blockRuns base blocks n) hs
  unfold State.areaRead
  split
  · exact hs
  · refine fst_memoryGood_ite read ?_
    split <;> exact read

theorem State.areaWrite_memoryGood (asid base : Nat) (blocks : List Nat) (bs : List Byte) :
    (s.areaWrite asid base blocks bs).memoryGood :=
  foldl_memoryGood (fun t r ht => State.llcPut_memoryGood
    (foldl_memoryGood (fun _ p hu => State.flushRange_memoryGood hu p.1 r.2.1 r.2.2) t.tiles ht) asid r.2.1 _) _ hs

theorem State.areaMove_memoryGood (asid base : Nat) (blocks : List Nat) (bs : List Byte) :
    (s.areaMove asid base blocks bs).1.memoryGood := by
  unfold State.areaMove
  split
  · exact hs
  · exact State.areaWrite_memoryGood hs asid base blocks bs

theorem State.meetStack_memoryGood (asid : Nat) : (s.meetStack asid).1.memoryGood :=
  fst_memoryGood_ite hs (State.meetRange_memoryGood hs _ 64)

theorem pushStack_memoryGood (a : Activation) (k : Command) : (pushStack s a k).1.memoryGood := by
  have met := State.meetStack_memoryGood hs a.entry.asid
  unfold pushStack
  dsimp only
  split
  · next h => exact memoryGood_of_fst met h
  · next h =>
    refine andThen_memoryGood (State.sideRead_memoryGood (memoryGood_of_fst met h) a 5 _ _ _) fun t bs ht => ?_
    have moved (base : Nat) (blocks : List Nat) := State.areaMove_memoryGood ht a.entry.asid base blocks bs
    split
    · next h => exact memoryGood_of_fst (moved _ _) h
    · next h => exact State.putStack_memoryGood (memoryGood_of_fst (moved _ _) h) _ _

theorem popStack_memoryGood (a : Activation) (k : Command) (e : StackEntry) : (popStack s a k e).1.memoryGood := by
  have met := State.meetStack_memoryGood hs a.entry.asid
  unfold popStack
  dsimp only
  split
  · next h => exact memoryGood_of_fst met h
  · next h =>
    have good := memoryGood_of_fst met h
    refine fst_memoryGood_ite good (andThen_memoryGood (State.engineReach_memoryGood good a 5 .write _ _) fun t ps ht => ?_)
    have read (base : Nat) := State.areaRead_memoryGood ht base e.ring e.length
    refine fst_memoryGood_ite ht ?_
    split
    · next h => exact memoryGood_of_fst (read _) h
    · next h => exact andThen_memoryGood (State.storePieces_memoryGood (memoryGood_of_fst (read _) h) a _ _ ps) fun _ _ hu =>
        State.putStack_memoryGood hu _ _

theorem execStackCommand_endsGood (c : ChainId) (place : Nat) : (execStackCommand c place s).EndsGood := by
  unfold execStackCommand
  split
  · exact endsGood_fault _
  · dsimp only
    refine endsGood_ite (endsGood_fault _) (endsGood_ite (endsGood_ite
      (onCommand_endsGood hs c place fun a k => pushStack_memoryGood hs a k) (endsGood_fault _)) ?_)
    split
    · exact onCommand_endsGood hs c place fun _ _ => hs
    · next e _ =>
      split
      · exact endsGood_fault _
      · exact occurs_endsGood (State.putStack_memoryGood hs _ _) _
      · exact onCommand_endsGood hs c place fun a k => popStack_memoryGood hs a k e

/-- A stack put for an entry that was found. -/
theorem State.mapStack_allGood (asid : Nat) (o : Option Nat) (f : Nat → List StackEntry) :
    AllGood (o.map fun i => s.putStack asid (f i)) := by
  intro t ht
  obtain ⟨i, _, rfl⟩ := Option.map_eq_some_iff.1 ht
  exact State.putStack_memoryGood hs asid _

theorem execSpill_endsGood (asid : Nat) : (execSpill asid s).EndsGood :=
  endsGood_ite (endsGood_fault _) (occursIf_endsGood (State.mapStack_allGood hs asid _ _))

theorem execSpillCompletion_endsGood (asid : Nat) : (execSpillCompletion asid s).EndsGood := by
  unfold execSpillCompletion
  dsimp only
  split
  · exact endsGood_fault _
  · split
    · exact endsGood_fault _
    · next e _ =>
      refine endsGood_ite (endsGood_fault _) ?_
      have read (base : Nat) := State.areaRead_memoryGood hs base e.ring e.length
      split
      · next h => exact endsGood_next (State.putStack_memoryGood (memoryGood_of_fst (read _) h) _ _)
      · next h =>
        exact endsGood_next (State.putStack_memoryGood (State.areaMove_memoryGood (memoryGood_of_fst (read _) h) _ _ _ _) _ _)

theorem execStackReturn_endsGood (asid : Nat) : (execStackReturn asid s).EndsGood :=
  occursIf_endsGood (State.mapStack_allGood hs asid _ _)

theorem State.failReturn_memoryGood (asid : Nat) (l : List StackEntry) (i : Nat) (code : BitVec 8) :
    (s.failReturn asid l i code).memoryGood := by
  have put := State.putStack_memoryGood hs asid (setStackState l i .spilled)
  unfold State.failReturn
  dsimp only
  split
  · exact put
  · exact State.stopChain_memoryGood put _ _ _

theorem execStackReturnCompletion_endsGood (asid : Nat) : (execStackReturnCompletion asid s).EndsGood := by
  unfold execStackReturnCompletion
  dsimp only
  split
  · exact endsGood_fault _
  · split
    · exact endsGood_fault _
    · next e _ =>
      refine endsGood_ite (endsGood_fault _) ?_
      have read (base : Nat) := State.areaRead_memoryGood hs base e.spill e.length
      split
      · next h => exact endsGood_next (State.failReturn_memoryGood (memoryGood_of_fst (read _) h) _ _ _ _)
      · next bs h =>
        have moved (base : Nat) (blocks : List Nat) :=
          State.areaMove_memoryGood (memoryGood_of_fst (read _) h) asid base blocks bs
        split
        · next h => exact endsGood_next (State.failReturn_memoryGood (memoryGood_of_fst (moved _ _) h) _ _ _ _)
        · next h => exact endsGood_next (State.putStack_memoryGood (memoryGood_of_fst (moved _ _) h) _ _)

/-! ## The expansion and epilogue engines (16 R269 to R273) -/

theorem State.addStall_memoryGood (a : Activation) (k : Command) (ps : List Piece) (n : Nat) :
    (s.addStall a k ps n).1.memoryGood :=
  fst_memoryGood_ite hs (andThen_memoryGood (State.loadPieces_memoryGood a _ ps hs) fun _ _ ht =>
    State.storePieces_memoryGood ht a _ _ ps)

theorem checkExpand_memoryGood (a : Activation) (k : Command) : (checkExpand s a k).1.memoryGood := by
  refine fst_memoryGood_ite hs (fst_memoryGood_ite hs (andThen_memoryGood (State.engineRead_memoryGood hs a 3 _ _) fun t bs ht => ?_))
  dsimp only
  split <;> exact ht

omit hs in
/-- The rows of an expansion that go to the scratch. Said before any state is taken out of the pair, so that the kernel does not
evaluate the check of 65536 bytes. -/
theorem State.deliverRows_of_not_streams (s : State) (a : Activation) (tile : Nat) {k : Command} (m : Nat) (rows : List (List Byte))
    (h : ¬ k.streams = true) :
    s.deliverRows a tile k m rows = if s.scratchGood a (k.field 0x20 8 + m * k.field 0x28 4) 65536 then
        (s.scratchWrite a (k.field 0x20 8 + m * k.field 0x28 4) rows.flatten, .ok ())
      else (s, .error (scratchFault .write (k.field 0x20 8 + m * k.field 0x28 4))) := if_neg h

theorem State.deliverRows_memoryGood (a : Activation) (tile : Nat) (k : Command) (m : Nat) (rows : List (List Byte)) :
    (s.deliverRows a tile k m rows).1.memoryGood := by
  by_cases h : k.streams = true
  · unfold State.deliverRows
    rw [if_pos h]
    exact fst_memoryGood_ite hs (State.emit_memoryGood hs _ _)
  · rw [State.deliverRows_of_not_streams s a tile m rows h]
    exact fst_memoryGood_ite (memoryGood_pair (State.scratchWrite_memoryGood a _ hs _) _) (memoryGood_pair hs _)

theorem execExpandBlock_endsGood (c : ChainId) (place : Nat) : (execExpandBlock c place s).EndsGood := by
  refine onCommand_endsGood hs c place fun a k => onRow_memoryGood (fst_memoryGood_ite hs (andThen_memoryGood ?_ fun t eb ht => ?_))
  · exact State.engineRead_memoryGood hs a 3 _ 8
  · refine andThen_memoryGood (fst_memoryGood_ite ht (State.engineRead_memoryGood ht a 3 _ _)) fun u bs hu => ?_
    refine fst_memoryGood_ite hu (fst_memoryGood_ite hu ?_)
    refine andThen_memoryGood (fst_memoryGood_ite hu (State.engineReach_memoryGood hu a 3 .atomic _ 8)) fun v ps hv => ?_
    refine andThen_memoryGood (State.deliverRows_memoryGood hv a c.tile k k.row _) fun w _ hw => ?_
    exact andThen_memoryGood (State.addStall_memoryGood hw a k ps _) fun _ _ hx => State.raiseEvents_memoryGood hx _ _ _

/-- A row of the epilogue clears its accumulators where it is asked to. -/
theorem State.clearBank_memoryGood (tile at_ n : Nat) (clears : Prop) [Decidable clears] :
    (if clears then s.putTile tile { s.tile tile with bank := (s.tile tile).bank.writeNat at_ n 0 } else s).memoryGood :=
  memoryGood_ite (State.writeBank_memoryGood hs tile at_ n 0) hs

theorem execEpilogueRow_endsGood (c : ChainId) (place : Nat) : (execEpilogueRow c place s).EndsGood := by
  refine onCommand_endsGood hs c place fun a k => fst_memoryGood_ite hs ?_
  refine State.clearBank_memoryGood (State.bankEvents_memoryGood ?_ _ _) _ _ _ _
  have wrote (bs : List Byte) (at_ : Nat) := State.scratchWrite_memoryGood a bs hs at_
  split
  · exact State.scratchWriteNat_memoryGood (wrote _ _) a _ 4 _
  · exact wrote _ _

/-! ## The start and the end of a command (16 R258 to R260) -/

theorem startIndexed_memoryGood (a : Activation) (k : Command) : (startIndexed s a k).1.memoryGood := by
  have read := State.sideRead_memoryGood hs a 0 k.indexScratch k.indexList (4 * k.rowCount)
  refine fst_memoryGood_ite hs (fst_memoryGood_ite hs ?_)
  split
  · next h => exact fst_memoryGood_ite (memoryGood_of_fst read h) (memoryGood_of_fst read h)
  · exact hs

theorem startCommand_memoryGood (a : Activation) (tile : Nat) (k : Command) : (startCommand s a tile k).1.memoryGood := by
  refine fst_memoryGood_ite hs ?_
  split
  · exact fst_memoryGood_ite (fst_memoryGood_ite hs hs) (fst_memoryGood_ite hs (startIndexed_memoryGood hs a k))
  · exact fst_memoryGood_ite (startClick_memoryGood hs tile k) hs
  · split <;> exact fst_memoryGood_ite hs hs
  · exact andThen_memoryGood (checkExpand_memoryGood hs a k) fun _ _ ht => ht
  · exact fst_memoryGood_ite hs hs
  · exact hs

theorem execEngineCommandStart_endsGood (c : ChainId) : (execEngineCommandStart c s).EndsGood := by
  unfold execEngineCommandStart
  split
  · exact endsGood_fault _
  · split
    · exact endsGood_fault _
    · next k _ =>
      split
      · exact endsGood_fault _
      · next a _ =>
        refine endsGood_ite (endsGood_fault _) (endsGood_ite (occurs_endsGood (State.setCommand_memoryGood hs _ _) _)
          (endsGood_ite (endsGood_fault _) ?_))
        have started := andThen_memoryGood (State.engineRead_memoryGood hs a c.engine k.record.parameter.toNat 64)
          (f := fun s bs => startCommand s a c.tile { k with block := BitVec.ofNat 512 (natOfBytes bs) })
          fun _ _ ht => startCommand_memoryGood ht _ _ _
        dsimp only
        cases pairNames a k with
        | some f => exact endsGood_next (State.stopChain_memoryGood hs _ _ _)
        | none =>
          dsimp only
          split
          · next h => exact endsGood_next (State.stopChain_memoryGood (memoryGood_of_fst started h) _ _ _)
          · next h => exact endsGood_next (State.setCommand_memoryGood (memoryGood_of_fst started h) _ _)

theorem State.finishCommand_memoryGood (a : Activation) (c : ChainId) (k : Command) : (s.finishCommand a c k).memoryGood :=
  State.putChain_memoryGood (State.setCommand_memoryGood (memoryGood_ite hs (State.pushRecord_memoryGood hs a _)) c _) _

theorem execEngineCommandComplete_endsGood (c : ChainId) (place : Nat) : (execEngineCommandComplete c place s).EndsGood := by
  unfold execEngineCommandComplete
  split
  · exact endsGood_fault _
  · split
    · exact endsGood_fault _
    · next k _ =>
      split
      · exact endsGood_fault _
      · next a _ =>
        refine endsGood_ite (endsGood_fault _) ?_
        split
        · exact endsGood_next (State.issueOwed_memoryGood (State.setCommand_memoryGood hs _ _) _ _)
        · exact endsGood_ite (endsGood_next (State.issueOwed_memoryGood hs _ _))
            (occurs_endsGood (State.finishCommand_memoryGood hs a c k) _)
        · exact endsGood_fault _

/-! ## What elements stage (16 R247 to R256) -/

theorem checkPiece_memoryGood (b : Block) (u : RecordUse) (needsFullEmpty scratch : Bool) (a : Nat) (r : MemRequest) :
    ∀ t r', checkPiece s b u needsFullEmpty scratch a r = .ok (t, r') → t.memoryGood := by
  intro t r' h
  have cached (asid : Nat) (l : Leaf) := State.cacheLeaf_memoryGood hs asid a l
  unfold checkPiece at h
  grind

omit hs in
theorem stagePieces_memoryGood (b0 : Block) (u : RecordUse) (scratch : Bool) (l : List (Nat × MemRequest)) :
    ∀ {s : State}, s.memoryGood → ∀ b t b', stagePieces b0 u scratch s b l = .ok (t, b') → t.memoryGood := by
  induction l with
  | nil =>
    intro s hs b t b' h
    rw [stagePieces] at h
    cases h
    exact hs
  | cons p l ih =>
    intro s hs b t b' h
    obtain ⟨a, r⟩ := p
    have piece := checkPiece_memoryGood hs b0 u false scratch a r
    rw [stagePieces] at h
    split at h
    · exact nomatch h
    · next hp => exact ih (piece _ _ hp) _ t b' h

theorem stageAccess_endsGood (o : EM) (op : MemOp) (u : RecordUse) (size align : Nat) (needsFullEmpty replies : Bool) :
    (stageAccess s o op u size align needsFullEmpty replies).EndsGood := by
  refine inBlockWith_endsGood hs _ fun el b t b' h => ?_
  split at h
  · exact nomatch h
  · dsimp only at h
    split at h
    · exact nomatch h
    · next hp =>
      cases h
      exact checkPiece_memoryGood hs b u needsFullEmpty _ _ _ _ _ hp

theorem execSeggrad_endsGood (o : EG) : (execSeggrad o s).EndsGood := by
  refine inBlockWith_endsGood hs _ fun el b t b' h => ?_
  dsimp only at h
  split at h
  · exact nomatch h
  · split at h
    · exact nomatch h
    · split at h
      · exact nomatch h
      · exact nomatch h
      · next hp _ =>
        cases h
        exact stagePieces_memoryGood b .atomic _ _ hs b _ _ hp

theorem execAccst_endsGood (o : EM) : (execAccst o s).EndsGood := by
  refine inBlockWith_endsGood hs _ fun el b t b' h => ?_
  dsimp only at h
  split at h
  · exact nomatch h
  · split at h
    · exact nomatch h
    · next hp =>
      cases h
      exact stagePieces_memoryGood b .write _ _ hs b _ _ hp

end

end Sys2Proof.Machine
end
section
/-! SUPPORT. The canonical form of every memory through what the host does and what happens to the package (24 R373, R374; 25 R384 to
R402; 26 R407 to R427). -/
namespace Sys2Proof.Machine

section
variable {s : State} (hs : s.memoryGood)
include hs

/-! ## Power, self-tests and reset (26 R408, R417 to R423) -/

theorem execPowerSample_endsGood (milliwatts : Nat) : (execPowerSample milliwatts s).EndsGood := by
  refine endsGood_next ?_
  have throttled (k : Nat) (fs : List (Nat × Nat × Nat)) (f : HostDie → HostDie) (c : Prop) [Decidable c] :=
    memoryGood_ite (c := c) hs (State.mapHost_memoryGood (State.blackBox_memoryGood hs k fs) f)
  split
  · exact State.fatal_memoryGood (throttled _ _ _ _) _ _
  · exact throttled _ _ _ _

theorem execSupplyDroopFatal_endsGood (die index millivolts : Nat) : (execSupplyDroopFatal die index millivolts s).EndsGood :=
  occurs_endsGood (State.fatal_memoryGood hs _ _) _

theorem State.setRdys_memoryGood (bit : Nat) (on : Bool) : (s.setRdys bit on).memoryGood := State.mapHost_memoryGood hs _

theorem execSelfTestPass_endsGood (f : ReadyFunction) : (execSelfTestPass f s).EndsGood := by
  unfold execSelfTestPass
  split
  · exact occurs_endsGood (State.setTileReady_memoryGood hs _ _) _
  · refine occursIf_endsGood fun t ht => ?_
    obtain ⟨b, _, rfl⟩ := Option.map_eq_some_iff.1 ht
    exact State.setRdys_memoryGood hs b true

theorem State.bootStage_memoryGood (tick stage : Nat) : (s.bootStage tick stage).memoryGood := State.blackBox_memoryGood hs _ _

/-- A cold start keeps the bytes of device memory and lists no tile and no activation. -/
theorem State.coldStart_memoryGood : s.coldStart.memoryGood :=
  ⟨hs.1, State.reset_memoryGood.2⟩

theorem State.stageDone_memoryGood (tick stage : Nat) : (s.stageDone tick stage).memoryGood := by
  unfold State.stageDone
  split <;> exact hs

theorem execReset_endsGood : (execReset s).EndsGood := by
  have booted := foldl_memoryGood
    (f := fun t i => (t.bootStage s.tick (i + 1)).stageDone s.tick (i + 1))
    (fun _ i ht => State.stageDone_memoryGood (State.bootStage_memoryGood ht s.tick (i + 1)) s.tick (i + 1))
    (List.range (bootPassed s.tick)) (State.coldStart_memoryGood hs)
  have failed := State.bootStage_memoryGood booted s.tick (bootPassed s.tick + 1)
  exact endsGood_next (memoryGood_ite booted (memoryGood_ite failed (State.fatal_memoryGood failed _ _)))

theorem execFunctionLevelReset_endsGood (v : Nat) : (execFunctionLevelReset v s).EndsGood := by
  refine endsGood_ite (endsGood_fault _) (endsGood_next (State.mapHost_memoryGood ?_ _))
  exact foldl_memoryGood (fun _ a ht => State.terminateContext_memoryGood ht a) _ hs

/-! ## The LLC's registers (24 R373, R374) -/

theorem State.writeLlcinj_memoryGood (v : Nat) (value : DWord) : (s.writeLlcinj v value).memoryGood :=
  memoryGood_ite hs (State.mapHost_memoryGood hs _)

theorem execLlcinjArm_endsGood (v : Nat) (value : DWord) : (execLlcinjArm v value s).EndsGood :=
  endsGood_ite (endsGood_next (State.writeLlcinj_memoryGood hs v value)) (endsGood_fault _)

theorem State.maintain_memoryGood (line : Nat) (drops : Bool) : (s.maintain line drops).1.memoryGood := by
  have written := State.writeBack_memoryGood hs line
  unfold State.maintain
  split
  · exact hs
  · exact memoryGood_ite (State.dropLine_memoryGood written line) written

theorem State.writeLlcop_memoryGood (v : Nat) (value : DWord) : (s.writeLlcop v value).memoryGood :=
  memoryGood_ite hs (memoryGood_ite (State.mapHost_memoryGood hs _)
    (State.mapHost_memoryGood (State.maintain_memoryGood hs _ _) _))

theorem execLlcopClean_endsGood (v : Nat) (value : DWord) : (execLlcopClean v value s).EndsGood :=
  occurs_endsGood (State.writeLlcop_memoryGood hs v value) _

theorem execLlcopCleanInvalidate_endsGood (v : Nat) (value : DWord) : (execLlcopCleanInvalidate v value s).EndsGood :=
  occurs_endsGood (State.writeLlcop_memoryGood hs v value) _

/-! ## Appends, cancels, answers and invalidations (18 R288, R298; 25 R385, R393) -/

theorem State.hostAppend_memoryGood (asid : Nat) (record : BitVec 512) : (s.hostAppend asid record).memoryGood :=
  memoryGood_ite (State.mapHost_memoryGood hs _) (memoryGood_ite (State.mapHost_memoryGood hs _)
    (State.mapHost_memoryGood (State.appendRecord_memoryGood hs asid record []) _))

theorem execHostAppend_endsGood (asid : Nat) (record : BitVec 512) : (execHostAppend asid record s).EndsGood :=
  endsGood_ite (endsGood_next (State.hostAppend_memoryGood hs asid record)) (endsGood_fault _)

theorem execHostCancel_endsGood (asid level job id : Nat) : (execHostCancel asid level job id s).EndsGood :=
  occurs_endsGood (State.cancelId_memoryGood hs asid job level id 0x66) _

/-- What happens within the frame of a saved activation, where it keeps the memories of the state that the frame stands in for. -/
theorem State.inFrame_memoryGood {c : Nat} {a : Activation} (ha : s.activation c = some a) {f : State → State}
    (hf : ∀ t, t.memoryGood → (f t).memoryGood) : (s.inFrame a f).memoryGood := by
  unfold State.inFrame
  split
  · exact hf s hs
  · next k hk =>
    dsimp only
    have inside := hf { s with
      elements := k.elements, tiles := k.tiles, circuits := k.circuits,
      chains := k.chains ++ s.chains.filter fun c => decide (c.id.engine = 5) }
      ⟨hs.1, State.activation_frameGood hs ha k hk, hs.2.2⟩
    generalize f _ = r at inside ⊢
    have back : State.memoryGood { r with
        elements := s.elements, tiles := s.tiles, circuits := s.circuits,
        chains := (s.chains.filter fun c => !decide (c.id.engine = 5)) ++ r.chains.filter fun c => decide (c.id.engine = 5) } :=
      ⟨inside.1, hs.2.1, inside.2.2⟩
    split
    · exact back
    · exact State.putActivation_memoryGood back ((frameGood_some _).2 inside.2.1)

theorem State.regenerate_memoryGood (a : Activation) : (s.regenerate a).memoryGood := by
  unfold State.regenerate
  split
  · exact hs
  · next l _ =>
    refine memoryGood_ite hs ?_
    have again := foldl_memoryGood
      (f := fun s (p : PlacedIteration) => s.emit (.tileMem a.anchor p.mport) [startToken a p.chan p.ctx p.iteration])
      (fun _ _ ht => State.emit_memoryGood ht _ _) (a.placed.filter fun p => l.m ≤ p.iteration && p.iteration < l.upTo) hs
    dsimp only
    split
    · next hb => exact State.keepActivation_memoryGood again hb rfl
    · exact again

theorem State.withChains_memoryGood (l : List Chain) : ({ s with chains := l } : State).memoryGood := hs
theorem State.withLinks_memoryGood (l : Tab LinkChain) : ({ s with links := l } : State).memoryGood := hs

theorem State.answerActivation_memoryGood (c : Nat) (skip : Bool) : State.memoryGood (match s.activation c with
    | some b => s.putActivation { b with seq := answerSequencer b.seq skip }
    | none => s) := by
  split
  · next hb => exact State.keepActivation_memoryGood hs hb rfl
  · exact hs

theorem State.answerUnits_memoryGood (a : Activation) (skip cont : Bool) : (s.answerUnits a skip cont).memoryGood := by
  have elements := foldl_memoryGood (f := fun s e =>
    ((s.element e).ctxs.map (·.1)).foldl (fun s c => answerElement s e c skip cont) s)
    (fun _ e ht => foldl_memoryGood (fun _ c hu => answerElement_memoryGood hu e c skip cont) _ ht) a.elements hs
  have tiles := State.keepTiles_memoryGood elements (n := fun _ t => t)
    (f := fun s t => { s.tile t with
      stream := answerSequencer (s.tile t).stream skip,
      streams := (s.tile t).streams.map fun k => { k with held := none } }) a.memTiles fun _ _ => ⟨rfl, rfl⟩
  exact State.regenerate_memoryGood (State.answerActivation_memoryGood (State.withLinks_memoryGood (State.withChains_memoryGood
    tiles _) _) a.colour skip) a

omit hs in
theorem State.respondTo_activation {q asid colour : Nat} {a : Activation} (h : s.respondTo q asid colour = some a) :
    s.activation colour = some a := by
  unfold State.respondTo at h
  split at h
  · exact nomatch h
  · next ha =>
    dsimp only at h
    split at h
    · exact nomatch h
    · exact Option.some.inj h ▸ ha

theorem State.respond_memoryGood (q asid colour : Nat) (action : Action) : (s.respond q asid colour action).memoryGood := by
  unfold State.respond
  split
  · exact hs
  · next a h =>
    have ha := State.respondTo_activation h
    refine memoryGood_ite ?_ (State.inFrame_memoryGood hs ha fun _ ht => State.answerUnits_memoryGood ht a _ _)
    exact State.keepActivation_memoryGood hs ha rfl

theorem execFrespRetry_endsGood (q asid colour : Nat) : (execFrespRetry q asid colour s).EndsGood :=
  endsGood_next (State.respond_memoryGood hs q asid colour .retry)
theorem execFrespSkip_endsGood (q asid colour : Nat) : (execFrespSkip q asid colour s).EndsGood :=
  endsGood_next (State.respond_memoryGood hs q asid colour .skip)
theorem execFrespKill_endsGood (q asid colour : Nat) : (execFrespKill q asid colour s).EndsGood :=
  endsGood_next (State.respond_memoryGood hs q asid colour .kill)
theorem execFrespContinue_endsGood (q asid colour : Nat) : (execFrespContinue q asid colour s).EndsGood :=
  endsGood_next (State.respond_memoryGood hs q asid colour .cont)

theorem State.tlbinvh_memoryGood (q kind target address : Nat) : (s.tlbinvh q kind target address).memoryGood :=
  memoryGood_ite hs (State.mapHost_memoryGood (State.repatchAll_memoryGood (State.invalidate_memoryGood hs kind address target)) _)

theorem execTlbinvhPage_endsGood (q asid address : Nat) : (execTlbinvhPage q asid address s).EndsGood :=
  endsGood_next (State.tlbinvh_memoryGood hs q 0 _ address)
theorem execTlbinvhAsid_endsGood (q asid : Nat) : (execTlbinvhAsid q asid s).EndsGood :=
  endsGood_next (State.tlbinvh_memoryGood hs q 1 _ 0)
theorem execTlbinvhIpa_endsGood (q vf address : Nat) : (execTlbinvhIpa q vf address s).EndsGood :=
  endsGood_next (State.tlbinvh_memoryGood hs q 2 _ address)
theorem execTlbinvhVf_endsGood (q vf : Nat) : (execTlbinvhVf q vf s).EndsGood :=
  endsGood_next (State.tlbinvh_memoryGood hs q 3 _ 0)

/-! ## Mailboxes, registers and the host's own accesses (25 R384, R402; 26 R422 to R427) -/

theorem State.putMailbox_memoryGood (v : Nat) (m : Mailbox) : (s.putMailbox v m).memoryGood := State.mapHost_memoryGood hs _

theorem State.writeMbctl_memoryGood (v : Nat) (value : DWord) : (s.writeMbctl v value).memoryGood :=
  memoryGood_ite hs (State.putMailbox_memoryGood hs v _)

theorem execMailboxGo_endsGood (v : Nat) (value : DWord) : (execMailboxGo v value s).EndsGood :=
  occurs_endsGood (State.writeMbctl_memoryGood hs v value) _

theorem execAttestationReportDone_endsGood (v : Nat) (dmaGood : Bool) : (execAttestationReportDone v dmaGood s).EndsGood := by
  unfold execAttestationReportDone
  have put (m : Mailbox) := State.putMailbox_memoryGood hs v m
  exact endsGood_ite (endsGood_fault _) (endsGood_ite (endsGood_next (put _))
    (endsGood_ite (endsGood_next (put _)) (endsGood_next (put _))))

theorem execHostMemoryAccess_endsGood (writes : Bool) (address size : Nat) (value : DWord) :
    (execHostMemoryAccess writes address size value s).EndsGood := by
  unfold execHostMemoryAccess
  have wrote := State.llcWrite_memoryGood hs 0 0 address (leBytes size value.toNat)
  have read := State.llcRead_memoryGood hs address size
  refine endsGood_ite (endsGood_fault _) (endsGood_ite (endsGood_next (State.mapHost_memoryGood hs _)) (endsGood_ite (endsGood_next
    (memoryGood_ite (State.mapHost_memoryGood wrote _) (State.mapHost_memoryGood wrote _))) ?_))
  split
  · next h => exact endsGood_next (State.mapHost_memoryGood (memoryGood_of_fst read h) _)
  · next h => exact endsGood_next (State.mapHost_memoryGood (memoryGood_of_fst read h) _)

theorem State.writeHbmer_memoryGood (i : Nat) (value : Word) : (s.writeHbmer i value).memoryGood := State.mapHost_memoryGood hs _
theorem State.mapQueue_memoryGood (q : Nat) (f : Ring → Ring) : (s.mapQueue q f).memoryGood := State.mapHost_memoryGood hs _
theorem State.mapRing_memoryGood (a : Nat) (f : Ring → Ring) : (s.mapRing a f).memoryGood := State.mapHost_memoryGood hs _
theorem State.mapMailbox_memoryGood (v : Nat) (f : Mailbox → Mailbox) : (s.mapMailbox v f).memoryGood :=
  memoryGood_ite hs (State.putMailbox_memoryGood hs v _)

theorem State.windowStore_memoryGood (a i : Nat) (value : DWord) : (s.windowStore a i value).memoryGood :=
  memoryGood_ite (State.mapHost_memoryGood hs _) (State.hostAppend_memoryGood (State.mapHost_memoryGood hs _) a _)

theorem State.setReg_memoryGood (v : Nat) (r : HostReg) (half : Option Bool) (value : DWord) :
    (s.setReg v r half value).memoryGood := by
  unfold State.setReg
  refine memoryGood_ite hs ?_
  cases r
  case llcinj => exact State.writeLlcinj_memoryGood hs v value
  case llcop =>
    exact memoryGood_ite (State.writeLlcop_memoryGood hs v value) (memoryGood_ite hs (State.mapHost_memoryGood hs _))
  case fqhead q => exact memoryGood_ite (State.mapQueue_memoryGood hs q _) hs
  case fqovf q => exact memoryGood_ite (State.mapQueue_memoryGood hs q _) hs
  case fresp q => exact memoryGood_ite (State.mapHost_memoryGood hs _) (State.respond_memoryGood hs q _ _ _)
  case tlbinvh q => exact memoryGood_ite (State.mapHost_memoryGood hs _) (State.tlbinvh_memoryGood hs q _ _ _)
  case mbctl q => exact memoryGood_ite hs (State.writeMbctl_memoryGood hs q value)
  case mbaddr q => exact State.mapMailbox_memoryGood hs q _
  case mblen q => exact State.mapMailbox_memoryGood hs q _
  case mbnonce q i => exact State.mapMailbox_memoryGood hs q _
  case window a i => exact State.windowStore_memoryGood hs a i value
  case ovlcnt a => exact memoryGood_ite (State.mapHost_memoryGood hs _) hs
  case crbase a => exact State.payOwed_memoryGood (State.mapRing_memoryGood hs a _) a
  case crlog a => exact State.payOwed_memoryGood (State.mapRing_memoryGood hs a _) a
  case crhead a => exact memoryGood_ite (State.payOwed_memoryGood (State.mapRing_memoryGood hs a _) a) hs
  all_goals exact hs

theorem execRegisterWrite_endsGood (v offset size : Nat) (value : DWord) : (execRegisterWrite v offset size value s).EndsGood := by
  unfold execRegisterWrite
  refine endsGood_ite (endsGood_fault _) ?_
  split
  · exact endsGood_next hs
  · next r _ _ _ =>
    refine endsGood_ite (endsGood_next (State.setReg_memoryGood hs v r none _)) (endsGood_ite ?_ (endsGood_next hs))
    split
    · exact endsGood_next hs
    · exact endsGood_next hs
    · exact endsGood_next (State.setReg_memoryGood hs v r _ _)

theorem State.barRead_memoryGood (v offset size : Nat) : (s.barRead v offset size).1.memoryGood := by
  unfold State.barRead
  split
  · exact hs
  · refine fst_memoryGood_ite (memoryGood_pair ?_ _) hs
    split
    · exact State.readMonitor_memoryGood hs _ _ _
    · exact hs

theorem execMonitorRead_endsGood (v offset size : Nat) : (execMonitorRead v offset size s).EndsGood :=
  occurs_endsGood (State.mapHost_memoryGood (State.barRead_memoryGood hs v offset size) _) _

theorem execFqovfClear_endsGood (v q : Nat) : (execFqovfClear v q s).EndsGood :=
  endsGood_ite (endsGood_fault _) (endsGood_ite (endsGood_next (State.mapQueue_memoryGood hs q _)) (endsGood_next hs))

theorem execOvlcntClear_endsGood (v asid : Nat) : (execOvlcntClear v asid s).EndsGood :=
  endsGood_ite (endsGood_fault _) (endsGood_ite (endsGood_next (State.mapHost_memoryGood hs _)) (endsGood_next hs))

end

end Sys2Proof.Machine
end
section
/-! SUPPORT. The canonical form of every memory through the links of the welt and the collectives (22 R344 to R358; 23 R359 to R372). -/
namespace Sys2Proof.Machine

section
variable {s : State} (hs : s.memoryGood)
include hs

/-! ## Frames and messages of a link (22 R347 to R356) -/

theorem State.resendFrames_memoryGood (link : Nat) : (s.resendFrames link).memoryGood := by
  refine foldl_memoryGood (fun t f ht => ?_) _ hs
  split
  · exact memoryGood_ite (State.dropMessage_memoryGood ht) (State.sendFrame_memoryGood ht _ _)
  · exact State.sendFrame_memoryGood ht _ _

theorem State.tookFrame_memoryGood (link : Nat) : (s.tookFrame link).memoryGood := State.withWelt_memoryGood hs _

theorem State.linkDown_memoryGood (link : Nat) : (s.linkDown link).memoryGood :=
  State.resendFrames_memoryGood (State.blackBox_memoryGood (State.setRdys_memoryGood (State.withWelt_memoryGood hs _) _ _) _ _) link

theorem State.ownFrame_memoryGood (link : Nat) (good : Bool) : (s.ownFrame link good).memoryGood :=
  memoryGood_ite (State.withWelt_memoryGood hs _)
    (memoryGood_ite (State.withWelt_memoryGood hs _) (State.linkDown_memoryGood hs link))

theorem State.failFrame_memoryGood (link : Nat) (f : WeltFrame) : (s.failFrame link f).memoryGood :=
  memoryGood_ite (State.withWelt_memoryGood hs _) (State.linkDown_memoryGood hs link)

theorem execWeltFrameReceive_endsGood (link : Nat) (frame : WeltFrame) (crcGood : Bool) :
    (execWeltFrameReceive link frame crcGood s).EndsGood := by
  unfold execWeltFrameReceive
  have failed := State.failFrame_memoryGood hs link
  split
  · exact occurs_endsGood (State.ownFrame_memoryGood hs link crcGood) _
  · exact endsGood_ite (endsGood_fault _) (endsGood_ite (endsGood_next (State.withWelt_memoryGood
      (State.tookFrame_memoryGood hs link) _)) (endsGood_next (failed _)))
  · exact occurs_endsGood (memoryGood_ite (State.tookFrame_memoryGood hs link) (failed _)) _

theorem execWeltMessageAgeDiscard_endsGood (message : Nat) : (execWeltMessageAgeDiscard message s).EndsGood := by
  unfold execWeltMessageAgeDiscard
  split
  · exact endsGood_fault _
  · exact occurs_endsGood (State.dropMessage_memoryGood (State.withWelt_memoryGood hs _)) _

theorem State.forwardMessage_memoryGood (m : Message) : (s.forwardMessage m).memoryGood := State.sendFrame_memoryGood hs _ _

theorem State.deliverMessage_endsGood (message : Nat) (m : Message) : (s.deliverMessage message m).EndsGood := by
  unfold State.deliverMessage
  have gone (w : Welt) := State.withWelt_memoryGood hs w
  dsimp only
  split
  · exact endsGood_next (State.dropMessage_memoryGood (gone _))
  · exact endsGood_ite (endsGood_fault _) (endsGood_ite (endsGood_next (gone _)) (endsGood_ite
      (endsGood_next (State.recordAtElement_memoryGood (gone _) _ m.token 0x44))
      (endsGood_next (State.putElement_memoryGood (gone _) _ _))))

theorem execSendrDelivery_endsGood (message : Nat) : (execSendrDelivery message s).EndsGood := by
  unfold execSendrDelivery
  split
  · exact endsGood_fault _
  · next m _ =>
    exact endsGood_ite (endsGood_fault _) (endsGood_ite (endsGood_next (State.withWelt_memoryGood hs _)) (endsGood_ite
      (State.deliverMessage_endsGood hs message m)
      (endsGood_next (State.forwardMessage_memoryGood (State.withWelt_memoryGood hs _) m))))

/-! ## The command of a link and its faults (23 R361 to R366) -/

theorem State.putLink_memoryGood (key : Nat) (k : LinkChain) : (s.putLink key k).memoryGood := State.withLinks_memoryGood hs _
theorem State.setHead_memoryGood (key : Nat) (k : Collective) : (s.setHead key k).memoryGood := State.putLink_memoryGood hs key _

theorem State.stopCollective_memoryGood (key : Nat) (k : Collective) (i : FaultInfo) : (s.stopCollective key k i).memoryGood := by
  have reported (f : FaultSite) := State.report_memoryGood hs f i
  exact memoryGood_ite (State.putLink_memoryGood (reported _) key _) (State.cancelActivation_memoryGood (reported _) k.colour _)

/-- What starts a collective: its parameter block and its table of ranks read and checked. -/
theorem State.startCollective_allGood (key : Nat) (k : Collective) (a : Activation) : AllGood (s.startCollective key k a) := by
  unfold State.startCollective
  refine allGood_ite allGood_none ?_
  dsimp only
  generalize started : andThen _ _ = r
  have good : r.1.memoryGood := by
    rw [← started]
    refine andThen_memoryGood (State.engineRead_memoryGood hs a 6 _ 64) fun t bs ht => fst_memoryGood_ite ht ?_
    refine andThen_memoryGood (State.engineRead_memoryGood ht a 6 _ _) fun u ts hu => fst_memoryGood_ite hu ?_
    split <;> exact hu
  obtain ⟨t, i | c⟩ := r
  · exact allGood_some (State.stopCollective_memoryGood good key k i)
  · exact allGood_some (State.sendWelt_memoryGood (State.setHead_memoryGood good key c) _)

/-! ## The steps of a collective (23 R362 to R369) -/

theorem State.shareBytes_memoryGood (a : Activation) (v : Share) : (s.shareBytes a v).1.memoryGood :=
  fst_memoryGood_ite hs (andThen_memoryGood (State.engineRead_memoryGood hs a 6 _ _) fun _ _ ht => ht)

omit hs in
theorem State.sharesBytes_memoryGood (a : Activation) (l : List Share) :
    ∀ {s : State}, s.memoryGood → (s.sharesBytes a l).1.memoryGood := by
  induction l with
  | nil => exact fun hs => hs
  | cons v l ih =>
    exact fun hs => andThen_memoryGood (State.shareBytes_memoryGood hs a v) fun _ _ ht => andThen_memoryGood (ih ht) fun _ _ hu => hu

theorem State.incident_memoryGood (key kind attempt step source link index : Nat) (k : Collective) (e c : DWord × DWord) :
    (s.incident key kind attempt step source link index k e c).memoryGood :=
  State.mapHost_memoryGood (State.hwPut_memoryGood hs _ _ _) _

theorem State.checkFails_memoryGood (key : Nat) (k : Collective) (p : Nat × Nat) (step kind rank link : Nat) (e c : DWord × DWord)
    {again : State → State} (ha : ∀ t, t.memoryGood → (again t).memoryGood) :
    (s.checkFails key k p step kind rank link e c again).memoryGood := by
  have incident (kind attempt : Nat) := State.incident_memoryGood hs key kind attempt step (k.ranks.getD rank 0) link p.2 k e c
  exact memoryGood_ite (State.stopCollective_memoryGood (incident _ _) key k _)
    (ha _ (State.setHead_memoryGood (incident _ _) key _))

theorem State.withUpsets_memoryGood (l : List Upset) : ({ s with upsets := l } : State).memoryGood := hs

theorem State.combineChunk_memoryGood (key : Nat) (k : Collective) (a : Activation) (p : Nat × Nat) (step : Nat)
    (ins : List Share) : (s.combineChunk key k a p step ins).memoryGood := by
  have shares := State.sharesBytes_memoryGood a ins hs
  unfold State.combineChunk
  split
  · next h => exact State.stopCollective_memoryGood (memoryGood_of_fst shares h) key k _
  · next h =>
    have upset (l : List Upset) := State.withUpsets_memoryGood (memoryGood_of_fst shares h) l
    have missed (l : List Upset) := State.tileMismatch_memoryGood (upset l) (linkAnchor key) 5 k.colour k.fn k.attempt
    refine memoryGood_ite (memoryGood_ite (State.setHead_memoryGood (missed _) key _) (State.killByColour_memoryGood (missed _) _)) ?_
    exact memoryGood_ite (State.checkFails_memoryGood (upset _) key k p step 2 k.rank 0xFF _ _ fun _ ht => ht)
      (State.raiseEvents_memoryGood (State.setHead_memoryGood (upset _) key _) _ _ _)

theorem State.sendChunk_memoryGood (key : Nat) (k : Collective) (a : Activation) (p : Nat × Nat) (t : Transfer) (v : Share) :
    (s.sendChunk key k a p t v).memoryGood := by
  have share := State.shareBytes_memoryGood hs a v
  unfold State.sendChunk
  split
  · next h => exact State.stopCollective_memoryGood (memoryGood_of_fst share h) key k _
  · next h => exact State.sendWelt_memoryGood (State.setHead_memoryGood (memoryGood_of_fst share h) key _) _

theorem State.payEyelet_memoryGood (key : Nat) (k : Collective) (a : Activation) : (s.payEyelet key k a).memoryGood := by
  unfold State.payEyelet
  refine memoryGood_ite hs (memoryGood_ite (State.setHead_memoryGood hs key _)
    (memoryGood_ite (State.stopCollective_memoryGood hs key k _) ?_))
  split
  · exact State.stopCollective_memoryGood hs key k _
  · exact State.addAddition_memoryGood (State.setHead_memoryGood (State.cacheLeaf_memoryGood hs _ _ _) key _) _

theorem State.storeChunk_memoryGood (key : Nat) (k : Collective) (a : Activation) (p : Nat × Nat) (v : Share) :
    (s.storeChunk key k a p v).memoryGood := by
  have wrote := andThen_memoryGood (State.shareBytes_memoryGood hs a v)
    (f := fun s bs => s.engineWrite a 6 (k.destAt p.1 + p.2 * k.chunkSize) bs)
    fun _ bs ht => State.engineWrite_memoryGood ht a 6 _ bs
  unfold State.storeChunk
  split
  · next h => exact State.stopCollective_memoryGood (memoryGood_of_fst wrote h) key k _
  · next h => exact State.payEyelet_memoryGood (State.setHead_memoryGood (memoryGood_of_fst wrote h) key _) key _ a

theorem State.finishCollective_memoryGood (key : Nat) (k : Collective) (a : Activation) : (s.finishCollective key k a).memoryGood :=
  State.putLink_memoryGood (memoryGood_ite hs (State.pushRecord_memoryGood hs a _)) key _

theorem State.collectiveAct_allGood (key : Nat) (k : Collective) (a : Activation) : AllGood (s.collectiveAct key k a) := by
  unfold State.collectiveAct
  refine allGood_ite (State.startCollective_allGood hs key k a) (allGood_ite ?_ (allGood_ite
    (allGood_some (State.payEyelet_memoryGood hs key k a)) (allGood_ite allGood_none ?_)))
  · intro t ht
    obtain ⟨c, _, rfl⟩ := Option.map_eq_some_iff.1 ht
    exact State.combineChunk_memoryGood hs key k a _ _ _
  · split
    · exact allGood_some (State.combineChunk_memoryGood hs key k a _ _ _)
    · split
      · exact allGood_some (State.sendChunk_memoryGood hs key k a _ _ _)
      · split
        · exact allGood_some (State.storeChunk_memoryGood hs key k a _ _)
        · exact allGood_ite allGood_none (allGood_ite (allGood_some (State.payEyelet_memoryGood (State.setHead_memoryGood hs key _)
            key _ a)) (allGood_ite allGood_none (allGood_ite allGood_none
            (allGood_some (State.finishCollective_memoryGood hs key k a)))))

theorem State.receiveChunk_allGood (key : Nat) (k : Collective) (step slice index source link : Nat) (bs : List Byte)
    (pair : DWord × DWord) : AllGood (s.receiveChunk key k step slice index source link bs pair) := by
  unfold State.receiveChunk
  dsimp only
  split
  · exact allGood_none
  · exact allGood_ite allGood_none (allGood_ite (allGood_some (State.setHead_memoryGood hs key _))
      (allGood_some (State.checkFails_memoryGood hs key k _ step 1 source link pair _ fun _ ht => State.sendWelt_memoryGood ht _)))

theorem State.resendChunk_allGood (key job collective step slice index target : Nat) :
    AllGood (s.resendChunk key job collective step slice index target) := by
  intro t ht
  obtain ⟨m, _, rfl⟩ := Option.map_eq_some_iff.1 ht
  exact State.sendWelt_memoryGood hs _

theorem State.disagree_memoryGood (key : Nat) (k : Collective) (told : List Nat) : (s.disagree key k told).memoryGood :=
  State.stopCollective_memoryGood (State.putLink_memoryGood hs key _) key k _

theorem State.takeAnnouncement_allGood (key : Nat) (k : Collective) (bs : List Byte) : AllGood (s.takeAnnouncement key k bs) :=
  allGood_ite (allGood_some (State.disagree_memoryGood hs key k _))
    (allGood_ite allGood_none (allGood_some (State.setHead_memoryGood hs key _)))

theorem execCollectiveStep_endsGood (die lreg : Nat) (input : ChunkInput) : (execCollectiveStep die lreg input s).EndsGood := by
  unfold execCollectiveStep
  have took (link : Nat) := State.tookFrame_memoryGood hs link
  refine endsGood_ite (endsGood_fault _) ?_
  split
  · exact endsGood_ite (endsGood_fault _) (occursIf_endsGood (State.resendChunk_allGood (took _) _ _ _ _ _ _ _))
  · split
    · exact endsGood_fault _
    · next k a _ =>
      refine endsGood_ite (endsGood_fault _) ?_
      split
      · exact endsGood_ite (endsGood_fault _) (occursIf_endsGood (State.takeAnnouncement_allGood (took _) _ k _))
      · exact endsGood_ite (endsGood_fault _) (occursIf_endsGood (State.receiveChunk_allGood (took _) _ k _ _ _ _ _ _ _))
      · exact occursIf_endsGood (State.collectiveAct_allGood hs _ k a)

theorem execCollectiveAbort_endsGood (die : Nat) (command : CollectiveName) : (execCollectiveAbort die command s).EndsGood := by
  unfold execCollectiveAbort
  have took (link : Nat) := State.tookFrame_memoryGood hs link
  refine endsGood_ite (endsGood_fault _) ?_
  split
  · exact endsGood_fault _
  · next k _ =>
    split
    · exact endsGood_fault _
    · exact occurs_endsGood (memoryGood_ite (State.disagree_memoryGood (took _) _ k [])
        (State.stopCollective_memoryGood (took _) _ k _)) _

end

end Sys2Proof.Machine
end
section
/-! The statement on the canonical form of every memory (15 R242; 25 R384): every instruction and every event keeps it, and so does
every step. -/
namespace Sys2Proof.Machine

section
variable {s : State} (hs : s.memoryGood)
include hs

/-- What a word of a block does is its element's own, whatever it is; each other word and each event has its own lemma. -/
theorem exec_endsGood (i : Instr) : Result.EndsGood (exec i s) := by
  cases i
  case nop | brk code | trap code | li d t imm | pand o | por o | pnot o | fcvt o =>
    dsimp only [exec, execNop, execBrk, execTrap, execLi, execPand, execPor, execPnot, execFcvt]
    exact inBlock_endsGood hs _ _
  case mov o | mulh o | min o | max o | shuf o | bcast o | lrot o | pack o | scan c o =>
    dsimp only [exec, execMov, execMulh, execMin, execMax, execShuf, execBcast, execLrot, execPack, execScan, lanewise,
      inLanes]
    exact inBlock_endsGood hs _ _
  case unpackLo o | unpackHi o =>
    dsimp only [exec, execUnpackLo, execUnpackHi, unpack, lanewise, inLanes]
    exact inBlock_endsGood hs _ _
  case add o | sub o | mul o | mad o | abs o | neg o =>
    dsimp only [exec, execAdd, execSub, execMul, execMad, execAbs, execNeg, arith, lanewise, inLanes]
    exact inBlock_endsGood hs _ _
  case and o | or o | xor o | andn o | orn o | xnor o | shl o | shr o | sar o | rol o | clz o | popc o =>
    dsimp only [exec, execAnd, execOr, execXor, execAndn, execOrn, execXnor, execShl, execShr, execSar, execRol, execClz,
      execPopc, bitwise, lanewise, inLanes]
    exact inBlock_endsGood hs _ _
  case fadd o | fsub o | fmul o | fma o | fms o | fnma o | fmin o | fmax o | fabs o | fneg o =>
    dsimp only [exec, execFadd, execFsub, execFmul, execFma, execFms, execFnma, execFmin, execFmax, execFabs, execFneg,
      floatLanes, lanewise, inLanes]
    exact inBlock_endsGood hs _ _
  case frcp o | frsq o | fexp2 o | flog2 o | ftanh o =>
    dsimp only [exec, execFrcp, execFrsq, execFexp2, execFlog2, execFtanh, specialLanes, floatLanes, lanewise, inLanes]
    exact inBlock_endsGood hs _ _
  case cmp c o | fcmp c o | pset o | sel o | cvt c o | red c o | fred c o | twr o | trd o | scl o | sclrd o =>
    dsimp only [exec, execCmp, execFcmp, execPset, execSel, execCvt, execRed, execFred, execTwr, execTrd, execScl, execSclrd,
      inLanes]
    exact inBlock_endsGood hs _ _
  case cmul o | cmad o =>
    dsimp only [exec, execCmul, execCmad, complexLanes, inLanes]
    exact inBlock_endsGood hs _ _
  case csum o | csver o =>
    dsimp only [exec, execCsum, execCsver, checksumInto, inLanes]
    exact inBlock_endsGood hs _ _
  case send o | sendr o | last o | drop o | keep o | mfence o =>
    dsimp only [exec, execSend, execSendr, execLast, execDrop, execKeep, execMfence]
    exact inBlock_endsGood hs _ _
  case segmac o | segden o | drow o | bwdot o | diff o | accout o | accclr o =>
    dsimp only [exec, execSegmac, execSegden, execDrow, execBwdot, execDiff, execAccout, execAccclr]
    exact inBlock_endsGood hs _ _
  case mld o | mst o | mtake o | mfill o | matom o | eyaddElement o =>
    exact stageAccess_endsGood hs o _ _ _ _ _ _
  case sadd o | ssub o | smul o | sand o | sor o | sxor o | sshl o | sshr o | ssar o | smin o | smax o | smov o =>
    dsimp only [exec, execSadd, execSsub, execSmul, execSand, execSor, execSxor, execSshl, execSshr, execSsar, execSmin,
      execSmax, execSmov]
    exact alu_endsGood hs o _
  case sli o | saddi o | sandi o | slih o =>
    dsimp only [exec, execSli, execSaddi, execSandi, execSlih]
    exact aluImm_endsGood hs o _
  case copy o | gather o | scatter o | tbuild o | scant o | expand o | epi o =>
    dsimp only [exec, execCopy, execGather, execScatter, execTbuild, execScant, execExpand, execEpi]
    exact appendAct_endsGood hs o _ _
  case click o =>
    dsimp only [exec, execClick]
    exact appendAux_endsGood hs o _ _
  case pusht o | popt o =>
    dsimp only [exec, execPusht, execPopt]
    exact appendStack_endsGood hs o _
  case car o | crs o | cag o | ca2a o | cbcast o =>
    dsimp only [exec, execCar, execCrs, execCag, execCa2a, execCbcast]
    exact appendCollective_endsGood hs o _
  case agset o | push o | accept o =>
    dsimp only [exec, execAgset, execPush, execAccept]
    exact onGenerator_endsGood hs _ _ _
  case eyadd o | eyset o =>
    dsimp only [exec, execEyadd, execEyset]
    exact onEyelet_endsGood hs o _ fun _ ht _ _ x r => StepResult.good_stage ht x r _
  case eywait o =>
    dsimp only [exec, execEywait]
    exact onEyelet_endsGood hs o _ fun _ ht _ _ x r => StepResult.good_endStep ht x r _
  case seggrad o => exact execSeggrad_endsGood hs o
  case accst o => exact execAccst_endsGood hs o
  case br cond o => exact execBr_endsGood hs cond o
  case jmp o => exact execJmp_endsGood hs o
  case loop o => exact execLoop_endsGood hs o
  case sld fn o => exact execSld_endsGood hs fn o
  case sst fn o => exact execSst_endsGood hs fn o
  case satom fn o => exact execSatom_endsGood hs fn o
  case cfg o => exact execCfg_endsGood hs o
  case commit o => exact execCommit_endsGood hs o
  case run o => exact execRun_endsGood hs o
  case waitq o => exact execWaitq_endsGood hs o
  case depth o => exact execDepth_endsGood hs o
  case bank o => exact execBank_endsGood hs o
  case chain o => exact execChain_endsGood hs o
  case waitseq o => exact execWaitseq_endsGood hs o
  case tpatch o => exact execTpatch_endsGood hs o
  case spawn o => exact execSpawn_endsGood hs o
  case decl o => exact execDecl_endsGood hs o
  case done o => exact execDone_endsGood hs o
  case cancel o => exact execCancel_endsGood hs o
  case split o => exact execSplit_endsGood hs o
  case yield o => exact execYield_endsGood hs o
  case sfence o => exact execSfence_endsGood hs o
  case permit o => exact execPermit_endsGood hs o
  case unpermit o => exact execUnpermit_endsGood hs o
  case tlbinv o => exact execTlbinv_endsGood hs o
  case quar o => exact execQuar_endsGood hs o
  case ctxsave o => exact execCtxsave_endsGood hs o
  case ctxload o => exact execCtxload_endsGood hs o
  case mon o => exact execMon_endsGood hs o
  case bbnote o => exact execBbnote_endsGood hs o
  case sbrk o => exact execSbrk_endsGood hs o
  case step o => exact execStep_endsGood hs o
  case tokenArrival el port => exact execTokenArrival_endsGood hs el port
  case confToken el port => exact execConfToken_endsGood hs el port
  case ctrlToken el port => exact execCtrlToken_endsGood hs el port
  case blockSelect el => exact execBlockSelect_endsGood hs el
  case promotion el cand => exact execPromotion_endsGood hs el cand
  case blockCommit el => exact execBlockCommit_endsGood hs el
  case tagStoreDeadlock el => exact execTagStoreDeadlock_endsGood hs el
  case tableWriteApply el => exact execTableWriteApply_endsGood hs el
  case flitHop circuit node lands => exact execFlitHop_endsGood hs circuit node lands
  case depthChange el port => exact execDepthChange_endsGood hs el port
  case bankSwitch tile bank => exact execBankSwitch_endsGood hs tile bank
  case memoryRequestPerform el mport => exact execMemoryRequestPerform_endsGood hs el mport
  case replyArrival el mport => exact execReplyArrival_endsGood hs el mport
  case fullEmptyWake request => exact execFullEmptyWake_endsGood hs request
  case eyeletAddition addition => exact execEyeletAddition_endsGood hs addition
  case stepStart q => exact execStepStart_endsGood hs q
  case stepCommit q => exact execStepCommit_endsGood hs q
  case waitSatisfied q => exact execWaitSatisfied_endsGood hs q
  case cfgLoad colour => exact execCfgLoad_endsGood hs colour
  case commitSweep colour => exact execCommitSweep_endsGood hs colour
  case runStartTokens colour => exact execRunStartTokens_endsGood hs colour
  case pushStream tile mport => exact execPushStream_endsGood hs tile mport
  case acceptStream tile mport => exact execAcceptStream_endsGood hs tile mport
  case engineCommandStart c => exact execEngineCommandStart_endsGood hs c
  case engineCommandComplete c place => exact execEngineCommandComplete_endsGood hs c place
  case copyRow c place => exact execCopyRow_endsGood hs c place
  case gatherScatterRow c place => exact execGatherScatterRow_endsGood hs c place
  case clickChunk c place => exact execClickChunk_endsGood hs c place
  case tableBuild c place => exact execTableBuild_endsGood hs c place
  case tablePatch c place => exact execTablePatch_endsGood hs c place
  case scanPass c place => exact execScanPass_endsGood hs c place
  case expandBlock c place => exact execExpandBlock_endsGood hs c place
  case epilogueRow c place => exact execEpilogueRow_endsGood hs c place
  case stackCommand c place => exact execStackCommand_endsGood hs c place
  case spill asid => exact execSpill_endsGood hs asid
  case stackReturn asid => exact execStackReturn_endsGood hs asid
  case hostAppend asid record => exact execHostAppend_endsGood hs asid record
  case recordFetch asid => exact execRecordFetch_endsGood hs asid
  case placement die => exact execPlacement_endsGood hs die
  case gangPlacement die entry => exact execGangPlacement_endsGood hs die entry
  case steal die => exact execSteal_endsGood hs die
  case queueAging entry => exact execQueueAging_endsGood hs entry
  case placementStarvation entry => exact execPlacementStarvation_endsGood hs entry
  case preemptionTimeout entry => exact execPreemptionTimeout_endsGood hs entry
  case preemptionSave colour => exact execPreemptionSave_endsGood hs colour
  case resumption colour => exact execResumption_endsGood hs colour
  case forwardReservation entry => exact execForwardReservation_endsGood hs entry
  case activationCompletion colour => exact execActivationCompletion_endsGood hs colour
  case colourReturn colour => exact execColourReturn_endsGood hs colour
  case redundantComparison colour => exact execRedundantComparison_endsGood hs colour
  case permitGrant colour => exact execPermitGrant_endsGood hs colour
  case powerSample milliwatts => exact execPowerSample_endsGood hs milliwatts
  case supplyDroopFatal die index millivolts => exact execSupplyDroopFatal_endsGood hs die index millivolts
  case weltFrameReceive link frame crcGood => exact execWeltFrameReceive_endsGood hs link frame crcGood
  case weltMessageAgeDiscard message => exact execWeltMessageAgeDiscard_endsGood hs message
  case sendrDelivery message => exact execSendrDelivery_endsGood hs message
  case collectiveStep die lreg input => exact execCollectiveStep_endsGood hs die lreg input
  case collectiveAbort die command => exact execCollectiveAbort_endsGood hs die command
  case retranslation el mport => exact execRetranslation_endsGood hs el mport
  case frespRetry q asid colour => exact execFrespRetry_endsGood hs q asid colour
  case frespSkip q asid colour => exact execFrespSkip_endsGood hs q asid colour
  case frespKill q asid colour => exact execFrespKill_endsGood hs q asid colour
  case frespContinue q asid colour => exact execFrespContinue_endsGood hs q asid colour
  case tlbinvhPage q asid address => exact execTlbinvhPage_endsGood hs q asid address
  case tlbinvhAsid q asid => exact execTlbinvhAsid_endsGood hs q asid
  case tlbinvhIpa q vf address => exact execTlbinvhIpa_endsGood hs q vf address
  case tlbinvhVf q vf => exact execTlbinvhVf_endsGood hs q vf
  case llcinjArm v value => exact execLlcinjArm_endsGood hs v value
  case llcopClean v value => exact execLlcopClean_endsGood hs v value
  case llcopCleanInvalidate v value => exact execLlcopCleanInvalidate_endsGood hs v value
  case reset => exact execReset_endsGood hs
  case selfTestPass f => exact execSelfTestPass_endsGood hs f
  case functionLevelReset v => exact execFunctionLevelReset_endsGood hs v
  case mailboxGo v value => exact execMailboxGo_endsGood hs v value
  case attestationReportDone v dmaGood => exact execAttestationReportDone_endsGood hs v dmaGood
  case monitorRead v offset size => exact execMonitorRead_endsGood hs v offset size
  case fqovfClear v q => exact execFqovfClear_endsGood hs v q
  case ovlcntClear v asid => exact execOvlcntClear_endsGood hs v asid
  case registerWrite v offset size value => exact execRegisterWrite_endsGood hs v offset size value
  case illegalInstruction q => exact execIllegalInstruction_endsGood hs q
  case spillCompletion asid => exact execSpillCompletion_endsGood hs asid
  case stackReturnCompletion asid => exact execStackReturnCompletion_endsGood hs asid
  case hostCancel asid level job id => exact execHostCancel_endsGood hs asid level job id
  case hostMemoryAccess writes address size value => exact execHostMemoryAccess_endsGood hs writes address size value

theorem turn_endsGood : Result.EndsGood (turn s) := by
  unfold turn
  split
  · exact exec_endsGood hs _
  · exact endsGood_fault _
  · exact endsGood_fault _

theorem perform_endsGood : Result.EndsGood (perform s) := by
  unfold perform
  split
  · next i rest _ => exact exec_endsGood (s := { s with agenda := rest }) hs i
  · split
    · refine lenient_endsGood hs ?_
      split
      · exact exec_endsGood hs _
      · next el _ => exact turn_endsGood (s := { s with focus := .element el }) hs
      · next q _ => exact turn_endsGood (s := { s with focus := .sequencer q }) hs
    · exact turn_endsGood hs

theorem haltedStep_endsGood : Result.EndsGood (haltedStep s) := by
  unfold haltedStep
  split
  · exact endsGood_next (State.pass_memoryGood hs)
  · exact passing_endsGood (perform_endsGood (s := { s with focus := .none }) hs)
  · exact passing_endsGood (staysHalted_endsGood (perform_endsGood (s := { s with focus := .none, halted := false }) hs))

theorem step_endsGood : Result.EndsGood (step s) :=
  endsGood_ite (haltedStep_endsGood hs) (passing_endsGood (perform_endsGood hs))

end

/-- Settles O58: device memory, the memories of every tile and those of every saved frame are written by `Mem.writeNat` and
`Mem.writeBytes` alone, which keep the form, or replaced by one another or by the empty memory, which has it (`exec_endsGood`). -/
theorem stepsKeepMemoriesCanonical : Obligations.StepsKeepMemoriesCanonical :=
  fun _ t hs h => step_endsGood hs t h

end Sys2Proof.Machine
end
